-- ==== Sys2Proof/Word.lean ====
section
/-! DEFINITION. The word types of the HX9 model and nothing else; every byte-order and bit-field helper
stands in Sys2Proof/Machine/Data.lean. -/
namespace Sys2Proof

/-- One byte (R4). -/
abbrev Byte := BitVec 8
/-- A string of bytes, the lowest address first (R4). -/
abbrev Bytes := List Byte
/-- A binary32 value as its 32 bits (IEEE 754). -/
abbrev F32 := BitVec 32
/-- A binary64 value as its 64 bits (IEEE 754). -/
abbrev F64 := BitVec 64
/-- An instant or a duration in whole nanoseconds of TAI time (R535). -/
abbrev Ns := Nat
/-- A tick index (R7). -/
abbrev Tick := Nat

end Sys2Proof
end

