-- ==== Sys2Proof/Frame.lean ====
section
/-! DEFINITION. Frames on the wire. A frame carries the bytes after its EtherType (what a host ring delivers and the twin and
chain units read) and beside them what the standards the spec cites decode from them (log entry 5). -/
namespace Sys2Proof

/-- The redundancy control trailer of IEC 62439-3 (R69). -/
structure Prp where
  seq : Nat
  lan : Nat
  /-- Whether the LSDU size agrees with the frame. -/
  sizeOk : Bool
  deriving DecidableEq, Repr

/-- The IEC 62351-6 authentication extension: a key identifier and the authentication value (R67). -/
structure AuthExt where
  keyId : Nat
  value : Bytes
  deriving DecidableEq, Repr

/-- One ASDU of a sampled-value frame (R59). -/
structure Asdu where
  svid : Bytes
  smpCnt : Nat
  confRev : Nat
  smpSynch : Nat
  smpRate : Option Nat
  smpMod : Option Nat
  gm : Option (BitVec 64)
  /-- The dataset: an INT32 value and a 32-bit quality for each channel. -/
  data : List (BitVec 32 × BitVec 32)
  deriving DecidableEq, Repr

/-- A sampled-value APDU with the fields of its header (R59). -/
structure SvPdu where
  appid : Nat
  simulate : Bool
  auth : Option AuthExt
  asdus : List Asdu
  deriving DecidableEq, Repr

/-- The IEEE_C37_238 TLV of an Announce: grandmaster number and total time inaccuracy in ns (R36). -/
structure PowerTlv where
  gmNum : Nat
  inaccuracy : Nat
  deriving DecidableEq, Repr

/-- The ALTERNATE_TIME_OFFSET_INDICATOR TLV of an Announce: key field, current offset and next jump in s, the second of that jump,
and the display name (R36; IEEE 1588). -/
structure ZoneTlv where
  key : Nat
  offset : Int
  jump : Int
  next : Nat
  name : Bytes
  deriving DecidableEq, Repr

/-- The TLVs of IEEE C37.238-2017 that an Announce carries (R36). -/
structure PtpTlvs where
  power : Option PowerTlv
  zones : List ZoneTlv
  deriving DecidableEq, Repr

/-- PTP messages as far as the CP's protocol reads them (R36). -/
inductive PtpMsg where
  /-- Announce: domain, grandmaster identity, priority1, priority2, clock quality as one number (class, accuracy,
  variance), steps removed, UTC offset, its valid flag, leap61, leap59, TLVs. -/
  | announce (domain : Nat) (gm : BitVec 64) (prio1 prio2 quality steps : Nat) (utc : Int) (utcValid leap61 leap59 : Bool)
      (tlvs : PtpTlvs)
  /-- Sync with its sequence number, its two-step flag, its origin instant and correction in ns. -/
  | sync (domain seq : Nat) (twoStep : Bool) (origin : Nat) (correction : Int)
  /-- The Follow_Up of a two-step Sync, with the instant at which that was transmitted. -/
  | followUp (domain seq : Nat) (origin : Nat) (correction : Int)
  /-- Pdelay_Req with its own sequence number. -/
  | pdelayReq (domain : Nat) (seq : Nat)
  /-- Pdelay_Resp with the number of its request, its two-step flag and the instant at which the request was received; one-step, the
  correction holds the time from there to its transmission. -/
  | pdelayResp (domain seq : Nat) (twoStep : Bool) (received : Nat) (correction : Int)
  /-- The Pdelay_Resp_Follow_Up of a two-step one, with the instant at which the Pdelay_Resp was transmitted. -/
  | pdelayFollowUp (domain seq : Nat) (sent : Nat) (correction : Int)
  /-- Any other message type. -/
  | other (domain : Nat)
  deriving DecidableEq, Repr

/-- A dataset entry of a GOOSE message, by its encoding (R210, R228). -/
inductive GVal where
  | bool (v : Bool)
  /-- A bit string of a length. -/
  | bits (len v : Nat)
  /-- An integer of 32 or 64 bits. -/
  | int (w : Nat) (v : BitVec 64)
  | uint (v : BitVec 32)
  | f32 (v : F32)
  | f64 (v : F64)
  /-- UtcTime: UTC seconds, 24-bit fraction, TimeQuality. -/
  | utc (sec frac : Nat) (tq : BitVec 8)
  deriving DecidableEq, Repr

/-- A GOOSE APDU with the fields of its header (R232, R237). -/
structure GoosePdu where
  appid : Nat
  simulate : Bool
  auth : Option AuthExt
  ref : Bytes
  /-- timeAllowedtoLive in ms. -/
  tal : Nat
  datSet : Bytes
  goId : Bytes
  /-- t as UTC seconds, 24-bit fraction and TimeQuality. -/
  tSec : Nat
  tFrac : Nat
  tq : BitVec 8
  stNum : BitVec 32
  sqNum : BitVec 32
  confRev : Nat
  ndsCom : Bool
  entries : Nat
  data : List GVal
  deriving DecidableEq, Repr

/-- What a frame carries, as the standard of its EtherType decodes it. -/
inductive Body where
  /-- A sampled-value APDU that decodes; one that does not is `raw` (R59). -/
  | sv (p : SvPdu)
  /-- A GOOSE APDU that decodes. -/
  | goose (p : GoosePdu)
  | ptp (m : PtpMsg)
  /-- Anything else, seen only as its bytes. -/
  | raw
  deriving DecidableEq, Repr

/-- A frame as a MAC receives or sends it. -/
structure Frame where
  dmac : BitVec 48
  smac : BitVec 48
  /-- The 802.1Q tags, outermost first: TPID and TCI. -/
  tags : List (Nat × Nat)
  etype : Nat
  /-- Frame length in bytes, from the destination address to the FCS. -/
  len : Nat
  prp : Option Prp
  body : Body
  /-- The bytes after the EtherType, without the FCS. -/
  payload : Bytes
  deriving DecidableEq, Repr

/-- A PTP message as it reaches the CP: the message, the length of its frame, and by how many ns the fragments the frame came in, if
any, put its end off (R37). -/
structure PtpRx where
  msg : PtpMsg
  len : Nat
  extra : Nat
  deriving DecidableEq, Repr

/-- What a MAC sees of a frame it receives, beside the frame (R267, R277). -/
structure RxFrame where
  frame : Frame
  /-- The frame check sequence is good. -/
  fcsOk : Bool
  /-- No symbol was received with an error. -/
  symbolsOk : Bool
  /-- It came as preempted fragments: how many, and whether their reassembly succeeded (R277). -/
  fragments : Option (Nat × Bool)
  /-- By how many ns the gaps between its fragments and what came in them have put its end off, 0 for a frame in one piece (R37). -/
  extra : Nat
  /-- It came, whole or in fragments, as a preemptable frame (R256, R275). -/
  preemptable : Bool
  deriving DecidableEq, Repr

/-- How the verify procedure of frame preemption ends: the port's own, for its transmit direction, or the partner's, for the receive
direction (R275). -/
inductive Verify where
  | transmit (ok : Bool)
  | receive (ok : Bool)
  deriving DecidableEq, Repr

/-- Where a frame waits for admission: the headroom of a MAC port and class, or a slice's or the system's transmit
ring (R250, R251). -/
inductive Source where
  | port (p : Fin 13) (tc : Fin 8)
  | ring (r : Fin 256)
  | internal
  deriving DecidableEq, Repr

end Sys2Proof
end

