-- ==== Sys2Proof/Syntax.lean ====
section
/-! DEFINITION. The commands and events of the HX9, one constructor per row of the spec's table of operations. -/
namespace Sys2Proof

/-- The way a mailbox message comes in (R458): a session on M0, M1 from the apex, M2 from the twin partner, M3 on the
debug connector, or the mailbox of a slice. -/
inductive Box where
  | m0 (session : Fin 4)
  | m1
  | m2
  | m3
  | slice (tag : Fin 65)
  deriving DecidableEq, Repr

/-- The header of a request, as R460 lays it out; CODE is the row's own. -/
structure Hdr where
  box : Box
  flags : BitVec 16
  seq : BitVec 32
  /-- LENGTH, the payload length of the whole message. -/
  length : Nat
  target : BitVec 8
  segment : BitVec 16
  /-- APPLY, the apply tick; 0 means as soon as possible. -/
  apply : Nat
  status : BitVec 32
  role : BitVec 32
  deriving DecidableEq, Repr

/-- The commands and events of the block, one constructor per row of the spec's table of operations. -/
inductive Instr where
  /-- TIME_STATUS, R38. -/
  | timeStatus (h : Hdr) (p : Bytes)
  /-- TIME_RATE, R48. -/
  | timeRate (h : Hdr) (p : Bytes)
  /-- TIME_STEP, R49. -/
  | timeStep (h : Hdr) (p : Bytes)
  /-- TIME_PTP_SET, R36. -/
  | timePtpSet (h : Hdr) (p : Bytes)
  /-- SVI_SUB_SET, R64. -/
  | sviSubSet (h : Hdr) (p : Bytes)
  /-- SVI_CHAN_SET, R61. -/
  | sviChanSet (h : Hdr) (p : Bytes)
  /-- SVI_SUB_STATUS, R80. -/
  | sviSubStatus (h : Hdr) (p : Bytes)
  /-- RSC_GROUP_SET, R102. -/
  | rscGroupSet (h : Hdr) (p : Bytes)
  /-- RSC_BANK_LOAD, R101. -/
  | rscBankLoad (h : Hdr) (p : Bytes)
  /-- RSC_SWAP, R98. -/
  | rscSwap (h : Hdr) (p : Bytes)
  /-- RSC_GROUP_STATUS, R103. -/
  | rscGroupStatus (h : Hdr) (p : Bytes)
  /-- EST_GROUP_SET, R106. -/
  | estGroupSet (h : Hdr) (p : Bytes)
  /-- EST_FREEZE, R118. -/
  | estFreeze (h : Hdr) (p : Bytes)
  /-- EST_RELEASE, R118. -/
  | estRelease (h : Hdr) (p : Bytes)
  /-- EST_GROUP_STATUS, R144. -/
  | estGroupStatus (h : Hdr) (p : Bytes)
  /-- EST_FRAME_STATUS, R144. -/
  | estFrameStatus (h : Hdr) (p : Bytes)
  /-- SLC_HUE_SET, R151. -/
  | slcHueSet (h : Hdr) (p : Bytes)
  /-- SLC_ADMIT, R159. -/
  | slcAdmit (h : Hdr) (p : Bytes)
  /-- SLC_START, R160. -/
  | slcStart (h : Hdr) (p : Bytes)
  /-- SLC_STOP, R150. -/
  | slcStop (h : Hdr) (p : Bytes)
  /-- SLC_RESET, R174. -/
  | slcReset (h : Hdr) (p : Bytes)
  /-- SLC_REMOVE, R150. -/
  | slcRemove (h : Hdr) (p : Bytes)
  /-- SLC_RESOURCE_SET_HUE, R171. -/
  | slcResourceSetHue (h : Hdr) (p : Bytes)
  /-- SLC_RESOURCE_SET_REGION_SIZE, R170. -/
  | slcResourceSetRegionSize (h : Hdr) (p : Bytes)
  /-- SLC_RESOURCE_SET_RING_ASSIGN, R168. -/
  | slcResourceSetRingAssign (h : Hdr) (p : Bytes)
  /-- SLC_RESOURCE_SET_RING_RELEASE, R168. -/
  | slcResourceSetRingRelease (h : Hdr) (p : Bytes)
  /-- SLC_RESOURCE_SET_SWITCH_SHARE, R169. -/
  | slcResourceSetSwitchShare (h : Hdr) (p : Bytes)
  /-- SLC_RESOURCE_SET_READY, R168. -/
  | slcResourceSetReady (h : Hdr) (p : Bytes)
  /-- SLC_SUB_SET, R138. -/
  | slcSubSet (h : Hdr) (p : Bytes)
  /-- SLC_RIGHTS_GRANT, R172. -/
  | slcRightsGrant (h : Hdr) (p : Bytes)
  /-- SLC_RIGHTS_REVOKE, R172. -/
  | slcRightsRevoke (h : Hdr) (p : Bytes)
  /-- SLC_MEM_RELEASE, R170. -/
  | slcMemRelease (h : Hdr) (p : Bytes)
  /-- SLC_STATUS, R176. -/
  | slcStatus (h : Hdr) (p : Bytes)
  /-- DSP_LAT_LOAD, R204. -/
  | dspLatLoad (h : Hdr) (p : Bytes)
  /-- DSP_LAT_APPLY, R204. -/
  | dspLatApply (h : Hdr) (p : Bytes)
  /-- DSP_LAT_READ, R186. -/
  | dspLatRead (h : Hdr) (p : Bytes)
  /-- DSP_HANDLER_ENABLE, R205. -/
  | dspHandlerEnable (h : Hdr) (p : Bytes)
  /-- DSP_HANDLER_DISABLE, R205. -/
  | dspHandlerDisable (h : Hdr) (p : Bytes)
  /-- DSP_STATUS, R206. -/
  | dspStatus (h : Hdr) (p : Bytes)
  /-- SIG_RANGE_SET, R215. -/
  | sigRangeSet (h : Hdr) (p : Bytes)
  /-- SIG_PUB_SET, R228. -/
  | sigPubSet (h : Hdr) (p : Bytes)
  /-- SIG_SUB_SET, R236. -/
  | sigSubSet (h : Hdr) (p : Bytes)
  /-- SIG_CURVE_SET, R234. -/
  | sigCurveSet (h : Hdr) (p : Bytes)
  /-- SIG_POINT_READ, R221. -/
  | sigPointRead (h : Hdr) (p : Bytes)
  /-- SIG_PUB_STATUS, R239. -/
  | sigPubStatus (h : Hdr) (p : Bytes)
  /-- SIG_SUB_STATUS, R239. -/
  | sigSubStatus (h : Hdr) (p : Bytes)
  /-- SWC_BUF_SET, R249. -/
  | swcBufSet (h : Hdr) (p : Bytes)
  /-- SWC_QUEUE_SET, R250. -/
  | swcQueueSet (h : Hdr) (p : Bytes)
  /-- SWC_PORT_SET, R256. -/
  | swcPortSet (h : Hdr) (p : Bytes)
  /-- SWC_STATUS, R262. -/
  | swcStatus (h : Hdr) (p : Bytes)
  /-- SWC_QUEUE_STATUS, R262. -/
  | swcQueueStatus (h : Hdr) (p : Bytes)
  /-- MAC_PORT_SET, R284. -/
  | macPortSet (h : Hdr) (p : Bytes)
  /-- MAC_RULE_SET, R269. -/
  | macRuleSet (h : Hdr) (p : Bytes)
  /-- MAC_PORT_STATUS, R286. -/
  | macPortStatus (h : Hdr) (p : Bytes)
  /-- MAC_RULE_STATUS, R286. -/
  | macRuleStatus (h : Hdr) (p : Bytes)
  /-- HDMA_RING_SET, R289. -/
  | hdmaRingSet (h : Hdr) (p : Bytes)
  /-- HDMA_RINGSET_SET, R299. -/
  | hdmaRingsetSet (h : Hdr) (p : Bytes)
  /-- HDMA_RING_STATUS, R308. -/
  | hdmaRingStatus (h : Hdr) (p : Bytes)
  /-- LGE_PROG_LOAD, R311. -/
  | lgeProgLoad (h : Hdr) (p : Bytes)
  /-- LGE_PROG_EXCHANGE, R338. -/
  | lgeProgExchange (h : Hdr) (p : Bytes)
  /-- LGE_PROG_SET, R312. -/
  | lgeProgSet (h : Hdr) (p : Bytes)
  /-- LGE_RESTART_WARM, R331. -/
  | lgeRestartWarm (h : Hdr) (p : Bytes)
  /-- LGE_RESTART_COLD, R331. -/
  | lgeRestartCold (h : Hdr) (p : Bytes)
  /-- LGE_FORCE_SET, R334. -/
  | lgeForceSet (h : Hdr) (p : Bytes)
  /-- LGE_FORCE_REMOVE, R335. -/
  | lgeForceRemove (h : Hdr) (p : Bytes)
  /-- LGE_FORCE_LIST, R334. -/
  | lgeForceList (h : Hdr) (p : Bytes)
  /-- LGE_STATUS, R341. -/
  | lgeStatus (h : Hdr) (p : Bytes)
  /-- ENG_POINT_SET, R344. -/
  | engPointSet (h : Hdr) (p : Bytes)
  /-- ENG_PULSE_OUT_SET, R355. -/
  | engPulseOutSet (h : Hdr) (p : Bytes)
  /-- ENG_PULSE_IN_SET, R359. -/
  | engPulseInSet (h : Hdr) (p : Bytes)
  /-- ENG_PRESET_REGISTER, R351. -/
  | engPresetRegister (h : Hdr) (p : Bytes)
  /-- ENG_PRESET_PULSE_INPUT, R359. -/
  | engPresetPulseInput (h : Hdr) (p : Bytes)
  /-- ENG_READ, R351. -/
  | engRead (h : Hdr) (p : Bytes)
  /-- ENG_IO_READ, R364. -/
  | engIoRead (h : Hdr) (p : Bytes)
  /-- UMB_STREAM_SET, R369. -/
  | umbStreamSet (h : Hdr) (p : Bytes)
  /-- UMB_ELEM_SET, R373. -/
  | umbElemSet (h : Hdr) (p : Bytes)
  /-- UMB_TRIP_SET, R380. -/
  | umbTripSet (h : Hdr) (p : Bytes)
  /-- UMB_PUB_SET, R382. -/
  | umbPubSet (h : Hdr) (p : Bytes)
  /-- UMB_CONFIG_SET, R378. -/
  | umbConfigSet (h : Hdr) (p : Bytes)
  /-- UMB_STATUS, R388. -/
  | umbStatus (h : Hdr) (p : Bytes)
  /-- EVR_READ, R399. -/
  | evrRead (h : Hdr) (p : Bytes)
  /-- EVR_CODE_SET, R405. -/
  | evrCodeSet (h : Hdr) (p : Bytes)
  /-- EVR_CLEAR, R407. -/
  | evrClear (h : Hdr) (p : Bytes)
  /-- EVR_INFO, R408. -/
  | evrInfo (h : Hdr) (p : Bytes)
  /-- TWN_PAIR_SET, R411. -/
  | twnPairSet (h : Hdr) (p : Bytes)
  /-- TWN_QUOTA_SET, R424. -/
  | twnQuotaSet (h : Hdr) (p : Bytes)
  /-- TWN_SWITCH, R430. -/
  | twnSwitch (h : Hdr) (p : Bytes)
  /-- TWN_STATUS, R436. -/
  | twnStatus (h : Hdr) (p : Bytes)
  /-- CHN_ENUMERATE, R442. -/
  | chnEnumerate (h : Hdr) (p : Bytes)
  /-- CHN_PLACE, R454. -/
  | chnPlace (h : Hdr) (p : Bytes)
  /-- CHN_STATUS, R453. -/
  | chnStatus (h : Hdr) (p : Bytes)
  /-- CHN_CAP, R453. -/
  | chnCap (h : Hdr) (p : Bytes)
  /-- SYS_IDENT, R1. -/
  | sysIdent (h : Hdr) (p : Bytes)
  /-- SYS_STATUS, R16. -/
  | sysStatus (h : Hdr) (p : Bytes)
  /-- SYS_HOLDOFF_SET, R134. -/
  | sysHoldoffSet (h : Hdr) (p : Bytes)
  /-- SYS_RESTART_COLD, R505. -/
  | sysRestartCold (h : Hdr) (p : Bytes)
  /-- SYS_RESTART_MODULE, R505. -/
  | sysRestartModule (h : Hdr) (p : Bytes)
  /-- SYS_RESTART_COMPUTE, R505. -/
  | sysRestartCompute (h : Hdr) (p : Bytes)
  /-- SYS_RESTART_SLEEP, R509. -/
  | sysRestartSleep (h : Hdr) (p : Bytes)
  /-- SYS_RESTART_SLEEP_FABRIC, R509. -/
  | sysRestartSleepFabric (h : Hdr) (p : Bytes)
  /-- SYS_ROLE_GRANT, R474. -/
  | sysRoleGrant (h : Hdr) (p : Bytes)
  /-- SYS_CAP_READ, R477. -/
  | sysCapRead (h : Hdr) (p : Bytes)
  /-- CFG_STAGE_OPEN, R490. -/
  | cfgStageOpen (h : Hdr) (p : Bytes)
  /-- CFG_STAGE_WRITE, R490. -/
  | cfgStageWrite (h : Hdr) (p : Bytes)
  /-- CFG_STAGE_DISCARD, R490. -/
  | cfgStageDiscard (h : Hdr) (p : Bytes)
  /-- CFG_COMMIT, R490. -/
  | cfgCommit (h : Hdr) (p : Bytes)
  /-- CFG_IMAGE_STORE, R494. -/
  | cfgImageStore (h : Hdr) (p : Bytes)
  /-- CFG_IMAGE_DELETE, R494. -/
  | cfgImageDelete (h : Hdr) (p : Bytes)
  /-- CFG_EXPORT, R492. -/
  | cfgExport (h : Hdr) (p : Bytes)
  /-- CFG_STATUS, R488. -/
  | cfgStatus (h : Hdr) (p : Bytes)
  /-- SEC_OWNER_SLOT_PROGRAM, R483. -/
  | secOwnerSlotProgram (h : Hdr) (p : Bytes)
  /-- SEC_OWNER_SLOT_REVOKE, R483. -/
  | secOwnerSlotRevoke (h : Hdr) (p : Bytes)
  /-- SEC_KEY_LOAD, R496. -/
  | secKeyLoad (h : Hdr) (p : Bytes)
  /-- SEC_TLS_ANCHOR_SET, R496. -/
  | secTlsAnchorSet (h : Hdr) (p : Bytes)
  /-- SEC_TLS_ANCHOR_CLEAR, R496. -/
  | secTlsAnchorClear (h : Hdr) (p : Bytes)
  /-- SEC_TLS_MODULE_CERT, R496. -/
  | secTlsModuleCert (h : Hdr) (p : Bytes)
  /-- SEC_TLS_READ_PUBLIC_KEY, R496. -/
  | secTlsReadPublicKey (h : Hdr) (p : Bytes)
  /-- SEC_FW_INSTALL, R495. -/
  | secFwInstall (h : Hdr) (p : Bytes)
  /-- SEC_ATTEST, R497. -/
  | secAttest (h : Hdr) (p : Bytes)
  /-- SEC_STATUS, R482. -/
  | secStatus (h : Hdr) (p : Bytes)
  /-- SLW_TIME_S_READ, R46: Read of SLW_TIME_S that returns the seconds and latches nanoseconds and time state into the core's latch. -/
  | slwTimeSRead (core : Fin 32)
  /-- DSP_FETCH, R190: Read of DSP_FETCH that completes the core's previous item and waits pending for a grant. -/
  | dspFetch (core : Fin 32)
  /-- DSP_SUBMIT, R182: Write of DSP_SUBMIT that submits a work item to the slice's ready or delay list or refuses it. -/
  | dspSubmit (core : Fin 32) (va : BitVec 64)
  /-- DSP_CANCEL, R195: Write of DSP_CANCEL that removes a listed item of the slice by handle. -/
  | dspCancel (core : Fin 32) (v : BitVec 64)
  /-- SPA_READ, R221: SPA_CMD op 1: reads the point at INDEX into the access registers. -/
  | spaRead (core : Fin 32)
  /-- SPA_WRITE_AUTO, R217: SPA_CMD op 2: stages a write of a point with an automatic timestamp. -/
  | spaWriteAuto (core : Fin 32)
  /-- SPA_WRITE_EXPLICIT, R217: SPA_CMD op 3: stages a write of a point with an explicit timestamp. -/
  | spaWriteExplicit (core : Fin 32)
  /-- SPA_BURST_READ, R226: SPA_BURST_CMD op 1: reads a list of points into a slice buffer. -/
  | spaBurstRead (core : Fin 32) (count : BitVec 16)
  /-- SPA_BURST_WRITE_AUTO, R226: SPA_BURST_CMD op 2: stages writes of a list of points with automatic timestamps. -/
  | spaBurstWriteAuto (core : Fin 32) (count : BitVec 16)
  /-- SPA_BURST_WRITE_EXPLICIT, R226: SPA_BURST_CMD op 3: stages writes of a list of points with explicit timestamps. -/
  | spaBurstWriteExplicit (core : Fin 32) (count : BitVec 16)
  /-- RDB_TAIL, R294: Write of a ring doorbell that posts descriptors by moving TAIL, or is refused and counted. -/
  | rdbTail (core : Fin 32) (pos : Fin 64) (v : BitVec 64)
  /-- RDB_HEAD_READ, R293: Read of RDB_HEAD that returns ring state and clears the read-sensitive STARVE bit. -/
  | rdbHeadRead (core : Fin 32) (pos : Fin 64)
  /-- MBX_TAKE_REQUEST, R465: MBX_DOORBELL op 0x01: hands the request segment in the slice buffer to the CP. -/
  | mbxTakeRequest (core : Fin 32)
  /-- MBX_NEXT_RESPONSE, R465: MBX_DOORBELL op 0x02: asks the CP to place the next response segment. -/
  | mbxNextResponse (core : Fin 32)
  /-- MBX_ABANDON, R463: MBX_DOORBELL op 0x03: abandons the message being assembled or the rest of the response. -/
  | mbxAbandon (core : Fin 32)
  /-- MBX_STATUS_READ, R466: Read of MBX_STATUS that returns mailbox state and clears the read-sensitive OVERRUN bit. -/
  | mbxStatusRead (core : Fin 32)
  /-- EVR_CURSOR, R402: Write of EVR_CURSOR that starts a fill of the event window at a sequence number of an area. -/
  | evrCursor (core : Fin 32) (v : BitVec 64)
  /-- REGISTER_WRITE, R6: Write of a register field that has no row of its own, with the access behaviour of its code. -/
  | registerWrite (core : Fin 32) (va : BitVec 64) (v : BitVec 64)
  /-- I2C_ACCESS, R528: I2C transfer on the management map, reading snapshot fields and clearing the sticky VIO bit; writes are ignored. -/
  | i2cAccess (write : Bool) (off : BitVec 8) (count : Nat)
  /-- INCREMENT_WRITE, R32: CP firmware writes the time unit increment, applied from the next cycle. -/
  | incrementWrite (v : BitVec 64)
  /-- OFFSET_ADD_WRITE, R34: CP firmware writes an offset-add, held pending or refused. -/
  | offsetAddWrite (v : Int)
  /-- TICK_BOUNDARY, R9: The clock reaches T(n): tick n begins, with grid restarts, time-state latching and tick-anchored actions. -/
  | tickBoundary
  /-- SLOT_BOUNDARY, R184: The clock reaches a slot boundary: the dispatcher releases, applies submissions and cancels, and grants. -/
  | slotBoundary
  /-- DELAY_RELEASE, R185: A delayed item reaches its due slot and is released to the tail of its ready list. -/
  | delayRelease (tag : Fin 65)
  /-- WINDOW_OVERRUN_ABORT, R194: An item not completed by the boundary of slot e + 3 is aborted and counted against its slice. -/
  | windowOverrunAbort (core : Fin 32)
  /-- WINDOW_COMMIT, R217: At slot e + 3 of a window the staged point writes of its items commit together. -/
  | windowCommit (core : Fin 32)
  /-- HANDLER_FAULT, R173: A refused access, bad instruction or unaligned window access aborts the item and counts a fault. -/
  | handlerFault (core : Fin 32) (addr : BitVec 64)
  /-- SCHEDULED_CHANGE_APPLY, R25: A change accepted for apply tick n becomes effective at T(n) and its outcome is recorded. -/
  | scheduledChangeApply
  /-- LEAP_SECOND, R41: At the leap instant the UTC offset changes by one second. -/
  | leapSecond
  /-- PTP_MESSAGE_RECEIVE, R36: A PTP message reaches the CP, which runs the protocol and disciplines the clock. -/
  | ptpMessageReceive (port : Fin 8) (msg : PtpRx)
  /-- MASTER_LOSS, R39: No Announce or Sync arrives within its timeout and the master is lost, entering master holdover. -/
  | masterLoss
  /-- HOLDOVER_LIMIT_EXPIRE, R39: Holdover lasts as long as the holdover limit and the state becomes unsynchronised after holdover limit. -/
  | holdoverLimitExpire
  /-- FRAME_RECEIVE, R267: A MAC receives a frame, timestamps and checks it, and steers it by its filter rules. -/
  | frameReceive (port : Fin 13) (f : RxFrame)
  /-- CUT_THROUGH, R256: After 64 bytes of a frame, received as a preemptable one or not, the switch decides cut-through for each MAC
  target. -/
  | cutThrough (port : Fin 13) (f : RxFrame)
  /-- ADMISSION, R250: A waiting frame is tried for admission to its target queues and source account in a switch clock cycle. -/
  | admission (src : Source)
  /-- PAUSE_RESEND, R282: Half the pause time has elapsed with occupancy above XON and the flow-control frame is sent again. -/
  | pauseResend (port : Fin 13)
  /-- PAUSE_RECEIVE, R280: A PAUSE frame received on a port stops, reloads or ends the pause of all classes. -/
  | pauseReceive (port : Fin 13) (quanta : BitVec 16)
  /-- PFC_RECEIVE, R280: A PFC frame received stops, reloads or ends the pause of selected classes. -/
  | pfcReceive (port : Fin 13) (vec : BitVec 8) (times : List (BitVec 16))
  /-- PAUSE_TIMER_EXPIRE, R280: A class's pause timer runs out and transmission of the class resumes. -/
  | pauseTimerExpire (port : Fin 13) (tc : Fin 8)
  /-- PAUSE_STORM, R281: A class stays paused without a break for the storm limit and the MAC ignores pauses for one limit. -/
  | pauseStorm (port : Fin 13) (tc : Fin 8)
  /-- PAUSE_STORM_PERIOD_END, R281: A storm period ends: the storm continues if pauses arrived, otherwise pauses are obeyed again. -/
  | pauseStormPeriodEnd (port : Fin 13) (tc : Fin 8)
  /-- MAC_TRANSMIT_START, R274: At a frame boundary the MAC starts the next frame by flow-control, launch and class priority. -/
  | macTransmitStart (port : Fin 13)
  /-- LAUNCH_HOLD_GUARD, R56: The clock reaches a pending launch instant minus the hold guard and lower classes are held or preempted. -/
  | launchHoldGuard (port : Fin 13)
  /-- LAUNCH, R55: A launch-timed frame's launch instant comes and the MAC begins it. -/
  | launch (port : Fin 13)
  /-- PREEMPT_VERIFY, R275: The 802.3br verify procedure of the receive or the transmit direction succeeds, or fails after 3 attempts of
  verifyTime. -/
  | preemptVerify (port : Fin 13) (v : Verify)
  /-- LINK_UP, R285: A port's link comes up; transmission resumes and preemption verification restarts. -/
  | linkUp (port : Fin 13)
  /-- LINK_DOWN, R285: A port's link goes down; the frame in transmission is abandoned and queue heads are discarded. -/
  | linkDown (port : Fin 13)
  /-- TRANSCEIVER_INSERT, R524: A transceiver is inserted and its declared power level is checked against the cage limit. -/
  | transceiverInsert (port : Fin 13) (level : Nat)
  /-- SV_FRAME_INGEST, R65: Ingest takes an SV frame from IX and applies parse, match, port, authentication, duplicate, police, ASDU,
  simulation and sequence steps. -/
  | svFrameIngest
  /-- ASSEMBLY, R133: At D(n) the chain, estimate engine and assembly compute and write tick n's records and post frame-ready items. -/
  | assembly
  /-- RECOVERY_EXIT, R113: A group's outputs have been valid or questionable for Rt consecutive ticks and it leaves recovery. -/
  | recoveryExit (group : Fin 256)
  /-- FREEZE_END, R117: Ht ticks after the last trigger, or the end of a command freeze, tracking resumes. -/
  | freezeEnd (chan : Fin 12288)
  /-- TRACKING_LOST, R125: Tracking fails at every boundary for 1 s and f_t is set to f0. -/
  | trackingLost (group : Fin 256)
  /-- COMPARATOR_TRANSITION, R128: A threshold comparator turns on after its persistence count, or off past its hysteresis. -/
  | comparatorTransition (chan : Fin 12288) (k : Fin 4)
  /-- GOOSE_RETRANSMIT, R234: A block's retransmission falls due at Λ(m + c_i) and a message is enqueued. -/
  | gooseRetransmit (blk : Fin 2048)
  /-- GOOSE_RECEIVE, R237: The GOOSE engine takes a subscribed message, checks it and commits accepted member points. -/
  | gooseReceive
  /-- GOOSE_SUPERVISION_EXPIRE, R238: No accepted message arrives within timeAllowedtoLive and member qualities become invalid. -/
  | gooseSupervisionExpire (blk : Fin 4096)
  /-- LOGIC_CYCLE_BOUNDARY, R314: A program's cycle length elapses at D(b + C): it commits if complete and the next cycle begins, or it
  overruns. -/
  | logicCycleBoundary (prog : Fin 64)
  /-- LOGIC_EXECUTION_PERIOD, R313: From D(n) + 4 µs each logic processor executes its programs up to their step quotas. -/
  | logicExecutionPeriod
  /-- RING_RECEIVE_DELIVERY, R298: The DMA engine delivers a frame from a ring receive queue into posted buffers and writes the
  descriptors back. -/
  | ringReceiveDelivery (ring : Fin 256)
  /-- RING_HOLD_EXPIRE, R300: A frame held for lack of a buffer for 1 tick is dropped and the ring enters the starved state. -/
  | ringHoldExpire (ring : Fin 256)
  /-- RING_TRANSMIT_READ, R303: The DMA engine reads a transmit frame's descriptors and offers it for admission or refuses it. -/
  | ringTransmitRead (ring : Fin 256)
  /-- RING_TRANSMIT_COMPLETE, R304: A transmitted frame's reference count reaches zero and its descriptors are written back. -/
  | ringTransmitComplete (frame : Nat)
  /-- RING_COMPLETION_POST, R305: An armed ring's pending count reaches CMP_COUNT or CMP_TICKS elapse and a completion item is posted. -/
  | ringCompletionPost (ring : Fin 256)
  /-- ENGINE_ITEM_STALL_RELEASE, R182: A held engine or CP item for a full slice enters the list once ready capacity frees. -/
  | engineItemStallRelease (tag : Fin 65)
  /-- ENERGY_INCREMENT_APPLY, R350: The umber domain applies a tick's increments to all registers, residues and pulse stores. -/
  | energyIncrementApply
  /-- PULSE_OUT_START, R357: A pending pulse starts at a tick boundary when the output has been inactive long enough. -/
  | pulseOutStart (out : Fin 16)
  /-- PULSE_OUT_END, R357: A pulse's width in ticks elapses and the output goes inactive. -/
  | pulseOutEnd (out : Fin 16)
  /-- PULSE_IN_EDGE, R359: 10 × D agreeing samples accept a level, and a counted edge increments the input counter. -/
  | pulseInEdge (inp : Fin 16)
  /-- PHASE_SEQUENCE_CHANGE, R353: The phase-sequence condition holds, or clears, for 1 s of usable ticks. -/
  | phaseSequenceChange (point : Fin 256)
  /-- MISSING_NEUTRAL_CHANGE, R354: The missing-neutral condition holds, or fails, for 2 s of usable ticks. -/
  | missingNeutralChange (point : Fin 256)
  /-- PERIODIC_SAVE, R360: At each second boundary the umber domain saves energy, numbering, retentive and RTC state to MRAM. -/
  | periodicSave
  /-- UMBER_SV_RECEIVE, R372: The umber subscriber accepts a PU sample and computes due outputs and element decisions. -/
  | umberSvReceive
  /-- UMBER_STREAM_TIMEOUT, R372: No sample accepted from a PU stream for 2 ms makes it invalid and blocks its elements. -/
  | umberStreamTimeout (sub : Fin 8)
  /-- HEALTH_WORD_RECEIVE, R379: The umber domain receives and checks a health word, updating zone health and BFI. -/
  | healthWordReceive
  /-- HEALTH_WORD_ABSENT, R379: At D(n + 3) the words of three consecutive ticks are absent and primary substitute is forced. -/
  | healthWordAbsent
  /-- TRIP_OUT_MIN_TIME_EXPIRE, R380: A trip output's minimum active time ends and it follows its elements again. -/
  | tripOutMinTimeExpire (out : Fin 4)
  /-- UMBER_GOOSE_RETRANSMIT, R382: An umber block's doubling retransmission interval elapses and it retransmits. -/
  | umberGooseRetransmit (blk : Fin 4)
  /-- POWER_FAIL, R386: Main 12 V is below 10.4 V for 4 µs and the umber domain runs the power-fail sequence. -/
  | powerFail
  /-- POWER_FAIL_SEQUENCE_COMPLETE, R386: The rows of the power-fail table are complete and event 0x0E07 is raised. -/
  | powerFailSequenceComplete
  /-- MAIN_OVERVOLTAGE, R512: Main above 14.0 V for 4 µs disconnects the input and is a power-fail detection. -/
  | mainOvervoltage
  /-- MAIN_POWER_RETURN, R387: Main has been within range for 10 ms (t_p) and the domains are started. -/
  | mainPowerReturn
  /-- HOLD_LOSS, R513: HOLD falls below 10.5 V or exceeds 14.0 V and is lost. -/
  | holdLoss
  /-- HOLD_REGAIN, R513: HOLD has been within range for 10 ms and is regained. -/
  | holdRegain
  /-- VIO_LOSS, R516: VIO falls below 0.8 V and the sideband outputs go high-impedance. -/
  | vioLoss
  /-- VIO_RETURN, R516: VIO has been at or above 0.85 V for 1 ms and the outputs resume. -/
  | vioReturn
  /-- RESET_IN_RELEASE, R503: RESET_IN_N is released after 10 µs to 1 s low and a module restart begins, or a held cold start begins. -/
  | resetInRelease
  /-- RESET_IN_LONG, R503: RESET_IN_N has been low for 1 s and the umber domain saves and holds all domains in reset. -/
  | resetInLong
  /-- STRAP_CHANGE, R520: SLOT_ID or APEX_STRAP changes while running and is recorded, to take effect at the next cold start. -/
  | strapChange (slotId : Fin 32) (apex : Bool)
  /-- THERMAL_WARNING_ASSERT, R529: A die reaches 105 °C and the thermal-shutdown warning is asserted. -/
  | thermalWarningAssert (temp : Int)
  /-- THERMAL_WARNING_DEASSERT, R529: Every die has been below 100 °C for 10 s and the warning is deasserted. -/
  | thermalWarningDeassert
  /-- THERMAL_SHUTDOWN, R530: A die has been at or above 115 °C for 100 ms and the lower three domains are shut down. -/
  | thermalShutdown
  /-- THERMAL_RECOVER, R530: Every die has been below 95 °C for 60 s and the three domains start again. -/
  | thermalRecover
  /-- MEMORY_ERROR, R166: An uncorrectable memory error is detected and the guarantee is suspended for all slices. -/
  | memoryError (bank : Nat) (word : Nat)
  /-- DOMAIN_FAULT, R395: A domain enters reset other than by command, a lockstep mismatch or a watchdog expiry occurs. -/
  | domainFault (domain : Fin 4) (cause : Nat)
  /-- RESTART_EFFECTIVE, R505: At T(f) a commanded restart flushes staging and resets the domains of its kind. -/
  | restartEffective
  /-- WAKE, R509: A sleep's wake time elapses and the sleeping domains start. -/
  | wake
  /-- DOMAIN_START_COMPLETE, R500: A starting domain completes its start and enters running. -/
  | domainStartComplete (domain : Fin 4)
  /-- START_PHASE_TIMEOUT, R500: A domain misses its start limit and is held in reset, retried once after 1 s. -/
  | startPhaseTimeout (domain : Fin 4)
  /-- START_RETRY, R500: One second after a missed limit the umber domain retries the start of the domain. -/
  | startRetry (domain : Fin 4)
  /-- DISPATCHER_READY, R19: The dispatcher signals ready and delivery of frames resumes at the next tick. -/
  | dispatcherReady
  /-- FW_START_TIMEOUT, R495: The control domain does not run within 60 s of pending firmware and the boot ROM falls back. -/
  | fwStartTimeout
  /-- SLICE_FILL_COMPLETE, R537: A fill or copy into slice memory completes and the slice becomes loaded at the next tick boundary. -/
  | sliceFillComplete
  /-- SLICE_RESET_COMPLETE, R174: A resetting slice's in-flight count reaches zero, its rings and points are reset and its reload is
  queued. -/
  | sliceResetComplete (tag : Fin 65)
  /-- HUE_MIGRATION_SWITCH, R171: In the gap before the slice's first window of tick n the marked pages are copied and the hue is
  switched, or retried. -/
  | hueMigrationSwitch (tag : Fin 65)
  /-- EVENT_RECORD_STAGE, R394: A record reaches the umber domain, is rate-limited and staged with the next sequence number or lost. -/
  | eventRecordStage
  /-- SUPPRESSION_SUMMARY, R406: A suppressed code's bucket becomes full and the summary record is staged. -/
  | suppressionSummary (code : BitVec 16)
  /-- STAGING_FLUSH, R395: Staged records are flushed to the MRAM event space. -/
  | stagingFlush
  /-- EVENT_FLASH_MOVE, R395: The CP moves records from MRAM to flash and frees their MRAM space. -/
  | eventFlashMove (n : Nat)
  /-- EVENT_IMAGE_ENTER, R397: A staged record enters the DRAM image and live window slots are written or marked gone. -/
  | eventImageEnter
  /-- EVR_WINDOW_FILL_COMPLETE, R402: A window fill binds its slots to visible records and clears BUSY. -/
  | evrWindowFillComplete (core : Fin 32)
  /-- CHORD_HEARTBEAT_SEND, R416: Each member sends its chord heartbeat on P8 at T(n) + 1 µs. -/
  | chordHeartbeatSend
  /-- CHORD_HEARTBEAT_RECEIVE, R418: A partner heartbeat is received on P8 and marks the chord present for the tick. -/
  | chordHeartbeatReceive (p : Bytes)
  /-- ARC_WORD_SEND, R417: A member drives its arc word in its interval of the tick. -/
  | arcWordSend
  /-- ARC_WORD_RECEIVE, R418: A partner arc word is received and checked, marking the arc present. -/
  | arcWordReceive (w : BitVec 64)
  /-- LIVENESS_SEND, R421: The active publishes its liveness message at T(n) + 2 µs. -/
  | livenessSend
  /-- LIVENESS_RECEIVE, R421: A partner liveness message is taken at a LIVE_PORTS MAC and marks liveness present. -/
  | livenessReceive (port : Fin 13) (f : Frame)
  /-- PATH_LOST, R419: One path is silent for K ticks while the other is present and DEGRADED is set. -/
  | pathLost (arc : Bool)
  /-- BOTH_PATHS_LOST, R420: Chord and arc are silent for K ticks while liveness is present. -/
  | bothPathsLost
  /-- LIVENESS_ABSENT, R421: Liveness is absent for K ticks while a path is present. -/
  | livenessAbsent
  /-- STARTING_LISTEN_END, R414: A starting module's listening period of K + 16 ticks ends and it takes its role. -/
  | startingListenEnd
  /-- MIRROR_SEND, R422: The active sends the mirror frames of tick n to the standby on P8. -/
  | mirrorSend
  /-- MIRROR_FRAME_RECEIVE, R425: The standby receives a mirror frame and, when the tick is complete, applies it and runs shadow compare. -/
  | mirrorFrameReceive (p : Bytes)
  /-- MIRROR_INCOMPLETE, R425: A mirror tick not complete by D(n + 2) is discarded and the image becomes invalid. -/
  | mirrorIncomplete
  /-- RESYNC_COPY_SEND, R434: The active sends resynchronisation copy frames in TC1 on P8. -/
  | resyncCopySend
  /-- RESYNC_COPY_RECEIVE, R434: The standby applies a copy frame to units not overwritten by mirror ticks, completing resynchronisation
  when due. -/
  | resyncCopyReceive (p : Bytes)
  /-- TWIN_SELF_TEST, R428: Once per second the standby runs its built-in datapath tests. -/
  | twinSelfTest (fail : BitVec 16)
  /-- TWIN_HEALTH_REPORT, R429: At each second boundary the standby sends its health report to the active. -/
  | twinHealthReport
  /-- ENUMERATION_START, R442: The apex drives ENUM_OUT inactive for 1 ms and then sends an offer. -/
  | enumerationStart
  /-- ENUM_IN_CHANGE, R442: ENUM_IN goes inactive and the module drives its ENUM_OUT inactive. -/
  | enumInChange (level : Bool)
  /-- CHAIN_OFFER_RECEIVE, R443: A module receives an offer on P10 and takes an address, joins and offers downward. -/
  | chainOfferReceive (p : Bytes)
  /-- CHAIN_JOIN_RECEIVE, R442: A join is forwarded upward and recorded by the apex. -/
  | chainJoinReceive (p : Bytes)
  /-- CHAIN_END_RECEIVE, R442: An end is forwarded upward and completes the enumeration at the apex. -/
  | chainEndReceive (p : Bytes)
  /-- CHAIN_JOIN_TIMEOUT, R442: An offer draws no join within 1 ms and the module sends an end. -/
  | chainJoinTimeout
  /-- NEIGHBOUR_SEND, R445: Every 1 ms a module sends a neighbour frame on each linked chain port. -/
  | neighbourSend
  /-- CHAIN_LINK_LOST, R445: No neighbour frame for 3 ms or link loss marks the chain link lost. -/
  | chainLinkLost (down : Bool)
  /-- CHAIN_LINK_RESTORED, R446: The first neighbour frame after link up restores it and the offer is repeated. -/
  | chainLinkRestored (down : Bool)
  /-- SECOND_APEX_OFFER, R444: An apex receives an offer on P10 and answers with an end of cause 4. -/
  | secondApexOffer (p : Bytes)
  /-- RELAY_REQUEST_RECEIVE, R449: A relay request is forwarded down the chain or executed on M1 by its target. -/
  | relayRequestReceive (p : Bytes)
  /-- RELAY_RESPONSE_RECEIVE, R449: A relay response travels upward and the apex answers the session or relays to member B. -/
  | relayResponseReceive (p : Bytes)
  /-- RELAY_TIMEOUT, R452: A relay response is not received within 10 s, or a link is lost, and the apex answers outcome unknown. -/
  | relayTimeout
  /-- IN_DOUBT_RESOLVE, R452: A target becomes reachable again and the apex reads the outcome of an in-doubt relay. -/
  | inDoubtResolve
  /-- HEALTH_FRAME_SEND, R455: A worker sends its health frame every second or within 1 tick of a change. -/
  | healthFrameSend
  /-- HEALTH_FRAME_RECEIVE, R453: The apex updates its entry for a module from a health frame. -/
  | healthFrameReceive (p : Bytes)
  /-- SESSION_OPEN, R467: A TLS 1.3 session on P9, or M3 attachment, opens with MONITOR rights. -/
  | sessionOpen (box : Box) (cert : BitVec 512)
  /-- SESSION_CLOSE, R459: A session closes by peer, protocol error or control stop, dropping rights and any message in assembly. -/
  | sessionClose (box : Box) (cause : Nat)
  /-- SESSION_IDLE_TIMEOUT, R467: A session sends no segment for 600 s and is closed. -/
  | sessionIdleTimeout (box : Box)
  /-- MAILBOX_SEGMENT, R462: A request segment arrives on a management mailbox and is assembled or the message judged. -/
  | mailboxSegment (h : Hdr) (code : BitVec 16) (p : Bytes)
  /-- SEGMENT_TIMEOUT, R463: 10 s pass with no next segment and the message being assembled is abandoned. -/
  | segmentTimeout (box : Box)
  /-- RESPONSE_TIMEOUT, R463: A response's next segment is not fetched within 10 s and the response is discarded. -/
  | responseTimeout (box : Box)
  /-- M2_SEGMENT_RETRY, R468: An unanswered M2 segment is repeated after 2 ms, up to 5 times. -/
  | m2SegmentRetry
  /-- MAILBOX_NOTIFY, R464: The final response reaches a slice buffer and the CP posts a notify item. -/
  | mailboxNotify (tag : Fin 65)
  /-- CFG_COPY_WRITTEN, R490: The older copy's header and body are written, read back and sealed, or the commit fails. -/
  | cfgCopyWritten (ok : Bool)
  /-- CFG_COMMIT_DEADLINE, R490: SEAL is not written by T(e − 2) and the commit is abandoned. -/
  | cfgCommitDeadline
  /-- CFG_COMMIT_APPLY, R490: At T(e) every change of the committed copy is applied and the journal is emptied. -/
  | cfgCommitApply
  /-- ATTEST_SIGN_COMPLETE, R497: The security unit completes the attestation signature and the response is sent. -/
  | attestSignComplete
  /-- UMBER_STATUS_FRAME, R527: While a debug host is attached the umber domain sends its status frame each second or on a domain change. -/
  | umberStatusFrame
  /-- MEMORY_ERROR_CLEAR, R166: Once the affected bank set is scrubbed and every slice with memory in it has completed a reset, the CP
  clears the uncorrectable memory error and the guarantee is restored. -/
  | memoryErrorClear
  /-- UMBER_SUPPLY_LOST, R387: After a power-fail without HOLD the hold-up is spent and the halted umber domain loses its supply and
  goes off. -/
  | umberSupplyLost
  /-- DBG_PRESENT_CHANGE, R526: DBG_PRESENT_N changes level, so UMB_TXD and M3_TXD are driven or set to high impedance and status frames
  start or stop. -/
  | dbgPresentChange (present : Bool)
  /-- PTP_MESSAGE_SEND, R36: At a message interval of the profile, the CP sends PTP messages on its PTP ports: Pdelay_Req, and Sync and
  Announce as master or boundary clock. -/
  | ptpMessageSend
  /-- NEIGHBOUR_FRAME_RECEIVE, R445: A neighbour frame arrives on a linked chain port and restarts that link's 3 ms supervision. -/
  | neighbourFrameReceive (down : Bool) (p : Bytes)
  deriving DecidableEq, Repr

end Sys2Proof
end

