-- ==== Sys2Proof/Decode.lean ====
section
/-! DEFINITION. Decoding a word of the table of operations. The table gives no row any bits: the block takes commands, and
none of them is a word (log entry 12). -/
namespace Sys2Proof

/-- The command a word of the table spells: none, since no row of the table has bits. -/
def decodeTableWord (_nbits _w : Nat) : Option Instr := none

end Sys2Proof
end

