-- ==== Sys2Proof/Config.lean ====
section
/-! DEFINITION. What an implementation fixes and the values the spec leaves open. Every constant here is opaque: no
proof can see a value of it, so a claim about the model holds whatever it is (log entry 2). -/
namespace Sys2Proof.Config
open Sys2Proof

/-- A free binary32 value, one for each count of the state's free-value counter (log entry 2). -/
opaque freeF32 : Nat → F32
/-- A free binary64 value (log entry 2). -/
opaque freeF64 : Nat → F64
/-- A free number (log entry 2). -/
opaque freeNat : Nat → Nat
/-- The HMAC-SHA256 value of IEC 62351-6 for a key over a frame, 32 bytes (log entry 7). -/
opaque authTag : Bytes → Frame → Bytes
/-- Verification of a pure SLH-DSA signature of FIPS 205: parameter set (0 for 256s, 1 for 256f), public key,
message, signature (log entry 7). -/
opaque slhVerify : Nat → Bytes → Bytes → Bytes → Bool
/-- The signature the module's identity key makes: parameter set and message (log entry 7). -/
opaque slhSign : Nat → Bytes → Bytes
/-- The public identity key of a parameter set (R496; log entry 7). -/
opaque identityKey : Nat → Bytes
/-- The manufacture time in the identity certificate, in TAI seconds (R497; log entry 7). -/
opaque madeAt : Nat
/-- Gwynic root's signature in the identity certificate of a parameter set (R497; log entry 7). -/
opaque rootSignature : Nat → Bytes
/-- The public half of the module TLS key (R496; log entry 7). -/
opaque tlsPublicKey : Bytes
/-- The changes by which a running configuration becomes the one a new body holds, as commands: code and payload. The running
configuration is a body and the commands of its journal; none before anything is configured. The body's own format is
Thaoz's and the spec does not give it (log entry 8). -/
opaque bodyChanges : Option (Bytes × List (Nat × Bytes)) → Bytes → List (Nat × Bytes)
/-- The endorsed tenant keys a configuration body holds: tenant and key digest (log entry 8). -/
opaque bodyEndorsements : Bytes → List (Nat × Bytes)
/-- The body CFG_EXPORT builds from the copy in force and the journal (R492; log entry 8). -/
opaque exportBody : Bytes → List (Nat × Bytes) → Bytes
/-- The event codes of a change of a domain's state (R16) and of a lost RTC (R42), which the spec does not give. -/
opaque domainEventCode : Nat
opaque rtcLostCode : Nat
/-- The code of the event record of a refusal whose reason R108 has the CP report, which the spec does not give (log entry 2). -/
opaque refusalCode : Nat
/-- What a measurement reads at a reference cycle: 0 main voltage and 1 HOLD voltage in mV, 2 input power in mW, 3 highest die
temperature and 4 inlet or card-edge temperature in 0.1 °C. They belong to the outside world (log entry 2). -/
opaque sensor : Nat → Nat → Int
/-- Drift of the free-running RTC in ns over a span of ns; the model limits it to the tolerance of R42 (log entry 9). -/
opaque rtcDrift : Nat → Int
/-- What the TLVs of the module's own Announce messages say: its number as a grandmaster, its time inaccuracy in ns, and the time zones.
R36 has them generated, and the spec gives no values (log entry 39). -/
opaque gmNum : Nat
opaque inaccuracy : Nat
opaque zones : List ZoneTlv
/-- Coefficients of the umber decimating filter, which R371 does not give: input rate and tap (log entry 2). -/
opaque umberTap : Nat → Nat → F32

end Sys2Proof.Config
end

