-- ==== Sys2Proof/Machine/Data.lean ====
section
/-! DEFINITION. Plain data helpers: little-endian bytes and bit fields (R4), sparse tables in one canonical
form, and the 64-bit counters of R80. -/
namespace Sys2Proof.Machine
open Sys2Proof

/-- `n` bytes of `v`, the least significant first (R4). -/
def le : Nat → Nat → Bytes
  | 0, _ => []
  | n + 1, v => BitVec.ofNat 8 v :: le n (v / 256)

/-- The number a little-endian string of bytes spells (R4). -/
def ofLe : Bytes → Nat
  | [] => 0
  | b :: bs => b.toNat + 256 * ofLe bs

/-- `n` bytes from offset `off`; bytes past the end are absent. -/
def slice (p : Bytes) (off n : Nat) : Bytes := (p.drop off).take n

/-- The `n`-byte little-endian field at offset `off` of a structure (R4). -/
def rd (n : Nat) (p : Bytes) (off : Nat) : Nat := ofLe (slice p off n)

/-- The `n`-byte field at offset `off` in network byte order. -/
def rdBe (n : Nat) (p : Bytes) (off : Nat) : Nat := ofLe (slice p off n).reverse

/-- `n` bytes of `v` in network byte order. -/
def be (n v : Nat) : Bytes := (le n v).reverse

/-- Whether the `n` bytes at `off` are all zero (a reserved field, R5). -/
def zeros (p : Bytes) (off n : Nat) : Bool := (slice p off n).all (· == 0)

/-- Bit `i` of a number. -/
def bit (v i : Nat) : Bool := v.testBit i

/-- Bits `hi` to `lo`, inclusive, of a number. -/
def bits (v hi lo : Nat) : Nat := (v >>> lo) % 2 ^ (hi + 1 - lo)

/-- One bit as a number. -/
def b2n (b : Bool) : Nat := if b then 1 else 0

/-- A list of (width in bytes, value) fields laid one after another (R4). -/
def fields : List (Nat × Nat) → Bytes
  | [] => []
  | (n, v) :: r => le n v ++ fields r

/-- A signed number in two's complement of `w` bits. -/
def toTwos (w : Nat) (v : Int) : Nat := (v % (2 ^ w : Int)).toNat

/-- The signed number a two's complement field of `w` bits spells. -/
def ofTwos (w v : Nat) : Int := if v < 2 ^ (w - 1) then v else (v : Int) - 2 ^ w

/-- The string padded with zero bytes, or cut, to `n` bytes. -/
def padTo (n : Nat) (b : Bytes) : Bytes := (b ++ List.replicate n 0).take n

/-- `n` little-endian fields of `w` bytes from offset `off`, in order. -/
def rdList (w n : Nat) (p : Bytes) (off : Nat) : List Nat :=
  (List.range n).map fun i => rd w p (off + w * i)

/-- A table keyed by an index, held sparsely: keys strictly rising. -/
abbrev Tab (α : Type) := List (Nat × α)

/-- The entry of a table, if it holds one. -/
def tget {α : Type} : Tab α → Nat → Option α
  | [], _ => none
  | (k, v) :: r, i => if k = i then some v else if i < k then none else tget r i

/-- The entry of a table, or what an unlisted index holds. -/
def tgetD {α : Type} (t : Tab α) (i : Nat) (d : α) : α := (tget t i).getD d

/-- The table with an entry set. -/
def tset {α : Type} : Tab α → Nat → α → Tab α
  | [], i, a => [(i, a)]
  | (k, v) :: r, i, a =>
    if i < k then (i, a) :: (k, v) :: r
    else if i = k then (i, a) :: r
    else (k, v) :: tset r i a

/-- The table with an entry removed. -/
def terase {α : Type} (t : Tab α) (i : Nat) : Tab α := t.filter fun e => e.1 != i

/-- The table with one entry rewritten from what it held. -/
def tmod {α : Type} (t : Tab α) (i : Nat) (d : α) (f : α → α) : Tab α := tset t i (f (tgetD t i d))

/-- The table with every entry rewritten; the keys stay. -/
def tmap {α β : Type} (t : Tab α) (f : Nat → α → β) : Tab β := t.map fun e => (e.1, f e.1 e.2)

/-- Keys strictly rising. -/
def tabWf {α : Type} : Tab α → Bool
  | [] => true
  | [_] => true
  | (k, _) :: (k', v') :: r => k < k' && tabWf ((k', v') :: r)

/-- A bank of 64-bit counters, by index; a counter not listed reads zero (R80). -/
abbrev Ctrs := Tab (BitVec 64)

/-- A counter's value. -/
def ctr (c : Ctrs) (i : Nat) : BitVec 64 := tgetD c i 0

/-- A counter advanced by `k`, modulo 2^64 (R80). -/
def bumpBy (c : Ctrs) (i k : Nat) : Ctrs := if k = 0 then c else tset c i (ctr c i + BitVec.ofNat 64 k)

/-- A counter advanced by one, modulo 2^64 (R80). -/
def bump (c : Ctrs) (i : Nat) : Ctrs := bumpBy c i 1

/-- Counters 0 to `n - 1` as a response carries them, 8 bytes each. -/
def ctrBytes (c : Ctrs) (n : Nat) : Bytes := (List.range n).flatMap fun i => le 8 (ctr c i).toNat

/-- Every counter of the bank below index `n` cleared. -/
def ctrClear (c : Ctrs) (n : Nat) : Ctrs := c.filter fun e => n ≤ e.1

/-- Element `i` of a list rewritten. -/
def lmod {α : Type} : List α → Nat → (α → α) → List α
  | [], _, _ => []
  | a :: r, 0, f => f a :: r
  | a :: r, i + 1, f => a :: lmod r i f

/-- Insert into a list kept in the order of `lt`, after the elements not above the new one. -/
def linsert {α : Type} (lt : α → α → Bool) (a : α) : List α → List α
  | [] => [a]
  | b :: r => if lt a b then a :: b :: r else b :: linsert lt a r

/-- The least number of whole steps of `d` that reach `x`: the quotient rounded up. -/
def cdiv (x d : Nat) : Nat := (x + d - 1) / d

end Sys2Proof.Machine
end

