-- ==== Sys2Proof/Machine/Float.lean ====
section
/-! DEFINITION. IEEE 754 binary32 and binary64 arithmetic, computed exactly over the integers and rounded once,
to nearest with ties to even (R62, R74, R87, R88). -/
namespace Sys2Proof.Machine
open Sys2Proof

/-- A binary format: significand bits, exponent of the least quantum, exponent bits. -/
structure Fmt where
  p : Nat
  qmin : Int
  eb : Nat
  deriving DecidableEq, Repr

/-- binary32. -/
def fmt32 : Fmt := { p := 24, qmin := -149, eb := 8 }
/-- binary64. -/
def fmt64 : Fmt := { p := 53, qmin := -1074, eb := 11 }

/-- What a bit pattern stands for: a sign with `m * 2^e`, an infinity, or not a number. -/
inductive FVal where
  | fin (neg : Bool) (m : Nat) (e : Int)
  | inf (neg : Bool)
  | nan
  deriving DecidableEq, Repr

/-- The value of a bit pattern. -/
def fdec (f : Fmt) (b : Nat) : FVal :=
  let mant := b % 2 ^ (f.p - 1)
  let ex := b / 2 ^ (f.p - 1) % 2 ^ f.eb
  let neg := b.testBit (f.p - 1 + f.eb)
  if ex = 2 ^ f.eb - 1 then (if mant = 0 then .inf neg else .nan)
  else if ex = 0 then .fin neg mant f.qmin
  else .fin neg (mant + 2 ^ (f.p - 1)) (f.qmin + ex - 1)

/-- The sign bit in place. -/
def fsign (f : Fmt) (neg : Bool) : Nat := if neg then 2 ^ (f.p - 1 + f.eb) else 0
/-- The pattern of an infinity. -/
def finf (f : Fmt) (neg : Bool) : Nat := fsign f neg + (2 ^ f.eb - 1) * 2 ^ (f.p - 1)
/-- The quiet not-a-number every invalid operation gives (PRESUMED, log entry 14). -/
def fnan (f : Fmt) : Nat := (2 ^ f.eb - 1) * 2 ^ (f.p - 1) + 2 ^ (f.p - 2)

/-- The pattern of `q * 2^e` for a significand of at most `p` bits. -/
def fenc (f : Fmt) (neg : Bool) (q : Nat) (e : Int) : Nat :=
  if q < 2 ^ (f.p - 1) then fsign f neg + q
  else
    let biased := (e - f.qmin + 1).toNat
    if 2 ^ f.eb - 1 ≤ biased then finf f neg
    else fsign f neg + biased * 2 ^ (f.p - 1) + (q - 2 ^ (f.p - 1))

/-- `n / (d * 2^e)` as a whole part and whether what is left is below, at or above one half. -/
def fquot (n d : Nat) (e : Int) : Nat × Ordering :=
  let n' := if e < 0 then n * 2 ^ (-e).toNat else n
  let d' := if e < 0 then d else d * 2 ^ e.toNat
  (n' / d', compare (2 * (n' % d')) d')

/-- The nonnegative rational `n / d` rounded to the format, to nearest with ties to even. -/
def fround (f : Fmt) (neg : Bool) (n d : Nat) : Nat :=
  if n = 0 then fsign f neg
  else
    let e0 : Int := (Nat.log2 n : Int) - Nat.log2 d - f.p
    -- the exponent at which the quotient has p bits
    let e1 := if (fquot n d e0).1 < 2 ^ f.p then e0 else e0 + 1
    let e := max e1 f.qmin
    let (q, o) := fquot n d e
    let q' := match o with
      | .lt => q
      | .gt => q + 1
      | .eq => q + q % 2
    if q' = 2 ^ f.p then fenc f neg (q' / 2) (e + 1) else fenc f neg q' e

/-- `m * 2^e` of either sign rounded to the format; an exact zero takes the sign given. -/
def froundDy (f : Fmt) (zneg : Bool) (m : Int) (e : Int) : Nat :=
  let neg := if m = 0 then zneg else decide (m < 0)
  if e < 0 then fround f neg m.natAbs (2 ^ (-e).toNat) else fround f neg (m.natAbs * 2 ^ e.toNat) 1

/-- The signed significand. -/
def fsm (neg : Bool) (m : Nat) : Int := if neg then -(m : Int) else m

/-- The exact sum of two dyadic numbers. -/
def dyAdd (a b : Int × Int) : Int × Int :=
  if a.2 ≤ b.2 then (a.1 + b.1 * 2 ^ (b.2 - a.2).toNat, a.2)
  else (a.1 * 2 ^ (a.2 - b.2).toNat + b.1, b.2)

/-- Sum. -/
def fadd (f : Fmt) (a b : Nat) : Nat :=
  match fdec f a, fdec f b with
  | .nan, _ => fnan f
  | _, .nan => fnan f
  | .inf x, .inf y => if x = y then finf f x else fnan f
  | .inf x, _ => finf f x
  | _, .inf y => finf f y
  | .fin x m e, .fin y m' e' =>
    let s := dyAdd (fsm x m, e) (fsm y m', e')
    froundDy f (x && y) s.1 s.2

/-- Negation. -/
def fneg (f : Fmt) (a : Nat) : Nat := a ^^^ 2 ^ (f.p - 1 + f.eb)

/-- Difference. -/
def fsub (f : Fmt) (a b : Nat) : Nat := fadd f a (fneg f b)

/-- Product. -/
def fmul (f : Fmt) (a b : Nat) : Nat :=
  match fdec f a, fdec f b with
  | .nan, _ => fnan f
  | _, .nan => fnan f
  | .inf x, .inf y => finf f (x != y)
  | .inf x, .fin y m _ => if m = 0 then fnan f else finf f (x != y)
  | .fin x m _, .inf y => if m = 0 then fnan f else finf f (x != y)
  | .fin x m e, .fin y m' e' => froundDy f (x != y) (fsm (x != y) (m * m')) (e + e')

/-- Fused multiply-add `a * b + c`, rounded once (R88). -/
def ffma (f : Fmt) (a b c : Nat) : Nat :=
  match fdec f a, fdec f b, fdec f c with
  | .fin x m e, .fin y m' e', .fin z k g =>
    let s := dyAdd (fsm (x != y) (m * m'), e + e') (fsm z k, g)
    froundDy f ((x != y) && z) s.1 s.2
  | .fin _ _ _, .fin _ _ _, .inf z => finf f z
  | _, _, _ => fadd f (fmul f a b) c

/-- Quotient. -/
def fdiv (f : Fmt) (a b : Nat) : Nat :=
  match fdec f a, fdec f b with
  | .nan, _ => fnan f
  | _, .nan => fnan f
  | .inf _, .inf _ => fnan f
  | .inf x, .fin y _ _ => finf f (x != y)
  | .fin x _ _, .inf y => fsign f (x != y)
  | .fin x m e, .fin y m' e' =>
    if m' = 0 then (if m = 0 then fnan f else finf f (x != y))
    else if e' ≤ e then fround f (x != y) (m * 2 ^ (e - e').toNat) m'
    else fround f (x != y) m (m' * 2 ^ (e' - e).toNat)

/-- Square root of a nonnegative number, rounded once. -/
def fsqrt (f : Fmt) (a : Nat) : Nat :=
  match fdec f a with
  | .nan => fnan f
  | .inf neg => if neg then fnan f else finf f false
  | .fin neg m e =>
    if m = 0 then a
    else if neg then fnan f
    else
      -- scale to an even exponent with enough bits, and keep a sticky bit below
      let k := 2 * f.p + 4 + (if (e - (2 * f.p + 4)) % 2 = 0 then 0 else 1)
      let n := m * 2 ^ k
      let r := Nat.sqrt n
      let sticky := if r * r = n then 0 else 1
      froundDy f false ((2 * r + sticky : Nat) : Int) ((e - k) / 2 - 1)

/-- The exact value as a dyadic number; none for an infinity or not a number. -/
def fdy (f : Fmt) (a : Nat) : Option (Int × Int) :=
  match fdec f a with
  | .fin x m e => some (fsm x m, e)
  | _ => none

/-- The order of two finite dyadic numbers. -/
def dyCmp (a b : Int × Int) : Ordering :=
  let s := dyAdd a (-b.1, b.2)
  compare s.1 0

/-- `a < b` as IEEE 754 orders them; false with not a number. -/
def flt (f : Fmt) (a b : Nat) : Bool :=
  match fdec f a, fdec f b with
  | .nan, _ => false
  | _, .nan => false
  | .inf x, .inf y => x && !y
  | .inf x, _ => x
  | _, .inf y => !y
  | .fin x m e, .fin y m' e' => dyCmp (fsm x m, e) (fsm y m', e') == .lt

/-- `a ≤ b` as IEEE 754 orders them; false with not a number. -/
def fle (f : Fmt) (a b : Nat) : Bool :=
  match fdec f a, fdec f b with
  | .nan, _ => false
  | _, .nan => false
  | _, _ => !(flt f b a)

/-- Finite. -/
def ffinite (f : Fmt) (a : Nat) : Bool := (fdy f a).isSome

/-- An integer rounded to the format. -/
def fofInt (f : Fmt) (v : Int) : Nat := froundDy f false v 0

/-- A value carried from one format to another, rounded once. -/
def fconv (g h : Fmt) (a : Nat) : Nat :=
  match fdec g a with
  | .nan => fnan h
  | .inf x => finf h x
  | .fin x m e => froundDy h x (fsm x m) e

/-- The magnitude. -/
def fabs (f : Fmt) (a : Nat) : Nat := a % 2 ^ (f.p - 1 + f.eb)

/-- The whole part toward minus infinity of a finite value. -/
def ffloor (f : Fmt) (a : Nat) : Int :=
  match fdy f a with
  | some (m, e) => if e < 0 then m / 2 ^ (-e).toNat else m * 2 ^ e.toNat
  | none => 0

/-- binary32 operations on 32-bit patterns. -/
def add32 (a b : F32) : F32 := .ofNat 32 (fadd fmt32 a.toNat b.toNat)
def sub32 (a b : F32) : F32 := .ofNat 32 (fsub fmt32 a.toNat b.toNat)
def mul32 (a b : F32) : F32 := .ofNat 32 (fmul fmt32 a.toNat b.toNat)
def div32 (a b : F32) : F32 := .ofNat 32 (fdiv fmt32 a.toNat b.toNat)
def fma32 (a b c : F32) : F32 := .ofNat 32 (ffma fmt32 a.toNat b.toNat c.toNat)
def neg32 (a : F32) : F32 := .ofNat 32 (fneg fmt32 a.toNat)
def int32 (v : Int) : F32 := .ofNat 32 (fofInt fmt32 v)
def lt32 (a b : F32) : Bool := flt fmt32 a.toNat b.toNat
def le32 (a b : F32) : Bool := fle fmt32 a.toNat b.toNat
def fin32 (a : F32) : Bool := ffinite fmt32 a.toNat
/-- binary64 operations on 64-bit patterns. -/
def add64 (a b : F64) : F64 := .ofNat 64 (fadd fmt64 a.toNat b.toNat)
def sub64 (a b : F64) : F64 := .ofNat 64 (fsub fmt64 a.toNat b.toNat)
def mul64 (a b : F64) : F64 := .ofNat 64 (fmul fmt64 a.toNat b.toNat)
def div64 (a b : F64) : F64 := .ofNat 64 (fdiv fmt64 a.toNat b.toNat)
def sqrt64 (a : F64) : F64 := .ofNat 64 (fsqrt fmt64 a.toNat)
def neg64 (a : F64) : F64 := .ofNat 64 (fneg fmt64 a.toNat)
def abs64 (a : F64) : F64 := .ofNat 64 (fabs fmt64 a.toNat)
def int64 (v : Int) : F64 := .ofNat 64 (fofInt fmt64 v)
def lt64 (a b : F64) : Bool := flt fmt64 a.toNat b.toNat
def le64 (a b : F64) : Bool := fle fmt64 a.toNat b.toNat
def fin64 (a : F64) : Bool := ffinite fmt64 a.toNat
/-- Widening, exact. -/
def to64 (a : F32) : F64 := .ofNat 64 (fconv fmt32 fmt64 a.toNat)
/-- Narrowing, rounded once. -/
def to32 (a : F64) : F32 := .ofNat 32 (fconv fmt64 fmt32 a.toNat)
/-- The rational `n / d` rounded once to binary64. -/
def rat64 (n : Int) (d : Nat) : F64 := .ofNat 64 (fround fmt64 (decide (n < 0)) n.natAbs d)
/-- The rational `n / d` rounded once to binary32. -/
def rat32 (n : Int) (d : Nat) : F32 := .ofNat 32 (fround fmt32 (decide (n < 0)) n.natAbs d)

/-- Whether a number is a NaN. -/
def fisNaN (f : Fmt) (a : Nat) : Bool := finf f false < fabs f a
def isNaN32 (a : F32) : Bool := fisNaN fmt32 a.toNat
def isNaN64 (a : F64) : Bool := fisNaN fmt64 a.toNat

/-- Two numbers, no NaN, lie further apart than a dyadic distance; an infinity lies apart from everything but itself. -/
def fapart (f : Fmt) (a b : Nat) (d : Option (Int × Int)) : Bool :=
  match fdy f a, fdy f b, d with
  | some x, some y, some z =>
    let s := dyAdd x (-y.1, y.2)
    dyCmp ((s.1.natAbs : Int), s.2) z == .gt
  | some _, some _, none => false
  | some _, none, _ => true
  | none, some _, _ => true
  | none, none, _ => a != b
def apart32 (a b d : F32) : Bool := fapart fmt32 a.toNat b.toNat (fdy fmt32 d.toNat)
def apart64 (a b : F64) (d : F32) : Bool := fapart fmt64 a.toNat b.toNat (fdy fmt32 d.toNat)

end Sys2Proof.Machine
end

