-- ==== Sys2Proof/Machine/Types/Mbx.lean ====
section
/-! DEFINITION. The state of the mailboxes and of the scheduled changes (chapters 01, 18). -/
namespace Sys2Proof.Machine
open Sys2Proof

/-- A response, whole (R461); it travels in segments (R462). -/
structure Response where
  code : Nat
  seq : BitVec 32
  target : BitVec 8
  slice : Nat
  apply : Nat
  status : Nat
  role : BitVec 32
  payload : Bytes
  deriving DecidableEq, Repr

/-- A message being assembled (R462, R463). -/
structure Assembling where
  code : Nat
  hdr : Hdr
  /-- The segment expected next. -/
  next : Nat
  data : Bytes
  /-- The reference cycle of its last segment. -/
  ref : Nat
  deriving DecidableEq, Repr

/-- The last segment the CP answered and its stored answer (R461). -/
structure Answered where
  code : Nat
  seq : BitVec 32
  segment : Nat
  resp : Response
  deriving DecidableEq, Repr

/-- A session, or a slice mailbox's message state. -/
structure Session where
  /-- Session number. -/
  num : Nat
  /-- The right bits held (R469). -/
  rights : BitVec 6
  /-- What role grants gave: the owner slot that signed, and the bits (R474, R483). -/
  grants : List (Nat × BitVec 6)
  cert : BitVec 512
  asm : Option Assembling
  answered : Option Answered
  /-- A response whose next segments wait to be fetched: the segment in the buffer (R463). -/
  more : Option Nat
  /-- The reference cycle of the last segment sent or fetched. -/
  ref : Nat
  /-- CODE and SEQ of a message abandoned for the 10 s limit (R463). -/
  late : Option (Nat × BitVec 32)
  deriving DecidableEq, Repr

/-- The registers of a slice mailbox (R466). -/
structure SliceBox where
  /-- STATE 0 to 5. -/
  state : Nat
  seq : BitVec 32
  segment : Nat
  overrun : Bool
  /-- The notify item owed: handler, ARG0, ARG1 (R464). -/
  notify : Option (Nat × Nat × Nat)
  deriving DecidableEq, Repr

/-- A scheduled change (R25, R26). -/
structure Change where
  /-- Its place in the order of acceptance (R27). -/
  order : Nat
  apply : Tick
  code : Nat
  hdr : Hdr
  role : BitVec 32
  payload : Bytes
  /-- The response payload fixed at acceptance. -/
  resp : Bytes
  /-- Whether the answer waits for the apply tick (R25). -/
  deferred : Bool
  deriving DecidableEq, Repr

/-- A command forwarded to the twin that waits for its answer (R415, R468). -/
structure Forward where
  code : Nat
  hdr : Hdr
  role : BitVec 32
  payload : Bytes
  resp : Bytes
  /-- The apply tick both modules use. -/
  apply : Tick
  /-- The status a refusal by the twin gives. -/
  refuse : Nat
  tries : Nat
  ref : Nat
  deriving DecidableEq, Repr

/-- Mailboxes, sessions and scheduled changes. -/
structure Mailboxes where
  /-- Open sessions: 0 to 3 M0, 4 M1, 5 M2, 6 M3, 64 + t the mailbox of slice t. -/
  sess : Tab Session
  /-- Next session number. -/
  nextNum : Nat
  boxes : Tab SliceBox
  scheduled : List Change
  /-- Changes accepted so far. -/
  accepted : Nat
  /-- Commands forwarded to the twin that wait for its answer, oldest first. -/
  forward : List Forward
  /-- Sessions whose SLC_ADMIT stands for a CHN_PLACE, with its SEQ (R454). -/
  places : List (Nat × BitVec 32)
  /-- Segments on M3 discarded for a bad CRC (R468). -/
  m3Bad : BitVec 64
  /-- Notify items refused (R464). -/
  notifyRefused : BitVec 64
  deriving DecidableEq, Repr

end Sys2Proof.Machine
end

