-- ==== Sys2Proof/Machine/Types/Chn.lean ====
section
/-! DEFINITION. The state of the chain unit and of the apex (chapter 17). -/
namespace Sys2Proof.Machine
open Sys2Proof

/-- The state of an address as the apex keeps it (R453). -/
inductive AddrState where
  | absent | enumerated | unreachable | moved
  deriving DecidableEq, Repr

/-- The apex's entry of an address (R453, CHN_STATUS). -/
structure ModEntry where
  state : AddrState
  /-- The 64-byte entry as last reported; its first two bytes are the apex's. -/
  body : Bytes
  /-- Unit number, 0xFF for member B. -/
  unit : Nat
  /-- Codes of the commands that member A has accepted and member B has not (R451). -/
  diverged : List Nat
  /-- The capability list read from the module: ID and version of each entry. -/
  caps : List (Nat × Nat)
  deriving DecidableEq, Repr

/-- An enumeration in progress at the apex (R442). -/
structure Enumeration where
  force : Bool
  /-- The reference cycle of its start. -/
  ref : Nat
  /-- The offer has been sent. -/
  offered : Bool
  /-- The command that waits for its end, if one started it. -/
  asked : Option (Hdr × BitVec 32)
  deriving DecidableEq, Repr

/-- A relay that is outstanding at the apex (R449, R451). -/
structure Relay where
  rseq : BitVec 32
  code : Nat
  hdr : Hdr
  role : BitVec 32
  payload : Bytes
  addr : Nat
  /-- Member B's address when the message goes to both members and A is being asked. -/
  thenB : Option Nat
  /-- A's response when B is being asked. -/
  fromA : Option Response
  /-- The apex's own reading of a capability list (R453). -/
  own : Bool
  /-- The segment of the message that is being asked (R468). -/
  seg : Nat
  ref : Nat
  /-- Fragments of the response segment in reception, and the response payload of the segments before it. -/
  frags : List (Nat × Bytes)
  got : Bytes
  deriving DecidableEq, Repr

/-- The chain unit, and what the apex keeps (chapter 17). -/
structure Chain where
  /-- The address held in MRAM (R442). -/
  addr : Option Nat
  /-- Enumeration number. -/
  enum : BitVec 32
  run : Option Enumeration
  enumIn : Bool
  enumOut : Bool
  /-- An offer sent downward that has drawn no join yet: NEXT, force, and the reference cycle (R442). -/
  offer : Option (Nat × Bool × Nat)
  /-- The module has taken its address in the present enumeration; at the apex, joins have come since the last end. -/
  joined : Bool
  /-- The highest address that the joins of the present enumeration have reached, and the chain length as last completed. -/
  reached : Nat
  length : Nat
  entries : Tab ModEntry
  /-- Neighbour supervision of the link above (P10) and below (P11): heard since link up, last heard, lost. -/
  upHeard : Bool
  downHeard : Bool
  upRef : Nat
  downRef : Nat
  upLost : Bool
  downLost : Bool
  relays : List Relay
  nextRseq : BitVec 32
  /-- The outcomes of the last 256 relayed messages (R449), newest first. -/
  outcomes : List (BitVec 32 × Bytes)
  /-- Fragments of a relay request in assembly at its target. -/
  rxFrags : List (Nat × Bytes)
  rxSeq : BitVec 32
  /-- Relayed messages not yet answered at their target: RSEQ, CODE and SEQ. -/
  asked : List (BitVec 32 × Nat × BitVec 32)
  /-- Relays in doubt: RSEQ and target (R452). -/
  doubt : List (BitVec 32 × Nat)
  /-- The health frame last sent upward (R455). -/
  lastHealth : Bytes
  healthRef : Nat
  deriving DecidableEq, Repr

end Sys2Proof.Machine
end

