-- ==== Sys2Proof/Machine/Types/Dom.lean ====
section
/-! DEFINITION. The state of the domains, the supplies and the electrical interface (chapters 01, 20, 21). -/
namespace Sys2Proof.Machine
open Sys2Proof

/-- The states of a domain (R15). -/
inductive DomState where
  | off | reset | starting | running | updating | sleeping
  deriving DecidableEq, Repr

/-- A restart that SYS_RESTART has scheduled (R505, R508). -/
structure RestartDue where
  kind : Nat
  tick : Tick
  /-- Wake time in s, kinds 4 and 5. -/
  wake : Nat
  hdr : Hdr
  role : BitVec 32
  deriving DecidableEq, Repr

/-- A sleep in progress (R509). -/
structure Sleep where
  kind : Nat
  /-- The reference cycle at which the wake time elapses. -/
  due : Nat
  deriving DecidableEq, Repr

/-- Domains, supplies, straps, temperatures and indicators. -/
structure Domains where
  umber : DomState
  fabric : DomState
  control : DomState
  compute : DomState
  /-- The restart kind of the last change, as SYS_STATUS reports it. -/
  lastKind : Nat
  /-- The restart kind that causes the changes of state in progress, 0 where none does (R16). -/
  why : Nat
  /-- The reference cycle of the last cold start. -/
  coldRef : Nat
  /-- A cold start is in progress: its domains start one after another (R500). -/
  restart : Option RestartDue
  sleep : Option Sleep
  /-- The dispatcher has signalled ready since compute last started (R19). -/
  ready : Bool
  /-- The instant at which the dispatcher last signalled ready, until a frame of a tick that begins after it is delivered (R19). -/
  deliverFrom : Option Ns
  /-- Per domain, whether its start has missed its limit once, and the reference cycle of the miss (R500). -/
  missed : Tab Nat
  /-- Domains whose one retry has been used. -/
  retried : List Nat
  /-- The phase that last missed its limit, 0 none (R527). -/
  missedPhase : Nat
  /-- A domain fault has occurred since the last start (R510). -/
  fault : Bool
  /-- Main 12 V is within range, and its input is connected (R512). -/
  main : Bool
  disconnected : Bool
  hold : Bool
  vio : Bool
  /-- VIO has been lost since the last I2C read (R528). -/
  vioSticky : Bool
  /-- The reference cycle since which VIO has been present and the umber domain running (R515). -/
  driveRef : Nat
  pwrGood : Bool
  /-- RESET_IN_N holds the module in reset (R503). -/
  resetHeld : Bool
  slotId : BitVec 5
  apex : Bool
  /-- The levels at the straps now (R520). -/
  slotIdPin : BitVec 5
  apexPin : Bool
  warning : Bool
  shutdown : Bool
  /-- A RESET_IN_N cold start waits for the temperature condition (R530). -/
  coldWaits : Bool
  /-- Transceiver ports held in their low-power state (R524). -/
  cageLow : List Nat
  dbg : Bool
  /-- An uncorrectable memory error is active (R166). -/
  memError : Bool
  /-- The bank sets it struck, each with the slices with memory in it that have not completed a reset since. -/
  memBanks : Tab (List Nat)
  /-- The bytes the last I2C transfer returned (R528). -/
  i2c : Bytes
  /-- The last umber status frame (R527). -/
  statusFrame : Bytes
  deriving DecidableEq, Repr

/-- The module identity (R1, SYS_IDENT). -/
structure Identity where
  order : Nat
  hwRev : Nat
  serial : BitVec 64
  mac : BitVec 48
  deriving DecidableEq, Repr

end Sys2Proof.Machine
end

