-- ==== Sys2Proof/Machine/Types/Time.lean ====
section
/-! DEFINITION. The state of the time unit: clock, time state, PTP and the tick grid (chapter 02). -/
namespace Sys2Proof.Machine
open Sys2Proof

/-- The three parts of the local clock (R31). -/
structure Clock where
  /-- TAI seconds since the PTP epoch. -/
  sec : BitVec 64
  /-- Nanoseconds, 0 to 999 999 999. -/
  ns : BitVec 32
  /-- Fraction of a nanosecond. -/
  frac : BitVec 40
  deriving DecidableEq, Repr

/-- The four time states (R38). -/
inductive TimeState where
  | freeRunning | expired | holdover | synchronised
  deriving DecidableEq, Repr

/-- The two kinds of holdover (R39). -/
inductive HoldKind where
  | master | excursion
  deriving DecidableEq, Repr

/-- The settings of TIME_PTP_SET (R36). -/
structure PtpCfg where
  /-- 0 PTP off, 1 IEC/IEEE 61850-9-3, 2 IEEE C37.238-2017. -/
  profile : Nat
  /-- 1 OC slave-only, 2 OC master-capable, 3 boundary clock. -/
  ctype : Nat
  domain : Nat
  ports : BitVec 8
  prio1 : Nat
  prio2 : Nat
  /-- Lock threshold in ns. -/
  lock : Nat
  /-- Holdover limit in s. -/
  limit : Nat
  /-- Step threshold in µs. -/
  step : Nat
  accSync : Nat
  accHold : Nat
  deriving DecidableEq, Repr

/-- A master as its Announce messages describe it (R36). -/
structure Master where
  port : Nat
  gm : BitVec 64
  /-- The IEEE 1588 comparison key: priority1, quality, priority2, identity, steps removed. -/
  key : List Nat
  /-- The TLVs of its Announce messages, which a boundary clock passes on. -/
  tlvs : PtpTlvs
  /-- The reference cycle of its last Announce (R39). -/
  ref : Nat
  deriving DecidableEq, Repr

/-- A peer delay exchange of a port: the number of the Pdelay_Req last sent, the instant at which it was transmitted, and, of a two-step
answer, the instant of its receipt less the responder's receipt of the request and the corrections (R36). -/
structure Pdelay where
  seq : Nat
  sent : Ns
  half : Option Int
  deriving DecidableEq, Repr

/-- A two-step Sync that waits for its Follow_Up: number, receive timestamp, correction (R36). -/
structure SyncWait where
  seq : Nat
  stamp : Ns
  corr : Int
  deriving DecidableEq, Repr

/-- What the CP's PTP protocol holds (R36, R38, R39). -/
structure PtpRun where
  /-- The best foreign masters heard, one a port. -/
  heard : List Master
  /-- The master followed, if one is present. -/
  master : Option Master
  /-- Consecutive Sync messages whose offset was at or below the lock threshold. -/
  good : Nat
  lastOffset : Int
  /-- The path delay of each port, in ns. -/
  paths : Tab Int
  /-- The peer delay exchange of each port, and the Sync each has received that waits for its Follow_Up. -/
  pdelays : Tab Pdelay
  syncs : Tab SyncWait
  /-- The number of the next messages sent, and the reference cycle of the last message interval. -/
  seq : Nat
  sentRef : Option Nat
  /-- The reference cycle of the master's last Sync, or of its choice (R39). -/
  syncRef : Nat
  /-- Tick count of the last offset-add the CP issued, if any (R35). -/
  lastAdd : Option Nat
  /-- A step the CP has decided for the next tick boundary (R35, R49): the target instant. -/
  step : Option Ns
  /-- The UTC offset reported differs from the one in force only until the next Announce (R41). -/
  utcValid : Bool
  /-- PTP reports the UTC offset as valid: as last received, until the protocol is restarted or turned off (R40). -/
  utcKnown : Bool
  leap61 : Bool
  leap59 : Bool
  /-- A leap flag already acted on and not yet received clear (R41). -/
  acted61 : Bool
  acted59 : Bool
  /-- The UTC day, counted from the epoch, in which the set flag was received. -/
  leapDay : Nat
  /-- PTP messages steered to the CP while it did not run (R20). -/
  discarded : BitVec 64
  deriving DecidableEq, Repr

/-- A grid: its second of origin, rate and first tick (R7, R48, R49). -/
structure Grid where
  s0 : Nat
  rate : Nat
  first : Nat
  deriving DecidableEq, Repr

/-- A rate change that waits for its boundary second (R48), with the command that asked for it: header and role. -/
structure RateDue where
  sec : Nat
  rate : Nat
  asked : Option (Hdr × BitVec 32)
  deriving DecidableEq, Repr

/-- An assembly that is due: a tick, its start and assembly instants, the rate of its grid (R50). -/
structure AsmDue where
  tick : Nat
  t : Ns
  d : Ns
  rate : Nat
  grid : Grid
  /-- The length of the tick in ns. -/
  len : Nat
  /-- Changes that became effective at this tick while an earlier one was still to be assembled, by code and payload: they are made
  as its assembly begins (R12). -/
  late : List (Nat × Bytes)
  deriving DecidableEq, Repr

/-- The time unit (chapter 02). -/
structure TimeUnit where
  clock : Clock
  /-- The clock has been loaded and runs with the fabric domain (R43). -/
  loaded : Bool
  /-- Cycles of the 2 ns reference since power-on, the base of every duration not read from the clock. -/
  ref : Nat
  /-- The increment register, unsigned 4.40 fixed point in bits 43:0 (R31). -/
  increment : BitVec 64
  /-- The offset-add held pending (R34). -/
  offPending : Option Int
  /-- Refused offset-adds (R34). -/
  offRefused : BitVec 64
  /-- Offset-adds discarded by a step (R34). -/
  offDiscarded : BitVec 64
  state : TimeState
  holdKind : HoldKind
  /-- The reference cycle at which holdover was entered (R39). -/
  holdRef : Nat
  /-- ClockFailure: the time unit reports an internal fault (R40). -/
  failure : Bool
  utcOffset : Int
  /-- The offsets that were in force before the one held, each with the instant of its end, newest first (R41). -/
  utcPast : List (Ns × Int)
  cfg : PtpCfg
  run : PtpRun
  grid : Grid
  /-- The current tick index. -/
  tick : Nat
  /-- The current slot of the tick. -/
  slot : Nat
  /-- The grid has begun: the first second boundary after the clock was loaded has come (R43). -/
  gridOn : Bool
  /-- The pending rate change (R48). -/
  rateChange : Option RateDue
  /-- Ticks begun since cold start, whatever their index. -/
  ticks : Nat
  /-- The hold-off H in ns (R134). -/
  hold : Nat
  /-- The TimeQuality octets latched at the last tick boundaries, newest first (R47, R212). -/
  tqs : List (Tick × BitVec 8)
  /-- Ticks begun whose assembly is due, oldest first (R50, R133). -/
  asm : List AsmDue
  /-- Offset-adds, steps, holdover entries and holdover limit expiries since cold start. -/
  adds : BitVec 32
  steps : BitVec 32
  holds : BitVec 32
  expiries : BitVec 32
  /-- The RTC of the umber domain in ns, and its value as last saved to MRAM (R42). -/
  rtc : Ns
  rtcSaved : Ns
  /-- Per core, the latch of SLW_TIME_NS (R46). -/
  latch : Tab (BitVec 64)
  deriving DecidableEq, Repr

end Sys2Proof.Machine
end

