-- ==== Sys2Proof/Machine/Types/Eng.lean ====
section
/-! DEFINITION. The state of energy metering and pulse I/O (chapter 13). -/
namespace Sys2Proof.Machine
open Sys2Proof

/-- A metering point's entry (R344). -/
structure MeterCfg where
  flags : BitVec 8
  quantum : Nat
  reader : Nat
  vch : List Nat
  ich : List Nat
  inch : Nat
  creep : F32
  istart : F32
  psVmin : F32
  v0Ratio : F32
  unbal : F32
  inMax : F32
  ctRatio : F32
  vtRatio : F32
  fsKw : F32
  deriving DecidableEq, Repr

/-- One of a point's seven registers: accumulator, wrap count, residue. -/
structure Reg where
  acc : BitVec 64
  wrap : BitVec 16
  res : F64
  deriving DecidableEq, Repr

/-- A metering point. -/
structure Meter where
  cfg : MeterCfg
  regs : List Reg
  /-- Unmeasured, questionable and creep time in ns, over range, wraps: counters 0 to 4 of ENG_READ. -/
  ctrs : Ctrs
  inCreep : Bool
  questionable : Bool
  unmeasured : Bool
  /-- Wrong sequence and missing neutral states, and the usable ticks for which their conditions to change have held. -/
  wrongSeq : Bool
  seqTicks : Nat
  missNeutral : Bool
  neutTicks : Nat
  /-- The registers as they stood after the increments of the last 8 ticks, newest first (R426). -/
  past : List (Tick × List Reg)
  deriving DecidableEq, Repr

/-- What the engine computes of one point at a tick (R346, R347). -/
structure Inc where
  point : Nat
  usable : Bool
  questionable : Bool
  /-- P, Q and S, and whether every current lies below ISTART. -/
  p : F32
  q : F32
  s : F32
  idle : Bool
  ovf : Bool
  deriving DecidableEq, Repr

/-- The increments of a tick on their way to the umber domain (R350). -/
structure IncBatch where
  tick : Tick
  t : Ns
  len : Nat
  rate : Nat
  hold : Nat
  /-- The grid of the tick. -/
  grid : Grid
  incs : List Inc
  deriving DecidableEq, Repr

/-- The settings of a pulse output (R355). -/
structure OutCfg where
  enabled : Bool
  secondary : Bool
  activeLow : Bool
  point : Nat
  reg : Nat
  const : Nat
  width : Nat
  deriving DecidableEq, Repr

/-- A pulse output (R355 to R358). -/
structure PulseOut where
  cfg : OutCfg
  store : F64
  /-- Pending pulses, oldest first: tick boundaries still to come before the start, and width in ticks. -/
  pending : List (Nat × Nat)
  active : Bool
  /-- Ticks of the pulse in progress still to come. -/
  left : Nat
  /-- Ticks for which the output has been inactive, and the width of the previous pulse. -/
  idle : Nat
  prevWidth : Nat
  /-- Emitted, pending discarded, lost. -/
  ctrs : Ctrs
  deriving DecidableEq, Repr

/-- A pulse input (R359). -/
structure PulseIn where
  enabled : Bool
  falling : Bool
  invert : Bool
  debounce : Nat
  /-- The accepted level after inversion, and the level of the pin that it was accepted at. -/
  level : Bool
  pin : Bool
  counter : BitVec 64
  /-- The last-edge instant. -/
  last : Ns
  deriving DecidableEq, Repr

/-- What a save holds of a metering point. -/
structure SavedMeter where
  quantum : Nat
  regs : List Reg
  ctrs : Ctrs
  deriving DecidableEq, Repr

/-- What a save holds of a pulse output. -/
structure SavedOut where
  store : F64
  pending : List (Nat × Nat)
  ctrs : Ctrs
  deriving DecidableEq, Repr

/-- A saved state of R360. -/
structure Save where
  seq : BitVec 64
  time : Ns
  /-- Made at power-fail. -/
  atFail : Bool
  meters : Tab SavedMeter
  outs : Tab SavedOut
  ins : Tab (BitVec 64 × Ns)
  tick : Tick
  /-- The digest written last, which completes the save (R360). -/
  digest : Bytes
  deriving DecidableEq, Repr

/-- A change that counts from the increments of a tick on (R25, R350). -/
inductive EngDue where
  | point (i : Nat) (cfg : MeterCfg)
  | out (i : Nat) (cfg : OutCfg)
  | preset (point reg wrap acc : Nat)
  deriving DecidableEq, Repr

/-- Energy metering and pulse I/O (chapter 13). -/
structure Energy where
  meters : Tab Meter
  outs : Tab PulseOut
  ins : Tab PulseIn
  /-- Increments computed and not yet applied, oldest first. -/
  incs : List IncBatch
  /-- Changes effective at a tick whose increments are still to come, with its T(n). -/
  due : List (Ns × EngDue)
  /-- The tick of the last increments applied (R351). -/
  tick : Tick
  /-- The two save slots in MRAM. -/
  slots : Tab Save
  saveSeq : BitVec 64
  /-- The detection stamp: instant, HOLD present, low 16 bits of the save sequence number (R362). -/
  stamp : Option (Ns × Bool × Nat)
  /-- The second of the last periodic save. -/
  savedSec : Nat
  /-- An outage that lasts until the first increment after start, from this instant (R363). -/
  outage : Option Ns
  deriving DecidableEq, Repr

end Sys2Proof.Machine
end

