-- ==== Sys2Proof/Machine/Types/Evr.lean ====
section
/-! DEFINITION. The state of the event recorder (chapter 15). -/
namespace Sys2Proof.Machine
open Sys2Proof

/-- An event as its producer raises it, on its way to the umber domain (R393). -/
structure Raised where
  code : Nat
  tag : Nat
  /-- The instant of the event in ns of TAI. -/
  time : Ns
  /-- The TimeQuality octet at the event (R40). -/
  tq : BitVec 8
  payload : Bytes
  deriving DecidableEq, Repr

/-- An event record (R391); SEVERITY and FLAGS follow from the fields. -/
structure Rec where
  seq : Nat
  ev : Raised
  severity : Nat
  pub : Bool
  /-- COMMIT is set (R392). -/
  commit : Bool
  /-- TAIL, the low 32 bits of SEQ unless the record is torn (R398). -/
  tail : BitVec 32
  deriving DecidableEq, Repr

/-- An entry of the rate-limit table (R405). -/
structure CodeEnt where
  rate : Nat
  burst : Nat
  pub : Bool
  deriving DecidableEq, Repr

/-- A bucket: tokens in units of 10^-12 token, and the reference cycle of its last refill (R405). -/
structure Bucket where
  tokens : Nat
  ref : Nat
  deriving DecidableEq, Repr

/-- A suppression in progress (R406). -/
structure Suppr where
  count : Nat
  first : Ns
  last : Ns
  tag : Nat
  severity : Nat
  deriving DecidableEq, Repr

/-- One slot of an event window (R402). -/
inductive WinSlot where
  | empty
  | holds (r : Rec)
  /-- The bound record has left its area; TQ is the byte of the slot that R402 leaves open. -/
  | gone (tq : BitVec 8)
  deriving DecidableEq, Repr

/-- The window of a pair of core and slice (R400, R401). -/
structure EvrWin where
  cursor : BitVec 64
  busy : Bool
  past : Bool
  live : Bool
  filled : Nat
  /-- The slots a fill has bound, slot 0 first; later slots are empty. -/
  slots : List WinSlot
  /-- The 8-byte words of the slots as a reader sees them, by the word's number in 0x1000–0x1FFF; one not listed is zero (R403). -/
  words : Tab (BitVec 64)
  deriving DecidableEq, Repr

/-- Records lost while staging was full, for record 0x0F03 (R396). -/
structure LostRun where
  count : Nat
  first : Ns
  last : Ns
  deriving DecidableEq, Repr

/-- The event recorder (chapter 15). -/
structure Recorder where
  /-- Events raised that have not yet reached the umber domain, oldest first. -/
  arrivals : List Raised
  nextSeq : Nat
  /-- The next number and counters 0 to 4 as the last flush saved them in MRAM (R394, R408). -/
  savedSeq : Nat
  savedCtrs : Ctrs
  /-- Staging, oldest first. -/
  staging : List Rec
  /-- The event space of MRAM, oldest first. -/
  mram : List Rec
  /-- Records in flash. -/
  flash : List Rec
  /-- The DRAM image of both areas, oldest first (R397). -/
  image : List Rec
  /-- F of R399. -/
  clearSeq : Nat
  lost : Option LostRun
  codes : Tab CodeEnt
  buckets : Tab Bucket
  suppr : Tab Suppr
  /-- Counters 0 to 5 of EVR_INFO. -/
  ctrs : Ctrs
  /-- Windows, by core * 128 + tag. -/
  wins : Tab EvrWin
  deriving DecidableEq, Repr

end Sys2Proof.Machine
end

