-- ==== Sys2Proof/Machine/Types/Sig.lean ====
section
/-! DEFINITION. The state of the signal table and of the GOOSE engine (chapter 08). -/
namespace Sys2Proof.Machine
open Sys2Proof

/-- A point's 16 bytes and the low 32 bits of its second (R209). -/
structure PVal where
  value : BitVec 64
  quality : BitVec 32
  tfrac : BitVec 32
  secLo : BitVec 32
  deriving DecidableEq, Repr

/-- A point, and whether it still holds its initial value (R227, code 0x01). -/
structure Point where
  v : PVal
  initial : Bool
  deriving DecidableEq, Repr

/-- A range of points (R213). -/
structure Range where
  first : Nat
  count : Nat
  ty : Nat
  len : Nat
  ownerKind : Nat
  owner : Nat
  mirror : Bool
  initV : BitVec 64
  initQ : BitVec 32
  deadband : F32
  /-- What points of the range hold that nothing has written since they were defined or returned: for each span of the
  range, its first point, its count and the value (R215). -/
  spans : List (Nat × Nat × PVal)
  /-- Deadbands in force before, oldest first, each with T(n) of the tick whose change ended it, while an earlier one is still to be
  assembled (R12). -/
  bands : List (Ns × F32)
  deriving DecidableEq, Repr

/-- A staged write of a point: the value, and the point's type and length when it was staged (R217, R218). -/
structure StagedPt where
  v : PVal
  ty : Nat
  len : Nat
  /-- The order in which writes were staged: the slice reads the latest. -/
  order : Nat
  deriving DecidableEq, Repr

/-- The staged writes of one window (R217): core, slice, tick of the window's slots, last slot e (or, of a window carried
over a grid restart, e + 3). -/
structure StagedWin where
  core : Nat
  tag : Nat
  tick : Tick
  e : Nat
  /-- A write has been refused for want of staging in this window. -/
  full : Bool
  writes : Tab StagedPt
  deriving DecidableEq, Repr

/-- The access registers of a pair of core and slice (R222 to R226). -/
structure Spa where
  index : BitVec 64
  value : BitVec 64
  meta_ : BitVec 64
  sec : BitVec 64
  status : BitVec 8
  list : BitVec 64
  buf : BitVec 64
  burstStatus : BitVec 8
  burstDone : Nat
  deriving DecidableEq, Repr

/-- A publish control block's entry and member map (R228); the engine's and the umber domain's alike. -/
structure PubEntry where
  flags : BitVec 8
  appid : Nat
  dmac : BitVec 48
  vlan : BitVec 16
  ports : BitVec 8
  curve : Nat
  ownerKind : Nat
  owner : Nat
  key : Nat
  confRev : Nat
  ref : Bytes
  datSet : Bytes
  goId : Bytes
  /-- Point index, or umber bit number, and role of each member. -/
  members : List (Nat × Nat)
  deriving DecidableEq, Repr

/-- A publish block (R230 to R235). -/
structure Pub where
  entry : PubEntry
  /-- m of the last state change, and Λ(m) with its TimeQuality. -/
  m : Tick
  t : Ns
  tq : BitVec 8
  /-- What the last message said of each member, if one was sent. -/
  last : Option (List PVal)
  /-- Retransmissions made on the curve, and the tick whose Λ the next is due at. -/
  pos : Nat
  next : Option Tick
  /-- The next message increments stNum whether or not a member changed (R233). -/
  force : Bool
  ctrs : Ctrs
  deriving DecidableEq, Repr

/-- A subscribe control block's entry and member map (R236). -/
structure GSubEntry where
  flags : BitVec 8
  appid : Nat
  dmac : BitVec 48
  vlan : Nat
  ports : BitVec 8
  key : Nat
  confRev : Nat
  ref : Bytes
  members : List (Nat × Nat)
  deriving DecidableEq, Repr

/-- A subscribe block (R237, R238). -/
structure GSub where
  entry : GSubEntry
  /-- Last accepted stNum and sqNum, 0 before the first. -/
  st : BitVec 32
  sq : BitVec 32
  /-- A message has been accepted since the block was enabled. -/
  heard : Bool
  /-- The instant supervision expires, while supervised. -/
  expiry : Option Ns
  /-- Supervision has expired and no message has been accepted since. -/
  expired : Bool
  authFail : Bool
  inSim : Bool
  /-- The dataset of the last state change accepted. -/
  data : List GVal
  ctrs : Ctrs
  deriving DecidableEq, Repr

/-- A GOOSE frame on its way to the GOOSE engine, and where and when it was received. -/
structure GooseIn where
  port : Nat
  ts : Ns
  frame : Frame
  deriving DecidableEq, Repr

/-- The signal table and the GOOSE engine (chapter 08). -/
structure Signals where
  /-- Ranges in rising order of their first points. -/
  ranges : List Range
  /-- Points that have been written since their range was defined or they were returned. -/
  points : Tab Point
  windows : List StagedWin
  stageOrder : Nat
  /-- Access registers by core * 128 + tag. -/
  spa : Tab Spa
  pubs : Tab Pub
  gsubs : Tab GSub
  /-- Intervals of each retransmission curve (R234). -/
  curves : Tab (List Nat)
  /-- GOOSE frames steered to the engine, oldest first. -/
  inbox : List GooseIn
  /-- stNum and sqNum of engine blocks 0 to 2047 and umber blocks 2048 to 2051, in retention SRAM (R233, R384). -/
  nums : Tab (BitVec 32 × BitVec 32)
  /-- The numbering as last saved to MRAM. -/
  savedNums : Tab (BitVec 32 × BitVec 32)
  deriving DecidableEq, Repr

end Sys2Proof.Machine
end

