-- ==== Sys2Proof/Machine/Types/Lge.lean ====
section
/-! DEFINITION. The state of the logic engine (chapter 12). -/
namespace Sys2Proof.Machine
open Sys2Proof

/-- A timer entry of an image (R318). -/
structure TimerEnt where
  id : Nat
  kind : Nat
  ret : Bool
  pt : Nat
  init : Nat
  deriving DecidableEq, Repr

/-- An edge detector entry of an image. -/
structure EdgeEnt where
  id : Nat
  init : Bool
  deriving DecidableEq, Repr

/-- A counter entry of an image. -/
structure CountEnt where
  id : Nat
  ret : Bool
  pv : Int
  init : Int
  deriving DecidableEq, Repr

/-- A function-block instance entry of an image. -/
structure InstEnt where
  id : Nat
  ty : Nat
  ret : Bool
  /-- PT or PV. -/
  preset : Nat
  /-- The timer, counter or edge detector it uses. -/
  uses : Nat
  deriving DecidableEq, Repr

/-- An input map entry (R319). -/
structure InEnt where
  point : Nat
  bit : Nat
  kind : Nat
  deriving DecidableEq, Repr

/-- An output map entry (R320). -/
structure OutEnt where
  point : Nat
  src : Nat
  kind : Nat
  bit : Nat
  ret : Bool
  deriving DecidableEq, Repr

/-- A program image after its checks (R317 to R321). -/
structure Prog where
  mode : Nat
  id : BitVec 64
  code : List (BitVec 32)
  ins : List InEnt
  outs : List OutEnt
  nrmark : Nat
  marks : List Bool
  timers : List TimerEnt
  edges : List EdgeEnt
  counts : List CountEnt
  insts : List InstEnt
  deriving DecidableEq, Repr

/-- The state of a timer (R325). -/
structure TimerSt where
  el : Nat
  prev : Bool
  running : Bool
  /-- The clock value at its last execution; none before the first after enable, restart or a step. -/
  last : Option Ns
  deriving DecidableEq, Repr

/-- The state of a counter: CV and the previous A. -/
structure CountSt where
  cv : Int
  prev : Bool
  deriving DecidableEq, Repr

/-- The state of an instance: its 16 member bits and the previous values of its count inputs (R327, R328). -/
structure InstSt where
  mem : BitVec 16
  up : Bool
  down : Bool
  deriving DecidableEq, Repr

/-- What a program computes on: output image, markers, timers, edge detectors, counters, instances. -/
structure ProgSt where
  q : List Bool
  marks : List Bool
  timers : List TimerSt
  edges : List Bool
  counts : List CountSt
  insts : List InstSt
  deriving DecidableEq, Repr

/-- A cycle in progress: its boundary, its steps X, the steps still to be used, the state its end leaves (R313). -/
structure Cycle where
  b : Tick
  steps : Nat
  left : Nat
  result : ProgSt
  /-- It has overrun (R329). -/
  late : Bool
  deriving DecidableEq, Repr

/-- An exchange that is due (R338). -/
structure Exchange where
  prog : Prog
  warm : Bool
  deriving DecidableEq, Repr

/-- A program the engine holds (R311 to R315). -/
structure Program where
  prog : Prog
  enabled : Bool
  lp : Nat
  owner : Nat
  c : Nat
  units : Nat
  /-- C and units that take effect at the next boundary. -/
  change : Option (Nat × Nat)
  beta : Tick
  /-- Warm start permitted at cold start. -/
  warm : Bool
  st : ProgSt
  cycle : Option Cycle
  /-- The tick of the boundary that comes next; none while no cycle is to begin. -/
  next : Option Tick
  /-- K2, K3 and K4 of the next cycle. -/
  k2 : Bool
  k3 : Bool
  k4 : Bool
  /-- The image and the state of the last commit: its output image and counter values (R335). -/
  committed : Option (Prog × ProgSt)
  /-- Output points still to be returned at the D of a restart: all of them, or only those not retentive (R331). -/
  pointsDue : Option Bool
  exchange : List Exchange
  maxSteps : Nat
  ctrs : Ctrs
  deriving DecidableEq, Repr

/-- A force (R334). -/
structure Force where
  prog : Nat
  output : Bool
  value : Bool
  point : Nat
  bit : Nat
  kind : Nat
  orphan : Bool
  tick : Tick
  deriving DecidableEq, Repr

/-- Retentive state of a program (R330). -/
structure Retained where
  prog : BitVec 64
  st : ProgSt
  points : List (Nat × PVal)
  deriving DecidableEq, Repr

/-- The logic engine (chapter 12). -/
structure Logic where
  progs : Tab Program
  /-- Programs as they stood, with a cycle that was in progress when they stopped and have since been started again, replaced or removed:
  it runs to its end and commits at its boundary (R333). -/
  ending : List (Nat × Program)
  forces : Tab Force
  /-- Points that a force set or removed has to be committed at the coming D: program, point, and whether the force
  removed was an orphan (R335, R340). -/
  due : List (Nat × Nat × Bool)
  /-- The execution period of the tick last assembled has been used (R313). -/
  used : Bool
  /-- The retentive state in retention SRAM, by program. -/
  retained : Tab Retained
  /-- The retentive state as last saved to MRAM. -/
  savedRet : Tab Retained
  deriving DecidableEq, Repr

end Sys2Proof.Machine
end

