-- ==== Sys2Proof/Machine/Types/Net.lean ====
section
/-! DEFINITION. The state of the switch core, the MAC ports and the host DMA rings (chapters 09, 10, 11). -/
namespace Sys2Proof.Machine
open Sys2Proof

/-- What the cells of a stored frame are drawn from (R250). -/
inductive CellSrc where
  | pool
  /-- The reserve of a queue: port code and queue number. -/
  | queue (port q : Nat)
  /-- The reserve of a slice's transmit account. -/
  | account (tag : Nat)
  deriving DecidableEq, Repr

/-- The transmit ring a frame came from, and its descriptors (R302, R304). -/
structure TxInfo where
  ring : Nat
  first : BitVec 32
  count : Nat
  /-- The descriptors as they were read. -/
  descs : List Bytes
  /-- The ring's enabling under which they were read. -/
  epoch : Nat
  deriving DecidableEq, Repr

/-- A frame in the switch (R246). -/
structure Stored where
  id : Nat
  frame : Frame
  cls : Nat
  /-- Ingress port code; 14 HX, 15 CX, 16 UX. -/
  port : Nat
  /-- Receive timestamp (R37). -/
  ts : Ns
  rule : Nat
  oversize : Bool
  /-- Target queues still to be admitted: port code and queue number, in target order. -/
  targets : List (Nat × Nat)
  src : CellSrc
  /-- The slice whose transmit account is charged (R251). -/
  acct : Option Nat
  /-- A GOOSE engine frame, which takes the first FIFO of a TC7 queue (R243). -/
  goose : Bool
  /-- The publish block of a message of the GOOSE engine (R228). -/
  block : Option Nat
  /-- The launch word (R54). -/
  launch : BitVec 64
  refs : Nat
  tx : Option TxInfo
  /-- Transmit timestamp, the ports on which its launch was late, launch too far, a copy removed (R304). -/
  sentTs : Ns
  late : List Nat
  tooFar : Bool
  removed : Bool
  /-- Its admission has waited (R250). -/
  waited : Bool
  /-- It was queued across a step of the clock and is transmitted at once (R50). -/
  stepped : Bool
  /-- A timestamp is taken at transmission (R37). -/
  stamp : Bool
  deriving DecidableEq, Repr

/-- One egress queue (R243, R247, R250). -/
structure Queue where
  /-- Class reserve in bytes. -/
  rmin : Nat
  /-- Threshold exponent, −4 to 3. -/
  k : Int
  /-- Frames of the GOOSE engine on a TC7 queue, head first. -/
  goose : List Nat
  /-- Other frames, head first. -/
  other : List Nat
  ctrs : Ctrs
  deriving DecidableEq, Repr

/-- A filter rule (R269). -/
structure Rule where
  flags : BitVec 8
  targets : BitVec 8
  vlan : Nat
  etype : Nat
  pcp : Nat
  cls : Nat
  dmac : BitVec 48
  dmask : BitVec 48
  ringset : Nat
  portmask : BitVec 16
  hits : BitVec 64
  deriving DecidableEq, Repr

/-- The settings of MAC_PORT_SET. -/
structure PortCfg where
  enabled : Bool
  preempt : Bool
  /-- 0 off, 1 PAUSE, 2 PFC. -/
  fc : Nat
  speed : Nat
  fec : Nat
  maxLen : Nat
  guard : Nat
  pfcMask : BitVec 8
  pauseTime : Nat
  xoff : Nat
  xon : Nat
  stormMs : Nat
  deriving DecidableEq, Repr

/-- A pause of one class of a port by the link partner (R280, R281). -/
structure Pause where
  /-- Quanta received that wait for the next frame boundary. -/
  waiting : Option Nat
  /-- The instant the timer ends, while the class is stopped. -/
  until_ : Option Ns
  /-- Since when the class has been stopped without a break. -/
  since : Option Ns
  /-- A storm: pause frames are ignored until this instant. -/
  ignore : Option Ns
  /-- A pause frame arrived during the storm period. -/
  arrived : Bool
  deriving DecidableEq, Repr

/-- A frame in transmission on a port; id 0 is a flow-control frame of the port's own (R282). -/
structure Sending where
  id : Nat
  cls : Nat
  /-- The instant its first bit began. -/
  start : Ns
  /-- The bytes to be sent from that instant on, and the bytes sent in earlier fragments. -/
  left : Nat
  sent : Nat
  /-- It is being cut through (R256). -/
  cut : Bool
  /-- The partner asked for a pause of its class after it had been preempted: its remaining fragments go first (R280). -/
  owed : Bool
  deriving DecidableEq, Repr

/-- A MAC port (chapter 10). -/
structure Port where
  cfg : PortCfg
  rules : Tab Rule
  /-- Rules as they stood up to an instant: the instant, the rule's index, the rule. -/
  oldRules : List (Ns × Nat × Rule)
  link : Bool
  /-- Preemption active, transmit and receive (R275). -/
  preTx : Bool
  preRx : Bool
  verifyTries : Nat
  pauses : Tab Pause
  sending : Option Sending
  /-- A preempted frame whose remaining fragments wait. -/
  cutOff : Option Sending
  /-- The class of the launch-timed frame whose hold guard holds lower classes (R56). -/
  guard : Option Nat
  /-- Flow-control frames to send, each with the instant it fell due and what it carries: class (8 for PAUSE) and time (R282). -/
  fcOut : List (Ns × List (Nat × Nat))
  /-- Classes (8 for PAUSE) the port has asked its partner to pause, with the instant of the last frame. -/
  fcAsked : Tab Ns
  /-- Receive and transmit corrections in ps, by speed * 4 + FEC (R268). -/
  corr : Tab (Int × Int)
  /-- Cut-through enabled (SWC_PORT_SET). -/
  cutThrough : Bool
  /-- Headroom in bytes: of the port, or of each class on P8, P10 and P11 (R247). -/
  headroom : Nat
  /-- Frames received that wait for admission, by class (R255). -/
  waiting : Tab (List Stored)
  /-- The frame whose first 64 bytes have been received, with the ports it is cut through to, and id 0 while there is none (R256). -/
  incoming : Option Stored
  /-- The first 64 bytes of a preemptable frame have been received where preemption is active, and its end is to come; an express frame may
  come in between (R256, R275). -/
  inPre : Bool
  /-- The instant at which it was disabled with its link up: a frame in reception then is still delivered (R285). -/
  offAt : Option Ns
  /-- The last transmissions, newest first: begin, end and launch word, for R56's "launch delayed". -/
  recent : List (Ns × Ns × BitVec 64)
  /-- Counters of R286. -/
  ctrs : Ctrs
  /-- Counters 0 to 4 of SWC_STATUS. -/
  swCtrs : Ctrs
  deriving DecidableEq, Repr

/-- A ring set (R299). -/
structure RingSet where
  copy : Bool
  rings : List Nat
  deriving DecidableEq, Repr

/-- A frame held in the middle of its delivery for want of a buffer (R298, R300). -/
structure Delivery where
  id : Nat
  /-- Bytes written so far. -/
  done : Nat
  /-- Buffers filled: descriptor index, bytes and cookie. -/
  used : List (BitVec 32 × Nat × BitVec 64)
  /-- The instant at which the hold for a buffer ends (R300). -/
  hold : Ns
  deriving DecidableEq, Repr

/-- A host DMA ring (R289). -/
structure Ring where
  /-- Owner: none unassigned, 0 the system, else the slice tag. -/
  owner : Option Nat
  pos : Option Nat
  enabled : Bool
  tx : Bool
  /-- SIZE_LOG2. -/
  s : Nat
  base : Nat
  handler : Nat
  cmpCount : Nat
  cmpTicks : Nat
  txClass : BitVec 8
  txPorts : BitVec 16
  head : BitVec 32
  tail : BitVec 32
  /-- Next descriptor the engine reads. -/
  rdIdx : BitVec 32
  starve : Bool
  starved : Bool
  armed : Bool
  pend : Nat
  oldest : Tick
  delivery : Option Delivery
  /-- Frames discarded while starved, for event 0x0B02. -/
  starvedDrops : Nat
  /-- Transmit frames written back ahead of earlier ones: first index and descriptors (R291). -/
  doneTx : List (BitVec 32 × Nat)
  /-- How often the ring has been enabled or emptied (R291). -/
  epoch : Nat
  /-- Counters of R308. -/
  ctrs : Ctrs
  deriving DecidableEq, Repr

/-- The switch, its ports and the rings. -/
structure Network where
  /-- Frames in the buffer, by id. -/
  store : Tab Stored
  nextId : Nat
  /-- Queues by port code * 512 + queue number; one not listed is empty and as after cold start. -/
  queues : Tab Queue
  sliceLimit : Nat
  minFree : Nat
  ports : Tab Port
  /-- Frames of rings, the GOOSE engine, the CP and the umber tap that wait for admission, oldest first. -/
  inner : List Stored
  rings : Tab Ring
  ringSets : Tab RingSet
  /-- Per slice, whether its transmit reading waits (R251); the tag 0 stands for the system rings. -/
  stalled : List Nat
  /-- Per slice, the doorbell position whose transmit ring was read last (R303). -/
  turns : Tab Nat
  deriving DecidableEq, Repr

end Sys2Proof.Machine
end

