-- ==== Sys2Proof/Machine/Types/Rsc.lean ====
section
/-! DEFINITION. The state of the resampling chain and the estimate engine (chapters 04, 05). -/
namespace Sys2Proof.Machine
open Sys2Proof

/-- A coefficient bank (R84, R85). -/
structure Bank where
  ntaps : Nat
  ahead : Nat
  inRate : Nat
  tmask : BitVec 4
  id : BitVec 64
  /-- Tap k of phase ph at index ph * ntaps + k. -/
  coeffs : List F32
  deriving DecidableEq, Repr

/-- A swap in progress: to which bank, its fade length, ticks already output (R98). -/
structure Swap where
  dest : Nat
  len : Nat
  done : Nat
  deriving DecidableEq, Repr

/-- One of the four comparators of a group's settings (R127). -/
structure Comp where
  source : Nat
  dir : Nat
  level : F32
  hyst : F32
  delay : Nat
  deriving DecidableEq, Repr

/-- The estimate settings of a group (R106). -/
structure EstCfg where
  nomf : Nat
  commissioning : Bool
  settle : Bool
  twoCycle : Bool
  tauMs : Nat
  freezeLevel : F32
  holdMs : Nat
  groupFreeze : Bool
  track : Bool
  refChan : Option Nat
  trackMin : F32
  rc : Nat
  ctrl : Option Nat
  thrBase : Option Nat
  comps : List Comp
  deriving DecidableEq, Repr

/-- A channel group: its banks, swaps and settings, and what the engines keep of it. -/
structure Group where
  enabled : Bool
  inRate : Nat
  bankA : Option Bank
  bankB : Option Bank
  /-- Bank in use: 0 A, 1 B; during a swap the bank the swap leaves. -/
  inUse : Nat
  swap : Option Swap
  /-- The bank in use and the fade bit of the tick last put out, as the frame header reports them (R99). -/
  shownBank : Nat
  shownFade : Bool
  /-- The swap held pending: its place in the order of acceptance, and its fade length (R100). -/
  pending : Option (Nat × Nat)
  /-- Swaps effective at a tick whose assembly is still to come: T(s), place in the order of acceptance, fade length. -/
  due : List (Ns × Nat × Nat)
  /-- Ticks, by T(n), whose assembly is still to come and from which on no earlier swap goes on and the bank named is in use: the group
  was disabled, given its bank by RSC_GROUP_SET, or the rate changed (R97, R102); oldest first. -/
  cuts : List (Ns × Nat)
  /-- T(n) of the tick the group was last enabled at (R94), and the last span for which it was enabled before. -/
  since : Ns
  before : Option (Ns × Ns)
  /-- Last look-ahead-limited output, while limiting is reported (R104). -/
  limited : Option Ns
  ctrs : Ctrs
  est : EstCfg
  /-- Settings effective at a tick whose assembly is still to come, with its T(n). -/
  estDue : List (Ns × EstCfg)
  /-- Freezes and releases effective at a tick whose assembly is still to come: T(m), channel or none for all, whether it
  releases, hold in ms (R118). -/
  cmds : List (Ns × Option Nat × Bool × Nat)
  /-- The group has been set up for the span it is enabled in: T(n) of that span. -/
  started : Option Ns
  recovery : Bool
  good : Nat
  /-- Tracked frequency f_t (R124), and the f_t that the last tick assembled used. -/
  ft : F32
  ftUsed : F32
  /-- Since when tracking has failed at every boundary, and whether it has been reported lost (R125). -/
  failing : Option Ns
  lost : Bool
  /-- Ticks since the last cycle boundary tick, if there was one (R124). -/
  prev : Option Nat
  estCtrs : Ctrs
  deriving DecidableEq, Repr

/-- A phasor as a path delivers it: its parts, an incomplete window, a result that is not finite (R123). -/
structure Phasor where
  re : F32
  im : F32
  inc : Bool
  ovf : Bool
  deriving DecidableEq, Repr

/-- What the estimate engine keeps of a channel. -/
structure Chan where
  /-- y and x of past ticks, newest first; none where y was invalid (R111). -/
  hist : List (Option (F32 × F32))
  /-- d of the last tick, and d_h (R115, R117). -/
  d : F32
  dh : F32
  /-- Ticks since the last trigger, and whether another channel of the group gave it (R116). -/
  trigAgo : Option Int
  trigGroup : Bool
  /-- Ticks a command freeze still covers (R118). -/
  cmdLeft : Nat
  frozen : Bool
  frozenTicks : Nat
  /-- Comparators: on, and consecutive ticks the turn-on condition has held (R128). -/
  comps : List (Bool × Nat)
  /-- The value of the last settle block (R126). -/
  blk : Option Phasor
  /-- The fine phasor of the last cycle boundary tick (R124). -/
  bound : Option Phasor
  /-- What the comparators read at the last tick: y, the paths, and whether y was invalid. -/
  seen : Option (F32 × Phasor × Phasor × Bool)
  /-- The channel record of the last tick assembled (R130). -/
  record : Bytes
  /-- SAMPLE of past records, newest first, with its tick and what R347 asks of a record: bit 0 not usable, bit 1
  questionable. -/
  recs : List (Tick × F32 × BitVec 2)
  deriving DecidableEq, Repr

/-- Groups and channels of the chain and the estimate engine. -/
structure Filters where
  /-- The grid of the tick last assembled. -/
  grid : Option Grid
  groups : Tab Group
  chans : Tab Chan
  deriving DecidableEq, Repr

end Sys2Proof.Machine
end

