-- ==== Sys2Proof/Machine/Types/Sec.lean ====
section
/-! DEFINITION. The state of configuration copies, images and secrets (chapter 19). -/
namespace Sys2Proof.Machine
open Sys2Proof

/-- An owner key slot (R482). -/
inductive OwnerSlot where
  | empty
  | active (digest : Bytes)
  | revoked (digest : Bytes)
  deriving DecidableEq, Repr

/-- A copy area: its header area, its body, and SEAL (R484). -/
structure CopyArea where
  header : Bytes
  body : Bytes
  sealed : Option (Nat × Bytes)
  deriving DecidableEq, Repr

/-- The copy in force. -/
structure InForce where
  /-- 0 copy A, 1 copy B. -/
  which : Nat
  seq : Nat
  digest : Bytes
  slot : Nat
  deriving DecidableEq, Repr

/-- An entry of the journal (R486). -/
structure JEntry where
  code : Nat
  tick : Tick
  payload : Bytes
  /-- The slice whose mailbox carried it, 0 for a management mailbox. -/
  tag : Nat
  deriving DecidableEq, Repr

/-- The staging area while a session holds it (R490). -/
structure Staging where
  owner : Nat
  kind : Nat
  len : Nat
  data : Bytes
  deriving DecidableEq, Repr

/-- A stored slice or program image (R493, R494). -/
structure Image where
  kind : Nat
  tenant : Nat
  id : BitVec 64
  digest : Bytes
  pubkey : Bytes
  content : Bytes
  deriving DecidableEq, Repr

/-- A commit that is pending (R490). -/
structure Commit where
  tick : Tick
  /-- The staged image: header and body. -/
  header : Bytes
  body : Bytes
  sealed : Bool
  hdr : Hdr
  role : BitVec 32
  deriving DecidableEq, Repr

/-- A key of the key store (R496). -/
structure AuthKey where
  key : Bytes
  ident : Nat
  deriving DecidableEq, Repr

/-- A key store index: its current and its next key (R67, R496). -/
structure KeyEnt where
  cur : Option AuthKey
  next : Option AuthKey
  deriving DecidableEq, Repr

/-- A firmware image held: version, digest, security version. -/
structure Firmware where
  version : Nat
  digest : Bytes
  secver : Nat
  deriving DecidableEq, Repr

/-- An attestation whose report is fixed and being signed (R497). -/
structure Attest where
  hdr : Hdr
  role : BitVec 32
  alg : Nat
  cert : Bool
  report : Bytes
  deriving DecidableEq, Repr

/-- Configuration, images and secrets (chapter 19). -/
structure Security where
  root : Bytes
  owners : Tab OwnerSlot
  copies : Tab CopyArea
  force : Option InForce
  journalBase : Nat
  journal : List JEntry
  staging : Option Staging
  images : List Image
  commit : Option Commit
  /-- Endorsed tenant keys of the running configuration: tenant and key digest (R494). -/
  endorsed : List (Nat × Bytes)
  fwCur : Firmware
  fwPend : Option Firmware
  raiseFloor : Bool
  /-- The pending firmware has been started and not yet reached running (R495). -/
  fwTrying : Bool
  secver : Nat
  keys : Tab KeyEnt
  anchors : Tab Bytes
  cert : Bytes
  attest : Option Attest
  unconfigured : Bool
  /-- Changes between the configuration the fabric ran and the one selected at a module restart, which wait for the first
  tick at which the compute domain runs again (R488). -/
  bootDue : List (Nat × Bytes)
  deriving DecidableEq, Repr

end Sys2Proof.Machine
end

