-- ==== Sys2Proof/Machine/Types/Slc.lean ====
section
/-! DEFINITION. The state of hues, slices, cores and the dispatcher (chapters 06, 07). -/
namespace Sys2Proof.Machine
open Sys2Proof

/-- The definition of a hue (R151). -/
structure Hue where
  banks : BitVec 32
  ways : BitVec 16
  bw : Nat
  tenants : BitVec 16
  /-- The owner slot whose key signed the shared-hue waiver in force, if one (R167). -/
  waiver : Option Nat
  deriving DecidableEq, Repr

/-- The states of a slice (R150); an absent slice has no entry. -/
inductive SliceState where
  | loaded | running | stopped | resetting
  deriving DecidableEq, Repr

/-- A handler of a slice (R156), and whether it is enabled (R205). -/
structure Handler where
  entry : Nat
  prio : Nat
  frameReady : Bool
  cost : Nat
  enabled : Bool
  deriving DecidableEq, Repr

/-- A region of a slice (R157). -/
structure Region where
  vbase : Nat
  size : Nat
  kind : Nat
  access : BitVec 8
  mirrored : Bool
  coff : Nat
  clen : Nat
  /-- Ranges the slice has released and unmapped: offset and length (R170). -/
  released : List (Nat × Nat)
  /-- Where its 64 KiB pages lie, in order of their offsets: bank set and how many pages in a row (R154). -/
  pages : List (Nat × Nat)
  deriving DecidableEq, Repr

/-- What a fill or copy into slice memory is for (R537). -/
inductive FillKind where
  | admission | reload | migrate | image | refill
  deriving DecidableEq, Repr

/-- A fill or copy that is due or running (R537). -/
structure Fill where
  tag : Nat
  kind : FillKind
  bytes : Nat
  /-- The instant it began, once it runs. -/
  start : Option Ns
  deriving DecidableEq, Repr

/-- A hue migration of a slice (R171). -/
structure Migration where
  hue : Nat
  tick : Tick
  copied : Bool
  /-- Ticks from the apply tick on whose gap passed without the switch. -/
  tries : Nat
  /-- The pages held in the new hue, by region. -/
  pages : List (List (Nat × Nat))
  /-- Pages the slice has written after they were copied, by number. -/
  marked : List Nat
  deriving DecidableEq, Repr

/-- A slice reset in progress (R174). -/
structure Resetting where
  restart : Bool
  /-- The commands whose answers wait for the reset to be complete: header, with the apply tick used, and role (R174, R175). -/
  asked : List (Hdr × BitVec 32)
  /-- Ticks begun since the slice entered resetting. -/
  age : Nat
  /-- The in-flight operations have ended and the reload is due. -/
  complete : Bool
  withdrawn : Nat
  discarded : Nat
  deriving DecidableEq, Repr

/-- A slice. -/
structure Slice where
  state : SliceState
  tenant : Nat
  image : BitVec 64
  imageDigest : Bytes
  hue : Nat
  flim : Nat
  nmax : Nat
  readyMin : Nat
  minSlots : Nat
  handlers : List Handler
  regions : List Region
  /-- Switch share: reserved bytes and α exponent (R251). -/
  rsv : Nat
  alpha : Int
  /-- Channels subscribed, in order (R138). -/
  subs : List Nat
  /-- Subscriptions effective at a tick whose frame is still to come, with that tick's start. -/
  subsDue : List (Ns × List Nat)
  /-- Points the slice may read: first and count (R172). -/
  reads : List (Nat × Nat)
  /-- The fill of its memory is complete (R161). -/
  filled : Bool
  /-- The slice becomes running as soon as it is loaded (R501). -/
  toRun : Bool
  /-- Its memory is refilled after a start of the compute domain, and it has not run since: its programs have been restarted
  already (R332). -/
  resumed : Bool
  /-- The slice has not yet become loaded; the apply tick of its admission, 0 once that has come (R161). -/
  arriving : Option Tick
  /-- The admission whose answer waits for the slice to become loaded: header, with the apply tick used, role and response
  (R161). -/
  asked : Option (Hdr × BitVec 32 × Bytes)
  reset : Option Resetting
  migration : Option Migration
  /-- Instants of faults and aborts within the last second (R173). -/
  faults : List Ns
  /-- FLIM has been reached: the tick boundary at which the slice is reset (R173). -/
  resetAt : Option Tick
  /-- Counters 0 to 11 of SLC_STATUS. -/
  ctrs : Ctrs
  /-- Causes for which the guarantee is suspended, bit i for row i of R166. -/
  suspended : BitVec 4
  /-- SLW_TICK and the frame pointer (R133). -/
  slwTick : Tick
  framePtr : Nat
  subver : BitVec 32
  /-- Ticks on this grid without a frame just before the next one; none if it received none on this grid. -/
  withheld : Option Nat
  /-- Starts and stops whose tick, or an earlier one, is still to be assembled, oldest first: T(n), and whether the slice ran before
  it (R12). -/
  ran : List (Ns × Bool)
  /-- A tick has been withheld since its last frame (R140, R143). -/
  skipped : Bool
  /-- Counters 0 to 4 of EST_FRAME_STATUS. -/
  frameCtrs : Ctrs
  /-- Entries freed by cancels in the dispatcher cycle of the last one: the reference cycle, and whether each was a delayed item's
  (R184). -/
  freed : List (Nat × Bool)
  /-- Next handle (R180). -/
  nextHandle : BitVec 56
  /-- Counters 0 to 9 of DSP_STATUS. -/
  dspCtrs : Ctrs
  deriving DecidableEq, Repr

/-- The sources of a work item (R179). -/
inductive ItemSrc where
  | slice | engine | cp | frame
  deriving DecidableEq, Repr

/-- A work item on a list or running (R179, R180). -/
structure Item where
  handle : BitVec 56
  handler : Nat
  prio : Nat
  src : ItemSrc
  /-- Effective cost (R181). -/
  cost : Nat
  due : Nat
  arg0 : BitVec 64
  arg1 : BitVec 64
  /-- The core that submitted it. -/
  core : Nat
  /-- The ring whose completion it reports, if any (R305). -/
  ring : Option Nat
  /-- The tick of a frame-ready item (R142). -/
  frame : Option Tick
  /-- The reference cycle in which it became ready or delayed, and its place among the operations of one dispatcher cycle (R184). -/
  cyc : Nat
  rank : Nat
  deriving DecidableEq, Repr

/-- An item an engine or the CP holds for a full slice (R182). -/
structure HeldItem where
  tag : Nat
  item : Item
  deriving DecidableEq, Repr

/-- The item a core runs (R191, R194). -/
structure Running where
  tag : Nat
  item : Item
  /-- Tick of the grant, and last slot e of the window; of a window carried over a grid restart, e + 3 (R50). -/
  tick : Tick
  e : Nat
  borrowed : Bool
  /-- The read ranges of the tick of the grant (R172). -/
  reads : List (Nat × Nat)
  /-- The item has issued its last access: fetch, fault or abort comes next. -/
  startNs : Ns
  deriving DecidableEq, Repr

/-- The status pair of a core and slice (R196). -/
structure DspPair where
  submit : BitVec 64
  cancel : BitVec 64
  deriving DecidableEq, Repr

/-- A lattice: mode, period, and entries by page, core and slot (R186). -/
structure Lattice where
  shared : Bool
  period : Nat
  /-- Entries that are not a system entry at slots 0 to 15 or free elsewhere: key page * 8192 + core * 256 + slot. -/
  entries : Tab (BitVec 16)
  deriving DecidableEq, Repr

/-- A core of the compute domain, as the dispatcher and the slice window see it. -/
structure Core where
  /-- A read of DSP_FETCH is pending. -/
  fetching : Bool
  run : Option Running
  /-- The tag of the last item granted. -/
  lastTag : Nat
  /-- What its last read of a window register returned. -/
  rdata : BitVec 64
  deriving DecidableEq, Repr

/-- Hues, slices, lists, lattice and cores. -/
structure Compute where
  hues : Tab Hue
  slices : Tab Slice
  fills : List Fill
  /-- Ready lists by tag * 16 + priority, head first. -/
  ready : Tab (List Item)
  /-- Delay lists by tag, in order of due slot and then of submission. -/
  delay : Tab (List Item)
  held : List HeldItem
  pairs : Tab DspPair
  lattice : Lattice
  staged : Lattice
  /-- Pages loaded since the last apply. -/
  loadedPages : List Nat
  /-- A DSP_LAT_APPLY is accepted and not yet effective. -/
  locked : Bool
  cores : List Core
  deriving DecidableEq, Repr

end Sys2Proof.Machine
end

