-- ==== Sys2Proof/Machine/Types/Svi.lean ====
section
/-! DEFINITION. The state of sampled-value subscription and ingest (chapter 03). -/
namespace Sys2Proof.Machine
open Sys2Proof

/-- A subscription entry (R60). -/
structure SubEntry where
  flags : BitVec 8
  nchan : Nat
  appid : Nat
  dmac : BitVec 48
  vlan : Nat
  rate : Nat
  port : Nat
  prpPort : Nat
  nasdu : Nat
  tdelay : Nat
  polRate : Nat
  polBurst : Nat
  key : Nat
  chan0 : Nat
  confRev : Nat
  svid : Bytes
  deriving DecidableEq, Repr

/-- A channel table entry (R61). -/
structure ChanEntry where
  scale : F32
  group : Nat
  kind : Nat
  deriving DecidableEq, Repr

/-- The synchronisation classes of a stream (R70). -/
inductive SyncClass where
  | none | local | global
  deriving DecidableEq, Repr

/-- How a position of a stream came by its samples (R74). -/
inductive PosKind where
  | accepted | interpolated | held | invalid
  deriving DecidableEq, Repr

/-- A sample position of a stream: its number (positions follow one another), its instant, the receive timestamp of an
accepted one, and value and quality of each channel (R74, R78). -/
structure Pos where
  key : Nat
  t : Ns
  rx : Ns
  kind : PosKind
  vals : List (F32 × BitVec 32)
  deriving DecidableEq, Repr

/-- A span for which a subscription was enabled, of which ticks are still to be assembled (R28): the entry of that time, T(n) of its first
tick and of the tick it was disabled at, and its positions, as in `SubRun`. -/
structure SubSpan where
  entry : SubEntry
  on : Ns
  off : Ns
  ref : Option (Nat × Ns × Nat)
  first : Nat
  done : Nat
  fresh : Bool
  poss : List Pos
  late : List Nat
  deriving DecidableEq, Repr

/-- What ingest keeps of a subscription. -/
structure SubRun where
  /-- Policer tokens in units of 10^-9 token, and the instant of the last refill (R66). -/
  tokens : Nat
  refill : Ns
  /-- Sequence numbers of the last 256 frames accepted, with their instants, newest first (R69). -/
  seen : List (Nat × Ns)
  authFail : Bool
  /-- No frame has failed its authentication since the entry was enabled (R68). -/
  unfailed : Bool
  inSim : Bool
  /-- The class last seen, kept through disabling and every change (R76). -/
  cls : Option SyncClass
  lastPort : Nat
  lastCnt : Nat
  lastT : Ns
  /-- The stream has turned invalid and no sample has been accepted since (R75). -/
  invalid : Bool
  /-- Number, instant and smpCnt of the newest accepted position since the entry was enabled. -/
  ref : Option (Nat × Ns × Nat)
  /-- The first position, and the last that has been passed by its deadline. -/
  first : Nat
  done : Nat
  /-- The history begins with the next accepted sample: after enabling and after a step (R96). -/
  fresh : Bool
  /-- Positions accepted or substituted, newest number first. -/
  poss : List Pos
  /-- Numbers of positions whose sample came late, for the LATE flag of their substitutes (R79). -/
  late : List Nat
  /-- T(n) of the tick at which the entry was last enabled, and of the one at which it was disabled. -/
  onAt : Ns
  offAt : Option Ns
  ctrs : Ctrs
  deriving DecidableEq, Repr

/-- A subscription: its entry and what ingest keeps of it. -/
structure Sub where
  entry : SubEntry
  run : SubRun
  /-- Spans before the present one, of which ticks are still to be assembled, newest first (R28). -/
  spans : List SubSpan
  deriving DecidableEq, Repr

/-- A frame steered to ingest: the port and its receive timestamp (R37). -/
structure SvIn where
  port : Nat
  ts : Ns
  frame : Frame
  deriving DecidableEq, Repr

/-- Subscription and channel tables, and the port counters (chapter 03). -/
structure Ingest where
  /-- Frames in the IX queue's order that ingest has taken and not yet processed. -/
  inbox : List SvIn
  subs : Tab Sub
  chans : Tab ChanEntry
  /-- Entries that channels had for ticks before an instant, of which some are still to be assembled, oldest first (R12). -/
  chanWas : List (Ns × Nat × ChanEntry)
  /-- The instant of the last step: positions received before it are invalid (R96). -/
  stepAt : Option Ns
  /-- Counters not SV, malformed, unmatched of P0 to P7, by port * 3 + index (R81). -/
  ports : Ctrs
  deriving DecidableEq, Repr

end Sys2Proof.Machine
end

