-- ==== Sys2Proof/Machine/Types/Twn.lean ====
section
/-! DEFINITION. The state of the twin unit (chapter 16). -/
namespace Sys2Proof.Machine
open Sys2Proof

/-- The roles of a module (R412). -/
inductive Role where
  | starting | standby | active | solo
  deriving DecidableEq, Repr

/-- The settings of TWN_PAIR_SET. -/
structure PairCfg where
  on : Bool
  auth : Bool
  partner : Nat
  k : Nat
  livePorts : BitVec 8
  appid : Nat
  dmac : BitVec 48
  vlan : BitVec 16
  key : Nat
  gocb : Bytes
  deriving DecidableEq, Repr

/-- The partner as last heard (R416 to R418). -/
structure Partner where
  role : Role
  announce : Nat
  clean : Bool
  ack : Bool
  imageValid : Bool
  k : Nat
  tick : Tick
  epoch : BitVec 64
  handover : Tick
  cfgSeq : BitVec 64
  cfgDig : BitVec 64
  mirror : Tick
  /-- Whether anything has been heard since the last start. -/
  heard : Bool
  deriving DecidableEq, Repr

/-- A mirror record (R423). -/
structure MRec where
  kind : Nat
  id : BitVec 32
  body : Bytes
  deriving DecidableEq, Repr

/-- The mirror tick in reception (R425). -/
structure MirrorRx where
  tick : Tick
  /-- Frames received: FRAG, last flag, TOTAL, records. -/
  frames : List (Nat × Bool × Nat × List MRec)
  deriving DecidableEq, Repr

/-- A resynchronisation (R434). -/
structure Resync where
  /-- First mirror tick applied, s. -/
  s : Tick
  /-- Tick c of the copy's last read, once the copy is complete. -/
  c : Option Tick
  copied : Nat
  total : Nat
  /-- The objects of the copy still to send (active): kind, ID, and the offset that comes next. -/
  todo : List (Nat × BitVec 32 × Nat)
  /-- The 64-byte units a mirror record has been applied to since s: kind, ID, offset. -/
  touched : List (Nat × BitVec 32 × Nat)
  /-- The slice whose image alone is copied, if not the whole (R425). -/
  only : Option Nat
  deriving DecidableEq, Repr

/-- A line of a mirrored region that an item has written: slice, address, and the slot index at which its window commits
(R422). -/
structure Dirty where
  tag : Nat
  va : Nat
  close : Nat
  deriving DecidableEq, Repr

/-- The twin unit (chapter 16). -/
structure Twin where
  cfg : PairCfg
  role : Role
  epoch : BitVec 64
  /-- Role and epoch as last saved to MRAM (R412). -/
  savedRole : Role
  savedEpoch : BitVec 64
  partner : Partner
  /-- Presence in the current tick (R418, R421). -/
  chordNow : Bool
  arcNow : Bool
  liveNow : Bool
  /-- Presence in the tick before. -/
  chordLast : Bool
  arcLast : Bool
  liveLast : Bool
  /-- Consecutive silent ticks. -/
  chordSilent : Nat
  arcSilent : Nat
  liveAbsent : Nat
  chordLost : Bool
  arcLost : Bool
  liveLost : Bool
  degraded : Bool
  bothLost : Bool
  released : Bool
  imageValid : Bool
  matched : BitVec 64
  held : BitVec 64
  /-- Slices whose own image alone is invalid. -/
  sliceInvalid : BitVec 64
  /-- ANNOUNCE failed received in the current tick and in the one before. -/
  failNow : Bool
  failLast : Bool
  /-- The yield acknowledged: f. -/
  ackF : Option Tick
  /-- The handover tick this module announces. -/
  yield : Option Tick
  /-- The TWN_SWITCH that asked for that yield, if one did: its header and role. -/
  switch : Option (Hdr × BitVec 32)
  /-- This module announces failure from its next heartbeat on; it announces it in the present tick. -/
  failing : Bool
  failAnn : Bool
  /-- The standby has acknowledged, in the present tick and in the one before, a yield at this tick. -/
  ackNow : Option Tick
  ackLast : Option Tick
  /-- It enqueues nothing more and becomes standby at the next boundary; as standby, it was demoted (R433). -/
  demoted : Bool
  cleanLast : Bool
  testFail : BitVec 32
  gridDiff : Bool
  /-- Whether a word of the present tick named another tick, once one has been received (R418). -/
  gridNow : Option Bool
  /-- Ticks the listening period has lasted, while starting (R414). -/
  listen : Option Nat
  quotas : Tab Nat
  /-- Lines written and not yet committed; lines of the interval in progress: slice, region, offset and bytes. -/
  dirty : List Dirty
  lines : List (Nat × Nat × Nat × Bytes)
  /-- What points, numbering and retentive states were at the last capture. -/
  snapPts : Tab PVal
  snapNums : Tab (BitVec 32 × BitVec 32)
  snapRet : Tab Bytes
  /-- The images of matched slices but for memory: points, and retentive state by program. -/
  imgPts : Tab PVal
  imgRet : Tab Bytes
  /-- The last complete captures by tick, newest first. -/
  captures : List (Tick × List MRec)
  rx : Option MirrorRx
  /-- Last complete mirror tick sent or received. -/
  mirror : Tick
  mirrorN : BitVec 64
  resync : Option Resync
  /-- Largest mirror tick in the last second. -/
  largest : Nat
  largestNow : Nat
  /-- stNum and sqNum of the liveness message. -/
  liveSt : BitVec 32
  liveSq : BitVec 32
  /-- sqNum of the last liveness message accepted. -/
  heardSq : Option (BitVec 64 × BitVec 32)
  /-- Mismatches and incomplete ticks in the current second (R429). -/
  secMis : Nat
  secInc : Nat
  /-- The last health report received. -/
  report : Bytes
  /-- The arc word driven last. -/
  arcOut : BitVec 64
  ctrs : Ctrs
  deriving DecidableEq, Repr

end Sys2Proof.Machine
end

