-- ==== Sys2Proof/Machine/Types/Umb.lean ====
section
/-! DEFINITION. The state of the umber domain's backup protection and of its power-fail handling (chapter 14). -/
namespace Sys2Proof.Machine
open Sys2Proof

/-- An umber subscription's entry (R369). -/
structure UStreamCfg where
  enabled : Bool
  matchVlan : Bool
  nchan : Nat
  appid : Nat
  dmac : BitVec 48
  vlan : Nat
  rate : Nat
  nasdu : Nat
  confRev : Nat
  vmask : BitVec 32
  svid : Bytes
  deriving DecidableEq, Repr

/-- A sample of an umber stream: its position, its channels' values and qualities, and how many samples old the value is that
it holds: 0 for an accepted sample (R372). -/
structure USample where
  pos : Nat
  vals : List (F32 × BitVec 32)
  age : Nat
  deriving DecidableEq, Repr

/-- An output of an umber stream: the decimated value of each channel, none where it is invalid (R371, R372). -/
structure UOut where
  k : Nat
  vals : List (Option F32)
  deriving DecidableEq, Repr

/-- An umber subscription. -/
structure UStream where
  cfg : UStreamCfg
  /-- Samples, newest first. -/
  samples : List USample
  /-- Outputs, newest first. -/
  outs : List UOut
  /-- The reference cycle of the last acceptance. -/
  ref : Nat
  valid : Bool
  heard : Bool
  deriving DecidableEq, Repr

/-- A settings group of an element (R374). -/
structure UGroup where
  enable : Bool
  curve : Nat
  pickup : F32
  tms : F32
  delay : Nat
  reset : Nat
  deriving DecidableEq, Repr

/-- An element's entry (R373). -/
structure UElemCfg where
  flags : BitVec 8
  stream : Nat
  ch : List Nat
  zonePt : Option Nat
  bfStart : BitVec 32
  group0 : UGroup
  group1 : UGroup
  deriving DecidableEq, Repr

/-- A backup element (R375 to R377). -/
structure UElem where
  cfg : UElemCfg
  started : Bool
  operated : Bool
  /-- Elapsed time in µs. -/
  elapsed : Nat
  /-- The inverse-time integrator, in units of 2^-64. -/
  integ : Nat
  /-- Time since dropout in µs, while a held value waits for its reset. -/
  sinceDrop : Option Nat
  /-- GROUP1 is in force. -/
  primary : Bool
  /-- Breaker failure: the source bits as last seen, and whether one has risen since the element's last output (R376). -/
  sources : BitVec 32
  edge : Bool
  deriving DecidableEq, Repr

/-- A trip output (R380). -/
structure Trip where
  enabled : Bool
  minMs : Nat
  mask : BitVec 24
  active : Bool
  /-- The reference cycle at which it became active. -/
  ref : Nat
  deriving DecidableEq, Repr

/-- An umber GOOSE block (R382). -/
structure UPub where
  entry : PubEntry
  /-- The member bits the last message carried. -/
  last : Option (List Bool)
  t : Ns
  tq : BitVec 8
  /-- Interval to the next retransmission in ms, and the reference cycle of the last message. -/
  interval : Nat
  ref : Nat
  running : Bool
  force : Bool
  deriving DecidableEq, Repr

/-- A health word (R378). -/
structure Health where
  tickLo : BitVec 32
  cores : BitVec 32
  zone : BitVec 24
  bfi : BitVec 8
  control : Bool
  check : BitVec 16
  deriving DecidableEq, Repr

/-- Rows of the power-fail table that are complete, with their instants (R386). -/
abbrev PfRows := List (Nat × Ns)

/-- The umber domain (chapter 14). -/
structure Umber where
  streams : Tab UStream
  elems : Tab UElem
  trips : Tab Trip
  pubs : Tab UPub
  f0 : Nat
  uptBase : Option Nat
  bfiPts : List (Option Nat)
  /-- The configuration sequence number of the settings in use. -/
  cfgSeq : Nat
  loaded : Bool
  /-- Health words on their way from the compute domain, oldest first. -/
  words : List (Tick × Health)
  /-- The last present word, if any. -/
  last : Option (Tick × Health)
  /-- Consecutive ticks whose words were absent, and the last tick accounted for. -/
  absent : Nat
  counted : Option Tick
  wordAbsent : Bool
  /-- A valid word has arrived since the control or the compute domain last left running (R377). -/
  wordOk : Bool
  /-- Present words with a core's CORES bit 0, by core (R379). -/
  coresOut : Tab Nat
  /-- Consecutive present words with an element's ZONE bit 0, by element. -/
  zoneRun : Tab Nat
  /-- Sampled-value frames taken at PU, oldest first. -/
  inbox : List (Ns × Frame)
  /-- A power-fail sequence in progress: its t0, whether HOLD is present, and the rows completed. -/
  fail : Option (Ns × Bool × PfRows)
  /-- The power-fail save record in MRAM, its contents and their digest; empty before the first (R386). -/
  saveRecord : Bytes
  /-- The umber domain has halted after a power-fail without HOLD. -/
  halted : Bool
  /-- Counters 0 to 7 of UMB_STATUS. -/
  ctrs : Ctrs
  /-- The counters as last saved to MRAM. -/
  savedCtrs : Ctrs
  deriving DecidableEq, Repr

end Sys2Proof.Machine
end

