-- ==== Sys2Proof/Machine/State.lean ====
section
/-! DEFINITION. The state of the machine: everything the spec gives the HX9, and the queue of waiting commands. -/
namespace Sys2Proof.Machine
open Sys2Proof

/-- Everything the spec gives the module, apart from the queue of commands. -/
structure Mach where
  /-- Domains, supplies, straps, temperatures and indicators (chapters 01, 20, 21). -/
  dom : Domains
  /-- The module identity (R1). -/
  ident : Identity
  /-- The time unit (chapter 02). -/
  time : TimeUnit
  /-- The event recorder (chapter 15). -/
  evr : Recorder
  /-- Mailboxes, sessions and scheduled changes (chapters 01, 18). -/
  mbx : Mailboxes
  /-- Configuration, images and secrets (chapter 19). -/
  sec : Security
  /-- The chain (chapter 17). -/
  chn : Chain
  /-- The twin unit (chapter 16). -/
  twn : Twin
  /-- Switch, ports and rings (chapters 09 to 11). -/
  net : Network
  /-- Sampled-value ingest (chapter 03). -/
  svi : Ingest
  /-- Groups and channels of the chain and the estimate engine (chapters 04, 05). -/
  flt : Filters
  /-- Hues, slices, dispatcher and cores (chapters 06, 07). -/
  cpu : Compute
  /-- Signal table and GOOSE engine (chapter 08). -/
  sig : Signals
  /-- Logic engine (chapter 12). -/
  lge : Logic
  /-- Energy metering and pulse I/O (chapter 13). -/
  eng : Energy
  /-- Backup protection and power-fail (chapter 14). -/
  umb : Umber
  /-- DRAM, retention memory and mailbox buffers in one canonical form; a byte not listed reads zero (R157). -/
  mem : List Host.Cell
  /-- The model's own counter of free values taken (log entry 2). -/
  free : Nat
  /-- Instants of the last occurrence of conditions that are reported once a second, by code * 2^24 + object. -/
  quiet : Tab Ns
  deriving DecidableEq, Repr

/-- The state: the module, and the commands that wait, first in, first out. -/
structure State where
  m : Mach
  pending : List Instr
  deriving DecidableEq, Repr

/-- The reasons a step can stop with a fault: none, since every command of the block has an effect (safe). -/
inductive Fault where
  deriving DecidableEq, Repr

/-- The reasons a command is refused. -/
inductive Refusal where
  /-- The command has no meaning in this model yet; raised by `exec` alone (safe). -/
  | notModelled (mnemonic : String)
  deriving DecidableEq, Repr

-- The machine right after reset: main power has come, every domain is held in reset, and nothing is configured. Values
-- the spec gives are cited; the others are the model's (log entry 11).

/-- Settings of PTP at cold start: the defaults of chapter 02, PTP off. -/
def ptpReset : PtpCfg :=
  { profile := 0, ctype := 1, domain := 0, ports := 0, prio1 := 128, prio2 := 128, lock := 250, limit := 5, step := 1000,
    accSync := 20, accHold := 16 }

def ptpRunReset : PtpRun :=
  { heard := [], master := none, good := 0, lastOffset := 0, paths := [], pdelays := [], syncs := [], seq := 0, sentRef := none, syncRef := 0, lastAdd := none, step := none,
    utcValid := false, utcKnown := false, leap61 := false, leap59 := false, acted61 := false, acted59 := false, leapDay := 0, discarded := 0 }

/-- The time unit at cold start: rate 4800, hold-off 100 µs, nominal increment, free-running (R24, R31, R38). -/
def timeReset : TimeUnit :=
  { clock := { sec := 0, ns := 0, frac := 0 }, loaded := false, ref := 0, increment := 0x20000000000, offPending := none,
    offRefused := 0, offDiscarded := 0, state := .freeRunning, holdKind := .master, holdRef := 0, failure := false,
    utcOffset := 37, utcPast := [], cfg := ptpReset, run := ptpRunReset, grid := { s0 := 0, rate := 4800, first := 0 }, tick := 0,
    slot := 0, gridOn := false, rateChange := none, ticks := 0, hold := 100000, tqs := [], asm := [], adds := 0, steps := 0,
    holds := 0, expiries := 0, rtc := 0, rtcSaved := 0, latch := [] }

def domReset : Domains :=
  { umber := .reset, fabric := .reset, control := .reset, compute := .reset, lastKind := 0, why := 0, coldRef := 0,
    restart := none, sleep := none, ready := false, deliverFrom := none, missed := [], retried := [], missedPhase := 0,
    fault := false, main := true, disconnected := false, hold := false, vio := true, vioSticky := false, driveRef := 0, pwrGood := false,
    resetHeld := false, slotId := 0, apex := false, slotIdPin := 0, apexPin := false, warning := false, shutdown := false,
    coldWaits := false, cageLow := [],
    dbg := false, memError := false, memBanks := [], i2c := [], statusFrame := [] }

def evrReset : Recorder :=
  { arrivals := [], nextSeq := 1, savedSeq := 1, savedCtrs := [], staging := [], mram := [], flash := [], image := [], clearSeq := 1, lost := none,
    codes := [], buckets := [], suppr := [], ctrs := [], wins := [] }

def mbxReset : Mailboxes :=
  { sess := [], nextNum := 1, boxes := [], scheduled := [], accepted := 0, forward := [], places := [], m3Bad := 0, notifyRefused := 0 }

def secReset : Security :=
  { root := [], owners := [], copies := [], force := none, journalBase := 0, journal := [], staging := none, images := [],
    commit := none, endorsed := [], fwCur := { version := 1, digest := [], secver := 1 }, fwPend := none,
    raiseFloor := false, fwTrying := false, secver := 1, keys := [], anchors := [], cert := [], attest := none,
    unconfigured := true, bootDue := [] }

def chnReset : Chain :=
  { addr := none, enum := 0, run := none, enumIn := false, enumOut := false, offer := none, joined := false, reached := 0,
    length := 0,
    entries := [], upHeard := false, downHeard := false, upRef := 0, downRef := 0, upLost := false, downLost := false,
    relays := [], nextRseq := 1, outcomes := [], rxFrags := [], rxSeq := 0, asked := [], doubt := [], lastHealth := [], healthRef := 0 }

def pairReset : PairCfg :=
  { on := false, auth := false, partner := 0, k := 3, livePorts := 0, appid := 0, dmac := 0, vlan := 0, key := 0, gocb := [] }

def partnerReset : Partner :=
  { role := .starting, announce := 0, clean := false, ack := false, imageValid := false, k := 0, tick := 0, epoch := 0,
    handover := 0, cfgSeq := 0, cfgDig := 0, mirror := 0, heard := false }

def twnReset : Twin :=
  { cfg := pairReset, role := .starting, epoch := 0, savedRole := .starting, savedEpoch := 0, partner := partnerReset,
    chordNow := false, arcNow := false, liveNow := false, chordLast := false, arcLast := false, liveLast := false,
    chordSilent := 0, arcSilent := 0, liveAbsent := 0, chordLost := false, arcLost := false, liveLost := false,
    degraded := false, bothLost := false, released := false, imageValid := false, matched := 0, held := 0,
    sliceInvalid := 0, failNow := false, failLast := false, ackF := none, yield := none, switch := none, failing := false,
    failAnn := false, ackNow := none, ackLast := none, demoted := false, cleanLast := false, testFail := 0, gridDiff := false, gridNow := none, listen := none, quotas := [], dirty := [],
    lines := [], snapPts := [], snapNums := [], snapRet := [], imgPts := [], imgRet := [], captures := [], rx := none, mirror := 0, mirrorN := 0, resync := none, largest := 0, largestNow := 0, liveSt := 0,
    liveSq := 0, heardSq := none, secMis := 0, secInc := 0, report := [], arcOut := 0, ctrs := [] }

/-- An empty egress queue with a reserve and a threshold exponent (R250). -/
def queueOf (rmin : Nat) (k : Int) : Queue := { rmin := rmin, k := k, goose := [], other := [], ctrs := [] }

/-- The default exponent of a traffic class (R244). -/
def classExp (c : Nat) : Int := if c = 7 then 3 else if c = 0 then -1 else if c ≤ 2 then 0 else 1

/-- The key of a queue: port code and queue number. At HX, 256 and 257 are the GOOSE engine's TC4 and TC7 queues. -/
def queueKey (port q : Nat) : Nat := port * 512 + q

/-- The class reserve of a queue after cold start (R248). -/
def reserveOf (port c : Nat) : Nat :=
  if port = 9 ∨ port = 15 ∨ port = 16 then 16384 else if c = 7 ∨ c = 3 then 32768 else 16384

/-- A queue as it is after cold start, by its key (R243, R248). -/
def queueInit (key : Nat) : Queue :=
  let p := key / 512
  let q := key % 512
  if p = 13 then queueOf 1048576 1
  else if p = 14 then (if q = 256 then queueOf 131072 1 else if q = 257 then queueOf 131072 3 else queueOf 0 (-3))
  else queueOf (reserveOf p q) (classExp q)

/-- The headroom of a port, or of each class on P8, P10 and P11 (R248). -/
def headroomOf (p : Nat) : Nat := if p = 9 then 16384 else if p = 8 ∨ p = 10 ∨ p = 11 then 32768 else 65536

/-- A rule that is not set. -/
def ruleOff : Rule :=
  { flags := 0, targets := 0, vlan := 0, etype := 0, pcp := 0, cls := 0, dmac := 0, dmask := 0, ringset := 0,
    portmask := 0, hits := 0 }

/-- Rule 64 after cold start: on P9 it steers to the CP in TC2, elsewhere it discards (R272). -/
def rulesReset (p : Nat) : Tab Rule :=
  if p = 9 then [(64, { ruleOff with flags := 0x80, targets := 0x10, cls := 2 })] else []

/-- The speed code of a port after cold start (R265). -/
def speedOf (p : Nat) : Nat := if p = 9 then 4 else if p = 10 ∨ p = 11 then 2 else if p = 12 then 1 else 0

/-- A port after cold start: disabled and dark (R510), with the defaults of chapter 10. -/
def portReset (p : Nat) : Port :=
  { cfg :=
      { enabled := false, preempt := p != 9 && p != 12, fc := if p = 8 ∨ p = 10 ∨ p = 11 then 2 else 0, speed := speedOf p,
        fec := 0, maxLen := if p = 8 ∨ p = 10 ∨ p = 11 then 9216 else 1536, guard := 160, pfcMask := 0,
        pauseTime := 0xFFFF, xoff := 8192, xon := 4096, stormMs := 10 },
    rules := rulesReset p, oldRules := [], link := false, preTx := false, preRx := false, verifyTries := 0, pauses := [], sending := none,
    cutOff := none, guard := none, fcOut := [], fcAsked := [], corr := [], cutThrough := p != 9 && p != 12,
    headroom := headroomOf p, waiting := [], incoming := none, inPre := false, offAt := none, recent := [], ctrs := [], swCtrs := [] }

def netReset : Network :=
  { store := [], nextId := 1, queues := [], sliceLimit := 8388608, minFree := 28491776,
    ports := (List.range 13).map (fun p => (p, portReset p)), inner := [], rings := [], ringSets := [], stalled := [], turns := [] }

/-- An idle core. -/
def coreReset : Core := { fetching := false, run := none, lastTag := 0, rdata := 0 }

/-- The lattice after cold start: strict, period 1, every entry a system entry or free (R186). -/
def latticeReset : Lattice := { shared := false, period := 1, entries := [] }

def cpuReset : Compute :=
  { hues := [], slices := [], fills := [], ready := [], delay := [], held := [], pairs := [], lattice := latticeReset,
    staged := latticeReset, loadedPages := [], locked := false, cores := List.replicate 32 coreReset }

/-- The signal table at cold start: no range; curve 0 as R234 gives it. -/
def sigReset : Signals :=
  { ranges := [], points := [], windows := [], stageOrder := 0, spa := [], pubs := [], gsubs := [],
    curves := [(0, [5, 10, 20, 40, 80, 160, 320, 640, 1280, 4800])], inbox := [], nums := [], savedNums := [] }

def engReset : Energy :=
  { meters := [], outs := [], ins := [], incs := [], due := [], tick := 0, slots := [], saveSeq := 0, stamp := none, savedSec := 0,
    outage := none }

def umbReset : Umber :=
  { streams := [], elems := [], trips := [], pubs := [], f0 := 50, uptBase := none, bfiPts := List.replicate 8 none,
    cfgSeq := 0, loaded := false, words := [], last := none, absent := 0, counted := none, wordAbsent := false, wordOk := false, coresOut := [], zoneRun := [],
    inbox := [], fail := none, saveRecord := [], halted := false, ctrs := [], savedCtrs := [] }

/-- The module identity: fixed at manufacture; the values are the model's (log entry 11). -/
def identReset : Identity := { order := 0, hwRev := 1, serial := 1, mac := 0x024777000000 }

/-- The module at reset. -/
def machReset : Mach :=
  { dom := domReset, ident := identReset, time := timeReset, evr := evrReset, mbx := mbxReset, sec := secReset,
    chn := chnReset, twn := twnReset, net := netReset, svi := { inbox := [], subs := [], chans := [], chanWas := [], stepAt := none, ports := [] },
    flt := { grid := none, groups := [], chans := [] }, cpu := cpuReset, sig := sigReset,
    lge := { progs := [], ending := [], forces := [], due := [], used := true, retained := [], savedRet := [] }, eng := engReset, umb := umbReset, mem := [],
    free := 0, quiet := [] }

/-- The state right after reset, with an empty queue. -/
def State.reset : State := { m := machReset, pending := [] }

end Sys2Proof.Machine
end

