-- ==== Sys2Proof/Machine/Ops.lean ====
section
/-! DEFINITION. The named operations over clock, grid, memory, counters, events and frames that the meanings share. -/
namespace Sys2Proof.Machine
open Sys2Proof

/-- A command's effect: the module changes, the queue does not, and the step always answers a next state. -/
def runOn (s : State) (f : Mach → Mach) : Host.Outcome State Fault Refusal := .next { s with m := f s.m }

-- The clock (R31)

/-- Nanoseconds in a second. -/
def nsPerSec : Nat := 1000000000

/-- The clock as one number of 2^-40 ns. -/
def clockTotal (c : Clock) : Nat := (c.sec.toNat * nsPerSec + c.ns.toNat) * 2 ^ 40 + c.frac.toNat

/-- The clock a number of 2^-40 ns stands for; seconds wrap modulo 2^64. -/
def clockOf (t : Nat) : Clock :=
  let n := t / 2 ^ 40
  { sec := .ofNat 64 (n / nsPerSec), ns := .ofNat 32 (n % nsPerSec), frac := .ofNat 40 t }

/-- The clock value in whole nanoseconds. -/
def clockNs (c : Clock) : Ns := c.sec.toNat * nsPerSec + c.ns.toNat

/-- The clock set to a whole nanosecond. -/
def clockAt (t : Ns) : Clock := clockOf (t * 2 ^ 40)

/-- `k` cycles of the 2 ns reference: each adds the increment (R31). -/
def clockCycles (inc : BitVec 64) (k : Nat) (c : Clock) : Clock := clockOf (clockTotal c + k * (inc.toNat % 2 ^ 44))

/-- The instant now on the local clock. -/
def now (m : Mach) : Ns := clockNs m.time.clock

/-- The fabric runs and its clock is loaded (R43). -/
def clockRuns (m : Mach) : Bool := m.dom.fabric == .running && m.time.loaded

/-- Whether each of the domains runs (R15). -/
def fabricRuns (m : Mach) : Bool := m.dom.fabric == .running
def controlRuns (m : Mach) : Bool := m.dom.control == .running
def computeRuns (m : Mach) : Bool := m.dom.compute == .running
def umberRuns (m : Mach) : Bool := m.dom.umber == .running

/-- The deviation of the free-running RTC over some nanoseconds: a free value within 2 ms per hour, whole nanoseconds rounded up
(R42; log entry 9). -/
def rtcDeviation (free ns : Nat) : Int :=
  let b : Int := cdiv ns 1800000
  max (-b) (min b (Config.rtcDrift free))

/-- `k` reference cycles pass. The clock moves while the fabric runs, and the RTC follows it; otherwise the RTC free-runs within its
tolerance (R42). -/
def passCycles (k : Nat) (m : Mach) : Mach :=
  let t := m.time
  if clockRuns m then
    let c := clockCycles t.increment k t.clock
    { m with time := { t with clock := c, ref := t.ref + k, rtc := clockNs c } }
  else
    { m with
      free := m.free + 1
      time := { t with ref := t.ref + k, rtc := (Int.ofNat (t.rtc + 2 * k) + rtcDeviation m.free (2 * k)).toNat } }

/-- The cycles until the clock is at or after an instant: the first such cycle is the one hardware acts in (R535). -/
def cyclesTo (t : Ns) (u : TimeUnit) : Nat :=
  let inc := u.increment.toNat % 2 ^ 44
  let c := clockTotal u.clock
  if t * 2 ^ 40 ≤ c ∨ inc = 0 then 0 else cdiv (t * 2 ^ 40 - c) inc

/-- The clock reaches an instant (R535); an instant already passed takes no cycle. -/
def advanceTo (t : Ns) (m : Mach) : Mach := passCycles (cyclesTo t m.time) m

/-- Nanoseconds of the module's own time base between a past reference cycle and now. -/
def sinceRef (ref : Nat) (m : Mach) : Ns := 2 * (m.time.ref - ref)

-- The grid (R7 to R11)

/-- T(n): the start instant of tick n (R7). -/
def tickStart (g : Grid) (n : Tick) : Ns := (g.s0 + n / g.rate) * nsPerSec + (n % g.rate) * nsPerSec / g.rate

/-- The start instant of slot j of tick n (R8). -/
def slotStart (g : Grid) (n : Tick) (j : Nat) : Ns := tickStart g n + j * nsPerSec / (g.rate * 256)

/-- An unanchored duration of m ticks (R11). -/
def ticksNs (g : Grid) (k : Nat) : Ns := k * nsPerSec / g.rate

/-- T(n) of the running grid. -/
def tickAt (m : Mach) (n : Tick) : Ns := tickStart m.time.grid n

/-- D(n) = T(n) + H (R23). -/
def asmAt (m : Mach) (n : Tick) : Ns := tickAt m n + m.time.hold

/-- Λ(n) = D(n) + 12 µs, the launch instant of messages of tick n (R231). -/
def launchAt (m : Mach) (n : Tick) : Ns := asmAt m n + 12000

/-- The tick of the running grid that an instant lies in (R9). -/
def tickOf (g : Grid) (t : Ns) : Tick :=
  let s := t / nsPerSec
  if s < g.s0 then 0
  else
    let n := (s - g.s0) * g.rate + (t % nsPerSec) * g.rate / nsPerSec
    if tickStart g (n + 1) ≤ t then n + 1 else n

/-- The ingest allowance L_i (R58). -/
def ingestAllow : Ns := 3000

/-- The slot index of the current slot (R8). -/
def slotIndex (m : Mach) : Nat := m.time.tick * 256 + m.time.slot

-- Memory

/-- The key of a virtual address of a slice; tag 0 is the system. -/
def memKey (tag va : Nat) : Nat := tag * 2 ^ 40 + va % 2 ^ 40

/-- The key of an offset in a slice's mailbox buffers (R464). -/
def boxKey (tag off : Nat) : Nat := (128 + tag) * 2 ^ 40 + off

/-- A byte of memory; an address not listed reads zero (R157). -/
def memRead (mem : List Host.Cell) (a : Nat) : Byte := (tget mem a).getD 0

/-- A byte written; a zero is not listed, so the form stays canonical. -/
def memWrite (mem : List Host.Cell) (a : Nat) (b : Byte) : List Host.Cell :=
  if b = 0 then terase mem a else tset mem a b

/-- `n` bytes from an address up. -/
def memGet (mem : List Host.Cell) (a : Nat) (n : Nat) : Bytes := (List.range n).map fun i => memRead mem (a + i)

/-- A string of bytes written from an address up. -/
def memPut : List Host.Cell → Nat → Bytes → List Host.Cell
  | mem, _, [] => mem
  | mem, a, b :: bs => memPut (memWrite mem a b) (a + 1) bs

/-- Every byte from `a` up to `a + n` made zero. -/
def memZero (mem : List Host.Cell) (a n : Nat) : List Host.Cell := mem.filter fun c => c.1 < a || a + n ≤ c.1

/-- The canonical form: addresses strictly rising and no byte that reads as an unlisted one. -/
def memWf (mem : List Host.Cell) : Bool := tabWf mem && mem.all fun c => c.2 != 0

/-- A change of the module's memory. -/
def onMem (f : List Host.Cell → List Host.Cell) (m : Mach) : Mach := { m with mem := f m.mem }

-- Substate updates

def onTime (f : TimeUnit → TimeUnit) (m : Mach) : Mach := { m with time := f m.time }
def onDom (f : Domains → Domains) (m : Mach) : Mach := { m with dom := f m.dom }
def onEvr (f : Recorder → Recorder) (m : Mach) : Mach := { m with evr := f m.evr }
def onMbx (f : Mailboxes → Mailboxes) (m : Mach) : Mach := { m with mbx := f m.mbx }
def onSec (f : Security → Security) (m : Mach) : Mach := { m with sec := f m.sec }
def onChn (f : Chain → Chain) (m : Mach) : Mach := { m with chn := f m.chn }
def onTwn (f : Twin → Twin) (m : Mach) : Mach := { m with twn := f m.twn }
def onNet (f : Network → Network) (m : Mach) : Mach := { m with net := f m.net }
def onSvi (f : Ingest → Ingest) (m : Mach) : Mach := { m with svi := f m.svi }
def onFlt (f : Filters → Filters) (m : Mach) : Mach := { m with flt := f m.flt }
def onCpu (f : Compute → Compute) (m : Mach) : Mach := { m with cpu := f m.cpu }
def onSig (f : Signals → Signals) (m : Mach) : Mach := { m with sig := f m.sig }
def onLge (f : Logic → Logic) (m : Mach) : Mach := { m with lge := f m.lge }
def onEng (f : Energy → Energy) (m : Mach) : Mach := { m with eng := f m.eng }
def onUmb (f : Umber → Umber) (m : Mach) : Mach := { m with umb := f m.umb }

/-- The machine changed only where a condition holds. -/
def when (b : Bool) (f : Mach → Mach) (m : Mach) : Mach := if b then f m else m

/-- A change made for each element of a list, in order. -/
def forEach {α : Type} (l : List α) (f : α → Mach → Mach) (m : Mach) : Mach := l.foldl (fun m a => f a m) m

-- Free values

-- The twin, as the units of both domains see it (R412, R433)

/-- The umber outputs of a member that is starting, or standby and not released, are inactive (R412, R431). -/
def umberMuted (m : Mach) : Bool :=
  m.twn.cfg.on && (m.twn.role == .starting || (m.twn.role == .standby && !m.twn.released))

/-- The bit of a slice in a mask. -/
def tagBit (tag : Nat) : BitVec 64 := .ofNat 64 (2 ^ (tag - 1))

/-- The key of the image that a standby keeps of a matched slice's memory (R426). -/
def imageKey (tag va : Nat) : Nat := (256 + tag) * 2 ^ 40 + va % 2 ^ 40

-- Events (R393)

/-- The TimeQuality octet of a time state: LeapSecondsKnown, ClockFailure, ClockNotSynchronized, TimeAccuracy
(R40; the places of the bits are those of IEC 61850, log entry 6). -/
def timeQuality (t : TimeUnit) : BitVec 8 :=
  let acc := match t.state with
    | .synchronised => t.cfg.accSync
    | .holdover => t.cfg.accHold
    | .expired => 31
    | .freeRunning => 31
  let unsync := match t.state with
    | .synchronised => false
    | .holdover => false
    | .expired => true
    | .freeRunning => true
  .ofNat 8 (b2n t.run.utcKnown * 128 + b2n t.failure * 64 + b2n unsync * 32 + acc % 32)

/-- The instant a producer stamps an event with: the local clock, or the umber time while the fabric is down
(R368, R393). -/
def eventTime (m : Mach) : Ns := if clockRuns m then now m else m.time.rtc

/-- An event raised: its record sets out for the umber domain (R393). -/
def raise (code tag : Nat) (payload : Bytes) (m : Mach) : Mach :=
  onEvr (fun e => { e with arrivals := e.arrivals ++
    [{ code := code, tag := tag, time := eventTime m, tq := timeQuality m.time, payload := payload.take 32 }] }) m

/-- The event code of a record whose code the spec does not give: a free value, but no code that R393 keeps from being raised. -/
def openCode (k : Nat) : Nat := 256 + k % 65280

/-- The key of a condition that is reported after a second without one. -/
def quietKey (code obj : Nat) : Nat := code * 2 ^ 24 + obj

/-- An event raised only if its condition has been absent for at least 1 s; every occurrence is remembered. -/
def raiseQuiet (code obj tag : Nat) (payload : Bytes) (m : Mach) : Mach :=
  let t := eventTime m
  let first := match tget m.quiet (quietKey code obj) with
    | none => true
    | some u => decide (u + nsPerSec ≤ t)
  let m := { m with quiet := tset m.quiet (quietKey code obj) t }
  if first then raise code tag payload m else m

/-- SEVERITY of a code (R536). -/
def severity (code : Nat) : Nat :=
  if code = 0x0E03 then 3
  else if [0x0304, 0x0406, 0x0508, 0x0606, 0x0701, 0x0807, 0x0D05, 0x0D08, 0x0E04, 0x0E05, 0x0F03, 0x0F04, 0x1006,
      0x100E, 0x1103, 0x1107, 0x1201, 0x1204, 0x1303, 0x1401, 0x1403].contains code then 2
  else if [0x0107, 0x0301, 0x0303, 0x0306, 0x0403, 0x0404, 0x0502, 0x0506, 0x0509, 0x0602, 0x0607, 0x0703, 0x0704,
      0x0801, 0x0803, 0x0804, 0x0806, 0x0808, 0x0902, 0x0903, 0x0904, 0x0905, 0x0A02, 0x0A03, 0x0A04, 0x0A06,
      0x0B01, 0x0B03, 0x0B04, 0x0C01, 0x0C03, 0x0C05, 0x0C07, 0x0D01, 0x0D03, 0x0D09, 0x0D0A, 0x0E01, 0x0E06,
      0x0E07, 0x0E08, 0x0F01, 0x1002, 0x1004, 0x1009, 0x100B, 0x100C, 0x100D, 0x1104, 0x1105, 0x1108, 0x1202,
      0x1203, 0x1402, 0x1404, 0x1405, 0x1406].contains code then 1
  else 0

/-- Codes a chapter states are never suppressed (R342, R363, R389, R409, R437, R456, R480, R498, R534). -/
def neverSuppressed (code : Nat) : Bool :=
  [0x0101, 0x0103, 0x0106, 0x0C03, 0x0C04, 0x0C05, 0x0D05, 0x0D07, 0x0E03, 0x0E04, 0x0E07, 0x0F01, 0x0F02, 0x0F03,
    0x0F04, 0x1001, 0x100B, 0x100C, 0x100E, 0x1103, 0x1107, 0x1401, 0x1403].contains code
  || bits code 15 8 = 0x12 || bits code 15 8 = 0x13

-- Ports and counters

/-- What a table of ports answers for a port it does not list. -/
def getPort (m : Mach) (p : Nat) : Option Port := tget m.net.ports p

/-- A port rewritten; a port code that is no MAC port is left alone. -/
def onPort (p : Nat) (f : Port → Port) (m : Mach) : Mach :=
  match tget m.net.ports p with
  | none => m
  | some x => onNet (fun n => { n with ports := tset n.ports p (f x) }) m

/-- A MAC counter of R286 advanced. -/
def macCount (p i : Nat) : Mach → Mach := onPort p fun x => { x with ctrs := bump x.ctrs i }

/-- A switch counter of a port advanced (SWC_STATUS counters 0 to 4). -/
def swCount (p i : Nat) : Mach → Mach := onPort p fun x => { x with swCtrs := bump x.swCtrs i }

/-- Counter `i` of SIG_PUB_STATUS advanced by `k`. -/
def pubCount (blk i k : Nat) : Mach → Mach :=
  onSig fun g => { g with pubs := tmap g.pubs fun j b => if j = blk then { b with ctrs := bumpBy b.ctrs i k } else b }

-- Frames the module itself sends

/-- A frame on its way from an engine of the module into the switch (R242). -/
def innerFrame (f : Frame) (cls : Nat) (port : Nat) (targets : List (Nat × Nat)) (goose : Bool) (block : Option Nat)
    (launch : BitVec 64) (ts : Ns) : Stored :=
  { id := 0, frame := f, cls := cls, port := port, ts := ts, rule := 0, oversize := false, targets := targets,
    src := .pool, acct := none, goose := goose, block := block, launch := launch, refs := 0, tx := none, sentTs := 0,
    late := [], tooFar := false, removed := false, waited := false, stepped := false, stamp := false }

/-- A frame given to the switch to be admitted (R250). -/
def sendInner (s : Stored) : Mach → Mach := onNet fun n => { n with inner := n.inner ++ [s] }

/-- The launch word of an instant (R54). -/
def launchWord (t : Ns) : BitVec 64 := .ofNat 64 ((t / nsPerSec % 2 ^ 32) * 2 ^ 32 + t % nsPerSec)

/-- The MAC address of a port: the base address plus the port code (SYS_IDENT). -/
def portMac (m : Mach) (p : Nat) : BitVec 48 := m.ident.mac + .ofNat 48 p

/-- A frame of EtherType 0x88B5 with a payload (R416, R441). -/
def unitFrame (dmac : BitVec 48) (m : Mach) (p : Nat) (payload : Bytes) : Frame :=
  { dmac := dmac, smac := portMac m p, tags := [], etype := 0x88B5, len := max 64 (payload.length + 18), prp := none,
    body := .raw, payload := payload }

/-- The CRC-32 of IEEE 802.3 over a string of bytes, one bit at a time. -/
def crc32Byte (c : Nat) (b : Byte) : Nat :=
  (List.range 8).foldl (fun c _ => if c % 2 = 1 then c / 2 ^^^ 0xEDB88320 else c / 2) (c ^^^ b.toNat)
def crc32 (b : Bytes) : Nat := b.foldl crc32Byte 0xFFFFFFFF ^^^ 0xFFFFFFFF

/-- CRC-16/CCITT-FALSE over a string of bytes (R417). -/
def crc16Byte (c : Nat) (b : Byte) : Nat :=
  (List.range 8).foldl (fun c _ => if c / 32768 % 2 = 1 then (c * 2 ^^^ 0x1021) % 65536 else c * 2 % 65536)
    (c ^^^ (b.toNat * 256))
def crc16 (b : Bytes) : Nat := b.foldl crc16Byte 0xFFFF

end Sys2Proof.Machine
end

