-- ==== Sys2Proof/Machine/Command.lean ====
section
/-! DEFINITION. The common layer of the mailbox commands: roles, the ordered checks of R471, scheduling (R25, R26) and
responses (R461). -/
namespace Sys2Proof.Machine
open Sys2Proof

/-- The number of a way in: 0 to 3 M0 sessions, 4 M1, 5 M2, 6 M3, 64 + t the mailbox of slice t. -/
def boxIx : Box → Nat
  | .m0 i => i.val
  | .m1 => 4
  | .m2 => 5
  | .m3 => 6
  | .slice t => 64 + t.val

/-- The slice tag of a way in, 0 for a management mailbox. -/
def boxTag : Box → Nat
  | .slice t => t.val
  | .m0 _ => 0
  | .m1 => 0
  | .m2 => 0
  | .m3 => 0

/-- A session, or a slice mailbox, is open, and the CP runs (R20, R459). -/
def boxOpen (m : Mach) (b : Box) : Bool := controlRuns m && (tget m.mbx.sess (boxIx b)).isSome

/-- The role word under which a message is judged (R469, R470). -/
def roleOf (m : Mach) (h : Hdr) : BitVec 32 :=
  match h.box with
  | .slice t => .ofNat 32 (2 ^ 31 + t.val * 2 ^ 16)
  | .m1 => h.role ||| .ofNat 32 (2 ^ 29)
  | .m2 => h.role ||| .ofNat 32 (2 ^ 30)
  | b => ((tget m.mbx.sess (boxIx b)).map fun s => s.rights.setWidth 32).getD 0

/-- Right bits of R469. -/
def rMonitor : Nat := 0
def rConfig : Nat := 1
def rTime : Nat := 2
def rRecorder : Nat := 3
def rMaintenance : Nat := 4
def rSecurity : Nat := 5

/-- A session that holds a right (R469). -/
def hasRight (role : BitVec 32) (r : Nat) : Bool := role.getLsbD r

/-- What a command's own chapter says of it, for the checks of R471. -/
structure Cmd where
  code : Nat
  /-- The request layout: length and reserved fields (check 1). -/
  len : Bytes → Bool
  /-- The right a management session needs; none for any session. -/
  right : Nat := rMonitor
  /-- Whether M1 may carry it. -/
  m1 : Bool := true
  /-- Whether the twin forwards it over M2 (R415). -/
  m2 : Bool := false
  /-- For which tag and payload a slice mailbox may issue it. -/
  slice : Mach → Nat → Bytes → Bool := fun _ _ _ => false
  /-- Further role checks of its chapter (clearing of counters). -/
  roleOk : BitVec 32 → Bytes → Bool := fun _ _ => true
  /-- Refused as busy by its own chapter. -/
  busy : Mach → Hdr → Bytes → Bool := fun _ _ _ => false
  /-- Whether the apply tick counts (check 6). -/
  apply : Bool := true
  /-- Whether it is a configuration change the journal carries (R486). -/
  journal : Bool := false
  /-- Whether it counts among the scheduled changes (R26). -/
  sched : Bool := false
  /-- Object existence and group-specific checks (check 7), 0 when they pass. -/
  check : Mach → Hdr → Bytes → Nat := fun _ _ _ => 0
  /-- Resources and isolation (check 8), 0 when they pass. -/
  res : Mach → Hdr → Bytes → Nat := fun _ _ _ => 0
  /-- The module as it will stand at the command's effective tick, counting the changes already scheduled for that tick or
  an earlier one: what checks 7 and 8 are made on (R216; log entry 15). -/
  proj : Mach → Hdr → Mach := fun m _ => m
  /-- The module as it will stand after each change scheduled for a later tick, as long as none of them rewrites the entry the command
  writes, for the checks of dependants (R216). -/
  later : Mach → Hdr → Bytes → List Mach := fun _ _ _ => []
  /-- What the command needs of the points it refers to, 0 when it holds: judged on the module at its effective tick, the first one
  given, and again on each later one (R216). -/
  depend : Mach → Mach → Hdr → Bytes → Nat := fun _ _ _ _ => 0

/-- Check 1: the header. RESPONSE or a reserved flag set, NOTIFY on a management mailbox, a STATUS that is not zero
without NOTIFY, or a LENGTH that is not the payload's (R460, R461). -/
def headerOk (h : Hdr) (p : Bytes) : Bool :=
  let f := h.flags.toNat
  !bit f 0 && f / 8 == 0 && h.length == p.length && h.status.toNat / 65536 == 0 &&
  (if bit f 2 then boxTag h.box != 0 else h.status == 0)

/-- The groups a module in the unconfigured-safe state still executes (R489). -/
def safeGroup (code : Nat) : Bool := [0x01, 0x0F, 0x11, 0x12, 0x13].contains (code / 256)

/-- The module's own address, or the target value that means this module (R448). -/
def ownTarget (m : Mach) (t : Nat) : Bool := t == 0xFE || m.chn.addr == some t

/-- Check 3: mailbox and role (R470, R472). -/
def permitted (c : Cmd) (m : Mach) (h : Hdr) (p : Bytes) : Bool :=
  let role := roleOf m h
  (match h.box with
    | .slice t => c.slice m t.val p && ownTarget m h.target.toNat
    | .m2 => c.m2 && ownTarget m h.target.toNat
    | .m1 => c.m1 && hasRight role c.right
    | .m0 _ => hasRight role c.right
    | .m3 => hasRight role c.right) &&
  c.roleOk role p && (!m.sec.unconfigured || safeGroup c.code)

/-- The mark check 4 gives for a message the apex relays. -/
def relayMark : Nat := 0x10000

/-- The module is an apex (R440). -/
def isApex (m : Mach) : Bool := m.dom.apex

/-- The own logical unit has this module alone (R447). -/
def soloUnit (m : Mach) : Bool := !m.twn.cfg.on

/-- Check 4: the target of a message on M0 or M3 (R448). -/
def targetCheck (m : Mach) (h : Hdr) : Nat :=
  let t := h.target.toNat
  let mgmt := match h.box with
    | .m0 _ => true
    | .m3 => true
    | .m1 => false
    | .m2 => false
    | .slice _ => false
  if !mgmt || ownTarget m t then 0
  else if 0x40 ≤ t then 0x0200
  else if soloUnit m && m.chn.addr == some (t - 0x20) && 0x20 ≤ t then 0
  else if !isApex m then 0x0201
  else
    let a := if t < 0x20 then t else t - 0x20
    match tget m.chn.entries a with
    | none => if a == 0 then relayMark else 0x0202
    | some e =>
      if 0x20 ≤ t && e.unit == 0xFF then 0x0207
      else match e.state with
        | .absent => 0x0202
        | .unreachable => 0x0203
        | .moved => 0x0203
        | .enumerated => relayMark

/-- A command whose object lies in the compute domain (R507): the SLC, DSP, SIG, LGE and HDMA groups and the EST
frame commands. -/
def computeObject (code : Nat) : Bool := [0x06, 0x07, 0x08, 0x0B, 0x0C].contains (code / 256) || code == 0x0511

/-- The compute domain runs and its dispatcher is ready (R507). -/
def computeReady (m : Mach) : Bool := computeRuns m && m.dom.ready

/-- Check 5: busy under R28, R491, R507 or the command's own chapter. -/
def busyCheck (c : Cmd) (m : Mach) (h : Hdr) (p : Bytes) : Bool :=
  (tget m.cpu.slices (boxTag h.box)).any (fun s => s.state == .resetting) ||
  (computeObject c.code && !computeReady m) || (c.journal && m.sec.commit.isSome) || c.busy m h p

/-- Check 6: the apply tick (R26). -/
def applyCheck (m : Mach) (h : Hdr) : Nat :=
  if h.apply = 0 then 0
  else if h.apply < m.time.tick + 2 then 0x0106
  else if m.time.tick + 86400 * m.time.grid.rate < h.apply then 0x010A
  else 0

/-- At most 4096 scheduled changes (R26); a commit, a pending rate change, a restart and a switch of the pair count as one each. -/
def scheduledCount (m : Mach) : Nat :=
  m.mbx.scheduled.length + b2n m.sec.commit.isSome + b2n m.time.rateChange.isSome + b2n m.dom.restart.isSome +
    b2n (m.twn.yield.any fun f => m.dom.restart.all fun r => r.tick != f)

/-- The journal is full: 65 536 entries or 64 MiB (R486). -/
def journalFull (m : Mach) : Bool :=
  65536 ≤ m.sec.journal.length || 64 * 2 ^ 20 ≤ (m.sec.journal.map fun j => j.payload.length + 10).sum

/-- Check 8: resources (R26, R486), after the command's own. -/
def resCheck (c : Cmd) (m : Mach) (h : Hdr) (p : Bytes) : Nat :=
  let r := c.res (c.proj m h) h p
  if r ≠ 0 then r
  else if c.sched && 4096 ≤ scheduledCount m then 0x0104
  else if c.journal && journalFull m then 0x0104
  else 0

/-- The status the ordered checks of R471 give: 0 when every check passes. -/
def judge (c : Cmd) (m : Mach) (h : Hdr) (p : Bytes) : Nat :=
  if !headerOk h p || !c.len p then 0x0101
  else if !permitted c m h p then 0x0102
  else
    let t := targetCheck m h
    if t ≠ 0 then t
    else if busyCheck c m h p then 0x0103
    else
      let a := if c.apply then applyCheck m h else 0
      if a ≠ 0 then a
      else
        let pm := c.proj m h
        let g := c.check pm h p
        let d := if g ≠ 0 then g else ((pm :: c.later m h p).map fun x => c.depend pm x h p).foldl (fun a b => if a ≠ 0 then a else b) 0
        if d ≠ 0 then d else resCheck c m h p

/-- The apply tick fixed at acceptance: `m + 2` for an apply tick of zero (R25). -/
def effTick (m : Mach) (h : Hdr) : Tick := if h.apply = 0 then m.time.tick + 2 else h.apply

-- Responses

/-- One segment of a response as bytes: the header of R460 and up to 16 352 payload bytes. -/
def segBytes (r : Response) (seg : Nat) : Bytes :=
  let more := (seg + 1) * 16352 < r.payload.length
  fields [(2, r.code), (2, 1 + 2 * b2n more), (4, r.seq.toNat), (4, r.payload.length), (1, r.target.toNat),
    (1, r.slice), (2, seg), (8, r.apply), (4, r.status), (4, r.role.toNat)] ++ slice r.payload (seg * 16352) 16352

/-- Number of segments of a response. -/
def segCount (r : Response) : Nat := max 1 (cdiv r.payload.length 16352)

/-- The destination of twin frames (R416). -/
def twinMac : BitVec 48 := 0x034777000010
/-- The destination of chain frames (R441). -/
def chainMac : BitVec 48 := 0x034777000011

/-- A twin frame sent on P8. -/
def sendTwin (cls : Nat) (launch : BitVec 64) (payload : Bytes) (m : Mach) : Mach :=
  sendInner (innerFrame (unitFrame twinMac m 8 payload) cls 8 [(8, cls)] false none launch (now m)) m

/-- The 8-byte header of a chain frame payload (R441). -/
def chainHdr (m : Mach) (subtype dst : Nat) : Bytes :=
  fields [(1, subtype), (1, 1), (1, m.chn.addr.getD 0xFF), (1, dst), (4, m.chn.enum.toNat)]

/-- A chain frame sent on P10 (up) or P11 (down). -/
def sendChain (down : Bool) (cls subtype dst : Nat) (body : Bytes) (m : Mach) : Mach :=
  let p := if down then 11 else 10
  sendInner (innerFrame (unitFrame chainMac m p (chainHdr m subtype dst ++ body)) cls p [(p, cls)] false none 0 (now m)) m

/-- The bytes of a mailbox message that one relay frame carries at most: two frames hold any segment (R449). -/
def relayChunk : Nat := 9000

/-- A segment of a mailbox message split into relay frames (R449). -/
def sendRelay (down : Bool) (rseq : BitVec 32) (dst : Nat) (resp : Bool) (msg : Bytes) (m : Mach) : Mach :=
  let n := max 1 (cdiv msg.length relayChunk)
  forEach (List.range n) (fun i =>
    sendChain down 2 0x14 dst
      (fields [(4, rseq.toNat), (1, i), (1, n), (1, b2n resp), (1, 0)] ++ slice msg (i * relayChunk) relayChunk)) m

/-- A session's record rewritten. -/
def onSess (b : Box) (f : Session → Session) (m : Mach) : Mach :=
  match tget m.mbx.sess (boxIx b) with
  | none => m
  | some s => onMbx (fun x => { x with sess := tset x.sess (boxIx b) (f s) }) m

/-- What a slice mailbox's registers hold when none has been written (R466). -/
def boxInit : SliceBox := { state := 0, seq := 0, segment := 0, overrun := false, notify := none }

/-- A slice mailbox's registers rewritten. -/
def onSliceBox (t : Nat) (f : SliceBox → SliceBox) (m : Mach) : Mach :=
  onMbx (fun x => { x with boxes := tmod x.boxes t boxInit f }) m

/-- The response of an SLC_ADMIT that stands for a CHN_PLACE is that command's (R454). -/
def placed (h : Hdr) (r : Response) (m : Mach) : Response :=
  if r.code == 0x0602 && m.mbx.places.contains (boxIx h.box, r.seq) then { r with code := 0x1102 } else r

/-- The RSEQ under which a relayed message came, if one of its CODE and SEQ waits for its answer (R449). -/
def askedUnder (r : Response) (m : Mach) : BitVec 32 :=
  ((m.chn.asked.find? fun e => e.2.1 == r.code && e.2.2 == r.seq).map (·.1)).getD m.chn.rxSeq

/-- A response that its transport carries in one go: its segments, one after another. -/
def sendSegments (r : Response) (send : Bytes → Mach → Mach) (m : Mach) : Mach :=
  forEach (List.range (segCount r)) (fun i => send (segBytes r i)) m

/-- A response placed where its way in takes it: a session's answer, the response buffer of a slice (R464), relay
frames upward on M1 (R449), a twin frame on M2 (R468). The CP keeps it as its stored answer (R461). Only a slice fetches the
segments of a long response with its doorbell; the other ways in carry them one after another (log entry 28). -/
def deliver (h : Hdr) (r : Response) (m : Mach) : Mach :=
  let r := placed h r m
  let slice := boxTag h.box != 0
  let long := 1 < segCount r && slice
  let now := m.time.ref
  let m := onSess h.box (fun s => { s with
    answered := some { code := r.code, seq := r.seq, segment := h.segment.toNat, resp := r }
    more := if long then some 0 else none
    ref := if slice then now else s.ref }) m
  match h.box with
  | .slice t =>
    let m := onMem (fun mem => memPut mem (boxKey t.val 0x8000) (segBytes r 0)) m
    onSliceBox t.val (fun b => { b with
      state := if long then 3 else 2, seq := r.seq, segment := 0,
      notify := if bit h.flags.toNat 2 then some (h.status.toNat, r.seq.toNat, r.status) else none }) m
  | .m1 =>
    let rseq := askedUnder r m
    let m := onChn (fun c => { c with
      asked := c.asked.filter fun e => e.1 != rseq
      outcomes := ((rseq, segBytes r 0) :: c.outcomes).take 256 }) m
    sendSegments r (fun b => sendRelay false rseq 0 true b) m
  | .m2 => sendSegments r (fun b => sendTwin 2 0 (fields [(1, 0x20), (1, 1), (6, 0)] ++ b)) m
  | .m0 _ => m
  | .m3 => m

/-- The response to a request, with the apply tick actually used (R461). -/
def mkResp (code : Nat) (h : Hdr) (role : BitVec 32) (apply status : Nat) (payload : Bytes) : Response :=
  { code := code, seq := h.seq, target := h.target, slice := boxTag h.box, apply := apply, status := status,
    role := role, payload := payload }

/-- A request answered. -/
def respond (code : Nat) (h : Hdr) (role : BitVec 32) (apply status : Nat) (payload : Bytes) : Mach → Mach :=
  deliver h (mkResp code h role apply status payload)

/-- Event 0x0101: command accepted (R473); the order of the payload's fields is the model's (log entry 10). -/
def raiseAccepted (code : Nat) (h : Hdr) (role : BitVec 32) (apply status : Nat) (m : Mach) : Mach :=
  let num := ((tget m.mbx.sess (boxIx h.box)).map (·.num)).getD 0
  raise 0x0101 (boxTag h.box) (fields [(2, code), (1, boxIx h.box), (1, num), (4, h.seq.toNat), (4, role.toNat),
    (2, status), (2, 0), (8, apply)]) m

/-- Settle mode is not to be had at the rate: the reason of a refusal that R108 has reported in an event record. -/
def settleRefusal (code status : Nat) : Bool := (code == 0x0501 && status == 0x0203) || (code == 0x0210 && status == 0x020A)

/-- A refusal: the answer and nothing else (R471), but for the event record of R108, with the fields of event 0x0101 (log entry 10). -/
def refuse (c : Cmd) (h : Hdr) (status : Nat) (m : Mach) : Mach :=
  let num := ((tget m.mbx.sess (boxIx h.box)).map (·.num)).getD 0
  respond c.code h (roleOf m h) h.apply status []
    (if settleRefusal c.code status then
      raise (openCode Config.refusalCode) (boxTag h.box) (fields [(2, c.code), (1, boxIx h.box), (1, num), (4, h.seq.toNat),
        (4, (roleOf m h).toNat), (2, status), (2, 0), (8, h.apply)]) m
    else m)

/-- One segment of a request as another module's mailbox takes it: the header with the role it is to be judged under, and its
part of the payload (R449, R462, R468). -/
def reqSegment (code : Nat) (h : Hdr) (role : BitVec 32) (apply : Nat) (p : Bytes) (seg : Nat) : Bytes :=
  let more := (seg + 1) * 16352 < p.length
  fields [(2, code), (2, 2 * b2n more), (4, h.seq.toNat), (4, p.length), (1, h.target.toNat), (1, 0), (2, seg),
    (8, apply), (4, 0), (4, role.toNat)] ++ slice p (seg * 16352) 16352

/-- Segments of a request. -/
def reqSegments (p : Bytes) : Nat := max 1 (cdiv p.length 16352)

/-- The bits below 2^29 of a role word: what an apex copies from its session into a relayed message (R449). -/
def sessionRole (role : BitVec 32) : BitVec 32 := role &&& 0x3F

/-- The apply tick the apex gives a relayed message whose own is zero: the first tick of the target's grid at or after
acceptance plus 2 ms, if its health reports tell the grid (R450). TIME_RATE, whose apply tick must be zero, is given none. -/
def relayApply (code : Nat) (m : Mach) (a : Nat) (h : Hdr) : Nat :=
  if h.apply ≠ 0 ∨ code = 0x0210 then h.apply
  else if m.chn.addr == some a then
    let t := now m + 2000000
    let n := tickOf m.time.grid t
    if tickAt m n < t then n + 1 else n
  else match tget m.chn.entries a with
    | none => 0
    | some e =>
      let rate := rd 2 e.body 22
      let g : Grid := { s0 := rd 8 e.body 24, rate := rate, first := 0 }
      if rate = 0 then 0
      else
        let t := now m + 2000000
        let n := tickOf g t
        if tickStart g n < t then n + 1 else n

/-- The commands of the pair, which go to the active member only (R451): those R415 forwards, and TWN_SWITCH. -/
def pairCommand (code : Nat) : Bool := [0x0210, 0x0C05, 0x0D04, 0x1001, 0x1002, 0x1003].contains code

/-- The address of member B of the unit whose member A is at `a`, if the apex knows one (R447): of the modules that report a twin
role other than solo, the next one down the line, when it reports no unit. -/
def memberB (m : Mach) (a : Nat) : Option Nat :=
  if m.chn.addr == some a then (if m.twn.cfg.on then some m.twn.cfg.partner else none)
  else if (tget m.chn.entries a).any (fun e => rd 1 e.body 20 == 3) then none
  else
    match m.chn.entries.find? fun e => a < e.1 && rd 1 e.2.body 20 != 3 && e.2.body != [] with
    | none => none
    | some e => if e.2.unit == 0xFF then some e.1 else none

/-- The member of a unit that is active, as the apex knows it. -/
def activeMember (m : Mach) (a b : Nat) : Nat :=
  match tget m.chn.entries b with
  | some e => if rd 1 e.body 20 = 2 then b else a
  | none => a

/-- A relay's next segment sent under an RSEQ of its own (R449, R468), and kept until its response comes (R452). -/
def sendNext (r : Relay) (m : Mach) : Mach :=
  let rseq := m.chn.nextRseq
  let r : Relay := { r with rseq := rseq, ref := m.time.ref, frags := [], got := [] }
  let m := onChn (fun c => { c with nextRseq := rseq + 1, relays := c.relays ++ [r] }) m
  sendRelay true rseq r.addr false (reqSegment r.code r.hdr r.role r.hdr.apply r.payload r.seg) m

/-- A relay to one module begun (R449). -/
def startRelay (code : Nat) (h : Hdr) (role : BitVec 32) (apply addr : Nat) (thenB : Option Nat)
    (fromA : Option Response) (p : Bytes) (m : Mach) : Mach :=
  let r : Relay :=
    { rseq := 0, code := code, hdr := { h with apply := apply }, role := sessionRole role, payload := p, addr := addr,
      thenB := thenB, fromA := fromA, own := false, seg := 0, ref := 0, frags := [], got := [] }
  sendNext r m

/-- A message on the apex whose target is another module or a unit without the apex (R449 to R451). -/
def relayOut (code : Nat) (h : Hdr) (p : Bytes) (m : Mach) : Mach :=
  let t := h.target.toNat
  let a := if t < 0x20 then t else t - 0x20
  let role := roleOf m h
  let apply := relayApply code m a h
  match (if t < 0x20 then none else memberB m a) with
  | none => startRelay code h role apply a none none p m
  | some b =>
    if pairCommand code then startRelay code h role apply (activeMember m a b) none none p m
    else startRelay code h role apply a (some b) none p m

/-- The answer a session holds. -/
def heldAnswer (b : Box) (m : Mach) : Option Response :=
  ((tget m.mbx.sess (boxIx b)).bind (·.answered)).map (·.resp)

/-- A message for the unit of which the apex is member A (R451): a command of the pair goes to the active member; any
other is judged and made here, and when it is accepted goes on to member B before the session is answered. -/
def ownUnit (c : Cmd) (h : Hdr) (p : Bytes) (b : Nat) (go : Hdr → Mach → Mach) (m : Mach) : Mach :=
  let a := m.chn.addr.getD 0
  let role := roleOf m h
  if pairCommand c.code && activeMember m a b = b then startRelay c.code h role (relayApply c.code m a h) b none none p m
  else
    let h' := { h with apply := relayApply c.code m a h }
    let st := judge c m { h' with target := 0xFE } p
    if st ≠ 0 then refuse c h st m
    else
      let m := go h' m
      if pairCommand c.code then m
      else startRelay c.code h' role h'.apply b none (heldAnswer h.box m) p
        (onSess h.box (fun s => { s with answered := none }) m)

/-- A refused message, or one that goes to another module, is dealt with; an accepted one goes on. -/
def judged (c : Cmd) (h : Hdr) (p : Bytes) (go : Hdr → Mach → Mach) (m : Mach) : Mach :=
  if !boxOpen m h.box then m
  else
    let st := judge c m h p
    if st = relayMark then
      (match memberB m (m.chn.addr.getD 0) with
        | some b => if h.target.toNat = 0x20 + m.chn.addr.getD 0 then ownUnit c h p b go m else relayOut c.code h p m
        | none => relayOut c.code h p m)
    else if st ≠ 0 then refuse c h st m
    else go h m

/-- A read or status command: answered at once with its snapshot; its clearing, if any, in the same step. -/
def runRead (c : Cmd) (h : Hdr) (p : Bytes) (reply : Mach → Bytes) (after : Mach → Mach) (m : Mach) : Mach :=
  judged c h p (fun h m => respond c.code h (roleOf m h) h.apply 0 (reply m) (after m)) m

/-- A command that takes effect at once: accepted, carried out and answered 0x0000. -/
def runNow (c : Cmd) (h : Hdr) (p : Bytes) (reply : Mach → Bytes) (act : Mach → Mach) (m : Mach) : Mach :=
  judged c h p (fun h m =>
    let role := roleOf m h
    respond c.code h role h.apply 0 (reply m) (act (raiseAccepted c.code h role h.apply 0 m))) m

/-- A change entered among the scheduled ones; with an apply tick it is answered at once (R25, R26). -/
def enterChange (code : Nat) (h : Hdr) (role : BitVec 32) (p resp : Bytes) (apply : Tick) (m : Mach) : Mach :=
  let deferred := h.apply == 0
  let st := if deferred then 0 else 1
  let m := raiseAccepted code h role apply st m
  let ch : Change :=
    { order := m.mbx.accepted, apply := apply, code := code, hdr := h, role := role, payload := p, resp := resp, deferred := deferred }
  let m := onMbx (fun x => { x with scheduled := x.scheduled ++ [ch], accepted := x.accepted + 1 }) m
  if deferred then
    (match h.box with
      | .slice t => onSliceBox t.val (fun b => { b with state := 1, seq := h.seq }) m
      | .m0 _ => m
      | .m1 => m
      | .m2 => m
      | .m3 => m)
  else respond code h role apply 1 resp m

/-- A change that takes effect by R25. -/
def runSched (c : Cmd) (h : Hdr) (p : Bytes) (resp : Mach → Bytes) (m : Mach) : Mach :=
  judged c h p (fun h m => enterChange c.code h (roleOf m h) p (resp m) (effTick m h) m) m

/-- The twin is paired and present as a partner to forward to (R415). -/
def paired (m : Mach) : Bool := m.twn.cfg.on

/-- A forwarded command on its way over M2 (R415, R468); a TWN_PAIR_SET names its sender as the partner. -/
def sendForward (f : Forward) (m : Mach) : Mach :=
  let p := if f.code = 0x1001 then f.payload.set 1 (.ofNat 8 (m.chn.addr.getD 0xFF)) else f.payload
  sendTwin 2 0 (fields [(1, 0x20), (1, 1), (6, 0)] ++ reqSegment f.code { f.hdr with target := 0xFE } f.role f.apply p 0) m

/-- A change that both members of a pair make: an accepted one is forwarded first and made when the partner has accepted
it too; one that came over M2, or on a module without a partner, is made at once (R415). -/
def runForward (c : Cmd) (refuseCode : Nat) (h : Hdr) (p : Bytes) (resp : Mach → Bytes) (make : Mach → Mach)
    (m : Mach) : Mach :=
  judged c h p (fun h m =>
    if (paired m || (c.code == 0x1001 && bit (rd 1 p 0) 0)) && h.box != .m2 then
      let f : Forward :=
        { code := c.code, hdr := h, role := roleOf m h, payload := p, resp := resp m,
          apply := if c.apply then effTick m h else 0, refuse := refuseCode, tries := 1, ref := m.time.ref }
      sendForward f (onMbx (fun x => { x with forward := x.forward ++ [f] }) m)
    else make m) m

/-- A request layout of exactly `n` bytes whose named ranges (offset, length) are reserved and zero. -/
def layout (n : Nat) (reserved : List (Nat × Nat)) (p : Bytes) : Bool :=
  p.length == n && reserved.all fun r => zeros p r.1 r.2

/-- The first nonzero status of a list of (condition, status) checks taken in order. -/
def firstFail : List (Bool × Nat) → Nat
  | [] => 0
  | (b, c) :: r => if b then c else firstFail r

end Sys2Proof.Machine
end

