-- ==== Sys2Proof/Machine/Space.lean ====
section
/-! DEFINITION. What a core and its item can reach: slices, regions and window instants (chapters 06 to 08). -/
namespace Sys2Proof.Machine
open Sys2Proof

/-- A slice, if it is present. -/
def getSlice (m : Mach) (t : Nat) : Option Slice := tget m.cpu.slices t

/-- A slice rewritten; an absent one stays absent. -/
def onSlice (t : Nat) (f : Slice → Slice) (m : Mach) : Mach :=
  match tget m.cpu.slices t with
  | none => m
  | some s => onCpu (fun c => { c with slices := tset c.slices t (f s) }) m

/-- Counter `i` of SLC_STATUS advanced for a slice (R176). -/
def slcCount (t i : Nat) : Mach → Mach := onSlice t fun s => { s with ctrs := bump s.ctrs i }

/-- Counter `i` of DSP_STATUS advanced for a slice (R206). -/
def dspCount (t i : Nat) : Mach → Mach := onSlice t fun s => { s with dspCtrs := bump s.dspCtrs i }

-- What is anchored to a tick whose assembly is to come (R12)

/-- The assembly of a tick of the running grid is to come, with that of an earlier tick before it. -/
def waitsFor (n : Tick) (m : Mach) : Bool := m.time.asm.tail.any fun d => d.tick == n && d.grid == m.time.grid

/-- The tick last assembled lies on the running grid. -/
def gridAssembled (m : Mach) : Bool := m.flt.grid == some m.time.grid

/-- A change left to the assembly of its tick. -/
def addLate (n : Tick) (code : Nat) (p : Bytes) : Mach → Mach := onTime fun t => { t with
  asm := t.asm.map fun d => if d.tick = n ∧ d.grid = t.grid then { d with late := d.late ++ [(code, p)] } else d }

/-- Whether a slice is present, and whether it runs or is being reset. -/
def sliceThere (m : Mach) (t : Nat) : Bool := (getSlice m t).any fun s => s.arriving.isNone || s.state == .resetting
def sliceRuns (m : Mach) (t : Nat) : Bool := (getSlice m t).any fun s => s.state == .running
/-- The frame of a tick is delivered, and its health word sent: its T(n) follows the moment at which the dispatcher signalled ready (R19). -/
def delivers (m : Mach) (d : AsmDue) : Bool := m.dom.deliverFrom.all (· < d.t)

/-- Whether a slice runs for what is anchored to the tick that starts at `t` (R12; log entry 81). -/
def ranAt (s : Slice) (t : Ns) : Bool := ((s.ran.find? (t < ·.1)).map (·.2)).getD (s.state == .running)
/-- `ranAt` of the slice with a tag (R12; log entry 81). -/
def sliceRan (m : Mach) (tag : Nat) (t : Ns) : Bool := (getSlice m tag).any (ranAt · t)
def sliceResets (m : Mach) (t : Nat) : Bool := (getSlice m t).any fun s => s.state == .resetting

/-- The subscription of a slice with every change that is effective, of which the frame may be still to come (R138). -/
def subsOf (s : Slice) : List Nat := (s.subsDue.getLast?.map (·.2)).getD s.subs

/-- A core of the compute domain. -/
def getCore (m : Mach) (c : Fin 32) : Core := m.cpu.cores.getD c.val coreReset

/-- A core rewritten. -/
def onCore (c : Fin 32) (f : Core → Core) : Mach → Mach := onCpu fun x => { x with cores := lmod x.cores c.val f }

/-- What a core runs while the compute domain runs. -/
def coreRun (m : Mach) (c : Fin 32) : Option Running := if computeReady m then (getCore m c).run else none

/-- The core's last read of a window register returns a value. -/
def coreReads (c : Fin 32) (v : BitVec 64) : Mach → Mach := onCore c fun x => { x with rdata := v }

/-- The virtual base of the slice window (R149). -/
def windowBase : Nat := 0xF0000

/-- A region of a slice admits an access (bit 0 read, 1 write, 2 execute) to one address (R148, R157, R170). -/
def regionOk (s : Slice) (va acc : Nat) : Bool :=
  s.regions.any fun r =>
    r.vbase ≤ va && va < r.vbase + r.size && r.access.getLsbD acc &&
    !(r.released.any fun x => r.vbase + x.1 ≤ va && va < r.vbase + x.1 + x.2)

/-- Every byte of an access lies in regions that allow it. -/
def spanOk (s : Slice) (va n acc : Nat) : Bool := (List.range n).all fun i => regionOk s (va + i) acc

/-- The bytes of the system's memory: the bank sets of hue 0, of which it holds at least two (R151; log entry 75). -/
def systemBytes (m : Mach) : Nat :=
  max 2 (((tget m.cpu.hues 0).map fun u => ((List.range 32).filter u.banks.toNat.testBit).length).getD 0) * 2 ^ 31

/-- Every byte of a DMA buffer lies in regions of its owner that allow the access and hold no code; the system's lie anywhere
in its memory (R290). -/
def bufferOk (m : Mach) (owner va n acc : Nat) : Bool :=
  if owner = 0 then va + n ≤ systemBytes m
  else (getSlice m owner).any fun s => spanOk { s with regions := s.regions.filter fun r => r.kind != 0 } va n acc

/-- The number of a slice's 64 KiB page that holds an address, counted through its regions in order (R154). -/
def pageNumber (s : Slice) (va : Nat) : Option Nat :=
  (s.regions.findIdx? fun r => r.vbase ≤ va && va < r.vbase + r.size).map fun i =>
    (((s.regions.take i).map (·.size)).sum + (va - ((s.regions[i]?).map (·.vbase)).getD 0)) / 65536

/-- A page of a migrating slice has been copied: the copies run at 16 GB/s, in the order of the pages (R171, R537). -/
def pageCopied (m : Mach) (tag : Nat) (g : Migration) (k : Nat) : Bool :=
  g.copied || m.cpu.fills.any fun f =>
    f.tag == tag && f.kind == .migrate && f.start.any fun t => (k + 1) * 65536 ≤ (now m - t) * 16

/-- The pages an item of a slice writes that its migration has copied already are marked (R171 step 2). -/
def markPages (tag va n : Nat) (m : Mach) : Mach :=
  match getSlice m tag with
  | none => m
  | some s => match s.migration with
    | none => m
    | some g =>
      let ks := ([pageNumber s va, pageNumber s (va + n - 1)].filterMap id).eraseDups
      let new := ks.filter fun k => pageCopied m tag g k && !g.marked.contains k
      onSlice tag (fun s => { s with migration := some { g with marked := g.marked ++ new } }) m

/-- Bytes of a slice's memory. -/
def slcGet (m : Mach) (t va n : Nat) : Bytes := memGet m.mem (memKey t va) n

/-- Bytes written into a slice's memory. -/
def slcPut (t va : Nat) (b : Bytes) : Mach → Mach := onMem fun mem => memPut mem (memKey t va) b

/-- The instant of the boundary of slot `j`, which may lie in the next tick (R8). -/
def slotAt (m : Mach) (n : Tick) (j : Nat) : Ns := slotStart m.time.grid (n + j / 256) (j % 256)

/-- The slot, counted from slot 0 of the window's tick, at whose boundary a window with last slot `e` is closed
(R194, R217). A window carried over a grid restart has e + 3 there and closes in the first tick of the new grid (R50). -/
def closeSlot (e : Nat) : Nat := if e < 256 then e + 3 else e - 256

/-- The last slot of a window's own tick. -/
def lastSlotOf (e : Nat) : Nat := if e < 256 then e else e - 3

/-- The commit instant of a window whose last slot is `e`: the boundary of slot e + 3 (R217). -/
def commitAt (m : Mach) (n : Tick) (e : Nat) : Ns := slotAt m n (closeSlot e)

/-- The tick whose window a window is, by its commit instant: D(n) < C ≤ D(n + 1) (R219). -/
def windowTick (m : Mach) (c : Ns) : Tick := tickOf m.time.grid (c - m.time.hold - 1)

/-- The TimeQuality octet latched at T(n); of a tick no longer kept, the present one (R212). -/
def tqAt (m : Mach) (n : Tick) : BitVec 8 := ((m.time.tqs.find? fun e => e.1 == n).map (·.2)).getD (timeQuality m.time)

/-- TFRAC of an instant (R209). -/
def tfracOf (t : Ns) : BitVec 32 := .ofNat 32 (t % nsPerSec * 2 ^ 32 / nsPerSec)

/-- SEC_LO of an instant. -/
def secLoOf (t : Ns) : BitVec 32 := .ofNat 32 (t / nsPerSec)

end Sys2Proof.Machine
end

