-- ==== Sys2Proof/Machine/Points.lean ====
section
/-! DEFINITION. The signal table: reading a point, staging and committing writes, returning points (R209 to R221). -/
namespace Sys2Proof.Machine
open Sys2Proof

-- Quality words (R78, R211)

/-- VALIDITY invalid, questionable; oldData; failure; SOURCE substituted; TEST; FORCED. -/
def qInvalid : BitVec 32 := 1
def qQuestionable : BitVec 32 := 3
def qOldData : BitVec 32 := 0x80
def qFailure : BitVec 32 := 0x40
def qSubst : BitVec 32 := 0x400
def qTest : BitVec 32 := 0x800
def qForced : BitVec 32 := 0x4000

/-- VALIDITY of a quality word. -/
def validity (q : BitVec 32) : Nat := q.toNat % 4

/-- VALIDITY made a value. -/
def setValidity (q : BitVec 32) (v : Nat) : BitVec 32 := .ofNat 32 (q.toNat / 4 * 4 + v)

/-- A quality word with its TQ replaced (R212). -/
def withTq (q : BitVec 32) (tq : BitVec 8) : BitVec 32 := .ofNat 32 (q.toNat % 2 ^ 24 + tq.toNat * 2 ^ 24)

/-- VALUE has only bits its type names, and an INT32 is sign-extended (R210). -/
def valueOk (ty len : Nat) (v : BitVec 64) : Bool :=
  let n := v.toNat
  if ty = 0 then n < 2
  else if ty = 1 then n < 4
  else if ty = 2 then n < 2 ^ 31 || (2 ^ 64 - 2 ^ 31 ≤ n)
  else if ty = 3 then n < 2 ^ 32
  else if ty = 4 then true
  else if ty = 5 then n < 2 ^ 32
  else if ty = 6 then true
  else n < 2 ^ len

/-- A quality word to be written has no reserved bit set (R211, R227). -/
def qualityOk (q : BitVec 32) : Bool := bits q.toNat 23 15 == 0

/-- The range a point lies in (R213). -/
def rangeOf (sg : Signals) (i : Nat) : Option Range := sg.ranges.find? fun r => r.first ≤ i && i < r.first + r.count

/-- What a point of a range holds that nothing has written. -/
def spanVal (r : Range) (i : Nat) : PVal :=
  ((r.spans.find? fun s => s.1 ≤ i && i < s.1 + s.2.1).map (·.2.2)).getD
    { value := r.initV, quality := r.initQ, tfrac := 0, secLo := 0 }

/-- The committed point, if it exists. -/
def pointAt (sg : Signals) (i : Nat) : Option Point :=
  (rangeOf sg i).map fun r => (tget sg.points i).getD { v := spanVal r i, initial := true }

/-- A value with the timestamp of an instant and its TimeQuality. -/
def stamped (v : BitVec 64) (q : BitVec 32) (t : Ns) (tq : BitVec 8) : PVal :=
  { value := v, quality := withTq q tq, tfrac := tfracOf t, secLo := secLoOf t }

/-- A committed write of a point (R217, R220). -/
def putPoint (i : Nat) (v : PVal) : Mach → Mach :=
  onSig fun g => { g with points := tset g.points i { v := v, initial := false } }

/-- A write by an owner other than a slice, timestamped at its commit (R212). -/
def ownerWrite (i : Nat) (v : BitVec 64) (q : BitVec 32) (m : Mach) : Mach :=
  if (rangeOf m.sig i).isSome then putPoint i (stamped v q (now m) (timeQuality m.time)) m else m

/-- The range defined with a first point. -/
def rangeAt (sg : Signals) (first : Nat) : Option Range := sg.ranges.find? fun r => r.first == first

/-- The points of a span lie, as far as they exist at one state, in the same ranges at another, with type and bit length as they were
(R216). -/
def pointsKept (m x : Mach) (a n : Nat) : Bool :=
  m.sig.ranges.all fun r =>
    !(r.first < a + n && a < r.first + r.count) ||
    (rangeAt x.sig r.first).any fun y => y.ty == r.ty && y.len == r.len && min (a + n) (r.first + r.count) ≤ y.first + y.count

/-- A value with its QUALITY as configured, timestamped at an instant (R215). -/
def instated (v : BitVec 64) (q : BitVec 32) (t : Ns) : PVal := { value := v, quality := q, tfrac := tfracOf t, secLo := secLoOf t }

/-- The value a returned point takes: every bit of the initial QUALITY but VALIDITY and oldData is kept (R215). -/
def returnedVal (r : Range) (t : Ns) : PVal := instated r.initV (setValidity r.initQ 1 ||| qOldData) t

/-- Every point of a range returned at an instant (R215). -/
def returnRange (r : Range) (t : Ns) (sg : Signals) : Signals :=
  { sg with
    ranges := sg.ranges.map fun x =>
      if x.first = r.first then { x with spans := [(r.first, r.count, returnedVal r t)] } else x
    points := sg.points.filter fun e => !(r.first ≤ e.1 && e.1 < r.first + r.count) }

/-- Every range that satisfies a test is returned at T(n) (R215, R331). -/
def returnWhere (ok : Range → Bool) (t : Ns) (m : Mach) : Mach :=
  forEach (m.sig.ranges.filter ok) (fun r => onSig (returnRange r t)) m

/-- One point returned (R331). -/
def returnPoint (i : Nat) (t : Ns) (m : Mach) : Mach :=
  match rangeOf m.sig i with
  | none => m
  | some r => onSig (fun g => { g with points := tset g.points i { v := returnedVal r t, initial := true } }) m

-- Reads and staged writes of a slice (R217 to R221)

/-- The latest write of a point that a slice has staged and not committed. -/
def stagedOf (sg : Signals) (tag i : Nat) : Option StagedPt :=
  (sg.windows.filter fun w => w.tag == tag).foldl (fun best w =>
    match tget w.writes i, best with
    | none, b => b
    | some s, none => some s
    | some s, some b => if b.order < s.order then some s else some b) none

/-- A slice may read a point: it owns it, or the rights its item was granted with allow it (R172, R214). -/
def mayRead (r : Range) (tag i : Nat) (reads : List (Nat × Nat)) : Bool :=
  (r.ownerKind == 1 && r.owner == tag) || reads.any fun x => x.1 ≤ i && i < x.1 + x.2

/-- The result of a read by a slice's item: a code of R227, and the point where the code is done. -/
def sliceRead (m : Mach) (tag i : Nat) (reads : List (Nat × Nat)) : Nat × Option PVal :=
  if sliceResets m tag then (0x15, none)
  else match rangeOf m.sig i with
    | none => (0x12, none)
    | some r =>
      if !mayRead r tag i reads then (0x10, none)
      else match stagedOf m.sig tag i with
        | some s => (0, some s.v)
        | none => match pointAt m.sig i with
          | none => (0x12, none)
          | some p => (if p.initial then 1 else 0, some p.v)

/-- The window an item's writes are staged in. -/
def isWindow (core tag : Nat) (r : Running) (w : StagedWin) : Bool :=
  w.core == core && w.tag == tag && w.tick == r.tick && w.e == r.e

/-- The staged window of an item, if one has been opened. -/
def windowOf (sg : Signals) (core tag : Nat) (r : Running) : StagedWin :=
  (sg.windows.find? (isWindow core tag r)).getD { core := core, tag := tag, tick := r.tick, e := r.e, full := false, writes := [] }

/-- The staged window of an item replaced; a new one goes last. -/
def setWindow (core tag : Nat) (r : Running) (w : StagedWin) (sg : Signals) : Signals :=
  if sg.windows.any (isWindow core tag r) then
    { sg with windows := sg.windows.map fun x => if isWindow core tag r x then w else x }
  else { sg with windows := sg.windows ++ [w] }

/-- A write by a slice's item: a code of R227, and the module after it. `stamp` is none for an automatic timestamp. -/
def sliceWrite (core tag : Nat) (run : Running) (i : Nat) (v : BitVec 64) (q : BitVec 32)
    (stamp : Option (BitVec 32 × BitVec 32)) (m : Mach) : Nat × Mach :=
  let no (code : Nat) : Nat × Mach := (code, slcCount tag 5 m)
  if sliceResets m tag then (0x15, m)
  else match rangeOf m.sig i with
    | none => no 0x12
    | some r =>
      if !(r.ownerKind == 1 && r.owner == tag) then no 0x11
      else if !valueOk r.ty r.len v || !qualityOk q then no 0x13
      else
        let w := windowOf m.sig core tag run
        if (tget w.writes i).isNone && 4096 ≤ w.writes.length then
          let m := slcCount tag 6 m
          let m := onSig (setWindow core tag run { w with full := true }) m
          (0x14, if w.full then m else raise 0x0806 tag (fields [(1, tag), (1, core), (6, 0)]) m)
        else
          let q := q &&& ~~~qForced
          let n := windowTick m (commitAt m run.tick run.e)
          let pv : PVal := match stamp with
            | none => stamped v q (tickAt m n) (tqAt m n)
            | some (tf, s) => { value := v, quality := q, tfrac := tf, secLo := s }
          let e : StagedPt := { v := pv, ty := r.ty, len := r.len, order := m.sig.stageOrder }
          (0, onSig (fun g => setWindow core tag run { w with writes := tset w.writes i e }
            { g with stageOrder := g.stageOrder + 1 }) m)

/-- One staged write at its commit instant: committed, or discarded where the point changed (R218). -/
def commitOne (tag i : Nat) (s : StagedPt) (m : Mach) : Mach :=
  let ok := match rangeOf m.sig i with
    | none => false
    | some r => r.ownerKind == 1 && r.owner == tag && r.ty == s.ty && r.len == s.len
  if ok then putPoint i s.v m
  else raise 0x0808 tag (fields [(1, tag), (3, 0), (4, i)]) (slcCount tag 7 m)

/-- A window's staged writes committed together (R217). -/
def commitWindow (w : StagedWin) (m : Mach) : Mach :=
  let m := onSig (fun g => { g with windows := g.windows.erase w }) m
  forEach w.writes (fun e => commitOne w.tag e.1 e.2) m

/-- A point as the 24-byte entry of R225. -/
def pointEntry (p : PVal) : Bytes :=
  fields [(8, p.value.toNat), (4, p.quality.toNat), (4, p.tfrac.toNat), (4, p.secLo.toNat), (4, 0)]

/-- The module's owner of a point: kind and identity, if it exists. -/
def ownerOf (m : Mach) (i : Nat) : Option (Nat × Nat) := (rangeOf m.sig i).map fun r => (r.ownerKind, r.owner)

/-- The points the thresholds of a group write: base and count (R129). -/
def thresholdSpan (m : Mach) (g : Nat) (grp : Group) : Option (Nat × Nat) :=
  ((grp.estDue.getLast?.map (·.2)).getD grp.est).thrBase.map fun b => (b, 4 * (m.svi.chans.filter fun c => c.2.group == g).length)

end Sys2Proof.Machine
end

