-- ==== Sys2Proof/Machine/Goose.lean ====
section
/-! DEFINITION. GOOSE messages: encoding of IEC 61850-8-1, the authentication extension (R67), the entry layouts of R228 and
R236. The byte layout of messages is the standard's (log entry 16). -/
namespace Sys2Proof.Machine
open Sys2Proof

-- BER

/-- The length octets of a BER element. -/
def berLen (n : Nat) : Bytes :=
  if n < 128 then [.ofNat 8 n] else if n < 256 then [0x81, .ofNat 8 n] else [0x82, .ofNat 8 (n / 256), .ofNat 8 n]

/-- A BER element: tag, length, contents. -/
def ber (tag : Nat) (c : Bytes) : Bytes := .ofNat 8 tag :: berLen c.length ++ c

/-- The least number of bytes, 1 to 9, that hold a number in two's complement. -/
def intWidth (v : Int) : Nat :=
  ((List.range 9).find? fun i => decide (-(2 ^ (8 * i + 7)) ≤ v) && decide (v < 2 ^ (8 * i + 7))).getD 8 + 1

/-- The contents of a BER INTEGER. -/
def berInt (v : Int) : Bytes := be (intWidth v) (toTwos (8 * intWidth v) v)

/-- A bit string of `len` bits, the first bit of the string the lowest bit of `v`. -/
def berBits (len v : Nat) : Bytes :=
  let n := cdiv len 8
  let rev := (List.range len).foldl (fun a i => a * 2 + v / 2 ^ i % 2) 0
  .ofNat 8 (8 * n - len) :: be n (rev * 2 ^ (8 * n - len))

/-- UtcTime: seconds, 24-bit fraction, TimeQuality. -/
def utcBytes (sec frac : Nat) (tq : BitVec 8) : Bytes := be 4 sec ++ be 3 frac ++ [tq]

/-- A dataset entry. -/
def gvalBytes : GVal → Bytes
  | .bool v => ber 0x83 [.ofNat 8 (b2n v)]
  | .bits len v => ber 0x84 (berBits len v)
  | .int _ v => ber 0x85 (berInt v.toInt)
  | .uint v => ber 0x86 (berInt v.toNat)
  | .f32 v => ber 0x87 (8 :: be 4 v.toNat)
  | .f64 v => ber 0x87 (11 :: be 8 v.toNat)
  | .utc s f q => ber 0x91 (utcBytes s f q)

/-- The authentication extension: key identifier, length and value. -/
def authBytes : Option AuthExt → Bytes
  | none => []
  | some a => be 4 a.keyId ++ be 2 a.value.length ++ a.value

/-- The bytes of a GOOSE message after the EtherType. -/
def gooseBytes (p : GoosePdu) : Bytes :=
  let body := ber 0x80 p.ref ++ ber 0x81 (berInt p.tal) ++ ber 0x82 p.datSet ++ ber 0x83 p.goId ++
    ber 0x84 (utcBytes p.tSec p.tFrac p.tq) ++ ber 0x85 (berInt p.stNum.toNat) ++ ber 0x86 (berInt p.sqNum.toNat) ++
    ber 0x87 [.ofNat 8 (b2n p.simulate)] ++ ber 0x88 (berInt p.confRev) ++ ber 0x89 [.ofNat 8 (b2n p.ndsCom)] ++
    ber 0x8A (berInt p.entries) ++ ber 0xAB (p.data.flatMap gvalBytes)
  let apdu := ber 0x61 body
  let ext := authBytes p.auth
  be 2 p.appid ++ be 2 (8 + apdu.length) ++ be 2 (b2n p.simulate * 32768 + ext.length) ++ be 2 0 ++ apdu ++ ext

/-- A GOOSE message as a frame, tagged or not (R228). -/
def gooseFrame (dmac smac : BitVec 48) (tag : Option Nat) (p : GoosePdu) : Frame :=
  let b := gooseBytes p
  { dmac := dmac, smac := smac, tags := (tag.map fun t => (0x8100, t)).toList, etype := 0x88B8,
    len := max 64 (18 + 4 * b2n tag.isSome + b.length), prp := none, body := .goose p, payload := b }

-- Authentication (R67)

/-- A frame as its authentication value covers it: without the value and without its encoding. -/
def stripAuth (f : Frame) : Frame :=
  match f.body with
  | .sv p => { f with body := .sv { p with auth := none }, payload := [], prp := none }
  | .goose p => { f with body := .goose { p with auth := none }, payload := [], prp := none }
  | .ptp _ => f
  | .raw => f

/-- The three outcomes of authentication. -/
inductive AuthResult where
  | missing | fail | pass
  deriving DecidableEq, Repr

/-- A frame checked against an entry of the key store: its key identifier chooses between the current and the next key, and
its value is compared at the length the frame declares (R67). -/
def authCheck (m : Mach) (key : Nat) (f : Frame) (a : Option AuthExt) : AuthResult :=
  match a with
  | none => .missing
  | some x =>
    let e := tgetD m.sec.keys key { cur := none, next := none }
    match (e.cur.toList ++ e.next.toList).find? fun k => k.ident == x.keyId with
    | none => .fail
    | some k =>
      if x.value ≠ [] ∧ x.value.length ≤ 32 ∧ (Config.authTag k.key (stripAuth f)).take x.value.length = x.value
      then .pass else .fail

/-- A key store index holds a current key. -/
def keyThere (m : Mach) (key : Nat) : Bool := (tget m.sec.keys key).any fun e => e.cur.isSome

/-- A message's frame with its authentication value, 256 bits, by the current key (R232). -/
def signGoose (m : Mach) (key : Nat) (dmac smac : BitVec 48) (tag : Option Nat) (p : GoosePdu) : Frame :=
  match (tget m.sec.keys key).bind (·.cur) with
  | none => gooseFrame dmac smac tag p
  | some k =>
    let v := Config.authTag k.key (stripAuth (gooseFrame dmac smac tag p))
    gooseFrame dmac smac tag { p with auth := some { keyId := k.ident, value := v } }

-- Control block entries

/-- A member map of `n` entries from offset `off`: point and role of each. -/
def memberMap (p : Bytes) (off n : Nat) : List (Nat × Nat) :=
  (rdList 4 n p off).map fun w => (w % 2 ^ 23, bits w 25 24)

/-- The entry of R228 at an offset, with its member map after it. -/
def pubEntryAt (p : Bytes) (o : Nat) : PubEntry :=
  { flags := .ofNat 8 (rd 1 p o), appid := rd 2 p (o + 2), dmac := .ofNat 48 (rdBe 6 p (o + 4)), vlan := .ofNat 16 (rd 2 p (o + 10)),
    ports := .ofNat 8 (rd 1 p (o + 12)), curve := rd 1 p (o + 13), ownerKind := rd 1 p (o + 14), owner := rd 2 p (o + 16),
    key := rd 2 p (o + 18), confRev := rd 4 p (o + 20), ref := slice p (o + 64) (rd 1 p (o + 24)),
    datSet := slice p (o + 128) (rd 1 p (o + 25)), goId := slice p (o + 192) (rd 1 p (o + 26)),
    members := memberMap p (o + 256) (rd 1 p (o + 1)) }

/-- The entry of R236 at offset 8, with its member map after it. -/
def gsubEntryAt (p : Bytes) : GSubEntry :=
  { flags := .ofNat 8 (rd 1 p 8), appid := rd 2 p 10, dmac := .ofNat 48 (rdBe 6 p 12), vlan := rd 2 p 18 % 4096,
    ports := .ofNat 8 (rd 1 p 20), key := rd 2 p 22, confRev := rd 4 p 24, ref := slice p 72 (rd 1 p 21),
    members := memberMap p 136 (rd 1 p 9) }

/-- A name field: length 1 to 64 and unused octets zero. -/
def nameOk (p : Bytes) (lenOff off : Nat) : Bool :=
  let n := rd 1 p lenOff
  1 ≤ n && n ≤ 64 && zeros p (off + n) (64 - n)

/-- A member map's reserved bits are zero. -/
def mapOk (p : Bytes) (off n : Nat) : Bool := (rdList 4 n p off).all fun w => bits w 31 26 == 0

/-- The request layout of SIG_PUB_SET and UMB_PUB_SET: `n0` bytes of index, the entry, the map. -/
def pubLayout (reserved : List (Nat × Nat)) (p : Bytes) : Bool :=
  p.length == 264 + 4 * rd 1 p 9 && reserved.all (fun r => zeros p r.1 r.2) && bits (rd 1 p 8) 7 4 == 0 &&
  1 ≤ rd 1 p 9 && rd 1 p 9 ≤ 128 && zeros p 23 1 && zeros p 35 37 && nameOk p 32 72 && nameOk p 33 136 && nameOk p 34 200 &&
  mapOk p 264 (rd 1 p 9)

-- Dataset entries of points

/-- The quality bits a GOOSE message carries: bits 12:0 (R228). -/
def gooseQuality (q : BitVec 32) : Nat := q.toNat % 2 ^ 13

/-- Bits 12:0 of a quality word as the bit string of IEC 61850-8-1 and back: its first bit is the higher of the two that give VALIDITY, as
with a DBPOS. -/
def swapValidity (q : Nat) : Nat := q % 2 ^ 13 / 4 * 4 + q % 2 * 2 + q / 2 % 2

/-- The full TAI second of a timestamp: the latest with those low 32 bits that is not after the clock second (R209). -/
def fullSec (secNow lo : Nat) : Nat :=
  let c := secNow / 2 ^ 32 * 2 ^ 32 + lo
  if c ≤ secNow then c else c - 2 ^ 32

/-- The UTC offset in force at an instant: the earliest of those whose end is still to come then, else the one held (R41). -/
def utcAt (u : TimeUnit) (t : Ns) : Int := u.utcPast.foldl (fun o e => if t < e.1 then e.2 else o) u.utcOffset

/-- The UTC second of an instant (R41). -/
def utcSec (m : Mach) (t : Ns) : Nat := (((t / nsPerSec : Nat) : Int) - utcAt m.time t).toNat

/-- The TAI second of a UTC second, by the offset in force then (R41). -/
def taiSec (m : Mach) (s : Nat) : Int :=
  (s : Int) + m.time.utcPast.foldl (fun o e => if ((s : Int) + e.2) * nsPerSec < e.1 then e.2 else o) m.time.utcOffset

/-- The instant of a timestamp of 32 bits of a second and a fraction (R209). -/
def stampNs (m : Mach) (lo frac : BitVec 32) : Ns :=
  fullSec m.time.clock.sec.toNat lo.toNat * nsPerSec + frac.toNat * nsPerSec / 2 ^ 32

/-- A value member of a type and bit length (R210). -/
def encodeValue (ty len : Nat) (v : BitVec 64) : GVal :=
  if ty = 0 then .bool (v.toNat % 2 == 1)
  else if ty = 1 then .bits 2 (v.toNat % 2 * 2 + v.toNat / 2 % 2)
  else if ty = 2 then .int 32 v
  else if ty = 3 then .uint (v.setWidth 32)
  else if ty = 4 then .int 64 v
  else if ty = 5 then .f32 (v.setWidth 32)
  else if ty = 6 then .f64 v
  else .bits len v.toNat

/-- A member of a publish block as its message carries it (R228). -/
def encodeMember (m : Mach) (r : Range) (role : Nat) (p : PVal) : GVal :=
  if role = 0 then encodeValue r.ty r.len p.value
  else if role = 1 then .bits 13 (swapValidity p.quality.toNat)
  else .utc (utcSec m (stampNs m p.secLo p.tfrac)) (p.tfrac.toNat / 256) (.ofNat 8 (p.quality.toNat / 2 ^ 24))

/-- The longest encoding of a member. -/
def longestMember (ty len role : Nat) : GVal :=
  if role = 0 then
    (if ty = 2 then .int 32 (.ofInt 64 (-(2 ^ 31))) else if ty = 3 then .uint (.ofNat 32 (2 ^ 32 - 1))
     else if ty = 4 then .int 64 (.ofInt 64 (-(2 ^ 63))) else encodeValue ty len 0)
  else if role = 1 then .bits 13 0
  else .utc 0 0 0

/-- The longest encoding of a block's message, with the authentication extension (R229). -/
def longestMessage (e : PubEntry) (kinds : List (Nat × Nat × Nat)) : Nat :=
  (gooseFrame e.dmac 0 (if e.vlan.getLsbD 15 then some 0 else none)
    { appid := e.appid, simulate := true, auth := some { keyId := 0, value := List.replicate 32 0 }, ref := e.ref,
      tal := 2 ^ 32 - 1, datSet := e.datSet, goId := e.goId, tSec := 0, tFrac := 0, tq := 0, stNum := .ofNat 32 (2 ^ 32 - 1),
      sqNum := .ofNat 32 (2 ^ 32 - 1), confRev := e.confRev, ndsCom := false, entries := e.members.length,
      data := kinds.map fun k => longestMember k.1 k.2.1 k.2.2 }).len

/-- Type, bit length and role of each member of a block, for its longest encoding. -/
def memberKinds (m : Mach) (e : PubEntry) : List (Nat × Nat × Nat) :=
  e.members.map fun x => match rangeOf m.sig x.1 with
    | none => (0, 0, x.2)
    | some r => (r.ty, r.len, x.2)

/-- A dataset entry as the value of a point of a type (R210, R237); none where its encoding does not match. -/
def decodeValue (ty len : Nat) : GVal → Option (BitVec 64)
  | .bool v => if ty = 0 then some (.ofNat 64 (b2n v)) else none
  | .bits l v =>
    if ty = 1 ∧ l = 2 then some (.ofNat 64 (v % 2 * 2 + v / 2 % 2))
    else if ty = 7 ∧ l = len then some (.ofNat 64 (v % 2 ^ len)) else none
  | .int w v =>
    if ty = 2 ∧ w = 32 ∧ valueOk 2 0 v then some v else if ty = 4 ∧ w ≤ 64 then some v else none
  | .uint v => if ty = 3 then some (v.setWidth 64) else none
  | .f32 v => if ty = 5 then some (v.setWidth 64) else none
  | .f64 v => if ty = 6 then some v else none
  | .utc _ _ _ => none

end Sys2Proof.Machine
end

