-- ==== Sys2Proof/Machine/Buffer.lean ====
section
/-! DEFINITION. The switch buffer's accounting: cells, queues, reserves, the pool (R246 to R251). -/
namespace Sys2Proof.Machine
open Sys2Proof

/-- The bytes of whole cells that a frame of a length takes (R246). -/
def cellBytes (len : Nat) : Nat := cdiv len 256 * 256

/-- A queue by its key. -/
def getQueue (n : Network) (k : Nat) : Queue := tgetD n.queues k (queueInit k)

/-- A queue rewritten. -/
def onQueue (k : Nat) (f : Queue → Queue) : Mach → Mach :=
  onNet fun n => { n with queues := tset n.queues k (f (getQueue n k)) }

/-- Counter `i` of a queue advanced by `k` (SWC_QUEUE_STATUS). -/
def queueCount (key i k : Nat) : Mach → Mach := onQueue key fun q => { q with ctrs := bumpBy q.ctrs i k }

/-- A ring that has never been set: unassigned and disabled (R289; SIZE_LOG2 is the model's, log entry 11). -/
def ringInit : Ring :=
  { owner := none, pos := none, enabled := false, tx := false, s := 6, base := 0, handler := 0xFFFF, cmpCount := 0,
    cmpTicks := 0, txClass := 0x07, txPorts := 0, head := 0, tail := 0, rdIdx := 0, starve := false, starved := false,
    armed := false, pend := 0, oldest := 0, delivery := none, starvedDrops := 0, doneTx := [], epoch := 0, ctrs := [] }

def getRing (m : Mach) (r : Nat) : Ring := tgetD m.net.rings r ringInit
def onRing (r : Nat) (f : Ring → Ring) : Mach → Mach := onNet fun n => { n with rings := tmod n.rings r ringInit f }
def ringCount (r i k : Nat) : Mach → Mach := onRing r fun x => { x with ctrs := bumpBy x.ctrs i k }

-- Frames in queues

/-- The launch instant of a launch word: the second with its low 32 bits nearest the current one (R54). -/
def launchOf (t : Ns) (w : BitVec 64) : Option Ns :=
  if w = 0 then none
  else
    let sec := t / nsPerSec
    let d : Int := ofTwos 32 ((bits w.toNat 63 32 + 2 ^ 32 - sec % 2 ^ 32) % 2 ^ 32)
    some ((((sec : Int) + d) * nsPerSec + (bits w.toNat 29 0 : Int)).toNat)

/-- The launch instant of a frame in the buffer. -/
def launchAtId (m : Mach) (id : Nat) : Option Ns := (tget m.net.store id).bind fun s => launchOf (now m) s.launch

/-- The head of a class queue: the GOOSE engine's FIFO first (R243). -/
def queueHead (m : Mach) (p c : Nat) : Option Nat :=
  let q := getQueue m.net (queueKey p c)
  q.goose.head? <|> q.other.head?

/-- A stored frame rewritten. -/
def onStored (id : Nat) (f : Stored → Stored) : Mach → Mach := onNet fun n =>
  match tget n.store id with
  | none => n
  | some s => { n with store := tset n.store id (f s) }

/-- Frames held for launch at the head of a MAC queue whose instant a jump of the clock has passed count as launched late (R34, R55). -/
def passLaunches (t : Ns) (m : Mach) : Mach :=
  let heads := (List.range 13).flatMap fun p => (List.range 8).filterMap fun c => (queueHead m p c).map fun id => (p, id)
  forEach (heads.filter fun x => (launchAtId m x.2).any fun l => decide (t < l) && decide (l < now m))
    (fun x => onStored x.2 fun s => { s with late := x.1 :: s.late }) m

/-- The keys of every egress queue (R243). -/
def queueKeys : List Nat :=
  ((List.range 13).flatMap fun p => (List.range 8).map fun c => queueKey p c) ++ [queueKey 13 6] ++
  (List.range 258).map (queueKey 14) ++ (List.range 8).map (queueKey 15) ++ (List.range 8).map (queueKey 16)

/-- Whether a port code and queue number name a queue. -/
def queueThere (port q : Nat) : Bool :=
  (port < 13 && q < 8) || (port == 13 && q == 6) || (port == 14 && q < 258) || ((port == 15 || port == 16) && q < 8)

/-- A ring receive queue (R253). -/
def isRingQueue (key : Nat) : Bool := 14 * 512 ≤ key && key < 14 * 512 + 256

/-- Every class reserve together. -/
def reserveTotal (n : Network) : Nat :=
  (n.queues.filter fun e => queueThere (e.1 / 512) (e.1 % 512)).foldl
    (fun a e => a + e.2.rmin - (queueInit e.1).rmin) 3670016

/-- Headroom of the ports together; P8, P10 and P11 have it for each class (R247). -/
def headroomTotal (n : Network) : Nat :=
  (n.ports.map fun e => if e.1 = 8 ∨ e.1 = 10 ∨ e.1 = 11 then 8 * e.2.headroom else e.2.headroom).sum

/-- Slice reserves granted. -/
def sliceReserves (m : Mach) : Nat := (m.cpu.slices.map fun e => e.2.rsv).sum

/-- P: the shared pool (R247). -/
def poolSize (m : Mach) : Nat := 33554432 - reserveTotal m.net - headroomTotal m.net - sliceReserves m

/-- A stored frame's cells in bytes. -/
def Stored.bytes (s : Stored) : Nat := cellBytes s.frame.len

/-- Bytes that stored frames have drawn from a source (R250). -/
def drawn (n : Network) (src : CellSrc) : Nat :=
  ((n.store.filter fun e => e.2.refs != 0 && e.2.src == src).map fun e => e.2.bytes).sum

/-- Bytes charged to a slice's transmit account (R251). -/
def accountUsed (n : Network) (tag : Nat) : Nat :=
  ((n.store.filter fun e => e.2.refs != 0 && e.2.acct == some tag).map fun e => e.2.bytes).sum

/-- Cells drawn from a reserve that has been reduced below them count against the pool (R169, R251). -/
def excess (n : Network) (src : CellSrc) (reserve : Nat) : Nat := drawn n src - reserve

/-- Bytes drawn from the pool. -/
def poolUsed (m : Mach) : Nat :=
  drawn m.net .pool +
  (m.net.queues.map fun e => excess m.net (.queue (e.1 / 512) (e.1 % 512)) e.2.rmin).sum +
  ((List.range 65).map fun t => excess m.net (.account t) (((getSlice m t).map (·.rsv)).getD 0)).sum

/-- F: the free pool. -/
def poolFree (m : Mach) : Nat := poolSize m - poolUsed m

/-- After cells have been drawn or the partition changed: the least F since the last SWC_STATUS, and the event where F has fallen below
P / 16 (R262, R263). `m0` is the module before. -/
def noteFree (m0 m : Mach) : Mach :=
  let f := poolFree m
  let m := onNet (fun n => { n with minFree := min n.minFree f }) m
  if 16 * f < poolSize m ∧ poolSize m0 ≤ 16 * poolFree m0 then raise 0x0905 0 (fields [(4, f), (4, poolSize m)]) m else m

/-- A change of the partition. -/
def partition (f : Mach → Mach) (m : Mach) : Mach := noteFree m (f m)

/-- The frames of one FIFO of a queue, in bytes of whole cells. -/
def fifoBytes (n : Network) (ids : List Nat) : Nat :=
  (ids.map fun i => ((tget n.store i).map Stored.bytes).getD 0).sum

/-- The copies of a queue that its MAC has begun and not completed: they stay on the queue until they have (R246). -/
def begun (n : Network) (key : Nat) : List Nat :=
  match tget n.ports (key / 512) with
  | none => []
  | some p => (p.sending.toList ++ p.cutOff.toList).filterMap fun x => if x.cls == key % 512 then some x.id else none

/-- The frames of a queue: of both FIFOs, or of the GOOSE engine's FIFO, or of the other (R243). -/
def queueFrames (n : Network) (key : Nat) : List Nat := begun n key ++ (getQueue n key).goose ++ (getQueue n key).other
def fifoFrames (n : Network) (key : Nat) (goose : Bool) : List Nat :=
  (queueFrames n key).filter fun i => (tget n.store i).any fun s => s.goose == goose

/-- Occupancy of a queue, or of the one FIFO of a TC7 queue that an admission goes to (R246, R250). -/
def occTotal (n : Network) (key : Nat) : Nat := fifoBytes n (queueFrames n key)
def occOf (n : Network) (key : Nat) (goose : Bool) : Nat :=
  if key / 512 < 13 ∧ key % 512 = 7 then fifoBytes n (fifoFrames n key goose) else occTotal n key

/-- `x` times 2^k. -/
def scaleExp (x : Nat) (k : Int) : Nat := if 0 ≤ k then x * 2 ^ k.toNat else x / 2 ^ (-k).toNat

/-- The trip footprint of a port: the longest encodings of its trip-class blocks in whole cells (R249). -/
def tripFootprint (m : Mach) (p : Nat) : Nat :=
  (m.sig.pubs.map fun e =>
    if e.2.entry.flags.getLsbD 1 && e.2.entry.ports.getLsbD p then cellBytes (longestMessage e.2.entry (memberKinds m e.2.entry))
    else 0).sum

/-- The trip-class budget of a port: longest encoding + 20 of its trip-class blocks (R229). -/
def tripBudget (m : Mach) (p : Nat) : Nat :=
  (m.sig.pubs.map fun e =>
    if e.2.entry.flags.getLsbD 1 && e.2.entry.ports.getLsbD p then longestMessage e.2.entry (memberKinds m e.2.entry) + 20
    else 0).sum

/-- What a port sends in 10 µs, in bytes, by its speed (R229). -/
def portBudget (speed : Nat) : Nat := if speed = 0 then 31250 else if speed = 1 ∨ speed = 2 then 12500 else 1250

end Sys2Proof.Machine
end

