-- ==== Sys2Proof/Machine/Sig.lean ====
section
/-! DEFINITION. The signal table's commands, the access registers, and the GOOSE engine (chapter 08). -/
namespace Sys2Proof.Machine
open Sys2Proof

/-- Two spans of points, first and count, share a point. -/
def overlaps (a n b k : Nat) : Bool := a < b + k && b < a + n && 0 < n && 0 < k

/-- A point lies in a span. -/
def inSpan (a n i : Nat) : Bool := a ≤ i && i < a + n

-- Dependants of points (R216)

/-- The images the logic engine holds for a program: the one it runs and those that wait for an exchange (R338). -/
def heldImages (g : Program) : List Prog := g.prog :: g.exchange.map (·.prog)

/-- Something refers to a point of a span: a control block, a program or a force, a threshold, an umber point, a read right. -/
def pointsInUse (m : Mach) (a n : Nat) : Bool :=
  m.sig.pubs.any (fun e => e.2.entry.members.any fun x => inSpan a n x.1) ||
  m.sig.gsubs.any (fun e => e.2.entry.members.any fun x => inSpan a n x.1) ||
  m.lge.progs.any (fun e => (heldImages e.2).any fun g => g.ins.any (fun x => inSpan a n x.point) || g.outs.any (fun x => inSpan a n x.point)) ||
  m.lge.forces.any (fun e => inSpan a n e.2.point) ||
  m.flt.groups.any (fun e => (thresholdSpan m e.1 e.2).any fun s => overlaps a n s.1 s.2) ||
  m.umb.elems.any (fun e => e.2.cfg.zonePt.any (inSpan a n)) ||
  m.umb.bfiPts.any (fun x => x.any (inSpan a n)) ||
  m.umb.uptBase.any (fun b => overlaps a n b 128) ||
  m.cpu.slices.any (fun e => e.2.reads.any fun s => overlaps a n s.1 s.2)

/-- Something whose checks judged the owner refers to a point of a span. -/
def ownerInUse (m : Mach) (a n : Nat) : Bool :=
  m.sig.pubs.any (fun e => e.2.entry.ownerKind != 0 && e.2.entry.members.any fun x => inSpan a n x.1) ||
  m.sig.gsubs.any (fun e => e.2.entry.members.any fun x => inSpan a n x.1) ||
  m.lge.progs.any (fun e => (heldImages e.2).any fun g => g.outs.any fun x => inSpan a n x.point)

-- SIG_RANGE_SET

/-- The range a request describes. -/
def rangeReq (p : Bytes) : Range :=
  { first := rd 4 p 0, count := rd 4 p 4, ty := rd 1 p 8, len := rd 1 p 9, ownerKind := rd 1 p 10, owner := rd 2 p 12,
    mirror := bit (rd 1 p 11) 0, initV := .ofNat 64 (rd 8 p 16), initQ := .ofNat 32 (rd 4 p 24), deadband := .ofNat 32 (rd 4 p 28),
    spans := [], bands := [] }

/-- The owner a request names is invalid or absent (R241). -/
def ownerBad (m : Mach) (kind id : Nat) : Bool :=
  if kind = 0 then false
  else if kind = 1 then !sliceThere m id
  else if kind = 2 then 64 ≤ id
  else if kind = 3 then 4096 ≤ id
  else kind != 4

/-- A range requested overlaps another, or is one range too many (R213). -/
def rangeClash (m : Mach) (r : Range) : Bool :=
  r.count != 0 && (m.sig.ranges.any (fun x => x.first != r.first && overlaps r.first r.count x.first x.count) ||
    ((rangeAt m.sig r.first).isNone && 65536 ≤ m.sig.ranges.length))

/-- What the rest of the module needs of the ranges, once a SIG_RANGE_SET is effective: that they stay apart (R213), and that no point
that something refers to goes, changes its type or passes on (R216). -/
def rangeDepend (_m x : Mach) (_h : Hdr) (p : Bytes) : Nat :=
  let r := rangeReq p
  if rangeClash x r then 0x0200
  else match rangeAt x.sig r.first with
    | none => 0
    | some o =>
      let used :=
        if r.count = 0 then pointsInUse x o.first o.count
        else
          (r.count < o.count && pointsInUse x (o.first + r.count) (o.count - r.count)) ||
          ((r.ty != o.ty || r.len != o.len) && pointsInUse x o.first o.count) ||
          ((r.ownerKind != o.ownerKind || r.owner != o.owner) && ownerInUse x o.first o.count)
      if used then 0x020B else 0

def sigRangeSet : Cmd where
  code := 0x0801
  len := fun p => layout 32 [(14, 2)] p && rd 1 p 11 < 2
  right := rConfig
  journal := true
  sched := true
  check := fun m _ p =>
    let r := rangeReq p
    let old := rangeAt m.sig r.first
    if r.count = 0 then (if old.isSome then 0 else 0x0107)
    else firstFail [
      (8388608 < r.first + r.count || rangeClash m r, 0x0200),
      (7 < r.ty || (if r.ty = 7 then r.len = 0 || 64 < r.len else r.len != 0) || !valueOk r.ty r.len r.initV ||
        !qualityOk r.initQ || !(fin32 r.deadband && !lt32 r.deadband 0), 0x0201),
      (ownerBad m r.ownerKind r.owner, 0x0202)]
  depend := rangeDepend

/-- SIG_RANGE_SET at its effective tick (R215). -/
def applyRangeSet (p : Bytes) (m : Mach) : Mach :=
  let q := rangeReq p
  let t := tickAt m m.time.tick
  let init := instated q.initV q.initQ t
  let rest := m.sig.ranges.filter fun r => r.first != q.first
  let put (r : Range) (g : Signals) : Signals :=
    { g with ranges := linsert (fun a b => decide (a.first < b.first)) r rest }
  match rangeAt m.sig q.first with
  | none =>
    if q.count = 0 then m else onSig (put { q with spans := [(q.first, q.count, init)] }) m
  | some o =>
    if q.count = 0 then
      onSig (fun g => { g with ranges := rest, points := g.points.filter fun e => !inSpan o.first o.count e.1 }) m
    else
      let returned := q.ownerKind != o.ownerKind || q.owner != o.owner || q.initV != o.initV || q.initQ != o.initQ ||
        q.ty != o.ty || q.len != o.len
      let kept := min o.count q.count
      let base := if returned then [(q.first, kept, returnedVal q t)]
        else (o.spans.map fun s => (s.1, min s.2.1 (q.first + kept - s.1), s.2.2)).filter fun s => 0 < s.2.1
      let bands := if q.deadband = o.deadband then o.bands else o.bands ++ [(t, o.deadband)]
      let bands := bands.filter fun b => m.time.asm.any fun d => d.t < b.1
      let added := if o.count < q.count then [(q.first + o.count, q.count - o.count, init)] else []
      let drop (e : Nat) : Bool := inSpan o.first o.count e && (returned || q.first + kept ≤ e)
      onSig (fun g => { put { q with spans := base ++ added, bands := bands } g with points := g.points.filter fun e => !drop e.1 }) m

-- SIG_PUB_SET

/-- A publish block that has never been set. -/
def pubInit (e : PubEntry) : Pub :=
  { entry := e, m := 0, t := 0, tq := 0, last := none, pos := 0, next := none, force := false, ctrs := [] }

/-- Whether a control block is enabled. -/
def pubOn (e : PubEntry) : Bool := e.flags.getLsbD 0
def gsubOn (e : GSubEntry) : Bool := e.flags.getLsbD 0

/-- The owner of a block may publish a point: its own, or one of a program of its own (R229). -/
def pubMay (m : Mach) (e : PubEntry) (pt : Nat) : Bool :=
  match ownerOf m pt with
  | none => true
  | some (k, id) =>
    if e.ownerKind = 1 then
      (k == 1 && id == e.owner) || (k == 2 && (tget m.lge.progs id).any fun g => g.owner == e.owner)
    else if e.ownerKind = 2 then
      (k == 2 && id == e.owner) || (k == 1 && (tget m.lge.progs e.owner).any fun g => g.owner == id)
    else true

/-- The module with a block set, for the checks that count it. -/
def withPub (m : Mach) (i : Nat) (e : PubEntry) : Mach :=
  onSig (fun g => { g with pubs := tset g.pubs i (pubInit e) }) m

/-- TC7 reserves raised to the trip footprints, in whole cells (R249). -/
def raiseTrip (m : Mach) : Mach :=
  forEach (List.range 8) (fun p m =>
    onQueue (queueKey p 7) (fun q => { q with rmin := max q.rmin (tripFootprint m p) }) m) m

def sigPubSet : Cmd where
  code := 0x0802
  len := pubLayout [(2, 6)]
  right := rConfig
  journal := true
  sched := true
  check := fun m _ p =>
    let i := rd 2 p 0
    let e := pubEntryAt p 8
    let m' := withPub m i e
    firstFail [
      (2048 ≤ i || 16 ≤ e.curve, 0x0203),
      ((tget m.sig.pubs i).any (fun b => pubOn b.entry && { b.entry with flags := b.entry.flags ||| 1 } != { e with flags := e.flags ||| 1 }),
        0x020A),
      (2 < e.ownerKind || (e.ownerKind = 1 && !sliceThere m e.owner) || (e.ownerKind = 2 && (tget m.lge.progs e.owner).isNone), 0x0202),
      (e.flags.getLsbD 3 && !keyThere m e.key, 0x0209),
      (e.members.any (fun x => 2 < x.2), 0x0204),
      (1518 < longestMessage e (memberKinds m e), 0x0205),
      (e.flags.getLsbD 1 && (List.range 8).any (fun q => e.ports.getLsbD q &&
        portBudget (((getPort m q).map (·.cfg.speed)).getD 0) < tripBudget m' q), 0x0206)]
  depend := fun m x _ p =>
    let e := pubEntryAt p 8
    if e.members.any (fun y => (rangeOf x.sig y.1).isNone || !pointsKept m x y.1 1) then 0x0204
    else if e.members.any (fun y => !pubMay x e y.1) then 0x0105 else 0
  res := fun m _ p =>
    let e := pubEntryAt p 8
    if e.members.any (fun x => !pubMay m e x.1) then 0x0105
    else if poolSize (raiseTrip (withPub m (rd 2 p 0) e)) < 4194304 then 0x0104 else 0

/-- SIG_PUB_SET at its effective tick. A block enabled again, or with another entry, goes on with its numbering (R233); its next message
is due at once (log entry 17). -/
def applyPubSet (p : Bytes) (m : Mach) : Mach :=
  let i := rd 2 p 0
  let e := pubEntryAt p 8
  let old := tgetD m.sig.pubs i (pubInit e)
  let goesOn := (tget m.sig.pubs i).isSome && old.entry == e
  let b : Pub :=
    if !pubOn e then { old with entry := e, next := none }
    else if goesOn then old
    else { old with entry := e, last := if old.entry.members = e.members then old.last else none, next := some m.time.tick, pos := 0 }
  partition raiseTrip (onSig (fun g => { g with pubs := tset g.pubs i b }) m)

-- SIG_SUB_SET

/-- Two subscribe entries have the same match key (R236). -/
def sameKey (a b : GSubEntry) : Bool :=
  a.dmac == b.dmac && a.appid == b.appid && a.ref == b.ref && a.flags.getLsbD 1 == b.flags.getLsbD 1 &&
  (!a.flags.getLsbD 1 || a.vlan == b.vlan)

def gsubInit (e : GSubEntry) : GSub :=
  { entry := e, st := 0, sq := 0, heard := false, expiry := none, expired := false, authFail := false, inSim := false,
    data := [], ctrs := [] }

def sigSubSet : Cmd where
  code := 0x0803
  len := fun p => p.length == 136 + 4 * rd 1 p 9 && zeros p 2 6 && bits (rd 1 p 8) 7 4 == 0 && 1 ≤ rd 1 p 9 && rd 1 p 9 ≤ 128 &&
    zeros p 28 44 && nameOk p 21 72 && mapOk p 136 (rd 1 p 9)
  right := rConfig
  journal := true
  sched := true
  check := fun m _ p =>
    let i := rd 2 p 0
    let e := gsubEntryAt p
    firstFail [
      (4096 ≤ i, 0x0203),
      ((tget m.sig.gsubs i).any (fun b => gsubOn b.entry && { b.entry with flags := b.entry.flags ||| 1 } != { e with flags := e.flags ||| 1 }),
        0x020A),
      (m.sig.gsubs.any (fun b => b.1 != i && sameKey b.2.entry e), 0x0208),
      (e.flags.getLsbD 2 && !keyThere m e.key, 0x0209)]
  depend := fun m x _ p =>
    if (gsubEntryAt p).members.any (fun y => ownerOf x y.1 != some (3, rd 2 p 0) || !pointsKept m x y.1 1) then 0x0204 else 0

/-- SIG_SUB_SET at its effective tick: a block that is enabled starts afresh, its points at their initial values (R238). -/
def applySubSet (p : Bytes) (m : Mach) : Mach :=
  let i := rd 2 p 0
  let e := gsubEntryAt p
  let old := tgetD m.sig.gsubs i (gsubInit { e with flags := 0 })
  let fresh := gsubOn e && old.entry != e
  let b : GSub :=
    if fresh then { gsubInit e with ctrs := old.ctrs, inSim := old.inSim && e.flags.getLsbD 3 }
    else { old with entry := e, inSim := old.inSim && e.flags.getLsbD 3, expiry := if gsubOn e then old.expiry else none }
  let m := if old.inSim && !e.flags.getLsbD 3 then raise 0x0307 0 (fields [(2, i), (6, 0)]) m else m
  onSig (fun g =>
    { g with
      gsubs := tset g.gsubs i b
      points := if fresh then g.points.filter (fun x => !e.members.any fun y => y.1 == x.1) else g.points }) m

-- SIG_CURVE_SET

def sigCurveSet : Cmd where
  code := 0x0804
  len := fun p => zeros p 2 6 && p.length == 8 + 2 * rd 1 p 1
  right := rConfig
  journal := true
  sched := true
  check := fun _ _ p => firstFail [
    (16 ≤ rd 1 p 0, 0x0203),
    (rd 1 p 1 = 0 || 16 < rd 1 p 1 || (rdList 2 (rd 1 p 1) p 8).contains 0, 0x0207)]

def applyCurveSet (p : Bytes) : Mach → Mach :=
  onSig fun g => { g with curves := tset g.curves (rd 1 p 0) (rdList 2 (rd 1 p 1) p 8) }

-- Reads

/-- The read rights a slice has now. -/
def readsOf (m : Mach) (t : Nat) : List (Nat × Nat) := ((getSlice m t).map (·.reads)).getD []

/-- A slice may read a point that exists. -/
def sliceMayRead (m : Mach) (t i : Nat) : Bool := (rangeOf m.sig i).any fun r => mayRead r t i (readsOf m t)

/-- The points of SIG_POINT_READ, up to the first that lies in no range or that the slice may not read. -/
def pointsFrom (m : Mach) (tag : Nat) : Nat → Nat → List Bytes
  | 0, _ => []
  | n + 1, i =>
    match pointAt m.sig i with
    | none => []
    | some p => if tag != 0 && !sliceMayRead m tag i then [] else pointEntry p.v :: pointsFrom m tag n (i + 1)

def sigPointRead : Cmd where
  code := 0x0810
  len := fun p => p.length == 8 && 1 ≤ rd 4 p 4 && rd 4 p 4 ≤ 256
  apply := false
  slice := fun m t p => (rangeOf m.sig (rd 4 p 0)).isNone || sliceMayRead m t (rd 4 p 0)
  check := fun m _ p => if (rangeOf m.sig (rd 4 p 0)).isNone then 0x0107 else 0

def execSigPointRead (h : Hdr) (p : Bytes) (s : State) : Host.Outcome State Fault Refusal :=
  runOn s (runRead sigPointRead h p
    (fun m =>
      let es := pointsFrom m (boxTag h.box) (rd 4 p 4) (rd 4 p 0)
      fields [(4, es.length), (4, 0)] ++ es.flatten) id)

/-- A slice owns a block, or may read its member points. -/
def pubVisible (m : Mach) (t i : Nat) : Bool :=
  (tget m.sig.pubs i).any fun b =>
    (b.entry.ownerKind == 1 && b.entry.owner == t) || b.entry.members.all fun x => sliceMayRead m t x.1

/-- Counters are cleared only by a session with configuration administration. -/
def clearOk (off : Nat) (role : BitVec 32) (p : Bytes) : Bool := !bit (rd 1 p off) 0 || hasRight role rConfig

def sigPubStatus : Cmd where
  code := 0x0811
  len := fun p => layout 8 [(3, 5)] p && rd 1 p 2 < 2
  apply := false
  slice := fun m t p => pubVisible m t (rd 2 p 0)
  roleOk := clearOk 2
  check := fun m _ p => if 2048 ≤ rd 2 p 0 then 0x0203 else if (tget m.sig.pubs (rd 2 p 0)).isNone then 0x0107 else 0

def execSigPubStatus (h : Hdr) (p : Bytes) (s : State) : Host.Outcome State Fault Refusal :=
  let i := rd 2 p 0
  runOn s (runRead sigPubStatus h p
    (fun m =>
      let n := tgetD m.sig.nums i (0, 0)
      match tget m.sig.pubs i with
      | none => []
      | some b => fields [(4, n.1.toNat), (4, n.2.toNat), (8, b.m)] ++ ctrBytes b.ctrs 6)
    (fun m => when (bit (rd 1 p 2) 0) (onSig fun g =>
      { g with pubs := tmap g.pubs fun k b => if k = i then { b with ctrs := ctrClear b.ctrs 6 } else b }) m))

def sigSubStatus : Cmd where
  code := 0x0812
  len := fun p => layout 8 [(3, 5)] p && rd 1 p 2 < 2
  apply := false
  slice := fun m t p => (tget m.sig.gsubs (rd 2 p 0)).any fun b => b.entry.members.all fun x => sliceMayRead m t x.1
  roleOk := clearOk 2
  check := fun m _ p => if 4096 ≤ rd 2 p 0 then 0x0203 else if (tget m.sig.gsubs (rd 2 p 0)).isNone then 0x0107 else 0

def execSigSubStatus (h : Hdr) (p : Bytes) (s : State) : Host.Outcome State Fault Refusal :=
  let i := rd 2 p 0
  runOn s (runRead sigSubStatus h p
    (fun m => match tget m.sig.gsubs i with
      | none => []
      | some b =>
        fields [(1, b2n (gsubOn b.entry) + 2 * b2n b.expiry.isSome + 4 * b2n b.authFail + 8 * b2n b.inSim), (3, 0),
          (4, b.st.toNat), (4, b.sq.toNat), (4, 0)] ++ ctrBytes b.ctrs 10)
    (fun m => when (bit (rd 1 p 2) 0) (onSig fun g =>
      { g with gsubs := tmap g.gsubs fun k b => if k = i then { b with ctrs := ctrClear b.ctrs 10 } else b }) m))

-- The access registers (R222 to R227)

/-- Access registers that nothing has written (R222 to R226). -/
def spaInit : Spa :=
  { index := 0, value := 0, meta_ := 0, sec := 0, status := 0x7F, list := 0, buf := 0, burstStatus := 0x7F, burstDone := 0 }

/-- The access registers of a core and slice. -/
def getSpa (m : Mach) (c t : Nat) : Spa := tgetD m.sig.spa (c * 128 + t) spaInit
def onSpa (c t : Nat) (f : Spa → Spa) : Mach → Mach := onSig fun g => { g with spa := tmod g.spa (c * 128 + t) spaInit f }

/-- SPA_CMD with its OP: 1 read, 2 write with an automatic timestamp, 3 write with an explicit one (R224). -/
def spaCmd (c : Fin 32) (op : Nat) (m : Mach) : Mach :=
  match coreRun m c with
  | none => m
  | some run =>
    let t := run.tag
    let x := getSpa m c t
    let i := x.index.toNat % 2 ^ 23
    let status (code : Nat) : Mach → Mach := onSpa c t fun x => { x with status := .ofNat 8 code }
    if op = 1 then
      (match sliceRead m t i run.reads with
        | (code, none) => status code (if code = 0x10 then slcCount t 4 m else m)
        | (code, some v) =>
          status code (onSpa c t (fun x => { x with
            value := v.value
            meta_ := .ofNat 64 (v.tfrac.toNat * 2 ^ 32 + v.quality.toNat)
            sec := .ofNat 64 v.secLo.toNat }) m))
    else if op = 2 ∨ op = 3 then
      let stamp := if op = 3 then some (BitVec.ofNat 32 (x.meta_.toNat / 2 ^ 32), BitVec.ofNat 32 x.sec.toNat) else none
      let r := sliceWrite c t run i x.value (.ofNat 32 x.meta_.toNat) stamp m
      status r.1 r.2
    else status 0x17 m

/-- What an item's write into its slice's memory leaves behind: pages marked for a hue migration, and lines of mirrored regions for the
mirror (R171, R422). -/
def noteLines (run : Running) (t : Nat) (s : Slice) (va n : Nat) (m : Mach) : Mach :=
  let m := markPages t va n m
  let inMirror (a : Nat) : Bool := s.regions.any fun r => r.mirrored && r.vbase ≤ a && a < r.vbase + r.size
  let ls := ([va / 64 * 64, (va + n - 1) / 64 * 64].eraseDups).filter inMirror
  if m.twn.cfg.on then
    onTwn (fun x => { x with dirty := ls.foldl (fun l a =>
      linsert (fun p q => decide (p.close < q.close)) { tag := t, va := a, close := run.tick * 256 + closeSlot run.e } l) x.dirty }) m
  else m

/-- One entry of a burst (R225, R226): a code of R227 and the module after it. -/
def burstEntry (c : Fin 32) (run : Running) (op lva bva k : Nat) (m : Mach) : Nat × Mach :=
  let t := run.tag
  match getSlice m t with
  | none => (0x15, m)
  | some s =>
    let la := lva + 4 * k
    let ba := bva + 24 * k
    if !spanOk s la 4 0 || !spanOk s ba 24 (if op = 1 then 1 else 0) then (0x16, m)
    else
      let i := ofLe (slcGet m t la 4) % 2 ^ 23
      if op = 1 then
        (match sliceRead m t i run.reads with
          | (code, none) => (code, if code = 0x10 then slcCount t 4 m else m)
          | (_, some v) => (0, noteLines run t s ba 24 (slcPut t ba (pointEntry v) m)))
      else
        let b := slcGet m t ba 24
        let stamp := if op = 3 then some (BitVec.ofNat 32 (rd 4 b 12), BitVec.ofNat 32 (rd 4 b 16)) else none
        sliceWrite c t run i (.ofNat 64 (rd 8 b 0)) (.ofNat 32 (rd 4 b 8)) stamp m

/-- The entries of a burst in list order, up to the first that is refused: its code, the entries done, the module. -/
def burstGo (c : Fin 32) (run : Running) (op lva bva : Nat) : Nat → Nat → Mach → Nat × Nat × Mach
  | 0, k, m => (0, k, m)
  | n + 1, k, m =>
    let r := burstEntry c run op lva bva k m
    if r.1 = 0 then burstGo c run op lva bva n (k + 1) r.2 else (r.1, k, r.2)

/-- SPA_BURST_CMD with its OP and COUNT (R225, R226). -/
def spaBurst (c : Fin 32) (op count : Nat) (m : Mach) : Mach :=
  match coreRun m c with
  | none => m
  | some run =>
    let x := getSpa m c run.tag
    let lva := x.list.toNat
    let bva := x.buf.toNat
    let r : Nat × Nat × Mach :=
      if count = 0 ∨ 256 < count ∨ op = 0 ∨ 3 < op then (0x17, 0, m)
      else if lva % 8 ≠ 0 ∨ bva % 16 ≠ 0 then (0x16, 0, m)
      else burstGo c run op lva bva count 0 m
    onSpa c run.tag (fun x => { x with burstStatus := .ofNat 8 r.1, burstDone := r.2.1 }) r.2.2

def execSpaRead (core : Fin 32) (s : State) : Host.Outcome State Fault Refusal := runOn s (spaCmd core 1)
def execSpaWriteAuto (core : Fin 32) (s : State) : Host.Outcome State Fault Refusal := runOn s (spaCmd core 2)
def execSpaWriteExplicit (core : Fin 32) (s : State) : Host.Outcome State Fault Refusal := runOn s (spaCmd core 3)
def execSpaBurstRead (core : Fin 32) (count : BitVec 16) (s : State) : Host.Outcome State Fault Refusal :=
  runOn s (spaBurst core 1 (count.toNat % 512))
def execSpaBurstWriteAuto (core : Fin 32) (count : BitVec 16) (s : State) : Host.Outcome State Fault Refusal :=
  runOn s (spaBurst core 2 (count.toNat % 512))
def execSpaBurstWriteExplicit (core : Fin 32) (count : BitVec 16) (s : State) : Host.Outcome State Fault Refusal :=
  runOn s (spaBurst core 3 (count.toNat % 512))

/-- WINDOW_COMMIT: the clock reaches slot e + 3 of the core's oldest window with staged writes, and they commit (R217). -/
def execWindowCommit (core : Fin 32) (s : State) : Host.Outcome State Fault Refusal :=
  runOn s fun m =>
    match m.sig.windows.find? fun w => w.core == core.val with
    | none => m
    | some w => if computeRuns m then commitWindow w (advanceTo (commitAt m w.tick w.e) m) else m

-- Publication (R230 to R235)

/-- A binary32 or binary64 number differs by more than a deadband, or one of the two is a NaN (R230). -/
def beyond (ty : Nat) (deadband : F32) (a b : BitVec 64) : Bool :=
  if ty = 5 then
    let x := a.setWidth 32
    let y := b.setWidth 32
    if isNaN32 x || isNaN32 y then isNaN32 x != isNaN32 y
    else apart32 x y deadband
  else if isNaN64 a || isNaN64 b then isNaN64 a != isNaN64 b
  else apart64 a b deadband

/-- The deadband of a range at the tick that starts at an instant (R12). -/
def bandAt (r : Range) (t : Ns) : F32 := ((r.bands.find? (t < ·.1)).map (·.2)).getD r.deadband

/-- A member differs, at the tick that starts at an instant, from what the last message said of it (R230). -/
def memberChanged (sg : Signals) (t : Ns) (x : Nat × Nat) (old new : PVal) : Bool :=
  match rangeOf sg x.1 with
  | none => false
  | some r =>
    if x.2 = 0 then (if r.ty = 5 ∨ r.ty = 6 then beyond r.ty (bandAt r t) old.value new.value else old.value != new.value)
    else if x.2 = 1 then gooseQuality old.quality != gooseQuality new.quality
    else false

/-- The committed values of a block's members. -/
def memberVals (m : Mach) (e : PubEntry) : List PVal :=
  e.members.map fun x => ((pointAt m.sig x.1).map (·.v)).getD { value := 0, quality := 0, tfrac := 0, secLo := 0 }

/-- The slice that owns a block, or that owns the program that does; 0 for the CP. -/
def pubSlice (m : Mach) (e : PubEntry) : Nat :=
  if e.ownerKind = 1 then e.owner else if e.ownerKind = 2 then ((tget m.lge.progs e.owner).map (·.owner)).getD 0 else 0

/-- The member of a pair that is standby sends nothing of the process bus (R235); a module without a partner sends all. -/
def twinSends (m : Mach) : Bool := !m.twn.cfg.on || m.twn.role == .solo || (m.twn.role == .active && !m.twn.demoted)

/-- A standby, or an active that has met a newer epoch and is about to be one: its engine runs detection and numbering in full and
enqueues nothing (R415, R433; log entry 17). -/
def twinShadows (m : Mach) : Bool := m.twn.cfg.on && (m.twn.role == .standby || (m.twn.role == .active && m.twn.demoted))

/-- A block's messages of the tick that starts at an instant are numbered: its owner runs then (R12, R235; log entry 17). -/
def pubNumbered (m : Mach) (t : Ns) (e : PubEntry) : Bool :=
  computeReady m && (twinSends m || twinShadows m) && (pubSlice m e == 0 || sliceRan m (pubSlice m e) t)

/-- They are enqueued too (R235). -/
def pubAllowed (m : Mach) (t : Ns) (e : PubEntry) : Bool := pubNumbered m t e && twinSends m

/-- A state change of a block at the snapshot of the tick that starts at an instant (R230), or its first message (R233). What a block
owes since its messages were held back is due when they are numbered again (R235). -/
def stateChanged (m : Mach) (t : Ns) (b : Pub) (vals : List PVal) : Bool :=
  (b.force && pubNumbered m t b.entry) || match b.last with
    | none => true
    | some old => ((b.entry.members.zip old).zip vals).any fun x => memberChanged m.sig t x.1.1 x.1.2 x.2

/-- The retransmission curve of a block; one never set is as curve 0 after reset (log entry 17). -/
def curveOf (m : Mach) (e : PubEntry) : List Nat :=
  tgetD m.sig.curves e.curve [5, 10, 20, 40, 80, 160, 320, 640, 1280, 4800]

/-- The interval after the message at a position of the curve: the last repeats without end (R234). -/
def curveStep (c : List Nat) (pos : Nat) : Nat := c.getD (min pos (c.length - 1)) 1

/-- timeAllowedtoLive: twice the interval in ms, rounded up, at least 2 (R234). -/
def talOf (m : Mach) (ticks : Nat) : Nat := max 2 (cdiv (2000 * ticks) m.time.grid.rate)

/-- A block's message with its numbers (R232). -/
def pubMessage (m : Mach) (b : Pub) (vals : List PVal) (n : BitVec 32 × BitVec 32) (tal : Nat) : GoosePdu :=
  { appid := b.entry.appid, simulate := b.entry.flags.getLsbD 2, auth := none, ref := b.entry.ref, tal := tal,
    datSet := b.entry.datSet, goId := b.entry.goId, tSec := utcSec m b.t,
    tFrac := b.t % nsPerSec * 2 ^ 24 / nsPerSec, tq := b.tq, stNum := n.1, sqNum := n.2, confRev := b.entry.confRev,
    ndsCom := false, entries := b.entry.members.length,
    data := (b.entry.members.zip vals).map fun x => match rangeOf m.sig x.1.1 with
      | none => .bool false
      | some r => encodeMember m r x.1.2 x.2 }

/-- A number that wraps from 2^32 - 1 to 1 (R233). -/
def nextNum (n : BitVec 32) : BitVec 32 := if n.toNat = 2 ^ 32 - 1 then 1 else n + 1

/-- The 802.1Q tag of a block's messages. -/
def pubTag (e : PubEntry) : Option Nat := if e.vlan.getLsbD 15 then some (e.vlan.toNat % 2 ^ 15 / 2 ^ 12 * 2 ^ 13 + e.vlan.toNat % 4096) else none

/-- A port is enabled at the tick of an instant to come, counting the MAC_PORT_SETs accepted for that tick or an earlier one
(R235). -/
def portOnAt (m : Mach) (p : Nat) (t : Ns) : Bool :=
  let n := tickOf m.time.grid t
  let due := m.mbx.scheduled.filter fun c => c.code == 0x0A01 && rd 1 c.payload 0 == p && c.apply ≤ n
  let last := due.foldl (fun b c => if b.any fun x => c.apply < x.apply then b else some c) none
  match last with
  | some c => bit (rd 1 c.payload 1) 0
  | none => (getPort m p).any fun x => x.cfg.enabled

/-- A message of a block enqueued for launch at an instant on each of its enabled ports (R231, R235). -/
def enqueuePub (blk : Nat) (b : Pub) (vals : List PVal) (launch : Ns) (tal : Nat) (m : Mach) : Mach :=
  let num := tgetD m.sig.nums blk (0, 0)
  let ports := (List.range 8).filter fun p => b.entry.ports.getLsbD p
  let on := ports.filter fun p => portOnAt m p launch
  let trip := b.entry.flags.getLsbD 1
  let cls := if trip then 7 else 4
  let pdu := pubMessage m b vals num tal
  let f := if b.entry.flags.getLsbD 3 then signGoose m b.entry.key b.entry.dmac m.ident.mac (pubTag b.entry) pdu
    else gooseFrame b.entry.dmac m.ident.mac (pubTag b.entry) pdu
  let m := pubCount blk 3 (ports.length - on.length) m
  if on = [] then m
  else sendInner (innerFrame f cls 14 (on.map fun p => (p, cls)) true (some blk)
    (launchWord launch) (now m)) m

/-- A block rewritten. -/
def setPub (blk : Nat) (b : Pub) : Mach → Mach := onSig fun g => { g with pubs := tset g.pubs blk b }

/-- Λ of an assembly that is due: 12 µs after its D (R230). -/
def launchOfDue (d : AsmDue) : Ns := d.d + 12000

/-- A message of an assembly is enqueued and counted, or on a standby counted as not enqueued (R235, R415). -/
def pubSend (blk : Nat) (b : Pub) (vals : List PVal) (d : AsmDue) (step ctr : Nat) (m : Mach) : Mach :=
  if twinSends m then enqueuePub blk b vals (launchOfDue d) (talOf m step) (pubCount blk ctr 1 m) else pubCount blk 3 1 m

/-- A state change of a block at an assembly: stNum advances, sqNum is 0, the curve restarts (R233, R234). A message that R235
holds back is counted, and its change is announced by the first message after it (log entry 17). -/
def pubChange (blk : Nat) (b : Pub) (vals : List PVal) (d : AsmDue) (m : Mach) : Mach :=
  let step := curveStep (curveOf m b.entry) 0
  let b' := { b with last := some vals, pos := 0, next := some (d.tick + step) }
  if pubNumbered m d.t b.entry then
    let num := tgetD m.sig.nums blk (0, 0)
    let m := onSig (fun g => { g with nums := tset g.nums blk (nextNum num.1, 0) }) m
    let b' := { b' with m := d.tick, t := launchOfDue d, tq := timeQuality m.time, force := false }
    pubSend blk b' vals d step 0 (setPub blk b' m)
  else pubCount blk 3 1 (setPub blk { b' with force := true } m)

/-- A retransmission of a block at an assembly: the last message again with the next sqNum, and the curve moves on (R233, R234); one
that R235 holds back is counted, and the next message announces a change. -/
def pubRepeat (blk : Nat) (b : Pub) (vals : List PVal) (d : AsmDue) (m : Mach) : Mach :=
  let step := curveStep (curveOf m b.entry) (b.pos + 1)
  let b' := { b with pos := b.pos + 1, next := some (d.tick + step) }
  if pubNumbered m d.t b.entry then
    let num := tgetD m.sig.nums blk (0, 0)
    pubSend blk b' vals d step 1 (onSig (fun g => { g with nums := tset g.nums blk (num.1, nextNum num.2) }) (setPub blk b' m))
  else pubCount blk 3 1 (setPub blk { b' with force := true } m)

/-- What a block sends at an assembly. -/
inductive PubDue where
  | change (vals : List PVal)
  | again (vals : List PVal)
  deriving DecidableEq, Repr

/-- What a block owes at a tick: a state change, seen only while the engine runs, or a retransmission whose turn has come. -/
def owedAt (d : AsmDue) (m : Mach) (b : Pub) : Option PubDue :=
  let vals := memberVals m b.entry
  if !pubOn b.entry then none
  else if computeReady m && stateChanged m d.t b vals then some (.change vals)
  else if b.next.any (· ≤ d.tick) then b.last.map .again
  else none

/-- A message that is due is enqueued: that of a change, or a repetition of the last one. -/
def sendOwed (d : AsmDue) (x : (Nat × Pub) × PubDue) (m : Mach) : Mach := match x.2 with
  | .change vals => pubChange x.1.1 x.1.2 vals d m
  | .again vals => pubRepeat x.1.1 x.1.2 vals d m

/-- The GOOSE engine's snapshot at D(n): every enabled block is compared at once, and its messages due at Λ(n) are enqueued in order of block
index: the changes of trip-class blocks, their retransmissions, then the others' (R230, R231; log entry 17). -/
def gooseSnapshot (d : AsmDue) (m : Mach) : Mach :=
  let owed := m.sig.pubs.filterMap fun e => (owedAt d m e.2).map fun x => (e, x)
  let trip (x : (Nat × Pub) × PubDue) : Bool := x.1.2.entry.flags.getLsbD 1
  let change (x : (Nat × Pub) × PubDue) : Bool := match x.2 with
    | .change _ => true
    | .again _ => false
  let class_ (t c : Bool) := owed.filter fun x => trip x == t && change x == c
  forEach (class_ true true ++ class_ true false ++ class_ false true ++ class_ false false) (sendOwed d) m

/-- The first tick whose assembly is still to come. -/
def nextAssembly (m : Mach) : Tick := match m.time.asm with
  | [] => m.time.tick + 1
  | a :: _ => a.tick

/-- The instant of that assembly. -/
def nextAsmAt (m : Mach) : Ns := match m.time.asm with
  | [] => asmAt m (m.time.tick + 1)
  | a :: _ => a.d

-- Subscription (R236 to R238)

/-- Counter `i` of SIG_SUB_STATUS advanced. -/
def gsubCount (blk i : Nat) : Mach → Mach :=
  onSig fun g => { g with gsubs := tmap g.gsubs fun j b => if j = blk then { b with ctrs := bump b.ctrs i } else b }

/-- A subscribe block rewritten. -/
def setGsub (blk : Nat) (b : GSub) : Mach → Mach := onSig fun g => { g with gsubs := tset g.gsubs blk b }

/-- The subscribe block a message matches: on DMAC, APPID, gocbRef, and VLAN where selected, which takes precedence. -/
def matchGoose (m : Mach) (f : Frame) (p : GoosePdu) : Option (Nat × GSub) :=
  let vid := (f.tags.head?.map fun t => t.2 % 4096).getD 0
  let c := m.sig.gsubs.filter fun e => e.2.entry.dmac == f.dmac && e.2.entry.appid == p.appid && e.2.entry.ref == p.ref
  match c.find? fun e => e.2.entry.flags.getLsbD 1 && !f.tags.isEmpty && e.2.entry.vlan == vid with
  | some e => some e
  | none => c.find? fun e => !e.2.entry.flags.getLsbD 1

/-- Entry `k`'s encoding matches its member's role and type (R237). -/
def gvalFits (m : Mach) (x : Nat × Nat) (v : GVal) : Bool :=
  if x.2 = 3 then true
  else if x.2 = 0 then (rangeOf m.sig x.1).any fun r => (decodeValue r.ty r.len v).isSome
  else match v with
    | .bits l _ => x.2 == 1 && l == 13
    | .utc _ _ _ => x.2 == 2
    | .bool _ => false
    | .int _ _ => false
    | .uint _ => false
    | .f32 _ => false
    | .f64 _ => false

/-- The entry of a dataset with a role for a point. -/
def memberOf (e : GSubEntry) (data : List GVal) (pt role : Nat) : Option GVal :=
  ((e.members.zip data).find? fun x => x.1.1 == pt && x.1.2 == role).map (·.2)

/-- A point as an accepted message leaves it (R237): without a quality member it is good, without a timestamp member it has
the message's t; a simulated message sets TEST (R77). -/
def gooseMember (m : Mach) (b : GSubEntry) (p : GoosePdu) (pt : Nat) : Option PVal :=
  (rangeOf m.sig pt).bind fun r => (pointAt m.sig pt).map fun cur =>
    let v := ((memberOf b p.data pt 0).bind (decodeValue r.ty r.len)).getD cur.v.value
    let q : Nat := match memberOf b p.data pt 1 with
      | some (.bits _ x) => swapValidity x
      | some (.bool _) | some (.int _ _) | some (.uint _) | some (.f32 _) | some (.f64 _) | some (.utc _ _ _) | none => 0
    let st : Nat × Nat × BitVec 8 := match memberOf b p.data pt 2 with
      | some (.utc s f tq) => (s, f, tq)
      | some (.bool _) | some (.int _ _) | some (.uint _) | some (.f32 _) | some (.f64 _) | some (.bits _ _) | none =>
        (p.tSec, p.tFrac, p.tq)
    let q := BitVec.ofNat 32 q ||| (if p.simulate then qTest else 0)
    { value := v, quality := withTq q st.2.2, tfrac := .ofNat 32 (st.2.1 * 256),
      secLo := .ofInt 32 (taiSec m st.1) }

/-- The member points of a block committed at once (R220, R237). -/
def commitGoose (b : GSubEntry) (p : GoosePdu) (m : Mach) : Mach :=
  let pts := ((b.members.filter fun x => x.2 != 3).map (·.1)).eraseDups
  let vals := pts.map fun i => (i, gooseMember m b p i)
  forEach vals (fun x m => match x.2 with
    | none => m
    | some v => putPoint x.1 v m) m

/-- A sequence number after another: 1 counts as after 2^32 - 1 (R237). -/
def sqAfter (a b : BitVec 32) : Bool := a.toNat < b.toNat || (a.toNat == 2 ^ 32 - 1 && b.toNat == 1)

/-- Steps 1 to 4 of R237 for a message that has matched and passed authentication and simulation. -/
def acceptGoose (i : Nat) (b : GSub) (g : GooseIn) (p : GoosePdu) (m : Mach) : Mach :=
  let e := b.entry
  if p.confRev ≠ e.confRev ∨ p.ndsCom ∨ p.entries ≠ e.members.length ∨ p.data.length ≠ e.members.length then gsubCount i 6 m
  else if !((e.members.zip p.data).all fun x => gvalFits m x.1 x.2) then gsubCount i 7 m
  else
    let first := !b.heard || b.expired
    let expiry := some (g.ts + p.tal * 1000000)
    let sim := b.inSim || p.simulate
    if b.heard && p.stNum == b.st && !sqAfter b.sq p.sqNum then gsubCount i 2 m
    else
      let m := if p.simulate && !b.inSim then raise 0x0306 0 (fields [(2, i), (6, 0)]) m else m
      if !first && p.stNum == b.st then
        let m := setGsub i { b with sq := p.sqNum, expiry := expiry, inSim := sim } m
        let m := gsubCount i 1 m
        if b.data != p.data then gsubCount i 4 m else m
      else
        let jump := !first && p.stNum != nextNum b.st
        let m := setGsub i { b with
          st := p.stNum, sq := p.sqNum, heard := true, expired := false, expiry := expiry, inSim := sim, data := p.data } m
        let m := gsubCount i 0 m
        let m := if jump then raise 0x0803 0 (fields [(2, i), (2, 0), (4, b.st.toNat), (4, p.stNum.toNat)]) (gsubCount i 3 m) else m
        let m := if b.expired then raise 0x0802 0 (fields [(2, i), (6, 0)]) m else m
        commitGoose e p m

/-- The steps before R237: match, port, authentication and simulation (R236). -/
def takeGoose (g : GooseIn) (m : Mach) : Mach :=
  match g.frame.body with
  | .goose p =>
    (match matchGoose m g.frame p with
      | none => m
      | some (i, b) =>
        if !gsubOn b.entry || !b.entry.ports.getLsbD g.port then m
        else
          let auth := if b.entry.flags.getLsbD 2 then authCheck m b.entry.key g.frame p.auth else .pass
          if auth ≠ .pass then
            let m := gsubCount i 8 m
            if b.authFail then m
            else raise 0x0804 0 (fields [(2, i), (6, 0)]) (onSig (fun s => { s with gsubs := tmap s.gsubs fun j x =>
              if j = i then { x with authFail := true } else x }) m)
          else
            let m := if b.authFail then raise 0x0805 0 (fields [(2, i), (6, 0)]) m else m
            let b := { b with authFail := false }
            let m := setGsub i b m
            if p.simulate && !b.entry.flags.getLsbD 3 then gsubCount i 9 m
            else if !p.simulate && b.inSim then gsubCount i 9 m
            else acceptGoose i b g p m)
  | .sv _ => m
  | .ptp _ => m
  | .raw => m

/-- GOOSE_RECEIVE: the engine takes the oldest message steered to it (R236, R237). -/
def execGooseReceive (s : State) : Host.Outcome State Fault Refusal :=
  runOn s fun m =>
    match m.sig.inbox with
    | [] => m
    | g :: rest =>
      let m := onSig (fun x => { x with inbox := rest }) m
      if computeReady m then takeGoose g m else m

/-- A member point at expiry: its value stays, its quality is invalid with oldData (R238). -/
def expirePoint (i : Nat) (m : Mach) : Mach :=
  match pointAt m.sig i with
  | none => m
  | some p => putPoint i (stamped p.v.value (setValidity p.v.quality 1 ||| qOldData) (now m) (timeQuality m.time)) m

/-- GOOSE_SUPERVISION_EXPIRE: the clock reaches the end of a block's timeAllowedtoLive (R238). -/
def execGooseSupervisionExpire (blk : Fin 4096) (s : State) : Host.Outcome State Fault Refusal :=
  runOn s fun m =>
    match tget m.sig.gsubs blk with
    | none => m
    | some b =>
      match b.expiry with
      | none => m
      | some t =>
        if !gsubOn b.entry || !computeReady m then m
        else
          let m := advanceTo t m
          let m := gsubCount blk 5 (setGsub blk { b with expiry := none, expired := true } m)
          let pts := ((b.entry.members.filter fun x => x.2 != 3).map (·.1)).eraseDups
          raise 0x0801 0 (fields [(2, blk), (6, 0)]) (forEach pts expirePoint m)

end Sys2Proof.Machine
end

