-- ==== Sys2Proof/Machine/Dsp.lean ====
section
/-! DEFINITION. The dispatcher: lists, work items, the lattice, grants, aborts and cancels (chapter 07). -/
namespace Sys2Proof.Machine
open Sys2Proof

-- The lattice (R186)

/-- An entry after reset: the system at slots 0 to 15, free elsewhere. -/
def latDefault (slot : Nat) : BitVec 16 := if slot < 16 then 0x0000 else 0x00FF

/-- The key of an entry. -/
def latKey (page core slot : Nat) : Nat := page * 8192 + core * 256 + slot

/-- Entry of a page, core and slot. -/
def latEntry (l : Lattice) (page core slot : Nat) : BitVec 16 := tgetD l.entries (latKey page core slot) (latDefault slot)

/-- An entry set; one that stands as after reset is not listed. -/
def latSet (l : Lattice) (page core slot : Nat) (e : BitVec 16) : Lattice :=
  { l with entries :=
      if e = latDefault slot then terase l.entries (latKey page core slot)
      else tset l.entries (latKey page core slot) e }

/-- OWNER and SGROUP of an entry. -/
def latOwner (e : BitVec 16) : Nat := bits e.toNat 7 0
def latGroup (e : BitVec 16) : Nat := bits e.toNat 11 8

/-- OWNER names a slice. -/
def ownsSlice (e : BitVec 16) : Bool := 1 ≤ latOwner e && latOwner e ≤ 64

/-- The entries of a core in a page. -/
def latRow (l : Lattice) (page core : Nat) : List (BitVec 16) := (List.range 256).map (latEntry l page core)

/-- Two neighbouring slots belong to one window, or to one slack window (R186). -/
def sameWindow (a b : BitVec 16) : Bool :=
  if ownsSlice a then latOwner a == latOwner b
  else latOwner a == 0xFF && latOwner b == 0xFF && latGroup a != 0 && latGroup a == latGroup b

/-- How many slots from the head of a row on stay in the head's window. -/
def windowRun : List (BitVec 16) → Nat
  | [] => 0
  | [_] => 1
  | a :: b :: r => if sameWindow a b then windowRun (b :: r) + 1 else 1

/-- The page that governs a tick. -/
def pageOf (l : Lattice) (n : Tick) : Nat := n % max 1 l.period

/-- The lengths of a slice's windows in a row, each counted from its first slot. -/
def windowLengths (tag : Nat) : Option (BitVec 16) → List (BitVec 16) → List Nat
  | _, [] => []
  | prev, a :: r =>
    let rest := windowLengths tag (some a) r
    if latOwner a == tag && !(prev.any fun b => sameWindow b a) then windowRun (a :: r) :: rest else rest

/-- A slice holds in every page a window of at least `k` slots (R160). -/
def latServes (l : Lattice) (tag k : Nat) : Bool :=
  (List.range (max 1 l.period)).all fun p => (List.range 32).any fun c =>
    (windowLengths tag none (latRow l p c)).any fun n => k ≤ n

/-- The slices of a slack group (R189). -/
def groupSlices (l : Lattice) (g : Nat) : List Nat :=
  (l.entries.filterMap fun e => if ownsSlice e.2 && latGroup e.2 == g && g != 0 then some (latOwner e.2) else none).eraseDups

/-- Slices with a window in a slack group of the lattice. -/
def slackSlices (l : Lattice) : List Nat := (List.range 15).flatMap fun g => groupSlices l (g + 1)

/-- The slices whose windows differ between two lattices. -/
def latChanged (a b : Lattice) : List Nat :=
  ((List.range 8).flatMap fun p => (List.range 32).flatMap fun c => (List.range 240).flatMap fun j =>
    let x := latOwner (latEntry a (pageOf a p) c (j + 16))
    let y := latOwner (latEntry b (pageOf b p) c (j + 16))
    if x = y then [] else [x, y].filter fun t => 1 ≤ t && t ≤ 64).eraseDups

/-- The slots of some slices become free (SLC_REMOVE; R188). -/
def latFree (gone : Nat → Bool) (l : Lattice) : Lattice :=
  { l with entries := l.entries.filter fun e => !(ownsSlice e.2 && gone (latOwner e.2)) }

-- The guarantee (R166)

/-- Causes for which the guarantee is suspended for a slice, bit i for row i of R166. -/
def causesOf (m : Mach) (tag : Nat) (s : Slice) : BitVec 4 :=
  let tenants := ((tget m.cpu.hues s.hue).map (·.tenants.toNat)).getD 0
  .ofNat 4 (b2n (m.cpu.lattice.shared && (slackSlices m.cpu.lattice).contains tag) +
    2 * b2n (tenants &&& (tenants - 1) != 0) + 4 * b2n m.dom.memError + 8 * b2n m.dom.warning)

/-- A mask of slice tags, bit t − 1 for tag t. -/
def tagMask (l : List Nat) : Nat := (l.map fun t => 2 ^ (t - 1)).sum

/-- One cause's suspensions and restorations reported (R166, R177). -/
def guaranteeEvent (code cause : Nat) (tags : List Nat) (m : Mach) : Mach :=
  if tags.isEmpty then m else raise code 0 (fields [(1, cause), (7, 0), (8, tagMask tags)]) m

/-- The guarantee judged again for every slice; each change is reported (R166). -/
def guarantee (m : Mach) : Mach :=
  let old := m.cpu.slices
  let new := tmap old fun t s => { s with suspended := causesOf m t s }
  let m1 := onCpu (fun c => { c with slices := new }) m
  forEach (List.range 4) (fun i m =>
    let on (l : Tab Slice) (t : Nat) : Bool := (tget l t).any fun s => s.suspended.getLsbD i
    let tags := old.map (·.1)
    guaranteeEvent 0x0603 i (tags.filter fun t => on old t && !on new t)
      (guaranteeEvent 0x0602 i (tags.filter fun t => !on old t && on new t) m)) m1

-- Lists (R182 to R185)

/-- The key of a ready list. -/
def readyKey (tag prio : Nat) : Nat := tag * 16 + prio

def getReady (m : Mach) (tag prio : Nat) : List Item := tgetD m.cpu.ready (readyKey tag prio) []
def getDelay (m : Mach) (tag : Nat) : List Item := tgetD m.cpu.delay tag []

/-- A list of the table replaced; an empty one is not listed. -/
def putList (t : Tab (List Item)) (k : Nat) (l : List Item) : Tab (List Item) := if l.isEmpty then terase t k else tset t k l

def setReady (tag prio : Nat) (l : List Item) : Mach → Mach :=
  onCpu fun c => { c with ready := putList c.ready (readyKey tag prio) l }
def setDelay (tag : Nat) (l : List Item) : Mach → Mach := onCpu fun c => { c with delay := putList c.delay tag l }

/-- Items of a slice on its ready lists, highest priority first. -/
def readyItems (m : Mach) (tag : Nat) : List Item := (List.range 16).flatMap (getReady m tag)

/-- Items of a slice on its lists. -/
def listedItems (m : Mach) (tag : Nat) : List Item := readyItems m tag ++ getDelay m tag

/-- Entries charged against READY_MIN: every listed item but the frame-ready ones (R182). -/
def charged (m : Mach) (tag : Nat) : Nat := ((listedItems m tag).filter fun i => i.src != .frame).length

/-- Entries that cancels of the present dispatcher cycle have freed, of delayed items alone where asked: the cycle's ready operations come
before its cancels, so they are not free for them yet (R184). -/
def freedNow (m : Mach) (tag : Nat) (delayed : Bool) : Nat :=
  ((((getSlice m tag).map (·.freed)).getD []).filter fun x => x.1 == m.time.ref && (x.2 || !delayed)).length

/-- READY_MIN of a slice (R155), and its delay quota (R183). -/
def readyMin (m : Mach) (tag : Nat) : Nat := ((getSlice m tag).map (·.readyMin)).getD 0
def delayQuota (m : Mach) (tag : Nat) : Nat := min (readyMin m tag) 256

/-- No entry is free for another item of a slice (R182). -/
def listsFull (m : Mach) (tag : Nat) : Bool := readyMin m tag ≤ charged m tag + freedNow m tag false

/-- The dispatcher cycle of the next slot boundary has come: the clock has reached its instant, and no change of the grid is due
there. What cores write before SLOT_BOUNDARY or TICK_BOUNDARY ends the cycle with its grants falls into this cycle (R184). -/
def boundaryCycle (m : Mach) : Bool :=
  clockRuns m && m.time.gridOn && decide (slotAt m m.time.tick (m.time.slot + 1) ≤ now m) &&
    (m.time.slot < 255 || (m.time.rateChange.isNone && m.time.run.step.isNone && !(m.mbx.scheduled.any fun c => c.code == 0x0211)))

/-- The slot index that operations of the present dispatcher cycle are judged by (R184, R185). -/
def cycleIndex (m : Mach) : Nat := slotIndex m + b2n (boundaryCycle m)

-- The status pair of a core and slice (R196)

def pairInit : DspPair := { submit := .ofNat 64 (0x7F * 2 ^ 56), cancel := .ofNat 64 (0x7F * 2 ^ 56) }
def pairKey (core tag : Nat) : Nat := core * 128 + tag
def getPair (m : Mach) (core tag : Nat) : DspPair := tgetD m.cpu.pairs (pairKey core tag) pairInit
def onPair (core tag : Nat) (f : DspPair → DspPair) : Mach → Mach :=
  onCpu fun c => { c with pairs := tmod c.pairs (pairKey core tag) pairInit f }

/-- A status register: code and handle. -/
def statusWord (code : Nat) (h : BitVec 56) : BitVec 64 := .ofNat 64 (code * 2 ^ 56 + h.toNat)

/-- The handle a status register names. -/
def statusHandle (v : BitVec 64) : BitVec 56 := .ofNat 56 v.toNat

/-- The submitter's status follows the item through its life (R202). -/
def followItem (tag : Nat) (i : Item) (code : Nat) (m : Mach) : Mach :=
  if i.src == .slice && statusHandle (getPair m i.core tag).submit == i.handle then
    onPair i.core tag (fun p => { p with submit := statusWord code i.handle }) m
  else m

/-- The place of a ready operation in its dispatcher cycle, releases being first: submissions by core, then what engines post, assembly
before the others, then what the CP posts (R184). -/
def cycleRank (i : Item) : Nat := match i.src with
  | .slice => 1 + i.core
  | .frame => 33
  | .engine => 34
  | .cp => 35

/-- An item comes before another that became ready or delayed in the same dispatcher cycle (R184). -/
def sooner (a b : Item) : Bool := a.cyc == b.cyc && decide (a.rank < b.rank)

/-- An item made ready in the present dispatcher cycle: it goes to the tail of its list, before those the same cycle's later operations
have put there (R184). -/
def makeReady (tag : Nat) (i : Item) (m : Mach) : Mach := setReady tag i.prio (linsert sooner i (getReady m tag i.prio)) m

/-- An item enters a list of a slice: it is given its handle and goes to the tail of its ready list, or among the delay
lists by due slot and then by entry (R180, R185). -/
def enterItem (tag : Nat) (i : Item) (m : Mach) : BitVec 56 × Mach :=
  match getSlice m tag with
  | none => (0, m)
  | some s =>
    let i := { i with handle := s.nextHandle, cyc := m.time.ref, rank := cycleRank i }
    let m := onSlice tag (fun s => { s with nextHandle := if s.nextHandle + 1 = 0 then 1 else s.nextHandle + 1 }) m
    let m := if i.due ≤ cycleIndex m then makeReady tag i m
      else setDelay tag (linsert (fun a b => decide (a.due < b.due) || (a.due == b.due && sooner a b)) i (getDelay m tag)) m
    (i.handle, m)

/-- A ring is armed again when its completion item leaves the lists (R305). -/
def rearm (i : Item) (m : Mach) : Mach :=
  match i.ring with
  | none => m
  | some r => onRing r (fun x => { x with armed := true }) m

/-- An item leaves the lists of its slice. -/
def dropItem (tag : Nat) (i : Item) (m : Mach) : Mach :=
  let keep (l : List Item) : List Item := l.filter fun x => x.handle != i.handle
  let m := rearm i m
  setDelay tag (keep (getDelay m tag)) (setReady tag i.prio (keep (getReady m tag i.prio)) m)

/-- Every listed item of a slice withdrawn and counted, as at its reset (R174). -/
def withdrawItems (tag : Nat) (m : Mach) : Nat × Mach :=
  let l := listedItems m tag
  let m := forEach l (fun i m => dropItem tag i (followItem tag i 6 m)) m
  (l.length, onSlice tag (fun s => { s with
    dspCtrs := bumpBy s.dspCtrs 8 l.length
    ctrs := bumpBy s.ctrs 2 l.length }) m)

/-- A handler of a slice. -/
def handlerOf (m : Mach) (tag h : Nat) : Option Handler := (getSlice m tag).bind fun s => s.handlers[h]?

-- Engine and CP items (R182, R305, R464)

/-- A handler takes no item: the slice does not run, the handler is out of range, or it is disabled (R28, R150). -/
def noHandler (m : Mach) (tag h : Nat) : Bool := !(sliceRuns m tag && (handlerOf m tag h).any (·.enabled))

/-- An item an engine or the CP makes for a handler. -/
def engineItem (m : Mach) (tag h : Nat) (src : ItemSrc) (arg0 arg1 : Nat) (ring : Option Nat) : Item :=
  let hd := handlerOf m tag h
  { handle := 0, handler := h, prio := (hd.map (·.prio)).getD 0, src := src, cost := (hd.map (·.cost)).getD 1, due := 0,
    arg0 := .ofNat 64 arg0, arg1 := .ofNat 64 arg1, core := 0, ring := ring, frame := none, cyc := 0, rank := 0 }

/-- An item an engine or the CP posts: refused and counted, held while the slice is full, or entered (R28, R182). -/
def postItem (tag h : Nat) (src : ItemSrc) (arg0 arg1 : Nat) (ring : Option Nat) (m : Mach) : Mach :=
  if noHandler m tag h then (if sliceThere m tag then dspCount tag 5 m else m)
  else
    let i := engineItem m tag h src arg0 arg1 ring
    if listsFull m tag then
      let m := onCpu (fun c => { c with held := c.held ++ [{ tag := tag, item := i }] }) m
      if src == .engine then raise 0x0704 tag (fields [(1, tag), (1, ring.getD 0xFF), (2, h), (4, 0)]) m else m
    else (enterItem tag i m).2

/-- The oldest held item of a slice and source. -/
def heldItem (m : Mach) (tag : Nat) (src : ItemSrc) : Option HeldItem :=
  m.cpu.held.find? fun x => x.tag == tag && x.item.src == src

/-- A held item whose handler takes no item any more is refused and counted, for a ring on the ring too, which is armed again
(R28, R305). -/
def refuseHeld (tag : Nat) (i : Item) (m : Mach) : Mach :=
  let m := dspCount tag 5 m
  match i.ring with
  | none => m
  | some r => onRing r (fun x => { x with armed := true, ctrs := bump x.ctrs 10 }) m

/-- One held item tried: it enters once the slice has a free entry, and is refused where its handler takes no item any more. -/
def tryHeld (x : HeldItem) (m : Mach) : Mach :=
  let m1 := onCpu (fun c => { c with held := c.held.erase x }) m
  if noHandler m x.tag x.item.handler then refuseHeld x.tag x.item m1
  else if listsFull m x.tag then m
  else (enterItem x.tag x.item m1).2

/-- An engine's held item enters as soon as the slice has a free entry (R182). -/
def releaseHeld (tag : Nat) (src : ItemSrc) (m : Mach) : Mach :=
  match heldItem m tag src with
  | none => m
  | some x => tryHeld x m

/-- The CP tries the items of its own queue once a tick, oldest first (R182). -/
def retryHeld (m : Mach) : Mach := forEach (m.cpu.held.filter fun x => x.item.src != .engine) tryHeld m

/-- ENGINE_ITEM_STALL_RELEASE: an entry of the slice is free and the engine's held item enters (R182, R306). -/
def execEngineItemStallRelease (tag : Fin 65) (s : State) : Host.Outcome State Fault Refusal :=
  runOn s fun m => if computeReady m then releaseHeld tag.val .engine m else m

-- Submitting and cancelling (R195 to R203)

/-- The work item at an address of a slice (R179); the handle comes at entry. -/
def itemAt (m : Mach) (tag va core : Nat) : Item :=
  let b := slcGet m tag va 32
  let h := rd 2 b 0
  { handle := 0, handler := h, prio := rd 1 b 3 % 16, src := .slice,
    cost := max (rd 2 b 4) (((handlerOf m tag h).map (·.cost)).getD 0), due := rd 8 b 8, arg0 := .ofNat 64 (rd 8 b 16),
    arg1 := .ofNat 64 (rd 8 b 24), core := core, ring := none, frame := none, cyc := 0, rank := 0 }

/-- The reason a submission is refused, 0 when it is not (R202). -/
def submitRefusal (m : Mach) (tag : Nat) (s : Slice) (va core : Nat) : Nat :=
  let b := slcGet m tag va 32
  let i := itemAt m tag va core
  firstFail [
    (s.state != .running, 0x82),
    (va % 32 != 0 || !spanOk s va 32 0, 0x87),
    (rd 1 b 3 / 16 % 4 != 0 || !zeros b 6 2, 0x84),
    (!(handlerOf m tag i.handler).any (·.enabled), 0x83),
    (s.minSlots < i.cost, 0x85),
    (cycleIndex m + 16777216 < i.due, 0x86),
    (listsFull m tag, 0x80),
    (cycleIndex m < i.due && delayQuota m tag ≤ (getDelay m tag).length + freedNow m tag true, 0x81)]

/-- Delayed items whose due slot has come by slot index `k` go to the tails of their ready lists (R185). -/
def releaseDue (k tag : Nat) (m : Mach) : Mach :=
  let due := (getDelay m tag).filter fun i => i.due ≤ k
  forEach due (fun i m =>
    followItem tag i 0 (makeReady tag { i with cyc := m.time.ref, rank := 0 }
      (setDelay tag ((getDelay m tag).filter fun x => x.handle != i.handle) m))) m

/-- The releases of a slot boundary, which come first in its cycle (R184). -/
def releaseAll (k : Nat) (m : Mach) : Mach := forEach (m.cpu.delay.map (·.1)) (releaseDue k) m

/-- An operation of a core in its dispatcher cycle: in that of a slot boundary the releases have come first (R184). -/
def inCycle (f : Mach → Mach) (m : Mach) : Mach := f (if computeReady m && boundaryCycle m then releaseAll (cycleIndex m) m else m)

/-- A core's item submits the work item at an address (R198, R202). -/
def submitItem (core tag va : Nat) (m : Mach) : Mach :=
  match getSlice m tag with
  | none => m
  | some s =>
    let r := submitRefusal m tag s va core
    if r ≠ 0 then
      let m := onPair core tag (fun p => { p with submit := statusWord r 0 }) m
      let m := dspCount tag (if r = 0x80 then 3 else if r = 0x81 then 4 else 5) m
      if r = 0x80 then raiseQuiet 0x0703 tag tag (fields [(1, tag), (7, 0)]) m else m
    else
      let i := itemAt m tag va core
      let e := enterItem tag i m
      onPair core tag (fun p => { p with submit := statusWord (if i.due ≤ cycleIndex m then 0 else 1) e.1 }) e.2

/-- DSP_SUBMIT: the item a core runs writes the address of a work item (R198). -/
def execDspSubmit (core : Fin 32) (va : BitVec 64) (s : State) : Host.Outcome State Fault Refusal :=
  runOn s fun m => match coreRun m core with
    | none => m
    | some r => inCycle (submitItem core.val r.tag va.toNat) m

/-- A handle names an item of a slice that some core runs. -/
def runsHandle (m : Mach) (tag : Nat) (h : BitVec 56) : Bool :=
  m.cpu.cores.any fun c => c.run.any fun r => r.tag == tag && r.item.handle == h

/-- A cancel frees an item's entry at the end of its dispatcher cycle's ready operations (R184). -/
def noteFreed (tag : Nat) (i : Item) (delayed : Bool) (m : Mach) : Mach :=
  if i.src == .frame then m
  else onSlice tag (fun s => { s with freed := s.freed.filter (·.1 == m.time.ref) ++ [(m.time.ref, delayed)] }) m

/-- A cancel by a core's item (R195, R203). -/
def cancelItem (core tag : Nat) (h : BitVec 56) (m : Mach) : Mach :=
  let answer (code : Nat) (m : Mach) : Mach := onPair core tag (fun p => { p with cancel := statusWord code h }) m
  if sliceResets m tag then answer 0x12 m
  else match (listedItems m tag).find? fun i => i.handle == h with
    | some i =>
      let delayed := (getDelay m tag).any fun x => x.handle == h
      answer (b2n delayed) (dspCount tag 6 (followItem tag i 5 (noteFreed tag i delayed (dropItem tag i m))))
    | none => if runsHandle m tag h then answer 0x10 (dspCount tag 7 m) else answer 0x11 m

/-- DSP_CANCEL: the item a core runs writes a handle (R195). -/
def execDspCancel (core : Fin 32) (v : BitVec 64) (s : State) : Host.Outcome State Fault Refusal :=
  runOn s fun m => match coreRun m core with
    | none => m
    | some r => inCycle (cancelItem core.val r.tag (statusHandle v)) m

-- Completion, faults and aborts (R173, R193, R194)

/-- The core's item completes, and its read of DSP_FETCH is pending (R190, R193). -/
def completeItem (core : Fin 32) (code : Nat) (m : Mach) : Mach :=
  match (getCore m core).run with
  | none => onCore core (fun c => { c with fetching := true }) m
  | some r => onCore core (fun c => { c with fetching := true, run := none })
      (followItem r.tag r.item code (dspCount r.tag 1 m))

/-- DSP_FETCH: the read completes the core's item and stays pending until the next grant (R190, R193). -/
def execDspFetch (core : Fin 32) (s : State) : Host.Outcome State Fault Refusal :=
  runOn s fun m => if computeReady m then completeItem core 3 m else m

/-- A fault or an abort of a slice counted toward FLIM; when it is reached the slice is reset with restart at the next
tick boundary (R173). -/
def countFault (tag : Nat) (m : Mach) : Mach :=
  let t := now m
  onSlice tag (fun s =>
    let l := (s.faults ++ [t]).filter fun x => t < x + nsPerSec
    { s with
      faults := l
      resetAt :=
        if s.flim ≠ 0 ∧ s.flim ≤ l.length ∧ s.state ≠ .resetting ∧ s.resetAt = none then some (m.time.tick + 1) else s.resetAt }) m

/-- A handler fault: the item is aborted at once (R173). -/
def faultItem (core : Fin 32) (addr : Nat) (m : Mach) : Mach :=
  match coreRun m core with
  | none => m
  | some r =>
    raise 0x0606 r.tag (fields [(1, r.tag), (1, core.val), (2, r.item.handler), (4, 0), (8, addr)])
      (countFault r.tag (slcCount r.tag 0 (completeItem core 4 m)))

/-- HANDLER_FAULT: a refused access, a bad instruction or an unaligned access to the slice window (R148, R173). -/
def execHandlerFault (core : Fin 32) (addr : BitVec 64) (s : State) : Host.Outcome State Fault Refusal :=
  runOn s (faultItem core addr.toNat)

/-- The item of a core is aborted for window overrun (R194). -/
def abortItem (core : Fin 32) (m : Mach) : Mach :=
  match (getCore m core).run with
  | none => m
  | some r =>
    raise 0x0701 r.tag (fields [(1, r.tag), (1, core.val), (2, r.item.handler), (2, lastSlotOf r.e), (2, 0)])
      (countFault r.tag (slcCount r.tag 1 (dspCount r.tag 2 (completeItem core 4 m))))

/-- The item's window is closed: the slot has come at whose boundary it is aborted (R194). -/
def overrun (m : Mach) (r : Running) : Bool := r.tick * 256 + closeSlot r.e ≤ slotIndex m

-- Grants (R189 to R192)

/-- A slice whose items may be granted: running, or stopped and draining, and not held as the twin's image (R191, R205, R426). -/
def servable (m : Mach) (tag : Nat) : Bool :=
  (getSlice m tag).any fun s => (s.state == .running || s.state == .stopped) && !m.twn.held.getLsbD (tag - 1)

/-- The first head item, highest priority first, whose effective cost fits. -/
def fitting (m : Mach) (tag rem : Nat) : Option Item :=
  (List.range 16).findSome? fun p => (getReady m tag p).head?.bind fun i => if i.cost ≤ rem then some i else none

/-- The borrower of a slack group: highest priority, then lowest tag (R189). -/
def borrower (m : Mach) (g rem : Nat) : Option (Nat × Item) :=
  ((groupSlices m.cpu.lattice g).filter (servable m)).foldl (fun best t =>
    match fitting m t rem, best with
    | none, b => b
    | some i, none => some (t, i)
    | some i, some b => if i.prio < b.2.prio || (i.prio == b.2.prio && t < b.1) then some (t, i) else some b) none

/-- What a core is granted at the boundary of slot `j` of tick `n`: slice, item, last slot of the window, whether it is
borrowed (R191). -/
def grantFor (m : Mach) (core n j : Nat) : Option (Nat × Item × Nat × Bool) :=
  let l := m.cpu.lattice
  let row := (latRow l (pageOf l n) core).drop j
  match row.head? with
  | none => none
  | some e =>
    let slack := latOwner e == 0xFF && latGroup e != 0
    if !ownsSlice e && !slack then none
    else
      let rem := windowRun row
      let last := j + rem - 1
      let own := if ownsSlice e && servable m (latOwner e) then fitting m (latOwner e) rem else none
      match own with
      | some i => some (latOwner e, i, last, false)
      | none =>
        if l.shared && latGroup e != 0 then
          (borrower m (latGroup e) rem).map fun x => (x.1, x.2, last, true)
        else none

/-- A core is granted an item: it leaves its list and the core takes the slice's context (R148, R192). -/
def grantItem (core : Fin 32) (n : Tick) (tag : Nat) (i : Item) (e : Nat) (lent : Bool) (m : Mach) : Mach :=
  let reads := ((getSlice m tag).map (·.reads)).getD []
  let r : Running :=
    { tag := tag, item := i, tick := n, e := e, borrowed := lent, reads := reads, startNs := slotAt m n m.time.slot + 96 }
  let last := (getCore m core).lastTag
  let m := if last = tag then m else onTime (fun t => { t with latch := terase t.latch core.val }) m
  let m := followItem tag i 2 (dspCount tag 0 (dropItem tag i m))
  onCore core (fun c => { c with fetching := false, run := some r, lastTag := tag, rdata := i.handle.setWidth 64 }) m

/-- The grants of a slot boundary, in ascending core number (R191). -/
def grantCore (n j : Nat) (core : Fin 32) (m : Mach) : Mach :=
  if (getCore m core).fetching then
    match grantFor m core.val n j with
    | none => m
    | some g => grantItem core n g.1 g.2.1 g.2.2.1 g.2.2.2 m
  else m

/-- The cores in ascending order. -/
def allCores : List (Fin 32) := List.finRange 32

/-- A slot in which a borrowed item runs counts as lent by the window's owner (R206). -/
def countLent (n j : Nat) (m : Mach) : Mach :=
  forEach allCores (fun c m => match (getCore m c).run with
    | none => m
    | some r =>
      let e := latEntry m.cpu.lattice (pageOf m.cpu.lattice n) c.val j
      if r.borrowed && r.tick == n && j ≤ r.e && ownsSlice e then dspCount (latOwner e) 9 m else m) m

/-- Windows of which the commit instant has come commit their staged writes (R217). -/
def commitDue (m : Mach) : Mach :=
  forEach (m.sig.windows.filter fun w => w.tick * 256 + closeSlot w.e ≤ slotIndex m) commitWindow m

/-- A line as the mirror captures it: slice, region, offset and bytes. -/
def lineOf (m : Mach) (x : Dirty) : Option (Nat × Nat × Nat × Bytes) :=
  (getSlice m x.tag).bind fun s =>
    ((s.regions.zip (List.range s.regions.length)).find? fun r => r.1.mirrored && r.1.vbase ≤ x.va && x.va < r.1.vbase + r.1.size).map
      fun r => (x.tag, r.2, x.va - r.1.vbase, slcGet m x.tag x.va 64)

/-- Lines written in windows whose commit instant has come are captured (R422). -/
def captureLines (m : Mach) : Mach :=
  let due := m.twn.dirty.filter fun x => x.close ≤ slotIndex m
  if due = [] then m
  else onTwn (fun x => { x with
    dirty := x.dirty.filter fun y => slotIndex m < y.close
    lines := due.foldl (fun l y => match lineOf m y with
      | none => l
      | some z => l.filter (fun w => !(w.1 == z.1 && w.2.1 == z.2.1 && w.2.2.1 == z.2.2.1)) ++ [z]) x.lines }) m

/-- What the dispatcher does in the cycle of a slot boundary: releases, the CP's retries once a tick, then aborts and grants (R182, R184,
R191, R194). The operations of that cycle that stand between them are those given while the clock stands at the boundary, before this row
(`inCycle`; log entry 73). -/
def dispatchSlot (m : Mach) : Mach :=
  if !computeReady m then m
  else
    let n := m.time.tick
    let j := m.time.slot
    let m := releaseAll (slotIndex m) m
    let m := if j = 0 then retryHeld m else m
    let m := forEach allCores (fun c m => if (getCore m c).run.any (overrun m) then abortItem c m else m) m
    let m := captureLines (commitDue m)
    countLent n j (forEach allCores (grantCore n j) m)

/-- The pending offset-add is applied in the cycle in which slot 3 begins, after the slot-3 boundary; launches it passes are late
(R34). -/
def applyOffset (m : Mach) : Mach :=
  match m.time.offPending with
  | none => m
  | some d =>
    passLaunches (now m) (onTime (fun t =>
      { t with
        clock := clockOf (((clockTotal t.clock : Int) + d * 2 ^ 40).toNat)
        offPending := none
        adds := t.adds + 1 }) m)

/-- The next slot of the tick begins, in the first cycle at or after its instant (R34). -/
def slotBoundary (m : Mach) : Mach :=
  if !(clockRuns m && m.time.gridOn) || 255 ≤ m.time.slot then m
  else
    let j := m.time.slot + 1
    let m := advanceTo (slotAt m m.time.tick j) m
    let m := dispatchSlot (onTime (fun t => { t with slot := j }) m)
    if j = 3 ∧ m.time.run.lastAdd.all (· < m.time.ticks) then applyOffset m else m

/-- SLOT_BOUNDARY: the clock reaches the next slot of the tick (R8, R184); slot 0 begins with its tick. -/
def execSlotBoundary (s : State) : Host.Outcome State Fault Refusal := runOn s slotBoundary

/-- Slot boundaries passed until a slot index of the present tick has come. -/
def slotsTo (target : Nat) : Nat → Mach → Mach
  | 0, m => m
  | f + 1, m => if slotIndex m < target ∧ target / 256 = m.time.tick then slotsTo target f (slotBoundary m) else m

/-- The cycle of the boundary of slot index `k`, the next of this tick, begins: the clock reaches it and the releases are made
(R184). -/
def openCycle (k : Nat) (m : Mach) : Mach :=
  if k = slotIndex m + 1 ∧ m.time.slot < 255 then
    let m := advanceTo (slotAt m m.time.tick (m.time.slot + 1)) m
    if computeReady m then releaseAll k m else m
  else m

/-- DELAY_RELEASE: the due slot of the slice's first delayed item comes in this tick, and the item is released at its
boundary; the cycle ends with its grants at SLOT_BOUNDARY (R184, R185). -/
def execDelayRelease (tag : Fin 65) (s : State) : Host.Outcome State Fault Refusal :=
  runOn s fun m => match (getDelay m tag.val).head? with
    | none => m
    | some i => if clockRuns m && m.time.gridOn then openCycle i.due (slotsTo (i.due - 1) 256 m) else m

/-- WINDOW_OVERRUN_ABORT: the boundary of slot e + 3 comes in this tick and the core's item has not completed (R194). -/
def execWindowOverrunAbort (core : Fin 32) (s : State) : Host.Outcome State Fault Refusal :=
  runOn s fun m => match coreRun m core with
    | none => m
    | some r => slotsTo (r.tick * 256 + closeSlot r.e) 256 m

-- Commands

/-- A change of a configuration object enters the journal (R486). -/
def journalAdd (code : Nat) (p : Bytes) (m : Mach) (tag : Nat := 0) : Mach :=
  onSec (fun s => { s with journal := s.journal ++ [{ code := code, tick := m.time.tick, payload := p, tag := tag }] }) m

def dspLatLoad : Cmd where
  code := 0x0701
  len := fun p => zeros p 3 5 && p.length == 8 + 512 * rd 1 p 2 && 8 ≤ p.length &&
    (List.range (256 * rd 1 p 2)).all fun i => rd 2 p (8 + 2 * i) < 4096
  right := rConfig
  apply := false
  journal := true
  check := fun m _ p =>
    firstFail [(m.cpu.locked, 0x0203),
      (7 < rd 1 p 0 || 31 < rd 1 p 1 || rd 1 p 2 = 0 || 32 < rd 1 p 1 + rd 1 p 2, 0x0205)]

/-- The entries of a request written into the staged lattice (R204). -/
def loadLattice (p : Bytes) (m : Mach) : Mach :=
  let page := rd 1 p 0
  let first := rd 1 p 1
  let put (l : Lattice) (i : Nat) : Lattice := latSet l page (first + i / 256) (i % 256) (.ofNat 16 (rd 2 p (8 + 2 * i)))
  onCpu (fun c => { c with
    staged := (List.range (256 * rd 1 p 2)).foldl put c.staged
    loadedPages := if c.loadedPages.contains page then c.loadedPages else page :: c.loadedPages }) m

/-- DSP_LAT_LOAD: into the staged lattice, as it is answered (R204). -/
def execDspLatLoad (h : Hdr) (p : Bytes) (s : State) : Host.Outcome State Fault Refusal :=
  runOn s (runNow dspLatLoad h p (fun _ => []) (fun m => journalAdd 0x0701 p (loadLattice p m)))

/-- OWNER of a slot is invalid for its place (R188, 0x0200). -/
def ownerWrong (j : Nat) (e : BitVec 16) : Bool :=
  let o := latOwner e
  if j < 16 then o != 0 else o = 0 || (64 < o && o != 0xFF)

/-- A row breaks the guard rule after a window or slack window (R188, 0x0201). -/
def guardsWrong : List (BitVec 16) → Bool
  | [] => false
  | a :: r =>
    let windowed := ownsSlice a || (latOwner a == 0xFF && latGroup a != 0)
    let ends := match r with
      | [] => true
      | b :: _ => !sameWindow a b
    (windowed && ends && (r.take 2).any fun b => !(latOwner b == 0xFF && latGroup b == 0)) || guardsWrong r

/-- A window of a row carries different SGROUP values (R188, 0x0204). -/
def groupsMixed : List (BitVec 16) → Bool
  | [] => false
  | [_] => false
  | a :: b :: r => (ownsSlice a && latOwner a == latOwner b && latGroup a != latGroup b) || groupsMixed (b :: r)

/-- The staged lattice with the mode and period of a request; pages beyond the period are no part of it. -/
def askedLattice (m : Mach) (p : Bytes) : Lattice :=
  { m.cpu.staged with
    shared := rd 1 p 0 == 1
    period := rd 1 p 1
    entries := m.cpu.staged.entries.filter fun e => e.1 < rd 1 p 1 * 8192 }

/-- A slice runs, or is to run once its reset, fill or migration ends (R188). -/
def runsOrWill (s : Slice) : Bool := s.state == .running || s.toRun || s.reset.any (·.restart)

/-- The slices of one slack group belong to more than one tenant (R188). -/
def slackMixed (m : Mach) (l : Lattice) : Bool :=
  (List.range 15).any fun g =>
    (((groupSlices l (g + 1)).filterMap fun t => (getSlice m t).map (·.tenant)).eraseDups).length > 1

/-- `now` is the module as it stands: between acceptance and apply tick the staged lattice is locked, whatever tick is asked for
(R204, R208). -/
def dspLatApply (now : Mach) : Cmd where
  code := 0x0702
  len := fun p => layout 8 [(2, 6)] p && rd 1 p 0 < 2
  right := rConfig
  journal := true
  sched := true
  check := fun m _ p =>
    let l := askedLattice m p
    let pages := List.range l.period
    let rows := if l.period ≤ 8 then pages.flatMap fun g => (List.range 32).map (latRow l g) else []
    firstFail [
      (rows.any fun r => r.zipIdx.any fun e => ownerWrong e.2 e.1, 0x0200),
      (rows.any guardsWrong, 0x0201),
      (rows.any fun r => r.any fun e => ownsSlice e && !sliceThere m (latOwner e), 0x0202),
      (now.cpu.locked || m.cpu.locked, 0x0203),
      (rows.any fun r => (!l.shared && r.any fun e => latGroup e != 0) || groupsMixed r, 0x0204),
      (!List.contains [1, 2, 4, 8] l.period || pages.any fun g => !m.cpu.loadedPages.contains g, 0x0205),
      (m.cpu.slices.any fun e => runsOrWill e.2 && !latServes l e.1 e.2.minSlots, 0x0207)]
  res := fun m _ p => if slackMixed m (askedLattice m p) then 0x0105 else 0

/-- The response of DSP_LAT_APPLY. -/
def latReply (h : Hdr) (p : Bytes) (m : Mach) : Bytes :=
  fields [(8, effTick m h), (4, (latChanged m.cpu.lattice (askedLattice m p)).length), (4, 0)]

/-- The staged lattice is locked between acceptance and apply tick (R204). -/
def lockLattice (m : Mach) : Mach := onCpu (fun c => { c with locked := true }) m

/-- DSP_LAT_APPLY at its effective tick: the staged lattice is in force (R204). -/
def applyLattice (p : Bytes) (m : Mach) : Mach :=
  let l := latFree (fun t => (getSlice m t).isNone) (askedLattice m p)
  let k := (latChanged m.cpu.lattice l).length
  let m := onCpu (fun c => { c with lattice := l, loadedPages := [], locked := false }) m
  guarantee (raise 0x0702 0 (fields [(1, b2n l.shared), (1, l.period), (2, 0), (4, k)]) m)

def dspLatRead : Cmd where
  code := 0x0703
  len := fun p => layout 8 [(3, 5)] p && rd 1 p 0 < 2
  apply := false
  check := fun m _ p =>
    let l := if rd 1 p 0 = 1 then m.cpu.staged else m.cpu.lattice
    if 31 < rd 1 p 2 || (if rd 1 p 0 = 1 then 8 else l.period) ≤ rd 1 p 1 then 0x0205 else 0

/-- DSP_LAT_READ: mode, period and the entries of one core and page. -/
def execDspLatRead (h : Hdr) (p : Bytes) (s : State) : Host.Outcome State Fault Refusal :=
  runOn s (runRead dspLatRead h p (fun m =>
    let l := if rd 1 p 0 = 1 then m.cpu.staged else m.cpu.lattice
    fields [(1, b2n l.shared), (1, l.period), (6, 0)] ++ (latRow l (rd 1 p 1) (rd 1 p 2)).flatMap fun e => le 2 e.toNat) id)

/-- DSP_HANDLER_SET, of which DSP_HANDLER_ENABLE and DSP_HANDLER_DISABLE are the two actions (R205). -/
def dspHandlerSet : Cmd where
  code := 0x0704
  len := fun p => layout 8 [(4, 4)] p && rd 1 p 1 < 2
  right := rConfig
  journal := true
  sched := true
  check := fun m _ p => if !sliceThere m (rd 1 p 0) || (handlerOf m (rd 1 p 0) (rd 2 p 2)).isNone then 0x0206 else 0

/-- DSP_HANDLER_SET at its effective tick. -/
def applyHandlerSet (p : Bytes) : Mach → Mach :=
  onSlice (rd 1 p 0) fun s => { s with
    handlers := lmod s.handlers (rd 2 p 2) fun h => { h with enabled := rd 1 p 1 == 1 } }

def dspStatus : Cmd where
  code := 0x0710
  len := fun p => layout 8 [(2, 6)] p && rd 1 p 1 < 2
  apply := false
  slice := fun _ t p => rd 1 p 0 == t
  roleOk := clearOk 1
  check := fun m _ p => if sliceThere m (rd 1 p 0) then 0 else 0x0206

/-- DSP_STATUS: list occupancy, READY_MIN, delay quota and the counters of a slice (R206). -/
def execDspStatus (h : Hdr) (p : Bytes) (s : State) : Host.Outcome State Fault Refusal :=
  let t := rd 1 p 0
  runOn s (runRead dspStatus h p
    (fun m => fields [(4, (readyItems m t).length), (4, (getDelay m t).length), (4, readyMin m t), (4, delayQuota m t)] ++
      ctrBytes (((getSlice m t).map (·.dspCtrs)).getD []) 10)
    (fun m => when (bit (rd 1 p 1) 0) (onSlice t fun s => { s with dspCtrs := ctrClear s.dspCtrs 10 }) m))

end Sys2Proof.Machine
end

