-- ==== Sys2Proof/Machine/Swc.lean ====
section
/-! DEFINITION. The switch core: ring sets and targets, admission, removal of copies, and its commands (chapter 09). -/
namespace Sys2Proof.Machine
open Sys2Proof

-- Rings, as far as the switch reads them

/-- A ring's owner in the way events and responses name it: the tag, 0 for the system or unassigned. -/
def ringTag (x : Ring) : Nat := x.owner.getD 0

/-- A receive ring takes copies: HX works, the ring is enabled, and its slice runs (R18, R299). -/
def ringTakes (m : Mach) (r : Nat) : Bool :=
  let x := getRing m r
  computeRuns m && x.enabled && !x.tx && x.owner.any fun t => t == 0 || sliceRuns m t

/-- The hash of R299 over addresses, outer VLAN ID and EtherType. -/
def ringHash (f : Frame) : Nat :=
  crc32 (be 6 f.dmac.toNat ++ be 6 f.smac.toNat ++ be 2 ((f.tags.head?.map (·.2 % 4096)).getD 0) ++ be 2 f.etype)

/-- The rings a ring set sends a frame to, before they are asked whether they take it (R299). -/
def ringsOf (m : Mach) (set : Nat) (f : Frame) : List Nat :=
  match tget m.net.ringSets set with
  | none => []
  | some s => if s.copy then s.rings else (s.rings[ringHash f % max 1 s.rings.length]?).toList

-- Copies leaving queues (R246, R259)

/-- One copy of a stored frame is done with; when the last is, the cells return. A frame of a ring is kept without cells
until its descriptors are written back (R246, R304). -/
def releaseCopy (id : Nat) (removed : Bool) : Mach → Mach := onNet fun n =>
  match tget n.store id with
  | none => n
  | some s =>
    let s := { s with refs := s.refs - 1, removed := s.removed || removed }
    if s.refs = 0 ∧ s.tx.isNone then { n with store := terase n.store id } else { n with store := tset n.store id s }

/-- A frame leaves the FIFOs of a queue. -/
def unqueue (key id : Nat) : Mach → Mach :=
  onQueue key fun q => { q with goose := q.goose.filter (· != id), other := q.other.filter (· != id) }

/-- The head of a queue has changed: one whose launch instant has passed is late, and one more than 1 s ahead is discarded
(R55). `same` is the launch word of the frame that left, if it was sent in time. -/
def settleHead (p c : Nat) (same : BitVec 64) : Nat → Mach → Mach
  | 0, m => m
  | fuel + 1, m =>
    match queueHead m p c with
    | none => m
    | some id => match tget m.net.store id, launchAtId m id with
      | some s, some t =>
        if now m + nsPerSec < t ∧ !s.stepped then
          let m := onStored id (fun s => { s with tooFar := true }) m
          settleHead p c same fuel (releaseCopy id false (unqueue (queueKey p c) id (macCount p 25 m)))
        else if t < now m ∧ !s.stepped ∧ s.launch ≠ same then onStored id (fun s => { s with late := p :: s.late }) m
        else m
      | _, _ => m

/-- A change of a port's class queue; what it brings to the head is judged there (R55). -/
def changeHead (key : Nat) (f : Mach → Mach) (m : Mach) : Mach :=
  let p := key / 512
  let c := key % 512
  let m1 := f m
  if 13 ≤ p ∨ queueHead m1 p c = queueHead m p c then m1 else settleHead p c 0 64 m1

/-- Copies of a ring's frame removed before they were sent, counted for the ring, and, other than at its reset, for the slice (R176,
R308). -/
def countRemoved (atReset : Bool) (s : Stored) (k : Nat) (m : Mach) : Mach :=
  let m := match s.tx with
    | none => m
    | some t => if k = 0 then m else ringCount t.ring 12 k m
  match s.acct with
  | none => m
  | some t => if atReset || t = 0 then m else forEach (List.range k) (fun _ => slcCount t 11) m

/-- A copy that has left its queue is done with before it was sent (R259, R285). -/
def dropCopy (atReset : Bool) (id : Nat) (m : Mach) : Mach :=
  match tget m.net.store id with
  | none => m
  | some s => releaseCopy id true (countRemoved atReset s 1 m)

/-- A queue still holds a copy of a frame. -/
def queued (n : Network) (key id : Nat) : Bool := (getQueue n key).goose.contains id || (getQueue n key).other.contains id

/-- A copy taken out of a queue that goes on: what comes to its head is judged there. One that has left the queue meanwhile is not
touched again (R55, R259). -/
def removeQueued (key ctr : Nat) (atReset : Bool) (id : Nat) (m : Mach) : Mach :=
  if queued m.net key id then dropCopy atReset id (queueCount key ctr 1 (changeHead key (unqueue key id) m)) else m

/-- A discarded copy of a published message counted on its block (R239). -/
def blockCount (i id : Nat) (m : Mach) : Mach :=
  match (tget m.net.store id).bind (·.block) with
  | none => m
  | some b => pubCount b i 1 m

/-- Every copy a queue holds and no MAC has begun is removed as its port or ring is disabled. -/
def emptyQueue (key ctr : Nat) (m : Mach) : Mach :=
  let q := getQueue m.net key
  forEach (q.goose ++ q.other) (fun id m => dropCopy false id (queueCount key ctr 1 (unqueue key id (blockCount 5 id m)))) m

-- Admission (R250, R251)

/-- The reserve a copy may draw on: only frames of the GOOSE engine draw on that of a MAC port's TC7 (R250). -/
def reserveFor (n : Network) (key : Nat) (goose : Bool) : Nat :=
  if key / 512 < 13 ∧ key % 512 = 7 ∧ !goose then 0 else (getQueue n key).rmin

/-- A queue's threshold refuses a frame now (R250). -/
def overThreshold (m : Mach) (s : Stored) (key : Nat) : Bool :=
  reserveFor m.net key s.goose + scaleExp (poolFree m) (getQueue m.net key).k < occOf m.net key s.goose + s.bytes

/-- What a slice's transmit account may hold now (R251). -/
def overAccount (m : Mach) (s : Stored) : Bool :=
  match s.acct with
  | none => false
  | some t =>
    if t = 0 then false
    else match getSlice m t with
      | none => false
      | some x => x.rsv + scaleExp (poolFree m) x.alpha < accountUsed m.net t + s.bytes

/-- Where a frame's cells are drawn from: the account's reserve, or the first target's reserve with room, else the pool. -/
def cellSource (m : Mach) (s : Stored) (kept : List Nat) : CellSrc :=
  match s.acct.filter (· != 0) with
  | some t =>
    if drawn m.net (.account t) + s.bytes ≤ ((getSlice m t).map (·.rsv)).getD 0 then .account t else .pool
  | none =>
    match kept.find? fun k => drawn m.net (.queue (k / 512) (k % 512)) + s.bytes ≤ reserveFor m.net k s.goose with
    | some k => .queue (k / 512) (k % 512)
    | none => .pool

/-- One trial of admission: the targets kept, the ring copies dropped, and the source of the cells; none when the frame
waits (R250). -/
def admitTry (m : Mach) (s : Stored) : Option (List Nat × List Nat × CellSrc) :=
  let keys := s.targets.map fun t => queueKey t.1 t.2
  let ovf := keys.filter (overThreshold m s)
  if ovf.any fun k => !isRingQueue k then none
  else
    let kept := keys.filter fun k => !ovf.contains k
    let held := s.id ≠ 0 ∧ (tget m.net.store s.id).isSome
    if held then some (kept, ovf, s.src)
    else if overAccount m s then none
    else
      let src := cellSource m s kept
      if src == .pool && poolFree m < s.bytes && !kept.isEmpty then none else some (kept, ovf, src)

/-- The copy for one target is enqueued, one of a truncated frame as delivered (R273), or taken at once where the consumer accepts at its
port's full rate: ingest, the GOOSE engine, the CP and the umber tap (R243, R260). -/
def enqueueCopy (s : Stored) (key : Nat) (m : Mach) : Mach :=
  let m := queueCount key 1 s.frame.len (queueCount key 0 1 m)
  let m := if s.oversize then macCount s.port 5 m else m
  let p := key / 512
  let q := key % 512
  if p = 13 then onSvi (fun v => { v with inbox := v.inbox ++ [{ port := s.port, ts := s.ts, frame := s.frame }] }) (queueCount key 2 1 m)
  else if p = 14 ∧ 256 ≤ q then
    onSig (fun v => { v with inbox := v.inbox ++ [{ port := s.port, ts := s.ts, frame := s.frame }] }) (queueCount key 2 1 m)
  else if p = 15 ∨ p = 16 then queueCount key 2 1 m
  else
    changeHead key (fun m =>
      onNet (fun n => { n with store := tmod n.store s.id s (fun x => { x with refs := x.refs + 1 }) })
        (onQueue key (fun x => if s.goose && p < 13 && q = 7 then { x with goose := x.goose ++ [s.id] }
          else { x with other := x.other ++ [s.id] }) m)) m

/-- An admitted frame: stored once and enqueued on every target kept; each dropped ring copy is counted (R246, R253). -/
def admitFrame (s : Stored) (kept dropped : List Nat) (src : CellSrc) (m : Mach) : Mach :=
  let m0 := m
  let held := s.id ≠ 0 ∧ (tget m.net.store s.id).isSome
  let id := if s.id = 0 then m.net.nextId else s.id
  let s := { s with id := id, src := src }
  let m := onNet (fun n => { n with nextId := max n.nextId (id + 1) }) m
  let m := forEach dropped (fun k m =>
    raise 0x0903 (ringTag (getRing m (k % 512))) (fields [(1, 14), (1, 0), (2, k % 512), (4, 0)]) (queueCount k 8 1 m)) m
  let m := forEach kept (enqueueCopy s) m
  let m := if s.tx.isSome ∧ (tget m.net.store id).isNone then
      onNet (fun n => { n with store := tset n.store id { s with removed := s.removed || dropped != [] } }) m
    else m
  let m := match s.acct with
    | none => m
    | some t => if t = 0 ∨ held then m else onSlice t (fun x => { x with ctrs := bumpBy (bump x.ctrs 8) 9 s.frame.len }) m
  noteFree m0 m

/-- What makes a frame wait (R250): the queues over their thresholds, else the transmit account over its own, else the pool, which is short
for the account or, with none, for every target queue. -/
def waitsOn (m : Mach) (s : Stored) : List Nat × Bool :=
  let keys := s.targets.map fun t => queueKey t.1 t.2
  let full := keys.filter fun k => overThreshold m s k && !isRingQueue k
  let mine := s.acct.any (· != 0)
  if full != [] then (full, false) else if mine then ([], true) else (keys, false)

/-- A frame that waits is marked; the first wait is counted and reported for what made it wait (R250, R263). -/
def markWait (s : Stored) (m : Mach) : Stored × Mach :=
  if s.waited then (s, m)
  else
    let on := waitsOn m s
    let keys := on.1
    let m := forEach keys (fun k m =>
      raiseQuiet 0x0901 k 0 (fields [(1, k / 512), (1, 0), (2, k % 512), (4, 0)]) (queueCount k 5 1 m)) m
    let m := match s.acct with
      | none => m
      | some t => if !on.2 then m
        else raiseQuiet 0x0901 (2 ^ 20 + t) t (fields [(1, 14), (1, t), (6, 0)]) (slcCount t 10 m)
    ({ s with waited := true }, m)

/-- A copy for a disabled MAC port is new work for a disabled function: it is discarded and counted, and so is one for the GOOSE engine while
HX is disabled (R18, R28, R259). A ring's copy to P10 or P11 with the EtherType of chain frames is removed and counted (R441). -/
def dropDisabled (s : Stored) (m : Mach) : Stored × Mach :=
  let off (t : Nat × Nat) : Bool :=
    (t.1 < 13 && !(getPort m t.1).any fun p => p.cfg.enabled) || (t.1 == 14 && 256 ≤ t.2 && !computeRuns m)
  let chain (t : Nat × Nat) : Bool := s.tx.isSome && (t.1 == 10 || t.1 == 11) && s.frame.etype == 0x88B5
  let m := forEach (s.targets.filter fun t => off t && !chain t) (fun t m =>
    let m := match s.block with
      | none => m
      | some b => pubCount b 5 1 m
    let m := queueCount (queueKey t.1 t.2) 7 1 m
    if t.1 < 13 then macCount t.1 23 m else m) m
  let m := forEach (s.targets.filter chain) (fun t m => swCount t.1 4 m) m
  let m := countRemoved false s (s.targets.filter fun t => off t || chain t).length m
  ({ s with targets := s.targets.filter (fun t => !off t && !chain t), removed := s.removed || s.targets.any fun t => off t || chain t }, m)

/-- Ring copies of a frame whose ring takes none any more are dropped and counted; while HX is disabled they are counted under host absent
on the ingress port (R18, R299). -/
def dropRings (s : Stored) (m : Mach) : Stored × Mach :=
  let off (t : Nat × Nat) : Bool := t.1 == 14 && t.2 < 256 && !ringTakes m t.2
  let m := if computeRuns m then forEach (s.targets.filter off) (fun t m => queueCount (queueKey t.1 t.2) 8 1 m) m
    else if s.targets.any off && s.port < 13 then swCount s.port 3 m else m
  ({ s with targets := s.targets.filter fun t => !off t }, m)

/-- A member that is standby, or about to be, sends no ring copy to a MAC port other than P8; the frame completes with status 0x00 and no
timestamp (R415, R433). -/
def dropTwin (m : Mach) (s : Stored) : Stored :=
  let bound (t : Nat × Nat) : Bool := t.1 < 13 && t.1 != 8
  if m.twn.cfg.on && s.tx.isSome && (m.twn.role == .standby || m.twn.demoted) then
    { s with targets := s.targets.filter fun t => !bound t, stamp := s.stamp && !s.targets.any bound }
  else s

/-- One trial of a waiting frame: what remains of it if it still waits, and the module after it. -/
def admitOne (s : Stored) (m : Mach) : Option Stored × Mach :=
  let a := dropDisabled (dropTwin m s) m
  let b := dropRings a.1 a.2
  match admitTry b.2 b.1 with
  | none => let w := markWait b.1 b.2; (some w.1, w.2)
  | some r => (none, admitFrame b.1 r.1 r.2.1 r.2.2 b.2)

-- Headroom and the port's own flow control (R254, R282)

/-- Headroom in use: of one class, or of the whole port. -/
def headroomUse (p : Port) (c : Option Nat) : Nat :=
  ((p.waiting.filter fun e => c.all (· == e.1)).map fun e => (e.2.map Stored.bytes).sum).sum

/-- The class, or 8 for all, whose headroom a flow-control frame of the port speaks for; none if it sends none (R282). -/
def flowClass (c : Nat) (x : Port) : Option Nat :=
  if x.cfg.fc = 1 then some 8 else if x.cfg.fc = 2 ∧ x.cfg.pfcMask.getLsbD c then some c else none

/-- A flow-control frame to send: a PFC carries every class whose state changed at the same instant (R282). -/
def addFlow (t : Ns) (k q : Nat) (l : List (Ns × List (Nat × Nat))) : List (Ns × List (Nat × Nat)) :=
  match l.getLast? with
  | none => [(t, [(k, q)])]
  | some e =>
    if e.1 = t ∧ k ≠ 8 ∧ e.2.all (fun x => x.1 != k && x.1 != 8) then l.dropLast ++ [(t, e.2 ++ [(k, q)])] else l ++ [(t, [(k, q)])]

/-- Occupancy against the watermarks: XOFF asks the partner to pause, XON lets it go on (R282). -/
def flowWatch (p c : Nat) (m : Mach) : Mach :=
  match getPort m p with
  | none => m
  | some x =>
    match flowClass c x with
    | none => m
    | some k =>
      let use := headroomUse x (if k = 8 then none else some k)
      if (tget x.fcAsked k).isNone ∧ x.cfg.xoff ≤ use then
        onPort p (fun x => { x with fcOut := addFlow (now m) k x.cfg.pauseTime x.fcOut, fcAsked := tset x.fcAsked k (now m) }) m
      else if (tget x.fcAsked k).isSome ∧ use ≤ x.cfg.xon then
        onPort p (fun x => { x with fcOut := addFlow (now m) k 0 x.fcOut, fcAsked := terase x.fcAsked k }) m
      else m

/-- A frame whose targets accept at their port's full rate: it never waits for admission, nor finds its headroom full (R255). -/
def neverWaits (s : Stored) : Bool := s.targets.all fun t => t.1 == 13 || (t.1 == 14 && 256 ≤ t.2)

/-- Such a frame reaches its targets, which take it at once. -/
def admitAtOnce (s : Stored) (m : Mach) : Mach :=
  let a := dropDisabled s m
  admitFrame a.1 (a.1.targets.map fun t => queueKey t.1 t.2) [] .pool a.2

/-- A class's headroom list: a frame that never waits passes the others; else the head is tried (R250, R255). -/
def admitPort (p c : Nat) (m : Mach) : Mach :=
  let put (l : List Stored) : Mach → Mach := onPort p fun x =>
    { x with waiting := if l.isEmpty then terase x.waiting c else tset x.waiting c l }
  match (getPort m p).map fun x => tgetD x.waiting c [] with
  | none => m
  | some [] => m
  | some (s :: rest) =>
    match (s :: rest).find? neverWaits with
    | some f => flowWatch p c (put ((s :: rest).erase f) (admitAtOnce f m))
    | none =>
      let r := admitOne s m
      match r.1 with
      | some w => put (w :: rest) r.2
      | none => flowWatch p c (put rest r.2)

/-- The frames of one source wait behind one another: a GOOSE engine class, a slice's rings, the CP, the umber tap (R254). -/
def innerGroup (s : Stored) : Nat × Nat :=
  (s.port, if s.port = 14 then (match s.acct with
    | some t => 16 + t
    | none => s.cls) else 0)

/-- The first frame of a source in the order of arrival is tried; its source stalls while it waits (R251, R254). -/
def admitInner (g : Nat × Nat) (m : Mach) : Mach :=
  match m.net.inner.find? fun s => innerGroup s == g with
  | none => m
  | some s =>
    let r := admitOne s m
    let stall (b : Bool) (m : Mach) : Mach := match s.acct with
      | none => m
      | some t => onNet (fun n => { n with stalled := if b then (n.stalled.filter (· != t)) ++ [t] else n.stalled.filter (· != t) }) m
    match r.1 with
    | some w => stall true (onNet (fun n => { n with inner := n.inner.map fun x => if x = s then w else x }) r.2)
    | none => stall false (onNet (fun n => { n with inner := n.inner.erase s }) r.2)

/-- The sources of the module itself that have a frame waiting, the oldest first. -/
def innerGroups (m : Mach) : List (Nat × Nat) := (m.net.inner.map innerGroup).eraseDups

/-- The transmit account a ring's frames are charged to. -/
def ringAccount (m : Mach) (r : Nat) : Nat := ringTag (getRing m r)

/-- ADMISSION: a waiting frame is tried in a switch clock cycle (R250). With the source internal it is the oldest frame of
the module's own engines whose admission does not wait, and else the oldest of all. -/
def execAdmission (src : Source) (s : State) : Host.Outcome State Fault Refusal :=
  runOn s fun m =>
    if !fabricRuns m then m
    else match src with
      | .port p c => admitPort p.val c.val m
      | .ring r => admitInner (14, 16 + ringAccount m r.val) m
      | .internal =>
        let own := (innerGroups m).filter fun g => !(g.1 == 14 && 16 ≤ g.2)
        let free := own.find? fun g => (m.net.inner.find? fun x => innerGroup x == g).any fun x => (admitTry m x).isSome
        match free, own.head? with
        | some g, _ => admitInner g m
        | none, some g => admitInner g m
        | none, none => m

-- Commands

/-- The longest frame a queue takes: its port's maximum, and elsewhere the longest the switch carries (R249). -/
def queueFrameMax (m : Mach) (p : Nat) : Nat := ((getPort m p).map (·.cfg.maxLen)).getD 9216

/-- What XOFF of a port leaves free of its headroom holds two frames (R284). -/
def watermarksOk (cfg : PortCfg) (headroom : Nat) : Bool :=
  cfg.fc == 0 || (cfg.xon < cfg.xoff && cfg.xoff + 2 * cfg.maxLen ≤ headroom)

def swcBufSet : Cmd where
  code := 0x0901
  len := layout 60 [(4, 4)]
  right := rConfig
  journal := true
  sched := true
  check := fun m _ p =>
    let heads := rdList 4 13 p 8
    let limit := rd 4 p 0
    let room (i : Nat) : Nat := heads.getD i 0
    let after := onNet (fun n => { n with ports := tmap n.ports fun i x => { x with headroom := room i } }) m
    firstFail [
      (limit % 16384 != 0 || heads.any fun h => h % 16384 != 0, 0x0201),
      (poolSize after < 4194304, 0x0204),
      (limit < sliceReserves m, 0x0205),
      (m.net.ports.any fun e => e.2.cfg.enabled && e.2.headroom != room e.1, 0x0206),
      (m.net.ports.any fun e => !watermarksOk e.2.cfg (room e.1), 0x0208)]

/-- SWC_BUF_SET at its effective tick (R247). -/
def applyBufSet (p : Bytes) : Mach → Mach := partition <| onNet fun n =>
  { n with sliceLimit := rd 4 p 0, ports := tmap n.ports fun i x => { x with headroom := rd 4 p (8 + 4 * i) } }

def swcQueueSet : Cmd where
  code := 0x0902
  len := layout 16 [(1, 1), (9, 7)]
  right := rConfig
  journal := true
  sched := true
  check := fun m _ p =>
    let port := rd 1 p 0
    let q := rd 2 p 2
    let key := queueKey port q
    let r := rd 4 p 4
    let k := ofTwos 8 (rd 1 p 8)
    let ring := port == 14 && q < 256
    firstFail [
      (!queueThere port q, 0x0200),
      (r % 1024 != 0 || k < -4 || 3 < k, 0x0201),
      (!ring && port != 13 && r < cellBytes (queueFrameMax m port), 0x0202),
      (port < 13 && q == 7 && r < tripFootprint m port, 0x0203),
      (poolSize (onQueue key (fun x => { x with rmin := r }) m) < 4194304, 0x0204),
      (ring && r != 0, 0x0207)]

/-- SWC_QUEUE_SET at its effective tick (R250). -/
def applyQueueSet (p : Bytes) : Mach → Mach :=
  partition <| onQueue (queueKey (rd 1 p 0) (rd 2 p 2)) fun q => { q with rmin := rd 4 p 4, k := ofTwos 8 (rd 1 p 8) }

def swcPortSet : Cmd where
  code := 0x0903
  len := fun p => layout 8 [(2, 6)] p && rd 1 p 1 < 2
  right := rConfig
  journal := true
  sched := true
  check := fun _ _ p => if 12 < rd 1 p 0 then 0x0200 else 0

/-- SWC_PORT_SET at its effective tick (R256). -/
def applySwPortSet (p : Bytes) : Mach → Mach := onPort (rd 1 p 0) fun x => { x with cutThrough := rd 1 p 1 == 1 }

def swcStatus : Cmd where
  code := 0x0910
  len := layout 0 []
  apply := false

/-- SWC_STATUS: the pool and the switch counters of every port, at one instant; the least F starts anew (R262). -/
def execSwcStatus (h : Hdr) (p : Bytes) (s : State) : Host.Outcome State Fault Refusal :=
  runOn s (runRead swcStatus h p
    (fun m => fields [(4, poolSize m), (4, poolFree m), (4, m.net.minFree), (4, sliceReserves m)] ++
      (m.net.ports.flatMap fun e => le 4 (headroomUse e.2 none)) ++ le 4 0 ++
      (m.net.ports.flatMap fun e => ctrBytes e.2.swCtrs 5))
    (fun m => onNet (fun n => { n with minFree := poolFree m }) m))

def swcQueueStatus : Cmd where
  code := 0x0911
  len := fun p => layout 8 [(4, 4)] p && rd 1 p 1 < 2
  apply := false
  slice := fun m t p => rd 1 p 0 == 14 && rd 2 p 2 < 256 && (getRing m (rd 2 p 2)).owner == some t
  roleOk := clearOk 1
  check := fun _ _ p => if queueThere (rd 1 p 0) (rd 2 p 2) then 0 else 0x0200

/-- SWC_QUEUE_STATUS: occupancy, reserve in use and the counters of a queue (R262). -/
def execSwcQueueStatus (h : Hdr) (p : Bytes) (s : State) : Host.Outcome State Fault Refusal :=
  let key := queueKey (rd 1 p 0) (rd 2 p 2)
  runOn s (runRead swcQueueStatus h p
    (fun m =>
      let q := getQueue m.net key
      fields [(4, occTotal m.net key), (4, min q.rmin (drawn m.net (.queue (key / 512) (key % 512)))), (4, q.rmin), (1, toTwos 8 q.k), (3, 0)] ++
        ctrBytes q.ctrs 9)
    (fun m => when (bit (rd 1 p 1) 0) (onQueue key fun q => { q with ctrs := ctrClear q.ctrs 9 }) m))

end Sys2Proof.Machine
end

