-- ==== Sys2Proof/Machine/Mac.lean ====
section
/-! DEFINITION. The MAC ports: reception and steering, cut-through, flow control, transmission, preemption, links, and their
commands (chapter 10). -/
namespace Sys2Proof.Machine
open Sys2Proof

-- Rates

/-- One byte time of a speed in ps (R265). -/
def bytePs (speed : Nat) : Nat := if speed = 0 then 320 else if speed = 1 ∨ speed = 2 then 800 else 8000

/-- The time a number of bytes takes on a port, in whole ns, rounded up. -/
def wireNs (x : Port) (bytes : Nat) : Ns := cdiv (bytes * bytePs x.cfg.speed) 1000

/-- A number of pause quanta of 512 bit times, in ns (R279). -/
def quantaNs (x : Port) (q : Nat) : Ns := cdiv (q * 64 * bytePs x.cfg.speed) 1000

/-- The hold guard in force, in byte times (R278). -/
def guardBytes (x : Port) : Nat := if x.preTx then x.cfg.guard else max x.cfg.guard (x.cfg.maxLen + 20)

/-- Receive and transmit corrections in force, in ps (R268). -/
def corrOf (x : Port) : Int × Int := tgetD x.corr (x.cfg.speed * 4 + x.cfg.fec) (0, 0)

/-- An instant corrected by a latency in ps, at the 2 ns resolution of timestamps (R37). -/
def corrected (t : Ns) (ps : Int) : Ns := (((t : Int) * 1000 + ps) / 2000 * 2).toNat

/-- The timestamps of a frame, at its message timestamp point, the start of the byte after the preamble (R37): of one of a length that
ends at an instant, put off by the gaps between its fragments, and of one whose preamble begins at an instant. -/
def rxStamp (x : Port) (t : Ns) (len : Nat) (extra : Nat := 0) : Ns :=
  corrected t ((corrOf x).1 - (len * bytePs x.cfg.speed + 1000 * extra : Nat))
def txStamp (x : Port) (t : Ns) : Ns := corrected t ((corrOf x).2 + (8 * bytePs x.cfg.speed : Nat))

/-- A port works while the fabric runs; PU while the umber domain runs (R367). -/
def portPowered (m : Mach) (p : Nat) : Bool := fabricRuns m || (p == 12 && umberRuns m)

/-- A port carries frames: powered, enabled, link up (R285). -/
def portUp (m : Mach) (p : Nat) : Bool := portPowered m p && (getPort m p).any fun x => x.cfg.enabled && x.link

/-- A frame of some bytes that ends now is received: on a port that carries frames, and on one disabled while the frame was already
coming in (R285). -/
def portHears (m : Mach) (p len : Nat) : Bool :=
  portPowered m p && (getPort m p).any fun x =>
    (x.cfg.enabled && x.link) || (!x.cfg.enabled && x.offAt.any fun t => now m < t + wireNs x (8 + len))

/-- A frame counted as received, with the fragments it came in (R286). -/
def countReceived (p len frags : Nat) : Mach → Mach := onPort p fun x => { x with
  ctrs := bumpBy (bumpBy (bump x.ctrs 0) 1 len) 20 frags
  swCtrs := bump x.swCtrs 0 }

-- PTP messages the CP sends (R36)

/-- The destination of PTP messages, and of those of the peer delay mechanism (IEEE 1588). -/
def ptpMac (peer : Bool) : BitVec 48 := if peer then 0x0180C200000E else 0x011B19000000

/-- A PTP message the CP sends on a port, in TC5 from CX, with a request for its transmit timestamp (R36, R37). -/
def sendPtp (p : Nat) (peer : Bool) (msg : PtpMsg) (m : Mach) : Mach :=
  let f : Frame :=
    { dmac := ptpMac peer, smac := portMac m p, tags := [], etype := 0x88F7, len := 64, prp := none, body := .ptp msg,
      payload := [] }
  sendInner { innerFrame f 5 15 [(p, 5)] false none 0 (now m) with stamp := true } m

/-- A PTP message of the CP has been transmitted: a Pdelay_Req begins an exchange at that timestamp, and the follow-up of a Sync or a
Pdelay_Resp carries it (R36). -/
def followPtp (p : Nat) (s : Stored) (m : Mach) : Mach :=
  if s.port ≠ 15 ∨ !controlRuns m then m
  else match s.frame.body with
    | .ptp (.sync d n _ _ _) => sendPtp p false (.followUp d n s.sentTs 0) m
    | .ptp (.pdelayReq _ n) => onTime (fun t => { t with run := { t.run with
        pdelays := tset t.run.pdelays p { seq := n, sent := s.sentTs, half := none } } }) m
    | .ptp (.pdelayResp d n _ _ _) => sendPtp p true (.pdelayFollowUp d n s.sentTs 0) m
    | .ptp _ => m
    | .sv _ => m
    | .goose _ => m
    | .raw => m

-- Flow control received (R279 to R281)

def pauseInit : Pause := { waiting := none, until_ := none, since := none, ignore := none, arrived := false }

def getPause (x : Port) (c : Nat) : Pause := tgetD x.pauses c pauseInit
def onPause (p c : Nat) (f : Pause → Pause) : Mach → Mach := onPort p fun x => { x with pauses := tmod x.pauses c pauseInit f }

/-- The class is stopped now. -/
def stopped (x : Port) (c : Nat) : Bool := (getPause x c).until_.isSome

/-- The class was stopped at an instant, and has been ever since. -/
def stoppedAt (x : Port) (c : Nat) (t : Ns) : Bool := stopped x c && (getPause x c).since.any (· ≤ t)

/-- A class resumes: a launch-timed head whose instant came while the class was stopped is late (R280). -/
def resumeClass (p c : Nat) (m : Mach) : Mach :=
  let m1 := onPause p c (fun x => { x with waiting := none, until_ := none, since := none }) m
  match queueHead m p c with
  | none => m1
  | some id =>
    let missed (t : Ns) : Bool := t < now m && (getPort m p).any fun x => stoppedAt x c t
    if (launchAtId m id).any missed then onStored id (fun s => { s with late := p :: s.late }) m1 else m1

/-- A received time for one class: zero ends the pause, another reloads it, or begins it at the next frame boundary. A frame of the class
that has been preempted before its partner asked for the pause still completes (R280). -/
def takeQuanta (p c q : Nat) (m : Mach) : Mach :=
  match getPort m p with
  | none => m
  | some x =>
    if q = 0 then (if (getPause x c).until_.isSome || (getPause x c).waiting.isSome then resumeClass p c m else m)
    else if stopped x c then onPause p c (fun a => { a with until_ := some (now m + quantaNs x q) }) m
    else
      let owe (t : Sending) : Sending := { t with owed := t.owed || (t.cls == c && (getPause x c).waiting.isNone) }
      let m := onPort p (fun y => { y with cutOff := y.cutOff.map owe }) m
      if x.sending.isSome then onPause p c (fun a => { a with waiting := some q }) m
      else onPause p c (fun a => { a with until_ := some (now m + quantaNs x q), since := some (now m) }) m

/-- A frame boundary: pauses that waited for it begin (R280). -/
def beginPauses (p : Nat) (m : Mach) : Mach :=
  match getPort m p with
  | none => m
  | some x => forEach (x.pauses.map (·.1)) (fun c => onPause p c fun a => match a.waiting with
      | none => a
      | some q => { a with waiting := none, until_ := some (now m + quantaNs x q), since := some (now m) }) m

/-- A frame that PU discards while the fabric does not run (R367). -/
def puOther : Mach → Mach := onUmb fun u => { u with ctrs := bump u.ctrs 4 }

/-- A PAUSE frame: obeyed in mode PAUSE, outside a storm (R279, R281); while the fabric does not run PU obeys none (R367). -/
def pauseFrame (p q : Nat) (m : Mach) : Mach :=
  match getPort m p with
  | none => m
  | some x =>
    if !fabricRuns m then puOther m
    else if x.cfg.fc ≠ 1 then macCount p 14 m
    else if (getPause x 0).ignore.isSome then
      forEach (List.range 8) (fun c => onPause p c fun a => { a with arrived := true }) (macCount p 14 m)
    else forEach (List.range 8) (fun c => takeQuanta p c q) (macCount p 13 m)

/-- A PFC frame: obeyed on P8, P10 and P11 for the classes of the port's mask, outside a storm (R279, R281). -/
def pfcFrame (p : Nat) (vec : BitVec 8) (times : List Nat) (m : Mach) : Mach :=
  match getPort m p with
  | none => m
  | some x =>
    if !fabricRuns m then puOther m
    else if x.cfg.fc ≠ 2 then macCount p 16 m
    else forEach ((List.range 8).filter fun c => vec.getLsbD c && x.cfg.pfcMask.getLsbD c) (fun c m =>
      if (getPause x c).ignore.isSome then onPause p c (fun a => { a with arrived := true }) (macCount p 16 m)
      else takeQuanta p c (times.getD c 0) (macCount p 15 m)) m

/-- PAUSE_RECEIVE: a PAUSE frame of 64 bytes with a pause time (R280, R286). -/
def execPauseReceive (port : Fin 13) (quanta : BitVec 16) (s : State) : Host.Outcome State Fault Refusal :=
  runOn s fun m => if portHears m port 64 then pauseFrame port quanta.toNat (countReceived port 64 0 m) else m

/-- PFC_RECEIVE: a PFC frame of 64 bytes with its class vector and times (R280, R286). -/
def execPfcReceive (port : Fin 13) (vec : BitVec 8) (times : List (BitVec 16)) (s : State) : Host.Outcome State Fault Refusal :=
  runOn s fun m => if portHears m port 64 then pfcFrame port vec (times.map (·.toNat)) (countReceived port 64 0 m) else m

/-- PAUSE_TIMER_EXPIRE: the class's timer runs out (R280). -/
def execPauseTimerExpire (port : Fin 13) (tc : Fin 8) (s : State) : Host.Outcome State Fault Refusal :=
  runOn s fun m => match (getPort m port).bind fun x => (getPause x tc).until_ with
    | none => m
    | some t => resumeClass port tc (advanceTo t m)

/-- The classes that share a storm: all of a port in mode PAUSE, else the one (R281). -/
def stormClasses (x : Port) (c : Nat) : List Nat := if x.cfg.fc = 1 then List.range 8 else [c]

/-- A storm event: the class, or 0xFF for all. -/
def stormEvent (code p c : Nat) (x : Port) : Mach → Mach :=
  raise code 0 (fields [(1, p), (1, if x.cfg.fc = 1 then 0xFF else c), (6, 0)])

/-- PAUSE_STORM: pause frames have kept the class stopped for the whole storm limit; they are ignored for one more (R281). -/
def execPauseStorm (port : Fin 13) (tc : Fin 8) (s : State) : Host.Outcome State Fault Refusal :=
  runOn s fun m => match getPort m port with
    | none => m
    | some x =>
      let a := getPause x tc
      let limit := x.cfg.stormMs * 1000000
      match a.since, a.until_ with
      | some t, some u =>
        if u < t + limit then m
        else
          let m := advanceTo (t + limit) m
          let m := forEach (stormClasses x tc) (fun c m =>
            onPause port c (fun b => { b with ignore := some (now m + limit), arrived := false }) (resumeClass port c m)) m
          stormEvent 0x0A04 port tc x (macCount port 19 m)
      | _, _ => m

/-- PAUSE_STORM_PERIOD_END: the storm goes on if pause frames arrived during the period (R281). -/
def execPauseStormPeriodEnd (port : Fin 13) (tc : Fin 8) (s : State) : Host.Outcome State Fault Refusal :=
  runOn s fun m => match getPort m port with
    | none => m
    | some x => match (getPause x tc).ignore with
      | none => m
      | some t =>
        let m := advanceTo t m
        if (getPause x tc).arrived then
          forEach (stormClasses x tc) (fun c => onPause port c fun b =>
            { b with ignore := some (t + x.cfg.stormMs * 1000000), arrived := false }) (macCount port 19 m)
        else stormEvent 0x0A05 port tc x (forEach (stormClasses x tc) (fun c => onPause port c fun b => { b with ignore := none }) m)

-- Rules and steering (R269 to R273)

/-- A rule of a port. -/
def ruleOf (x : Port) (i : Nat) : Rule := tgetD x.rules i ruleOff

/-- A rule matches a frame (R270). -/
def ruleMatches (r : Rule) (f : Frame) : Bool :=
  let tci := f.tags.head?.map (·.2)
  r.flags.getLsbD 0 && (!r.flags.getLsbD 1 || tci.any fun t => t % 4096 == r.vlan) &&
  (!r.flags.getLsbD 2 || tci.any fun t => t / 8192 % 8 == r.pcp) && (!r.flags.getLsbD 3 || f.etype == r.etype) &&
  (!r.flags.getLsbD 4 || f.dmac &&& r.dmask == r.dmac &&& r.dmask) && (!r.flags.getLsbD 5 || tci.isNone)

/-- A port with its rules as they stood for a frame whose first byte came in at an instant (MAC_RULE_SET). -/
def rulesAt (x : Port) (t : Ns) : Port :=
  { x with rules := (x.oldRules.filter fun e => t < e.1).foldr (fun e rs => tset rs e.2.1 e.2.2) x.rules }

/-- The instant of the first byte of a frame of which some bytes have come in by another, with gaps between them. -/
def firstByte (x : Port) (t : Ns) (bytes extra : Nat) : Ns := t - (wireNs x bytes + extra)

/-- The rule that decides a frame: the first of rules 0 to 63 that matches, else rule 64. -/
def decidingRule (x : Port) (f : Frame) : Nat :=
  ((List.range 64).find? fun i => ruleMatches (ruleOf x i) f).getD 64

/-- The class of a frame (R245). -/
def classOf (r : Rule) (f : Frame) : Nat :=
  if r.flags.getLsbD 7 then r.cls else (f.tags.head?.map fun t => t.2 / 8192 % 8).getD 0

/-- The MAC ports a rule names. -/
def macTargets (r : Rule) : List Nat := if r.targets.getLsbD 0 then (List.range 13).filter fun i => r.portmask.getLsbD i else []

/-- IX takes TC6 from P0 to P7 alone, and the GOOSE engine TC4 and TC7 alone (R243, R271). -/
def ixTakes (p cls : Nat) : Bool := p < 8 && cls == 6
def gooseTakes (cls : Nat) : Bool := cls == 4 || cls == 7

/-- The targets a rule gives a frame, in target order (R250, R271). -/
def targetsOf (m : Mach) (p : Nat) (r : Rule) (cls : Nat) (f : Frame) : List (Nat × Nat) :=
  let rings := if r.targets.getLsbD 3 && computeRuns m then ((ringsOf m r.ringset f).filter (ringTakes m)).mergeSort (fun a b => decide (a ≤ b)) else []
  (macTargets r).map (fun i => (i, cls)) ++
  (if r.targets.getLsbD 1 && ixTakes p cls then [(13, 6)] else []) ++ rings.map (fun g => (14, g)) ++
  (if r.targets.getLsbD 2 && gooseTakes cls then [(14, if cls = 4 then 256 else 257)] else []) ++
  (if r.targets.getLsbD 4 then [(15, cls)] else []) ++ (if r.targets.getLsbD 5 then [(16, cls)] else [])

/-- What a rule refuses of a frame is counted: steering refused, host absent, ring copies that no ring takes (R18, R271,
R299). -/
def countRefused (p : Nat) (r : Rule) (cls : Nat) (f : Frame) (m : Mach) : Mach :=
  let m := if r.targets.getLsbD 1 && !ixTakes p cls then swCount p 4 m else m
  let m := if r.targets.getLsbD 2 && !gooseTakes cls then swCount p 4 m else m
  if !r.targets.getLsbD 3 then m
  else if !computeRuns m then swCount p 3 m
  else forEach ((ringsOf m r.ringset f).filter fun g => !ringTakes m g) (fun g => queueCount (queueKey 14 g) 8 1) m

/-- The frame as the switch stores it. -/
def receivedFrame (p rule cls : Nat) (f : Frame) (ts : Ns) (ovf : Bool) (targets : List (Nat × Nat)) : Stored :=
  { innerFrame f cls p targets false none 0 ts with rule := rule, oversize := ovf }

/-- The ports whose headroom is one of each class (R247, R248). -/
def classHeadroom (p : Nat) : Bool := p == 8 || p == 10 || p == 11

/-- A received frame waits for admission in the headroom of its port; on a port without room it is discarded (R255). -/
def intoHeadroom (p : Nat) (s : Stored) (m : Mach) : Mach :=
  match getPort m p with
  | none => m
  | some x =>
    let use := headroomUse x (if classHeadroom p then some s.cls else none)
    if s.targets.isEmpty then m
    else if !neverWaits s && x.headroom < use + s.bytes then
      raise 0x0904 0 (fields [(1, p), (1, s.cls), (6, 0)]) (swCount p 2 m)
    else
      flowWatch p s.cls (onPort p (fun x => { x with waiting := tset x.waiting s.cls (tgetD x.waiting s.cls [] ++ [s]) }) m)

/-- A truncated frame (R273). -/
def truncated (n : Nat) (f : Frame) : Frame := { f with len := n, payload := f.payload.take n, body := .raw, prp := none }

/-- The copies of a truncated frame that are delivered: host rings, the CP and the umber tap, where the rule accepts it (R273). -/
def oversizeTakes (r : Rule) (t : Nat × Nat) : Bool := r.flags.getLsbD 6 && ((t.1 == 14 && t.2 < 256) || t.1 == 15 || t.1 == 16)

/-- A frame that has passed the MAC's checks is matched and steered (R271 to R273). `cut` are the ports it has been cut through to,
and `id` its place in the buffer, if it is being cut through; one that was found oversize then has been stomped, and no other copy of
it is delivered (R257). The rules are those that stood as its first byte came in, at `first`. -/
def steerFrame (p : Nat) (f : Frame) (ts first : Ns) (id : Nat) (cut : List Nat) (m : Mach) : Mach :=
  match (getPort m p).map (rulesAt · first) with
  | none => m
  | some x =>
    let k := decidingRule x f
    let r := ruleOf x k
    let cls := classOf r f
    let m := onPort p (fun x => { x with rules := tmod x.rules k ruleOff fun r => { r with hits := r.hits + 1 } }) m
    if r.targets.toNat % 64 = 0 then macCount p 8 m
    else
      let all := (targetsOf m p r cls f).filter fun t => !(t.1 < 13 && cut.contains t.1)
      let m := countRefused p r cls f m
      if x.cfg.maxLen < f.len then
        let kept := if id = 0 then all.filter (oversizeTakes r) else []
        let lost := all.length - kept.length
        let m := onPort p (fun x => { x with ctrs := bumpBy x.ctrs 6 lost }) m
        let m := if 0 < lost then raiseQuiet 0x0A06 p 0 (fields [(1, p), (7, 0)]) m else m
        intoHeadroom p (receivedFrame p k cls (truncated x.cfg.maxLen f) ts true kept) m
      else intoHeadroom p { receivedFrame p k cls f ts false all with id := id } m

/-- The umber subscription a frame of PU matches by R65's first two steps (R367, R370). -/
def umberStream (m : Mach) (f : Frame) : Option Nat :=
  match f.body with
  | .sv a =>
    let svid := (a.asdus.head?.map (·.svid)).getD []
    let c := m.umb.streams.filter fun e =>
      e.2.cfg.enabled && f.etype == 0x88BA && e.2.cfg.dmac == f.dmac && e.2.cfg.appid == a.appid && e.2.cfg.svid == svid
    match c.find? fun e => e.2.cfg.matchVlan && (f.tags.head?.any fun t => t.2 % 4096 == e.2.cfg.vlan) with
    | some e => some e.1
    | none => (c.find? fun e => !e.2.cfg.matchVlan).map (·.1)
  | .goose _ => none
  | .ptp _ => none
  | .raw => none

/-- The umber subscriber's copy of a frame of PU, taken at the MAC before the rules; while the fabric does not run every
other frame is discarded (R367). -/
def umberCopy (f : Frame) (ts : Ns) (m : Mach) : Mach :=
  if (umberStream m f).isSome && umberRuns m then onUmb (fun u => { u with inbox := u.inbox ++ [(ts, f)] }) m
  else if fabricRuns m then m
  else puOther m

-- Cut-through (R256, R257)

/-- A transmission is of a frame cut through. -/
def isCut (id : Nat) (t : Sending) : Bool := t.cut && t.id == id

/-- The ports that carry a frame cut through, whole or preempted. -/
def cutPorts (m : Mach) (id : Nat) : List Nat :=
  (m.net.ports.filter fun e => e.2.sending.any (isCut id) || e.2.cutOff.any (isCut id)).map (·.1)

/-- A port ends the frame it carries with the inverted FCS: a frame boundary, if the frame was on the wire (R257, R280). -/
def stompPort (id q : Nat) (m : Mach) : Mach :=
  match getPort m q with
  | none => m
  | some x =>
    let c := (((x.sending.filter (isCut id)) <|> (x.cutOff.filter (isCut id))).map (·.cls)).getD 0
    let m := raise 0x0902 0 (fields [(1, q), (1, c), (6, 0)]) (queueCount (queueKey q c) 4 1 m)
    let m := onPort q (fun x => { x with sending := x.sending.filter (!isCut id ·), cutOff := x.cutOff.filter (!isCut id ·) }) m
    if x.sending.any (isCut id) then beginPauses q m else m

/-- Every port that carries the frame ends it with the inverted FCS, and its cells return (R257). -/
def stomp (id : Nat) (m : Mach) : Mach :=
  onNet (fun n => { n with store := terase n.store id }) (forEach (cutPorts m id) (stompPort id) m)

/-- A port can take a copy of a frame cut through from another (R256, conditions 1 to 3). -/
def cutFits (m : Mach) (x : Port) (q c : Nat) : Bool :=
  portUp m q && (getPort m q).any fun y =>
    y.cutThrough && y.sending.isNone && y.fcOut.isEmpty && y.cutOff.isNone && !stopped y c &&
    ((List.range 8).all fun k => (queueHead m q k).isNone) &&
    bytePs x.cfg.speed ≤ bytePs y.cfg.speed && x.cfg.maxLen ≤ y.cfg.maxLen

/-- One target judged: a copy that is admitted at the ingress port's maximum length begins at once (R256). -/
def cutOne (p : Nat) (x : Port) (s : Stored) (q : Nat) (m : Mach) : Mach :=
  let inc := (getPort m p).bind (·.incoming)
  let s := { s with id := (inc.map (·.id)).getD 0, targets := [(q, s.cls)] }
  if !cutFits m x q s.cls then m
  else match admitTry m s with
    | none => m
    | some r =>
      let id := if s.id = 0 then m.net.nextId else s.id
      let s := { s with id := id, src := r.2.2 }
      let m := partition (onNet fun n => { n with
        nextId := max n.nextId (id + 1)
        store := tmod n.store id s (fun y => { y with refs := y.refs + 1 }) }) m
      let m := onPort p (fun y => { y with incoming := some { s with targets := ((inc.map (·.targets)).getD []) ++ [(q, s.cls)] } }) m
      queueCount (queueKey q s.cls) 3 1 (onPort q (fun y => { y with
        sending := some { id := id, cls := s.cls, start := now m, left := s.frame.len, sent := 0, cut := true, owed := false } }) m)

/-- CUT_THROUGH: the first 64 bytes of a frame have come in on a port, as a preemptable frame or not, and each MAC target is judged on
its own (R256). A MAC control frame and one for the twin or chain unit are taken at the MAC (R267, R416, R441). A preemptable frame on a
link where preemption is active is not cut through, and leaves room for the express frame that may come in before its end. -/
def execCutThrough (port : Fin 13) (g : RxFrame) (s : State) : Host.Outcome State Fault Refusal :=
  runOn s fun m => match (getPort m port).map fun x => rulesAt x (firstByte x (now m) 64 g.extra) with
    | none => m
    | some x =>
      let f := g.frame
      let k := decidingRule x f
      let r := ruleOf x k
      let cls := classOf r f
      if !fabricRuns m || !portHears m port 64 then m
      else if g.preemptable && x.preRx then onPort port (fun y => { y with inPre := true }) m
      else if x.incoming.isSome then m
      else
        let st := receivedFrame port k cls { f with len := x.cfg.maxLen } (rxStamp x (now m) 64) false []
        let m := onPort port (fun y => { y with incoming := some st }) m
        if !x.cutThrough || f.etype == 0x8808 || (f.etype == 0x88B5 && (port == 8 || port == 10 || port == 11)) then m
        else
          let m := forEach (macTargets r) (cutOne port x st) m
          if ((getPort m port).bind (·.incoming)).any (·.id != 0) then swCount port 1 m else m

-- Reception (R267)

/-- A MAC control frame is consumed by the MAC (R267). -/
def controlFrame (p : Nat) (f : Frame) (m : Mach) : Mach :=
  let op := rdBe 2 f.payload 0
  if op = 1 then pauseFrame p (rdBe 2 f.payload 2) m
  else if op = 0x0101 then pfcFrame p (.ofNat 8 (rdBe 2 f.payload 2)) ((List.range 8).map fun i => rdBe 2 f.payload (4 + 2 * i)) m
  else macCount p 9 m

/-- The counter of the error a frame is discarded for, if any: symbol error, FCS, reassembly, runt (R266, R267, R277). -/
def rxError (f : RxFrame) : Option Nat :=
  if f.frame.len < 64 then some 4
  else if f.fragments.any fun g => !g.2 then some 7
  else if !f.fcsOk then some 2
  else if !f.symbolsOk then some 3
  else none

/-- A port has received the end of a frame, of which nothing more is to come. -/
def rxEnded (f : RxFrame) (x : Port) : Port :=
  if f.preemptable && x.preRx then { x with inPre := false } else { x with incoming := none }

/-- The end of a frame on a port: it is timestamped, checked and steered; a frame that is being cut through is stomped where
it is bad, and else its true length is known (R37, R256, R257, R267). -/
def receiveFrame (p : Nat) (f : RxFrame) (m : Mach) : Mach :=
  match getPort m p with
  | none => m
  | some x =>
    let ts := rxStamp x (now m) f.frame.len f.extra
    let first := firstByte x (now m) f.frame.len f.extra
    let inc := if f.preemptable && x.preRx then none else x.incoming
    let m := onPort p (rxEnded f) (countReceived p f.frame.len ((f.fragments.map (·.1)).getD 0) m)
    let id := (inc.map (·.id)).getD 0
    let bad := (rxError f).isSome || x.cfg.maxLen < f.frame.len
    let m := if id ≠ 0 && bad then stomp id m else m
    match rxError f with
    | some i => macCount p i m
    | none =>
      let cut := (inc.map fun s => s.targets.map (·.1)).getD []
      let len (z : Sending) : Sending := if isCut id z then { z with left := f.frame.len - z.sent } else z
      let m := if id = 0 ∨ bad then m
        else forEach (cutPorts m id) (fun q => onPort q fun y => { y with sending := y.sending.map len, cutOff := y.cutOff.map len })
          (onStored id (fun s => { s with frame := f.frame, ts := ts }) m)
      if f.frame.etype = 0x8808 ∧ (fabricRuns m ∨ p ≠ 12) then controlFrame p f.frame m
      else
        let m := if p = 12 then umberCopy f.frame ts m else m
        if !fabricRuns m then m
        else if f.frame.etype = 0x88B5 ∧ (p = 8 ∨ p = 10 ∨ p = 11) then m
        else steerFrame p f.frame ts first id cut m

/-- FRAME_RECEIVE: a MAC has received a frame (R267). A frame of EtherType 0x88B5 on P8, P10 or P11 is taken at the MAC by
the twin or chain unit, whose own rows say what it does there (R416, R441). -/
def execFrameReceive (port : Fin 13) (f : RxFrame) (s : State) : Host.Outcome State Fault Refusal :=
  runOn s fun m => if portHears m port f.frame.len then receiveFrame port f m else m

-- Transmission (R274 to R276)

/-- The transmission on the wire is still being received: a frame cut through whose end has not come. -/
def stillComing (m : Mach) (id : Nat) : Bool := id ≠ 0 && m.net.ports.any fun e => e.2.incoming.any fun s => s.id == id

/-- The transmission in progress ends: the copy is complete, and the next frame may begin after the gap (R274). A flow-control frame delays a
launch by its gap too (R283). -/
def finishSending (p : Nat) (m : Mach) : Mach :=
  match getPort m p with
  | none => m
  | some x => match x.sending with
    | none => m
    | some t =>
      let done := t.start + wireNs x ((if t.id = 0 then 20 else 8) + t.left)
      let m := advanceTo (t.start + wireNs x (20 + t.left)) m
      let s := tget m.net.store t.id
      let len := (s.map (·.frame.len)).getD 64
      let m := onPort p (fun x => { x with
        sending := none
        recent := ((t.start, done, (s.map (·.launch)).getD 0) :: x.recent).take 16
        ctrs := bumpBy (bumpBy (bump x.ctrs 10) 11 len) 12 (b2n (0 < t.sent)) }) m
      let m := if t.id = 0 then m
        else
          let m := queueCount (queueKey p t.cls) 2 1 (releaseCopy t.id false m)
          match s with
          | none => m
          | some s => followPtp p s m
      beginPauses p m

/-- The bytes of the frame in transmission that have gone out by now. -/
def sentBytes (m : Mach) (x : Port) (t : Sending) : Nat := cdiv ((now m - t.start) * 1000) (bytePs x.cfg.speed) - 8

/-- A preemptable frame is cut at the next permitted fragment boundary, if one is left (R276). Of one still coming in, 64 bytes more than
are sent have always been received, so that 64 remain at the boundary once 64 have been sent; before that it is not known. A fragment's
end is no frame boundary, so no pause begins there (R280). -/
def preempt (p : Nat) (m : Mach) : Mach :=
  match getPort m p with
  | none => m
  | some x => match x.sending with
    | none => m
    | some t =>
      let b := max 64 (sentBytes m x t)
      if t.id = 0 ∨ 4 ≤ t.cls ∨ !x.preTx ∨ (if stillComing m t.id then sentBytes m x t < 64 else t.left < b + 64) then m
      else
        let m := advanceTo (t.start + wireNs x (8 + b + 4 + 12)) m
        onPort p (fun x => { x with
          sending := none
          cutOff := some { t with left := t.left - b, sent := t.sent + b }
          recent := ((t.start, t.start + wireNs x (8 + b + 4), 0) :: x.recent).take 16
          ctrs := bump (bump x.ctrs 12) 21 }) m

/-- A frame that could start: its class, its id, its bytes, its launch instant if it has one to wait for, and whether it
continues a preempted frame. -/
structure Candidate where
  cls : Nat
  id : Nat
  bytes : Nat
  launch : Option Ns
  late : Bool
  stepped : Bool
  resume : Bool
  deriving DecidableEq, Repr

/-- The candidate of a class: the rest of a preempted frame of the class, or the head of its queue (R274). No other preemptable frame
begins before a preempted one is complete (R275). The rest of a frame waits while its class is stopped under PFC, unless it was
preempted before the partner asked for that (R280). -/
def candidate (m : Mach) (p : Nat) (x : Port) (c : Nat) : Option Candidate :=
  if x.cutOff.any fun t => t.cls != c && c < 4 then none
  else match x.cutOff.filter fun t => t.cls == c with
  | some t =>
    if stopped x c && x.cfg.fc != 1 && !t.owed then none
    else some { cls := c, id := t.id, bytes := t.left, launch := none, late := false, stepped := false, resume := true }
  | none =>
    if stopped x c then none
    else (queueHead m p c).bind fun id => (tget m.net.store id).map fun s =>
      { cls := c, id := id, bytes := s.frame.len, launch := launchOf (now m) s.launch, late := s.late.contains p, stepped := s.stepped, resume := false }

/-- A candidate may start now, as far as its own launch instant goes (R55). -/
def dueNow (t : Ns) (k : Candidate) : Bool := k.stepped || k.launch.all (· ≤ t)

/-- The order of candidates: launch-timed ones by instant and then by class, then the others by class (R56, R274). -/
def before (a b : Candidate) : Bool := match a.launch, b.launch with
  | some s, some t => s < t || (s == t && b.cls < a.cls)
  | some _, none => true
  | none, some _ => false
  | none, none => b.cls < a.cls

/-- The frame of at least a class that a port starts next, if any: none that would not end before the launch instant of a pending higher
class from the hold guard on, up to the cycle in which the launch itself is made, and no rest of a frame that a guard has cut, before the
launch (R55, R56). -/
def nextFrom (lo : Nat) (m : Mach) (p : Nat) (x : Port) : Option Candidate :=
  let t := now m
  let all := (List.range 8).filterMap (candidate m p x)
  let due := (all.filter (dueNow t)).foldl (fun l k => linsert before k l) []
  let wait := all.filter fun k => !dueNow t k
  due.find? fun k => lo ≤ k.cls && !(wait ++ due).any fun w => k.cls < w.cls && w.launch.any fun l =>
    (k.resume && x.guard == some w.cls) || (t < l + 2 && l ≤ t + wireNs x (guardBytes x) && l ≤ t + wireNs x (8 + k.bytes))

/-- The frame a port starts next, if any. -/
def nextFrame : Mach → Nat → Port → Option Candidate := nextFrom 0

/-- The delay of a launch-timed frame is counted: at a step, late, or delayed behind another frame (R50, R55, R56). -/
def countLaunch (p : Nat) (x : Port) (k : Candidate) (m : Mach) : Mach :=
  match k.launch with
  | none => m
  | some l =>
    if k.stepped then macCount p 27 m
    else if k.late then
      let s := tget m.net.store k.id
      let m := match s.bind (·.tx) with
        | none => m
        | some t => ringCount t.ring 11 1 m
      let m := match s.bind (·.block) with
        | none => m
        | some b => when (k.cls == 7) (raise 0x0807 0 (fields [(2, b), (1, p), (5, 0)])) (pubCount b 2 1 m)
      macCount p 24 m
    else if l < now m && x.recent.any fun r => r.1 < now m && l < r.2.1 && launchOf (now m) r.2.2 != some l then macCount p 26 m
    else m

/-- A frame begins on the wire (R274). -/
def startFrame (p : Nat) (x : Port) (k : Candidate) (m : Mach) : Mach :=
  let m := countLaunch p x k m
  let word := ((tget m.net.store k.id).map (·.launch)).getD 0
  let t : Sending :=
    match x.cutOff with
    | some t => if k.resume then { t with start := now m } else { id := k.id, cls := k.cls, start := now m, left := k.bytes, sent := 0, cut := false, owed := false }
    | none => { id := k.id, cls := k.cls, start := now m, left := k.bytes, sent := 0, cut := false, owed := false }
  let m := onPort p (fun x => { x with sending := some t, cutOff := if k.resume then none else x.cutOff, guard := x.guard.filter (k.cls < ·) }) m
  if k.resume then m
  else
    let m := onStored k.id (fun s => if s.stamp then { s with sentTs := txStamp x (now m) } else s) m
    settleHead p k.cls (if k.late then 0 else word) 64 (unqueue (queueKey p k.cls) k.id m)

/-- The oldest flow-control frame due goes out first (R274, R282). -/
def sendFlow (p : Nat) (m : Mach) : Mach :=
  onPort p (fun x => match x.fcOut with
    | [] => x
    | e :: rest => { x with
      fcOut := rest
      sending := some { id := 0, cls := 8, start := now m, left := 64, sent := 0, cut := false, owed := false }
      ctrs := bump x.ctrs (if e.2.any fun y => y.1 != 8 then 18 else 17) }) m

/-- A port whose link is down removes the head of its highest class queue instead of sending it (R285). -/
def drainHead (p : Nat) (m : Mach) : Mach :=
  match (List.range 8).reverse.findSome? fun c => (queueHead m p c).map fun id => (c, id) with
  | none => m
  | some e =>
    let n := ((tget m.net.store e.2).map (·.frame.len)).getD 64
    let m := match getPort m p with
      | none => m
      | some x => advanceTo (now m + wireNs x (20 + n)) m
    dropCopy false e.2 (unqueue (queueKey p e.1) e.2 (macCount p 22 m))

/-- At a frame boundary the next frame is started (R274). -/
def startNext (p : Nat) (m : Mach) : Mach :=
  match getPort m p with
  | none => m
  | some x =>
    if x.sending.isSome then m
    else if !x.fcOut.isEmpty then sendFlow p m
    else match nextFrame m p x with
      | none => m
      | some k => startFrame p x k m

/-- An express frame or a flow-control frame is due while a preemptable frame is in transmission (R276). -/
def wantsExpress (m : Mach) (p : Nat) (x : Port) : Bool :=
  x.sending.any fun t => t.cls < 4 && (!x.fcOut.isEmpty || (nextFrom 4 m p x).isSome)

/-- A disabled port sends the remaining fragments of a preempted frame and nothing else (R285). -/
def sendRest (p : Nat) (m : Mach) : Mach :=
  match getPort m p with
  | none => m
  | some x => match x.sending, x.cutOff with
    | none, some t =>
      startFrame p x { cls := t.cls, id := t.id, bytes := t.left, launch := none, late := false, stepped := false, resume := true } m
    | _, _ => m

/-- The frame in transmission, if any, has ended, and the next one starts (R274, R285). -/
def nextBoundary (p : Nat) (m : Mach) : Mach :=
  match getPort m p with
  | none => m
  | some x =>
    if x.sending.any fun t => stillComing m t.id then m
    else
      let m := finishSending p m
      if !x.cfg.enabled then sendRest p m
      else if x.link then startNext p m
      else if x.sending.isSome then m else drainHead p m

/-- MAC_TRANSMIT_START: the frame in transmission ends, or is preempted, and the next one starts (R274, R276). -/
def transmitStart (p : Nat) (m : Mach) : Mach :=
  match getPort m p with
  | none => m
  | some x =>
    if !portPowered m p then m
    else nextBoundary p (if wantsExpress m p x then preempt p m else m)

/-- MAC_TRANSMIT_START at a port. -/
def execMacTransmitStart (port : Fin 13) (s : State) : Host.Outcome State Fault Refusal := runOn s (transmitStart port)

/-- The launch-timed heads of a port that wait for their instants, with the earliest first. -/
def pendingLaunch (m : Mach) (p : Nat) (x : Port) : Option Candidate :=
  ((((List.range 8).filterMap (candidate m p x)).filter fun k => !dueNow (now m) k).foldl (fun l k => linsert before k l) []).head?

/-- LAUNCH_HOLD_GUARD: from now on the port starts no lower class that would not end before the launch; a preemptable frame
in progress is cut (R56). -/
def execLaunchHoldGuard (port : Fin 13) (s : State) : Host.Outcome State Fault Refusal :=
  runOn s fun m => match getPort m port with
    | none => m
    | some x => match pendingLaunch m port x with
      | none => m
      | some k =>
        if !portUp m port then m
        else
          let m := advanceTo ((k.launch.getD 0) - wireNs x (guardBytes x)) m
          let m := onPort port (fun x => { x with guard := some k.cls }) m
          if x.sending.any fun t => t.cls < k.cls then preempt port m else m

/-- LAUNCH: the launch instant of the port's earliest pending frame comes, and the MAC begins it unless a frame is still in
progress (R55, R56). -/
def execLaunch (port : Fin 13) (s : State) : Host.Outcome State Fault Refusal :=
  runOn s fun m => match getPort m port with
    | none => m
    | some x => match pendingLaunch m port x with
      | none => m
      | some k =>
        if !portUp m port then m
        else
          let m := advanceTo (k.launch.getD 0) m
          let ovf := x.sending.any fun t => t.start + wireNs x (20 + t.left) ≤ now m && !stillComing m t.id
          let m := if ovf then finishSending port m else m
          startNext port m

/-- PAUSE_RESEND: half the pause time has gone since the last frame and the occupancy is still above XON (R282). A class that the port
watches no more is asked no more. -/
def execPauseResend (port : Fin 13) (s : State) : Host.Outcome State Fault Refusal :=
  runOn s fun m => match getPort m port with
    | none => m
    | some x => match x.fcAsked.head? with
      | none => m
      | some _ =>
        let half := quantaNs x x.cfg.pauseTime / 2
        let first := x.fcAsked.foldl (fun a e => if e.2 < a.2 then e else a) (x.fcAsked.headD (8, 0))
        let m := advanceTo (first.2 + half) m
        let use (k : Nat) : Nat := headroomUse x (if k = 8 then none else some k)
        let due := x.fcAsked.filter fun e => e.2 + half ≤ now m && x.cfg.xon < use e.1
        onPort port (fun x => { x with
          fcOut := due.foldl (fun l e => addFlow (now m) e.1 x.cfg.pauseTime l) x.fcOut
          fcAsked := due.foldl (fun t e => tset t e.1 (now m)) x.fcAsked }) m

/-- PREEMPT_VERIFY: the verify procedure of a direction succeeds, or its third attempt fails. The port's own procedure makes its transmit
direction active, and the partner's its receive direction; a failure of the partner's is the partner's to report (R275). -/
def execPreemptVerify (port : Fin 13) (v : Verify) (s : State) : Host.Outcome State Fault Refusal :=
  runOn s fun m =>
    if !(portUp m port && (getPort m port).any fun x => x.cfg.preempt) then m
    else match v with
      | .receive ok => if ok then onPort port (fun x => { x with preRx := true }) m else m
      | .transmit ok =>
        if (getPort m port).any fun x => x.preTx || 3 ≤ x.verifyTries then m
        else if ok then onPort port (fun x => { x with preTx := true }) m
        else raise 0x0A03 0 (fields [(1, port.val), (7, 0)]) (onPort port (fun x => { x with verifyTries := 3 }) m)

-- Links (R285)

/-- LINK_UP: transmission resumes from the queue heads, which are judged then (R55), verification restarts, earlier pauses are cleared
(R285). The port of a transceiver held in its low-power state stays down (R524). -/
def execLinkUp (port : Fin 13) (s : State) : Host.Outcome State Fault Refusal :=
  runOn s fun m => match getPort m port with
    | none => m
    | some x =>
      if !portPowered m port || !x.cfg.enabled || x.link || m.dom.cageLow.contains port.val then m
      else
        let m := onPort port (fun x => { x with link := true, preTx := false, preRx := false, verifyTries := 0, pauses := [] }) m
        let m := forEach (List.range 8) (fun c => settleHead port c 0 64) m
        raise 0x0A01 0 (fields [(1, port.val), (1, x.cfg.speed), (1, x.cfg.fec), (5, 0)]) m

/-- The frame in transmission, and the rest of a preempted one, are abandoned (R285). -/
def abandonSending (p : Nat) (m : Mach) : Mach :=
  match getPort m p with
  | none => m
  | some x =>
    let m := match x.sending with
      | none => m
      | some t =>
        if t.id = 0 then m
        else if t.cut && stillComing m t.id then
          raise 0x0902 0 (fields [(1, p), (1, t.cls), (6, 0)]) (releaseCopy t.id true (queueCount (queueKey p t.cls) 4 1 m))
        else dropCopy false t.id (macCount p 22 m)
    let m := match x.cutOff with
      | none => m
      | some t =>
        if t.cut && stillComing m t.id then
          raise 0x0902 0 (fields [(1, p), (1, t.cls), (6, 0)]) (releaseCopy t.id true (queueCount (queueKey p t.cls) 4 1 m))
        else dropCopy false t.id (macCount p 22 m)
    onPort p (fun x => { x with sending := none, cutOff := none }) m

/-- LINK_DOWN: the frame in transmission is abandoned; a frame of which the first bytes have come in is a receive error, and stomped if it is
cut through (R257, R285). -/
def linkDown (p : Nat) (m : Mach) : Mach :=
  match getPort m p with
  | none => m
  | some x =>
    if !portPowered m p || !x.link then m
    else
      let m := abandonSending p m
      let m := match x.incoming with
        | none => m
        | some s => macCount p 3 (if s.id = 0 then m else stomp s.id m)
      let m := when x.inPre (macCount p 3) m
      let m := onPort p (fun x => { x with link := false, incoming := none, inPre := false, preTx := false, preRx := false }) m
      raise 0x0A02 0 (fields [(1, p), (7, 0)]) m

/-- LINK_DOWN at a port. -/
def execLinkDown (port : Fin 13) (s : State) : Host.Outcome State Fault Refusal := runOn s (linkDown port)

-- Commands

/-- Speeds, FEC codes and flow-control modes of a port (R265). -/
def speedOk (p speed : Nat) : Bool :=
  if p < 9 then speed < 2 else if p = 9 then speed == 4 else if p < 12 then speed == 2 else speed == 1 || speed == 3
def fecOk (p speed fec : Nat) : Bool :=
  if p < 9 then (if speed = 0 then fec < 3 else fec < 2) else if p = 10 ∨ p = 11 then fec < 2 else fec == 0
def flowOk (p fc : Nat) : Bool := if classHeadroom p then fc == 2 else fc < 2
def preemptOk (p : Nat) : Bool := p < 9 || p == 10 || p == 11

/-- The settings a MAC_PORT_SET asks for. -/
def portReq (p : Bytes) : PortCfg :=
  let f := rd 1 p 1
  { enabled := bit f 0, preempt := bit f 1, fc := bits f 3 2, speed := rd 1 p 2, fec := rd 1 p 3, maxLen := rd 2 p 4,
    guard := rd 2 p 6, pfcMask := .ofNat 8 (rd 1 p 8), pauseTime := rd 2 p 10, xoff := rd 4 p 12, xon := rd 4 p 16, stormMs := rd 2 p 20 }

/-- A field that changes only while the port is disabled, or as it is disabled. -/
def portFixed (a b : PortCfg) : Bool :=
  a.speed != b.speed || a.fec != b.fec || a.maxLen != b.maxLen || a.preempt != b.preempt || a.fc != b.fc

def macPortSet : Cmd where
  code := 0x0A01
  len := fun p => layout 32 [(9, 1), (23, 1)] p && rd 1 p 1 < 16 && rd 1 p 22 < 2
  right := rConfig
  journal := true
  sched := true
  check := fun m _ p =>
    let i := rd 1 p 0
    let c := portReq p
    let x := getPort m i
    firstFail [
      (12 < i, 0x0200),
      (!speedOk i c.speed || !fecOk i c.speed c.fec, 0x0201),
      (c.enabled && x.any fun y => y.cfg.enabled && portFixed y.cfg c, 0x0202),
      (!flowOk i c.fc || (c.preempt && !preemptOk i), 0x0203),
      (!watermarksOk c ((x.map (·.headroom)).getD 0), 0x0204),
      (c.maxLen < 128 || 9216 < c.maxLen || (List.range 8).any fun q => (getQueue m.net (queueKey i q)).rmin < cellBytes c.maxLen, 0x0205),
      (c.preempt && c.guard < 151, 0x0206),
      (10000 < c.guard || c.pauseTime = 0 || c.stormMs = 0 || 1000 < c.stormMs, 0x0209)]

/-- A port with some settings watches a class, or its headroom as a whole under 8 (R282). -/
def watched (c : PortCfg) (k : Nat) : Bool := if k = 8 then c.fc == 1 else c.fc == 2 && c.pfcMask.getLsbD k

/-- MAC_PORT_SET at its effective tick: a class it takes out of the PFC mask is asked no more, without a frame of time zero (DESIGN
CHOICE, log entry 84); disabling empties the queues but for the frame in transmission (R285). -/
def applyPortSet (p : Bytes) (m : Mach) : Mach :=
  let i := rd 1 p 0
  let c := portReq p
  match getPort m i with
  | none => m
  | some x =>
    let corr := if rd 1 p 22 = 1 then tset x.corr (c.speed * 4 + c.fec) (ofTwos 32 (rd 4 p 24), ofTwos 32 (rd 4 p 28)) else x.corr
    let m := onPort i (fun x => { x with
      cfg := c, corr := corr, verifyTries := 0
      link := x.link && c.enabled && !portFixed x.cfg c
      offAt := if c.enabled then none else if x.cfg.enabled && x.link then some (now m) else x.offAt
      fcOut := if c.fc = x.cfg.fc ∧ c.enabled then x.fcOut else []
      fcAsked := if c.fc = x.cfg.fc ∧ c.enabled then x.fcAsked.filter (fun e => watched c e.1) else []
      preTx := x.preTx && c.preempt && c.enabled
      preRx := x.preRx && c.preempt && c.enabled
      pauses := if c.enabled then x.pauses else [] }) m
    if c.enabled || !x.cfg.enabled then m
    else forEach (List.range 8) (fun q m =>
      let n := ((getQueue m.net (queueKey i q)).goose ++ (getQueue m.net (queueKey i q)).other).length
      onPort i (fun x => { x with ctrs := bumpBy x.ctrs 23 n }) (emptyQueue (queueKey i q) 7 m)) m

/-- The rule at an offset of a request (R269). -/
def ruleReq (p : Bytes) (o : Nat) (hits : BitVec 64) : Rule :=
  { flags := .ofNat 8 (rd 1 p o), targets := .ofNat 8 (rd 1 p (o + 1)), vlan := rd 2 p (o + 2) % 4096, etype := rd 2 p (o + 4),
    pcp := rd 1 p (o + 6) % 8, cls := rd 1 p (o + 7) % 8, dmac := .ofNat 48 (rdBe 6 p (o + 8)), dmask := .ofNat 48 (rdBe 6 p (o + 16)),
    ringset := rd 2 p (o + 22), portmask := .ofNat 16 (rd 2 p (o + 24)), hits := hits }

/-- A reserved bit of a rule is set (R269). -/
def ruleReserved (p : Bytes) (o : Nat) : Bool :=
  64 ≤ rd 1 p (o + 1) || 4096 ≤ rd 2 p (o + 2) || 8 ≤ rd 1 p (o + 6) || 8 ≤ rd 1 p (o + 7) || !zeros p (o + 14) 2 ||
  8192 ≤ rd 2 p (o + 24) || !zeros p (o + 26) 6

def macRuleSet : Cmd where
  code := 0x0A02
  len := layout 40 [(2, 6)]
  right := rConfig
  journal := true
  sched := true
  check := fun m _ p =>
    let r := ruleReq p 8 0
    firstFail [
      (12 < rd 1 p 0 || 64 < rd 1 p 1, 0x0200),
      (ruleReserved p 8 || r.portmask.getLsbD (rd 1 p 0), 0x0207),
      (r.targets.getLsbD 3 && (tget m.net.ringSets r.ringset).isNone, 0x0208)]

/-- MAC_RULE_SET at its effective tick; the match count stays (R269, R286). The rule as it stood is kept for the frames whose first byte
has come in by then; none lasts a second. -/
def applyRuleSet (p : Bytes) (m : Mach) : Mach :=
  let i := rd 1 p 1
  onPort (rd 1 p 0) (fun x => { x with
    rules := tset x.rules i (ruleReq p 8 (ruleOf x i).hits)
    oldRules := (x.oldRules.filter fun e => now m < e.1 + nsPerSec) ++ [(now m, i, ruleOf x i)] }) m

def macPortStatus : Cmd where
  code := 0x0A10
  len := fun p => layout 8 [(2, 6)] p && rd 1 p 1 < 2
  apply := false
  roleOk := clearOk 1
  check := fun _ _ p => if 12 < rd 1 p 0 then 0x0200 else 0

/-- MAC_PORT_STATUS: state, corrections and counters of a port (R286). -/
def execMacPortStatus (h : Hdr) (p : Bytes) (s : State) : Host.Outcome State Fault Refusal :=
  let i := rd 1 p 0
  runOn s (runRead macPortStatus h p
    (fun m => match getPort m i with
      | none => []
      | some x =>
        let classes := (List.range 8).filter (stopped x)
        let storm := x.pauses.any fun e => e.2.ignore.isSome
        fields [(1, b2n x.cfg.enabled + 2 * b2n x.link + 4 * b2n x.preTx + 8 * b2n x.preRx + 16 * b2n (!classes.isEmpty) + 32 * b2n storm),
          (1, x.cfg.speed), (1, x.cfg.fec), (1, (classes.map (2 ^ ·)).sum), (4, guardBytes x), (4, toTwos 32 (corrOf x).1),
          (4, toTwos 32 (corrOf x).2)] ++ ctrBytes x.ctrs 28)
    (fun m => when (bit (rd 1 p 1) 0) (onPort i fun x => { x with ctrs := ctrClear x.ctrs 28 }) m))

def macRuleStatus : Cmd where
  code := 0x0A11
  len := layout 8 [(1, 7)]
  apply := false
  check := fun _ _ p => if 12 < rd 1 p 0 then 0x0200 else 0

/-- A rule as its 32 bytes and its match count (R269, R286). -/
def ruleBytes (r : Rule) : Bytes :=
  fields [(1, r.flags.toNat), (1, r.targets.toNat), (2, r.vlan), (2, r.etype), (1, r.pcp), (1, r.cls)] ++ be 6 r.dmac.toNat ++
  le 2 0 ++ be 6 r.dmask.toNat ++ fields [(2, r.ringset), (2, r.portmask.toNat), (6, 0), (8, r.hits.toNat)]

/-- MAC_RULE_STATUS: every rule of a port with its match count (R286). -/
def execMacRuleStatus (h : Hdr) (p : Bytes) (s : State) : Host.Outcome State Fault Refusal :=
  runOn s (runRead macRuleStatus h p
    (fun m => match getPort m (rd 1 p 0) with
      | none => []
      | some x => (List.range 65).flatMap fun i => ruleBytes (ruleOf x i)) id)

end Sys2Proof.Machine
end

