-- ==== Sys2Proof/Machine/Hdma.lean ====
section
/-! DEFINITION. The host DMA rings: doorbells, delivery, transmit reading, completions, and their commands (chapter 11). -/
namespace Sys2Proof.Machine
open Sys2Proof

/-- Descriptors of a ring (R289). -/
def ringSize (x : Ring) : Nat := 2 ^ x.s

/-- The ring of a slice at a doorbell position, if one is assigned there (R292, R293). -/
def ringAt (m : Mach) (tag pos : Nat) : Option Nat :=
  (m.net.rings.find? fun e => e.2.owner == some tag && e.2.pos == some pos).map (·.1)

/-- The address of a descriptor (R290). -/
def descAddr (x : Ring) (i : BitVec 32) : Nat := x.base + i.toNat % ringSize x * 32

/-- The owner may read or write a descriptor where it lies (R289). -/
def descOk (m : Mach) (x : Ring) (i : BitVec 32) (acc : Nat) : Bool := bufferOk m (ringTag x) (descAddr x i) 32 acc

/-- The 32 bytes of a descriptor as they are read, and written back; a write the owner could not make is refused (R289). -/
def readDesc (m : Mach) (x : Ring) (i : BitVec 32) : Bytes := slcGet m (ringTag x) (descAddr x i) 32
def writeDesc (x : Ring) (i : BitVec 32) (b : Bytes) (m : Mach) : Mach :=
  if descOk m x i 1 then slcPut (ringTag x) (descAddr x i) b m else m

/-- Completed descriptors counted, and added to the pending count (R305, R308). -/
def completeDescs (r k : Nat) (m : Mach) : Mach :=
  if k = 0 then m
  else onRing r (fun x => { x with
    pend := x.pend + k
    oldest := if x.pend = 0 then m.time.tick else x.oldest
    ctrs := bumpBy x.ctrs 0 k }) m

/-- A descriptor fault reported (R309). -/
def descFault (r k : Nat) (m : Mach) : Mach :=
  raiseQuiet 0x0B03 r (ringTag (getRing m r)) (fields [(2, r), (1, ringTag (getRing m r)), (5, 0)]) (ringCount r 6 k m)

-- Receive descriptors (R296 to R298)

/-- The bytes of a frame as delivered: from the destination address on, without the FCS (R298). -/
def frameBytes (f : Frame) : Bytes :=
  padTo (f.len - 4) (be 6 f.dmac.toNat ++ be 6 f.smac.toNat ++ (f.tags.flatMap fun t => be 2 t.1 ++ be 2 t.2) ++ be 2 f.etype ++ f.payload)

/-- A receive descriptor written back (R297). -/
def rxDesc (s : Stored) (len flen status : Nat) (first last : Bool) (cookie : BitVec 64) (i : BitVec 32) : Bytes :=
  fields [(4, s.ts / nsPerSec), (4, s.ts % nsPerSec), (2, len), (2, flen), (1, status),
    (1, b2n first + 2 * b2n last + 4 * b2n s.oversize), (1, s.port), (1, s.cls), (8, cookie.toNat), (1, s.rule), (3, 0), (4, i.toNat)]

/-- Descriptors of one frame written back together, in index order, and HEAD past all that were read (R298). -/
def writeBack (r : Nat) (s : Stored) (used : List (BitVec 32 × Nat × BitVec 64)) (flen status : Nat) (m : Mach) : Mach :=
  let x := getRing m r
  let n := used.length
  let m := forEach used.zipIdx (fun e m =>
    let d := e.1
    writeDesc x d.1 (rxDesc s d.2.1 (if e.2 + 1 = n then flen else 0) status (e.2 == 0) (e.2 + 1 == n) d.2.2 d.1) m) m
  completeDescs r n (onRing r (fun x => { x with head := x.rdIdx }) m)

/-- The copy a ring's queue holds has been dealt with. -/
def takeCopy (r id : Nat) (m : Mach) : Mach := releaseCopy id false (unqueue (queueKey 14 r) id m)

/-- A frame broken off: its descriptors written back with a status, the rest dropped (R300, R307). -/
def breakDelivery (r status ctr : Nat) (m : Mach) : Mach :=
  match (getRing m r).delivery with
  | none => m
  | some d =>
    let m := match tget m.net.store d.id with
      | none => m
      | some s => writeBack r s d.used 0 status m
    takeCopy r d.id (onRing r (fun x => { x with delivery := none, ctrs := bump x.ctrs ctr }) m)

/-- In the starved state a frame without a posted descriptor is discarded at once (R301). -/
def dropStarved (r id : Nat) (m : Mach) : Mach :=
  takeCopy r id (onRing r (fun x => { x with starvedDrops := x.starvedDrops + 1, ctrs := bump x.ctrs 4 }) m)

/-- A completion item of the slice is held, so nothing new is begun for its rings (R306). -/
def completionHeld (m : Mach) (tag : Nat) : Bool := (heldItem m tag .engine).isSome

/-- The delivery has filled a buffer, or read a descriptor, of its ring. -/
def Delivery.begun (d : Delivery) : Bool := d.done != 0 || d.used != []

/-- A frame waits for something the owner has not given: a descriptor, or, before it is begun, a ready entry (R300, R306). -/
def holding (m : Mach) (x : Ring) (d : Delivery) : Bool := x.rdIdx == x.tail || (!d.begun && completionHeld m (ringTag x))

/-- The hold's limit: the frame is dropped, the ring is starved, and frames behind it without a descriptor are discarded at once (R300,
R301). -/
def endHold (r : Nat) (m : Mach) : Mach :=
  let x := getRing m r
  let m := breakDelivery r 1 3 m
  let m := onRing r (fun x => { x with starve := true, starved := true }) m
  let m := raise 0x0B01 (ringTag x) (fields [(2, r), (1, ringTag x), (5, 0)]) m
  if x.rdIdx = x.tail then forEach (getQueue m.net (queueKey 14 r)).other (dropStarved r) m else m

/-- A limit that has passed has ended its hold, whatever comes after it; what comes in the cycle that acts on the limit, the first of 2 ns at
or after it, comes before it (R300, R535). In the reset of its slice no hold ends (R307). -/
def settleHold (r : Nat) (m : Mach) : Mach :=
  let x := getRing m r
  if x.delivery.any (fun d => holding m x d && decide (d.hold + 2 ≤ now m)) && !sliceResets m (ringTag x) then endHold r m else m

-- Doorbells (R291 to R294)

/-- A write of TAIL to a ring (R294, R301). -/
def doorbell (tag r : Nat) (v : BitVec 32) (m : Mach) : Mach :=
  let m := settleHold r m
  let x := getRing m r
  if !x.enabled || sliceResets m tag then ringCount r 7 1 m
  else if ringSize x < (v - x.head).toNat || 2 ^ 31 ≤ (v - x.tail).toNat then
    raiseQuiet 0x0B04 r tag (fields [(2, r), (1, tag), (5, 0)]) (ringCount r 8 1 m)
  else
    let ends := x.starved && v != x.tail
    let m := if ends then raise 0x0B02 tag (fields [(2, r), (1, tag), (1, 0), (4, x.starvedDrops)]) m else m
    onRing r (fun x => { x with
      tail := v
      starved := x.starved && !ends
      starvedDrops := if ends then 0 else x.starvedDrops }) m

/-- RDB_TAIL: the item a core runs writes the doorbell of a position (R292). -/
def execRdbTail (core : Fin 32) (pos : Fin 64) (v : BitVec 64) (s : State) : Host.Outcome State Fault Refusal :=
  runOn s fun m => match coreRun m core with
    | none => m
    | some r => match ringAt m r.tag pos with
      | none => m
      | some g => doorbell r.tag g (v.setWidth 32) m

/-- RDB_HEAD as it reads (R293). -/
def headWord (x : Ring) : BitVec 64 :=
  .ofNat 64 (b2n x.enabled * 2 ^ 63 + b2n x.tx * 2 ^ 62 + b2n x.starve * 2 ^ 61 + b2n x.starved * 2 ^ 60 + x.head.toNat)

/-- RDB_HEAD_READ: HEAD and the state of the ring at a position; the read clears STARVE (R293). -/
def execRdbHeadRead (core : Fin 32) (pos : Fin 64) (s : State) : Host.Outcome State Fault Refusal :=
  runOn s fun m => match coreRun m core with
    | none => m
    | some r => match ringAt m r.tag pos with
      | none => coreReads core 0 m
      | some g => onRing g (fun x => { x with starve := false }) (coreReads core (headWord (getRing m g)) m)

-- Delivery (R298 to R301)

/-- What filling the posted buffers with a frame ends in. -/
inductive Filled where
  | whole (used : List (BitVec 32 × Nat × BitVec 64)) (m : Mach)
  | short (done : Nat) (used : List (BitVec 32 × Nat × BitVec 64)) (m : Mach)

/-- Posted buffers filled in index order; one the owner cannot write is written back alone (R298), and so is one whose descriptor the owner
cannot read (R289; log entry 75). -/
def fillBuffers (r : Nat) (s : Stored) (data : Bytes) :
    Nat → Nat → List (BitVec 32 × Nat × BitVec 64) → Mach → Filled
  | 0, done, used, m => .short done used m
  | fuel + 1, done, used, m =>
    let x := getRing m r
    if data.length ≤ done then .whole used m
    else if x.rdIdx = x.tail then .short done used m
    else
      let i := x.rdIdx
      let d := readDesc m x i
      let va := rd 8 d 0
      let size := 2048 * rd 1 d 8
      let cookie := BitVec.ofNat 64 (rd 8 d 16)
      let m1 := onRing r (fun x => { x with rdIdx := x.rdIdx + 1 }) m
      let n := min size (data.length - done)
      if !descOk m x i 0 ∨ va % 64 ≠ 0 ∨ size = 0 ∨ 65536 < size ∨ !bufferOk m (ringTag x) va size 1 then
        let m2 := completeDescs r 1 (descFault r 1 (writeDesc x i (rxDesc s 0 0 5 false false cookie i) m1))
        let m2 := if used.isEmpty then onRing r (fun x => { x with head := x.rdIdx }) m2 else m2
        fillBuffers r s data fuel done used m2
      else fillBuffers r s data fuel (done + n) (used ++ [(i, n, cookie)]) (slcPut (ringTag x) va (slice data done n) m1)

/-- A frame goes on being delivered from where it stands; where it comes to want a buffer its hold begins, of at most a tick (R298,
R300). -/
def deliverFrame (r : Nat) (s : Stored) (done : Nat) (used : List (BitVec 32 × Nat × BitVec 64)) (m : Mach) : Mach :=
  let hold := now m + ticksNs m.time.grid 1
  let data := frameBytes s.frame
  match fillBuffers r s data (2 * ringSize (getRing m r)) done used m with
  | .whole used m =>
    let m := writeBack r s used data.length 0 m
    let m := onRing r (fun x => { x with delivery := none, ctrs := bumpBy (bump x.ctrs 1) 2 data.length }) m
    queueCount (queueKey 14 r) 2 1 (takeCopy r s.id m)
  | .short done used m => onRing r (fun x => { x with
      delivery := some { id := s.id, done := done, used := used, hold := hold } }) m

/-- A delivery in progress at its slice's reset runs out to the null sink: nothing is written, and no descriptor (R174, R307). -/
def sinkDelivery (r : Nat) (m : Mach) : Mach :=
  match (getRing m r).delivery with
  | none => m
  | some d => queueCount (queueKey 14 r) 2 1 (takeCopy r d.id (onRing r (fun x => { x with delivery := none }) m))

/-- The owner of a ring takes frames: the system, or a slice that runs, or drains what came before its stop (R28). -/
def ringDrains (m : Mach) (tag : Nat) : Bool := tag == 0 || (getSlice m tag).any fun s => s.state == .running || s.state == .stopped

/-- The engine serves the head of a ring's receive queue (R298 to R301, R306). -/
def ringDeliver (r : Nat) (m : Mach) : Mach :=
  let m := settleHold r m
  let x := getRing m r
  let tag := ringTag x
  if !fabricRuns m || !computeRuns m || x.tx then m
  else if sliceResets m tag then sinkDelivery r m
  else if !x.enabled || !ringDrains m tag then m
  else match x.delivery with
    | some d => (match tget m.net.store d.id with
      | none => onRing r (fun x => { x with delivery := none }) m
      | some s => if holding m x d then m else deliverFrame r s d.done d.used m)
    | none => match (getQueue m.net (queueKey 14 r)).other.head? with
      | none => m
      | some id => match tget m.net.store id with
        | none => m
        | some s =>
          if x.starved && x.rdIdx == x.tail then dropStarved r id m
          else if completionHeld m tag then
            onRing r (fun x => { x with delivery := some { id := id, done := 0, used := [], hold := now m + ticksNs m.time.grid 1 } }) m
          else deliverFrame r s 0 [] m

/-- RING_RECEIVE_DELIVERY: a frame from the ring's receive queue goes into posted buffers (R298). -/
def execRingReceiveDelivery (ring : Fin 256) (s : State) : Host.Outcome State Fault Refusal := runOn s (ringDeliver ring)

/-- RING_HOLD_EXPIRE: what the frame waits for has not been given for 1 tick, and its hold ends (R300, R301). -/
def execRingHoldExpire (ring : Fin 256) (s : State) : Host.Outcome State Fault Refusal :=
  runOn s fun m =>
    let x := getRing m ring
    match x.delivery with
    | none => m
    | some d => if holding m x d && !sliceResets m (ringTag x) then endHold ring (advanceTo d.hold m) else m

-- Transmit (R302 to R304)

/-- The descriptors of the next frame of a transmit ring, up to the one with the last flag, or to one the owner cannot read (R289; log
entry 75); none while it is not posted. -/
def frameDescs (m : Mach) (x : Ring) : Nat → BitVec 32 → List Bytes → Option (List Bytes)
  | 0, _, _ => none
  | fuel + 1, i, acc =>
    if i = x.tail then none
    else
      let d := readDesc m x i
      if bit (rd 1 d 10) 0 || !descOk m x i 0 then some (acc ++ [d]) else frameDescs m x fuel (i + 1) (acc ++ [d])

/-- A frame from its bytes: addresses, any VLAN tags, EtherType, payload (R266). -/
def frameTags : Nat → Bytes → List (Nat × Nat)
  | 0, _ => []
  | fuel + 1, b =>
    let t := rdBe 2 b 0
    if (t == 0x8100 || t == 0x88A8) && 4 ≤ b.length then (t, rdBe 2 b 2) :: frameTags fuel (b.drop 4) else []
def parseFrame (b : Bytes) : Frame :=
  let b := b ++ List.replicate (60 - b.length) 0
  let tags := frameTags 2 (b.drop 12)
  let o := 12 + 4 * tags.length
  { dmac := .ofNat 48 (rdBe 6 b 0), smac := .ofNat 48 (rdBe 6 b 6), tags := tags, etype := rdBe 2 b o, len := b.length + 4,
    prp := none, body := .raw, payload := b.drop (o + 2) }

/-- A reserved bit or field is set in the first descriptor of a frame; the launch word counts where it is present (R54, R302, R303). -/
def txReserved (d : Bytes) : Bool :=
  8 ≤ rd 1 d 10 || 8 ≤ rd 1 d 11 || 8192 ≤ rd 2 d 12 || !zeros d 14 2 || (bit (rd 1 d 10) 2 && bits (rd 8 d 16) 31 30 != 0)

/-- The status a frame of descriptors is refused with, 0 when it is not (R303). -/
def txRefusal (m : Mach) (x : Ring) (ds : List Bytes) : Nat :=
  let d := ds.headD []
  let ports := rd 2 d 12
  let total := (ds.map fun d => rd 2 d 8).sum
  let flags := rd 1 d 10
  let n := ((List.range 13).filter (bit ports)).length
  firstFail [
    ((List.range ds.length).any fun k => !descOk m x (x.rdIdx + .ofNat 32 k) 0, 5),
    (txReserved d, 6),
    (total = 0 || (List.range 13).any fun i => bit ports i && (getPort m i).any fun y => y.cfg.maxLen < total + 4, 6),
    (ports = 0 || (List.range 13).any fun i => bit ports i && !x.txPorts.getLsbD i, 6),
    (!x.txClass.getLsbD (rd 1 d 11), 6),
    (bit flags 1 && 1 < n, 6),
    (ds.any fun d => !bufferOk m (ringTag x) (rd 8 d 0) (rd 2 d 8) 0, 5)]

/-- A transmit descriptor written back (R304). -/
def txDesc (d : Bytes) (ts : Ns) (status : Nat) (late : Bool) (i : BitVec 32) : Bytes :=
  fields [(4, ts / nsPerSec), (4, ts % nsPerSec)] ++ slice d 8 6 ++ fields [(1, status), (1, b2n late), (4, i.toNat), (4, 0)] ++ slice d 24 8

/-- HEAD passes every frame written back that stands next (R291, R295). -/
def passHead : Nat → Ring → Ring
  | 0, x => x
  | fuel + 1, x => match x.doneTx.find? fun e => e.1 == x.head with
    | none => x
    | some e => passHead fuel { x with head := x.head + .ofNat 32 e.2, doneTx := x.doneTx.erase e }

/-- Every descriptor of a transmit frame written back with one status (R303, R304). -/
def finishTx (r : Nat) (first : BitVec 32) (ds : List Bytes) (ts : Ns) (status : Nat) (late : Bool) (m : Mach) : Mach :=
  let x := getRing m r
  let m := forEach ds.zipIdx (fun e m =>
    let i := first + .ofNat 32 e.2
    writeDesc x i (txDesc e.1 ts status late i) m) m
  completeDescs r ds.length (onRing r (fun x => passHead 4096 { x with doneTx := x.doneTx ++ [(first, ds.length)] }) m)

/-- The frame that a run of descriptors makes (R302). -/
def txFrame (m : Mach) (r : Nat) (x : Ring) (first : BitVec 32) (ds : List Bytes) : Stored :=
  let d := ds.headD []
  let flags := rd 1 d 10
  let cls := rd 1 d 11 % 8
  let data := ds.flatMap fun d => slcGet m (ringTag x) (rd 8 d 0) (rd 2 d 8)
  let ports := (List.range 13).filter (bit (rd 2 d 12))
  { innerFrame (parseFrame data) cls 14 (ports.map fun i => (i, cls)) false none
      (if bit flags 2 then .ofNat 64 (rd 8 d 16) else 0) (now m) with
    acct := some (ringTag x), stamp := bit flags 1, tx := some { ring := r, first := first, count := ds.length, descs := ds, epoch := x.epoch } }

/-- A transmit ring of a slice has a whole frame posted. -/
def txReady (m : Mach) (x : Ring) : Bool := x.tx && x.enabled && (frameDescs m x 4096 x.rdIdx []).isSome

/-- It is a ring's turn: of the slice's rings with a frame posted, it is the next in ascending doorbell position after the one read last,
and round again (R303). The system's rings have no positions. -/
def ringTurn (m : Mach) (tag : Nat) (x : Ring) : Bool :=
  tag == 0 || (
    let last := tgetD m.net.turns tag 64
    let place (y : Ring) : Nat := (y.pos.getD 0 + 64 - (last + 1) % 65) % 64
    m.net.rings.all fun e => !(e.2.owner == some tag && txReady m e.2) || place x ≤ place e.2)

/-- RING_TRANSMIT_READ: the next frame of a transmit ring whose turn it is is read, and refused or offered for admission (R303). -/
def execRingTransmitRead (ring : Fin 256) (s : State) : Host.Outcome State Fault Refusal :=
  runOn s fun m =>
    let x := getRing m ring
    let tag := ringTag x
    if !fabricRuns m || !computeRuns m || !x.tx || !x.enabled || x.owner.isNone || !(tag == 0 || sliceRuns m tag) ||
      m.net.stalled.contains tag || completionHeld m tag || !ringTurn m tag x then m
    else match frameDescs m x 4096 x.rdIdx [] with
      | none => m
      | some ds =>
        let first := x.rdIdx
        let m1 := onRing ring (fun x => { x with rdIdx := x.rdIdx + .ofNat 32 ds.length }) m
        let m1 := if tag = 0 then m1 else onNet (fun n => { n with turns := tset n.turns tag (x.pos.getD 0) }) m1
        let st := txRefusal m x ds
        if st = 0 then sendInner (txFrame m ring x first ds) m1
        else
          finishTx ring first ds 0 st false (descFault ring ds.length m1)

/-- RING_TRANSMIT_COMPLETE: no copy of a transmitted frame is left, and its descriptors are written back (R304). Those read before the ring
was enabled anew are the owner's again, and are not (R291; DESIGN CHOICE, log entry 84). -/
def execRingTransmitComplete (frame : Nat) (s : State) : Host.Outcome State Fault Refusal :=
  runOn s fun m => match tget m.net.store frame with
    | none => m
    | some f => match f.tx with
      | none => m
      | some t =>
        if f.refs ≠ 0 then m
        else
          let m := onNet (fun n => { n with store := terase n.store frame }) m
          let status := if f.tooFar then 3 else if f.removed then 4 else 0
          let m := if status = 0 then onRing t.ring (fun x => { x with ctrs := bumpBy (bump x.ctrs 1) 2 (f.frame.len - 4) }) m else m
          if t.epoch ≠ (getRing m t.ring).epoch then m
          else finishTx t.ring t.first t.descs (if f.stamp then f.sentTs else 0) status (f.late != []) m

-- Completion items (R305)

/-- A ring's completions are to be reported now. -/
def reportDue (m : Mach) (x : Ring) : Bool :=
  x.armed && x.cmpCount != 0 && 0 < x.pend &&
  (x.cmpCount ≤ x.pend || (x.cmpTicks != 0 && x.oldest + x.cmpTicks ≤ m.time.tick))

/-- One completion item posted for a slice's ring, or the CP notified of a system ring (R305). -/
def reportRing (r : Nat) (m : Mach) : Mach :=
  let x := getRing m r
  if !computeRuns m || !reportDue m x then m
  else match x.owner with
    | none => m
    | some 0 => onRing r (fun x => { x with pend := 0, ctrs := bump x.ctrs 9 }) m
    | some tag =>
      if x.handler = 0xFFFF then m
      else
        let refused := noHandler m tag x.handler
        let m := postItem tag x.handler .engine (r + 256 * x.pos.getD 0) x.head.toNat (some r) m
        if refused then ringCount r 10 1 m
        else onRing r (fun x => { x with pend := 0, armed := false, ctrs := bump x.ctrs 9 }) m

/-- RING_COMPLETION_POST: the pending count has reached CMP_COUNT, or CMP_TICKS have gone (R305). -/
def execRingCompletionPost (ring : Fin 256) (s : State) : Host.Outcome State Fault Refusal := runOn s (reportRing ring)

-- Enabling, disabling, reset (R307)

/-- A ring as it stands on enabling: empty and armed. -/
def ringEmpty (x : Ring) : Ring :=
  { x with
    head := 0, tail := 0, rdIdx := 0, starve := false, starved := false, armed := true, pend := 0, oldest := 0,
    delivery := none, starvedDrops := 0, doneTx := [], epoch := x.epoch + 1 }

/-- A frame whose delivery has begun completes as far as descriptors are posted, and is broken off where one is wanting; one that has not
begun stays with its queue, and in the reset of its slice it runs out to the null sink (R307). -/
def settleDelivery (r : Nat) (m : Mach) : Mach :=
  match (getRing m r).delivery with
  | none => m
  | some d =>
    if !d.begun then onRing r (fun x => { x with delivery := none }) m
    else if sliceResets m (ringTag (getRing m r)) then sinkDelivery r m
    else match tget m.net.store d.id with
      | none => breakDelivery r 2 5 m
      | some s => breakDelivery r 2 5 (deliverFrame r s d.done d.used m)

/-- A ring disabled at its tick: a frame in delivery is settled and the receive queue emptied (R259, R307). -/
def disableRing (r : Nat) (m : Mach) : Mach :=
  if !(getRing m r).enabled then m
  else emptyQueue (queueKey 14 r) 7 (onRing r (fun x => { x with enabled := false }) (settleDelivery r m))

/-- A ring released: disabled, then unassigned (R168). -/
def releaseRing (r : Nat) (m : Mach) : Mach := onRing r (fun x => { x with owner := none, pos := none }) (disableRing r m)

/-- A ring given to an owner; its counters start anew (R308). -/
def assignRing (r : Nat) (owner : Nat) (pos : Option Nat) : Mach → Mach :=
  onRing r fun x => { x with owner := some owner, pos := pos, ctrs := if x.owner = some owner then x.ctrs else [] }

/-- The rings of an owner. -/
def ringsOfSlice (m : Mach) (tag : Nat) : List Nat := (m.net.rings.filter fun e => e.2.owner == some tag).map (·.1)

/-- A delivery into a slice's memory is in progress (R174). -/
def inFlight (m : Mach) (tag : Nat) : Bool := (ringsOfSlice m tag).any fun r => (getRing m r).delivery.isSome

/-- At reset complete every ring of a slice is empty and armed, enabled as before (R307). -/
def resetRings (tag : Nat) (m : Mach) : Mach := forEach (ringsOfSlice m tag) (fun r m => onRing r ringEmpty (sinkDelivery r m)) m

/-- Frames still wholly in the buffer that a slice's rings sent or that wait for them, at its reset: each copy that no MAC
has begun is removed and counted, but for a frame in delivery, which runs out to the null sink (R174, R259, R307). -/
def discardAtReset (tag : Nat) (m : Mach) : Nat × Mach :=
  let rings := ringsOfSlice m tag
  let m := forEach rings (fun r => onRing r fun x => { x with delivery := x.delivery.filter (·.begun) }) m
  let sinking (r id : Nat) : Bool := (getRing m r).delivery.any fun d => d.id == id
  let mine (id : Nat) : Bool := (tget m.net.store id).any fun s => s.acct == some tag
  let published (s : Stored) : Bool := s.block.any fun b => (tget m.sig.pubs b).any fun e => pubSlice m e.entry == tag
  let pubMine (id : Nat) : Bool := (tget m.net.store id).any published
  let hits := m.net.queues.flatMap fun e =>
    ((e.2.goose ++ e.2.other).filter fun id => mine id || pubMine id || (e.1 / 512 == 14 && rings.contains (e.1 % 512) && !sinking (e.1 % 512) id)).map fun id => (e.1, id)
  let gone (s : Stored) : Bool := s.acct == some tag || published s
  let waiting := m.net.inner.filter gone
  let m := forEach hits.reverse (fun x m => removeQueued x.1 6 true x.2 (if queued m.net x.1 x.2 then blockCount 4 x.2 m else m)) m
  let m := forEach (waiting.filterMap (·.block)) (fun b => pubCount b 4 1) m
  let m := onNet (fun n => { n with
    inner := n.inner.filter fun s => !gone s
    stalled := n.stalled.filter (· != tag)
    store := (n.store.filter fun e => !(e.2.refs == 0 && e.2.acct == some tag)).map fun e =>
      (e.1, if e.2.acct = some tag then { e.2 with tx := none } else e.2) }) m
  (hits.length + waiting.length, onSlice tag (fun s => { s with ctrs := bumpBy s.ctrs 3 (hits.length + waiting.length) }) m)

-- Commands

/-- The settings a HDMA_RING_SET asks for, in a ring. -/
def ringReq (x : Ring) (p : Bytes) : Ring :=
  { x with
    enabled := bit (rd 1 p 2) 0, tx := bit (rd 1 p 2) 1, s := rd 1 p 3, handler := rd 2 p 4, cmpCount := rd 2 p 6,
    cmpTicks := rd 1 p 8, txClass := .ofNat 8 (rd 1 p 9), txPorts := .ofNat 16 (rd 2 p 10), base := rd 8 p 16 }

/-- A slice may change the moderation of its own rings alone. -/
def ringSliceMay (m : Mach) (t : Nat) (p : Bytes) : Bool :=
  let x := getRing m (rd 2 p 0)
  let y := ringReq x p
  rd 2 p 0 < 256 && x.owner == some t && !bit (rd 1 p 2) 2 &&
  x.enabled == y.enabled && x.tx == y.tx && x.s == y.s && x.txClass == y.txClass && x.txPorts == y.txPorts && x.base == y.base

/-- The descriptor array of a slice's ring is aligned and lies in one read-write ring-buffer region of the owner, none of it released;
that of a system ring lies in memory of hue 0 (R170, R290). -/
def arrayOk (m : Mach) (x : Ring) : Bool :=
  let e := x.base + 32 * ringSize x
  match x.owner with
    | none => true
    | some 0 => e ≤ systemBytes m
    | some t => x.base % 4096 == 0 && (getSlice m t).any fun s => s.regions.any fun r =>
        r.kind == 4 && r.access.getLsbD 0 && r.access.getLsbD 1 && r.vbase ≤ x.base && e ≤ r.vbase + r.size &&
        !(r.released.any fun y => x.base < r.vbase + y.1 + y.2 && r.vbase + y.1 < e)

def hdmaRingSet : Cmd where
  code := 0x0B01
  len := fun p => layout 24 [(12, 4)] p && rd 1 p 2 < 8
  right := rConfig
  journal := true
  sched := true
  slice := ringSliceMay
  check := fun m _ p =>
    let r := rd 2 p 0
    let x := getRing m r
    let y := ringReq x p
    let tag := ringTag x
    firstFail [
      (255 < r, 0x0200),
      (x.enabled && (x.tx != y.tx || x.s != y.s || x.base != y.base), 0x0201),
      (!arrayOk m { y with owner := if bit (rd 1 p 2) 2 && x.owner.isNone then some 0 else x.owner }, 0x0202),
      (y.s < 6 || 12 < y.s || 4096 < y.cmpCount, 0x0203),
      (bit (rd 1 p 2) 2 && tag != 0, 0x0206),
      (tag != 0 && y.handler != 0xFFFF && (handlerOf m tag y.handler).isNone, 0x0207)]

/-- HDMA_RING_SET at its effective tick (R307). A ring that was to be disabled and is enabled with another array at the same tick starts
with that one (R27). -/
def applyRingSet (p : Bytes) (m : Mach) : Mach :=
  let r := rd 2 p 0
  let x := getRing m r
  let y := ringReq x p
  let anew := x.tx != y.tx || x.s != y.s || x.base != y.base
  let m := if x.enabled && (anew || !bit (rd 1 p 2) 0) then disableRing r m else m
  let m := onRing r (fun y => ringReq y p) m
  let m := if ringTag x ≠ 0 then m
    else if bit (rd 1 p 2) 2 then assignRing r 0 none m
    else onRing r (fun y => { y with owner := none }) m
  if (anew || !x.enabled) && bit (rd 1 p 2) 0 then onRing r ringEmpty m else m

def hdmaRingsetSet : Cmd where
  code := 0x0B02
  len := fun p => zeros p 3 5 && p.length == 8 + 2 * rd 1 p 2 && 8 ≤ p.length && rd 1 p 1 < 2
  right := rConfig
  journal := true
  sched := true
  check := fun m _ p =>
    let n := rd 1 p 2
    let rings := rdList 2 n p 8
    firstFail [
      (rings.any fun r => 255 < r, 0x0200),
      (16 < n, 0x0203),
      (rings.eraseDups.length != n || rings.any (fun r => (getRing m r).tx) ||
        (rd 1 p 1 = 0 && ((rings.map fun r => (getRing m r).owner).eraseDups).length > 1), 0x0204),
      (n = 0 && m.net.ports.any fun e => e.2.rules.any fun r => r.2.targets.getLsbD 3 && r.2.ringset == rd 1 p 0, 0x0205)]

/-- HDMA_RINGSET_SET at its effective tick (R299). -/
def applyRingsetSet (p : Bytes) : Mach → Mach := onNet fun n =>
  { n with ringSets :=
      if rd 1 p 2 = 0 then terase n.ringSets (rd 1 p 0)
      else tset n.ringSets (rd 1 p 0) { copy := rd 1 p 1 == 1, rings := rdList 2 (rd 1 p 2) p 8 } }

def hdmaRingStatus : Cmd where
  code := 0x0B10
  len := fun p => layout 8 [(3, 5)] p && rd 1 p 2 < 2
  apply := false
  slice := fun m t p => rd 2 p 0 < 256 && (getRing m (rd 2 p 0)).owner == some t
  roleOk := clearOk 2
  check := fun _ _ p => if 255 < rd 2 p 0 then 0x0200 else 0

/-- HDMA_RING_STATUS: indices, state and counters of a ring (R308). -/
def execHdmaRingStatus (h : Hdr) (p : Bytes) (s : State) : Host.Outcome State Fault Refusal :=
  let r := rd 2 p 0
  runOn s (runRead hdmaRingStatus h p
    (fun m =>
      let x := getRing m r
      fields [(1, b2n x.enabled + 2 * b2n x.tx + 4 * b2n x.starved + 8 * b2n x.armed + 16 * b2n (x.owner == some 0)),
        (1, ringTag x), (1, x.pos.getD 0xFF), (1, x.s), (4, x.head.toNat), (4, x.tail.toNat), (4, x.pend)] ++ ctrBytes x.ctrs 13)
    (fun m => when (bit (rd 1 p 2) 0) (onRing r fun x => { x with ctrs := ctrClear x.ctrs 13 }) m))

end Sys2Proof.Machine
end

