-- ==== Sys2Proof/Machine/Digest.lean ====
section
/-! DEFINITION. SHAKE256 of FIPS 202, which every digest of the spec uses (R482, R494). -/
namespace Sys2Proof.Machine
open Sys2Proof

/-- A lane of the state; the state is 25 lanes, lane (x, y) at x + 5 y. -/
abbrev Lanes := List (BitVec 64)

def lane (a : Lanes) (i : Nat) : BitVec 64 := a.getD i 0

/-- Theta: every lane takes up the parities of the column before its own and, turned by one, of the column after. -/
def theta (a : Lanes) : Lanes :=
  let column (x : Nat) : BitVec 64 := (List.range 5).foldl (fun s y => s ^^^ lane a (5 * y + x)) 0
  let sums := (List.range 5).map column
  let mixed := List.zipWith (· ^^^ ·) (sums.rotateLeft 4) ((sums.rotateLeft 1).map (·.rotateLeft 1))
  List.zipWith (· ^^^ ·) a (List.replicate 5 mixed).flatten

/-- The lanes in the order in which pi moves them, one into the place of the next, from (1, 0) on; lane (0, 0) stays. -/
def piPath : Nat → Nat → Nat → List Nat
  | 0, _, _ => []
  | n + 1, x, y => (5 * y + x) :: piPath n y ((2 * x + 3 * y) % 5)

/-- Rho and pi: step t of the path carries its lane to the next place, turned by the triangular number of t + 1. -/
def rhoPi (a : Lanes) : Lanes :=
  let stops := piPath 25 1 0
  ((stops.zip (stops.drop 1)).zipIdx 1).foldl
    (fun b e => b.set e.1.2 ((lane a e.1.1).rotateLeft (e.2 * (e.2 + 1) / 2 % 64))) a

/-- Chi on a plane: a lane changes where the next is clear and the one after is set. -/
def chiPlane (r : Lanes) : Lanes :=
  List.zipWith (· ^^^ ·) r (List.zipWith (fun u v => ~~~u &&& v) (r.rotateLeft 1) (r.rotateLeft 2))
def chi (a : Lanes) : Lanes := (List.range 5).flatMap fun y => chiPlane ((a.drop (5 * y)).take 5)

/-- The next state of the shift register that makes the round constants: x^8 + x^6 + x^5 + x^4 + 1. -/
def shiftReg (r : Nat) : Nat := if r < 128 then 2 * r else (2 * r) ^^^ 0x171

/-- A round constant: the register's next seven bits at the places 2^j - 1; and the register after them. -/
def roundWord : List Nat → Nat × Nat → Nat × Nat
  | [], w => w
  | j :: js, (c, r) => roundWord js (c + r % 2 * 2 ^ (2 ^ j - 1), shiftReg r)

/-- Rounds, each with the constant that iota puts into lane (0, 0). -/
def keccakRounds : Nat → Nat → Lanes → Lanes
  | 0, _, a => a
  | n + 1, r, a =>
    let w := roundWord (List.range 7) (0, r)
    keccakRounds n w.2 ((chi (rhoPi (theta a))).modifyHead (· ^^^ .ofNat 64 w.1))

def keccakF (a : Lanes) : Lanes := keccakRounds 24 1 a

/-- A block of 136 bytes taken into the state. -/
def absorb (a : Lanes) (blk : Bytes) : Lanes :=
  keccakF ((List.range 25).map fun i => lane a i ^^^ (if i < 17 then BitVec.ofNat 64 (rd 8 blk (8 * i)) else 0))

/-- The message padded to whole blocks (domain bits 1111, then pad10*1). -/
def shakePad (m : Bytes) : Bytes :=
  let z := 135 - m.length % 136
  if z = 0 then m ++ [0x9F] else m ++ [0x1F] ++ List.replicate (z - 1) 0 ++ [0x80]

def absorbAll : Nat → Lanes → Bytes → Lanes
  | 0, a, _ => a
  | n + 1, a, m => absorbAll n (absorb a (m.take 136)) (m.drop 136)

/-- SHAKE256 with 64 bytes of output, the digest of R482. -/
def shake256 (m : Bytes) : Bytes :=
  let p := shakePad m
  let a := absorbAll (p.length / 136) (List.replicate 25 0) p
  (List.range 8).flatMap fun i => le 8 (lane a i).toNat

end Sys2Proof.Machine
end

