-- ==== Sys2Proof/Machine/Svi.lean ====
section
/-! DEFINITION. Sampled-value ingest: matching, authentication, policing, sampling instants, gaps and their substitutes, and
the SVI commands (chapter 03). -/
namespace Sys2Proof.Machine
open Sys2Proof

-- The tables

/-- A subscription's state before it was first enabled. -/
def runInit : SubRun :=
  { tokens := 0, refill := 0, seen := [], authFail := false, unfailed := true, inSim := false, cls := none, lastPort := 0, lastCnt := 0,
    lastT := 0, invalid := false, ref := none, first := 0, done := 0, fresh := true, poss := [], late := [], onAt := 0,
    offAt := none, ctrs := [] }

/-- Whether a subscription is enabled. -/
def subOn (e : SubEntry) : Bool := e.flags.getLsbD 0

/-- The channel table entry of a channel; one never set has no factor and belongs to group 0. -/
def chanEntry (m : Mach) (c : Nat) : ChanEntry := tgetD m.svi.chans c { scale := 0, group := 0, kind := 0 }

/-- The subscription whose range holds a channel, with its index. -/
def subOfChan (m : Mach) (c : Nat) : Option (Nat × Sub) :=
  m.svi.subs.find? fun e => e.2.entry.chan0 ≤ c && c < e.2.entry.chan0 + e.2.entry.nchan

/-- The channels of a subscription. -/
def chansOf (e : SubEntry) : List Nat := (List.range e.nchan).map (e.chan0 + ·)

/-- A group, if anything has been set for it; it is defined once it has an input rate. -/
def getGroup (m : Mach) (g : Nat) : Option Group := tget m.flt.groups g

/-- The channels that belong to a group: those of a stream (R83). -/
def groupChans (m : Mach) (g : Nat) : List Nat :=
  (m.svi.subs.flatMap fun e => chansOf e.2.entry).filter fun c => (chanEntry m c).group == g

/-- The streams of a group. -/
def groupSubs (m : Mach) (g : Nat) : List (Nat × Sub) :=
  m.svi.subs.filter fun e => (chansOf e.2.entry).any fun c => (chanEntry m c).group == g

-- Spans of a subscription (R12, R28)

/-- What is kept of a subscription with the positions of another time. -/
def withHistory (h r : SubRun) : SubRun :=
  { r with
    ref := h.ref, first := h.first, done := h.done, fresh := h.fresh, poss := h.poss, late := h.late, onAt := h.onAt, offAt := h.offAt }

/-- A span kept, and a subscription as it was in a span: disabled, with the positions of that time. -/
def spanOf (e : SubEntry) (r : SubRun) (off : Ns) : SubSpan :=
  { entry := e, on := r.onAt, off := off, ref := r.ref, first := r.first, done := r.done, fresh := r.fresh, poss := r.poss, late := r.late }
def spanSub (s : Sub) (x : SubSpan) : Sub :=
  { s with
    entry := x.entry
    run := { s.run with
      ref := x.ref, first := x.first, done := x.done, fresh := x.fresh, poss := x.poss, late := x.late, onAt := x.on, offAt := some x.off } }

/-- The span that holds an instant, if it is not the present one; a subscription as it counts at a tick that starts at `t`. -/
def spanAt (s : Sub) (t : Ns) : Option (Nat × SubSpan) :=
  ((List.range s.spans.length).zip s.spans).reverse.find? fun x => decide (t < x.2.off)
def viewAt (s : Sub) (t : Ns) : Sub := ((spanAt s t).map fun x => spanSub s x.2).getD s

/-- The entry of a channel for a tick that starts at `t`. -/
def chanAt (m : Mach) (c : Nat) (t : Ns) : ChanEntry :=
  ((m.svi.chanWas.find? fun x => x.2.1 == c && t < x.1).map (·.2.2)).getD (chanEntry m c)

/-- What acts on the subscriptions and channels as they count at the tick that starts at `t` (R12). -/
def withViews (t : Ns) (f : Mach → Mach) (m : Mach) : Mach :=
  let v := m.svi
  let old := (v.chanWas.filter (t < ·.1)).map (·.2.1)
  let seen : Ingest := { v with
    subs := tmap v.subs fun _ s => viewAt s t
    chans := old.foldl (fun a c => tset a c (chanAt m c t)) v.chans }
  { f { m with svi := seen } with svi := v }

/-- A subscription rewritten. -/
def onSub (i : Nat) (f : Sub → Sub) : Mach → Mach :=
  onSvi fun v => { v with subs := tmap v.subs fun k s => if k = i then f s else s }

/-- Counter `j` of a subscription advanced by `k` (R80). -/
def subCount (i j k : Nat) : Mach → Mach :=
  onSub i fun s => { s with run := { s.run with ctrs := bumpBy s.run.ctrs j k } }

/-- What acts on a span of a subscription in place of the present one; the counters and all but the positions go on. -/
def inTimeOf (i k : Nat) (f : Mach → Mach) (m : Mach) : Mach :=
  match (tget m.svi.subs i).bind fun s => s.spans[k]?.map fun x => (s, x) with
  | none => m
  | some (s, x) =>
    onSub i (fun y => { y with
      entry := s.entry
      run := withHistory s.run y.run
      spans := s.spans.set k (spanOf y.entry y.run x.off) }) (f (onSub i (fun _ => spanSub s x) m))

/-- Counter of a port: 0 not SV, 1 malformed, 2 unmatched (R81). -/
def portCount (p j : Nat) (m : Mach) : Mach :=
  if p < 8 then onSvi (fun v => { v with ports := bump v.ports (p * 3 + j) }) m else m

/-- The grandmaster identity TIME_STATUS reports. -/
def gmIdentity (m : Mach) : BitVec 64 := (m.time.run.master.map (·.gm)).getD 0

-- Quality words (R78, R79)

/-- Rank of a VALIDITY: good, questionable, invalid. -/
def rank (v : Nat) : Nat := if v = 0 then 0 else if v = 3 then 1 else 2

/-- A quality word whose VALIDITY is made at least as bad as one given. -/
def worsen (q : BitVec 32) (v : Nat) : BitVec 32 := if rank (validity q) < rank v then setValidity q v else q

def qArrival : BitVec 32 := 0x100000
def qLookahead : BitVec 32 := 0x80000
def qLate : BitVec 32 := 0x40000
def qHeld : BitVec 32 := 0x20000
def qInterp : BitVec 32 := 0x10000
def qOverflow : BitVec 32 := 4

/-- The quality of an invalid substitute, and of every channel of a disabled stream. -/
def qAbsent : BitVec 32 := qInvalid ||| qOldData ||| qFailure

/-- The quality word of an accepted sample: validity, detail, source, test, blocked and derived bits of the merging unit;
the reserved validity is invalid (R79). -/
def sampleQuality (mu : BitVec 32) (sim arrival : Bool) : BitVec 32 :=
  let q := mu &&& 0x3FFF
  let q := if validity mu = 2 then setValidity q 1 else q
  let q := if sim then q ||| qTest else q
  if arrival then worsen (q ||| qArrival) 3 else q

/-- Two quality words together: the OR of their bits with the worse VALIDITY. -/
def qJoin (a b : BitVec 32) : BitVec 32 :=
  setValidity (a ||| b) (if rank (validity a) < rank (validity b) then validity b else validity a)

-- Values (R62, R74)

/-- The exact product of an INT32 value and a binary32 factor, rounded once. -/
def scaled (v : BitVec 32) (s : F32) : F32 :=
  match fdec fmt32 s.toNat with
  | .fin x k e => .ofNat 32 (froundDy fmt32 (x != decide (v.toInt < 0)) (v.toInt * fsm x k) e)
  | .inf _ => mul32 (int32 v.toInt) s
  | .nan => .ofNat 32 (fnan fmt32)

/-- a + (b − a) × num / den in binary64, rounded once to binary32 (R74). -/
def interpolate (a b : F32) (num den : Int) : F32 :=
  to32 (add64 (to64 a) (div64 (mul64 (sub64 (to64 b) (to64 a)) (int64 num)) (int64 den)))

-- Instants (R70, R71, R73, R74)

/-- A stream's synchronisation class from one ASDU, and whether it names a foreign grandmaster (R70). A stream that FLAGS bit 5
makes local counts none (DESIGN CHOICE, log entry 69). -/
def syncClass (m : Mach) (e : SubEntry) (a : Asdu) : SyncClass × Bool :=
  if e.flags.getLsbD 5 then (.local, false)
  else if a.smpSynch = 0 then (.none, false)
  else if a.smpSynch = 2 then
    (if m.time.state == .synchronised && a.gm.any (· != gmIdentity m) then (.local, true) else (.global, false))
  else (.local, false)

/-- Offset of a smpCnt in its second. -/
def cntOffset (rate c : Nat) : Ns := c * nsPerSec / rate

/-- The instant of a smpCnt of a global stream nearest to an instant: after it less 500 ms, no later than it plus 500 ms. -/
def globalInstant (rate c : Nat) (near : Ns) : Ns :=
  let o := cntOffset rate c
  (near + 500000000 - o) / nsPerSec * nsPerSec + o

/-- The deadline D(m) of the tick that holds an instant (R73); none where no tick that is still to be assembled holds it. -/
def deadlineAt (m : Mach) (t : Ns) : Option Ns :=
  match m.time.asm.find? fun a => a.t ≤ t && t < a.t + a.len with
  | some a => some a.d
  | none =>
    let n := tickOf m.time.grid t
    if t < tickStart m.time.grid n || n < m.time.grid.first || (m.time.gridOn && n ≤ m.time.tick) then none
    else some (tickStart m.time.grid n + m.time.hold)

/-- A sample received at `rx` for an instant is on time. -/
def onTimeAt (m : Mach) (rx t : Ns) : Bool := (deadlineAt m t).any fun d => rx + ingestAllow ≤ d

/-- The number of the newest position, accepted or substituted, and its smpCnt. -/
def newestPos (r : SubRun) (rate : Nat) : Option (Nat × Nat) :=
  r.ref.map fun x => let n := max x.1 r.done; (n, (x.2.2 + (n - x.1)) % rate)

/-- The number of the position a smpCnt names: among the last R / 2, or after the newest (R72, R74). -/
def keyOf (r : SubRun) (rate c : Nat) : Nat :=
  match newestPos r rate with
  | none => 2 ^ 40
  | some (n, cn) =>
    let back := (cn + rate - c % rate) % rate
    if 2 * back < rate then n - back else n + (rate - back)

/-- A position that has been accepted or substituted already (R72). -/
def known (r : SubRun) (k : Nat) : Bool :=
  r.poss.any (fun p => p.key == k) || (r.ref.isSome && r.first ≤ k && k ≤ r.done)

/-- The newest accepted position before a position, if one is held. -/
def acceptedBefore (r : SubRun) (k : Nat) : Option Pos := r.poss.find? fun p => p.key < k && p.kind == .accepted

/-- The instant of a position that has not been accepted (R74). -/
def missingInstant (cls : Option SyncClass) (r : SubRun) (rate k : Nat) : Ns :=
  match r.ref with
  | none => 0
  | some (rk, rt, rc) =>
    let b := match acceptedBefore r k with
      | some p => (p.key, p.t)
      | none => (rk, rt)
    let at_ (step : Nat) : Ns := if b.1 ≤ k then b.2 + (k - b.1) * step else b.2 - (b.1 - k) * step
    match cls with
    | some .global => globalInstant rate ((((rc : Int) + k - rk) % rate).toNat) (at_ (nsPerSec / rate))
    | some .local => at_ (nsPerSec / rate)
    | some .none => at_ (nsPerSec / rate)
    | none => at_ (nsPerSec / rate)

/-- The history with a position put in, the newest 128 kept. -/
def putPos (p : Pos) (l : List Pos) : List Pos :=
  (linsert (fun a b => decide (b.key < a.key)) p l).take 128

-- Acceptance of an ASDU (R65 steps 7 and 9)

/-- smpRate and smpMod, where given, agree with the rate (R59); a missing smpMod is 0, and a smpMod without smpRate agrees when it
is 0 or 1 (DESIGN CHOICE, log entry 69). -/
def rateAgrees (rate f0 : Nat) (a : Asdu) : Bool :=
  let md := a.smpMod.getD 0
  match a.smpRate with
  | none => md < 2
  | some r => if md = 1 then r == rate else md == 0 && r * f0 == rate

/-- f0 of an entry: the nominal frequency of the group of channel CHAN0 (R59). -/
def subF0 (m : Mach) (e : SubEntry) : Nat := ((getGroup m (chanEntry m e.chan0).group).map (·.est.nomf)).getD 50

/-- Step 7 for one ASDU. A smpCnt outside the range of R59 is a mismatch too (DESIGN CHOICE, log entry 69). -/
def asduOk (m : Mach) (e : SubEntry) (a : Asdu) : Bool :=
  a.svid == e.svid && a.data.length == e.nchan && a.confRev == e.confRev && a.smpCnt < e.rate &&
  rateAgrees e.rate (subF0 m e) a

/-- The instant of an ASDU at position `idx` of `n` (R71). -/
def asduInstant (m : Mach) (e : SubEntry) (rx : Ns) (n idx : Nat) (a : Asdu) : Ns :=
  if (syncClass m e a).1 == .global then globalInstant e.rate a.smpCnt rx
  else rx - e.tdelay - (n - 1 - idx) * (nsPerSec / e.rate)

/-- The number of a class in events and in SVI_SUB_STATUS. -/
def classCode : SyncClass → Nat
  | .none => 0
  | .local => 1
  | .global => 2

/-- An accepted ASDU enters the stream (R70, R73, R75). On an arrival-timed stream too the order of samples is that of their
positions, and a gap counts every position passed, be it longer than the R of a second or not (DESIGN CHOICE, log entry 69). -/
def acceptAsdu (i : Nat) (rx t : Ns) (key : Nat) (cf : SyncClass × Bool) (sim : Bool) (a : Asdu) (m : Mach) : Mach :=
  match tget m.svi.subs i with
  | none => m
  | some s =>
    let e := s.entry
    let r := s.run
    let vals := (chansOf e).zip a.data |>.map fun x =>
      (scaled x.2.1 (chanAt m x.1 t).scale, sampleQuality x.2.2 sim (cf.1 != .global))
    let reserved := (a.data.filter fun d => validity d.2 == 2).length
    let step : Nat × Nat × Nat := match r.ref with
      | none => (0, 0, 0)
      | some (k, _, _) => if key < k then (1, 0, 0) else if k + 1 < key then (0, key - k - 1, 1) else (0, 0, 0)
    let ctrs := bumpBy (bumpBy (bumpBy (bumpBy (bumpBy (bump r.ctrs 1) 10 (b2n cf.2)) 11 reserved) 18 step.1) 20 step.2.1) 21 step.2.2
    let m := if r.cls.any (· != cf.1) then
        raise 0x0303 0 (fields [(2, i), (1, (r.cls.map classCode).getD 0), (1, classCode cf.1), (4, 0)]) m else m
    let m := if r.invalid then raise 0x0305 0 (fields [(2, i), (6, 0)]) m else m
    let newer := match r.ref with
      | none => true
      | some x => decide (x.1 < key)
    let r' : SubRun :=
      { r with
        cls := some cf.1
        invalid := false
        ref := if newer then some (key, t, a.smpCnt) else r.ref
        first := if r.ref.isNone then key else min r.first key
        done := if r.fresh then key - 1 else min r.done (max (key - 1) (if key < r.first then 0 else r.done))
        fresh := false
        poss := putPos { key := key, t := t, rx := rx, kind := .accepted, vals := vals } r.poss
        lastCnt := a.smpCnt
        lastT := t
        ctrs := ctrs }
    onSub i (fun s => { s with run := r' }) m

/-- A subscription takes no sample of an instant: it was disabled at or before the tick that holds it (R28). -/
def offDuring (s : Sub) (t : Ns) : Bool :=
  (!subOn s.entry && s.run.offAt.any (· ≤ t)) || (s.spans != [] && t < s.run.onAt)

/-- Step 9 for one ASDU of a span: future, duplicate and late samples are discarded, others accepted (R72, R73). An entry disabled at
T(n) takes only samples of earlier ticks (R28). -/
def takeSample (i : Nat) (rx : Ns) (n idx : Nat) (sim : Bool) (a : Asdu) (m : Mach) : Mach :=
  match tget m.svi.subs i with
  | none => m
  | some s =>
    let cf := syncClass m s.entry a
    let t := asduInstant m s.entry rx n idx a
    let key := keyOf s.run s.entry.rate a.smpCnt
    if offDuring s t then subCount i 2 1 m
    else if cf.1 == .global && rx + 10000 < t then subCount i 16 1 m
    else if known s.run key then subCount i 17 1 m
    else if !onTimeAt m rx t then
      subCount i 19 1 (onSub i (fun s => { s with run := { s.run with late := (key :: s.run.late).take 128 } }) m)
    else acceptAsdu i rx t key cf sim a m

/-- Two entries have the same match key (R63). -/
def sameSubKey (a b : SubEntry) : Bool :=
  a.dmac == b.dmac && a.appid == b.appid && a.svid == b.svid && a.flags.getLsbD 1 == b.flags.getLsbD 1 &&
  (!a.flags.getLsbD 1 || a.vlan == b.vlan)

/-- Step 9 for one ASDU: a sample of the time before the stream was disabled and enabled again belongs to the span of that time (R28). -/
def takeAsdu (i : Nat) (rx : Ns) (n idx : Nat) (sim : Bool) (a : Asdu) (m : Mach) : Mach :=
  match tget m.svi.subs i with
  | none => m
  | some s =>
    match (spanAt s (asduInstant m s.entry rx n idx a)).filter fun x => sameSubKey x.2.entry s.entry && x.2.entry.rate == s.entry.rate with
    | some x => inTimeOf i x.1 (takeSample i rx n idx sim a) m
    | none => takeSample i rx n idx sim a m

-- A frame (R65)

/-- Step 1: what R59 supports of a frame's APDU. -/
def pduOk (f : Frame) (p : SvPdu) : Bool :=
  f.tags.length ≤ 1 && 1 ≤ p.asdus.length && p.asdus.length ≤ 8 &&
  p.asdus.all fun a => !List.contains [3, 4, 255] a.smpSynch && a.smpSynch < 256 && 1 ≤ a.data.length && a.data.length ≤ 24 &&
    1 ≤ a.svid.length && a.svid.length ≤ 64

/-- An entry takes work of a frame: it is enabled, or was disabled at T(n) and the frame brings in time a sample of an
earlier tick (R28). -/
def subTakes (m : Mach) (rx : Ns) (p : SvPdu) (s : Sub) : Bool :=
  subOn s.entry || s.run.offAt.any fun off => (p.asdus.zip (List.range p.asdus.length)).any fun x =>
    let t := asduInstant m s.entry rx p.asdus.length x.2 x.1
    t < off && onTimeAt m rx t

/-- Step 2: the entry of a list that a frame matches; one that matches VLAN takes precedence. -/
def matchIn {α : Type} (l : List (α × Sub)) (f : Frame) (p : SvPdu) : Option (α × Sub) :=
  let svid := (p.asdus.head?.map (·.svid)).getD []
  let c := l.filter fun e =>
    e.2.entry.dmac == f.dmac && e.2.entry.appid == p.appid && e.2.entry.svid == svid
  match c.find? fun e => e.2.entry.flags.getLsbD 1 && (f.tags.head?.any fun t => t.2 % 4096 == e.2.entry.vlan) with
  | some e => some e
  | none => c.find? fun e => !e.2.entry.flags.getLsbD 1
def matchSub (ok : Sub → Bool) (m : Mach) (f : Frame) (p : SvPdu) : Option (Nat × Sub) :=
  matchIn (m.svi.subs.filter fun e => ok e.2) f p

/-- The span of a subscription that takes a frame which no present entry takes: it brings in time a sample of that time (R28). -/
def matchSpan (m : Mach) (rx : Ns) (f : Frame) (p : SvPdu) : Option ((Nat × Nat) × Sub) :=
  matchIn (m.svi.subs.flatMap fun e =>
    (((List.range e.2.spans.length).zip e.2.spans).map fun x => ((e.1, x.1), spanSub e.2 x.2)).filter fun y => subTakes m rx p y.2) f p

/-- Step 4: the authentication of a sampled-value frame; only values of 256 and 128 bits are supported (R59, R67). -/
def svAuth (m : Mach) (e : SubEntry) (f : Frame) (p : SvPdu) : AuthResult :=
  match p.auth with
  | none => .missing
  | some a => if a.value.length = 16 ∨ a.value.length = 32 then authCheck m e.key f p.auth else .fail

/-- AUTH_FAIL changes with its event; the first failure after the entry is enabled raises it though the bit is set already (R68). -/
def setAuthFail (i : Nat) (b : Bool) (m : Mach) : Mach :=
  if (tget m.svi.subs i).any fun s => s.run.authFail != b || (b && s.run.unfailed) then
    raise (if b then 0x0301 else 0x0302) 0 (fields [(2, i), (6, 0)])
      (onSub i (fun s => { s with run := { s.run with authFail := b, unfailed := s.run.unfailed && !b } }) m)
  else m

/-- The trailer of a PRP frame, if it is valid and its size agrees. -/
def prpOf (f : Frame) : Option Prp := f.prp.filter (·.sizeOk)

/-- Step 5: a duplicate of R69. -/
def prpDuplicate (r : SubRun) (f : Frame) (rx : Ns) : Bool :=
  (prpOf f).any fun t => r.seen.any fun x => x.1 == t.seq && rx < x.2 + 400000000

/-- The policer's tokens at an instant (R66). -/
def policerFill (e : SubEntry) (r : SubRun) (t : Ns) : Nat :=
  min (e.polBurst * 1000000000) (r.tokens + (t - r.refill) * e.polRate)

/-- Steps 7 to 9 of a frame that has passed its policer; it counts as accepted after step 8 (DESIGN CHOICE, log entry 69). -/
def takeFrame (i port : Nat) (rx : Ns) (e : SubEntry) (f : Frame) (p : SvPdu) (m : Mach) : Mach :=
  let good := p.asdus.filter (asduOk m e)
  let m := subCount i 13 (p.asdus.length - good.length) m
  let sim := ((tget m.svi.subs i).map (·.run.inSim)).getD false
  if good = [] then m
  else if p.simulate && !e.flags.getLsbD 4 then subCount i 14 1 m
  else if !p.simulate && sim then subCount i 15 1 m
  else
    let m := if p.simulate && !sim then
        raise 0x0306 0 (fields [(2, i), (6, 0)]) (onSub i (fun s => { s with run := { s.run with inSim := true } }) m)
      else m
    let prp := e.flags.getLsbD 3
    let lan := if port = e.port then 0xA else 0xB
    let m := onSub i (fun s =>
      { s with run :=
        { s.run with
          lastPort := port
          seen := match prpOf f with
            | some t => if prp then ((t.seq, rx) :: s.run.seen).take 256 else s.run.seen
            | none => s.run.seen
          ctrs := bumpBy (bumpBy (bumpBy (bump s.run.ctrs 0) 6 (b2n (p.auth.isSome && !e.flags.getLsbD 2)))
            8 (b2n (prp && (prpOf f).any fun t => t.lan != lan))) 9 (b2n (prp && (prpOf f).isNone)) } }) m
    forEach (good.zip (List.range good.length)) (fun x => takeAsdu i rx good.length x.2 p.simulate x.1) m

/-- Steps 3 to 6 of a frame that matches an entry. -/
def checkFrame (i port : Nat) (rx : Ns) (f : Frame) (p : SvPdu) (m : Mach) : Mach :=
  match tget m.svi.subs i with
  | none => m
  | some s =>
    let e := s.entry
    if port ≠ e.port ∧ ¬ (e.flags.getLsbD 3 ∧ port = e.prpPort) then subCount i 3 1 m
    else
      let a := if e.flags.getLsbD 2 then svAuth m e f p else .pass
      if a == .missing then setAuthFail i true (subCount i 4 1 m)
      else if a == .fail then setAuthFail i true (subCount i 5 1 m)
      else
        let m := if e.flags.getLsbD 2 then setAuthFail i false m else m
        if e.flags.getLsbD 3 && prpDuplicate s.run f rx then subCount i 7 1 m
        else
          let tokens := policerFill e s.run rx
          let ok := 1000000000 ≤ tokens
          let m := onSub i (fun s =>
            { s with run :=
              { s.run with tokens := if ok then tokens - 1000000000 else tokens, refill := max rx s.run.refill } }) m
          if ok then takeFrame i port rx e f p m else subCount i 12 1 m

/-- One frame through steps 1 to 9 (R65). Of a disabled entry that matches VLAN and an enabled one that does not,
the enabled one takes the frame (DESIGN CHOICE, log entry 69). -/
def ingestFrame (x : SvIn) (m : Mach) : Mach :=
  if x.frame.etype ≠ 0x88BA then portCount x.port 0 m
  else match x.frame.body with
    | .sv p =>
      if !pduOk x.frame p then portCount x.port 1 m
      else match matchSub (subTakes m x.ts p) m x.frame p with
        | some e => checkFrame e.1 x.port x.ts x.frame p m
        | none => match matchSpan m x.ts x.frame p with
        | some e => inTimeOf e.1.1 e.1.2 (checkFrame e.1.1 x.port x.ts x.frame p) m
        | none => match matchSub (fun _ => true) m x.frame p with
          | some e => subCount e.1 2 1 m
          | none => portCount x.port 2 m
    | .goose _ => portCount x.port 1 m
    | .ptp _ => portCount x.port 1 m
    | .raw => portCount x.port 1 m

/-- A frame of the IX queue. One received before a step, whose positions are invalid, leaves every history as it was (R96). -/
def ingest (x : SvIn) (m : Mach) : Mach :=
  let m' := ingestFrame x m
  if m.svi.stepAt.any (x.ts < ·) then
    onSvi (fun v => { v with subs := tmap v.subs fun i s => match tget m.svi.subs i with
      | none => s
      | some o => { s with run := withHistory o.run s.run, spans := o.spans } }) m'
  else m'

/-- Ingest takes every frame that waits: those received before a step belong to the clock before it (R96). -/
def ingestAll (m : Mach) : Mach := forEach m.svi.inbox ingest (onSvi (fun v => { v with inbox := [] }) m)

/-- SV_FRAME_INGEST: the oldest frame of the IX queue (R58, R65). -/
def execSvFrameIngest (s : State) : Host.Outcome State Fault Refusal :=
  runOn s fun m =>
    match m.svi.inbox with
    | [] => m
    | x :: r => if fabricRuns m then ingest x (onSvi (fun v => { v with inbox := r }) m) else m

-- Substitution at the deadline (R74, R75)

/-- The stream is arrival-timed by the class last seen (R70, R71). -/
def arrivalTimed (s : Sub) : Bool := s.entry.flags.getLsbD 5 || s.run.cls.any (· != .global)

/-- The substitute of a missing position at the deadline of a tick (R74, R79). A held one has the last accepted sample's quality word
beside its own bits (DESIGN CHOICE, log entry 69). -/
def substitute (d : AsmDue) (s : Sub) (k : Nat) (t : Ns) : Pos :=
  let r := s.run
  let late := if r.late.contains k then qLate else 0
  let arrival := if arrivalTimed s then qArrival else 0
  let gone : Pos :=
    { key := k, t := t, rx := 0, kind := .invalid, vals := List.replicate s.entry.nchan (0, qAbsent ||| arrival ||| late) }
  if r.poss.any fun p => p.key + 1 == k && p.kind == .invalid then gone
  else match acceptedBefore r k with
    | none => gone
    | some a =>
      let after := r.poss.reverse.find? fun p => k < p.key
      match after.filter fun b => b.key ≤ a.key + 3 && b.rx + ingestAllow ≤ d.d with
      | some b =>
        { key := k, t := t, rx := 0, kind := .interpolated
          vals := (a.vals.zip b.vals).map fun x =>
            (interpolate x.1.1 x.2.1 ((t : Int) - a.t) ((b.t : Int) - a.t), worsen (qJoin x.1.2 x.2.2 ||| qInterp ||| qSubst ||| late) 3) }
      | none =>
        if (t - a.t) * min d.rate s.entry.rate ≤ nsPerSec then
          { key := k, t := t, rx := 0, kind := .held
            vals := a.vals.map fun x => (x.1, worsen (x.2 ||| qHeld ||| qOldData ||| qSubst ||| late) 3) }
        else gone

/-- The counter and the event of a substitute. -/
def countSubst (i : Nat) (p : Pos) (m : Mach) : Mach :=
  match p.kind with
  | .interpolated => subCount i 22 1 m
  | .held => subCount i 23 1 m
  | .accepted => m
  | .invalid =>
    let was := ((tget m.svi.subs i).map (·.run.invalid)).getD true
    let m := onSub i (fun s => { s with run := { s.run with invalid := true, ctrs := bump s.run.ctrs 24 } }) m
    if was then m else raise 0x0304 0 (fields [(2, i), (6, 0)]) m

/-- Positions of a stream passed, one after another, while their instants lie before the end of a tick. -/
def passPositions (d : AsmDue) (i : Nat) : Nat → Mach → Mach
  | 0, m => m
  | fuel + 1, m =>
    match tget m.svi.subs i with
    | none => m
    | some s =>
      let k := s.run.done + 1
      let pass (m : Mach) : Mach := onSub i (fun s => { s with run := { s.run with done := k, late := s.run.late.filter (k < ·) } }) m
      match s.run.poss.find? fun p => p.key == k with
      | some p => if p.t < d.t + d.len then passPositions d i fuel (pass m) else m
      | none =>
        let t := missingInstant s.run.cls s.run s.entry.rate k
        if t < d.t + d.len then
          let p := substitute d s k t
          let m := onSub i (fun s => { s with run := { s.run with poss := putPos p s.run.poss } }) m
          passPositions d i fuel (pass (countSubst i p m))
        else m

/-- The start of the span for which an entry counts at the tick that starts at `t`: it is enabled, or was disabled at a later tick
(R28). -/
def subSpan (s : Sub) (t : Ns) : Option Ns :=
  let v := viewAt s t
  if subOn v.entry || v.run.offAt.any (t < ·) then some v.run.onAt else none

/-- A stream's samples still count at a tick. -/
def subLive (s : Sub) (t : Ns) : Bool := (subSpan s t).isSome

/-- Ingest at D(n): every missing position of the tick is substituted, in the span that holds the tick; what counts for earlier ticks only
is gone. -/
def ingestDeadline (d : AsmDue) (m : Mach) : Mach :=
  let m := onSvi (fun v => { v with
    subs := tmap v.subs fun _ s => { s with spans := s.spans.filter (d.t < ·.off) }
    chanWas := v.chanWas.filter (d.t < ·.1) }) m
  forEach m.svi.subs (fun e m =>
    let run := (viewAt e.2 d.t).run
    let pass (m : Mach) : Mach := if subLive e.2 d.t && run.ref.isSome && !run.fresh then passPositions d e.1 8192 m else m
    match spanAt e.2 d.t with
    | some x => inTimeOf e.1 x.1 pass m
    | none => pass m) m

/-- A nonnegative instant moved by a step. -/
def shiftNs (d : Int) (t : Ns) : Ns := ((t : Int) + d).toNat

/-- Ingest at a step: durations go on, and a new history begins, since every position received before the step is invalid
(R96). -/
def ingestStep (d : Int) (m : Mach) : Mach :=
  onSvi (fun v =>
    { v with
      stepAt := some (now m)
      chanWas := v.chanWas.map fun x => (shiftNs d x.1, x.2)
      subs := tmap v.subs fun _ s => { s with
        spans := []
        run :=
        { s.run with
          refill := shiftNs d s.run.refill
          seen := s.run.seen.map fun x => (x.1, shiftNs d x.2)
          ref := none
          first := 0
          done := 0
          fresh := true
          poss := []
          late := []
          onAt := shiftNs d s.run.onAt
          offAt := s.run.offAt.map (shiftNs d) } } }) m

-- SVI_SUB_SET

/-- The entry of R60 at an offset. -/
def subEntryAt (p : Bytes) (o : Nat) : SubEntry :=
  { flags := .ofNat 8 (rd 1 p o), nchan := rd 1 p (o + 1), appid := rd 2 p (o + 2), dmac := .ofNat 48 (rdBe 6 p (o + 4)),
    vlan := rd 2 p (o + 10), rate := rd 4 p (o + 12), port := rd 1 p (o + 16), prpPort := rd 1 p (o + 17),
    nasdu := rd 1 p (o + 18), tdelay := rd 4 p (o + 20), polRate := rd 4 p (o + 24), polBurst := rd 2 p (o + 28),
    key := rd 2 p (o + 30), chan0 := rd 2 p (o + 32), confRev := rd 4 p (o + 36), svid := slice p (o + 64) (rd 1 p (o + 19)) }

/-- The input rates (R59). -/
def inputRates : List Nat := [4000, 4800, 12800, 14400]

/-- A field that R64 fixes while the entry is enabled differs. -/
def fixedChange (a b : SubEntry) : Bool :=
  a.dmac != b.dmac || a.appid != b.appid || a.vlan != b.vlan || a.svid != b.svid || a.rate != b.rate || a.nchan != b.nchan ||
  a.nasdu != b.nasdu || a.chan0 != b.chan0 || (a.flags ^^^ b.flags) &&& 0x0A != 0

/-- An entry's ports are valid and enabled (R82). -/
def portsOk (m : Mach) (e : SubEntry) : Bool :=
  let on (p : Nat) : Bool := (getPort m p).any fun x => x.cfg.enabled
  e.port < 8 && (if e.flags.getLsbD 3 then e.prpPort < 8 && e.prpPort != e.port else e.prpPort == 0xFF) &&
  on e.port && (!e.flags.getLsbD 3 || on e.prpPort)

/-- A stream is taken as global (R76). -/
def takenGlobal (e : SubEntry) (cls : Option SyncClass) : Bool :=
  !e.flags.getLsbD 5 && match cls with
    | none => true
    | some .global => true
    | some .local => false
    | some .none => false

/-- The availability delay of R76, rounded up to whole ns (log entry 20). -/
def availDelay (e : SubEntry) (cls : Option SyncClass) : Ns :=
  cdiv ((e.nasdu - 1) * nsPerSec) (max 1 e.rate) + (if takenGlobal e cls then 50000 else e.tdelay) + ingestAllow

/-- SVI_SUB_SET: the causes of check 7 in ascending order of status (log entry 15). A group that was never given an input rate does
not keep a subscription from being enabled (DESIGN CHOICE, log entry 69). -/
def sviSubSet : Cmd where
  code := 0x0301
  len := fun p => layout 136 [(2, 6), (42, 2), (48, 24)] p && bits (rd 1 p 8) 7 6 == 0 && bits (rd 2 p 18) 15 12 == 0 &&
    zeros p (72 + rd 1 p 27) (64 - rd 1 p 27)
  right := rConfig
  journal := true
  sched := true
  check := fun m _ p =>
    let i := rd 2 p 0
    let e := subEntryAt p 8
    let n := rd 1 p 27
    let others := (m.svi.subs.filter fun x => x.1 != i && x.2.entry.nchan != 0).map (·.2.entry)
    firstFail [
      (others.any (sameSubKey e), 0x0200),
      ((tget m.svi.subs i).any (fun o => subOn o.entry && fixedChange o.entry e), 0x0201),
      (12288 < e.chan0 + e.nchan || others.any (fun o => overlaps' e.chan0 e.nchan o.chan0 o.nchan), 0x0202),
      (512 ≤ i || n = 0 || 64 < n || e.nchan = 0 || 24 < e.nchan || e.nasdu = 0 || 8 < e.nasdu || !inputRates.contains e.rate ||
        10000000 < e.tdelay, 0x0203),
      (subOn e && (chansOf e).any (fun c => (getGroup m (chanEntry m c).group).any fun g => g.inRate != 0 && g.inRate != e.rate), 0x0203),
      (!portsOk m e, 0x0204),
      (e.polRate * e.nasdu < e.rate || e.polBurst < 2 || 64 < e.polBurst, 0x0205),
      (e.flags.getLsbD 2 && (1024 ≤ e.key || !keyThere m e.key), 0x0207)]
where
  overlaps' (a n b k : Nat) : Bool := a < b + k && b < a + n

/-- The answer of SVI_SUB_SET: whether the availability delay exceeds H, and the delay (R76). -/
def subReply (p : Bytes) (m : Mach) : Bytes :=
  let e := subEntryAt p 8
  let d := availDelay e ((tget m.svi.subs (rd 2 p 0)).bind (·.run.cls))
  fields [(4, b2n (decide (m.time.hold < d))), (4, d)]

/-- What ingest keeps of an entry that is enabled at the tick that starts at `t`, or given another stream: a full policer and no history
(R28, R66; no history: DESIGN CHOICE, log entry 69). AUTH_FAIL, and that the stream has turned invalid, stand until a frame verifies and a
sample is accepted (R68, R75). -/
def enableRun (e : SubEntry) (t : Ns) (r : SubRun) : SubRun :=
  { r with
    tokens := e.polBurst * 1000000000, refill := t, unfailed := true, onAt := t, offAt := none
    ref := none, first := 0, done := 0, fresh := true, poss := [], late := [] }

/-- SVI_SUB_SET at its effective tick: the policer's tokens are settled with the old rate and burst. An entry disabled and enabled again at
one tick goes on (R27), unless it names another stream by then; the span before it is kept while a tick of it is to be assembled (R28). -/
def applySubEntry (p : Bytes) (m : Mach) : Mach :=
  let i := rd 2 p 0
  let e := subEntryAt p 8
  let t := tickAt m m.time.tick
  let old := tgetD m.svi.subs i { entry := { e with flags := 0 }, run := runInit, spans := [] }
  let r := old.run
  let leaves := r.inSim && !e.flags.getLsbD 4
  let r := { r with
    inSim := r.inSim && e.flags.getLsbD 4
    tokens := min (e.polBurst * 1000000000) (policerFill old.entry r t)
    refill := max t r.refill }
  let enabled := subOn e && !subOn old.entry
  let changed := fixedChange old.entry e
  let goesOn := enabled && !changed && r.offAt == some t
  let anew := changed || (enabled && !goesOn)
  let kept := (r.offAt.filter fun off => anew && m.time.asm.any (·.t < off)).map (spanOf old.entry r)
  let r :=
    if anew then enableRun e t r
    else if goesOn then { r with offAt := none }
    else if !subOn e && subOn old.entry then { r with offAt := some t }
    else r
  let m := onSvi (fun v => { v with subs := tset v.subs i { entry := e, run := r, spans := kept.toList ++ old.spans } }) m
  if leaves then raise 0x0307 0 (fields [(2, i), (6, 0)]) m else m

-- SVI_CHAN_SET

/-- The channel entries of a request. -/
def chanEntries (p : Bytes) : List (Nat × ChanEntry) :=
  (List.range (rd 2 p 2)).map fun k =>
    (rd 2 p 0 + k, { scale := .ofNat 32 (rd 4 p (8 + 16 * k)), group := rd 1 p (12 + 16 * k), kind := rd 1 p (13 + 16 * k) })

/-- SVI_CHAN_SET. A count outside 1 to 24 is a channel range out of bounds, and a KIND above 2 a malformed payload (DESIGN CHOICE,
log entry 68). -/
def sviChanSet : Cmd where
  code := 0x0302
  len := fun p => p.length == 8 + 16 * rd 2 p 2 && zeros p 4 4 &&
    (List.range (min 24 (rd 2 p 2))).all fun k => zeros p (14 + 16 * k) 10 && rd 1 p (13 + 16 * k) < 3
  right := rConfig
  journal := true
  sched := true
  check := fun m _ p =>
    let es := chanEntries p
    let own (c : Nat) : Option SubEntry := (subOfChan m c).map (·.2.entry)
    firstFail [
      (es.any (fun x => (own x.1).any fun e => subOn e && (chanEntry m x.1).group != x.2.group), 0x0201),
      (rd 2 p 2 = 0 || 24 < rd 2 p 2 || 12288 < rd 2 p 0 + rd 2 p 2, 0x0202),
      (es.any (fun x => match getGroup m x.2.group with
        | none => true
        | some g => g.inRate == 0 || (own x.1).any fun e => e.rate != g.inRate), 0x0206)]

/-- SVI_CHAN_SET at its effective tick; ticks before it that are still to be assembled keep the entries before (R12). -/
def applyChanSet (p : Bytes) (m : Mach) : Mach :=
  let t := tickAt m m.time.tick
  let was := if m.time.asm.any (·.t < t) then (chanEntries p).map fun x => (t, x.1, chanEntry m x.1) else []
  onSvi (fun v => { v with
    chans := (chanEntries p).foldl (fun c x => tset c x.1 x.2) v.chans
    chanWas := v.chanWas ++ was }) m

-- SVI_SUB_STATUS

def sviSubStatus : Cmd where
  code := 0x0310
  len := fun p => layout 8 [(3, 5)] p && rd 1 p 2 < 2
  apply := false
  slice := fun m t p =>
    (getSlice m t).any fun s => (tget m.svi.subs (rd 2 p 0)).any fun b => (chansOf b.entry).any fun c => s.subs.contains c
  roleOk := fun role p => !bit (rd 1 p 2) 0 || hasRight role rConfig
  check := fun _ _ p => if rd 2 p 0 = 0xFFFF || rd 2 p 0 < 512 then 0 else 0x0107

/-- The answer of SVI_SUB_STATUS. -/
def subStatus (i : Nat) (m : Mach) : Bytes :=
  if i = 0xFFFF then ctrBytes m.svi.ports 24
  else
    let on := (tget m.svi.subs i).any fun s => subOn s.entry
    let r := ((tget m.svi.subs i).map (·.run)).getD runInit
    fields [(1, b2n on + 2 * b2n (on && r.ref.isSome && !r.invalid) + 4 * b2n r.authFail + 8 * b2n r.inSim +
        16 * (r.cls.map classCode).getD 0), (1, r.lastPort), (2, r.lastCnt), (4, 0), (8, r.lastT / nsPerSec),
      (4, r.lastT % nsPerSec), (4, 0)] ++ ctrBytes r.ctrs 25

def execSviSubStatus (h : Hdr) (p : Bytes) (s : State) : Host.Outcome State Fault Refusal :=
  let i := rd 2 p 0
  runOn s (runRead sviSubStatus h p (subStatus i)
    (when (bit (rd 1 p 2) 0) (if i = 0xFFFF then onSvi (fun v => { v with ports := [] })
      else onSub i fun s => { s with run := { s.run with ctrs := ctrClear s.run.ctrs 25 } })))

end Sys2Proof.Machine
end

