-- ==== Sys2Proof/Machine/Rsc.lean ====
section
/-! DEFINITION. The resampling chain: banks, position and phase, the filter, swaps and cross-fades, and the RSC commands
(chapter 04). -/
namespace Sys2Proof.Machine
open Sys2Proof

/-- Comparator settings after reset: off. -/
def compOff : Comp := { source := 0, dir := 0, level := 0, hyst := 0, delay := 0 }

/-- The estimate settings of R106 at their defaults; TRACK_MIN is 0.1. -/
def estCfgInit : EstCfg :=
  { nomf := 50, commissioning := false, settle := false, twoCycle := false, tauMs := 1000, freezeLevel := 0, holdMs := 200,
    groupFreeze := false, track := true, refChan := none, trackMin := 0x3DCCCCCD, rc := 2, ctrl := none, thrBase := none,
    comps := List.replicate 4 compOff }

/-- A group that nothing has set. -/
def groupInit : Group :=
  { enabled := false, inRate := 0, bankA := none, bankB := none, inUse := 0, swap := none, shownBank := 0, shownFade := false, pending := none, due := [],
    cuts := [], since := 0, before := none, limited := none, ctrs := [], est := estCfgInit, estDue := [], cmds := [], started := none,
    recovery := false, good := 0, ft := int32 50, ftUsed := int32 50, failing := none, lost := false, prev := none, estCtrs := [] }

/-- A group rewritten; one that nothing has set is made. -/
def onGroup (g : Nat) (f : Group → Group) : Mach → Mach :=
  onFlt fun x => { x with groups := tmod x.groups g groupInit f }

/-- Counter `i` of RSC_GROUP_STATUS advanced by `k` (R103). -/
def rscCount (g i k : Nat) : Mach → Mach := onGroup g fun x => { x with ctrs := bumpBy x.ctrs i k }

/-- Bank A or B of a group. -/
def bankOf (g : Group) (b : Nat) : Option Bank := if b = 0 then g.bankA else g.bankB

/-- The bank in use as reported: during a swap the new one (R99). -/
def bankInUse (g : Group) : Nat := match g.swap with
  | some s => s.dest
  | none => g.inUse

/-- The bank in use as a command finds it: one already chosen for a tick still to be assembled stands. -/
def bankNow (g : Group) : Nat := match g.cuts.getLast? with
  | some c => c.2
  | none => bankInUse g

/-- The bit of TMASK of a tick rate (R84). -/
def rateBit (rate : Nat) : Nat := if rate = 4000 then 0 else if rate = 4800 then 1 else if rate = 9600 then 2 else 3

/-- The tick rates the capability list reports (R24). -/
def tickRates : List Nat := [4000, 4800, 9600, 14400]

/-- A bank is built for a tick rate. -/
def builtFor (b : Bank) (rate : Nat) : Bool := tickRates.contains rate && b.tmask.getLsbD (rateBit rate)

/-- The bank R97 selects at a new rate. -/
def selectBank (g : Group) (rate : Nat) : Option Nat :=
  let u := bankNow g
  if (bankOf g u).any (builtFor · rate) then some u
  else if (bankOf g (1 - u)).any (builtFor · rate) then some (1 - u)
  else none

/-- A group counts at the tick that starts at `t`: it is enabled since then or earlier, or was disabled later (R28, R29). -/
def groupLive (g : Group) (t : Ns) : Option Ns :=
  if g.enabled && g.since ≤ t then some g.since
  else (g.before.filter fun x => x.1 ≤ t && t < x.2).map (·.1)

-- Lead and required hold-off (R92, R93)

/-- The phase of R87 from the distance to the anchor and the distance of the anchors. -/
def phaseOf (num den : Nat) : Nat := (2 * num * 65536 + den) / (2 * den)

/-- The lowest tap of a phase set with a nonzero coefficient: the one that meets the newest position. -/
def firstTap (b : Bank) (ph : Nat) : Option Nat :=
  (List.range b.ntaps).find? fun k => (b.coeffs.getD (ph * b.ntaps + k) 0).toNat % 2 ^ 31 != 0

/-- The largest in-tick offset of a globally synchronised stream: over every smpCnt of a second (R92). -/
def inTickOffset (rate tick : Nat) : Ns :=
  let d := rate / Nat.gcd rate tick * 9
  (List.range d).foldl (fun a c =>
    let t := c * nsPerSec / rate
    max a (t - ((t + 1) * tick - 1) / nsPerSec * nsPerSec / tick)) 0

/-- The look-ahead extent of a bank for a globally synchronised stream: over every tick of the repeating pattern (R92). -/
def lookExtent (b : Bank) (rate tick : Nat) : Ns :=
  (List.range (tick / Nat.gcd rate tick * 9)).foldl (fun a k =>
    let tau := k * nsPerSec / tick
    let i := ((tau + 1) * rate - 1) / nsPerSec
    let t0 := i * nsPerSec / rate
    let den := (i + 1) * nsPerSec / rate - t0
    let q0 := phaseOf (tau - t0) den
    let i := if 65536 ≤ q0 then i + 1 else i
    let q := if 65536 ≤ q0 then 0 else q0
    let ph := q / 1024
    let ext (set i : Nat) : Nat := match firstTap b set with
      | none => 0
      | some f => (i + b.ahead - f) * nsPerSec / rate - tau
    let second := if q % 1024 = 0 then 0 else if ph < 63 then ext (ph + 1) i else ext 0 (i + 1)
    max a (max (ext ph i) second)) 0

/-- The lead E of a group computed with a bank, and its required hold-off (R92, R93); both 0 for a group without a stream (DESIGN CHOICE,
log entry 80). -/
def leadOf (m : Mach) (g : Nat) (b : Option Bank) : Ns × Ns :=
  let subs := groupSubs m g
  let tick := m.time.grid.rate
  let e := subs.foldl (fun a s =>
    let rate := s.2.entry.rate
    let x :=
      if takenGlobal s.2.entry s.2.run.cls then max (inTickOffset rate tick) ((b.map (lookExtent · rate tick)).getD 0)
      else max (cdiv nsPerSec tick) (cdiv (((b.map (·.ahead)).getD 0) * nsPerSec) rate)
    max a x) 0
  if subs = [] then (0, 0) else (e, e + subs.foldl (fun a s => max a (availDelay s.2.entry s.2.run.cls)) 0)

-- RSC_GROUP_SET

/-- A group that holds a channel of an enabled subscription (R83). -/
def groupHeld (m : Mach) (g : Nat) : Bool := (groupSubs m g).any fun s => subOn s.2.entry

/-- The bank a group would use after RSC_GROUP_SET. -/
def bankAsked (g : Group) (p : Bytes) : Nat := if g.enabled then bankNow g else bits (rd 1 p 1) 1 1

def rscGroupSet : Cmd where
  code := 0x0401
  len := fun p => layout 8 [(2, 2)] p && rd 1 p 1 < 4
  right := rConfig
  journal := true
  sched := true
  check := fun m _ p =>
    let g := rd 1 p 0
    let x := (getGroup m g).getD groupInit
    let r := rd 4 p 4
    firstFail [
      (x.enabled && r != x.inRate, 0x0201),
      (!inputRates.contains r || (r != x.inRate && groupHeld m g), 0x0202),
      (bit (rd 1 p 1) 0 && !x.enabled &&
        !((bankOf x (bankAsked x p)).any fun b => b.inRate == r && builtFor b m.time.grid.rate), 0x0206)]

/-- The answer of RSC_GROUP_SET. -/
def groupReply (p : Bytes) (m : Mach) : Bytes :=
  let g := rd 1 p 0
  let x := (getGroup m g).getD groupInit
  let b := bankOf x (bankAsked x p)
  let l := leadOf m g b
  fields [(4, b2n (decide (m.time.hold < l.2)) + 2 * b2n b.isNone), (4, l.1), (4, l.2)]

-- Swaps of a group, tick by tick (R98, R100)

/-- Swaps in the order of their acceptance. -/
def swapOrder (l : List (Nat × Nat)) : List (Nat × Nat) := l.foldl (fun l d => linsert (fun a b => decide (a.1 < b.1)) d l) []

/-- A group at the tick that starts at `t`: what was cut off by then is over. -/
def cutAt (t : Ns) (x : Group) : Group :=
  match (x.cuts.filter (·.1 ≤ t)).getLast? with
  | none => x
  | some c => { x with inUse := c.2, swap := none, pending := none, cuts := x.cuts.filter (t < ·.1) }

/-- A group's swaps as the tick that starts at `t` is put out. -/
def swapsAt (t : Ns) (x : Group) : Group :=
  let x := cutAt t x
  let due := (x.due.filter (·.1 ≤ t)).map (·.2)
  let x := { x with due := x.due.filter (t < ·.1) }
  match x.swap with
  | some _ => { x with pending := (x.pending.toList ++ due).getLast? }
  | none => match (swapOrder (x.pending.toList ++ due)).getLast? with
    | none => x
    | some s => { x with swap := some { dest := 1 - x.inUse, len := s.2, done := 0 }, pending := none }

/-- A group's swaps after a tick has been put out. -/
def swapsPassed (x : Group) : Group := match x.swap with
  | none => x
  | some w => if w.done + 1 < w.len then { x with swap := some { w with done := w.done + 1 } } else { x with inUse := w.dest, swap := none }

/-- A group after the ticks that start at some instants have been put out. -/
def groupAfter (ts : List Ns) (x : Group) : Group := ts.foldl (fun x t => swapsPassed (swapsAt t x)) x

/-- A group as the tick that starts at `t` begins, with every tick before it put out. -/
def groupBy (m : Mach) (t : Ns) (x : Group) : Group := cutAt t (groupAfter ((m.time.asm.map (·.t)).filter (· < t)) x)

/-- Swaps that wait at a tick, by T(n): the one held pending and those effective then. -/
def swapsWaiting (t : Ns) (y : Group) : List (Nat × Nat) := y.pending.toList ++ (y.due.filter (·.1 ≤ t)).map (·.2)

/-- From the tick that starts at `t` on a bank is in use alone: a swap in progress is over, and swaps that wait then are discarded and
counted, but for those given back (R97, R102). Ticks before it, still to be assembled, are put out as they would have been. -/
def cutSwaps (m : Mach) (t : Ns) (bank : Nat) (keep : List (Nat × Nat)) (x : Group) : Group :=
  let lost := (swapsWaiting t (groupBy m t x)).length - keep.length
  { x with
    cuts := x.cuts.filter (·.1 < t) ++ [(t, bank)]
    due := x.due.filter (·.1 < t) ++ keep.map fun s => (t, s)
    ctrs := bumpBy x.ctrs 5 lost }

/-- RSC_GROUP_SET at its effective tick. A group that is disabled ends its swap with the new bank (R102) and enters recovery when it
is enabled (R112). One disabled and enabled again at one tick goes on, with its swaps that wait (R27), and takes rate and bank from the
command that enables it; `again` says that such a command follows. -/
def applyGroupSet (again : Bool) (p : Bytes) (m : Mach) : Mach :=
  let g := rd 1 p 0
  let on := bit (rd 1 p 1) 0
  let t := tickAt m m.time.tick
  onGroup g (fun x =>
    let y := groupBy m t x
    let wait := swapsWaiting t y
    let x' := { x with inRate := rd 4 p 4 }
    if x.enabled then
      (if on then x'
      else { cutSwaps m t (bankInUse y) (if again then wait else []) x' with enabled := false, before := some (x.since, t) })
    else
      let x' := cutSwaps m t (bits (rd 1 p 1) 1 1) wait x'
      if !on then x'
      else match x.before.filter (·.2 == t) with
        | some (s, _) => { x' with enabled := true, since := s, before := none }
        | none => { x' with enabled := true, since := t }) m

-- RSC_BANK_LOAD

/-- A bank image parsed (R84, R85). -/
def bankAt (p : Bytes) : Bank :=
  let n := rd 1 p 6
  { ntaps := n, ahead := rd 1 p 7, inRate := rd 4 p 8, tmask := .ofNat 4 (rd 1 p 12), id := .ofNat 64 (rd 8 p 32),
    coeffs := (rdList 4 (64 * n) p 64).map (BitVec.ofNat 32) }

/-- A bank image is well made for a group (R86). -/
def bankOk (p : Bytes) (rate : Nat) : Bool :=
  rd 4 p 0 == 0x4B424352 && rd 2 p 4 == 1 && 1 ≤ rd 1 p 6 && rd 1 p 6 ≤ 32 && rd 1 p 7 ≤ rd 1 p 6 && zeros p 13 3 && zeros p 28 4 &&
  zeros p 40 24 && rd 4 p 24 == 256 * rd 1 p 6 && p.length == 64 + 256 * rd 1 p 6 && rd 4 p 8 == rate && rd 1 p 12 != 0 &&
  rd 1 p 12 < 16

/-- A swap of the group is among the scheduled changes. -/
def swapScheduled (m : Mach) (g : Nat) : Bool := m.mbx.scheduled.any fun c => c.code == 0x0410 && rd 1 c.payload 0 == g

/-- The bank a pending rate change will select is the one named (R97). -/
def bankReserved (m : Mach) (x : Group) (b : Nat) : Bool :=
  x.enabled && m.time.rateChange.any fun r => selectBank x r.rate == some b

/-- A bank is being computed, or a swap may still make it so (R101). -/
def bankBusy (m : Mach) (g b : Nat) : Bool :=
  let x := (getGroup m g).getD groupInit
  (x.enabled && (bankNow x == b || (x.cuts == [] && (x.swap.isSome || x.pending.isSome)) || x.due != [])) || swapScheduled m g || bankReserved m x b

/-- RSC_BANK_LOAD: a bank number above 1, which no code of R105 names, is a malformed payload (DESIGN CHOICE, log entry 68). -/
def rscBankLoad : Cmd where
  code := 0x0402
  len := fun p => 8 ≤ p.length && rd 1 p 1 < 2 && zeros p 2 6
  right := rConfig
  journal := true
  sched := true
  check := fun m _ p =>
    let img := p.drop 8
    firstFail [
      (!bankOk img (((getGroup m (rd 1 p 0)).map (·.inRate)).getD 0), 0x0203),
      (!((bankAt img).coeffs.all fin32), 0x0204),
      (bankBusy m (rd 1 p 0) (rd 1 p 1), 0x0205)]

/-- RSC_BANK_LOAD at its effective tick. -/
def applyBankLoad (p : Bytes) : Mach → Mach :=
  onGroup (rd 1 p 0) fun x =>
    if rd 1 p 1 = 0 then { x with bankA := some (bankAt (p.drop 8)) } else { x with bankB := some (bankAt (p.drop 8)) }

-- RSC_SWAP

/-- Both banks are loaded and built for the group and a tick rate (R101). -/
def banksReady (x : Group) (tick : Nat) : Bool :=
  [x.bankA, x.bankB].all fun b => b.any fun b => b.inRate == x.inRate && builtFor b tick

def rscSwap : Cmd where
  code := 0x0410
  len := fun p => layout 8 [(2, 6)] p
  right := rConfig
  journal := true
  sched := true
  check := fun m _ p =>
    let x := (getGroup m (rd 1 p 0)).getD groupInit
    firstFail [
      (m.mbx.scheduled.any (fun c => c.code == 0x0402 && rd 1 c.payload 0 == rd 1 p 0), 0x0205),
      (!banksReady x m.time.grid.rate, 0x0206),
      (!x.enabled, 0x0207),
      (rd 1 p 1 = 0 || 64 < rd 1 p 1, 0x0208)]

/-- RSC_SWAP at its effective tick: it is resolved when that tick is assembled (R98, R100). One that finds its group disabled is
discarded and counted like those that wait (R102). -/
def applySwap (order : Nat) (p : Bytes) (m : Mach) : Mach :=
  onGroup (rd 1 p 0) (fun x =>
    if x.enabled then { x with due := x.due ++ [(tickAt m m.time.tick, order, rd 1 p 1)] }
    else { x with ctrs := bump x.ctrs 5 }) m

/-- A swap begins (R98). -/
def beginSwap (g len : Nat) (m : Mach) : Mach :=
  let old := ((getGroup m g).map (·.inUse)).getD 0
  raise 0x0401 0 (fields [(1, g), (1, old), (1, 1 - old), (1, len), (4, 0)])
    (onGroup g (fun x => { x with swap := some { dest := 1 - old, len := len, done := 0 }, pending := none }) m)

/-- A swap held pending, in place of one that was (R100). -/
def holdSwap (g : Nat) (s : Nat × Nat) (m : Mach) : Mach :=
  let had := (getGroup m g).any fun x => x.pending.isSome
  let m := onGroup g (fun x => { x with pending := some s }) m
  if had then raise 0x0403 0 (fields [(1, g), (7, 0)]) (rscCount g 4 1 m) else m

/-- The swaps due at a tick: held while one is in progress; else the one accepted last begins and the others are replaced. -/
def resolveSwaps (g : Nat) (t : Ns) (m : Mach) : Mach :=
  match getGroup m g with
  | none => m
  | some x =>
    let due := (x.due.filter fun d => d.1 ≤ t).map (·.2)
    let m := onGroup g (fun x => { x with due := x.due.filter fun d => t < d.1 }) m
    if x.swap.isSome then forEach due (holdSwap g) m
    else
      match (swapOrder (x.pending.toList ++ due)).reverse with
      | [] => m
      | last :: others =>
        let lost := x.pending.any fun p => others.contains p
        let m := rscCount g 4 others.length m
        let m := if lost then raise 0x0403 0 (fields [(1, g), (7, 0)]) m else m
        beginSwap g last.2 m

/-- An enabled group at the boundary of a rate change, where the first tick of the new grid starts at `t` (R97), with its banks as the
loads that wait for assemblies leave them, in `loaded`. One without a bank for the rate, enabled after TIME_RATE was accepted, keeps the
one in use, with no event (DESIGN CHOICE, log entry 80). -/
def selectAtRate (loaded : Mach) (rate : Nat) (t : Ns) (g : Nat) (m : Mach) : Mach :=
  match (getGroup m g).filter (·.enabled) with
  | none => m
  | some x =>
    let z := (getGroup loaded g).getD x
    let y := groupBy m t { x with bankA := z.bankA, bankB := z.bankB }
    let u := bankInUse y
    let b := (selectBank y rate).getD u
    let m := onGroup g (cutSwaps m t b []) m
    if u = b then m else raise 0x0407 0 (fields [(1, g), (1, b), (6, 0)]) m

/-- What the frame header of a tick reports of a group's banks (R99). -/
def showBank (g : Nat) : Mach → Mach := onGroup g fun x => { x with shownBank := bankInUse x, shownFade := x.swap.isSome }

/-- A tick of a swap has been put out; the last completes it (R98). -/
def advanceSwap (g : Nat) (m : Mach) : Mach :=
  match (getGroup m g).bind (·.swap) with
  | none => m
  | some s =>
    if s.done + 1 < s.len then onGroup g (fun x => { x with swap := some { s with done := s.done + 1 } }) m
    else raise 0x0402 0 (fields [(1, g), (7, 0)])
      (rscCount g 3 1 (onGroup g (fun x => { x with inUse := s.dest, swap := none }) m))

-- The filter (R87, R88, R90, R91, R94, R95, R98)

/-- What a channel's chain reads: its positions in hand, the index of the channel in its stream, the anchor, the instant
from which positions count, and the nominal period. -/
structure Tap where
  poss : List Pos
  idx : Nat
  anchor : Nat
  from_ : Ns
  deriving DecidableEq, Repr

/-- Value and quality of the channel at a position. -/
def posAt (x : Tap) (p : Pos) : F32 × BitVec 32 := p.vals.getD x.idx (0, qAbsent)

/-- The position at a number, or what stands for it: nothing before the history, and after the newest in hand the newest
before it (R91). The flag says that it was filled in. -/
def tapAt (x : Tap) (k : Nat) : Option Pos × Bool :=
  match x.poss.find? fun p => p.key == k with
  | some p => (some p, false)
  | none => if k ≤ x.anchor then (none, false) else (x.poss.find? fun p => p.key < k, true)

/-- A window's findings: an invalid position, a look-ahead-limited tap, TEST, a result that is not finite. -/
structure Found where
  invalid : Bool
  limited : Bool
  test : Bool
  overflow : Bool
  deriving DecidableEq, Repr

def foundNone : Found := { invalid := false, limited := false, test := false, overflow := false }

def Found.join (a b : Found) : Found :=
  { invalid := a.invalid || b.invalid, limited := a.limited || b.limited, test := a.test || b.test,
    overflow := a.overflow || b.overflow }

/-- A number that is not finite is an overflow (R95). -/
def foundOf (v : F32) : Found := { foundNone with overflow := !fin32 v }

/-- The dot product of a phase set at an anchor (R88), with what its window holds. -/
def dot (x : Tap) (b : Bank) (ph anchor : Nat) : F32 × Found :=
  (List.range b.ntaps).foldl (fun a k =>
    let h := b.coeffs.getD (ph * b.ntaps + k) 0
    match tapAt x (anchor + b.ahead - k) with
    | (none, _) => (fma32 h 0 a.1, a.2.join { foundNone with invalid := true })
    | (some p, filled) =>
      let v := posAt x p
      (fma32 h v.1 a.1, a.2.join
        { invalid := validity v.2 == 1 || p.t < x.from_, limited := filled && h.toNat % 2 ^ 31 != 0,
          test := v.2 &&& qTest != 0, overflow := false })) (0, foundNone)

/-- The output of one bank at a phase and blend (R88). -/
def bankOut (x : Tap) (b : Option Bank) (ph blend : Nat) : F32 × Found :=
  match b with
  | none => (0, { foundNone with invalid := true })
  | some b =>
    let s0 := dot x b ph x.anchor
    if blend = 0 then (s0.1, s0.2.join (foundOf s0.1))
    else
      let s1 := if ph < 63 then dot x b (ph + 1) x.anchor else dot x b 0 (x.anchor + 1)
      let d := sub32 s1.1 s0.1
      let y := fma32 (rat32 blend 1024) d s0.1
      (y, s0.2.join (s1.2.join ((foundOf s0.1).join ((foundOf s1.1).join ((foundOf d).join (foundOf y))))))

/-- The bits of a quality word that pass from the anchors: R78 below bit 19 but for TEST, and ARRIVAL_TIMED (R94). -/
def anchorBits : BitVec 32 := 0x17F7FC

/-- An output of the chain: its value and quality, and whether it was look-ahead-limited, an overflow, or invalid for what its windows
or its anchors hold (R94). -/
structure ChainOut where
  y : F32
  q : BitVec 32
  limited : Bool
  overflow : Bool
  invalid : Bool
  /-- The channel's subscription is enabled at the tick. -/
  live : Bool
  deriving DecidableEq, Repr

/-- An invalid output of a channel without input. -/
def chainNone : ChainOut := { y := 0, q := qAbsent, limited := false, overflow := false, invalid := true, live := false }

/-- Anchor, phase and blend (R87): the taps, and q in 0 to 65535. -/
def anchorAt (s : Sub) (idx : Nat) (from_ : Ns) (d : AsmDue) : Option (Tap × Nat) :=
  let poss := s.run.poss.filter fun p => p.rx + ingestAllow ≤ d.d
  (poss.find? fun p => p.t ≤ d.t).map fun p =>
    let next := poss.find? fun n => n.key == p.key + 1
    let den := match next.filter fun n => p.t < n.t with
      | some n => n.t - p.t
      | none => nsPerSec / max 1 s.entry.rate
    let q := phaseOf (d.t - p.t) den
    let ovf := decide (65536 ≤ q) && next.isSome
    ({ poss := poss, idx := idx, anchor := if ovf then p.key + 1 else p.key, from_ := from_ }, if ovf then 0 else min q 65535)

/-- The output of a channel of a live group at a tick. -/
def chainOut (g : Group) (since : Ns) (s : Sub) (idx : Nat) (d : AsmDue) : ChainOut :=
  match (subSpan s d.t).bind fun on => anchorAt s idx (max since on) d with
    | none => { chainNone with live := subLive s d.t }
    | some (x, q) =>
      let ph := q / 1024
      let blend := q % 1024
      let r : F32 × Found := match g.swap with
        | none => bankOut x (bankOf g g.inUse) ph blend
        | some w =>
          if w.len = 1 then bankOut x (bankOf g w.dest) ph blend else
          let old := bankOut x (bankOf g (1 - w.dest)) ph blend
          let new := bankOut x (bankOf g w.dest) ph blend
          let f := old.2.join new.2
          if w.done + 1 < w.len then
            let df := sub32 new.1 old.1
            let y := fma32 (rat32 (w.done + 1 : Nat) w.len) df old.1
            (y, f.join ((foundOf df).join (foundOf y)))
          else (new.1, f)
      let qa (k : Nat) : BitVec 32 := ((tapAt x k).1.map fun p => (posAt x p).2).getD qAbsent
      let j := qJoin (qa x.anchor) (qa (x.anchor + 1))
      let q := setValidity (j &&& anchorBits) (validity j)
      let q := if r.2.test then q ||| qTest else q
      let q := if r.2.limited then worsen (q ||| qLookahead) 3 else q
      let q := if r.2.invalid then q ||| qOldData ||| qFailure else q
      let q := if r.2.overflow then q ||| qOverflow else q
      let bad := r.2.invalid || r.2.overflow
      { y := if bad then 0 else r.1, q := if bad then setValidity q 1 else q, limited := r.2.limited, overflow := r.2.overflow,
        invalid := r.2.invalid || validity j == 1, live := true }

/-- The outputs of a group's channels at a tick, in ascending channel order (R89). -/
def groupOuts (m : Mach) (gi : Nat) (d : AsmDue) : List (Nat × ChainOut) :=
  match getGroup m gi with
  | none => []
  | some g =>
    let chans := (groupChans m gi).foldl (fun l c => linsert (fun a b => decide (a < b)) c l) []
    chans.map fun c => (c, match groupLive g d.t, subOfChan m c with
      | some since, some s => chainOut g since s.2 (c - s.2.entry.chan0) d
      | some _, none => chainNone
      | none, _ => { chainNone with invalid := false })

/-- One second without a look-ahead-limited output ends look-ahead limiting (R104). -/
def limitingOver (gi : Nat) (d : AsmDue) (m : Mach) : Mach :=
  if ((getGroup m gi).bind (·.limited)).any (fun t => decide (t + nsPerSec ≤ d.t)) then
    raise 0x0405 0 (fields [(1, gi), (7, 0)]) (onGroup gi (fun x => { x with limited := none }) m)
  else m

/-- What a group's outputs at a tick count and report (R95, R103, R104). An overflow counts as such, and as invalid too where its
windows hold an invalid position (log entry 70). -/
def countOuts (gi : Nat) (d : AsmDue) (outs : List (Nat × ChainOut)) (m : Mach) : Mach :=
  let lim := (outs.filter fun o => o.2.limited).length
  let ovf := outs.filter fun o => o.2.overflow
  let m := rscCount gi 0 lim (rscCount gi 1 ovf.length (rscCount gi 2 (outs.filter fun o => o.2.invalid).length m))
  let m := limitingOver gi d (forEach ovf (fun o => raise 0x0406 0 (fields [(1, gi), (1, 0), (2, o.1), (4, 0)])) m)
  if lim = 0 then m
  else
    let was := (getGroup m gi).bind (·.limited)
    let m := onGroup gi (fun x => { x with limited := some d.t }) m
    if was.isNone then raise 0x0404 0 (fields [(1, gi), (7, 0)]) m else m

-- RSC_GROUP_STATUS

/-- A slice subscribes a channel of a group. -/
def sliceInGroup (m : Mach) (t g : Nat) : Bool :=
  (getSlice m t).any fun s => s.subs.any fun c => (chanEntry m c).group == g

def rscGroupStatus : Cmd where
  code := 0x0420
  len := fun p => layout 8 [(2, 6)] p && rd 1 p 1 < 2
  apply := false
  slice := fun m t p => sliceInGroup m t (rd 1 p 0)
  roleOk := fun role p => !bit (rd 1 p 1) 0 || hasRight role rConfig

/-- A bank as RSC_GROUP_STATUS gives it: loaded and TMASK. -/
def bankByte (b : Option Bank) : Nat := match b with
  | none => 0
  | some b => 1 + 2 * b.tmask.toNat

def execRscGroupStatus (h : Hdr) (p : Bytes) (s : State) : Host.Outcome State Fault Refusal :=
  let g := rd 1 p 0
  runOn s (runRead rscGroupStatus h p
    (fun m =>
      let x := (getGroup m g).getD groupInit
      let x := if x.cuts = [] then x else { x with inUse := bankNow x, swap := none, pending := none }
      let l := leadOf m g (bankOf x (bankInUse x))
      let num (f : Bank → Nat) (b : Option Bank) : Nat := (b.map f).getD 0
      fields [(1, b2n x.enabled + 2 * b2n x.swap.isSome + 4 * b2n x.pending.isSome + 8 * b2n (swapScheduled m g || x.due != []) +
          16 * b2n (decide (m.time.hold < l.2))), (1, bankInUse x), (1, (x.swap.map (·.len)).getD 0), (1, (x.swap.map (·.done)).getD 0),
        (4, x.inRate), (1, bankByte x.bankA), (1, bankByte x.bankB), (1, num (·.ntaps) x.bankA), (1, num (·.ntaps) x.bankB),
        (1, num (·.ahead) x.bankA), (1, num (·.ahead) x.bankB), (2, 0), (8, num (·.id.toNat) x.bankA), (8, num (·.id.toNat) x.bankB),
        (4, l.1), (4, l.2)] ++ ctrBytes x.ctrs 6)
    (when (bit (rd 1 p 1) 0) (onGroup g fun x => { x with ctrs := ctrClear x.ctrs 6 })))

end Sys2Proof.Machine
end

