-- ==== Sys2Proof/Machine/Trig.lean ====
section
/-! DEFINITION. The correctly rounded binary32 functions of chapter 05: cosine and sine of a phase index, the pole of the DC
blocker, and magnitudes of phasors, computed in integers far finer than binary32 (R107, R122). -/
namespace Sys2Proof.Machine
open Sys2Proof

/-- Fixed point: 2^128 is one. -/
def fxOne : Nat := 2 ^ 128

/-- π in fixed point, rounded down. -/
def fxPi : Nat := 0x3243F6A8885A308D313198A2E03707344

/-- The terms of a Taylor series whose next term is the last times `x2` over `(k + 1)(k + 2)`, signs alternating. -/
def fxSeries (x2 : Nat) : Nat → Nat → Nat → Int
  | 0, _, _ => 0
  | n + 1, k, t => (t : Int) - fxSeries x2 n (k + 2) (t * x2 / fxOne / ((k + 1) * (k + 2)))

/-- Cosine and sine of an angle below π/4 in fixed point. -/
def fxCos (x : Nat) : Int := fxSeries (x * x / fxOne) 20 0 fxOne
def fxSin (x : Nat) : Int := fxSeries (x * x / fxOne) 20 1 x

/-- A fixed-point number rounded to binary32; a zero is +0.0. -/
def fx32 (v : Int) : F32 := .ofNat 32 (froundDy fmt32 false v (-128))

/-- cos(2πk / 65 536), k reduced to the first octant by the exact symmetries (R122). -/
def cosTurn (k : Nat) : F32 :=
  let k := k % 65536
  let k := if 32768 < k then 65536 - k else k
  let neg := decide (16384 < k)
  let k := if neg then 32768 - k else k
  let v := if k ≤ 8192 then fxCos (2 * fxPi * k / 65536) else fxSin (2 * fxPi * (16384 - k) / 65536)
  fx32 (if neg then -v else v)

/-- sin(2πk / 65 536) (R122). -/
def sinTurn (k : Nat) : F32 := cosTurn (k + 49152)

/-- exp(−num / den) in fixed point for an argument below one. -/
def fxExpNeg (num den : Nat) : Int :=
  let x := num * fxOne / den
  let rec go : Nat → Nat → Nat → Int
    | 0, _, _ => 0
    | n + 1, k, t => (t : Int) - go n (k + 1) (t * x / fxOne / k)
  go 30 1 fxOne

/-- The pole of the DC blocker: exp(−1000 / (TAU_MS × r)) correctly rounded (R107). -/
def poleOf (tauMs rate : Nat) : F32 := fx32 (fxExpNeg 1000 (max 1 (tauMs * rate)))

/-- The arc tangent of a fixed-point number below one half. -/
def fxAtan (x : Nat) : Int :=
  let rec go : Nat → Nat → Nat → Int
    | 0, _, _ => 0
    | n + 1, k, t => (t / k : Nat) - go n (k + 2) (t * (x * x / fxOne) / fxOne)
  go 60 1 x

/-- The angle of a vector of the first octant, `a ≤ b`, from its long side, in fixed point. -/
def fxOctant (a b : Nat) : Int :=
  if 5 * a ≤ 2 * b then fxAtan (a * fxOne / b) else (fxPi / 4 : Nat) - fxAtan ((b - a) * fxOne / (b + a))

/-- The angle of the vector (x, y) in fixed point, in (−π, π]. -/
def fxAngle (x y : Int) : Int :=
  let a := x.natAbs
  let b := y.natAbs
  let q := if b ≤ a then fxOctant b a else (fxPi / 2 : Nat) - fxOctant a b
  let h := if x < 0 then (fxPi : Int) - q else q
  if y < 0 then -h else h

/-- Two finite numbers as integers in one unit. -/
def inUnit (a b : Int × Int) : Int × Int :=
  let e := min a.2 b.2
  (a.1 * 2 ^ (a.2 - e).toNat, b.1 * 2 ^ (b.2 - e).toNat)

/-- The angle of one phasor less that of another, wrapped into (−π, π], in fixed point (R124). -/
def fxTurn (re im re' im' : F32) : Int :=
  let d (v : F32) : Int × Int := (fdy fmt32 v.toNat).getD (0, 0)
  let mul (a b : Int × Int) : Int × Int := (a.1 * b.1, a.2 + b.2)
  let neg (a : Int × Int) : Int × Int := (-a.1, a.2)
  let x := dyAdd (mul (d re) (d re')) (mul (d im) (d im'))
  let y := dyAdd (mul (d im) (d re')) (neg (mul (d re) (d im')))
  let v := inUnit x y
  fxAngle v.1 v.2

/-- An exact square or sum of squares, `m * 2^e`. -/
abbrev Sq := Nat × Int

/-- The square of a finite number. -/
def sqOf (v : F32) : Sq := match fdy fmt32 v.toNat with
  | some (m, e) => (m.natAbs * m.natAbs, 2 * e)
  | none => (0, 0)

/-- The squared magnitude of a phasor. -/
def sqMag (re im : F32) : Sq :=
  let a := sqOf re
  let b := sqOf im
  let s := dyAdd (a.1, a.2) (b.1, b.2)
  (s.1.toNat, s.2)

/-- A magnitude, known by its square, above or below a level, `m * 2^e` of either sign; both exact. -/
def magCmp (s : Sq) (level : Int × Int) : Ordering :=
  if level.1 < 0 then .gt else dyCmp (s.1, s.2) (level.1 * level.1, 2 * level.2)

/-- A magnitude against a binary32 level. -/
def magAbove (s : Sq) (level : F32) : Bool := (fdy fmt32 level.toNat).any fun l => magCmp s l == .gt

/-- A magnitude rounded once to binary32. -/
def magOf (s : Sq) : F32 :=
  let s : Sq := if s.2 % 2 = 0 then s else (s.1 * 2, s.2 - 1)
  let n := s.1 * 2 ^ 128
  let r := Nat.sqrt n
  .ofNat 32 (froundDy fmt32 false ((2 * r + b2n' (r * r != n) : Nat) : Int) (s.2 / 2 - 65))
where
  b2n' (b : Bool) : Nat := if b then 1 else 0

end Sys2Proof.Machine
end

