-- ==== Sys2Proof/Machine/Est.lean ====
section
/-! DEFINITION. The estimate engine: DC blocker and freezing, the phasor paths, frequency tracking, comparators, channel
records, and the EST commands for groups (chapter 05). The order of the binary32 operations is the model's reading of R121
and R122 (log entry 21). -/
namespace Sys2Proof.Machine
open Sys2Proof

-- Derived quantities (R107)

/-- Blend a: the binary32 number nearest to 1 − p. -/
def blendOf (e : EstCfg) (rate : Nat) : F32 := sub32 0x3F800000 (poleOf e.tauMs rate)

/-- A time in ms as ticks, rounded up. -/
def msTicks (ms rate : Nat) : Nat := cdiv (ms * rate) 1000

/-- Ht. -/
def holdTicks (e : EstCfg) (rate : Nat) : Nat := msTicks e.holdMs rate

/-- Rt. -/
def recoveryTicks (e : EstCfg) (rate : Nat) : Nat :=
  max (cdiv (e.rc * rate) e.nomf) (cdiv ((if e.twoCycle then 2 else 1) * rate) e.nomf + 1)

/-- A tick is a cycle boundary tick, by its position in the second (R124). -/
def cycleBoundary (f0 rate k : Nat) : Bool := k == 0 || (k - 1) * f0 / rate < k * f0 / rate

-- Channels

def chanInit : Chan :=
  { hist := [], d := 0, dh := 0, trigAgo := none, trigGroup := false, cmdLeft := 0, frozen := false, frozenTicks := 0,
    comps := List.replicate 4 (false, 0), blk := none, bound := none, seen := none, record := [], recs := [] }

def getChan (m : Mach) (c : Nat) : Chan := tgetD m.flt.chans c chanInit
def onChan (c : Nat) (f : Chan → Chan) : Mach → Mach := onFlt fun x => { x with chans := tmod x.chans c chanInit f }

/-- Counter `i` of EST_GROUP_STATUS advanced (R144). -/
def estCount (g i : Nat) : Mach → Mach := onGroup g fun x => { x with estCtrs := bump x.estCtrs i }

/-- The group's channels in ascending order (R129). -/
def chansUp (m : Mach) (g : Nat) : List Nat := (groupChans m g).foldl (fun l c => linsert (fun a b => decide (a < b)) c l) []

/-- The engine keeps the longest window any rate needs. -/
def histLen : Nat := 704

-- Freezing (R116 to R119)

/-- A channel is frozen at the coming tick: a trigger in the last Ht ticks, or a command freeze. -/
def freezeDue (ht : Nat) (c : Chan) : Bool := c.trigAgo.any (fun a => decide (a + 1 ≤ (ht : Int))) || 0 < c.cmdLeft

/-- A freeze that covers the coming tick no longer ends (R117, R119). -/
def endFreeze (g ch : Nat) (m : Mach) : Mach :=
  let c := getChan m ch
  raise 0x0505 0 (fields [(1, g), (1, 0), (2, ch), (4, c.frozenTicks)])
    (onChan ch (fun c => { c with frozen := false, frozenTicks := 0 }) m)

/-- The freeze state of a channel at a tick, evaluated before the blocker. -/
def freezeStep (g ch ht : Nat) (m : Mach) : Mach :=
  let c := getChan m ch
  let due := freezeDue ht c
  let m :=
    if due && !c.frozen then
      let cause := if 0 < c.cmdLeft then 2 else b2n c.trigGroup
      let m := onChan ch (fun c => { c with frozen := true, dh := c.d, frozenTicks := 0 }) m
      raise 0x0504 0 (fields [(1, g), (1, cause), (2, ch), (4, c.d.toNat)]) (estCount g (if cause = 2 then 2 else 1) m)
    else if c.frozen && !due then endFreeze g ch m
    else m
  onChan ch (fun c =>
    { c with trigAgo := c.trigAgo.map (· + 1), cmdLeft := c.cmdLeft - 1, frozenTicks := if c.frozen then c.frozenTicks + 1 else 0 }) m

/-- A trigger on a channel; with GROUP_FREEZE it counts for every channel of the group (R116). A channel that gave one itself at the
same tick keeps that as its cause (R119). -/
def trigger (chans : List Nat) (group : Bool) (ch : Nat) (m : Mach) : Mach :=
  forEach (if group then chans else [ch]) (fun c => onChan c fun x =>
    { x with trigAgo := some 0, trigGroup := c != ch && !(x.trigAgo == some 0 && !x.trigGroup) }) m

-- The DC blocker (R115)

/-- d and x of a tick, put into the history. -/
def blockStep (a : F32) (y : Option F32) (c : Chan) : Chan :=
  match y with
  | none => { c with hist := (none :: c.hist).take histLen }
  | some y =>
    let d := if c.frozen then c.dh else fma32 a (sub32 y c.d) c.d
    { c with d := d, hist := (some (y, sub32 y d) :: c.hist).take histLen }

-- The phasor paths (R120 to R123, R126)

/-- P(n) of R120. -/
def refIndex (f0 : Nat) (t : Ns) : Nat := 65536 * f0 * (t % nsPerSec) / nsPerSec % 65536

def phasorInc : Phasor := { re := 0, im := 0, inc := true, ovf := false }
def phasorOver : Phasor := { re := 0, im := 0, inc := false, ovf := true }

/-- A complex number turned by −θ and scaled; parts that are not finite are +0.0 (R123). The scale comes after the turn, where the formula of
R121 writes it first (DESIGN CHOICE, log entry 21). -/
def rotated (re im : F32) (theta : Nat) (k : Option F32) : Phasor :=
  let c := cosTurn theta
  let s := sinTurn theta
  let rr := fma32 re c (mul32 im s)
  let ri := fma32 im c (neg32 (mul32 re s))
  let sc (v : F32) : F32 := match k with
    | none => v
    | some k => mul32 k v
  if fin32 (sc rr) && fin32 (sc ri) then { re := sc rr, im := sc ri, inc := false, ovf := false } else phasorOver

/-- The phasor input of a past tick: x in service behaviour, y in commissioning behaviour (R121). -/
def inputAt (service : Bool) (h : List (Option (F32 × F32))) (k : Nat) : Option F32 :=
  (h.getD k none).map fun v => if service then v.2 else v.1

/-- 1/√2 in binary32. -/
def invSqrt2 : F32 := 0x3F3504F3

/-- √2 in binary32. -/
def sqrt2 : F32 := 0x3FB504F3

/-- A nonnegative number as its whole part and the rest. -/
def splitQuot (q : F32) : Nat × F32 :=
  let w := (ffloor fmt32 q.toNat).toNat
  (w, sub32 q (int32 w))

/-- The fast path at the newest tick (R121). Its division by √2 is a product of v and of v_q with the binary32 number nearest 1/√2 (DESIGN
CHOICE, log entry 21). -/
def fastPath (service : Bool) (h : List (Option (F32 × F32))) (ft : F32) (rate theta : Nat) : Phasor :=
  let (g, u) := splitQuot (div32 (int32 rate) (mul32 (int32 4) ft))
  match inputAt service h 0, inputAt service h g, inputAt service h (g + 1) with
  | some v, some a, b =>
    if u = 0 then rotated (mul32 v invSqrt2) (mul32 a invSqrt2) theta none
    else (match b with
      | none => phasorInc
      | some b =>
        let vq := fma32 u b (mul32 (sub32 0x3F800000 u) a)
        rotated (mul32 v invSqrt2) (mul32 vq invSqrt2) theta none)
  | some _, none, _ => phasorInc
  | none, _, _ => phasorInc

/-- The phase index of 2π f m / r (R122). -/
def phaseIndex (f : F32) (k rate : Nat) : Nat :=
  let v := div64 (mul64 (mul64 (int64 65536) (to64 f)) (int64 k)) (int64 rate)
  match fdy fmt64 v.toNat with
  | none => 0
  | some (mt, e) =>
    if 0 ≤ e then (mt.toNat * 2 ^ e.toNat) % 65536
    else
      let n := mt.toNat
      let d := 2 ^ (-e).toNat
      let q := n / d
      let r := n % d
      (if d < 2 * r || (2 * r == d && q % 2 == 1) then q + 1 else q) % 65536

/-- The full-cycle DFT over `c` cycles of a frequency (R121): the fine path, and with f0 the settle block (R126). -/
def finePath (service : Bool) (h : List (Option (F32 × F32))) (f : F32) (c rate theta : Nat) : Phasor :=
  let l := div32 (int32 (c * rate)) f
  let (w, wl) := splitQuot l
  let n := if wl = 0 then w else w + 1
  let vs := (List.range n).map (inputAt service h)
  if vs.any (·.isNone) || n = 0 then phasorInc
  else
    let sum := (List.range n).foldl (fun (a : F32 × F32) k =>
      let v := ((vs.getD k none).getD 0)
      let t := if k < w then v else mul32 wl v
      let i := phaseIndex f k rate
      (fma32 t (cosTurn i) a.1, fma32 t (sinTurn i) a.2)) (0, 0)
    if fin32 sum.1 && fin32 sum.2 then rotated sum.1 sum.2 theta (some (div32 sqrt2 l)) else phasorOver

-- Comparators (R127 to R129)

/-- The square of a comparator's source, if its input and window allow it. A phasor whose path gave an infinity or a NaN gives none, as an
incomplete window does: the state is kept and the count starts again (DESIGN CHOICE, log entry 83). -/
def sourceOf (k : Comp) (y d : F32) (fast fine : Phasor) (invalid : Bool) : Option Sq :=
  let path (p : Phasor) : Option Sq := if p.inc || p.ovf then none else some (sqMag p.re p.im)
  if invalid || k.source = 0 || 4 < k.source then none
  else if k.source = 1 then some (sqOf y)
  else if k.source = 2 then path fast
  else if k.source = 3 then path fine
  else some (sqOf d)

/-- LEVEL moved by HYST, exactly. -/
def levelBy (k : Comp) (neg : Bool) : Int × Int :=
  match fdy fmt32 k.level.toNat, fdy fmt32 k.hyst.toNat with
  | some l, some h => dyAdd l (if neg then -h.1 else h.1, h.2)
  | _, _ => (0, 0)

/-- The turn-on condition, and the turn-off condition, of a comparator. -/
def onCond (k : Comp) (s : Sq) : Bool :=
  match fdy fmt32 k.level.toNat with
  | none => false
  | some l => magCmp s l == (if k.dir = 0 then .gt else .lt)
def offCond (k : Comp) (s : Sq) : Bool := magCmp s (levelBy k (k.dir = 0)) == (if k.dir = 0 then .lt else .gt)

/-- The persistence count of a comparator after a tick. -/
def persist (k : Comp) (src : Option Sq) (n : Nat) : Nat := match src with
  | none => 0
  | some s => if onCond k s then n + 1 else 0

/-- The state a comparator takes, from its state, its persistence count and its source. -/
def compNext (k : Comp) (on : Bool) (n : Nat) (src : Option Sq) : Bool :=
  match src with
  | none => on
  | some s => if on then !offCond k s else k.delay < n

/-- Whether the group applies service behaviour (R110). -/
def inService (g : Group) : Bool := !g.est.commissioning && !g.recovery

/-- A transition: the state changes, it is counted, and in commissioning behaviour reported and written to its point. -/
def transition (g ch pos k : Nat) (on : Bool) (src : Sq) (q : BitVec 32) (t : Ns) (m : Mach) : Mach :=
  match getGroup m g with
  | none => m
  | some x =>
    let m := onChan ch (fun c => { c with comps := lmod c.comps k fun s => (on, s.2) }) (estCount g 3 m)
    if inService x then m
    else
      let m := raise 0x0501 0 (fields [(1, g), (1, k), (2, ch), (4, b2n on), (4, (magOf src).toNat)]) m
      match x.est.thrBase with
      | none => m
      | some b =>
        let i := b + 4 * pos + k
        if computeRuns m && (rangeOf m.sig i).any (fun r => r.ownerKind == 0) then
          putPoint i (stamped (.ofNat 64 (b2n on)) (q &&& 0x3FFF) t (timeQuality m.time)) m
        else m

/-- One comparator of a channel at a tick. -/
def compStep (g ch pos : Nat) (q : BitVec 32) (t : Ns) (y d : F32) (fast fine : Phasor) (invalid : Bool) (k : Nat) (m : Mach) : Mach :=
  match (getGroup m g).bind fun x => x.est.comps[k]? with
  | none => m
  | some cfg =>
    let s := ((getChan m ch).comps.getD k (false, 0))
    if cfg.source = 0 then onChan ch (fun c => { c with comps := lmod c.comps k fun _ => (false, 0) }) m
    else
      let src := sourceOf cfg y d fast fine invalid
      let n := persist cfg src s.2
      let m := onChan ch (fun c => { c with comps := lmod c.comps k fun s => (s.1, n) }) m
      let on := compNext cfg s.1 n src
      if on = s.1 then m else transition g ch pos k on (src.getD (0, 0)) q t m

/-- THR_ON of a channel's comparators. -/
def thrOn (c : Chan) : Nat := ((List.range 4).map fun k => if (c.comps.getD k (false, 0)).1 then 2 ^ k else 0).sum

-- The channel record (R130, R131)

/-- FLAGS but for the comparators. -/
def recFlags (g : Group) (track : Bool) (fast fine : Phasor) : Nat :=
  let lim := g.ft == int32 (9 * g.est.nomf / 10) || g.ft == int32 (11 * g.est.nomf / 10)
  2048 * b2n g.est.settle + 1024 * b2n (!track || g.lost || lim) + 512 * b2n fine.inc + 256 * b2n fast.inc

def qRecovery : BitVec 32 := 0x400000
def qFrozen : BitVec 32 := 0x200000

/-- A record's 32 bytes. -/
def recBytes (y : F32) (q : BitVec 32) (fast fine : Phasor) (d : F32) (flags : Nat) (n : Tick) : Bytes :=
  fields [(4, y.toNat), (4, q.toNat), (4, fast.re.toNat), (4, fast.im.toNat), (4, fine.re.toNat), (4, fine.im.toNat), (4, d.toNat),
    (2, flags), (2, n)]

/-- A channel's record of a tick, kept whole and, as far as the energy engine reads it, for earlier ticks (R346, R347). -/
def putRecord (y : F32) (q : BitVec 32) (fast fine : Phasor) (d : F32) (flags : Nat) (n : Tick) (c : Chan) : Chan :=
  let bad := validity q == 1 || q &&& qTest != 0 || bit flags 8 || bit flags 9
  { c with
    record := recBytes y q fast fine d flags n
    recs := ((n, y, .ofNat 2 (b2n bad + 2 * b2n (validity q == 3))) :: c.recs).take histLen }

/-- TRACK is on and REF_CHAN names a channel of the group (R124). -/
def tracks (m : Mach) (gi : Nat) (g : Group) : Bool := g.est.track && g.est.refChan.any fun c => (chanEntry m c).group == gi

/-- What a channel's tick needs of its group. -/
structure TickOf where
  gi : Nat
  d : AsmDue
  a : F32
  ht : Nat
  theta : Nat
  track : Bool
  blockEnd : Bool
  chans : List Nat
  deriving DecidableEq, Repr

/-- The blocker of one channel at a tick: freeze state, d and x, and the trigger it may give for the ticks after. -/
def chanBlock (x : TickOf) (o : Nat × ChainOut) (m : Mach) : Mach :=
  let invalid := validity o.2.q == 1
  let m := freezeStep x.gi o.1 x.ht m
  onChan o.1 (blockStep x.a (if invalid then none else some o.2.y)) m

/-- Triggers of a tick, from the service-path fast phasor of every channel, in both behaviours (R116). -/
def chanTrigger (x : TickOf) (o : Nat × ChainOut) (m : Mach) : Mach :=
  match getGroup m x.gi with
  | none => m
  | some g =>
    let p := fastPath true (getChan m o.1).hist g.ft x.d.rate x.theta
    if lt32 0 g.est.freezeLevel && validity o.2.q != 1 && magAbove (sqMag p.re p.im) g.est.freezeLevel then
      trigger x.chans g.est.groupFreeze o.1 m
    else m

/-- Φ_fine of a channel at the newest tick (R121). -/
def fineNow (x : TickOf) (g : Group) (c : Chan) : Phasor :=
  finePath (inService g) c.hist g.ft (if g.est.twoCycle then 2 else 1) x.d.rate x.theta

/-- The record of one channel at a tick. The value of a settle block is kept in dual mode too (R126). -/
def chanRecord (x : TickOf) (pos : Nat) (o : Nat × ChainOut) (m : Mach) : Mach :=
  match getGroup m x.gi with
  | none => m
  | some g =>
    let service := inService g
    let c := getChan m o.1
    let f0 := int32 g.est.nomf
    let blk := if x.blockEnd then some (finePath service c.hist f0 1 x.d.rate x.theta) else c.blk
    let fast := if g.est.settle then blk.getD phasorInc else fastPath service c.hist g.ft x.d.rate x.theta
    let fine := if g.est.settle then blk.getD phasorInc
      else fineNow x g c
    let ovf := fast.ovf || fine.ovf
    let q := if ovf then setValidity (o.2.q ||| qOverflow) 1 else o.2.q
    let q := if g.recovery then worsen (q ||| qRecovery) 3 else q
    let q := if c.frozen && service then q ||| qFrozen else q
    let m := if ovf then raise 0x0508 0 (fields [(1, x.gi), (1, 0), (2, o.1), (4, 0)]) (estCount x.gi 5 m) else m
    let before := thrOn c
    let invalid := validity o.2.q == 1
    let m := onChan o.1 (fun c => { c with blk := blk, seen := some (o.2.y, fast, fine, invalid) }) m
    let m := forEach (List.range 4) (compStep x.gi o.1 pos q (tickStart x.d.grid x.d.tick) o.2.y c.d fast fine invalid) m
    let after := thrOn (getChan m o.1)
    let flags := recFlags g x.track fast fine + 16 * (before ^^^ after) + after
    onChan o.1 (fun c => putRecord o.2.y q fast fine c.d flags x.d.tick c) m

/-- Frequency tracking lost (R125). -/
def loseTracking (g : Nat) (m : Mach) : Mach :=
  raise 0x0506 0 (fields [(1, g), (7, 0)])
    (onGroup g (fun x => { x with lost := true, ft := int32 x.est.nomf }) (estCount g 4 m))

/-- A number held between two limits. -/
def clamp32 (lo hi v : F32) : F32 := if lt32 v lo then lo else if lt32 hi v then hi else v

/-- f_m from the turn of the phasor over `dn` ticks, rounded once. -/
def measured (f0 rate dn : Nat) (turn : Int) : F32 := rat32 ((f0 : Int) * (2 * fxPi * dn) + turn * rate) (2 * fxPi * dn)

/-- A fine phasor is complete and large enough to track (R124 step 2). -/
def trackable (least : F32) (p : Phasor) : Bool :=
  !p.inc && !p.ovf && (fdy fmt32 least.toNat).any fun l => magCmp (sqMag p.re p.im) l != .lt

/-- The condition of R124 step 2 fails at a boundary tick (R125). -/
def trackFailed (x : TickOf) (g : Group) (m : Mach) : Mach :=
  let since := g.failing.getD x.d.t
  let m := onGroup x.gi (fun g => { g with failing := some since }) m
  if !g.lost && decide (since + nsPerSec ≤ x.d.t) then loseTracking x.gi m else m

/-- Frequency tracking at a boundary tick `n` ticks after the last, with the reference channel's phasors at both (R124, R125). -/
def trackStep (x : TickOf) (g : Group) (n : Nat) (here before : Option Phasor) (m : Mach) : Mach :=
  match here.filter (trackable g.est.trackMin), before.filter (trackable g.est.trackMin) with
  | some p, some p' =>
    let fm := measured g.est.nomf x.d.rate (max 1 n) (fxTurn p.re p.im p'.re p'.im)
    let ft := clamp32 (int32 (9 * g.est.nomf / 10)) (int32 (11 * g.est.nomf / 10)) (fma32 0x3E800000 (sub32 fm g.ft) g.ft)
    let m := onGroup x.gi (fun g => { g with ft := ft, failing := none, lost := false }) m
    if g.lost then raise 0x0507 0 (fields [(1, x.gi), (7, 0)]) m else m
  | some _, none => trackFailed x g m
  | none, _ => trackFailed x g m

/-- A cycle boundary tick: f_t is updated where the group tracks, and the fine phasor of every channel kept for the next (R124). -/
def boundaryStep (x : TickOf) (m : Mach) : Mach :=
  match getGroup m x.gi with
  | none => m
  | some g =>
    let here := x.chans.map fun c => (c, fineNow x g (getChan m c))
    let m := if x.track then
        trackStep x g (g.prev.getD 0) (g.est.refChan.bind (tget here)) (g.prev.bind fun _ => g.est.refChan.bind fun c => (getChan m c).bound) m
      else onGroup x.gi (fun g => { g with failing := none }) m
    let m := forEach here (fun p => onChan p.1 fun c => { c with bound := some p.2 }) m
    onGroup x.gi (fun g => { g with prev := some 0 }) m

-- Recovery (R112, R113)

/-- A group enters recovery, or starts its count again. -/
def enterRecovery (g : Nat) (m : Mach) : Mach :=
  let was := (getGroup m g).any (·.recovery)
  let m := onGroup g (fun x => { x with recovery := true, good := 0 }) m
  if was then m else raise 0x0502 0 (fields [(1, g), (7, 0)]) (estCount g 0 m)

/-- A group leaves recovery. -/
def leaveRecovery (g : Nat) (m : Mach) : Mach :=
  raise 0x0503 0 (fields [(1, g), (7, 0)]) (onGroup g (fun x => { x with recovery := false }) m)

/-- The group's outputs have been good for Rt ticks while it is in recovery. -/
def recoveryOver (g : Group) (rate : Nat) : Bool := g.recovery && recoveryTicks g.est rate ≤ g.good

/-- Tracking as R125 sets it at enabling and at a grid restart: f_t is f0; tracking that is lost stays so until an update succeeds. -/
def resetTracking (g : Group) : Group := { g with ft := int32 g.est.nomf, failing := none, prev := none }

/-- Every comparator of a group's channels off, without a transition (R128). -/
def compsOff (chans : List Nat) : Mach → Mach :=
  forEach chans fun c => onChan c fun x => { x with comps := List.replicate 4 (false, 0) }

/-- The group at its first tick after it was enabled (R29, R112, R125, R128); only a grid restart clears the histories (R112),
where each tick without the group counts as invalid (DEDUCED, log entry 31). -/
def startGroup (gi : Nat) (since : Ns) (m : Mach) : Mach :=
  let cs := groupChans m gi
  let m := onGroup gi (fun g => resetTracking { g with started := some since, recovery := false }) m
  enterRecovery gi (forEach cs (fun c => onChan c fun x => { x with blk := none, seen := none }) (compsOff cs m))

-- Settings and commands that wait for their tick

/-- Settings put in force; comparators whose bytes differ are off (R128), and a new nominal frequency starts f_t afresh
(log entry 22). -/
def putSettings (gi : Nat) (e : EstCfg) (m : Mach) : Mach :=
  match getGroup m gi with
  | none => m
  | some g =>
    let changed := (List.range 4).filter fun k => g.est.comps[k]? != e.comps[k]?
    let m := onGroup gi (fun g => if g.est.nomf = e.nomf then { g with est := e } else resetTracking { g with est := e }) m
    forEach (groupChans m gi) (fun c => onChan c fun x =>
      { x with comps := changed.foldl (fun l k => lmod l k fun _ => (false, 0)) x.comps }) m

/-- One freeze or release in force (R118). -/
def putFreeze (gi rate : Nat) (chan : Option Nat) (release : Bool) (ms : Nat) (m : Mach) : Mach :=
  match getGroup m gi with
  | none => m
  | some g =>
    let hc := if ms = 0 then holdTicks g.est rate else msTicks ms rate
    let cs := match chan with
      | some c => [c]
      | none => groupChans m gi
    forEach cs (fun c => onChan c fun x =>
      if release then { x with cmdLeft := 0, trigAgo := none } else { x with cmdLeft := max x.cmdLeft hc }) m

/-- What waits for a tick up to the one that starts at `t` is put in force. -/
def estDueNow (gi rate : Nat) (t : Ns) (m : Mach) : Mach :=
  match getGroup m gi with
  | none => m
  | some g =>
    let m := forEach (g.estDue.filter fun e => e.1 ≤ t) (fun e => putSettings gi e.2) m
    let m := forEach (g.cmds.filter fun e => e.1 ≤ t) (fun e => putFreeze gi rate e.2.1 e.2.2.1 e.2.2.2) m
    onGroup gi (fun g => { g with estDue := g.estDue.filter fun e => t < e.1, cmds := g.cmds.filter fun e => t < e.1 }) m

/-- A group at a grid restart (R50, R112, R117, R125, R126, R128): histories are cleared, freezes carry over, and a group that goes on at
the first tick, which starts at `t`, enters recovery; one enabled at that tick does so as it starts. -/
def estGridRestart (gi old new : Nat) (t : Ns) (m : Mach) : Mach :=
  match getGroup m gi with
  | none => m
  | some g =>
    let scale (k : Nat) : Nat := cdiv (k * new) (max 1 old)
    let carry (c : Chan) : Chan :=
      let left := (c.trigAgo.map fun a => (holdTicks g.est old : Int) - a).getD 0
      { c with
        hist := [], recs := [], blk := none, seen := none, cmdLeft := scale c.cmdLeft, comps := List.replicate 4 (false, 0)
        trigAgo := if 0 < left then some ((holdTicks g.est new : Int) - scale left.toNat) else none }
    let m := forEach (groupChans m gi) (fun c => onChan c carry) m
    let m := onGroup gi resetTracking m
    if (groupLive g t).isSome && groupLive g t == g.started then enterRecovery gi m else m

/-- A group as it enters a tick: the grid restart before it, and what waits for it. -/
def groupReady (gi : Nat) (d : AsmDue) (m : Mach) : Mach :=
  let m := match m.flt.grid with
    | none => m
    | some g => if g = d.grid then m else estGridRestart gi g.rate d.rate d.t m
  estDueNow gi d.rate d.t m

-- A group at a tick

/-- The chain and the estimate engine for a live group at a tick. -/
def groupTick (gi : Nat) (since : Ns) (d : AsmDue) (m : Mach) : Mach :=
  let m := if (getGroup m gi).any (fun g => g.started == some since) then m else startGroup gi since m
  let m := showBank gi (resolveSwaps gi d.t (onGroup gi (cutAt d.t) m))
  let outs := groupOuts m gi d
  let m := countOuts gi d outs m
  let bad := outs.any fun o => o.2.live && validity o.2.q == 1
  let m := if bad then enterRecovery gi m else onGroup gi (fun g => { g with good := g.good + 1 }) m
  let m := if (getGroup m gi).any (recoveryOver · d.rate) then leaveRecovery gi m else m
  match getGroup m gi with
  | none => m
  | some g =>
    let chans := outs.map (·.1)
    let x : TickOf :=
      { gi := gi, d := d, a := blendOf g.est d.rate, ht := holdTicks g.est d.rate, theta := refIndex g.est.nomf (tickStart d.grid d.tick),
        track := tracks m gi g, blockEnd := cycleBoundary g.est.nomf d.rate ((d.tick + 1) % d.rate), chans := chans }
    let m := onGroup gi (fun g => { g with ftUsed := g.ft }) m
    let m := forEach outs (chanBlock x) m
    let m := forEach outs (chanTrigger x) m
    let m := forEach (outs.zip (List.range outs.length)) (fun o => chanRecord x o.2 o.1) m
    let m := onGroup gi (fun g => { g with prev := g.prev.map (· + 1) }) m
    let m := if cycleBoundary g.est.nomf d.rate (d.tick % d.rate) then boundaryStep x m else m
    advanceSwap gi m

/-- A group that does not count at a tick: its records are invalid (R28), and it is in no recovery, since enabling enters it (R112); time
passes for its freezes and for look-ahead limiting. -/
def groupIdle (gi : Nat) (d : AsmDue) (m : Mach) : Mach :=
  let m := limitingOver gi d (showBank gi (onGroup gi (fun g => { cutAt d.t g with recovery := false }) m))
  match getGroup m gi with
  | none => m
  | some g =>
    forEach (groupChans m gi) (fun c => onChan c fun x =>
      let x := putRecord 0 qAbsent phasorInc phasorInc x.d (recFlags g false phasorInc phasorInc) d.tick x
      { x with hist := (none :: x.hist).take histLen, trigAgo := x.trigAgo.map (· + 1), cmdLeft := x.cmdLeft - 1 }) m

/-- Every group at D(n), in order of their numbers (R133). -/
def groupsTick (d : AsmDue) (m : Mach) : Mach :=
  let m := forEach m.flt.groups (fun e m =>
    let m := groupReady e.1 d m
    match (getGroup m e.1).bind (groupLive · d.t) with
    | some since => groupTick e.1 since d m
    | none => groupIdle e.1 d m) m
  onFlt (fun x => { x with grid := some d.grid }) m

/-- The record of a channel as assembled: one that belongs to no group's stream is invalid. -/
def recordOf (m : Mach) (ch : Nat) (n : Tick) : Bytes :=
  if (subOfChan m ch).isSome then
    (match tget m.flt.chans ch with
      | some c => if c.record = [] then recBytes 0 qAbsent phasorInc phasorInc 0 0x300 n else c.record
      | none => recBytes 0 qAbsent phasorInc phasorInc 0 0x300 n)
  else recBytes 0 qAbsent phasorInc phasorInc 0 0x300 n

-- The steps of the table that stand for what a tick brings

/-- RECOVERY_EXIT: a group whose count is complete leaves recovery; the count is of ticks of the grid last assembled (R113). -/
def execRecoveryExit (group : Fin 256) (s : State) : Host.Outcome State Fault Refusal :=
  runOn s fun m =>
    let over_ := m.flt.grid.any fun r => (getGroup m group).any (recoveryOver · r.rate)
    when (fabricRuns m && over_) (leaveRecovery group) m

/-- A channel is frozen at the tick that is assembled next: one that has begun, with what its assembly puts in force, or one to come, for
which a command may still be due (R117). -/
def freezeAhead (g ch : Nat) (m : Mach) : Bool :=
  let hold (m : Mach) (rate : Nat) : Bool := freezeDue (holdTicks ((getGroup m g).getD groupInit).est rate) (getChan m ch)
  match m.time.asm with
  | d :: _ => hold (groupReady g d m) d.rate
  | [] => !gridAssembled m || hold m m.time.grid.rate ||
      m.mbx.scheduled.any fun c => c.apply ≤ m.time.tick + 1 && (c.code == 0x0501 || c.code == 0x0502)

/-- FREEZE_END: a freeze that no trigger and no command extends to the coming tick ends (R117). -/
def execFreezeEnd (chan : Fin 12288) (s : State) : Host.Outcome State Fault Refusal :=
  runOn s fun m =>
    let g := (chanEntry m chan).group
    when (fabricRuns m && (getChan m chan).frozen && !freezeAhead g chan m) (endFreeze g chan) m

/-- TRACKING_LOST: tracking has failed at every boundary for 1 s (R125). -/
def execTrackingLost (group : Fin 256) (s : State) : Host.Outcome State Fault Refusal :=
  runOn s fun m =>
    when (clockRuns m && (getGroup m group).any fun g =>
      g.enabled && g.est.track && !g.lost && g.failing.any fun t => decide (t + nsPerSec ≤ now m)) (loseTracking group) m

/-- COMPARATOR_TRANSITION: a comparator whose condition has held long enough at the ticks assembled turns on, or turns off
past its hysteresis (R128). -/
def execComparatorTransition (chan : Fin 12288) (k : Fin 4) (s : State) : Host.Outcome State Fault Refusal :=
  runOn s fun m =>
    let gi := (chanEntry m chan).group
    let c := getChan m chan
    match (getGroup m gi).bind fun g => g.est.comps[k.val]?, c.seen with
    | some cfg, some (y, fast, fine, invalid) =>
      let st := c.comps.getD k.val (false, 0)
      let src := sourceOf cfg y c.d fast fine invalid
      let on := compNext cfg st.1 st.2 src
      let t := (m.flt.grid.bind fun g => c.recs.head?.map fun r => tickStart g r.1).getD (tickAt m m.time.tick)
      when (fabricRuns m && cfg.source != 0 && on != st.1)
        (transition gi chan ((chansUp m gi).idxOf chan.val) k on (src.getD (0, 0)) (.ofNat 32 (rd 4 c.record 4)) t) m
    | some _, none => m
    | none, _ => m

-- EST_GROUP_SET

/-- The comparator of R127 at an offset. -/
def compAt (p : Bytes) (o : Nat) : Comp :=
  { source := rd 1 p o, dir := rd 1 p (o + 1), level := .ofNat 32 (rd 4 p (o + 4)), hyst := .ofNat 32 (rd 4 p (o + 8)),
    delay := rd 2 p (o + 12) }

/-- A field that is none at its highest value. -/
def optField (none_ v : Nat) : Option Nat := if v = none_ then none else some v

/-- The settings of a request. -/
def estCfgAt (p : Bytes) : EstCfg :=
  let f := rd 1 p 1
  { nomf := rd 1 p 2, commissioning := bit f 0, settle := bit f 1, twoCycle := bit f 2, tauMs := rd 4 p 4,
    freezeLevel := .ofNat 32 (rd 4 p 8), holdMs := rd 2 p 12, groupFreeze := bit f 3, track := bit f 4,
    refChan := optField 0xFFFF (rd 2 p 16), trackMin := .ofNat 32 (rd 4 p 20), rc := rd 1 p 3, ctrl := optField 0 (rd 1 p 14),
    thrBase := optField 0xFFFFFFFF (rd 4 p 24), comps := (List.range 4).map fun k => compAt p (32 + 16 * k) }

/-- The settings of a group as they will stand: the last that wait, or those in force. -/
def estSettings (g : Group) : EstCfg := (g.estDue.getLast?.map (·.2)).getD g.est

/-- A finite number, at least zero. -/
def finNonneg (v : F32) : Bool := fin32 v && !lt32 v 0

/-- Every setting is in its range (R106, R127). -/
def estCfgOk (e : EstCfg) : Bool :=
  (e.nomf == 50 || e.nomf == 60) && 10 ≤ e.tauMs && e.tauMs ≤ 60000 && finNonneg e.freezeLevel && 1 ≤ e.holdMs &&
  e.holdMs ≤ 10000 && fin32 e.trackMin && lt32 0 e.trackMin && 1 ≤ e.rc && e.ctrl.all (· ≤ 64) &&
  e.thrBase.all (· < 8388608) &&
  e.comps.all fun c => c.source ≤ 4 && c.dir ≤ 1 && fin32 c.level && finNonneg c.hyst

/-- M0 is whole (R108). -/
def settleOk (e : EstCfg) (rate : Nat) : Bool := !e.settle || rate % e.nomf == 0

def estGroupSet : Cmd where
  code := 0x0501
  len := fun p => layout 96 [(15, 1), (18, 2), (28, 4)] p && bits (rd 1 p 1) 7 5 == 0 &&
    (List.range 4).all fun k => zeros p (34 + 16 * k) 2 && zeros p (46 + 16 * k) 2
  right := rConfig
  journal := true
  sched := true
  check := fun m _ p =>
    let e := estCfgAt p
    let g := rd 1 p 0
    let cs := groupChans m g
    firstFail [
      (!estCfgOk e, 0x0201),
      (e.refChan.any (fun c => !cs.contains c), 0x0202),
      (!settleOk e m.time.grid.rate, 0x0203)]
  depend := fun m x _ p =>
    let e := estCfgAt p
    let n := 4 * (groupChans m (rd 1 p 0)).length
    if n != 0 && e.thrBase.any fun b => !pointsKept m x b n ||
      x.sig.ranges.any fun r => r.ownerKind != 0 && r.first < b + n && b < r.first + r.count then 0x0205 else 0
  res := fun m _ p =>
    let mine (c : Nat) : Bool := (chanEntry m c).group == rd 1 p 0
    if (estCfgAt p).ctrl.any fun t => m.cpu.slices.any fun s => s.1 != t && (subsOf s.2).any mine then 0x0105 else 0

/-- The answer of EST_GROUP_SET: pole, Ht and Rt (R107). -/
def estReply (p : Bytes) (m : Mach) : Bytes :=
  let e := estCfgAt p
  let r := m.time.grid.rate
  fields [(4, (poleOf e.tauMs r).toNat), (4, holdTicks e r), (4, recoveryTicks e r)]

/-- EST_GROUP_SET at its effective tick: the settings count from that tick's assembly on. -/
def applyEstSet (p : Bytes) (m : Mach) : Mach :=
  onGroup (rd 1 p 0) (fun g => { g with estDue := g.estDue ++ [(tickAt m m.time.tick, estCfgAt p)] }) m

-- EST_FREEZE and EST_RELEASE

/-- EST_FREEZE; Hold is held to the range of HOLD_MS, 0 standing for the group's own (DESIGN CHOICE, log entry 83). -/
def estFreeze : Cmd where
  code := 0x0502
  len := fun p => layout 8 [(6, 2)] p
  right := rConfig
  sched := true
  slice := fun _ _ _ => true
  check := fun m h p =>
    let g := (getGroup m (rd 1 p 2)).getD groupInit
    firstFail [
      (1 < rd 1 p 3 || 10000 < rd 2 p 4, 0x0201),
      (rd 2 p 0 != 0xFFFF && !(groupChans m (rd 1 p 2)).contains (rd 2 p 0), 0x0202),
      (boxTag h.box != 0 && (estSettings g).ctrl != some (boxTag h.box), 0x0204),
      (!g.enabled, 0x0206)]

/-- EST_FREEZE at its effective tick (R118). -/
def applyFreeze (p : Bytes) (m : Mach) : Mach :=
  onGroup (rd 1 p 2) (fun g =>
    { g with cmds := g.cmds ++ [(tickAt m m.time.tick, optField 0xFFFF (rd 2 p 0), rd 1 p 3 == 1, rd 2 p 4)] }) m

-- EST_GROUP_STATUS

def estGroupStatus : Cmd where
  code := 0x0510
  len := fun p => layout 8 [(2, 6)] p && rd 1 p 1 < 2
  apply := false
  slice := fun m t p => sliceInGroup m t (rd 1 p 0)
  roleOk := fun role p => !bit (rd 1 p 1) 0 || hasRight role rConfig

/-- EST_GROUP_STATUS, with the response fields of its table: that table has no place for the quantities of R107 (log entry 71). -/
def execEstGroupStatus (h : Hdr) (p : Bytes) (s : State) : Host.Outcome State Fault Refusal :=
  let gi := rd 1 p 0
  runOn s (runRead estGroupStatus h p
    (fun m =>
      let g := (getGroup m gi).getD groupInit
      let frozen := ((groupChans m gi).filter fun c => (getChan m c).frozen).length
      let left := if g.enabled && g.recovery then recoveryTicks g.est m.time.grid.rate - g.good else 0
      fields [(1, b2n g.enabled + 2 * b2n g.est.commissioning + 4 * b2n (g.enabled && g.recovery) + 8 * b2n g.est.settle +
          16 * b2n (tracks m gi g && !g.lost)), (1, 0), (2, if g.enabled then frozen else 0), (4, g.ft.toNat), (4, left), (4, 0)] ++
        ctrBytes g.estCtrs 6)
    (when (bit (rd 1 p 1) 0) (onGroup gi fun x => { x with estCtrs := ctrClear x.estCtrs 6 })))

end Sys2Proof.Machine
end

