-- ==== Sys2Proof/Machine/Ilubri.lean ====
section
/-! DEFINITION. Ilubri: program images, their static checks, and the execution of a cycle (R317 to R328). -/
namespace Sys2Proof.Machine
open Sys2Proof

-- Instruction fields (R322)

def insOp (w : BitVec 32) : Nat := w.toNat / 2 ^ 24
def insNeg (w : BitVec 32) : Bool := w.getLsbD 23
def insSpace (w : BitVec 32) : Nat := bits w.toNat 22 20
def insIndex (w : BitVec 32) : Nat := w.toNat % 2 ^ 20
def insOffset (w : BitVec 32) : Nat := w.toNat % 2 ^ 23

/-- Steps an instruction costs (R313). -/
def insCost (w : BitVec 32) : Nat := if insOp w = 0x60 then 4 else 1

/-- Number of output image bits: one more than the highest that an output map entry names (log entry 18). -/
def outBits (outs : List OutEnt) : Nat :=
  outs.foldl (fun a e => if e.kind = 2 then a else max a (e.src + (if e.kind = 3 then 2 else 1))) 0

-- Reading an image (R317 to R320)

/-- Section `i` of an image: `n` entries of `w` bytes, if they lie in the image. -/
def sectionAt (c : Bytes) (i n w : Nat) : Option Nat :=
  let o := rd 4 c (64 + 4 * i)
  if o + n * w ≤ c.length then some o else none

def timerEnt (c : Bytes) (o : Nat) : TimerEnt :=
  { id := rd 4 c o, kind := rd 1 c (o + 4), ret := bit (rd 1 c (o + 5)) 0, pt := rd 4 c (o + 8), init := rd 4 c (o + 12) }
def edgeEnt (c : Bytes) (o : Nat) : EdgeEnt := { id := rd 4 c o, init := rd 1 c (o + 4) == 1 }
def countEnt (c : Bytes) (o : Nat) : CountEnt :=
  { id := rd 4 c o, ret := bit (rd 1 c (o + 4)) 0, pv := ofTwos 32 (rd 4 c (o + 8)), init := ofTwos 32 (rd 4 c (o + 12)) }
def instEnt (c : Bytes) (o : Nat) : InstEnt :=
  { id := rd 4 c o, ty := rd 1 c (o + 4), ret := bit (rd 1 c (o + 5)) 0, preset := rd 4 c (o + 8), uses := rd 4 c (o + 12) }
def inEnt (w : Nat) : InEnt := { point := w % 2 ^ 23, bit := bits w 28 23, kind := bits w 30 29 }
def outEnt (c : Bytes) (o : Nat) : OutEnt :=
  { point := rd 4 c o, src := rd 2 c (o + 4), kind := rd 1 c (o + 6), bit := rd 1 c (o + 7) % 64, ret := bit (rd 1 c (o + 7)) 6 }

/-- `n` entries of `w` bytes from an offset. -/
def entries {α : Type} (n w o : Nat) (f : Nat → α) : List α := (List.range n).map fun i => f (o + w * i)

/-- The reserved fields and small ranges of the tables (R318 to R320). -/
def tablesOk (c : Bytes) (nin nout nt ne nc nf oin oout ot oe oc of_ : Nat) : Bool :=
  (entries nin 4 oin (rd 4 c)).all (fun w => w < 2 ^ 31) &&
  (entries nout 8 oout id).all (fun o => rd 4 c o < 2 ^ 23 && rd 1 c (o + 6) < 4 && rd 1 c (o + 7) < 128) &&
  (entries nt 16 ot id).all (fun o => rd 1 c (o + 4) < 3 && rd 1 c (o + 5) < 2 && zeros c (o + 6) 2) &&
  (entries ne 8 oe id).all (fun o => rd 1 c (o + 4) < 2 && zeros c (o + 5) 3) &&
  (entries nc 16 oc id).all (fun o => rd 1 c (o + 4) < 2 && zeros c (o + 5) 3) &&
  (entries nf 16 of_ id).all (fun o => 1 ≤ rd 1 c (o + 4) && rd 1 c (o + 4) ≤ 10 && rd 1 c (o + 5) < 2 && zeros c (o + 6) 2)

/-- A program image as its header and sections lay it out; none where a field, count or offset is wrong (R317, R321). -/
def parseProg (c : Bytes) : Option Prog :=
  let mode := rd 1 c 6
  let n := rd 4 c 16
  let nin := rd 2 c 20
  let nout := rd 2 c 22
  let nm := rd 4 c 24
  let nt := rd 4 c 32
  let ne := rd 4 c 36
  let nc := rd 4 c 40
  let nf := rd 4 c 44
  if c.length < 128 || rd 4 c 0 != 0x49424C49 || rd 2 c 4 != 1 || 1 < mode || !zeros c 52 12 || !zeros c 96 32 || n = 0 ||
      262144 < n || 4096 < nin || 4096 < nout || 65536 < nm || nm < rd 4 c 28 || (mode = 0 && nf != 0) then none
  else
    match sectionAt c 0 n 4, sectionAt c 1 nin 4, sectionAt c 2 nout 8, sectionAt c 3 (cdiv nm 8) 1, sectionAt c 4 nt 16,
      sectionAt c 5 ne 8, sectionAt c 6 nc 16, sectionAt c 7 nf 16 with
    | some o0, some o1, some o2, some o3, some o4, some o5, some o6, some o7 =>
      if tablesOk c nin nout nt ne nc nf o1 o2 o4 o5 o6 o7 then
        some
          { mode := mode, id := .ofNat 64 (rd 8 c 8), code := entries n 4 o0 (fun o => .ofNat 32 (rd 4 c o)),
            ins := entries nin 4 o1 (fun o => inEnt (rd 4 c o)), outs := entries nout 8 o2 (outEnt c), nrmark := rd 4 c 28,
            marks := (List.range nm).map (fun i => bit (rd 1 c (o3 + i / 8)) (i % 8)), timers := entries nt 16 o4 (timerEnt c),
            edges := entries ne 8 o5 (edgeEnt c), counts := entries nc 16 o6 (countEnt c), insts := entries nf 16 o7 (instEnt c) }
      else none
    | _, _, _, _, _, _, _, _ => none

-- Static checks (R321, R324)

/-- Member `k` of a block type is an input (R328). -/
def memberIn (ty k : Nat) : Bool :=
  if ty ≤ 3 then k == 0
  else if ty ≤ 5 then k < 2
  else if ty = 6 then k < 4
  else if ty ≤ 8 then k < 2
  else k == 0

/-- An operand can be read, or written. -/
def readOk (g : Prog) (w : BitVec 32) : Bool :=
  let i := insIndex w
  let s := insSpace w
  if s = 0 then i < g.ins.length
  else if s = 1 then i < outBits g.outs
  else if s = 2 then i < g.marks.length
  else if s = 3 then i < 6
  else s == 7 && g.mode == 1 && i / 16 < g.insts.length
def writeOk (g : Prog) (w : BitVec 32) : Bool :=
  let i := insIndex w
  let s := insSpace w
  if s = 1 then i < outBits g.outs
  else if s = 2 then i < g.marks.length
  else s == 7 && g.mode == 1 && (g.insts[i / 16]?).any fun e => memberIn e.ty (i % 16)

/-- The opcode exists and its operand lies in a space it permits and within the image's counts (R323, R324). -/
def insOk (g : Prog) (w : BitVec 32) : Bool :=
  let op := insOp w
  if op = 0x00 ∨ op = 0x11 ∨ op = 0x12 ∨ op = 0x13 ∨ op = 0x14 ∨ op = 0x15 ∨ op = 0xFF then true
  else if op = 0x08 then !insNeg w
  else if op = 0x01 ∨ op = 0x02 ∨ op = 0x03 ∨ op = 0x04 ∨ op = 0x10 then readOk g w
  else if op = 0x05 ∨ op = 0x06 ∨ op = 0x07 then writeOk g w
  else if op = 0x20 ∨ op = 0x21 then insSpace w == 5 && insIndex w < g.edges.length
  else if op = 0x30 ∨ op = 0x31 then insSpace w == 4 && insIndex w < g.timers.length
  else if 0x40 ≤ op ∧ op ≤ 0x43 then insSpace w == 6 && insIndex w < g.counts.length
  else if op = 0x50 ∨ op = 0x51 then 1 ≤ insOffset w
  else if op = 0x60 then insSpace w == 7 && g.mode == 1 && insIndex w / 16 < g.insts.length
  else false

/-- Every jump of a piece of code lands within it, whether it is reached or not (R324). -/
def jumpsLand : List (BitVec 32) → Bool
  | [] => true
  | w :: rest => ((insOp w != 0x50 && insOp w != 0x51) || decide (insOffset w < rest.length)) && jumpsLand rest

/-- What an instruction does to the depth of the branch stack: pops, then pushes. -/
def stackUse (w : BitVec 32) : Nat × Nat :=
  let op := insOp w
  if op = 0x10 ∨ op = 0x14 then (0, 1) else if op = 0x11 ∨ op = 0x12 ∨ op = 0x13 ∨ op = 0x15 then (1, 0) else (0, 0)

/-- The stack depth and the greatest number of steps used before an instruction, for the paths that reach it. -/
structure Reach where
  depth : Nat
  cost : Nat
  deriving DecidableEq, Repr

/-- Two ways to reach one instruction: their depths agree, and the dearer cost stands; none where they disagree. -/
def joinReach : Option Reach → Option Reach → Option (Option Reach)
  | none, b => some b
  | a, none => some a
  | some a, some b => if a.depth = b.depth then some (some { a with cost := max a.cost b.cost }) else none

/-- One forward pass over the code: jumps go forward and land in it, depths agree and stay in 0 to 32, END is last and only
there; the worst-case steps W where all of this holds (R314, R324). -/
def scanCode : List (BitVec 32) → Nat → Option Reach → Tab Reach → Option Nat
  | [], _, _, _ => none
  | w :: rest, i, fall, jumps =>
    match joinReach fall (tget jumps i) with
    | none => none
    | some none => if insOp w = 0xFF then none else scanCode rest (i + 1) none jumps
    | some (some r) =>
      let u := stackUse w
      let r' : Reach := { depth := r.depth - u.1 + u.2, cost := r.cost + insCost w }
      if r.depth < u.1 || 32 < r'.depth then none
      else if insOp w = 0xFF then (if rest = [] then some r'.cost else none)
      else if insOp w = 0x50 ∨ insOp w = 0x51 then
        let t := i + 1 + insOffset w
        if rest.length < insOffset w + 1 then none
        else match joinReach (some r') (tget jumps t) with
          | some (some j) => scanCode rest (i + 1) (if insOp w = 0x51 then none else some r') (tset jumps t j)
          | some none => none
          | none => none
      else scanCode rest (i + 1) (some r') jumps

/-- W, the worst-case steps of a program that passes its checks. -/
def worstSteps (g : Prog) : Nat := (scanCode g.code 0 (some { depth := 0, cost := 0 }) []).getD 0

/-- The entries of a kind that instructions of some opcodes use, and the instances that use an entry of that kind. -/
def usesOf (g : Prog) (ops : List Nat) (tys : List Nat) : List Nat :=
  (g.code.filter fun w => ops.contains (insOp w)).map insIndex ++ (g.insts.filter fun e => tys.contains e.ty).map (·.uses)

def distinct (l : List Nat) : Bool := l.eraseDups.length == l.length

/-- An instance refers to an entry of the right kind; SR and RS to none (R318, R328). -/
def instOk (g : Prog) (e : InstEnt) : Bool :=
  if e.ty ≤ 3 then (g.timers[e.uses]?).any fun t => t.kind + 1 == e.ty
  else if e.ty ≤ 6 then e.uses < g.counts.length
  else if e.ty ≤ 8 then e.uses == 0xFFFFFFFF
  else e.uses < g.edges.length

/-- The image passes every check of R321 and R324 that needs nothing but the image. -/
def progOk (g : Prog) : Bool :=
  g.code.all (insOk g) && jumpsLand g.code && (scanCode g.code 0 (some { depth := 0, cost := 0 }) []).isSome &&
  (g.code.filter fun w => insOp w == 0xFF).length == 1 &&
  distinct (usesOf g [0x30] [1, 2, 3]) && distinct (usesOf g [0x20, 0x21] [9, 10]) && distinct (usesOf g [0x40, 0x41] [4, 5, 6]) &&
  g.insts.all (instOk g) &&
  distinct (g.timers.map (·.id) ++ g.edges.map (·.id) ++ g.counts.map (·.id) ++ g.insts.map (·.id)) &&
  g.outs.all (fun o => if o.kind = 2 then o.src < g.counts.length else true)

-- Execution of a cycle (R323 to R328)

/-- What a cycle computes on: the accumulator and the branch stack beside the program's state. -/
structure Exec where
  a : Bool
  s : List Bool
  st : ProgSt
  deriving DecidableEq, Repr

/-- The initial state of an element table. -/
def timerInit (e : TimerEnt) : TimerSt := { el := e.init * 1000000, prev := false, running := false, last := none }
def countInit (e : CountEnt) : CountSt := { cv := e.init, prev := false }
def instInit : InstSt := { mem := 0, up := false, down := false }
def progInit (g : Prog) : ProgSt :=
  { q := List.replicate (outBits g.outs) false, marks := g.marks, timers := g.timers.map timerInit,
    edges := g.edges.map (·.init), counts := g.counts.map countInit, insts := g.insts.map fun _ => instInit }

/-- A timer executed in the cycle whose boundary lies at the clock value `tb` (R325): its state and Q. -/
def runTimer (kind pt : Nat) (tb : Ns) (x : Bool) (t : TimerSt) : TimerSt × Bool :=
  let delta := match t.last with
    | none => 0
    | some l => tb - l
  let sat (n : Nat) : Nat := min n (2 ^ 62)
  let lim := pt * 1000000
  if kind = 0 then
    let el := if x && t.prev then sat (t.el + delta) else 0
    ({ el := el, prev := x, running := t.running, last := some tb }, x && decide (lim ≤ el))
  else if kind = 1 then
    let el := if x then 0 else if t.prev then 0 else sat (t.el + delta)
    ({ el := el, prev := x, running := t.running, last := some tb }, x || decide (el < lim))
  else
    let start := !t.running && x && !t.prev
    let el := if t.running then sat (t.el + delta) else if start then 0 else t.el
    let run := (t.running || start) && decide (el < lim)
    ({ el := el, prev := x, running := run, last := some tb }, run)

/-- A counter moved up or down, stopping at the ends of 32 bits (R323). -/
def countUp (v : Int) : Int := if v = 2 ^ 31 - 1 then v else v + 1
def countDown (v : Int) : Int := if v = -(2 ^ 31) then v else v - 1

/-- A bit of an instance's members written. -/
def setBit16 (v : BitVec 16) (i : Nat) (b : Bool) : BitVec 16 :=
  if b then v ||| .ofNat 16 (2 ^ i) else v &&& ~~~ (BitVec.ofNat 16 (2 ^ i))

def timerOf (st : ProgSt) (i : Nat) : TimerSt := st.timers.getD i { el := 0, prev := false, running := false, last := none }
def countOf (st : ProgSt) (i : Nat) : CountSt := st.counts.getD i { cv := 0, prev := false }

/-- CAL of an instance: its block of IEC 61131-3 evaluated on its members (R327, R328). -/
def runInst (g : Prog) (tb : Ns) (k : Nat) (st : ProgSt) : ProgSt :=
  match g.insts[k]?, st.insts[k]? with
  | some e, some x =>
    let inp (i : Nat) : Bool := x.mem.getLsbD i
    let put (f : InstSt → InstSt) (st : ProgSt) : ProgSt := { st with insts := lmod st.insts k f }
    if e.ty ≤ 3 then
      let r := runTimer (e.ty - 1) e.preset tb (inp 0) (timerOf st e.uses)
      put (fun x => { x with mem := setBit16 x.mem 1 r.2 }) { st with timers := lmod st.timers e.uses fun _ => r.1 }
    else if e.ty = 7 then
      let q := inp 0 || (inp 2 && !inp 1)
      put (fun x => { x with mem := setBit16 x.mem 2 q }) st
    else if e.ty = 8 then
      let q := !inp 1 && (inp 0 || inp 2)
      put (fun x => { x with mem := setBit16 x.mem 2 q }) st
    else if 9 ≤ e.ty then
      let old := st.edges.getD e.uses false
      let q := if e.ty = 9 then inp 0 && !old else !inp 0 && old
      put (fun x => { x with mem := setBit16 x.mem 1 q }) { st with edges := lmod st.edges e.uses fun _ => inp 0 }
    else
      let pv := ofTwos 32 e.preset
      let cv := (countOf st e.uses).cv
      let upIn := e.ty != 5 && inp 0
      let downIn := if e.ty = 5 then inp 0 else e.ty == 6 && inp 1
      let up := upIn && !x.up
      let down := downIn && !x.down
      let reset := if e.ty = 4 then inp 1 else e.ty == 6 && inp 2
      let load := if e.ty = 5 then inp 1 else e.ty == 6 && inp 3
      let v := if reset then 0 else if load then pv else cv
      let v := if up && !down then countUp v else if down && !up then countDown v else v
      let q0 := decide (pv ≤ v)
      let q1 := decide (v ≤ 0)
      let mem := if e.ty = 4 then setBit16 x.mem 2 q0 else if e.ty = 5 then setBit16 x.mem 2 q1
        else setBit16 (setBit16 x.mem 4 q0) 5 q1
      put (fun _ => { mem := mem, up := upIn, down := downIn })
        { st with counts := lmod st.counts e.uses fun c => { c with cv := v } }
  | _, _ => st

/-- An operand's value (R322): inputs and K bits come from the cycle. -/
def operand (ins ks : List Bool) (w : BitVec 32) (st : ProgSt) : Bool :=
  let i := insIndex w
  let v := match insSpace w with
    | 0 => ins.getD i false
    | 1 => st.q.getD i false
    | 2 => st.marks.getD i false
    | 3 => ks.getD i false
    | 7 => ((st.insts[i / 16]?).map fun x => x.mem.getLsbD (i % 16)).getD false
    | _ => false
  v != insNeg w

/-- A writable operand takes a value. -/
def store (w : BitVec 32) (v : Bool) (st : ProgSt) : ProgSt :=
  let i := insIndex w
  match insSpace w with
  | 1 => { st with q := lmod st.q i fun _ => v }
  | 2 => { st with marks := lmod st.marks i fun _ => v }
  | 7 => { st with insts := lmod st.insts (i / 16) fun x => { x with mem := setBit16 x.mem (i % 16) v } }
  | _ => st

/-- TRS of a timer: elapsed, Q and running are 0, Q also where an instance uses the timer (R323, R328). -/
def resetTimer (g : Prog) (i : Nat) (st : ProgSt) : ProgSt :=
  { st with
    timers := lmod st.timers i fun t => { t with el := 0, running := false }
    insts := (g.insts.zip st.insts).map fun e => if e.1.ty ≤ 3 ∧ e.1.uses = i then { e.2 with mem := setBit16 e.2.mem 1 false } else e.2 }

/-- PV of a counter: that of an instance that uses it overrides its own (R328). -/
def presetOf (g : Prog) (i : Nat) : Int :=
  match g.insts.find? fun e => 4 ≤ e.ty && e.ty ≤ 6 && e.uses == i with
  | some e => ofTwos 32 e.preset
  | none => ((g.counts[i]?).map (·.pv)).getD 0

/-- One instruction that is not a jump or END (R323). -/
def runIns (g : Prog) (ins ks : List Bool) (tb : Ns) (w : BitVec 32) (x : Exec) : Exec :=
  let n := insNeg w
  let i := insIndex w
  let v := operand ins ks w x.st
  let pop := x.s.headD false
  match insOp w with
  | 0x01 => { x with a := v }
  | 0x02 => { x with a := x.a && v }
  | 0x03 => { x with a := x.a || v }
  | 0x04 => { x with a := x.a != v }
  | 0x05 => { x with st := store w (x.a != n) x.st }
  | 0x06 => if x.a != n then { x with st := store w true x.st } else x
  | 0x07 => if x.a != n then { x with st := store w false x.st } else x
  | 0x08 => { x with a := !x.a }
  | 0x10 => { x with a := v, s := x.a :: x.s }
  | 0x11 => { x with a := pop && (x.a != n), s := x.s.drop 1 }
  | 0x12 => { x with a := pop || (x.a != n), s := x.s.drop 1 }
  | 0x13 => { x with a := pop != (x.a != n), s := x.s.drop 1 }
  | 0x14 => { x with s := x.a :: x.s }
  | 0x15 => { x with a := pop != n, s := x.s.drop 1 }
  | 0x20 =>
    let out := x.a && !(x.st.edges.getD i false)
    { x with a := out != n, st := { x.st with edges := lmod x.st.edges i fun _ => x.a } }
  | 0x21 =>
    let out := !x.a && x.st.edges.getD i false
    { x with a := out != n, st := { x.st with edges := lmod x.st.edges i fun _ => x.a } }
  | 0x30 =>
    (match g.timers[i]? with
      | none => x
      | some e =>
        let r := runTimer e.kind e.pt tb x.a (timerOf x.st i)
        { x with a := r.2 != n, st := { x.st with timers := lmod x.st.timers i fun _ => r.1 } })
  | 0x31 =>
    if x.a then { x with st := resetTimer g i x.st } else x
  | 0x40 =>
    let c := countOf x.st i
    let cv := if x.a && !c.prev then countUp c.cv else c.cv
    let pv := ((g.counts[i]?).map (·.pv)).getD 0
    { x with a := decide (pv ≤ cv) != n, st := { x.st with counts := lmod x.st.counts i fun _ => { cv := cv, prev := x.a } } }
  | 0x41 =>
    let c := countOf x.st i
    let cv := if x.a && !c.prev then countDown c.cv else c.cv
    { x with a := decide (cv ≤ 0) != n, st := { x.st with counts := lmod x.st.counts i fun _ => { cv := cv, prev := x.a } } }
  | 0x42 => if x.a then { x with st := { x.st with counts := lmod x.st.counts i fun c => { c with cv := 0 } } } else x
  | 0x43 =>
    let pv := presetOf g i
    if x.a then { x with st := { x.st with counts := lmod x.st.counts i fun c => { c with cv := pv } } } else x
  | 0x60 => { x with st := runInst g tb (i / 16) x.st }
  | _ => x

/-- The instructions of a cycle up to END: what they leave, and the steps they took. A jump skips forward (R323). -/
def runCode (g : Prog) (ins ks : List Bool) (tb : Ns) : Nat → List (BitVec 32) → Exec → Nat → Exec × Nat
  | 0, _, x, steps => (x, steps)
  | _ + 1, [], x, steps => (x, steps)
  | fuel + 1, w :: rest, x, steps =>
    let steps' := steps + insCost w
    if insOp w = 0xFF then (x, steps')
    else if insOp w = 0x51 ∨ (insOp w = 0x50 ∧ (x.a != insNeg w) = true) then
      runCode g ins ks tb fuel (rest.drop (insOffset w)) x steps'
    else runCode g ins ks tb fuel rest (runIns g ins ks tb w x) steps'

/-- A whole cycle: A and S start clear (R323). -/
def runCycle (g : Prog) (ins ks : List Bool) (tb : Ns) (st : ProgSt) : ProgSt × Nat :=
  let r := runCode g ins ks tb g.code.length g.code { a := false, s := [], st := st } 0
  (r.1.st, r.2)

end Sys2Proof.Machine
end

