-- ==== Sys2Proof/Machine/Lge.lean ====
section
/-! DEFINITION. The logic engine: programs, cycles, forces, exchanges and its commands (chapter 12). -/
namespace Sys2Proof.Machine
open Sys2Proof

/-- A program rewritten. -/
def onProg (i : Nat) (f : Program → Program) (m : Mach) : Mach :=
  match tget m.lge.progs i with
  | none => m
  | some g => onLge (fun l => { l with progs := tset l.progs i (f g) }) m

/-- Counter `i` of LGE_STATUS advanced. -/
def progCount (p i : Nat) : Mach → Mach := onProg p fun g => { g with ctrs := bump g.ctrs i }

/-- K_r: steps per tick of a processor (R313). -/
def lpCapacity (rate : Nat) : Nat :=
  if rate = 4000 then 240000 else if rate = 4800 then 200000 else if rate = 9600 then 96000 else 62000

/-- q of a program at the tick rate in force (R313). -/
def quota (m : Mach) (units : Nat) : Nat := units * lpCapacity m.time.grid.rate / 256

/-- q of a program in the execution period of the tick last assembled, at the rate of its grid. -/
def periodQuota (m : Mach) (units : Nat) : Nat := units * lpCapacity ((m.flt.grid.map (·.rate)).getD m.time.grid.rate) / 256

/-- ceil(W / q) exceeds C (R314). -/
def mayOverrun (m : Mach) (g : Prog) (units c : Nat) : Bool := c < cdiv (worstSteps g) (max 1 (quota m units))

/-- An event of a program: its number and the owning slice's tag (R342). -/
def progEvent (code i : Nat) (rest : Bytes) (m : Mach) : Mach :=
  let tag := ((tget m.lge.progs i).map (·.owner)).getD 0
  raise code tag (fields [(1, i), (1, tag), (2, 0)] ++ rest) m

-- Forces (R334 to R336)

/-- A force names a target. -/
def forceIs (prog : Nat) (output : Bool) (point bit kind : Nat) (f : Force) : Bool :=
  f.prog == prog && f.output == output && f.point == point && f.bit == bit && (output || f.kind == kind)

/-- The forced value of a target, if it is forced. -/
def forced (m : Mach) (prog : Nat) (output : Bool) (point bit kind : Nat) : Option Bool :=
  (m.lge.forces.find? fun e => forceIs prog output point bit kind e.2).map (·.2.value)

/-- The program has an input force. -/
def inputForced (m : Mach) (i : Nat) : Bool := m.lge.forces.any fun e => e.2.prog == i && !e.2.output

/-- A target is an entry of a program's image, and not an output of KIND 2 (R334). -/
def targetIn (g : Prog) (output : Bool) (point bit kind : Nat) : Bool :=
  if output then g.outs.any fun o => o.point == point &&
    (if o.kind = 0 then bit == 0 else if o.kind = 1 then o.bit == bit else o.kind == 3 && bit < 2)
  else g.ins.any fun e => e.point == point && e.bit == bit && e.kind == kind

/-- The target of a force as LGE_FORCE spells it. -/
def forceWord (f : Force) : Nat := f.point + f.bit * 2 ^ 23 + f.kind * 2 ^ 29

/-- The forces of a program leave the table with their events (R331, R342). -/
def clearForces (i : Nat) (m : Mach) : Mach :=
  let gone := m.lge.forces.filter fun e => e.2.prog == i
  let m := onLge (fun l => { l with forces := l.forces.filter fun e => e.2.prog != i }) m
  forEach gone (fun e => progEvent 0x0C04 i (fields [(2, e.1), (1, b2n e.2.output), (1, b2n e.2.value), (4, forceWord e.2)])) m

-- The input image (R315, R319)

/-- A program reads with the rights of the slice that owns it: its slice's points, its own, and what the slice was granted (R214,
R316). -/
def progMayRead (m : Mach) (i owner pt : Nat) : Bool :=
  (rangeOf m.sig pt).any fun r => (r.ownerKind == 2 && r.owner == i) || mayRead r owner pt (readsOf m owner)

/-- An input of a program whose right has been revoked since its image was taken: the read is refused, and what the bit then is the
spec does not say (a free value; log entry 74). -/
def inputRefused (m : Mach) (i owner : Nat) (e : InEnt) : Bool :=
  (forced m i false e.point e.bit e.kind).isNone && !progMayRead m i owner e.point

/-- An input bit as read now. -/
def inputBit (m : Mach) (i owner : Nat) (e : InEnt) : Bool :=
  match forced m i false e.point e.bit e.kind with
  | some v => v
  | none =>
    if !progMayRead m i owner e.point then Config.freeNat (m.free + e.point + 2 ^ 23 * e.bit + 2 ^ 29 * e.kind) % 2 == 1
    else match pointAt m.sig e.point with
    | none => false
    | some p =>
      if e.kind = 0 then p.v.value.getLsbD e.bit
      else if e.kind = 1 then validity p.v.quality == 0
      else if e.kind = 2 then p.v.quality &&& qTest != 0
      else p.v.quality &&& qForced != 0

/-- The K bits of a cycle (R322). -/
def kBits (m : Mach) (i : Nat) (g : Program) : List Bool := [false, true, g.k2, g.k3, g.k4, inputForced m i]

/-- A cycle of program `i` begins at boundary `b`: inputs are read and the cycle's result fixed (R313, R316). -/
def beginCycle (i b : Nat) (m : Mach) : Mach :=
  match tget m.lge.progs i with
  | none => m
  | some g =>
    let r := runCycle g.prog (g.prog.ins.map (inputBit m i g.owner)) (kBits m i g) (tickAt m b) g.st
    let m := if g.prog.ins.any (inputRefused m i g.owner) then { m with free := m.free + 2 ^ 31 } else m
    onProg i (fun g => { g with
      cycle := some { b := b, steps := r.2, left := r.2, result := r.1, late := false }
      next := some (b + g.c), k2 := false, k3 := false, k4 := false }) m

-- Output commits (R315, R320, R336)

/-- A bit of a number set to a value. -/
def withBit (v i : Nat) (b : Bool) : Nat := if b then v ||| 2 ^ i else v - (v &&& 2 ^ i)

/-- The orphaned output forces of a point keep their bits of a BITSTR of which a new map writes others (R340). -/
def orphanBits (m : Mach) (i pt : Nat) (x : BitVec 64 × Bool) : BitVec 64 × Bool :=
  if (rangeOf m.sig pt).any fun r => r.ty == 7 then
    (m.lge.forces.filter fun e => e.2.prog == i && e.2.output && e.2.orphan && e.2.point == pt).foldl
      (fun x e => (.ofNat 64 (withBit x.1.toNat e.2.bit e.2.value), true)) x
  else x

/-- VALUE and whether it is forced, for a point that output entries write from a state, over the value it holds. -/
def outValue (m : Mach) (i : Nat) (st : ProgSt) (pt : Nat) (es : List OutEnt) (cur : BitVec 64) : BitVec 64 × Bool :=
  orphanBits m i pt <| es.foldl (fun (v, f) e =>
    let q (k : Nat) : Bool := st.q.getD k false
    if e.kind = 0 then
      (match forced m i true pt 0 0 with
        | some x => (.ofNat 64 (b2n x), true)
        | none => (.ofNat 64 (b2n (q e.src)), f))
    else if e.kind = 1 then
      (match forced m i true pt e.bit 0 with
        | some x => (.ofNat 64 (withBit v.toNat e.bit x), true)
        | none => (.ofNat 64 (withBit v.toNat e.bit (q e.src)), f))
    else if e.kind = 2 then
      let cv := (countOf st e.src).cv
      let u32 := (rangeOf m.sig pt).any fun r => r.ty == 3
      (.ofInt 64 (if u32 && decide (cv < 0) then 0 else cv), f)
    else
      let on := forced m i true pt 0 0
      let off := forced m i true pt 1 0
      (.ofNat 64 (2 * b2n (on.getD (q e.src)) + b2n (off.getD (q (e.src + 1)))), f || on.isSome || off.isSome)) (cur, false)

/-- One output point committed from a state, with the quality its forces give it (R336). -/
def commitPoint (i : Nat) (g : Prog) (st : ProgSt) (pt : Nat) (m : Mach) : Mach :=
  let owned := ownerOf m pt == some (2, i)
  let cur := ((pointAt m.sig pt).map (·.v.value)).getD 0
  let r := outValue m i st pt (g.outs.filter fun e => e.point == pt) cur
  let q : BitVec 32 := (if r.2 then qForced ||| qSubst else 0) ||| (if inputForced m i then qSubst else 0)
  if owned then ownerWrite pt r.1 q m else m

/-- The retentive output points of a program and their values (R330). -/
def retPoints (m : Mach) (g : Prog) : List (Nat × PVal) :=
  ((g.outs.filter (·.ret)).map (·.point)).eraseDups.filterMap fun i => (pointAt m.sig i).map fun p => (i, p.v)

/-- The output commit of a completed cycle: every output point at once, the counters, and the retentive state (R315, R330). -/
def commitCycle (i : Nat) (g : Program) (st : ProgSt) (m : Mach) : Mach :=
  let m := forEach (g.prog.outs.map (·.point)).eraseDups (commitPoint i g.prog st) m
  let m := onProg i (fun x => { x with st := st, committed := some (g.prog, st), cycle := none, ctrs := bump x.ctrs 0 }) m
  onLge (fun l => { l with retained := tset l.retained i { prog := g.prog.id, st := st, points := retPoints m g.prog } }) m

-- Restarts (R331, R332)

/-- The elements of a program that are retentive: those marked so, and what retentive instances use (R330). -/
def instRet (g : Prog) (f : InstEnt → Bool) (i : Nat) : Bool := g.insts.any fun e => e.ret && f e && e.uses == i
def keepTimers (g : Prog) : List Nat :=
  (List.range g.timers.length).filter fun i => ((g.timers[i]?).any (·.ret)) || instRet g (fun e => e.ty ≤ 3) i
def keepCounts (g : Prog) : List Nat :=
  (List.range g.counts.length).filter fun i => ((g.counts[i]?).any (·.ret)) || instRet g (fun e => 4 ≤ e.ty && e.ty ≤ 6) i
def keepInsts (g : Prog) : List Nat :=
  (List.range g.insts.length).filter fun i => (g.insts[i]?).any fun e => e.ret && (e.ty == 7 || e.ty == 8)
def keepPoints (g : Prog) : List Nat := ((g.outs.filter (·.ret)).map (·.point)).eraseDups

/-- Bytes of retention SRAM a program's retentive state takes (R330; the packing is the model's, log entry 18). -/
def retBytes (g : Prog) : Nat :=
  cdiv g.nrmark 8 + 9 * (keepTimers g).length + 4 * (keepCounts g).length + 2 * (keepInsts g).length + 20 * (keepPoints g).length

/-- The retentive state as bytes (log entry 18). -/
def retImage (g : Prog) (r : Retained) : Bytes :=
  let mark (i : Nat) : Nat := if i < g.nrmark && r.st.marks.getD i false then 1 else 0
  (List.range (cdiv g.nrmark 8)).map (fun k => .ofNat 8 ((List.range 8).foldl (fun a j => a + mark (8 * k + j) * 2 ^ j) 0)) ++
  (keepTimers g).flatMap (fun i => let t := timerOf r.st i; le 8 t.el ++ [.ofNat 8 (b2n t.prev + 2 * b2n t.running)]) ++
  (keepCounts g).flatMap (fun i => le 4 (toTwos 32 (countOf r.st i).cv)) ++
  (keepInsts g).flatMap (fun i => le 2 (r.st.insts.getD i instInit).mem.toNat) ++
  (keepPoints g).flatMap fun i =>
    match r.points.find? fun x => x.1 == i with
    | none => List.replicate 20 0
    | some x => fields [(8, x.2.value.toNat), (4, x.2.quality.toNat), (4, x.2.tfrac.toNat), (4, x.2.secLo.toNat)]

/-- The retentive state that bytes spell. -/
def retParse (g : Prog) (b : Bytes) : Retained :=
  let st := progInit g
  let ot := cdiv g.nrmark 8
  let oc := ot + 9 * (keepTimers g).length
  let oi := oc + 4 * (keepCounts g).length
  let op := oi + 2 * (keepInsts g).length
  let at_ (l : List Nat) (o w i : Nat) : Nat := o + w * l.idxOf i
  { prog := g.id
    st := { st with
      marks := (List.range st.marks.length).map fun i => if i < g.nrmark then bit (rd 1 b (i / 8)) (i % 8) else st.marks.getD i false
      timers := (List.range st.timers.length).map fun i =>
        if (keepTimers g).contains i then
          let o := at_ (keepTimers g) ot 9 i
          { el := rd 8 b o, prev := bit (rd 1 b (o + 8)) 0, running := bit (rd 1 b (o + 8)) 1, last := none }
        else timerOf st i
      counts := (List.range st.counts.length).map fun i =>
        if (keepCounts g).contains i then { cv := ofTwos 32 (rd 4 b (at_ (keepCounts g) oc 4 i)), prev := false } else countOf st i
      insts := (List.range st.insts.length).map fun i =>
        if (keepInsts g).contains i then { instInit with mem := .ofNat 16 (rd 2 b (at_ (keepInsts g) oi 2 i)) }
        else st.insts.getD i instInit }
    points := (keepPoints g).map fun i =>
      let o := at_ (keepPoints g) op 20 i
      (i, { value := .ofNat 64 (rd 8 b o), quality := .ofNat 32 (rd 4 b (o + 8)), tfrac := .ofNat 32 (rd 4 b (o + 12)),
            secLo := .ofNat 32 (rd 4 b (o + 16)) }) }

/-- The element states a warm restart keeps: those of retentive elements, from a saved state (R330, R331). -/
def warmState (g : Prog) (saved : ProgSt) : ProgSt :=
  let init := progInit g
  { init with
    marks := (List.range g.marks.length).map fun i =>
      if i < g.nrmark then saved.marks.getD i false else init.marks.getD i false
    timers := (List.range g.timers.length).map fun i =>
      if (keepTimers g).contains i then { timerOf saved i with last := none } else timerOf init i
    counts := (List.range g.counts.length).map fun i =>
      if (keepCounts g).contains i then { cv := (countOf saved i).cv, prev := false }
      else countOf init i
    insts := (List.range g.insts.length).map fun i =>
      if (keepInsts g).contains i then saved.insts.getD i instInit else instInit }

/-- A cycle still in progress of a program that has stopped goes on to its end, whatever becomes of the program (R333; log entry 85). -/
def letEnd (i : Nat) (m : Mach) : Mach :=
  match tget m.lge.progs i with
  | none => m
  | some g => if g.cycle.isSome then onLge (fun l => { l with ending := l.ending ++ [(i, g)] }) m else m

/-- Program `i` restarted at tick `s`, which becomes β: warm from the retentive state kept for the same PROG_ID, or cold. The cycle in
progress of a program that runs ends with no commit, that of one that has stopped goes on (R333); the output points are returned at D(s)
(R331; log entry 19). -/
def restartProg (runs warm : Bool) (i : Nat) (s : Tick) (m : Mach) : Mach :=
  let m := clearForces i (if runs then m else letEnd i m)
  match tget m.lge.progs i with
  | none => m
  | some g =>
    let st := if warm then
      (match tget m.lge.retained i with
        | some r => if r.prog = g.prog.id then warmState g.prog r.st else warmState g.prog g.st
        | none => warmState g.prog (progInit g.prog))
      else progInit g.prog
    let m := onProg i (fun g => { g with
      st := st, cycle := none, beta := s, next := some s, k2 := !warm, k3 := warm, k4 := false
      pointsDue := some warm, committed := none, ctrs := bump g.ctrs (if warm then 3 else 4) }) m
    progEvent 0x0C02 i (fields [(1, if warm then 3 else 4), (3, 0)]) m

/-- The output points of a restarted program at D(s): returned, or for retentive ones after a warm restart, their saved
values (R331). -/
def restartPoints (i : Nat) (s : Tick) (m : Mach) : Mach :=
  match tget m.lge.progs i with
  | none => m
  | some g =>
    match g.pointsDue with
    | none => m
    | some warm =>
      let pts := (g.prog.outs.map (·.point)).eraseDups
      let kept := if warm then ((tget m.lge.retained i).map (·.points)).getD [] else []
      let isRet (p : Nat) : Bool := warm && g.prog.outs.any fun o => o.point == p && o.ret
      let m := forEach (pts.filter fun p => !isRet p && ownerOf m p == some (2, i)) (fun p => returnPoint p (tickAt m s)) m
      let m := forEach (kept.filter fun e => isRet e.1 && ownerOf m e.1 == some (2, i)) (fun e => putPoint e.1 e.2) m
      onProg i (fun g => { g with pointsDue := none }) m

-- Exchange (R338 to R340)

/-- The old element of an ID, from parallel lists of IDs and states. -/
def byId {α : Type} (ids : List Nat) (st : List α) (id : Nat) : Option α := ((ids.zip st).find? fun e => e.1 == id).map (·.2)

/-- State carried over by stable identity (R339). -/
def carryState (old new : Prog) (st : ProgSt) : ProgSt :=
  { q := (progInit new).q,
    marks := (List.range new.marks.length).map fun i => if i < old.marks.length then st.marks.getD i false else new.marks.getD i false,
    timers := new.timers.map fun e => (byId (old.timers.map (·.id)) st.timers e.id).getD (timerInit e),
    edges := new.edges.map fun e => (byId (old.edges.map (·.id)) st.edges e.id).getD e.init,
    counts := new.counts.map fun e => (byId (old.counts.map (·.id)) st.counts e.id).getD (countInit e),
    insts := new.insts.map fun e => (byId (old.insts.map fun x => x.id) st.insts e.id).getD instInit }

/-- Elements that an exchange carries over. -/
def carried (old new : Prog) : Nat :=
  (new.timers.filter fun e => old.timers.any fun x => x.id == e.id).length +
  (new.edges.filter fun e => old.edges.any fun x => x.id == e.id).length +
  (new.counts.filter fun e => old.counts.any fun x => x.id == e.id).length +
  (new.insts.filter fun e => old.insts.any fun x => x.id == e.id).length

/-- Forces of program `i` whose target a new image lacks. -/
def orphans (m : Mach) (i : Nat) (g : Prog) : Tab Force :=
  m.lge.forces.filter fun e => e.2.prog == i && !targetIn g e.2.output e.2.point e.2.bit e.2.kind

/-- An exchange made at a boundary: state carries over, forces without a target become orphans (R338 to R340). -/
def exchangeProg (i : Nat) (x : Exchange) (m : Mach) : Mach :=
  match tget m.lge.progs i with
  | none => m
  | some g =>
    let lost := (orphans m i x.prog).filter fun e => !e.2.orphan
    let old := g.prog
    let m := onProg i (fun g => { g with
      prog := x.prog, warm := x.warm, st := carryState old x.prog g.st, k3 := true, ctrs := bump g.ctrs 5 }) m
    let m := onLge (fun l => { l with forces := tmap l.forces fun _ f =>
      if f.prog = i then { f with orphan := !targetIn x.prog f.output f.point f.bit f.kind } else f }) m
    let m := forEach lost (fun e => progEvent 0x0C05 i (fields [(2, e.1), (1, b2n e.2.output), (1, b2n e.2.value), (4, forceWord e.2)])) m
    progEvent 0x0C06 i (fields [(8, old.id.toNat), (8, x.prog.id.toNat), (4, carried old x.prog)]) m

-- Cycle boundaries (R312 to R315, R329, R333)

/-- A new cycle may begin at a tick that starts at an instant: the program is enabled and its slice runs (R12, R333), and is not held as
the twin's image (R426). -/
def progRuns (m : Mach) (t : Ns) (g : Program) : Bool :=
  g.enabled && sliceRan m g.owner t && computeReady m && !m.twn.held.getLsbD (g.owner - 1)

/-- A change of C or units takes effect: the boundary becomes β (LGE_PROG_SET). -/
def takeChange (i n : Nat) (m : Mach) : Mach :=
  onProg i (fun g => match g.change with
    | none => g
    | some (c, u) => { g with c := c, units := u, change := none, beta := n }) m

/-- The boundary of program `i` at tick `n`, which starts at `t`, without its commit: exchanges that are due, then the next cycle. -/
def afterCommit (i n : Nat) (t : Ns) (m : Mach) : Mach :=
  match tget m.lge.progs i with
  | none => m
  | some g =>
    let m := forEach g.exchange (exchangeProg i) (onProg i (fun g => { g with exchange := [] }) m)
    let m := takeChange i n m
    if progRuns m t g then beginCycle i n (restartPoints i n m) else onProg i (fun g => { g with next := none }) (restartPoints i n m)

/-- The commit half of a boundary: the completed cycle's outputs (R315, step 2). -/
def boundaryCommit (i : Nat) (m : Mach) : Mach :=
  match tget m.lge.progs i with
  | none => m
  | some g => match g.cycle with
    | none => m
    | some c => if c.left = 0 then commitCycle i g c.result m else m

/-- The rest of a boundary: the next cycle begins, or the cycle overruns and its start is skipped (R315 step 3, R329). -/
def boundaryBegin (i n : Nat) (t : Ns) (m : Mach) : Mach :=
  match tget m.lge.progs i with
  | none => m
  | some g => match g.cycle with
    | none => afterCommit i n t m
    | some c =>
      let m := onProg i (fun g => { g with
        cycle := some { c with late := true }
        next := some (n + g.c), k4 := true, ctrs := bump (if c.late then g.ctrs else bump g.ctrs 1) 2 }) (takeChange i n m)
      if c.late then m else progEvent 0x0C01 i (fields [(8, c.b)]) m

/-- The boundary of a cycle that goes on after its program has stopped and been started again, replaced or removed: it commits, or overruns
(R329, R333). The retentive state is written where the program still holds the image. -/
def endBoundary (n : Tick) (x : Nat × Program) (m : Mach) : Mach :=
  match x.2.cycle with
  | none => m
  | some c =>
    if !x.2.next.any (· ≤ n) then onLge (fun l => { l with ending := l.ending ++ [x] }) m
    else if c.left = 0 then
      let g := x.2.prog
      let m := progCount x.1 0 (forEach (g.outs.map (·.point)).eraseDups (commitPoint x.1 g c.result) m)
      if (tget m.lge.progs x.1).any fun y => y.prog.id == g.id then
        onLge (fun l => { l with retained := tset l.retained x.1 { prog := g.id, st := c.result, points := retPoints m g } }) m
      else m
    else
      let g := { x.2 with next := some (n + x.2.c), cycle := some { c with late := true } }
      let m := onLge (fun l => { l with ending := l.ending ++ [(x.1, g)] }) (progCount x.1 2 m)
      if c.late then m else raise 0x0C01 g.owner (fields [(1, x.1), (1, g.owner), (2, 0), (8, c.b)]) (progCount x.1 1 m)

/-- A program has a boundary at tick `n` that is still to be dealt with. -/
def boundaryDue (m : Mach) (n i : Nat) : Bool := (tget m.lge.progs i).any fun g => g.next.any fun b => decide (b ≤ n)

/-- A point committed for a force set or removed: as the last committed output image gives it, or where that has no place for the point,
the forced bits over the value it holds (R335; log entry 18). -/
def commitForced (i : Nat) (g : Program) (pt : Nat) (m : Mach) : Mach :=
  let img := (g.committed.map (·.1)).getD g.prog
  let st := (g.committed.map (·.2)).getD g.st
  let isForced (e : OutEnt) : Bool := m.lge.forces.any fun f => f.2.prog == i && f.2.output && f.2.point == pt && targetIn { g.prog with outs := [e] } true pt f.2.bit 0
  if img.outs.any fun e => e.point == pt then commitPoint i img st pt m
  else commitPoint i { g.prog with outs := g.prog.outs.filter fun e => e.point == pt && isForced e } g.st pt m

/-- The commits that forces set or removed ask for (R335, R340). -/
def commitForces (m : Mach) : Mach :=
  let m' := onLge (fun l => { l with due := [] }) m
  forEach m.lge.due (fun d m =>
    match tget m.lge.progs d.1 with
    | none => m
    | some g =>
      if d.2.2 then
        (match pointAt m.sig d.2.1 with
          | none => m
          | some p => ownerWrite d.2.1 p.v.value (setValidity (p.v.quality &&& ~~~qForced &&& ~~~qSubst) 1 ||| qOldData) m)
      else commitForced d.1 g d.2.1 m) m'

/-- Steps 2 and 3 of R315 at D(n): all commits in ascending program number, those of forces among them, then all reads. What other
chapters place between the two is given. -/
def logicBoundaries (n : Tick) (t : Ns) (between : Mach → Mach) (m : Mach) : Mach :=
  let due := (m.lge.progs.map (·.1)).filter (boundaryDue m n)
  let old := m.lge.ending
  let commits (i : Nat) (m : Mach) : Mach :=
    let m := forEach (old.filter fun x => x.1 == i) (endBoundary n) m
    if due.contains i then boundaryCommit i m else m
  let m := between (commitForces (forEach (List.range 64) commits (onLge (fun l => { l with ending := [] }) m)))
  forEach due (fun i => boundaryBegin i n t) m

/-- One program after its share `q` of an execution period (R313). -/
def periodOf (q : Nat) (g : Program) : Program :=
  match g.cycle with
  | none => g
  | some c =>
    let left := c.left - q
    { g with
      cycle := some { c with left := left }
      maxSteps := if left = 0 && c.left != 0 then max g.maxSteps c.steps else g.maxSteps }

/-- The execution period of the tick last assembled, once (R313). -/
def logicPeriod (m : Mach) : Mach :=
  if m.lge.used || !computeReady m then m
  else onLge (fun l => { l with
    used := true
    progs := tmap l.progs (fun _ g => periodOf (periodQuota m g.units) g)
    ending := l.ending.map fun x => (x.1, periodOf (periodQuota m x.2.units) x.2) }) m

/-- LOGIC_EXECUTION_PERIOD: from D(n) + 4 µs the processors execute their programs up to their quotas (R313). -/
def execLogicExecutionPeriod (s : State) : Host.Outcome State Fault Refusal :=
  runOn s fun m =>
    if m.lge.used || !computeReady m || !clockRuns m then m
    else logicPeriod (if gridAssembled m then advanceTo (asmAt m (nextAssembly m - 1) + 4000) m else m)

-- What other chapters do to programs

/-- Every timer's next delta is 0: the clock has been stepped (R325). -/
def logicStepped (m : Mach) : Mach :=
  onLge (fun l => { l with progs := tmap l.progs fun _ g =>
    let clear (st : ProgSt) : ProgSt := { st with timers := st.timers.map fun t => { t with last := none } }
    { g with st := clear g.st, cycle := g.cycle.map fun c => { c with result := clear c.result } } }) m

/-- A grid restart: β and the next boundary are the new grid's first tick (R312). -/
def logicGrid (first : Tick) (m : Mach) : Mach :=
  onLge (fun l => { l with
    progs := tmap l.progs fun _ g => { g with beta := first, next := g.next.map fun _ => first }
    ending := l.ending.map fun x => (x.1, { x.2 with next := some first }) }) m

/-- The engine is reset with its domain: cycles end with no commit, the force table empties (R333, R506). An exchange that is effective
is made at the first boundary after it (R338). -/
def logicReset (m : Mach) : Mach :=
  onLge (fun l => { l with
    forces := [], due := [], used := true, ending := []
    progs := tmap l.progs fun _ g => { g with cycle := none, next := none, committed := none } }) m

/-- The programs of a slice that starts: warm after a stop, cold after a reset or an admission (R332). -/
def startPrograms (warm : Bool) (tag : Nat) (n : Tick) (m : Mach) : Mach :=
  forEach ((m.lge.progs.filter fun e => e.2.owner == tag && e.2.enabled).map (·.1)) (fun i => restartProg false warm i n) m

/-- The restart of a program at a cold start: warm if its start flag permits and its saved state is valid for the same
PROG_ID; otherwise cold, with event 0x0C07 when state was expected (R332). -/
def coldStartProg (i : Nat) (n : Tick) (m : Mach) : Mach :=
  match tget m.lge.progs i with
  | none => m
  | some g =>
    let ok := (tget m.lge.retained i).any fun r => r.prog == g.prog.id
    if g.warm && ok then restartProg true true i n m
    else
      let m := restartProg true false i n m
      if g.warm then progEvent 0x0C07 i [] m else m

-- Commands

/-- The stored image of a program, its content verified and its tenant key endorsed (R494). -/
def programImage (m : Mach) (tenant : Nat) (id : BitVec 64) : Option Image :=
  m.sec.images.find? fun i => i.kind == 2 && i.id == id && i.tenant == tenant && m.sec.endorsed.contains (tenant, shake256 i.pubkey)

/-- The image with a PROG_ID, of a tenant where that has one. -/
def imageById (m : Mach) (tenant : Nat) (id : BitVec 64) : Option Image :=
  let all := m.sec.images.filter fun i => i.kind == 2 && i.id == id
  (all.find? fun i => i.tenant == tenant).or all.head?

/-- The tenant of a slice; 0 where it is absent. -/
def tenantOf (m : Mach) (tag : Nat) : Nat := ((getSlice m tag).map (·.tenant)).getD 0

/-- An output entry's point has a type that its KIND permits (R320). -/
def outTypeOk (m : Mach) (o : OutEnt) : Bool :=
  (rangeOf m.sig o.point).any fun r =>
    if o.kind = 0 then r.ty == 0 else if o.kind = 1 then r.ty == 7 && o.bit < r.len
    else if o.kind = 2 then r.ty == 2 || r.ty == 3 else r.ty == 1

/-- Two entries write the same point or the same bit (R321). -/
def outClash (outs : List OutEnt) : Bool :=
  let keys := outs.map fun o => (o.point, if o.kind = 1 then o.bit else 64)
  keys.eraseDups.length != keys.length ||
  outs.any fun o => o.kind != 1 && outs.any fun x => x.kind == 1 && x.point == o.point

/-- The points of an image at a state `x`: inputs readable, outputs owned, of their types and written once (R321), and of the types
they have when the image is taken (R216). -/
def progPoints (m x : Mach) (i owner : Nat) (g : Prog) : Nat :=
  if g.ins.any fun e => !progMayRead x i owner e.point || !pointsKept m x e.point 1 then 0x0205
  else if outClash g.outs || g.outs.any fun o => ownerOf x o.point != some (2, i) || !outTypeOk x o || !pointsKept m x o.point 1 then 0x0206
  else 0

/-- Units on a processor besides a program's own; of a change that waits for its boundary the greater count. -/
def lpUnits (m : Mach) (lp i : Nat) : Nat :=
  ((m.lge.progs.filter fun e => e.1 != i && e.2.lp == lp).map fun e => max e.2.units ((e.2.change.map (·.2)).getD 0)).sum

/-- The fields of LGE_PROG_LOAD and LGE_PROG_EXCHANGE. -/
structure LoadReq where
  prog : Nat
  lp : Nat
  owner : Nat
  flags : Nat
  c : Nat
  units : Nat
  id : BitVec 64
  deriving DecidableEq, Repr

def loadReq (p : Bytes) : LoadReq :=
  { prog := rd 1 p 0, lp := rd 1 p 1, owner := rd 1 p 2, flags := rd 1 p 3, c := rd 2 p 4, units := rd 2 p 6, id := .ofNat 64 (rd 8 p 8) }

/-- Image checks of R321 that need no point, after verification (R494); a tenant's own image is the one named, where it has one. -/
def imageStatus (m : Mach) (r : LoadReq) : Nat :=
  match (getSlice m r.owner).filter (·.arriving.isNone) with
  | none => 0x0204
  | some s =>
    match imageById m s.tenant r.id with
    | none => 0x0203
    | some i =>
      if i.tenant ≠ s.tenant then 0x0204
      else if (programImage m s.tenant r.id).isNone then 0x0203
      else match parseProg i.content with
        | none => 0x0202
        | some g => if !progOk g || rd 1 i.content 7 != s.tenant || g.id != r.id then 0x0202 else 0

/-- The program of a request's image. -/
def reqProg (m : Mach) (r : LoadReq) : Option Prog := (imageById m (tenantOf m r.owner) r.id).bind fun i => parseProg i.content

-- The limits of R311 and R330, and what exchanges reserve (R338)

/-- What an image takes of the engine: instructions, timers, edge detectors and counters. -/
def elements (g : Prog) : List Nat := [g.code.length, g.timers.length, g.edges.length, g.counts.length]

/-- What an image takes beside another that it is to replace: the elements that do not carry over (R338, R339), and its instructions. -/
def freshElements (old new : Prog) : List Nat :=
  [new.code.length, (new.timers.filter fun e => !old.timers.any fun x => x.id == e.id).length,
    (new.edges.filter fun e => !old.edges.any fun x => x.id == e.id).length,
    (new.counts.filter fun e => !old.counts.any fun x => x.id == e.id).length]

/-- An image and those that are to replace it one after another: what they take together until the exchanges. -/
def chainElements : List Prog → List Nat
  | [] => []
  | g :: rest => ((g :: rest).zip rest).foldl (fun a x => a.zipWith (· + ·) (freshElements x.1 x.2)) (elements g)

/-- The images of a program: that in force, those effective that wait for their boundary, those accepted for a later tick (log entry 85). -/
def imageChain (m : Mach) (i : Nat) (g : Program) : List Prog :=
  heldImages g ++ (m.mbx.scheduled.filter fun c => c.code == 0x0C02 && rd 1 c.payload 0 == i).filterMap fun c =>
    reqProg m { loadReq c.payload with owner := g.owner }

/-- The images of the programs but one. -/
def otherImages (m : Mach) (i : Nat) : List (List Prog) := (m.lge.progs.filter fun e => e.1 != i).map fun e => imageChain m e.1 e.2

/-- The engine's limits with the images of a program as given (R311, R330; log entry 85). -/
def limitsOk (m : Mach) (i : Nat) (l : List Prog) : Bool :=
  let all := l :: otherImages m i
  let sum (k : Nat) : Nat := (all.map fun x => (chainElements x).getD k 0).sum
  sum 0 ≤ 1048576 && sum 1 ≤ 65536 && sum 2 ≤ 262144 && sum 3 ≤ 65536 &&
  (all.map fun x => (x.map retBytes).foldl max 0).sum ≤ 917504

/-- The response of LGE_PROG_LOAD and LGE_PROG_EXCHANGE. -/
def loadReply (exchange : Bool) (p : Bytes) (m : Mach) : Bytes :=
  let r := loadReq p
  match reqProg m r with
  | none => []
  | some g =>
    let old := (tget m.lge.progs r.prog).bind fun x => (heldImages x).getLast?
    fields [(4, worstSteps g), (4, quota m r.units), (4, b2n (mayOverrun m g r.units r.c)), (4, retBytes g),
      (4, if exchange then (old.map fun o => carried o g).getD 0 else 0), (4, if exchange then (orphans m r.prog g).length else 0)]

def lgeProgLoad : Cmd where
  code := 0x0C01
  len := fun p => p.length == 16 && rd 1 p 3 < 4 && rd 2 p 4 != 0 && 1 ≤ rd 2 p 6 && rd 2 p 6 ≤ 256
  right := rConfig
  journal := true
  sched := true
  check := fun m _ p =>
    let r := loadReq p
    firstFail [
      (64 ≤ r.prog || 4 ≤ r.lp, 0x0200),
      ((tget m.lge.progs r.prog).any (·.enabled), 0x0201),
      (imageStatus m r != 0, imageStatus m r),
      (256 < lpUnits m r.lp r.prog + r.units, 0x0207)]
  depend := fun m x _ p => match reqProg m (loadReq p) with
    | none => 0
    | some g => progPoints m x (loadReq p).prog (loadReq p).owner g
  res := fun m _ p => match reqProg m (loadReq p) with
    | none => 0
    | some g => if limitsOk m (loadReq p).prog [g] then 0 else 0x0104

/-- A program as a load places it. -/
def loadedProg (r : LoadReq) (g : Prog) (n : Tick) : Program :=
  { prog := g, enabled := bit r.flags 0, lp := r.lp, owner := r.owner, c := r.c, units := r.units, change := none, beta := n,
    warm := bit r.flags 1, st := progInit g, cycle := none, next := none, k2 := true, k3 := false, k4 := false,
    committed := none, pointsDue := none, exchange := [], maxSteps := 0, ctrs := [] }

/-- LGE_PROG_LOAD at its effective tick; a load that enables starts the program cold. A cycle in progress of the image before runs to its
end (R333). -/
def applyProgLoad (p : Bytes) (m : Mach) : Mach :=
  let r := loadReq p
  match reqProg m r with
  | none => m
  | some g =>
    let n := m.time.tick
    let m := onLge (fun l => { l with progs := tset l.progs r.prog (loadedProg r g n) }) (clearForces r.prog (letEnd r.prog m))
    if bit r.flags 0 then progEvent 0x0C02 r.prog (fields [(1, 1), (3, 0)]) (restartProg true false r.prog n m) else m

/-- LGE_PROG_EXCHANGE: an image takes the place of the one before, with what carries over (R338, R339, R343; log entry 85). -/
def lgeProgExchange : Cmd where
  code := 0x0C02
  len := fun p => p.length == 16 && rd 1 p 3 < 4
  right := rConfig
  journal := true
  sched := true
  check := fun m _ p =>
    let r := loadReq p
    match tget m.lge.progs r.prog with
    | none => if 64 ≤ r.prog || 4 ≤ r.lp then 0x0200 else 0x0201
    | some g =>
      let old := (heldImages g).getLast?.getD g.prog
      let clash (new : Prog) : Bool :=
        new.timers.any (fun e => old.timers.any fun x => x.id == e.id && x.kind != e.kind) ||
        new.insts.any (fun e => old.insts.any fun x => x.id == e.id && x.ty != e.ty)
      let r' := { r with owner := g.owner }
      let image := imageStatus m r'
      firstFail [
        (64 ≤ r.prog || 4 ≤ r.lp, 0x0200),
        (!g.enabled, 0x0201),
        (r.owner != g.owner || r.lp != g.lp || r.units != g.units || r.c != g.c, 0x020C),
        (image != 0, if image = 0x0204 then 0x0202 else image),
        ((reqProg m r).any clash, 0x0208)]
  depend := fun m x _ p => match reqProg m (loadReq p), tget m.lge.progs (loadReq p).prog with
    | some g, some o => progPoints m x (loadReq p).prog o.owner g
    | _, _ => 0
  res := fun m _ p => match reqProg m (loadReq p), tget m.lge.progs (loadReq p).prog with
    | some g, some o => if limitsOk m (loadReq p).prog (imageChain m (loadReq p).prog o ++ [g]) then 0 else 0x0104
    | _, _ => 0

/-- LGE_PROG_EXCHANGE at its effective tick: the exchange waits for the next boundary with its cycle complete (R338). While the compute
domain does not run, in a configuration that is selected at a start, no cycle is there to wait for. -/
def applyProgExchange (p : Bytes) (m : Mach) : Mach :=
  match reqProg m (loadReq p) with
  | none => m
  | some g =>
    if !computeReady m then onProg (loadReq p).prog (fun x => { x with prog := g, warm := bit (loadReq p).flags 1, st := progInit g }) m
    else onProg (loadReq p).prog (fun x => { x with exchange := x.exchange ++ [{ prog := g, warm := bit (loadReq p).flags 1 }] }) m

def lgeProgSet : Cmd where
  code := 0x0C03
  len := fun p => layout 8 [(6, 2)] p && rd 1 p 1 < 8 && rd 2 p 4 ≤ 256
  right := rConfig
  journal := true
  sched := true
  check := fun m _ p =>
    let i := rd 1 p 0
    let u := rd 2 p 4
    match tget m.lge.progs i with
    | none => if 64 ≤ i then 0x0200 else 0x0201
    | some g => firstFail [
        (bit (rd 1 p 1) 2 && (g.enabled || bit (rd 1 p 1) 0), 0x0201),
        (u != 0 && 256 < lpUnits m g.lp i + u, 0x0207)]

/-- LGE_PROG_SET at its effective tick (log entry 85). -/
def applyProgSet (p : Bytes) (m : Mach) : Mach :=
  let i := rd 1 p 0
  let fl := rd 1 p 1
  match tget m.lge.progs i with
  | none => m
  | some g =>
    if bit fl 2 then
      let m := if g.enabled then progEvent 0x0C02 i (fields [(1, 2), (3, 0)]) m else m
      onLge (fun l => { l with
        progs := terase l.progs i
        retained := if computeReady m then terase l.retained i else l.retained }) (clearForces i (letEnd i m))
    else
      let c := if rd 2 p 2 = 0 then (g.change.map (·.1)).getD g.c else rd 2 p 2
      let u := if rd 2 p 4 = 0 then (g.change.map (·.2)).getD g.units else rd 2 p 4
      let on := bit fl 0
      let m := onProg i (fun g =>
        if g.next.isSome then { g with enabled := on, change := if c = g.c ∧ u = g.units then none else some (c, u) }
        else { g with enabled := on, c := c, units := u }) m
      if on && !g.enabled then progEvent 0x0C02 i (fields [(1, 1), (3, 0)]) (restartProg false (!bit fl 1) i m.time.tick m)
      else if !on && g.enabled then progEvent 0x0C02 i (fields [(1, 2), (3, 0)]) m
      else m

/-- The programs a restart names: one, or every enabled one. -/
def restartTargets (m : Mach) (i : Nat) : List Nat :=
  if i = 0xFF then (m.lge.progs.filter fun e => e.2.enabled).map (·.1) else [i]

def lgeRestart : Cmd where
  code := 0x0C04
  len := fun p => layout 8 [(2, 6)] p && rd 1 p 1 < 2
  right := rConfig
  sched := true
  check := fun m _ p =>
    let i := rd 1 p 0
    if i = 0xFF then 0 else if 64 ≤ i then 0x0200 else if (tget m.lge.progs i).any (·.enabled) then 0 else 0x0201

def applyRestart (p : Bytes) (m : Mach) : Mach :=
  forEach (restartTargets m (rd 1 p 0)) (fun i => restartProg true (rd 1 p 1 == 0) i m.time.tick) m

/-- The force a request describes. -/
def forceReq (p : Bytes) (n : Tick) : Force :=
  let w := rd 4 p 4
  { prog := rd 1 p 0, output := rd 1 p 2 == 1, value := bit (rd 1 p 3) 0, point := w % 2 ^ 23, bit := bits w 28 23,
    kind := bits w 30 29, orphan := false, tick := n }

/-- The entry a force stands in. -/
def forceEntry (m : Mach) (f : Force) : Option Nat :=
  (m.lge.forces.find? fun e => forceIs f.prog f.output f.point f.bit f.kind e.2).map (·.1)

/-- The entry a force stands in, or takes: the lowest free one. -/
def forceSlot (m : Mach) (f : Force) : Nat :=
  (forceEntry m f).getD (((List.range 4096).find? fun i => (tget m.lge.forces i).isNone).getD 4096)

def lgeForce : Cmd where
  code := 0x0C05
  len := fun p => p.length == 8 && rd 1 p 1 < 2 && rd 1 p 2 < 2 && rd 1 p 3 < 2 && rd 4 p 4 < 2 ^ 31
  right := rConfig
  m2 := true
  sched := true
  check := fun m _ p =>
    let f := forceReq p 0
    if 64 ≤ f.prog then 0x0200
    else if rd 1 p 1 = 1 then (if (forceEntry m f).isSome then 0 else 0x020A)
    else if !(tget m.lge.progs f.prog).any (fun g => targetIn g.prog f.output f.point f.bit f.kind) then 0x020A
    else if (forceEntry m f).isNone && 4096 ≤ m.lge.forces.length then 0x0209 else 0

/-- The response of LGE_FORCE: the entry number. -/
def forceReply (m : Mach) (h : Hdr) (p : Bytes) (proj : Mach → Hdr → Mach) : Bytes :=
  fields [(2, forceSlot (proj m h) (forceReq p 0)), (6, 0)]

/-- LGE_FORCE at its effective tick: set, changed or removed; an output force asks for a commit at D(n) (R335). -/
def applyForce (p : Bytes) (m : Mach) : Mach :=
  let f := forceReq p m.time.tick
  let w := fields [(2, forceSlot m f), (1, b2n f.output), (1, b2n f.value), (4, forceWord f)]
  if rd 1 p 1 = 0 then
    let m := onLge (fun l => { l with
      forces := tset l.forces (forceSlot m f) f
      due := if f.output then l.due ++ [(f.prog, f.point, false)] else l.due }) m
    progEvent 0x0C03 f.prog w m
  else
    match forceEntry m f with
    | none => m
    | some i =>
      let orphan := (tget m.lge.forces i).any (·.orphan)
      let m := onLge (fun l => { l with
        forces := terase l.forces i
        due := if f.output then l.due ++ [(f.prog, f.point, orphan)] else l.due }) m
      progEvent 0x0C04 f.prog w m

/-- A force as LGE_FORCE_LIST reports it. -/
def forceBytes (i : Nat) (f : Force) : Bytes :=
  fields [(2, i), (1, f.prog), (1, 0), (1, b2n f.output), (1, b2n f.value + 2 * b2n f.orphan), (4, forceWord f), (6, f.tick)]

/-- The forces an issuer sees: all, or a slice those of its own programs. -/
def visibleForces (m : Mach) (tag : Nat) : Tab Force :=
  m.lge.forces.filter fun e => tag == 0 || (tget m.lge.progs e.2.prog).any fun g => g.owner == tag

def lgeForceList : Cmd where
  code := 0x0C10
  len := layout 8 [(2, 6)]
  apply := false
  slice := fun _ _ _ => true
  check := fun _ _ p => if 4096 ≤ rd 2 p 0 then 0x0200 else 0

def execLgeForceList (h : Hdr) (p : Bytes) (s : State) : Host.Outcome State Fault Refusal :=
  runOn s (runRead lgeForceList h p
    (fun m =>
      let all := visibleForces m (boxTag h.box)
      let es := (all.filter fun e => rd 2 p 0 ≤ e.1).take 256
      fields [(2, es.length), (2, all.length), (4, 0)] ++ es.flatMap fun e => forceBytes e.1 e.2) id)

def lgeStatus : Cmd where
  code := 0x0C11
  len := fun p => layout 8 [(2, 6)] p && rd 1 p 1 < 2
  apply := false
  slice := fun m t p => (tget m.lge.progs (rd 1 p 0)).any fun g => g.owner == t
  roleOk := clearOk 1
  check := fun _ _ p => if 64 ≤ rd 1 p 0 then 0x0200 else 0

/-- The response of LGE_STATUS. -/
def lgeStatusBytes (m : Mach) (i : Nat) : Bytes :=
  let any := b2n (!m.lge.forces.isEmpty)
  match tget m.lge.progs i with
  | none => fields [(1, 64 * any), (79, 0)]
  | some g =>
    let fl := 1 + 2 * b2n g.enabled + 4 * b2n (progRuns m (now m) g) + 8 * g.prog.mode + 16 * b2n (mayOverrun m g.prog g.units g.c) +
      32 * b2n (m.lge.forces.any fun e => e.2.prog == i) + 64 * any
    fields [(1, fl), (1, g.lp), (2, g.c), (2, g.units), (2, 0), (8, g.prog.id.toNat), (8, g.beta), (4, worstSteps g.prog),
      (4, g.maxSteps)] ++ ctrBytes g.ctrs 6

def execLgeStatus (h : Hdr) (p : Bytes) (s : State) : Host.Outcome State Fault Refusal :=
  runOn s (runRead lgeStatus h p (fun m => lgeStatusBytes m (rd 1 p 0))
    (fun m => when (bit (rd 1 p 1) 0) (onProg (rd 1 p 0) fun g => { g with ctrs := ctrClear g.ctrs 6, maxSteps := 0 }) m))

end Sys2Proof.Machine
end

