-- ==== Sys2Proof/Machine/Slc.lean ====
section
/-! DEFINITION. Hues, slice images, admission, resources, reset and migration of slices (chapter 06). -/
namespace Sys2Proof.Machine
open Sys2Proof

-- States (R150)

/-- The number of a state in events and in SLC_STATUS; a slice that has not yet become loaded is absent, or, where a compute restart has
taken its memory, resetting (log entry 81). -/
def sliceNum (s : Slice) : Nat :=
  if s.arriving.isSome && s.state != .resetting then 0
  else match s.state with
    | .loaded => 1
    | .running => 2
    | .stopped => 3
    | .resetting => 4

/-- Event 0x0601: a slice's state has changed (R150). -/
def stateEvent (tag old new : Nat) : Mach → Mach := raise 0x0601 tag (fields [(1, tag), (1, old), (1, new), (5, 0)])

/-- What a change of state at the present tick leaves for the ticks before it that are still to be assembled: a start or a stop does not
apply to them (R12); a reset ends what the slice does (R174). -/
def ranBefore (m : Mach) (s : Slice) (st : SliceState) : List (Ns × Bool) :=
  let was := s.state == .running
  if st == .resetting then []
  else if was == (st == .running) || m.time.asm.all (fun d => d.tick == m.time.tick && d.grid == m.time.grid) then s.ran
  else s.ran ++ [(tickAt m m.time.tick, was)]

/-- A slice enters a state (log entry 81). -/
def setSlice (tag : Nat) (st : SliceState) (m : Mach) : Mach :=
  match getSlice m tag with
  | none => m
  | some s =>
    let new := { s with state := st, arriving := none, ran := ranBefore m s st }
    stateEvent tag (sliceNum s) (sliceNum new) (onSlice tag (fun _ => new) m)

/-- A session as it opens, with no message in hand. -/
def sessionInit (num : Nat) (rights : BitVec 6) (cert : BitVec 512) (ref : Nat) : Session :=
  { num := num, rights := rights, grants := [], cert := cert, asm := none, answered := none, more := none, ref := ref, late := none }

/-- The slice mailbox of a tag opens (R459). -/
def openBox (tag : Nat) (m : Mach) : Mach :=
  if (tget m.mbx.sess (64 + tag)).isSome then m
  else onMbx (fun x => { x with
    sess := tset x.sess (64 + tag) (sessionInit 0 0 0 m.time.ref)
    boxes := tset x.boxes tag boxInit }) m

/-- The slice mailbox of a tag closes. -/
def closeBox (tag : Nat) : Mach → Mach :=
  onMbx fun x => { x with sess := terase x.sess (64 + tag), boxes := terase x.boxes tag }

-- Hues (R151 to R154)

/-- A bank set holds 2 GiB (R151). -/
def bankBytes : Nat := 2 ^ 31

/-- The bank sets or ways of a mask. -/
def maskBits (n v : Nat) : List Nat := (List.range n).filter v.testBit

/-- Bytes of a slice's regions. -/
def sliceBytes (s : Slice) : Nat := (s.regions.map (·.size)).sum

/-- Where a slice's pages lie, those held for it by a migration among them (R154, R171). -/
def slicePages (s : Slice) : List (Nat × Nat) := s.regions.flatMap (·.pages) ++ (s.migration.map (·.pages.flatten)).getD []

/-- Pages of a bank set in a placement. -/
def pagesIn (b : Nat) (l : List (Nat × Nat)) : Nat := ((l.filter (·.1 == b)).map (·.2)).sum

/-- Free pages of a bank set. -/
def bankFree (m : Mach) (b : Nat) : Nat := bankBytes / 65536 - (m.cpu.slices.map fun e => pagesIn b (slicePages e.2)).sum

/-- The bank sets of a hue. -/
def hueBanks (m : Mach) (h : Nat) : List Nat := ((tget m.cpu.hues h).map fun u => maskBits 32 u.banks.toNat).getD []

/-- The bank sets of a hue that accepted changes of it leave it from a tick on: those of the mask in force then, and of every later one. -/
def hueRoom (m : Mach) (h : Nat) (n : Tick) : List Nat :=
  let l := m.mbx.scheduled.filter fun c => c.code == 0x0601 && rd 1 c.payload 0 == h
  let last := l.foldl (fun (b : Option (Tick × Nat)) c =>
    if c.apply ≤ n && b.all (·.1 ≤ c.apply) then some (c.apply, rd 4 c.payload 4) else b) none
  let mask := (last.map (·.2)).getD (((tget m.cpu.hues h).map (·.banks.toNat)).getD 0)
  (maskBits 32 mask).filter fun b => l.all fun c => c.apply ≤ n || (rd 4 c.payload 4).testBit b

/-- Free space of a hue: the free pages in all its bank sets (R154). -/
def hueFree (m : Mach) (h : Nat) : Nat := ((hueRoom m h m.time.tick).map (bankFree m)).sum * 65536

/-- The bank sets of a hue that hold a page. -/
def banksUsed (m : Mach) (h : Nat) : List Nat :=
  (hueBanks m h).filter fun b => m.cpu.slices.any fun e => pagesIn b (slicePages e.2) != 0

/-- Pages placed in bank sets with room, the first that have it (R154; log entry 23). -/
def placeIn : List (Nat × Nat) → Nat → List (Nat × Nat)
  | [], _ => []
  | (b, f) :: l, n => (if min f n = 0 then [] else [(b, min f n)]) ++ placeIn l (n - f)

/-- Pages placed in a hue as it is from tick `k` on, from its lowest bank set up. -/
def placePages (m : Mach) (h : Nat) (k : Tick) (n : Nat) : List (Nat × Nat) := placeIn ((hueRoom m h k).map fun b => (b, bankFree m b)) n

/-- The first `n` pages of a placement, and the rest. -/
def takePages : List (Nat × Nat) → Nat → List (Nat × Nat) × List (Nat × Nat)
  | [], _ => ([], [])
  | (b, k) :: l, n =>
    if n = 0 then ([], (b, k) :: l)
    else if k ≤ n then let r := takePages l (n - k); ((b, k) :: r.1, r.2)
    else ([(b, n)], (b, k - n) :: l)

/-- A placement shared out over regions of some numbers of pages. -/
def sharePages : List Nat → List (Nat × Nat) → List (List (Nat × Nat))
  | [], _ => []
  | n :: ns, l => (takePages l n).1 :: sharePages ns (takePages l n).2

/-- The pages of regions placed in a hue as it is from tick `k` on. -/
def placeRegions (m : Mach) (h : Nat) (k : Tick) (rs : List Region) : List (List (Nat × Nat)) :=
  let ns := rs.map fun r => r.size / 65536
  sharePages ns (placePages m h k ns.sum)

/-- Regions with their pages. -/
def withPages (rs : List Region) (ps : List (List (Nat × Nat))) : List Region := (rs.zip ps).map fun x => { x.1 with pages := x.2 }

/-- The tenants of a mask that are more than one. -/
def manyTenants (t : Nat) : Bool := t &&& (t - 1) != 0

/-- The hue a SLC_HUE_SET describes. -/
def hueReq (m : Mach) (p : Bytes) : Hue :=
  { ways := .ofNat 16 (rd 2 p 2), banks := .ofNat 32 (rd 4 p 4), bw := rd 2 p 8, tenants := .ofNat 16 (rd 2 p 10),
    waiver :=
      if bit (rd 1 p 1) 0 then
        (m.sec.owners.find? fun e => match e.2 with
          | .active d => Config.slhVerify 0 d (slice p 16 64) (slice p 80 29792)
          | .empty => false
          | .revoked _ => false).map (·.1)
      else none }

/-- A rule of R151 for the hue alone is broken (0x020C). -/
def hueRange (h : Nat) (u : Hue) : Bool :=
  let t := u.tenants.toNat
  15 < h || u.bw < 1 || 256 < u.bw || u.ways == 0 || t == 0 ||
  (if h = 0 then (maskBits 32 u.banks.toNat).length < 2 || (maskBits 16 u.ways.toNat).length < 2 || u.bw < 32 || t != 1
   else t.testBit 0)

/-- A waiver that is carried is invalid (R167). -/
def waiverBad (m : Mach) (p : Bytes) (u : Hue) : Bool :=
  let b := slice p 16 64
  bit (rd 1 p 1) 0 &&
    (u.waiver.isNone || rd 4 b 0 != 0x57564855 || rd 1 b 4 != rd 1 p 0 || rd 1 b 4 == 0 || !zeros b 5 1 || !zeros b 24 40 ||
     rd 2 b 6 != u.tenants.toNat || (rd 8 b 8 != 0 && rd 8 b 8 != m.ident.serial.toNat) ||
     ((m.sec.force.map (·.seq)).getD 0) < rd 8 b 16)

def slcHueSet : Cmd where
  code := 0x0601
  len := fun p => rd 1 p 1 < 2 && zeros p 12 4 && p.length == 16 + 29856 * rd 1 p 1
  right := rConfig
  journal := true
  sched := true
  check := fun m _ p =>
    let h := rd 1 p 0
    let u := hueReq m p
    let others := m.cpu.hues.filter fun e => e.1 != h
    firstFail [
      ((banksUsed m h).any fun b => !u.banks.getLsbD b, 0x0206),
      (waiverBad m p u, 0x0208),
      (hueRange h u, 0x020C),
      (others.any fun e => e.2.banks &&& u.banks != 0 || e.2.ways &&& u.ways != 0, 0x020D)]
  res := fun m _ p =>
    let h := rd 1 p 0
    let u := hueReq m p
    let others := m.cpu.hues.filter fun e => e.1 != h
    firstFail [
      (256 < (others.map (·.2.bw)).sum + u.bw, 0x0104),
      ((manyTenants u.tenants.toNat && u.waiver.isNone) ||
        m.cpu.slices.any fun e => (e.2.hue == h || e.2.migration.any (·.hue == h)) && !u.tenants.getLsbD e.2.tenant, 0x0105)]

/-- SLC_HUE_SET at its effective tick (R151, R166). -/
def applyHueSet (p : Bytes) (m : Mach) : Mach :=
  guarantee (onCpu (fun c => { c with hues := tset c.hues (rd 1 p 0) (hueReq m p) }) m)

-- Slice images (R155 to R158)

/-- A slice image's content as its header, handler table and region table say. -/
structure SliceImage where
  tenant : Nat
  id : BitVec 64
  nmax : Nat
  readyMin : Nat
  nrings : Nat
  minSlots : Nat
  handlers : List Handler
  regions : List Region
  deriving DecidableEq, Repr

/-- Handler `h` of an image's handler table (R156). -/
def handlerAt (c : Bytes) (o : Nat) : Handler :=
  { entry := rd 8 c o, prio := rd 1 c (o + 8), frameReady := bit (rd 1 c (o + 9)) 0, enabled := bit (rd 1 c (o + 9)) 1,
    cost := rd 2 c (o + 10) }

/-- A region descriptor (R157). -/
def regionAt (c : Bytes) (o : Nat) : Region :=
  { vbase := rd 8 c o, size := rd 8 c (o + 8), kind := rd 1 c (o + 16), access := .ofNat 8 (rd 1 c (o + 17)),
    mirrored := bit (rd 2 c (o + 18)) 0, coff := rd 4 c (o + 20), clen := rd 4 c (o + 24), released := [], pages := [] }

/-- The tables of an image's content, read where its header says. -/
def sliceImage (c : Bytes) : SliceImage :=
  { tenant := rd 1 c 6, id := .ofNat 64 (rd 8 c 16), nmax := rd 4 c 12, readyMin := rd 4 c 24, nrings := rd 2 c 28,
    minSlots := rd 2 c 30, handlers := (List.range (rd 2 c 8)).map fun h => handlerAt c (rd 4 c 32 + 16 * h),
    regions := (List.range (rd 2 c 10)).map fun i => regionAt c (rd 4 c 36 + 32 * i) }

/-- S of R136. -/
def frameStride (nmax : Nat) : Nat := cdiv (64 + 32 * nmax) 4096 * 4096

/-- A region descriptor obeys R157 and R158 by itself. -/
def regionFits (nmax len : Nat) (r : Region) : Bool :=
  let acc := r.access.toNat
  r.vbase % 65536 == 0 && r.size % 65536 == 0 && 0 < r.size && 0x100000 ≤ r.vbase && r.vbase + r.size ≤ 2 ^ 40 &&
  r.kind ≤ 4 && acc < 8 && !(acc.testBit 1 && acc.testBit 2) && (r.kind == 0 || !acc.testBit 2) &&
  r.clen ≤ r.size && (if 2 ≤ r.kind then r.coff == 0 else r.coff + r.clen ≤ len) &&
  (r.kind != 3 || 4 * frameStride nmax ≤ r.size)

/-- No two regions of a list overlap. -/
def apart : List Region → Bool
  | [] => true
  | r :: l => l.all (fun x => r.vbase + r.size ≤ x.vbase || x.vbase + x.size ≤ r.vbase) && apart l

/-- An image's content passes R155 to R158. -/
def imageFits (c : Bytes) : Bool :=
  let i := sliceImage c
  let frames := i.regions.filter (·.kind == 3)
  let code := i.regions.filter (·.access.getLsbD 2)
  let nh := rd 2 c 8
  let nr := rd 2 c 10
  let ht := rd 4 c 32
  let rt := rd 4 c 36
  128 ≤ c.length && rd 4 c 0 == 0x53494C53 && rd 2 c 4 == 1 && 1 ≤ i.tenant && i.tenant ≤ 15 && zeros c 7 1 && zeros c 40 88 &&
  1 ≤ nh && nh ≤ 1024 && 1 ≤ nr && nr ≤ 64 && i.nmax ≤ 12288 && i.readyMin ≤ 4096 && i.nrings ≤ 16 &&
  ht + 16 * nh ≤ c.length && rt + 32 * nr ≤ c.length &&
  ((List.range nh).all fun h => rd 1 c (ht + 16 * h + 9) < 4 && zeros c (ht + 16 * h + 12) 4) &&
  ((List.range nr).all fun k => rd 2 c (rt + 32 * k + 18) < 2 && zeros c (rt + 32 * k + 28) 4) &&
  (i.handlers.all fun h => h.prio < 16 && 1 ≤ h.cost && h.cost ≤ 240 && h.cost ≤ i.minSlots &&
    code.any fun r => r.vbase ≤ h.entry && h.entry < r.vbase + r.size) &&
  i.regions.all (regionFits i.nmax c.length) && apart i.regions && frames.length ≤ 1 && (i.nmax == 0 || frames.length == 1)

/-- A stored slice image by IMAGE_ID (R494). -/
def storedSlice (m : Mach) (id : BitVec 64) : Option Image := m.sec.images.find? fun i => i.kind == 1 && i.id == id

/-- The tenant's key is endorsed for a stored image, and the image's own fields agree with the content's (R494). -/
def sliceEndorsed (m : Mach) (i : Image) : Bool :=
  m.sec.endorsed.contains (i.tenant, shake256 i.pubkey) && rd 1 i.content 6 == i.tenant && rd 8 i.content 16 == i.id.toNat

/-- Every region of a slice filled from its image: the initial contents, and zero for the rest (R161). -/
def fillRegions (tag : Nat) (m : Mach) : Mach :=
  match getSlice m tag with
  | none => m
  | some s =>
    let c := ((m.sec.images.find? fun i => i.kind == 1 && i.id == s.image && i.digest == s.imageDigest).map (·.content)).getD []
    let put (r : Region) : Mach → Mach := when (r.kind < 2) (slcPut tag r.vbase (slice c r.coff r.clen))
    onSlice tag (fun s => { s with filled := true })
      (forEach s.regions put (onMem (fun mem => memZero mem (memKey tag 0) (2 ^ 40)) m))

/-- The fill or copy at the head of the queue runs (R537). -/
def startFill (m : Mach) : Mach := onCpu (fun c => { c with
  fills := match c.fills with
    | [] => []
    | f :: r => { f with start := some (f.start.getD (now m)) } :: r }) m

/-- A fill or copy becomes due behind those before it (R537). -/
def queueFill (tag : Nat) (k : FillKind) (m : Mach) : Mach :=
  match getSlice m tag with
  | none => m
  | some s => startFill (onCpu (fun c => { c with fills := c.fills ++ [{ tag := tag, kind := k, bytes := sliceBytes s, start := none }] }) m)

/-- Fills and copies taken out of the queue. -/
def dropFills (gone : Fill → Bool) (m : Mach) : Mach := startFill (onCpu (fun c => { c with fills := c.fills.filter fun f => !gone f }) m)

-- Admission (R159 to R161)

/-- A SLC_ADMIT as asked. -/
structure AdmitReq where
  tag : Nat
  hue : Nat
  flim : Nat
  rsv : Nat
  id : BitVec 64
  /-- Doorbell positions and ring numbers. -/
  rings : List (Nat × Nat)
  chans : List Nat
  reads : List (Nat × Nat)
  deriving DecidableEq, Repr

/-- Read ranges of a request from an offset on. -/
def spansAt (n : Nat) (p : Bytes) (o : Nat) : List (Nat × Nat) := (List.range n).map fun i => (rd 4 p (o + 8 * i), rd 4 p (o + 8 * i + 4))

def admitReq (p : Bytes) : AdmitReq :=
  let n := rd 2 p 48
  { tag := rd 1 p 0, hue := rd 1 p 1, flim := rd 1 p 2, rsv := rd 4 p 4, id := .ofNat 64 (rd 8 p 8),
    rings := (List.range 16).filterMap fun i => let r := rd 2 p (16 + 2 * i); if r = 0xFFFF then none else some (i, r),
    chans := rdList 2 n p 56, reads := spansAt (rd 2 p 50) p (56 + 2 * n) }

/-- A channel list repeats a channel or names one above 12 287 (R138). -/
def chansBad (l : List Nat) : Bool := l.any (12287 < ·) || l.eraseDups.length != l.length

/-- The limits of R138, against the other slices' lists (0x0104). -/
def chansOver (m : Mach) (tag nmax : Nat) (l : List Nat) : Bool :=
  nmax < l.length ||
  49152 < ((m.cpu.slices.map fun e => if e.1 = tag then 0 else (subsOf e.2).length).sum + l.length) ||
  64 < (l.map fun c => (chanEntry m c).group).eraseDups.length

/-- A channel belongs to a group that another slice controls (R109). -/
def chansHeld (m : Mach) (tag : Nat) (l : List Nat) : Bool :=
  l.any fun c => (getGroup m (chanEntry m c).group).any fun g => (estSettings g).ctrl.any fun t => t != tag

/-- Every point of some spans exists (R159). -/
def spansThere (sg : Signals) (l : List (Nat × Nat)) : Bool :=
  l.all fun s => (List.range s.2).all fun i => (rangeOf sg (s.1 + i)).isSome

/-- Every point of some spans exists at a state, with the type it has at another (R216). -/
def spansStay (m x : Mach) (l : List (Nat × Nat)) : Bool := spansThere x.sig l && l.all fun s => pointsKept m x s.1 s.2

/-- Ready entries a slice reserves: four per frame-ready handler and READY_MIN (R142). -/
def readyNeed (hs : List Handler) (min : Nat) : Nat := 4 * (hs.filter (·.frameReady)).length + min

/-- Ready entries the slices hold together, one of them aside (R159). -/
def readyOthers (m : Mach) (tag : Nat) : Nat :=
  (m.cpu.slices.map fun e => if e.1 = tag then 0 else readyNeed e.2.handlers e.2.readyMin).sum

/-- A ring is unassigned and disabled (R168). -/
def ringFree (m : Mach) (r : Nat) : Bool := r < 256 && (getRing m r).owner.isNone && !(getRing m r).enabled

/-- The module as it stands, with the hues of another: what is reserved now, on the hues as they will be. -/
def withHues (m now : Mach) : Mach :=
  onMbx (fun x => { x with scheduled := m.mbx.scheduled }) (onTime (fun t => { t with tick := m.time.tick })
    (onCpu (fun c => { c with hues := m.cpu.hues }) now))

/-- Slice reserves that exceed the slice limit, or leave the shared pool less than 4 MiB (R247, R249). -/
def reservesOver (m : Mach) (more less : Nat) : Bool :=
  m.net.sliceLimit < sliceReserves m - less + more || poolSize m + less < 4194304 + more

/-- What of the resources an admission asks for is not free (check 8 of R471). -/
def admitFull (m : Mach) (r : AdmitReq) (i : SliceImage) : Nat :=
  firstFail [
    (hueFree m r.hue < (i.regions.map (·.size)).sum, 0x0104),
    (65536 < readyOthers m r.tag + readyNeed i.handlers i.readyMin, 0x0104),
    (reservesOver m r.rsv 0, 0x0104),
    (chansOver m r.tag i.nmax r.chans, 0x0104),
    (!((tget m.cpu.hues r.hue).any fun u => u.tenants.getLsbD i.tenant), 0x0105),
    (chansHeld m r.tag r.chans, 0x0105)]

/-- SLC_ADMIT on a module whose reservations stand now as given: they count beside those at the effective tick. -/
def slcAdmit (now : Mach) : Cmd where
  code := 0x0602
  len := fun p => 56 ≤ p.length && zeros p 52 4 && p.length == 56 + 2 * rd 2 p 48 + 8 * rd 2 p 50 && rd 2 p 50 ≤ 256 &&
    1 ≤ rd 1 p 0 && rd 1 p 0 ≤ 64 && rd 1 p 3 == (admitReq p).rings.length && rd 4 p 4 % 16384 == 0
  right := rConfig
  journal := true
  sched := true
  check := fun m _ p =>
    let r := admitReq p
    let img := storedSlice m r.id
    firstFail [
      (img.isNone, 0x0107),
      (!img.any (sliceEndorsed m), 0x0200),
      ((getSlice now r.tag).isSome || (getSlice m r.tag).isSome, 0x0201),
      (!img.any fun i => imageFits i.content, 0x0202),
      ((tget m.cpu.hues r.hue).isNone, 0x0204),
      (r.rings.any (fun x => !ringFree now x.2 || !ringFree m x.2) || (r.rings.map (·.2)).eraseDups.length != r.rings.length ||
        img.any (fun i => r.rings.length < (sliceImage i.content).nrings), 0x020A),
      (chansBad r.chans, 0x020B)]
  depend := fun m x _ p => if spansStay m x (admitReq p).reads then 0 else 0x0107
  res := fun m _ p => match storedSlice m (admitReq p).id with
    | none => 0
    | some i =>
      let r := admitReq p
      let a := admitFull m r (sliceImage i.content)
      if a ≠ 0 then a else admitFull (withHues m now) r (sliceImage i.content)

/-- The response of SLC_ADMIT. -/
def admitReply (p : Bytes) (m : Mach) : Bytes :=
  match storedSlice m (admitReq p).id with
  | none => []
  | some i =>
    let x := sliceImage i.content
    fields [(8, (x.regions.map (·.size)).sum), (4, readyNeed x.handlers x.readyMin), (4, frameStride x.nmax)]

/-- A slice as it is admitted. -/
def newSlice (r : AdmitReq) (i : Image) (n : Tick) : Slice :=
  let x := sliceImage i.content
  { state := .loaded, tenant := x.tenant, image := r.id, imageDigest := i.digest, hue := r.hue, flim := r.flim, nmax := x.nmax,
    readyMin := x.readyMin, minSlots := x.minSlots, handlers := x.handlers, regions := x.regions, rsv := r.rsv, alpha := -2,
    subs := r.chans, subsDue := [], reads := r.reads, filled := false, toRun := false, resumed := false, arriving := some n, asked := none,
    reset := none, migration := none, faults := [], resetAt := none, ctrs := [], suspended := 0, slwTick := 0, framePtr := 0,
    subver := 0, withheld := none, ran := [], skipped := false, frameCtrs := [], freed := [], nextHandle := 1, dspCtrs := [] }

/-- An accepted admission reserves everything at once and its fill becomes due (R159, R161). -/
def reserveSlice (p : Bytes) (n : Tick) (m : Mach) : Mach :=
  let r := admitReq p
  match storedSlice m r.id with
  | none => m
  | some i =>
    let x := newSlice r i n
    let x := { x with regions := withPages x.regions (placeRegions m r.hue n x.regions) }
    let m := partition (onCpu fun c => { c with slices := tset c.slices r.tag x }) m
    queueFill r.tag .admission (guarantee (forEach r.rings (fun x => assignRing x.2 r.tag (some x.1)) m))

/-- The latches of SLW_TIME_NS that cores serving a slice hold are cleared (R46). -/
def dropLatches (tag : Nat) (m : Mach) : Mach :=
  let mine (c : Nat) : Bool := (m.cpu.cores.getD c coreReset).lastTag == tag
  onTime (fun t => { t with latch := t.latch.filter fun e => !(e.1 < 32 && mine e.1) }) m

/-- Everything a tag holds is freed: rings, items, windows, registers, memory and mailbox buffers (SLC_REMOVE, R176). -/
def freeSlice (tag : Nat) (m : Mach) : Mach :=
  let m := forEach (ringsOfSlice m tag) releaseRing (withdrawItems tag (dropLatches tag m)).2
  let m := dropFills (·.tag == tag) (closeBox tag m)
  let m := onCpu (fun c => { c with
    slices := terase c.slices tag
    held := c.held.filter fun x => x.tag != tag
    pairs := c.pairs.filter fun e => e.1 % 128 != tag
    lattice := latFree (· == tag) c.lattice }) m
  let m := onSig (fun g => { g with
    windows := g.windows.filter fun w => w.tag != tag
    spa := g.spa.filter fun e => e.1 % 128 != tag }) m
  let m := onEvr (fun e => { e with wins := e.wins.filter fun x => x.1 % 128 != tag }) m
  let m := onTwn (fun t => { t with matched := t.matched &&& ~~~tagBit tag, dirty := t.dirty.filter fun x => x.tag != tag }) m
  onMem (fun mem => memZero (memZero (memZero mem (memKey tag 0) (2 ^ 40)) (boxKey tag 0) (2 ^ 40)) (imageKey tag 0) (2 ^ 40)) m

/-- A slice's own regions, retentive state and points become the image that a standby keeps of it from now on (R426). -/
def baseImage (tag : Nat) (m : Mach) : Mach :=
  match getSlice m tag with
  | none => m
  | some s =>
    let move (r : Region) (m : Mach) : Mach :=
      let cells := m.mem.filter fun c => memKey tag r.vbase ≤ c.1 && c.1 < memKey tag r.vbase + r.size
      onMem (fun mem => cells.foldl (fun mem c => memWrite mem (imageKey tag (c.1 - memKey tag 0)) c.2)
        (memZero mem (imageKey tag r.vbase) r.size)) m
    let m := forEach (s.regions.filter (·.mirrored)) move m
    let progs := m.lge.progs.filter fun e => e.2.owner == tag
    let rets := progs.filterMap fun e => (tget m.lge.retained e.1).map fun r => (e.1, retImage e.2.prog r)
    let mine (r : Range) : Bool := r.mirror && ((r.ownerKind == 1 && r.owner == tag) ||
      (r.ownerKind == 2 && progs.any fun e => e.1 == r.owner))
    let pts := (m.sig.ranges.filter mine).flatMap fun r => (List.range r.count).filterMap fun k =>
      (pointAt m.sig (r.first + k)).map fun p => (r.first + k, p.v)
    onTwn (fun t => { t with
      imgRet := rets.foldl (fun l e => tset l e.1 e.2) t.imgRet
      imgPts := pts.foldl (fun l e => tset l e.1 e.2) t.imgPts }) m

/-- A standby's image of a slice copied into the slice's own state: its mirrored regions, its programs' retentive state and its
mirrored points (R427). -/
def copyImage (tag : Nat) (m : Mach) : Mach :=
  match getSlice m tag with
  | none => m
  | some s =>
    let mine (i : Nat) : Bool := match ownerOf m i with
      | some (k, o) => (k == 1 && o == tag) || (k == 2 && (tget m.lge.progs o).any fun g => g.owner == tag)
      | none => false
    let move (r : Region) (m : Mach) : Mach :=
      let cells := m.mem.filter fun c => imageKey tag r.vbase ≤ c.1 && c.1 < imageKey tag r.vbase + r.size
      onMem (fun mem => cells.foldl (fun mem c => memWrite mem (memKey tag (c.1 - imageKey tag 0)) c.2)
        (memZero mem (memKey tag r.vbase) r.size)) m
    let m := forEach (s.regions.filter (·.mirrored)) move m
    let m := forEach (m.twn.imgRet.filter fun e => (tget m.lge.progs e.1).any fun g => g.owner == tag) (fun e =>
      onLge fun l => match tget l.progs e.1 with
        | none => l
        | some g => { l with retained := tset l.retained e.1 (retParse g.prog e.2) }) m
    forEach (m.twn.imgPts.filter fun e => mine e.1) (fun e => putPoint e.1 e.2) m

/-- A slice becomes loaded: its mailbox opens, and a waiting SLC_ADMIT is answered (R161). -/
def loadSlice (tag : Nat) (m : Mach) : Mach :=
  match getSlice m tag with
  | none => m
  | some s =>
    let m := openBox tag (setSlice tag .loaded m)
    let m := onSlice tag (fun x => { x with asked := none, reset := none, toRun := false }) m
    match s.asked with
    | none => m
    | some a => respond 0x0602 a.1 a.2.1 a.1.apply 0 a.2.2 m

/-- SLC_ADMIT at its apply tick: loaded at once when the fill has finished, and otherwise at the first tick boundary after
it (R161). -/
def applyAdmit (deferred : Bool) (h : Hdr) (role : BitVec 32) (resp p : Bytes) (m : Mach) : Mach :=
  let tag := rd 1 p 0
  match getSlice m tag with
  | none => m
  | some s =>
    let asked := if deferred then some (h, role, resp) else none
    let m := onSlice tag (fun s => { s with arriving := some 0, asked := asked }) m
    if s.filled then loadSlice tag m else m

/-- An admission that is discarded reserves nothing any more (R30, R159). -/
def dropAdmit (p : Bytes) (m : Mach) : Mach :=
  match getSlice m (rd 1 p 0) with
  | none => m
  | some s => if s.arriving.any (· != 0) then guarantee (freeSlice (rd 1 p 0) m) else m

-- Start, stop and removal

/-- The slice in a state that permits a command (0x0203). -/
def sliceIn (m : Mach) (tag : Nat) (ok : Slice → Bool) : Bool := (getSlice m tag).any fun s => s.arriving.isNone && ok s

/-- A request of a slice tag and seven reserved bytes. -/
def tagRequest : Bytes → Bool := layout 8 [(1, 7)]

def slcStart : Cmd where
  code := 0x0603
  len := tagRequest
  right := rConfig
  journal := true
  sched := true
  check := fun m _ p =>
    let t := rd 1 p 0
    firstFail [
      (!sliceThere m t, 0x0201),
      (!sliceIn m t fun s => s.state == .loaded || s.state == .stopped, 0x0203),
      (!sliceIn m t fun s => latServes m.cpu.lattice t s.minSlots, 0x0207)]

/-- The next message of every block of a slice increments stNum (R174, R233). -/
def forcePubs (tag : Nat) (m : Mach) : Mach :=
  onSig (fun g => { g with pubs := tmap g.pubs fun _ b => if pubSlice m b.entry = tag then { b with force := true } else b }) m

/-- The programs of a slice that runs again after a start of the compute domain have been restarted then (R332); they begin their
cycles at their next boundary (R312). -/
def resumePrograms (tag : Nat) (n : Tick) : Mach → Mach :=
  onLge fun l => { l with progs := tmap l.progs fun _ g =>
    if g.owner == tag && g.enabled && g.next.isNone then { g with next := some (g.beta + cdiv (n - g.beta) g.c * g.c) } else g }

/-- What a start of a slice does to its programs, as a change of the logic engine's: the tag, and 0 a cold restart, 1 a warm one, 2 none
(R332; log entry 85). The code 0x0C00 is the model's own; no command bears it. -/
def beginPrograms (p : Bytes) (m : Mach) : Mach :=
  let tag := rd 1 p 0
  if rd 1 p 1 = 2 then resumePrograms tag m.time.tick m else startPrograms (rd 1 p 1 == 1) tag m.time.tick m

/-- A slice becomes running (R150): its programs start warm after a stop and cold otherwise (R332), and on a standby that
starts it from loaded it counts as matched (R426). -/
def runSlice (tag : Nat) (m : Mach) : Mach :=
  match getSlice m tag with
  | none => m
  | some s =>
    let warm := s.state == .stopped
    let m := onSlice tag (fun x => { x with resumed := false }) (setSlice tag .running m)
    let m := when (!warm && !s.resumed && m.twn.role == .standby) (fun m => baseImage tag
      (onTwn (fun t => { t with matched := t.matched ||| tagBit tag, held := t.held &&& ~~~tagBit tag }) m)) m
    let m := when (warm && !s.resumed) (forcePubs tag) m
    let p := fields [(1, tag), (1, if s.resumed then 2 else b2n warm)]
    if waitsFor m.time.tick m then addLate m.time.tick 0x0C00 p m else beginPrograms p m

/-- SLC_START at its effective tick; a slice whose memory is still being filled runs as soon as it is loaded. -/
def applyStart (p : Bytes) (m : Mach) : Mach :=
  let t := rd 1 p 0
  match getSlice m t with
  | none => m
  | some s =>
    if s.arriving.isSome then onSlice t (fun s => { s with toRun := true }) m
    else if s.state == .loaded || s.state == .stopped then runSlice t m else m

def slcStop : Cmd where
  code := 0x0604
  len := tagRequest
  right := rConfig
  journal := true
  sched := true
  check := fun m _ p =>
    let t := rd 1 p 0
    firstFail [(!sliceThere m t, 0x0201), (!sliceIn m t fun s => s.state == .running, 0x0203)]

/-- SLC_STOP at its effective tick: listed items complete, nothing new is admitted (R28, R205). -/
def applyStop (p : Bytes) (m : Mach) : Mach :=
  let t := rd 1 p 0
  if sliceRuns m t then setSlice t .stopped m else onSlice t (fun s => { s with toRun := false }) m

def slcRemove : Cmd where
  code := 0x0606
  len := tagRequest
  right := rConfig
  journal := true
  sched := true
  check := fun m _ p =>
    let t := rd 1 p 0
    firstFail [(!sliceThere m t, 0x0201), (!sliceIn m t fun s => s.state == .loaded || s.state == .stopped, 0x0203)]

/-- SLC_REMOVE at its effective tick. -/
def applyRemove (p : Bytes) (m : Mach) : Mach :=
  let t := rd 1 p 0
  match getSlice m t with
  | none => m
  | some s => guarantee (freeSlice t (stateEvent t (sliceNum s) 0 m))

-- Reset (R174, R175)

/-- Event 0x0607: a hue migration has switched (0), failed (1) or been abandoned (2), at a tick. -/
def migrationEvent (tag hue what : Nat) (m : Mach) : Mach :=
  raise 0x0607 tag (fields [(1, tag), (1, hue), (1, what), (5, 0), (8, m.time.tick)]) m

/-- A migration ends without a switch: its copy leaves the queue and the slice stays where it is (R171, R175). -/
def endMigration (tag what : Nat) (m : Mach) : Mach :=
  match (getSlice m tag).bind (·.migration) with
  | none => m
  | some g =>
    let m := dropFills (fun f => f.tag == tag && f.kind == .migrate) m
    migrationEvent tag g.hue what (onSlice tag (fun s => { s with migration := none }) m)

/-- A message in the slice's request buffer is answered busy and not executed (R174). -/
def bounceBox (tag : Nat) (m : Mach) : Mach :=
  match (tget m.mbx.sess (64 + tag)).bind (·.asm) with
  | none => m
  | some a =>
    let m := onMbx (fun x => { x with sess := tmod x.sess (64 + tag) (sessionInit 0 0 0 0) fun s => { s with asm := none } }) m
    respond a.code a.hdr (roleOf m a.hdr) a.hdr.apply 0x0103 [] m

/-- What the registers of the slice's pairs hold after a reset: cancel statuses, access registers and event windows are
cleared; submit statuses are kept (R196, R222, R400). -/
def clearPairs (tag : Nat) (m : Mach) : Mach :=
  let m := onCpu (fun c => { c with
    pairs := tmap c.pairs fun k x => if k % 128 = tag then { x with cancel := pairInit.cancel } else x
    held := c.held.filter fun x => x.tag != tag }) m
  let m := onSig (fun g => { g with spa := g.spa.filter fun e => e.1 % 128 != tag }) m
  onEvr (fun e => { e with wins := e.wins.filter fun x => x.1 % 128 != tag }) m

/-- The slice enters resetting: listed items are withdrawn and frames still in the buffer discarded (R174 steps 1 and 2). -/
def beginReset (tag : Nat) (restart : Bool) (asked : List (Hdr × BitVec 32)) (m : Mach) : Mach :=
  let m := endMigration tag 2 m
  let m := setSlice tag .resetting m
  let w := withdrawItems tag (bounceBox tag m)
  let d := discardAtReset tag w.2
  let m := clearPairs tag d.2
  onSlice tag (fun s => { s with
    filled := false
    resumed := false
    resetAt := none
    reset := some { restart := restart, asked := asked, age := 0, complete := false, withdrawn := w.1, discarded := d.1 } }) m

/-- The response of a SLC_RESET that was accepted with apply tick zero (R174 step 3). -/
def resetReply (m : Mach) (r : Resetting) : Bytes := fields [(8, tickOf m.time.grid (now m)), (4, r.withdrawn), (4, r.discarded)]

/-- A reload begins: the slice's next publications are numbered anew and the forces of its programs cleared (R174 step 4). -/
def beginReload (tag : Nat) (m : Mach) : Mach :=
  queueFill tag .reload (forEach ((m.lge.progs.filter fun e => e.2.owner == tag).map (·.1)) clearForces (forcePubs tag m))

/-- A slice that completes a reset no longer keeps a memory error from being cleared (R166). -/
def memoryReset (tag : Nat) : Mach → Mach := onDom fun d => { d with memBanks := tmap d.memBanks fun _ l => l.filter (· != tag) }

/-- The slice's in-flight count has reached zero (R174 step 3): the event, the answers, its latches, rings and points, and
the reload becomes due. -/
def completeReset (tag : Nat) (m : Mach) : Mach :=
  match (getSlice m tag).bind (·.reset) with
  | none => m
  | some r =>
    if r.complete then m
    else
      let body := resetReply m r
      let m := raise 0x0604 tag (fields [(1, tag), (7, 0)] ++ body) m
      let m := forEach r.asked (fun a => respond 0x0605 a.1 a.2 a.1.apply 0 body) m
      let m := resetRings tag (dropLatches tag m)
      let m := returnWhere (fun x => x.ownerKind == 1 && x.owner == tag) (tickAt m m.time.tick) m
      beginReload tag (memoryReset tag (onSlice tag (fun s => { s with reset := some { r with complete := true, asked := [] } }) m))

/-- SLICE_RESET_COMPLETE: a resetting slice has nothing in flight any more (R174); what is still in flight two ticks after its reset has run
out by then (`sliceBoundary`). -/
def execSliceResetComplete (tag : Fin 65) (s : State) : Host.Outcome State Fault Refusal :=
  runOn s fun m => if computeReady m && !inFlight m tag.val then completeReset tag.val m else m

def slcReset : Cmd where
  code := 0x0605
  len := fun p => layout 8 [(2, 6)] p && rd 1 p 1 < 2
  right := rConfig
  sched := true
  check := fun m _ p =>
    let t := rd 1 p 0
    firstFail [
      (!sliceThere m t, 0x0201),
      (sliceIn m t (fun s => s.state == .resetting) && rd 1 p 1 == 0, 0x0203)]

/-- SLC_RESET at its effective tick; one for a slice already resetting only adds restart (R175). -/
def applyReset (deferred : Bool) (h : Hdr) (role : BitVec 32) (p : Bytes) (m : Mach) : Mach :=
  let t := rd 1 p 0
  let restart := rd 1 p 1 == 1
  let asked := if deferred then [(h, role)] else []
  match getSlice m t with
  | none => forEach asked (fun a => respond 0x0605 a.1 a.2 a.1.apply 0x0201 []) m
  | some s => match s.reset with
    | none => if s.arriving.isSome then onSlice t (fun s => { s with toRun := s.toRun || restart }) m else beginReset t restart asked m
    | some r =>
      let m := onSlice t (fun s => { s with reset := some { r with
        restart := r.restart || restart, asked := if r.complete then r.asked else r.asked ++ asked } }) m
      if r.complete then forEach asked (fun a => respond 0x0605 a.1 a.2 a.1.apply 0 (resetReply m r)) m else m

-- Fills (R537)

/-- When a fill or copy that runs ends: it is made at 16 GB/s (R537). -/
def fillEnd (f : Fill) (m : Mach) : Ns := f.start.getD (now m) + cdiv f.bytes 16

/-- SLICE_FILL_COMPLETE: the clock reaches the end of the fill or copy that runs, and the next one begins; none is made before the compute
domain runs (R501). -/
def execSliceFillComplete (s : State) : Host.Outcome State Fault Refusal :=
  runOn s fun m =>
    if !controlRuns m || !computeRuns m then m
    else match m.cpu.fills with
      | [] => m
      | f :: rest =>
        let m := advanceTo (fillEnd f m) m
        let m := startFill (onCpu (fun c => { c with fills := rest }) m)
        match f.kind with
        | .admission => fillRegions f.tag m
        | .refill => fillRegions f.tag m
        | .reload => raise 0x0605 f.tag (fields [(1, f.tag), (7, 0)]) (fillRegions f.tag m)
        | .migrate => onSlice f.tag (fun s => { s with migration := s.migration.map fun g => { g with copied := true } }) m
        | .image => copyImage f.tag m

/-- The gap of the tick before has passed: a migration that was to switch there is tried again, after 16 ticks more it has failed
(R171 step 5). -/
def migrationPassed (tag : Nat) (m : Mach) : Mach :=
  match (getSlice m tag).bind (·.migration) with
  | none => m
  | some g =>
    if m.time.tick ≤ g.tick then m
    else if 16 < g.tries + 1 then endMigration tag 1 m
    else onSlice tag (fun s => { s with migration := some { g with tries := g.tries + 1 } }) m

/-- What a tick boundary does to a slice: a reset that FLIM asked for begins, one that is two ticks old is complete, and a
filled slice becomes loaded, and running where that was asked and the lattice serves it (R161, R173, R174, R501). -/
def sliceBoundary (tag : Nat) (m : Mach) : Mach :=
  let m := migrationPassed tag m
  match getSlice m tag with
  | none => m
  | some s =>
    let m := onSlice tag (fun s => { s with
      resetAt := none
      reset := s.reset.map fun r => { r with age := r.age + 1 } }) m
    if s.resetAt.isSome && s.reset.isNone && s.arriving.isNone then beginReset tag true [] m
    else
      let m := if s.reset.any (fun r => !r.complete && 1 ≤ r.age) then completeReset tag m else m
      let due := s.filled && (s.arriving == some 0 || s.reset.any (·.complete))
      if !due then m
      else
        let m := loadSlice tag m
        let run := s.reset.any (·.restart) || s.toRun
        if run && latServes m.cpu.lattice tag s.minSlots then runSlice tag m else m

-- Resources while a slice runs (R168 to R171)

/-- The tag and kind of SLC_RESOURCE_SET. -/
def resTag (p : Bytes) : Nat := rd 1 p 0
def resArgA (p : Bytes) : Nat := rd 4 p 4
def resArgB (p : Bytes) : Nat := rd 8 p 8

/-- The request layout of a kind of SLC_RESOURCE_SET. -/
def resLayout (kind : Nat) (ok : Bytes → Bool) (p : Bytes) : Bool := layout 16 [(2, 2)] p && rd 1 p 1 == kind && ok p

/-- Bytes that stand in front of a new migration, and its own (R171 step 3). -/
def migrationBytes (m : Mach) (tag : Nat) : Nat :=
  ((getSlice m tag).map sliceBytes).getD 0 + (m.cpu.fills.map (·.bytes)).sum

/-- The earliest apply tick of a migration (R171 step 3). -/
def migrationTick (m : Mach) (tag : Nat) : Tick :=
  m.time.tick + 2 + cdiv (migrationBytes m tag * m.time.grid.rate) 16000000000

/-- SLC_RESOURCE_SET kind 1, on a module whose fills stand now as given. -/
def slcHue (now : Mach) : Cmd where
  code := 0x0610
  len := resLayout 1 fun p => rd 8 p 8 == 0
  right := rConfig
  journal := true
  sched := true
  check := fun m h p =>
    let t := resTag p
    firstFail [
      (!sliceThere m t, 0x0201),
      (sliceIn m t (fun s => s.state == .resetting || s.migration.isSome) || (getSlice now t).any (·.migration.isSome), 0x0203),
      ((tget m.cpu.hues (resArgA p)).isNone, 0x0204),
      (effTick now h < migrationTick now t, 0x0209)]
  res := fun m _ p =>
    let t := resTag p
    let x := resArgA p
    firstFail [
      (sliceIn m t (fun s => s.hue != x) && (hueFree m x < ((getSlice m t).map sliceBytes).getD 0 ||
        hueFree (withHues m now) x < ((getSlice m t).map sliceBytes).getD 0), 0x0104),
      (!sliceIn m t (fun s => (tget m.cpu.hues x).any fun u => u.tenants.getLsbD s.tenant), 0x0105)]

/-- An accepted hue change: its copy becomes due and room is held in the new hue (R171). -/
def beginMigration (p : Bytes) (n : Tick) (m : Mach) : Mach :=
  queueFill (resTag p) .migrate (onSlice (resTag p) (fun s =>
    let pages := if s.hue = resArgA p then s.regions.map (·.pages) else placeRegions m (resArgA p) n s.regions
    { s with migration := some { hue := resArgA p, tick := n, copied := false, tries := 0, pages := pages, marked := [] } }) m)

/-- The slots of a tick that lie in windows of a slice; an entry that is not listed names none. -/
def ownSlots (l : Lattice) (tag : Nat) (n : Tick) : List Nat :=
  let own := (l.entries.filter fun e => e.1 / 8192 == pageOf l n && latOwner e.2 == tag).map fun e => e.1 % 256
  (List.range 256).filter own.contains

/-- The gap of a slice that the clock is in: the tick it stands before, and its length, from the end of the slice's last window in the
tick before to the start of its first window in that tick (R171 step 4). -/
def migrationGap (m : Mach) (tag : Nat) : Option (Tick × Ns) :=
  let own := ownSlots m.cpu.lattice tag
  let first (n : Tick) : Nat := (own n).head?.getD 256
  let end_ (n : Tick) : Nat := ((own n).getLast?.map (· + 1)).getD 0
  let n := m.time.tick
  let len (k : Tick) : Ns := slotAt m k (first k) - (if k = 0 then tickAt m 0 else slotAt m (k - 1) (end_ (k - 1)))
  if m.time.slot < first n then some (n, len n) else if end_ n ≤ m.time.slot then some (n + 1, len (n + 1)) else none

/-- The gap of a tick is one of those in which a migration is tried: that of its apply tick and of 16 more (R171 step 5). -/
def tryIn (m : Mach) (g : Migration) (n : Tick) : Bool :=
  g.tick ≤ n && (n ≤ m.time.tick || (if m.time.tick < g.tick then 0 else g.tries + 1) ≤ 16)

/-- The marked pages of a migration can be copied in a gap, and no item of the slice runs (R171 step 4; log entry 72). -/
def mayMigrate (m : Mach) (tag : Nat) (g : Migration) : Bool :=
  g.copied && !m.cpu.cores.any (fun c => c.run.any fun r => r.tag == tag) &&
    (migrationGap m tag).any fun x => tryIn m g x.1 && g.marked.length * 65536 ≤ x.2 * 16

/-- The request whose change a switch of hue makes, as the journal carries it. -/
def huePayload (tag hue : Nat) : Bytes := fields [(1, tag), (1, 1), (2, 0), (4, hue), (8, 0)]

/-- HUE_MIGRATION_SWITCH: in the gap before the slice's first window of a tick at or after the apply tick the marked pages are copied and
the slice switches; where that cannot be done the gap of the next tick is awaited (R171 steps 4 and 5). -/
def execHueMigrationSwitch (tag : Fin 65) (s : State) : Host.Outcome State Fault Refusal :=
  runOn s fun m =>
    let t := tag.val
    match (getSlice m t).bind (·.migration) with
    | none => m
    | some g =>
      if computeReady m && mayMigrate m t g then
        guarantee (journalAdd 0x0610 (huePayload t g.hue) (migrationEvent t g.hue 0
          (onSlice t (fun s => { s with hue := g.hue, regions := withPages s.regions g.pages, migration := none }) m)))
      else m

/-- The region a SLC_RESOURCE_SET kind 2 names. -/
def resRegion (m : Mach) (p : Bytes) : Option Region := (getSlice m (resTag p)).bind fun s => s.regions[resArgA p]?

/-- Every page of a range of a region has been released (R170). -/
def allReleased (r : Region) (off n : Nat) : Bool :=
  (List.range (n / 65536)).all fun k => r.released.any fun x => x.1 ≤ off + k * 65536 && off + (k + 1) * 65536 ≤ x.1 + x.2

def slcRegion : Cmd where
  code := 0x0610
  len := resLayout 2 fun p => 0 < resArgB p && resArgB p % 65536 == 0
  right := rConfig
  journal := true
  sched := true
  check := fun m _ p =>
    let r := resRegion m p
    firstFail [
      (!sliceThere m (resTag p), 0x0201),
      (r.isNone, 0x0107),
      (r.any fun r => resArgB p < r.size && !allReleased r (resArgB p) (r.size - resArgB p), 0x0206)]
  res := fun m _ p => match getSlice m (resTag p), resRegion m p with
    | some s, some r =>
      let others := s.regions.filter fun x => x.vbase != r.vbase
      let new := { r with size := resArgB p }
      if r.size < new.size && (hueFree m s.hue < new.size - r.size || s.migration.any (fun g => hueFree m g.hue < new.size - r.size) ||
        2 ^ 40 < r.vbase + new.size || !others.all fun x => new.vbase + new.size ≤ x.vbase || x.vbase + x.size ≤ new.vbase)
      then 0x0104 else 0
    | some _, none => 0
    | none, _ => 0

/-- SLC_RESOURCE_SET kind 2 at its effective tick: an increase is filled with zeros and maps released ranges again, a
reduction removes released pages at the end (R168, R170). -/
def applyRegion (p : Bytes) (m : Mach) : Mach :=
  let t := resTag p
  let n := resArgB p
  match resRegion m p with
  | none => m
  | some r =>
    let key (o : Nat) : Nat := memKey t (r.vbase + o)
    let grow := r.size < n
    let m := onMem (fun mem =>
      if grow then r.released.foldl (fun mem x => memZero mem (key x.1) x.2) (memZero mem (key r.size) (n - r.size))
      else memZero mem (key n) (r.size - n)) m
    let left := (r.released.filter fun x => x.1 < n).map fun x => (x.1, min x.2 (n - x.1))
    let resize (h : Nat) (l : List (Nat × Nat)) : List (Nat × Nat) :=
      if grow then l ++ placePages m h m.time.tick ((n - r.size) / 65536) else (takePages l (n / 65536)).1
    onSlice t (fun s => { s with
      migration := s.migration.map fun g => { g with pages := lmod g.pages (resArgA p) (resize g.hue) }
      regions := lmod s.regions (resArgA p) fun r =>
        { r with size := n, released := if grow then [] else left, pages := resize s.hue r.pages } }) m

def slcRingAssign : Cmd where
  code := 0x0610
  len := resLayout 3 fun p => resArgB p < 16
  right := rConfig
  journal := true
  sched := true
  check := fun m _ p =>
    firstFail [
      (255 < resArgA p, 0x0107),
      (!sliceThere m (resTag p), 0x0201),
      (!ringFree m (resArgA p) || (ringAt m (resTag p) (resArgB p)).isSome, 0x020A)]

/-- SLC_RESOURCE_SET kind 3 at its effective tick. -/
def applyRingAssign (p : Bytes) : Mach → Mach := assignRing (resArgA p) (resTag p) (some (resArgB p))

def slcRingRelease : Cmd where
  code := 0x0610
  len := resLayout 4 fun p => resArgB p == 0
  right := rConfig
  journal := true
  sched := true
  check := fun m _ p =>
    firstFail [
      (!sliceThere m (resTag p), 0x0201),
      (255 < resArgA p || (getRing m (resArgA p)).owner != some (resTag p), 0x020A)]

/-- SLC_RESOURCE_SET kind 4 at its effective tick: the ring is disabled, then unassigned. -/
def applyRingRelease (p : Bytes) : Mach → Mach := releaseRing (resArgA p)

def slcShare : Cmd where
  code := 0x0610
  len := resLayout 5 fun p => resArgA p % 16384 == 0 && (-4 ≤ ofTwos 64 (resArgB p) && ofTwos 64 (resArgB p) ≤ 3)
  right := rConfig
  journal := true
  sched := true
  check := fun m _ p => if sliceThere m (resTag p) then 0 else 0x0201
  res := fun m _ p =>
    let old := ((getSlice m (resTag p)).map (·.rsv)).getD 0
    if reservesOver m (resArgA p) old then 0x0104 else 0

/-- SLC_RESOURCE_SET kind 5 at its effective tick (R169, R251). -/
def applyShare (p : Bytes) : Mach → Mach :=
  partition <| onSlice (resTag p) fun s => { s with rsv := resArgA p, alpha := ofTwos 64 (resArgB p) }

def slcReady : Cmd where
  code := 0x0610
  len := resLayout 6 fun p => resArgA p ≤ 4096 && resArgB p == 0
  right := rConfig
  journal := true
  sched := true
  check := fun m _ p =>
    let t := resTag p
    firstFail [
      (!sliceThere m t, 0x0201),
      (resArgA p < readyMin m t && resArgA p < charged m t, 0x0206)]
  res := fun m _ p =>
    let hs := ((getSlice m (resTag p)).map (·.handlers)).getD []
    if 65536 < readyOthers m (resTag p) + readyNeed hs (resArgA p) then 0x0104 else 0

/-- SLC_RESOURCE_SET kind 6 at its effective tick. -/
def applyReady (p : Bytes) : Mach → Mach := onSlice (resTag p) fun s => { s with readyMin := resArgA p }

/-- SLC_RESOURCE_SET at its effective tick, by kind; a hue change switches by an event of its own (R171). -/
def applyResource (p : Bytes) : Mach → Mach :=
  match rd 1 p 1 with
  | 2 => applyRegion p
  | 3 => applyRingAssign p
  | 4 => applyRingRelease p
  | 5 => applyShare p
  | 6 => applyReady p
  | _ => id

def slcSubSet : Cmd where
  code := 0x0611
  len := fun p => 8 ≤ p.length && zeros p 1 1 && zeros p 4 4 && p.length == 8 + 2 * rd 2 p 2
  right := rConfig
  journal := true
  sched := true
  check := fun m _ p =>
    firstFail [(!sliceThere m (rd 1 p 0), 0x0201), (chansBad (rdList 2 (rd 2 p 2) p 8), 0x020B)]
  res := fun m _ p =>
    let t := rd 1 p 0
    let l := rdList 2 (rd 2 p 2) p 8
    firstFail [(chansOver m t (((getSlice m t).map (·.nmax)).getD 0) l, 0x0104), (chansHeld m t l, 0x0105)]

/-- SLC_SUB_SET at its effective tick: the frame of that tick is the first in the new order (R138). -/
def applySubList (p : Bytes) (m : Mach) : Mach :=
  onSlice (rd 1 p 0) (fun s => { s with subsDue := s.subsDue ++ [(tickAt m m.time.tick, rdList 2 (rd 2 p 2) p 8)] }) m

/-- SLC_RIGHTS_SET with an action: 0 grant, 1 revoke. -/
def slcRights (action : Nat) : Cmd where
  code := 0x0612
  len := fun p => 8 ≤ p.length && rd 1 p 1 == action && zeros p 4 4 && rd 2 p 2 ≤ 256 && p.length == 8 + 8 * rd 2 p 2
  right := rConfig
  journal := true
  sched := true
  check := fun m _ p => if sliceThere m (rd 1 p 0) then 0 else 0x0201
  depend := fun m x _ p => if action = 0 && !spansStay m x (spansAt (rd 2 p 2) p 8) then 0x0107 else 0

/-- The spans that remain of one when the points `a` to `a + n - 1` are taken out. -/
def cutSpan (a n : Nat) (s : Nat × Nat) : List (Nat × Nat) :=
  let e := s.1 + s.2
  (if s.1 < a then [(s.1, min e a - s.1)] else []) ++ (if a + n < e then [(max s.1 (a + n), e - max s.1 (a + n))] else [])

/-- Read ranges after a grant or a revocation (R172). -/
def newReads (p : Bytes) (l : List (Nat × Nat)) : List (Nat × Nat) :=
  let spans := spansAt (rd 2 p 2) p 8
  if rd 1 p 1 = 0 then l ++ spans.filter (fun s => !l.contains s) else spans.foldl (fun l s => l.flatMap (cutSpan s.1 s.2)) l

/-- SLC_RIGHTS_SET at its effective tick (R172). -/
def applyRights (p : Bytes) : Mach → Mach := onSlice (rd 1 p 0) fun s => { s with reads := newReads p s.reads }

/-- The region of a slice that holds a range. -/
def rangeRegion (s : Slice) (va n : Nat) : Option Nat := s.regions.findIdx? fun r => r.vbase ≤ va && va + n ≤ r.vbase + r.size

def slcMemRelease : Cmd where
  code := 0x0613
  len := fun p => p.length == 16 && rd 8 p 0 % 65536 == 0 && rd 8 p 8 % 65536 == 0
  m1 := false
  roleOk := fun role _ => role.getLsbD 31
  slice := fun _ _ _ => true
  journal := true
  sched := true
  check := fun m h p =>
    if (getSlice m (boxTag h.box)).any fun s => (rangeRegion s (rd 8 p 0) (rd 8 p 8)).isSome then 0 else 0x0107

/-- SLC_MEM_RELEASE at its effective tick: the range is unmapped (R170). -/
def applyMemRelease (h : Hdr) (p : Bytes) : Mach → Mach :=
  onSlice (boxTag h.box) fun s => match rangeRegion s (rd 8 p 0) (rd 8 p 8) with
    | none => s
    | some i => { s with regions := lmod s.regions i fun r => { r with released := r.released ++ [(rd 8 p 0 - r.vbase, rd 8 p 8)] } }

-- SLC_STATUS

def slcStatus : Cmd where
  code := 0x0620
  len := fun p => layout 8 [(2, 6)] p && rd 1 p 1 < 2
  apply := false
  slice := fun _ t p => rd 1 p 0 == t
  roleOk := clearOk 1
  check := fun m _ p => if (getSlice m (rd 1 p 0)).isSome then 0 else 0x0201

/-- The parts of the guarantee that are in force: data, results, timing (R166). -/
def guaranteeBits (c : BitVec 4) : Nat :=
  let shared := c.getLsbD 0
  let waiver := c.getLsbD 1
  let mem := c.getLsbD 2
  let heat := c.getLsbD 3
  b2n (!mem) + 2 * b2n (!(shared || mem || heat)) + 4 * b2n (!(shared || waiver || mem || heat))

/-- The response of SLC_STATUS. -/
def slcStatusBytes (t : Nat) (m : Mach) : Bytes :=
  match getSlice m t with
  | none => []
  | some s =>
    fields [(1, sliceNum s), (1, s.hue), (1, s.tenant), (1, guaranteeBits s.suspended), (4, s.suspended.toNat), (8, s.image.toNat),
      (8, sliceBytes s), (4, readyNeed s.handlers s.readyMin), (4, 0)] ++ ctrBytes s.ctrs 12

/-- SLC_STATUS (R176). -/
def execSlcStatus (h : Hdr) (p : Bytes) (s : State) : Host.Outcome State Fault Refusal :=
  runOn s (runRead slcStatus h p (slcStatusBytes (rd 1 p 0))
    (fun m => when (bit (rd 1 p 1) 0) (onSlice (rd 1 p 0) fun s => { s with ctrs := ctrClear s.ctrs 12 }) m))

end Sys2Proof.Machine
end

