-- ==== Sys2Proof/Machine/Eng.lean ====
section
/-! DEFINITION. Energy metering, pulse outputs and inputs, saves, and the ENG commands (chapter 13). Where R346 to R357 fix no
order of operations, the order here is the model's (log entry 24). -/
namespace Sys2Proof.Machine
open Sys2Proof

-- What a tick measures (R346, R347)

/-- An entry that is not set. -/
def meterCfgInit : MeterCfg :=
  { flags := 0, quantum := 0, reader := 0, vch := [0xFFFF, 0xFFFF, 0xFFFF], ich := [0xFFFF, 0xFFFF, 0xFFFF], inch := 0xFFFF,
    creep := 0, istart := 0, psVmin := 0, v0Ratio := 0x3DCCCCCD, unbal := 0x3DCCCCCD, inMax := 0, ctRatio := 0x3F800000,
    vtRatio := 0x3F800000, fsKw := 0 }

def regInit : Reg := { acc := 0, wrap := 0, res := 0 }

def meterInit : Meter :=
  { cfg := meterCfgInit, regs := List.replicate 7 regInit, ctrs := [], inCreep := false, questionable := false,
    unmeasured := false, wrongSeq := false, seqTicks := 0, missNeutral := false, neutTicks := 0, past := [] }

def getMeter (m : Mach) (i : Nat) : Meter := tgetD m.eng.meters i meterInit
def onMeter (i : Nat) (f : Meter → Meter) : Mach → Mach := onEng fun e => { e with meters := tmod e.meters i meterInit f }
def meterCount (i j k : Nat) : Mach → Mach := onMeter i fun x => { x with ctrs := bumpBy x.ctrs j k }

/-- Fields of FLAGS (R344). -/
def meterOn (c : MeterCfg) : Bool := c.flags.getLsbD 0
def connection (c : MeterCfg) : Nat := bits c.flags.toNat 3 2

/-- Channels a connection uses, in the order of R345: voltages and currents, and the neutral current. -/
def voltChans (c : MeterCfg) : List Nat := c.vch.take (if connection c = 0 then 3 else if connection c = 1 then 2 else 1)
def currChans (c : MeterCfg) : List Nat := c.ich.take (if connection c = 0 then 3 else if connection c = 1 then 2 else 1)
def neutChans (c : MeterCfg) : List Nat := if c.flags.getLsbD 4 then [c.inch] else []

/-- The record of a channel for a tick as R347 reads it: SAMPLE, usable, questionable. -/
def pastRecord (m : Mach) (c : Nat) (n : Tick) : F32 × Bool × Bool :=
  match (getChan m c).recs.find? fun r => r.1 == n with
  | none => (0, false, false)
  | some r => (r.2.1, !r.2.2.getLsbD 0, r.2.2.getLsbD 1)

/-- The fine-path phasor of a channel's last record. -/
def finePhasor (m : Mach) (c : Nat) : F32 × F32 :=
  let b := (getChan m c).record
  (.ofNat 32 (rd 4 b 16), .ofNat 32 (rd 4 b 20))

/-- Instantaneous power of a tick (R346). -/
def instant (m : Mach) (pairs : List (Nat × Nat)) (n : Tick) : F32 :=
  pairs.foldl (fun a x => fma32 (pastRecord m x.1 n).1 (pastRecord m x.2 n).1 a) 0

/-- P: the mean of the instantaneous power over one cycle of f_t, the last tick weighted by the part of it that the cycle
covers (R121, R346). -/
def activePower (m : Mach) (pairs : List (Nat × Nat)) (f : F32) (rate n : Nat) : F32 :=
  let l := div32 (int32 rate) f
  let (w, wl) := splitQuot l
  let sum := (List.range w).foldl (fun a k => add32 a (instant m pairs (n - k))) 0
  let sum := if wl = 0 then sum else fma32 wl (instant m pairs (n - w)) sum
  div32 sum l

/-- How many ticks P reads before its own. -/
def windowTicks (f : F32) (rate : Nat) : Nat :=
  let (w, wl) := splitQuot (div32 (int32 rate) f)
  if wl = 0 then w - 1 else w

/-- Σ V × conj(I), real and imaginary part (R346). -/
def complexPower (m : Mach) (pairs : List (Nat × Nat)) : F32 × F32 :=
  pairs.foldl (fun a x =>
    let v := finePhasor m x.1
    let i := finePhasor m x.2
    (fma32 v.2 i.2 (fma32 v.1 i.1 a.1), fma32 (neg32 v.1) i.2 (fma32 v.2 i.1 a.2))) (0, 0)

/-- 10^10, the full scale of the engine (R348). -/
def fullScale : F32 := 0x501502F9

/-- A power clamped to the full scale, and whether it was over it; a value that is no number is free within it. -/
def clampPower (free : Nat) (v : F32) : F32 × Bool :=
  let lim (v : F32) : F32 := if lt32 fullScale v then fullScale else if lt32 v (neg32 fullScale) then neg32 fullScale else v
  if isNaN32 v then
    let u := lim (Config.freeF32 free)
    (if isNaN32 u then fullScale else u, true)
  else (lim v, lt32 fullScale v || lt32 v (neg32 fullScale))

/-- A current's fine-path magnitude lies below a level. -/
def magBelow (p : F32 × F32) (level : F32) : Bool :=
  (fdy fmt32 level.toNat).any fun l => magCmp (sqMag p.1 p.2) l == .lt

/-- The group of a point's first voltage channel, in service or not. -/
def meterGroup (m : Mach) (c : MeterCfg) : Option Group := getGroup m (chanEntry m (c.vch.getD 0 0xFFFF)).group

/-- What the engine computes of an enabled point at a tick (R346 to R348). -/
def incOf (m : Mach) (i : Nat) (c : MeterCfg) (d : AsmDue) : Inc :=
  let vs := voltChans c
  let is := currChans c
  let pairs := vs.zip is
  let f := ((meterGroup m c).map (·.ftUsed)).getD (int32 50)
  let recs := (vs ++ is).flatMap fun ch => (List.range (windowTicks f d.rate + 1)).map fun k => pastRecord m ch (d.tick - k)
  let pq := complexPower m pairs
  let sign (v : F32) : F32 := if c.flags.getLsbD 1 then neg32 v else v
  let p := clampPower m.free (sign (activePower m pairs f d.rate d.tick))
  let q := clampPower (m.free + 1) (sign pq.2)
  let s := clampPower (m.free + 2) (magOf (sqMag pq.1 pq.2))
  { point := i, usable := recs.all (·.2.1), questionable := recs.any (·.2.2), p := p.1, q := q.1, s := s.1,
    idle := is.all fun ch => magBelow (finePhasor m ch) c.istart, ovf := p.2 || q.2 || s.2 }

-- Wiring supervision (R353, R354)

/-- Complex numbers in binary64. -/
abbrev Cx := F64 × F64
def cxAdd (a b : Cx) : Cx := (add64 a.1 b.1, add64 a.2 b.2)
def cxNeg (a : Cx) : Cx := (neg64 a.1, neg64 a.2)
def cxMul (a b : Cx) : Cx := (sub64 (mul64 a.1 b.1) (mul64 a.2 b.2), add64 (mul64 a.1 b.2) (mul64 a.2 b.1))
def cxAbs (a : Cx) : F64 := sqrt64 (add64 (mul64 a.1 a.1) (mul64 a.2 a.2))
def cxOf (p : F32 × F32) : Cx := (to64 p.1, to64 p.2)

/-- e^(j2π/3) and its square. -/
def cxA : Cx := (rat64 (-1) 2, div64 (sqrt64 (int64 3)) (int64 2))
def cxA2 : Cx := (rat64 (-1) 2, neg64 (div64 (sqrt64 (int64 3)) (int64 2)))

/-- A symmetrical component of three phasors: |a + x·b + y·c| / 3. -/
def seqComp (x y a b c : Cx) : F64 := div64 (cxAbs (cxAdd a (cxAdd (cxMul x b) (cxMul y c)))) (int64 3)

/-- The three voltages of R353; none for a single-phase point. -/
def threeVolts (m : Mach) (c : MeterCfg) : Option (Cx × Cx × Cx) :=
  match connection c, (voltChans c).map fun ch => cxOf (finePhasor m ch) with
  | 0, [a, b, d] => some (a, b, d)
  | 1, [v12, v32] => some (v12, cxNeg v32, cxAdd v32 (cxNeg v12))
  | _, _ => none

/-- Whether the phase-sequence condition holds, and whether that for its end does (R353). -/
def seqCond (m : Mach) (c : MeterCfg) : Bool × Bool :=
  match threeVolts m c with
  | none => (false, false)
  | some (a, b, d) =>
    let v1 := seqComp cxA cxA2 a b d
    let v2 := seqComp cxA2 cxA a b d
    (lt64 v1 v2 && le64 (to64 c.psVmin) (add64 v1 v2), le64 v2 (mul64 (rat64 9 10) v1))

/-- Whether the missing-neutral condition holds (R354). -/
def neutCond (m : Mach) (c : MeterCfg) : Bool :=
  if connection c ≠ 0 then false
  else match threeVolts m c with
    | none => false
    | some (a, b, d) =>
      let one : Cx := (int64 1, 0)
      let v1 := seqComp cxA cxA2 a b d
      let v0 := seqComp one one a b d
      let mags := [cxAbs a, cxAbs b, cxAbs d]
      let top := mags.foldl (fun x y => if lt64 x y then y else x) 0
      let low := mags.foldl (fun x y => if lt64 y x then y else x) top
      let mean := div64 (mags.foldl add64 0) (int64 3)
      let sum := (currChans c).foldl (fun s ch => cxAdd s (cxOf (finePhasor m ch))) (0, 0)
      let i := match neutChans c with
        | ch :: _ => cxAbs (cxOf (finePhasor m ch))
        | [] => cxAbs sum
      lt64 (to64 c.v0Ratio) (div64 v0 v1) && lt64 (to64 c.unbal) (div64 (sub64 top low) mean) && le64 i (to64 c.inMax)

/-- The wrong-sequence state changes when its timer has reached 1 s (R353). -/
def seqChange (i rate : Nat) (m : Mach) : Mach :=
  let x := getMeter m i
  if rate = 0 ∨ x.seqTicks < rate then m
  else
    let on := !x.wrongSeq
    raise (if on then 0x0D01 else 0x0D02) 0 (fields [(1, i), (7, 0)]) (onMeter i (fun x => { x with wrongSeq := on, seqTicks := 0 }) m)

/-- The missing-neutral state changes when its timer has reached 2 s (R354). -/
def neutChange (i rate : Nat) (m : Mach) : Mach :=
  let x := getMeter m i
  if rate = 0 ∨ x.neutTicks < 2 * rate then m
  else
    let on := !x.missNeutral
    raise (if on then 0x0D03 else 0x0D04) 0 (fields [(1, i), (7, 0)]) (onMeter i (fun x => { x with missNeutral := on, neutTicks := 0 }) m)

/-- Both checks at a usable tick. -/
def supervise (i rate : Nat) (m : Mach) : Mach :=
  let x := getMeter m i
  let sc := seqCond m x.cfg
  let seq := if x.wrongSeq then sc.2 else sc.1
  let nc := neutCond m x.cfg
  let neut := if x.missNeutral then !nc else nc
  neutChange i rate (seqChange i rate (onMeter i (fun x => { x with
    seqTicks := if seq then x.seqTicks + 1 else 0
    neutTicks := if neut then x.neutTicks + 1 else 0 }) m))

/-- PHASE_SEQUENCE_CHANGE: the condition has held for 1 s and the state changes (R353). -/
def execPhaseSequenceChange (point : Fin 256) (s : State) : Host.Outcome State Fault Refusal :=
  runOn s fun m => if clockRuns m then seqChange point.val m.time.grid.rate m else m

/-- MISSING_NEUTRAL_CHANGE: the condition has held for 2 s and the state changes (R354). -/
def execMissingNeutralChange (point : Fin 256) (s : State) : Host.Outcome State Fault Refusal :=
  runOn s fun m => if clockRuns m then neutChange point.val m.time.grid.rate m else m

-- Accumulators (R349, R350)

/-- A quantum in Wh. -/
def quantumWh (code : Nat) : F64 :=
  if code = 0 then rat64 1 1000 else if code = 1 then rat64 1 100 else if code = 2 then rat64 1 10 else if code = 3 then int64 1 else int64 1000

/-- An increment added to a register: the whole quanta, the rest, and whether it wrapped (R350). -/
def regAdd (r : Reg) (e : F64) : Reg × Bool :=
  let t := add64 r.res e
  let w := (ffloor fmt64 t.toNat).toNat
  let wrapped := decide (2 ^ 64 ≤ r.acc.toNat + w)
  ({ acc := r.acc + .ofNat 64 w, wrap := if wrapped then r.wrap + 1 else r.wrap, res := sub64 t (int64 w) }, wrapped)

/-- Register `j` of a point takes an increment. -/
def addReg (i j : Nat) (e : F64) (m : Mach) : Mach :=
  let a := regAdd ((getMeter m i).regs.getD j regInit) e
  let m := onMeter i (fun x => { x with regs := lmod x.regs j fun _ => a.1 }) m
  if a.2 then raise 0x0D06 0 (fields [(1, i), (1, j), (6, 0)]) (meterCount i 4 1 m) else m

/-- Settings of an output that is not configured. -/
def outInit : PulseOut :=
  { cfg := { enabled := false, secondary := false, activeLow := false, point := 0, reg := 0, const := 1, width := 10 },
    store := 0, pending := [], active := false, left := 0, idle := 0, prevWidth := 0, ctrs := [] }

def getOut (m : Mach) (o : Nat) : PulseOut := tgetD m.eng.outs o outInit
def onOut (o : Nat) (f : PulseOut → PulseOut) : Mach → Mach := onEng fun e => { e with outs := tmod e.outs o outInit f }

/-- One pulse becomes pending, unless 255 are (R357). -/
def pendPulse (o wait width : Nat) (m : Mach) : Mach :=
  if 255 ≤ (getOut m o).pending.length then
    raise 0x0D09 0 (fields [(1, o), (7, 0)]) (onOut o (fun x => { x with ctrs := bump x.ctrs 2 }) m)
  else onOut o (fun x => { x with pending := x.pending ++ [(wait, width)] }) m

/-- The tick boundaries from now on to the start of a pulse of a batch, T(n + d) (R357); after a grid restart, to the first boundary of the
new grid at or after that instant (log entry 24). -/
def pulseWait (b : IncBatch) (m : Mach) : Nat :=
  let n := b.tick + 1 + (b.hold + 10000) / max 1 b.len
  if b.grid == m.time.grid then n - m.time.tick
  else
    let t := tickStart b.grid n
    let k := tickOf m.time.grid t
    (if tickStart m.time.grid k < t then k + 1 else k) - m.time.tick

/-- The store of an output grows by a register's increment (R356, R357). -/
def feedOut (o : Nat) (c : MeterCfg) (b : IncBatch) (e : F64) (m : Mach) : Mach :=
  let x := getOut m o
  let g := div64 (mul64 (mul64 e (quantumWh c.quantum)) (int64 x.cfg.const)) (int64 1000)
  let g := if x.cfg.secondary then div64 g (mul64 (to64 c.ctRatio) (to64 c.vtRatio)) else g
  let store := add64 x.store g
  let whole := (ffloor fmt64 store.toNat).toNat
  let f := div64 (mul64 g (int64 nsPerSec)) (int64 b.len)
  let np := div64 (int64 b.rate) f
  let half := max 1 (ffloor fmt64 (div64 np (int64 2)).toNat).toNat
  let width := min (msTicks x.cfg.width b.rate) half
  let m := onOut o (fun x => { x with store := sub64 store (int64 whole) }) m
  forEach (List.range whole) (fun _ => pendPulse o (pulseWait b m) width) m

/-- One register of a point takes an increment, and the outputs driven from it with it. -/
def takeInc (i j : Nat) (b : IncBatch) (e : F64) (m : Mach) : Mach :=
  let c := (getMeter m i).cfg
  let outs := (m.eng.outs.filter fun x => x.2.cfg.enabled && x.2.cfg.point == i && x.2.cfg.reg == j).map (·.1)
  forEach outs (fun o => feedOut o c b e) (addReg i j e m)

/-- The increments of a tick applied to one point (R350, R352). -/
def applyInc (b : IncBatch) (x : Inc) (m : Mach) : Mach :=
  let i := x.point
  let c := (getMeter m i).cfg
  let m := if x.ovf && x.usable then raise 0x0D0A 0 (fields [(1, i), (7, 0)]) (meterCount i 3 1 m) else m
  let creep := x.usable && lt32 (.ofNat 32 (fabs fmt32 x.p.toNat)) c.creep && x.idle
  let m := onMeter i (fun y => { y with
    unmeasured := !x.usable, questionable := x.usable && x.questionable, inCreep := creep }) m
  if !x.usable then meterCount i 0 b.len m
  else
    let m := if x.questionable then meterCount i 1 b.len m else m
    if creep then meterCount i 2 b.len m
    else
      let scale := div64 (int64 b.len) (mul64 (int64 3600000000000) (quantumWh c.quantum))
      let part (v : F32) : F64 := mul64 (abs64 (to64 v)) scale
      let up := le32 0 x.p
      let quad := if up then (if le32 0 x.q then 1 else 4) else (if le32 0 x.q then 2 else 3)
      takeInc i 6 b (part x.s) (takeInc i (quad + 1) b (part x.q) (takeInc i (if up then 0 else 1) b (part x.p) m))

/-- The outage ends with the first increments after start: it counts as unmeasured time of every enabled point (R363). -/
def endOutage (b : IncBatch) (m : Mach) : Mach :=
  match m.eng.outage with
  | none => m
  | some t =>
    if b.incs.isEmpty then m
    else
      let m := forEach (m.eng.meters.filter fun e => meterOn e.2.cfg) (fun e => meterCount e.1 0 (b.t - t)) m
      onEng (fun e => { e with outage := none }) m

/-- The registers of every point are kept as they stand after the increments of a tick (R426). -/
def keepPast (n : Tick) : Mach → Mach :=
  onEng fun e => { e with meters := tmap e.meters fun _ x => { x with past := ((n, x.regs) :: x.past).take 8 } }

/-- A tick's increments applied to every point at one instant (R350). -/
def applyBatch (b : IncBatch) (m : Mach) : Mach :=
  let m := onEng (fun e => { e with tick := b.tick }) (endOutage b m)
  keepPast b.tick (forEach b.incs (applyInc b) m)

/-- The umber domain applies the increments of the oldest tick that waits. -/
def applyIncs (m : Mach) : Mach :=
  match m.eng.incs with
  | [] => m
  | b :: r =>
    let m := onEng (fun e => { e with incs := r }) m
    if umberRuns m then applyBatch b m else m

/-- ENERGY_INCREMENT_APPLY (R350). -/
def execEnergyIncrementApply (s : State) : Host.Outcome State Fault Refusal := runOn s applyIncs

-- Changes that count from a tick's increments on

/-- A register or a quantum set anew (R349, ENG_PRESET). -/
def presetReg (i j w acc : Nat) (m : Mach) : Mach :=
  let r := (getMeter m i).regs.getD j regInit
  let m := onMeter i (fun x => { x with regs := lmod x.regs j fun _ => { acc := .ofNat 64 acc, wrap := .ofNat 16 w, res := 0 } }) m
  raise 0x0D07 0 (fields [(1, 0), (1, i), (1, j), (1, 0), (2, r.wrap.toNat), (2, w), (8, r.acc.toNat), (8, acc)]) m

/-- A point takes an entry: a new quantum clears its registers; enabling and a new quantum end both supervision states (R349,
R354). -/
def putMeter (i : Nat) (c : MeterCfg) (m : Mach) : Mach :=
  let old := getMeter m i
  let quant := old.cfg.quantum != c.quantum
  let clear := quant || (meterOn c && !meterOn old.cfg)
  let m := onMeter i (fun x => { x with
    cfg := c
    regs := if quant then List.replicate 7 regInit else x.regs
    wrongSeq := x.wrongSeq && !clear
    seqTicks := if clear then 0 else x.seqTicks
    missNeutral := x.missNeutral && !clear
    neutTicks := if clear then 0 else x.neutTicks }) m
  if quant then raise 0x0D07 0 (fields [(1, 2), (1, i), (2, 0), (2, old.cfg.quantum), (2, c.quantum)]) m else m

/-- An output takes its settings; pending pulses are discarded and counted when it is disabled (R358). -/
def putOut (o : Nat) (c : OutCfg) : Mach → Mach :=
  onOut o fun x => { x with
    cfg := c
    pending := if c.enabled then x.pending else []
    ctrs := if c.enabled then x.ctrs else bumpBy x.ctrs 1 x.pending.length }

def putDue : EngDue → Mach → Mach
  | .point i c => putMeter i c
  | .out o c => putOut o c
  | .preset i j w acc => presetReg i j w acc

/-- A change waits for the increments of the present tick, or is made at once while none come. -/
def engChange (x : EngDue) (m : Mach) : Mach :=
  if clockRuns m && m.time.gridOn then onEng (fun e => { e with due := e.due ++ [(tickAt m m.time.tick, x)] }) m else putDue x m

/-- The energy engine at D(n): what waits of earlier ticks is applied, changes effective by tick n are made, and the
increments of tick n set out (R350). -/
def energyTick (d : AsmDue) (restarted : Bool) (m : Mach) : Mach :=
  let m := forEach (List.range m.eng.incs.length) (fun _ => applyIncs) m
  let due := m.eng.due.takeWhile fun x => x.1 ≤ d.t
  let m := forEach due (fun x => putDue x.2) (onEng (fun e => { e with due := e.due.drop due.length }) m)
  let m := if restarted then
      onEng (fun e => { e with meters := tmap e.meters fun _ x =>
        { x with wrongSeq := false, seqTicks := 0, missNeutral := false, neutTicks := 0 } }) m
    else m
  let on := m.eng.meters.filter fun e => meterOn e.2.cfg
  let incs := on.map fun e => incOf m e.1 e.2.cfg d
  let m := if incs.isEmpty then m else { m with free := m.free + 3 }
  let m := forEach (incs.filter (·.usable)) (fun x => supervise x.point d.rate) m
  let b : IncBatch := { tick := d.tick, t := d.t, len := d.len, rate := d.rate, hold := d.d - d.t, grid := d.grid, incs := incs }
  onEng (fun e => { e with incs := e.incs ++ [b] }) m

-- Pulse outputs at tick boundaries (R357, R358)

/-- The pulse at the head may start: its tick has come, the output is inactive and has been for the width of the previous
pulse; on the standby of a pair, and before the output is configured, no output is driven (R358). -/
def pulseReady (m : Mach) (x : PulseOut) : Bool :=
  x.cfg.enabled && !umberMuted m && !x.active && x.prevWidth ≤ x.idle && (x.pending.head?.any fun p => p.1 == 0)

/-- A pulse starts. -/
def startPulse (o : Nat) (m : Mach) : Mach :=
  let x := getOut m o
  if !pulseReady m x then m
  else match x.pending with
    | [] => m
    | p :: r => onOut o (fun x => { x with active := true, left := p.2, prevWidth := p.2, pending := r, ctrs := bump x.ctrs 0 }) m

/-- An output at a tick boundary. -/
def outBoundary (o : Nat) (m : Mach) : Mach :=
  let x := getOut m o
  let m := if x.active then
      (if x.left ≤ 1 then onOut o (fun x => { x with active := false, left := 0, idle := 0 }) m else onOut o (fun x => { x with left := x.left - 1 }) m)
    else onOut o (fun x => { x with idle := x.idle + 1 }) m
  startPulse o (onOut o (fun x => { x with pending := x.pending.map fun p => (p.1 - 1, p.2) }) m)

/-- Every output at a tick boundary. -/
def outsBoundary (m : Mach) : Mach := forEach (m.eng.outs.map (·.1)) outBoundary m

/-- PULSE_OUT_START: a pending pulse whose tick has come starts (R357). -/
def execPulseOutStart (out : Fin 16) (s : State) : Host.Outcome State Fault Refusal :=
  runOn s fun m => if umberRuns m then startPulse out.val m else m

/-- PULSE_OUT_END: the pulse in progress has lasted its width; while the fabric runs that is at a tick boundary, and otherwise
the umber domain ends it (R357, R358). -/
def execPulseOutEnd (out : Fin 16) (s : State) : Host.Outcome State Fault Refusal :=
  runOn s fun m =>
    if !umberRuns m || (clockRuns m && 1 < (getOut m out.val).left) then m
    else onOut out.val (fun x => if x.active then { x with active := false, left := 0, idle := 0 } else x) m

-- Pulse inputs (R359)

def inInit : PulseIn := { enabled := false, falling := false, invert := false, debounce := 1, level := false, pin := false, counter := 0, last := 0 }
def getIn (m : Mach) (i : Nat) : PulseIn := tgetD m.eng.ins i inInit
def onIn (i : Nat) (f : PulseIn → PulseIn) : Mach → Mach := onEng fun e => { e with ins := tmod e.ins i inInit f }

/-- PULSE_IN_EDGE: 10 × D consecutive samples of the pin, inverted where that is set, agree with a new level, which is accepted; a
transition of the counted edge counts from its first agreeing sample (R359). Without VIO the inputs are held (R516). -/
def execPulseInEdge (inp : Fin 16) (s : State) : Host.Outcome State Fault Refusal :=
  runOn s fun m =>
    let x := getIn m inp.val
    if !umberRuns m || !m.dom.vio || !x.enabled then m
    else
      let level := !x.level
      let counts := level != x.falling
      let t := eventTime m - (10 * x.debounce - 1) * 100000
      onIn inp.val (fun x => { x with
        level := level
        pin := level != x.invert
        counter := if counts then x.counter + 1 else x.counter
        last := if counts then t else x.last }) m

-- Saves (R360 to R363)

/-- A table's entries as bytes, each with its number. -/
def tabBytes {α : Type} (t : Tab α) (f : α → Bytes) : Bytes := le 2 t.length ++ t.flatMap fun e => le 4 e.1 ++ f e.2

/-- The contents of a slot under its digest, in the order of R360; the layout is the model's (log entry 79). -/
def saveBytes (v : Save) : Bytes :=
  fields [(8, v.seq.toNat), (8, v.time / nsPerSec), (4, v.time % nsPerSec), (1, b2n v.atFail), (8, v.tick)] ++
  tabBytes v.meters (fun x => [.ofNat 8 x.quantum] ++
    (x.regs.flatMap fun r => fields [(8, r.acc.toNat), (2, r.wrap.toNat), (8, r.res.toNat)]) ++ ctrBytes x.ctrs 5) ++
  tabBytes v.outs (fun x => le 8 x.store.toNat ++ le 2 x.pending.length ++ (x.pending.flatMap fun p => fields [(8, p.1), (4, p.2)]) ++
    ctrBytes x.ctrs 3) ++
  tabBytes v.ins (fun x => fields [(8, x.1.toNat), (8, x.2 / nsPerSec), (4, x.2 % nsPerSec)])

/-- A slot verifies: its digest is that of its contents (R360, R361). -/
def saveOk (v : Save) : Bool := v.digest == shake256 (saveBytes v)

/-- The saved state of R360 as it stands; its digest is written last. -/
def saveNow (atFail : Bool) (m : Mach) : Save :=
  let v : Save :=
    { seq := m.eng.saveSeq + 1, time := eventTime m, atFail := atFail, digest := [],
      meters := tmap m.eng.meters fun _ x => { quantum := x.cfg.quantum, regs := x.regs, ctrs := x.ctrs },
      outs := tmap m.eng.outs fun _ x => { store := x.store, pending := x.pending, ctrs := x.ctrs },
      ins := tmap m.eng.ins fun _ x => (x.counter, x.last), tick := m.eng.tick }
  { v with digest := shake256 (saveBytes v) }

/-- A save written into the slot whose turn it is. -/
def writeSave (atFail : Bool) (m : Mach) : Mach :=
  let v := saveNow atFail m
  onEng (fun e => { e with
    slots := tset e.slots (v.seq.toNat % 2) v
    saveSeq := v.seq
    savedSec := eventTime m / nsPerSec }) m

/-- The clock, or the RTC while it does not run, reaches an instant; how many cycles that takes of a free-running RTC is within its
tolerance (R42). -/
def reachTime (t : Ns) (m : Mach) : Mach :=
  if clockRuns m then advanceTo t m
  else
    let left := t - m.time.rtc
    let k := (Int.ofNat (cdiv left 2) + rtcDeviation m.free left).toNat
    { m with free := m.free + 1, time := { m.time with ref := m.time.ref + k, rtc := max m.time.rtc t } }

/-- Retentive logic state and GOOSE numbering saved to MRAM (R233, R330, R384). -/
def saveRetained (m : Mach) : Mach := onLge (fun l => { l with savedRet := l.retained }) m
def saveNums (m : Mach) : Mach := onSig (fun g => { g with savedNums := g.nums }) m
def saveRtc (m : Mach) : Mach := onTime (fun t => { t with rtcSaved := t.rtc }) m

/-- What goes to MRAM with each save of energy state: the umber counters (R388) with it. -/
def saveEnergy (atFail : Bool) (m : Mach) : Mach := onUmb (fun u => { u with savedCtrs := u.ctrs }) (writeSave atFail m)

/-- What a periodic save writes: energy, retentive state, numbering, role and epoch, and the RTC (R42, R360, R384, R412). -/
def periodicSave (m : Mach) : Mach :=
  let m := saveRtc (saveNums (saveRetained (saveEnergy false m)))
  onTwn (fun t => { t with savedRole := t.role, savedEpoch := t.epoch }) m

/-- PERIODIC_SAVE: at a second boundary of the clock (R360). -/
def execPeriodicSave (s : State) : Host.Outcome State Fault Refusal :=
  runOn s fun m =>
    if !umberRuns m || m.umb.halted then m
    else periodicSave (if eventTime m / nsPerSec ≤ m.eng.savedSec then reachTime ((m.eng.savedSec + 1) * nsPerSec) m else m)

/-- The save that counts: the highest sequence number of a slot that verifies. -/
def bestSave (m : Mach) : Option Save :=
  (m.eng.slots.filter fun e => saveOk e.2).foldl (fun b e => match b with
    | none => some e.2
    | some x => if x.seq.toNat < e.2.seq.toNat then some e.2 else b) none

/-- Event 0x0D05 of a start: the save restored, the detection stamp, and the unmeasured time before it, none where HOLD was present
(R363). With no slot that verifies, the fields of the save are zero (log entry 79). -/
def gapEvent (m : Mach) : Mach :=
  let v := bestSave m
  let time := (v.map (·.time)).getD 0
  let atFail := v.any (·.atFail)
  let st := m.eng.stamp.map (·.1)
  let gap := if atFail || v.isNone then 0 else (st.getD time - time) / 1000000
  raise 0x0D05 0 (fields [(8, time / nsPerSec), (4, time % nsPerSec), (8, (st.getD 0) / nsPerSec), (4, (st.getD 0) % nsPerSec),
    (1, b2n atFail), (3, 0), (4, gap)]) m

/-- The first start with the umber domain kept raises the event too, once for a stamp (R387; log entry 79). -/
def gapKept (m : Mach) : Mach :=
  if m.eng.stamp.isSome then onEng (fun e => { e with stamp := none }) (gapEvent m) else m

/-- Start of the umber domain: registers, stores and counters as restored, with events 0x0D08 and 0x0D05 (R361, R363; log entry 79). -/
def restoreEnergy (m : Mach) : Mach :=
  let bad := m.eng.slots.filter fun e => !saveOk e.2
  let m := forEach bad (fun e => raise 0x0D08 0 (fields [(1, e.1), (7, 0)])) m
  match bestSave m with
  | none =>
    let m := gapEvent (raise 0x0D08 0 (fields [(1, 0xFF), (7, 0)]) m)
    onEng (fun e => { engReset with slots := e.slots, saveSeq := e.saveSeq, outage := e.stamp.map (·.1) }) m
  | some v =>
    let st := (m.eng.stamp).map (·.1)
    let m := gapEvent m
    onEng (fun e => { engReset with
      meters := tmap v.meters fun _ x => { meterInit with cfg := { meterCfgInit with quantum := x.quantum }, regs := x.regs, ctrs := x.ctrs }
      outs := tmap v.outs fun _ x => { outInit with store := x.store, pending := x.pending, ctrs := x.ctrs }
      ins := tmap v.ins fun _ x => { inInit with counter := x.1, last := x.2 }
      tick := v.tick
      slots := e.slots
      saveSeq := v.seq
      savedSec := v.time / nsPerSec
      outage := st }) m

-- Commands

/-- The 64-byte entry of R344. -/
def meterCfgAt (p : Bytes) (o : Nat) : MeterCfg :=
  let f (k : Nat) : F32 := .ofNat 32 (rd 4 p (o + k))
  { flags := .ofNat 8 (rd 1 p o), quantum := rd 1 p (o + 1), reader := rd 1 p (o + 2), vch := rdList 2 3 p (o + 4),
    ich := rdList 2 3 p (o + 10), inch := rd 2 p (o + 16), creep := f 20, istart := f 24, psVmin := f 28, v0Ratio := f 32,
    unbal := f 36, inMax := f 40, ctRatio := f 44, vtRatio := f 48, fsKw := f 52 }

/-- The settings of a point with every change that waits. -/
def meterCfgOf (m : Mach) (i : Nat) : MeterCfg :=
  m.eng.due.foldl (fun c x => match x.2 with
    | .point j d => if j = i then d else c
    | .out _ _ => c
    | .preset _ _ _ _ => c) (getMeter m i).cfg

/-- Connection, channel kinds and groups obey R345; that the groups are enabled is asked of an enabled point (log entry 24). -/
def meterWired (m : Mach) (c : MeterCfg) : Bool :=
  let k := connection c
  let used := voltChans c ++ currChans c ++ neutChans c
  let unused := (c.vch.drop (voltChans c).length) ++ (c.ich.drop (currChans c).length)
  let groups := used.map fun ch => getGroup m (chanEntry m ch).group
  k != 3 && unused.all (· == 0xFFFF) && used.all (· < 12288) && (voltChans c).all (fun ch => (chanEntry m ch).kind == 1) &&
  (currChans c ++ neutChans c).all (fun ch => (chanEntry m ch).kind == 0) &&
  (!meterOn c || groups.all fun g => g.any (·.enabled)) &&
  ((groups.filterMap fun g => g.map fun g => (estSettings g).nomf).eraseDups).length ≤ 1

def engPointSet : Cmd where
  code := 0x0D01
  len := fun p => layout 72 [(1, 7), (11, 1), (26, 2), (64, 8)] p && rd 1 p 8 < 32 && rd 1 p 9 < 5
  right := rConfig
  journal := true
  sched := true
  check := fun m _ p =>
    let c := meterCfgAt p 8
    let old := meterCfgOf m (rd 1 p 0)
    let pos (v : F32) : Bool := fin32 v && lt32 0 v
    firstFail [
      (!meterWired m c, 0x0201),
      (!List.all [c.creep, c.istart, c.psVmin, c.v0Ratio, c.unbal, c.inMax] finNonneg || !List.all [c.ctRatio, c.vtRatio, c.fsKw] pos, 0x0202),
      (meterOn old && old.quantum != c.quantum, 0x0203)]

/-- ENG_POINT_SET at its effective tick: it counts from that tick's increments on. -/
def applyPointSet (p : Bytes) (m : Mach) : Mach := engChange (.point (rd 1 p 0) (meterCfgAt p 8)) m

/-- The settings a request asks of an output. -/
def outCfgAt (p : Bytes) : OutCfg :=
  let f := rd 1 p 1
  { enabled := bit f 0, secondary := bit f 1, activeLow := bit f 2, point := rd 1 p 2, reg := rd 1 p 3, const := rd 4 p 4, width := rd 1 p 8 }

/-- The settings of an output with every change that waits. -/
def outCfgOf (m : Mach) (o : Nat) : OutCfg :=
  m.eng.due.foldl (fun c x => match x.2 with
    | .out j d => if j = o then d else c
    | .point _ _ => c
    | .preset _ _ _ _ => c) (getOut m o).cfg

/-- A product of binary32 numbers, exactly: m * 2^e. -/
def dyProd (l : List F32) : Int × Int :=
  l.foldl (fun a v => match fdy fmt32 v.toNat with
    | some d => (a.1 * d.1, a.2 + d.2)
    | none => a) (1, 0)

/-- The frequency at full scale exceeds r / 4 Hz (R355). -/
def tooFast (m : Mach) (rate : Nat) (x : OutCfg) : Bool :=
  let c := meterCfgOf m x.point
  let num := dyProd [c.fsKw]
  let den := if x.secondary then dyProd [c.ctRatio, c.vtRatio] else (1, 0)
  dyCmp (den.1 * 900 * rate, den.2) (num.1 * x.const, num.2) == .lt

def engPulseOutSet : Cmd where
  code := 0x0D02
  len := fun p => layout 16 [(9, 7)] p && rd 1 p 1 < 8
  right := rConfig
  journal := true
  sched := true
  check := fun m _ p =>
    let x := outCfgAt p
    firstFail [
      (15 < rd 1 p 0 || 6 < x.reg, 0x0200),
      (x.const = 0 || 100000 < x.const || x.width < 10 || 100 < x.width, 0x0204),
      (tooFast m m.time.grid.rate x, 0x0205)]

/-- ENG_PULSE_OUT_SET at its effective tick. -/
def applyPulseOut (p : Bytes) (m : Mach) : Mach := engChange (.out (rd 1 p 0) (outCfgAt p)) m

def engPulseInSet : Cmd where
  code := 0x0D03
  len := fun p => layout 8 [(3, 5)] p && rd 1 p 1 < 8
  right := rConfig
  journal := true
  sched := true
  check := fun _ _ p => firstFail [(15 < rd 1 p 0, 0x0200), (rd 1 p 2 = 0, 0x0204)]

/-- ENG_PULSE_IN_SET at its effective tick; disabling keeps the counter. -/
def applyPulseIn (p : Bytes) : Mach → Mach :=
  onIn (rd 1 p 0) fun x => { x with
    enabled := bit (rd 1 p 1) 0, falling := bit (rd 1 p 1) 1, invert := bit (rd 1 p 1) 2, debounce := rd 1 p 2 }

/-- ENG_PRESET of a target: 0 register, 1 pulse input. -/
def engPreset (target : Nat) : Cmd where
  code := 0x0D04
  len := fun p => layout 16 [(3, 1), (6, 2)] p && rd 1 p 0 == target && (target == 0 || (rd 1 p 2 == 0 && rd 2 p 4 == 0))
  right := rConfig
  m2 := true
  sched := true
  check := fun _ _ p => if (if target = 0 then 6 < rd 1 p 2 else 15 < rd 1 p 1) then 0x0200 else 0

/-- ENG_PRESET at its effective tick, before that tick's increments. -/
def applyPreset (p : Bytes) (m : Mach) : Mach :=
  if rd 1 p 0 = 0 then engChange (.preset (rd 1 p 1) (rd 1 p 2) (rd 2 p 4) (rd 8 p 8)) m
  else
    let x := getIn m (rd 1 p 1)
    raise 0x0D07 0 (fields [(1, 1), (1, rd 1 p 1), (6, 0), (8, x.counter.toNat), (8, rd 8 p 8)])
      (onIn (rd 1 p 1) (fun x => { x with counter := .ofNat 64 (rd 8 p 8) }) m)

def engRead : Cmd where
  code := 0x0D10
  len := fun p => layout 8 [(2, 6)] p && rd 1 p 1 < 2
  apply := false
  slice := fun _ _ _ => true
  roleOk := clearOk 1
  check := fun m h p => if boxTag h.box != 0 && (meterCfgOf m (rd 1 p 0)).reader != boxTag h.box then 0x0206 else 0

/-- The response of ENG_READ (R351). -/
def engReadBytes (i : Nat) (m : Mach) : Bytes :=
  let x := getMeter m i
  fields [(1, b2n (meterOn x.cfg) + 2 * b2n x.inCreep + 4 * b2n x.wrongSeq + 8 * b2n x.missNeutral + 16 * b2n x.questionable +
      32 * b2n x.unmeasured), (1, x.cfg.quantum), (6, 0), (8, m.eng.tick)] ++
    (x.regs.flatMap fun r => fields [(8, r.acc.toNat), (2, r.wrap.toNat), (6, 0)]) ++ ctrBytes x.ctrs 5

/-- ENG_READ. -/
def execEngRead (h : Hdr) (p : Bytes) (s : State) : Host.Outcome State Fault Refusal :=
  runOn s (runRead engRead h p (engReadBytes (rd 1 p 0))
    (fun m => when (bit (rd 1 p 1) 0) (onMeter (rd 1 p 0) fun x => { x with ctrs := ctrClear x.ctrs 5 }) m))

def engIoRead : Cmd where
  code := 0x0D11
  len := fun p => p.isEmpty
  apply := false

/-- The response of ENG_IO_READ. -/
def engIoBytes (m : Mach) : Bytes :=
  ((List.range 16).flatMap fun i =>
    let x := getIn m i
    fields [(8, x.counter.toNat), (8, x.last / nsPerSec), (4, x.last % nsPerSec), (4, b2n x.enabled + 2 * b2n x.level)]) ++
  (List.range 16).flatMap fun o =>
    let x := getOut m o
    fields [(2, x.pending.length), (1, b2n x.active + 2 * b2n x.cfg.enabled), (1, 0)] ++ ctrBytes x.ctrs 3

/-- ENG_IO_READ. -/
def execEngIoRead (h : Hdr) (p : Bytes) (s : State) : Host.Outcome State Fault Refusal :=
  runOn s (runRead engIoRead h p engIoBytes id)

end Sys2Proof.Machine
end

