-- ==== Sys2Proof/Machine/Evr.lean ====
section
/-! DEFINITION. The event recorder: staging and its rate limits, the flushes, the image, the event window (chapter 15). -/
namespace Sys2Proof.Machine
open Sys2Proof

/-- Counter `i` of EVR_INFO advanced by `k`. -/
def evrCount (i k : Nat) : Mach → Mach := onEvr fun e => { e with ctrs := bumpBy e.ctrs i k }

/-- The rate-limit entry of a code (R405). -/
def codeInit : CodeEnt := { rate := 10000, burst := 20, pub := false }
def codeEnt (m : Mach) (code : Nat) : CodeEnt := tgetD m.evr.codes code codeInit

/-- A bucket's tokens now, in units of 10^-12: RATE per 1000 s on the umber domain's own base, up to BURST (R405). -/
def tokensNow (m : Mach) (code : Nat) : Nat :=
  let c := codeEnt m code
  match tget m.evr.buckets code with
  | none => c.burst * 10 ^ 12
  | some b => min (c.burst * 10 ^ 12) (b.tokens + 2 * c.rate * (m.time.ref - b.ref))

/-- Staging, and the event space of MRAM, in records (R395). -/
def stagingSize : Nat := 16384
def mramSize : Nat := 65536

/-- A record takes the next sequence number and stands in staging (R394). -/
def enterStaging (ev : Raised) (sev : Nat) (pub : Bool) (m : Mach) : Mach :=
  let n := m.evr.nextSeq
  let r : Rec := { seq := n, ev := ev, severity := sev, pub := pub, commit := true, tail := .ofNat 32 n }
  evrCount 0 1 (onEvr (fun e => { e with staging := e.staging ++ [r], nextSeq := n + 1 }) m)

/-- A record the recorder itself makes. -/
def ownEvent (m : Mach) (code tag : Nat) (payload : Bytes) : Raised :=
  { code := code, tag := tag, time := eventTime m, tq := timeQuality m.time, payload := payload }

/-- Seconds and nanoseconds of an instant, 8 and 4 bytes. -/
def timeFields (t : Ns) : List (Nat × Nat) := [(8, t / nsPerSec), (4, t % nsPerSec)]

/-- Record 0x0F03 staged as soon as staging has space after a loss (R396). -/
def payLost (m : Mach) : Mach :=
  match m.evr.lost with
  | none => m
  | some l =>
    if m.evr.staging.length < stagingSize then
      enterStaging (ownEvent m 0x0F03 0 (fields ([(8, l.count)] ++ timeFields l.first ++ timeFields l.last))) 2
        (codeEnt m 0x0F03).pub (onEvr (fun e => { e with lost := none }) m)
    else m

/-- The next sequence number and counters 0 to 4 saved to MRAM, as with each flush (R394, R408). -/
def saveRecorder : Mach → Mach := onEvr fun e => { e with savedSeq := e.nextSeq, savedCtrs := terase e.ctrs 5 }

/-- Staged records moved to the event space of MRAM, as many as it has room for (R395). -/
def flushStaging (m : Mach) : Mach :=
  let k := min m.evr.staging.length (mramSize - m.evr.mram.length)
  saveRecorder (if k = 0 then m
    else payLost (evrCount 4 1 (onEvr (fun e => { e with mram := e.mram ++ e.staging.take k, staging := e.staging.drop k }) m)))

/-- A record enters staging, or is lost where there is no room; 8192 records start a flush (R395, R396). -/
def stageRecord (ev : Raised) (sev : Nat) (pub : Bool) (m : Mach) : Mach :=
  let m := payLost m
  if m.evr.staging.length < stagingSize then
    let m := enterStaging ev sev pub m
    if 8192 ≤ m.evr.staging.length then flushStaging m else m
  else
    let l := match m.evr.lost with
      | none => { count := 1, first := ev.time, last := ev.time }
      | some l => { l with count := l.count + 1, last := ev.time }
    evrCount 2 1 (onEvr (fun e => { e with lost := some l }) m)

/-- The summary of a code's suppression staged, which ends it (R406). -/
def stageSummary (code : Nat) (m : Mach) : Mach :=
  match tget m.evr.suppr code with
  | none => m
  | some x =>
    let m := onEvr (fun e => { e with suppr := terase e.suppr code }) m
    let ev := ownEvent m 0x0F02 x.tag (fields ([(2, code), (2, 0), (4, x.count)] ++ timeFields x.first ++ timeFields x.last))
    stageRecord ev x.severity ((codeEnt m code).pub && x.tag == 0) m

/-- A code's bucket gives one of its `t` tokens to a record that enters staging (R405). -/
def takeToken (code t : Nat) (m : Mach) : Mach :=
  onEvr (fun e => { e with buckets := tset e.buckets code { tokens := t - 10 ^ 12, ref := m.time.ref } }) m

/-- A record that has reached the umber domain is rate-limited and staged (R394, R405, R406). -/
def arrive (ev : Raised) (m : Mach) : Mach :=
  let c := codeEnt m ev.code
  let pub := c.pub && ev.tag == 0
  if neverSuppressed ev.code then stageRecord ev (severity ev.code) pub m
  else
    let t := tokensNow m ev.code
    if 10 ^ 12 ≤ t then
      let m := payLost (stageSummary ev.code m)
      stageRecord ev (severity ev.code) pub (when (decide (m.evr.staging.length < stagingSize)) (takeToken ev.code t) m)
    else
      let x := match tget m.evr.suppr ev.code with
        | none => { count := 1, first := ev.time, last := ev.time, tag := ev.tag, severity := severity ev.code }
        | some x => { x with count := x.count + 1, last := ev.time, tag := ev.tag, severity := severity ev.code }
      evrCount 1 1 (onEvr (fun e => { e with suppr := tset e.suppr ev.code x }) m)

/-- The oldest record on its way reaches the umber domain. -/
def arriveNext (m : Mach) : Mach :=
  match m.evr.arrivals with
  | [] => m
  | ev :: rest => arrive ev (onEvr (fun e => { e with arrivals := rest }) m)

/-- Every record on its way has reached the umber domain. -/
def arriveAll (m : Mach) : Mach := (List.range m.evr.arrivals.length).foldl (fun m _ => arriveNext m) m

/-- The umber domain takes records: it runs and has not halted. -/
def recorderRuns (m : Mach) : Bool := umberRuns m && !m.umb.halted

/-- EVENT_RECORD_STAGE: the oldest record on its way reaches the umber domain (R394). -/
def execEventRecordStage (s : State) : Host.Outcome State Fault Refusal :=
  runOn s fun m => if recorderRuns m then arriveNext m else m

/-- SUPPRESSION_SUMMARY: the bucket of a suppressed code becomes full (R406). -/
def execSuppressionSummary (code : BitVec 16) (s : State) : Host.Outcome State Fault Refusal :=
  runOn s fun m =>
    if !recorderRuns m || (tget m.evr.suppr code.toNat).isNone then m
    else
      let c := codeEnt m code.toNat
      let left := c.burst * 10 ^ 12 - tokensNow m code.toNat
      stageSummary code.toNat (passCycles (cdiv left (2 * c.rate)) m)

/-- STAGING_FLUSH: the staged records become durable (R395). -/
def execStagingFlush (s : State) : Host.Outcome State Fault Refusal :=
  runOn s fun m => if recorderRuns m then flushStaging m else m

-- Areas (R399)

/-- N: the newest sequence number in the image. -/
def newestSeq (m : Mach) : Nat := (m.evr.image.getLast?.map (·.seq)).getD 0

/-- A sequence number lies in an area, of which N is the newest: 1 permanent, 0 circulating. -/
def inArea (f n : Nat) (perm : Bool) (seq : Nat) : Bool :=
  f ≤ seq && (if perm then seq ≤ f + 65535 else n < seq + 4194304)

/-- Records that neither area holds any more are dropped. -/
def keepAreas (f n : Nat) (l : List Rec) : List Rec := l.filter fun r => inArea f n true r.seq || inArea f n false r.seq

/-- A slice sees its own records and public ones of the system; a session (tag 0) every record. -/
def recVisible (tag : Nat) (r : Rec) : Bool := tag == 0 || r.ev.tag == tag || (r.ev.tag == 0 && r.pub)

/-- The records of an area that an issuer sees, in order of SEQ. -/
def areaRecords (m : Mach) (tag : Nat) (perm : Bool) : List Rec :=
  m.evr.image.filter fun r => inArea m.evr.clearSeq (newestSeq m) perm r.seq && recVisible tag r

/-- EVENT_FLASH_MOVE: the CP moves the oldest records from MRAM to flash and frees their space (R395). -/
def execEventFlashMove (n : Nat) (s : State) : Host.Outcome State Fault Refusal :=
  runOn s fun m =>
    if !controlRuns m || !recorderRuns m then m
    else
      let m := onEvr (fun e => { e with
        flash := keepAreas e.clearSeq (e.nextSeq - 1) (e.flash ++ e.mram.take n)
        mram := e.mram.drop n }) m
      if 8192 ≤ m.evr.staging.length then flushStaging m else m

-- Windows (R400 to R403)

/-- A record's 64 bytes (R391, R392). -/
def eventBytes (r : Rec) : Bytes :=
  fields [(8, r.seq), (8, r.ev.time / nsPerSec), (4, r.ev.time % nsPerSec), (2, r.ev.code), (1, r.ev.tag), (1, r.severity),
    (2, b2n r.commit * 32768 + b2n r.pub * 8192), (1, r.ev.tq.toNat), (1, 0), (4, r.tail.toNat)] ++ padTo 32 r.ev.payload

/-- A slot's 64 bytes: of a gone one all are zero but COMMIT and GONE, and TQ, which R402 leaves open (a free value, log entry 78). -/
def slotBytes : WinSlot → Bytes
  | .empty => padTo 64 []
  | .holds r => eventBytes r
  | .gone tq => padTo 24 [] ++ fields [(2, 0xC000), (1, tq.toNat), (5, 0)] ++ padTo 32 []

/-- The 8-byte stores that change a slot to given bytes, in their order: the word at +24 with COMMIT and GONE clear, the word at +0,
the body, and the word at +24 with its final flags (R403). -/
def slotStores (i : Nat) (b : Bytes) : List (Nat × BitVec 64) :=
  let word (k : Nat) : BitVec 64 := .ofNat 64 (rd 8 b (8 * k))
  (8 * i + 3, word 3 &&& ~~~0xC000) :: ([0, 1, 2, 4, 5, 6, 7].map fun k => (8 * i + k, word k)) ++ [(8 * i + 3, word 3)]

/-- A slot changes by its stores, which are complete at once: log entry 78. -/
def putSlot (i : Nat) (x : WinSlot) (w : EvrWin) : EvrWin :=
  { w with
    slots := w.slots.take i ++ x :: w.slots.drop (i + 1)
    words := (slotStores i (slotBytes x)).foldl (fun a s => tset a s.1 s.2) w.words }

/-- Slots that hold a record which has left its area become gone. -/
def goneSlots (f n free : Nat) (w : EvrWin) : EvrWin :=
  w.slots.zipIdx.foldl (fun w x => match x.1 with
    | .holds r =>
      if inArea f n (w.cursor.getLsbD 63) r.seq then w else putSlot x.2 (.gone (.ofNat 8 (Config.freeNat (free + x.2)))) w
    | .empty => w
    | .gone _ => w) w

/-- A record that enters the image goes to the lowest empty slot of a live window, if every lower slot holds a record. -/
def writeSlot (f n tag : Nat) (r : Rec) (w : EvrWin) : EvrWin :=
  let held := w.slots.all fun x => match x with
    | .holds _ => true
    | .empty => false
    | .gone _ => false
  if !w.busy && w.slots.length < 64 && held && w.live && w.cursor.toNat % 2 ^ 63 ≤ r.seq && recVisible tag r &&
      inArea f n (w.cursor.getLsbD 63) r.seq then
    putSlot w.slots.length (.holds r) w
  else w

/-- Every window after the image or the areas have changed; each slot that may become gone has a free value of its own. -/
def refreshWins (new : Option Rec) (m : Mach) : Mach :=
  let f := m.evr.clearSeq
  let n := newestSeq m
  let w (k : Nat) (w : EvrWin) : EvrWin :=
    let w := goneSlots f n (m.free + 64 * k) w
    match new with
    | none => w
    | some r => writeSlot f n (k % 128) r w
  let m' := onEvr (fun e => { e with wins := tmap e.wins w }) m
  if m.evr.wins.isEmpty then m' else { m' with free := m.free + 262144 }

/-- EVENT_IMAGE_ENTER: the oldest record that the image does not hold enters it (R397, R402). -/
def execEventImageEnter (s : State) : Host.Outcome State Fault Refusal :=
  runOn s fun m =>
    if !controlRuns m || !computeRuns m then m
    else match (m.evr.flash ++ m.evr.mram ++ m.evr.staging).find? (fun r => newestSeq m < r.seq && m.evr.clearSeq ≤ r.seq) with
      | none => m
      | some r => refreshWins (some r) (onEvr (fun e => { e with image := keepAreas e.clearSeq r.seq (e.image ++ [r]) }) m)

/-- EVR_CURSOR: the item a core runs writes the cursor, and a fill of its window begins (R400, R401). -/
def execEvrCursor (core : Fin 32) (v : BitVec 64) (s : State) : Host.Outcome State Fault Refusal :=
  runOn s fun m => match coreRun m core with
    | none => m
    | some r =>
      let w : EvrWin := { cursor := v, busy := true, past := false, live := false, filled := 0, slots := [], words := [] }
      onEvr (fun e => { e with wins := tset e.wins (core.val * 128 + r.tag) w }) m

/-- A window filled (R402). -/
def fillWin (k : Nat) (w : EvrWin) (m : Mach) : Mach :=
  let start := w.cursor.toNat % 2 ^ 63
  let all := areaRecords m (k % 128) (w.cursor.getLsbD 63)
  let got := (all.filter fun r => start ≤ r.seq).take 64
  let w : EvrWin :=
    { cursor := w.cursor, busy := false, past := all.head?.any fun r => start < r.seq, live := got.length < 64, filled := got.length,
      slots := [], words := [] }
  let w := got.foldl (fun w r => putSlot w.slots.length (.holds r) w) w
  evrCount 5 1 (onEvr (fun e => { e with wins := tset e.wins k w }) m)

/-- EVR_WINDOW_FILL_COMPLETE: a fill that a core has begun is complete (R402). -/
def execEvrWindowFillComplete (core : Fin 32) (s : State) : Host.Outcome State Fault Refusal :=
  runOn s fun m =>
    match m.evr.wins.find? fun w => w.1 / 128 == core.val && w.2.busy with
    | none => m
    | some w => if computeReady m then fillWin w.1 w.2 m else m

-- Starts and clears

/-- A record is whole (R398). -/
def recWhole (r : Rec) : Bool := r.commit && r.tail == .ofNat 32 r.seq

/-- The CP verifies the records of MRAM and flash at each start of the control domain; torn ones are discarded and reported
(R398). -/
def verifyRecords (m : Mach) : Mach :=
  let torn := (m.evr.flash ++ m.evr.mram).filter fun r => !recWhole r
  match torn with
  | [] => m
  | r :: rest =>
    let lo := rest.foldl (fun a x => min a x.seq) r.seq
    let hi := rest.foldl (fun a x => max a x.seq) r.seq
    let m := onEvr (fun e => { e with flash := e.flash.filter recWhole, mram := e.mram.filter recWhole }) m
    raise 0x0F04 0 (fields [(8, torn.length), (8, lo), (8, hi)]) (evrCount 3 torn.length m)

/-- The CP rebuilds the image from flash and MRAM once control and compute run (R397, R506). -/
def rebuildImage (m : Mach) : Mach :=
  if controlRuns m && computeRuns m && m.evr.image.isEmpty then
    refreshWins none (onEvr (fun e => { e with
      image := keepAreas e.clearSeq (e.nextSeq - 1) ((e.flash ++ e.mram).filter fun r => e.clearSeq ≤ r.seq) }) m)
  else m

/-- EVR_CLEAR at its effective tick (R407): F is taken, everything before it removed, and the record of the clear staged. -/
def applyClear (role : BitVec 32) (m : Mach) : Mach :=
  let all := m.evr.flash ++ m.evr.mram ++ m.evr.staging
  let lo := ((all.map (·.seq)).head?).getD 0
  let f := m.evr.nextSeq
  let hi := if all = [] then 0 else f - 1
  let m := onEvr (fun e => { e with staging := [], mram := [], flash := [], image := [], clearSeq := f }) m
  let m := enterStaging (ownEvent m 0x0F01 0 (fields [(8, lo), (8, hi), (4, role.toNat)])) 1 true m
  refreshWins none (payLost m)

-- Commands

def evrRead : Cmd where
  code := 0x0F01
  len := layout 16 [(1, 1), (4, 4)]
  apply := false
  slice := fun _ _ _ => true
  check := fun _ _ p => if 1 < rd 1 p 0 || rd 2 p 2 = 0 || 255 < rd 2 p 2 then 0x0200 else 0

/-- The response of EVR_READ. -/
def evrReadBytes (tag : Nat) (p : Bytes) (m : Mach) : Bytes :=
  let all := areaRecords m tag (rd 1 p 0 == 1)
  let first := rd 8 p 8
  let got := (all.filter fun r => first ≤ r.seq).take (rd 2 p 2)
  let oldest := (all.head?.map (·.seq)).getD 0
  fields [(2, got.length), (2, b2n (all.head?.any fun r => first < r.seq)), (4, 0), (8, oldest), (8, newestSeq m), (8, 0)] ++
  got.flatMap eventBytes

/-- EVR_READ. -/
def execEvrRead (h : Hdr) (p : Bytes) (s : State) : Host.Outcome State Fault Refusal :=
  runOn s (runRead evrRead h p (evrReadBytes (boxTag h.box) p) id)

/-- The entries of an EVR_CODE_SET. -/
def codeEntries (p : Bytes) : List (Nat × CodeEnt) :=
  (List.range (rd 2 p 2)).map fun i =>
    let o := 8 + 8 * i
    (rd 2 p 0 + i, { rate := rd 4 p o, burst := rd 2 p (o + 4), pub := bit (rd 1 p (o + 6)) 0 })

def evrCodeSet : Cmd where
  code := 0x0F02
  len := fun p => p.length == 8 + 8 * rd 2 p 2
  right := rConfig
  journal := true
  sched := true
  check := fun _ _ p =>
    let n := rd 2 p 2
    firstFail [
      (n = 0 || 4096 < n || 65536 < rd 2 p 0 + n, 0x0200),
      (!zeros p 4 4 || (codeEntries p).any (fun e => e.2.rate = 0 || 10000000 < e.2.rate || e.2.burst = 0 || 1024 < e.2.burst) ||
        (List.range n).any (fun i => rd 2 p (14 + 8 * i) / 2 != 0), 0x0201)]

/-- EVR_CODE_SET at its effective tick: a bucket is full after its entry is changed, which ends a suppression (R405, R406). -/
def applyCodeSet (p : Bytes) (m : Mach) : Mach :=
  forEach (codeEntries p) (fun e m =>
    stageSummary e.1 (onEvr (fun x => { x with codes := tset x.codes e.1 e.2, buckets := terase x.buckets e.1 }) m)) m

/-- EVR_CLEAR: whether a clear is scheduled is asked of the module as it stands, `now`. -/
def evrClear (now : Mach) : Cmd where
  code := 0x0F03
  len := layout 8 [(0, 8)]
  right := rRecorder
  sched := true
  check := fun _ _ _ => if now.mbx.scheduled.any fun c => c.code == 0x0F03 then 0x0203 else 0

def evrInfo : Cmd where
  code := 0x0F10
  len := fun p => p.length == 8 && rd 1 p 0 / 2 == 0 && zeros p 1 7
  apply := false
  roleOk := clearOk 0

/-- The response of EVR_INFO. -/
def evrInfoBytes (m : Mach) : Bytes :=
  let oldest := ((areaRecords m 0 false).head?.map (·.seq)).getD 0
  fields [(8, newestSeq m), (8, m.evr.clearSeq), (8, oldest), (4, (areaRecords m 0 true).length),
    (2, m.evr.staging.length), (2, 0), (4, m.evr.mram.length), (4, 0)] ++ ctrBytes m.evr.ctrs 6

/-- EVR_INFO. -/
def execEvrInfo (h : Hdr) (p : Bytes) (s : State) : Host.Outcome State Fault Refusal :=
  runOn s (runRead evrInfo h p evrInfoBytes
    (fun m => if bit (rd 1 p 0) 0 then onEvr (fun e => { e with ctrs := ctrClear e.ctrs 6 }) m else m))

end Sys2Proof.Machine
end

