-- ==== Sys2Proof/Machine/Umb.lean ====
section
/-! DEFINITION. Backup protection of the umber domain: the PU subscriber, the elements, the health word, trip outputs and umber
GOOSE (chapter 14). -/
namespace Sys2Proof.Machine
open Sys2Proof

-- Configuration objects

/-- A subscription that has never been set, and one as it starts afresh. -/
def ustreamOff : UStreamCfg :=
  { enabled := false, matchVlan := false, nchan := 1, appid := 0, dmac := 0, vlan := 0, rate := 4800, nasdu := 1, confRev := 0,
    vmask := 0, svid := [] }
def ustreamOf (c : UStreamCfg) : UStream := { cfg := c, samples := [], outs := [], ref := 0, valid := false, heard := false }

/-- D: samples to an output (R371). -/
def uD (c : UStreamCfg) : Nat := c.rate / 1600

def onStream (i : Nat) (f : UStream → UStream) (m : Mach) : Mach :=
  match tget m.umb.streams i with
  | none => m
  | some x => onUmb (fun u => { u with streams := tset u.streams i (f x) }) m
def onElem (e : Nat) (f : UElem → UElem) (m : Mach) : Mach :=
  match tget m.umb.elems e with
  | none => m
  | some x => onUmb (fun u => { u with elems := tset u.elems e (f x) }) m

/-- Counter `i` of UMB_STATUS advanced by `k`. -/
def umbCount (i k : Nat) : Mach → Mach := onUmb fun u => { u with ctrs := bumpBy u.ctrs i k }

/-- The umber domain performs its functions: it runs and has not halted for its supply to fail (R386). -/
def umberActs (m : Mach) : Bool := umberRuns m && !m.umb.halted

/-- The umber domain runs on HOLD: HOLD is present and main power is not (R385). -/
def onHold (m : Mach) : Bool := m.dom.hold && !m.dom.main

-- Measurement (R371, R372)

/-- One decimated value of a channel at a position: the FIR over 2D + 1 samples; none where a sample of the window is invalid,
under test, held for longer than two outputs, or not there. -/
def decimate (c : UStreamCfg) (samples : List USample) (ch pos : Nat) : Option F32 :=
  let d := uD c
  let w := (samples.dropWhile fun x => pos < x.pos).take (2 * d + 1)
  let ok := w.length == 2 * d + 1 && w.all fun x =>
    x.age ≤ 2 * d && (x.vals[ch]?).any fun v => validity v.2 != 1 && v.2 &&& qTest == 0
  if ok then
    some ((w.zip (List.range w.length)).foldl (fun a x =>
      fma32 (Config.umberTap c.rate x.2) ((x.1.vals[ch]?).map (·.1) |>.getD 0) a) 0)
  else none

/-- The series of a channel, newest first. -/
def seriesOf (x : UStream) (ch : Nat) : List (Option F32) := x.outs.map fun o => (o.vals[ch]?).getD none

/-- The residual of some channels. -/
def residual (x : UStream) (chs : List Nat) : List (Option F32) :=
  x.outs.map fun o => chs.foldl (fun a c => match a, (o.vals[c]?).getD none with
    | some p, some q => some (add32 p q)
    | _, _ => none) (some 0)

/-- The true RMS over the weighted window of one cycle (R371). -/
def rmsOf (f0 : Nat) (h : List (Option F32)) : Option F32 :=
  let l := rat64 1600 f0
  let w := 1600 / f0
  let n := cdiv 1600 f0
  let vs := h.take n
  if vs.length < n || vs.any (·.isNone) then none
  else
    let sum := (vs.zip (List.range n)).foldl (fun a x =>
      let v := to64 (x.1.getD 0)
      let q := mul64 v v
      add64 a (if x.2 < w then q else mul64 (sub64 l (int64 w)) q)) 0
    some (to32 (sqrt64 (div64 sum l)))

/-- A magnitude: RMS, or the fundamental as the fine path gives it at 1600 outputs per second (R371). -/
def magnitude (f0 : Nat) (rms : Bool) (h : List (Option F32)) : Option F32 :=
  if rms then rmsOf f0 h
  else
    let p := finePath true (h.map fun v => v.map fun x => (x, x)) (int32 f0) 1 1600 0
    if p.inc || p.ovf then none else some (magOf (sqMag p.re p.im))

-- Elements (R373 to R377)

/-- Kinds of elements by number. -/
def isEarth (e : Nat) : Bool := 8 ≤ e && e < 12
def isVoltage (e : Nat) : Bool := 12 ≤ e && e < 16
def isBf (e : Nat) : Bool := 16 ≤ e
def isUnder (e : Nat) (c : UElemCfg) : Bool := isVoltage e && c.flags.getLsbD 2

/-- The settings group in force. -/
def groupOf (x : UElem) : UGroup := if x.primary then x.cfg.group1 else x.cfg.group0

/-- The group is for an inverse curve. -/
def inverse (e : Nat) (g : UGroup) : Bool := e < 12 && g.curve != 0

/-- The channels an element uses. -/
def usedChans (c : UElemCfg) : List Nat := c.ch.filter fun x => x != 0xFF

/-- The magnitudes an element judges; none where a channel it uses is invalid. -/
def elemMags (f0 : Nat) (x : UStream) (e : Nat) (c : UElemCfg) : Option (List F32) :=
  let rms := c.flags.getLsbD 0
  let chs := usedChans c
  let l := if isEarth e && c.flags.getLsbD 1 then [magnitude f0 rms (residual x chs)]
    else chs.map fun ch => magnitude f0 rms (seriesOf x ch)
  if chs = [] || l.any (·.isNone) || !x.valid then none else some (l.map (·.getD 0))

/-- A magnitude against `num / den` times a level, exactly. -/
def cmpScaled (g level : F32) (num den : Nat) : Ordering :=
  match fdy fmt32 g.toNat, fdy fmt32 level.toNat with
  | some (a, ea), some (b, eb) => dyCmp (a * den, ea) (b * num, eb)
  | _, _ => .lt

def atLeast (g level : F32) (num den : Nat) : Bool := cmpScaled g level num den != .lt
def atMost (g level : F32) (num den : Nat) : Bool := cmpScaled g level num den != .gt

def largest32 (l : List F32) : F32 := l.foldl (fun a b => if lt32 a b then b else a) (l.headD 0)
def smallest32 (l : List F32) : F32 := l.foldl (fun a b => if lt32 b a then b else a) (l.headD 0)

/-- G of an element: the largest magnitude, or the one that decides an under or an all-channels condition (R375). -/
def elemG (e : Nat) (c : UElemCfg) (l : List F32) : F32 :=
  if isVoltage e && (c.flags.getLsbD 2 != c.flags.getLsbD 3) then smallest32 l else largest32 l

/-- Whether an element is started, given whether it was (R375). -/
def startedNow (e : Nat) (c : UElemCfg) (g : UGroup) (mag : F32) (was : Bool) : Bool :=
  if isUnder e c then (if was then atMost mag g.pickup 105 100 else atMost mag g.pickup 1 1)
  else if inverse e g then (if was then atLeast mag g.pickup 1045 1000 else atLeast mag g.pickup 11 10)
  else if was then atLeast mag g.pickup 95 100 else atLeast mag g.pickup 1 1

/-- Bits from `k` down to 0 of the greatest number whose 50th power is at most `x`. -/
def root50 (x : Nat) : Nat → Nat → Nat
  | 0, r => r
  | k + 1, r => root50 x k (if (r + 2 ^ k) ^ 50 ≤ x then r + 2 ^ k else r)

/-- A positive finite number as a quotient; 0 for zero, a negative number or no number. -/
def ratOf (v : F32) : Nat × Nat := match fdy fmt32 v.toNat with
  | some (m, e) => if 0 ≤ e then (m.toNat * 2 ^ e.toNat, 1) else (m.toNat, 2 ^ (-e).toNat)
  | none => (0, 1)

/-- What the integrator of an inverse curve gains in 0.625 ms, in units of 2^-64 (R375; arithmetic: log entry 25). -/
def integStep (g : UGroup) (mag : F32) : Nat :=
  let (a, b) := ratOf mag
  let (p, q) := ratOf g.pickup
  let (t, u) := ratOf g.tms
  -- G / PICKUP, at most 20
  let (n, d) := if 20 * b * p ≤ a * q then (20, 1) else (a * q, b * p)
  if d = 0 ∨ t = 0 ∨ n ≤ d then 0
  else
    -- the excess of the power over one, as excess / scale, and 100 k
    let (excess, scale, k) :=
      if g.curve = 1 then (root50 (n * 2 ^ 3200 / d) 66 0 - 2 ^ 64, 2 ^ 64, 14)
      else if g.curve = 3 then (n * n - d * d, d * d, 8000)
      else (n - d, d, if g.curve = 2 then 1350 else 12000)
    2 ^ 64 * excess * u * 100 / (scale * t * k * 1600)

/-- An element with its state cleared: it is blocked (R375). -/
def clearElem (x : UElem) : UElem :=
  { x with started := false, operated := false, elapsed := 0, integ := 0, sinceDrop := none }

/-- Time after dropout: what is held is cleared when RESET has gone (R375). -/
def dropped (g : UGroup) (x : UElem) : UElem :=
  let x := { x with operated := false }
  match (if x.started then some 0 else x.sinceDrop.map (· + 625)) with
  | none => { x with started := false }
  | some t =>
    if g.reset * 1000 ≤ t then clearElem x
    else { x with started := false, sinceDrop := some t }

/-- A started element at an output: its time grows after the output of the start, and it operates; a start after RESET has gone resumes
nothing (R375, R376). -/
def timed (e : Nat) (g : UGroup) (mag : F32) (allow : Bool) (x : UElem) : UElem :=
  let x := if !x.started && x.sinceDrop.any (fun t => g.reset * 1000 ≤ t + 625) then clearElem x else x
  let x := if x.started then
      { x with elapsed := x.elapsed + 625, integ := x.integ + (if inverse e g then integStep g mag else 0) }
    else x
  let done := if inverse e g then decide (2 ^ 64 ≤ x.integ) else decide (g.delay * 1000 ≤ x.elapsed)
  { x with started := true, sinceDrop := none, operated := x.operated || (done && allow) }

/-- The source bits of a breaker-failure element: operate of elements 0 to 15, and the BFI bits of the last valid word. -/
def bfSources (m : Mach) (mask : BitVec 32) : BitVec 32 :=
  let op := (List.range 16).foldl (fun a e => a + if (tget m.umb.elems e).any (·.operated) then 2 ^ e else 0) 0
  let bfi := (m.umb.last.map fun w => w.2.bfi.toNat).getD 0
  .ofNat 32 (op + bfi * 2 ^ 24) &&& mask

/-- The zone of an element is unhealthy: its bit has been 0 in three consecutive present words (R379). -/
def zoneBad (m : Mach) (e : Nat) : Bool := 3 ≤ tgetD m.umb.zoneRun e 0

/-- The source bits of every breaker-failure element noted, as operate states or a health word change them: a rising edge starts the
element at its next output (R376; log entry 86). -/
def noteSources (m : Mach) : Mach :=
  let note (e : Nat) (x : UElem) : UElem :=
    let src := bfSources m x.cfg.bfStart
    if isBf e then { x with sources := src, edge := x.edge || src &&& ~~~x.sources != 0 } else x
  onUmb (fun u => { u with elems := tmap u.elems note }) m

/-- An element is to use GROUP1 (R21, R377; log entry 86): also until a health word has arrived after a cold start, and after the control
or the compute domain has left running. -/
def wantPrimary (m : Mach) (e : Nat) : Bool :=
  !controlRuns m || !computeRuns m || m.umb.wordAbsent || !m.umb.wordOk || zoneBad m e

/-- An element's group at an output, with the event of a change (R377). -/
def chooseGroup (e : Nat) (m : Mach) : Mach :=
  match tget m.umb.elems e with
  | none => m
  | some x =>
    let p := wantPrimary m e
    if p = x.primary then m
    else raise (if p then 0x0E01 else 0x0E02) 0 (fields [(1, e), (7, 0)])
      (umbCount 2 1 (onElem e (fun x => { x with primary := p }) m))

/-- One element at an output of its stream. -/
def elemOutput (e : Nat) (st : UStream) (m : Mach) : Mach :=
  let m := noteSources (chooseGroup e m)
  match tget m.umb.elems e with
  | none => m
  | some x =>
    let g := groupOf x
    let next := match elemMags m.umb.f0 st e x.cfg with
      | none => clearElem x
      | some l =>
        if !g.enable || (isUnder e x.cfg && x.cfg.flags.getLsbD 4 && l.all fun v => !atLeast v g.pickup 1 10) then clearElem x
        else if isBf e then
          let above := l.any fun v => atLeast v g.pickup 1 1
          if (x.started || x.edge) && above then timed e g 0 above x else dropped g x
        else
          let mag := elemG e x.cfg l
          if startedNow e x.cfg g mag x.started then timed e g mag true x else dropped g x
    onElem e (fun _ => { next with edge := false }) m

-- Trip outputs (R380)

/-- A trip output that has never been set. -/
def tripInit : Trip := { enabled := false, minMs := 100, mask := 0, active := false, ref := 0 }

/-- The operating elements of a mask. -/
def operating (m : Mach) (mask : BitVec 24) : Nat :=
  (List.range 24).foldl (fun a e => a + if mask.getLsbD e && (tget m.umb.elems e).any (·.operated) then 2 ^ e else 0) 0

/-- A trip output follows its elements, and stays active for its minimum time; on a member that was demoted an active output
completes that time and no other becomes active (R433). -/
def tripOut (o : Nat) (m : Mach) : Mach :=
  match tget m.umb.trips o with
  | none => m
  | some t =>
    let ops := operating m t.mask
    let may := t.enabled && m.umb.loaded
    let held := t.active && m.time.ref < t.ref + t.minMs * 500000
    let act := may && (if umberMuted m then m.twn.demoted && held
      else (ops != 0 && (t.active || !m.twn.demoted)) || held)
    let put (t : Trip) (m : Mach) := onUmb (fun u => { u with trips := tset u.trips o t }) m
    if act && !t.active then
      raise 0x0E03 0 (fields [(1, o), (3, 0), (4, ops)]) (umbCount 3 1 (put { t with active := true, ref := m.time.ref } m))
    else put { t with active := act } m

def tripsOut (m : Mach) : Mach := forEach (m.umb.trips.map (·.1)) tripOut m

-- Umber bits and GOOSE (R381, R382)

/-- Umber bit `b` as it stands. -/
def umberBit (m : Mach) (b : Nat) : Bool :=
  let el (base : Nat) (f : UElem → Bool) := (tget m.umb.elems (b - base)).any f
  if b < 24 then el 0 (·.started)
  else if 32 ≤ b ∧ b < 56 then el 32 (·.operated)
  else if 64 ≤ b ∧ b < 88 then el 64 (·.primary)
  else if 96 ≤ b ∧ b < 100 then (tget m.umb.trips (b - 96)).any (·.active)
  else if b = 100 then m.umb.wordAbsent
  else if b = 101 then onHold m
  else false

/-- A bit number that R381 gives a meaning. -/
def umberBitOk (b : Nat) : Bool :=
  b < 24 || (32 ≤ b && b < 56) || (64 ≤ b && b < 88) || (96 ≤ b && b < 102)

/-- The bits committed to their points at D(n) while the compute domain runs (R381). -/
def commitUmberBits (m : Mach) : Mach :=
  match m.umb.uptBase with
  | none => m
  | some base =>
    if computeRuns m && umberActs m then
      forEach (List.range 128) (fun b m => ownerWrite (base + b) (.ofNat 64 (b2n (umberBit m b))) 0 m) m
    else m

def onUpub (i : Nat) (f : UPub → UPub) (m : Mach) : Mach :=
  match tget m.umb.pubs i with
  | none => m
  | some x => onUmb (fun u => { u with pubs := tset u.pubs i (f x) }) m

/-- A message of an umber block as it leaves: through the switch, or, while the fabric does not run, by PU at once (R367). -/
def sendUmber (i : Nat) (x : UPub) (bits : List Bool) (m : Mach) : Mach :=
  let n := tgetD m.sig.nums (2048 + i) (0, 0)
  let e := x.entry
  let pdu : GoosePdu :=
    { appid := e.appid, simulate := e.flags.getLsbD 2, auth := none, ref := e.ref, tal := 2 * x.interval, datSet := e.datSet,
      goId := e.goId, tSec := utcSec m x.t, tFrac := x.t % nsPerSec * 2 ^ 24 / nsPerSec, tq := x.tq, stNum := n.1,
      sqNum := n.2, confRev := e.confRev, ndsCom := false, entries := e.members.length, data := bits.map .bool }
  let f := gooseFrame e.dmac m.ident.mac (pubTag e) pdu
  if fabricRuns m then sendInner (innerFrame f 7 16 [(12, 7)] true none 0 (now m)) m
  else if portUp m 12 then macCount 12 10 (onPort 12 (fun p => { p with ctrs := bumpBy p.ctrs 11 f.len }) m)
  else m

/-- No umber GOOSE leaves a member whose outputs are muted, nor one that has been demoted (R382, R433). -/
def upubMuted (m : Mach) : Bool := umberMuted m || (m.twn.cfg.on && m.twn.demoted)

/-- A block at an output: a change of a member bit, or a message still to be forced, starts a new state (R382). -/
def upubOutput (i : Nat) (m : Mach) : Mach :=
  match tget m.umb.pubs i with
  | none => m
  | some x =>
    if !pubOn x.entry || upubMuted m || !m.umb.loaded then m
    else
      let bits := x.entry.members.map fun y => umberBit m y.1
      if x.last == some bits && !x.force then m
      else
        let n := tgetD m.sig.nums (2048 + i) (0, 0)
        let m := onSig (fun g => { g with nums := tset g.nums (2048 + i) (nextNum n.1, 0) }) m
        let x := { x with last := some bits, t := eventTime m, tq := timeQuality m.time, interval := 1, ref := m.time.ref, running := true, force := false }
        sendUmber i x bits (onUpub i (fun _ => x) m)

def upubsOutput (m : Mach) : Mach := forEach (m.umb.pubs.map (·.1)) upubOutput m

/-- The umber blocks begin to act: each sends its state under a new stNum (R431, R432; log entry 82). -/
def upubsAct (m : Mach) : Mach :=
  let m := onUmb (fun u => { u with pubs := tmap u.pubs fun _ b => { b with force := true } }) m
  if umberActs m then upubsOutput m else m

/-- The umber blocks act no more: no repetition is due. -/
def upubsQuiet : Mach → Mach := onUmb fun u => { u with pubs := tmap u.pubs fun _ b => { b with running := false } }

/-- UMBER_GOOSE_RETRANSMIT: the interval of a block has gone since its last message (R382). -/
def execUmberGooseRetransmit (blk : Fin 4) (s : State) : Host.Outcome State Fault Refusal :=
  runOn s fun m =>
    match tget m.umb.pubs blk.val with
    | none => m
    | some x =>
      if !umberActs m || !x.running || !pubOn x.entry || upubMuted m then m
      else
        let m := passCycles (x.ref + x.interval * 500000 - m.time.ref) m
        if x.force then upubOutput blk.val m
        else
        let n := tgetD m.sig.nums (2048 + blk.val) (0, 0)
        let m := onSig (fun g => { g with nums := tset g.nums (2048 + blk.val) (n.1, nextNum n.2) }) m
        let x := { x with interval := min 1024 (2 * x.interval), ref := m.time.ref }
        sendUmber blk.val x (x.last.getD []) (onUpub blk.val (fun _ => x) m)

/-- TRIP_OUT_MIN_TIME_EXPIRE: the minimum active time of an output has gone, and it follows its elements (R380). -/
def execTripOutMinTimeExpire (out : Fin 4) (s : State) : Host.Outcome State Fault Refusal :=
  runOn s fun m =>
    match tget m.umb.trips out.val with
    | none => m
    | some t => if umberActs m && t.active then tripOut out.val (passCycles (t.ref + t.minMs * 500000 - m.time.ref) m) else m

-- Streams (R369 to R372)

/-- Elements, outputs and blocks after output `k` of stream `i` has been computed. -/
def decide' (i : Nat) (m : Mach) : Mach :=
  match tget m.umb.streams i with
  | none => m
  | some st =>
    let es := (m.umb.elems.filter fun e => e.2.cfg.stream == i && usedChans e.2.cfg != []).map (·.1)
    upubsOutput (tripsOut (noteSources (forEach es (fun e m => elemOutput e st m) m)))

/-- One output of a stream computed. -/
def umberOutput (i pos : Nat) (m : Mach) : Mach :=
  decide' i (onStream i (fun x =>
    let vals := (List.range x.cfg.nchan).map fun ch => decimate x.cfg x.samples ch pos
    { x with outs := ({ k := pos / uD x.cfg, vals := vals } :: x.outs).take 40 }) m)

/-- A sample as the subscriber takes it: scaled values and qualities (R369). -/
def usample (c : UStreamCfg) (pos : Nat) (a : Asdu) : USample :=
  { pos := pos, age := 0,
    vals := (a.data.zip (List.range a.data.length)).map fun x =>
      (scaled x.1.1 (if c.vmask.getLsbD x.2 then 0x3C23D70A else 0x3A83126F), sampleQuality x.1.2 false false) }

/-- Samples missing before a position held at the last accepted value (R372). -/
def heldSamples : Nat → List USample → List USample
  | 0, l => l
  | n + 1, l => match l with
    | [] => []
    | x :: _ => heldSamples n ({ x with pos := x.pos + 1, age := x.age + 1 } :: l)

/-- A stream is valid again, with its event (R389). -/
def streamValid (i : Nat) (m : Mach) : Mach :=
  match tget m.umb.streams i with
  | none => m
  | some x =>
    let m := onStream i (fun x => { x with valid := true, heard := true, ref := m.time.ref }) m
    if x.valid || !x.heard then m else raise 0x0E08 0 (fields [(1, i), (1, 1), (6, 0)]) m

/-- One ASDU that has passed its checks: whether it is accepted, and the module after it. Every sample missing between it and the last is
held and counted, and the outputs of the missing ones are computed with it (R372); of a silence of a second or more the whole seconds
do not show in smpCnt. -/
def acceptUmber (i : Nat) (a : Asdu) (m : Mach) : Bool × Mach :=
  match tget m.umb.streams i with
  | none => (false, m)
  | some x =>
    let c := x.cfg
    let prev := x.samples.head?
    let diff := match prev with
      | none => 0
      | some p => (a.smpCnt + c.rate - p.pos % c.rate) % c.rate
    let fresh := prev.isNone
    if !fresh && x.valid && (diff = 0 || c.rate / 2 < diff) then (false, m)
    else
      let last := (prev.map (·.pos)).getD 0
      let step := if diff = 0 then c.rate else diff
      let pos := if fresh then c.rate + a.smpCnt else last + step
      let gap := if fresh then 0 else step - 1
      let m := umbCount 6 gap m
      let m := onStream i (fun x => { x with
        samples := (usample c pos a :: heldSamples gap x.samples).take (128 + gap) }) m
      let m := streamValid i m
      let due := (List.range (gap + 1)).map (fun k => pos - gap + k) |>.filter fun q => q % uD c = 0
      (true, onStream i (fun x => { x with samples := x.samples.take 128 }) (forEach due (umberOutput i) m))

/-- The ASDU checks of a subscription (R59, R65 step 7, R370). -/
def umberAsduOk (f0 : Nat) (c : UStreamCfg) (a : Asdu) : Bool :=
  a.svid == c.svid && a.data.length == c.nchan && a.confRev == c.confRev && a.smpCnt < c.rate && rateAgrees c.rate f0 a

/-- The frame at the head of what PU has taken: an ASDU that fails its check is discarded and the others are kept; a frame of which
something is discarded is counted once (R65, R370). -/
def takeUmber (f : Frame) (m : Mach) : Mach :=
  match f.body, umberStream m f with
  | .sv p, some i =>
    (match tget m.umb.streams i with
      | none => m
      | some x =>
        if !pduOk f p || p.simulate then umbCount 5 1 m
        else
          let r := p.asdus.foldl (fun (b : Bool × Mach) a =>
            let y := if umberAsduOk m.umb.f0 x.cfg a then acceptUmber i a b.2 else (false, b.2)
            (b.1 && y.1, y.2)) (true, m)
          if r.1 then r.2 else umbCount 5 1 r.2)
  | _, _ => umbCount 5 1 m

/-- UMBER_SV_RECEIVE: the oldest frame the subscriber has taken (R370 to R372). -/
def execUmberSvReceive (s : State) : Host.Outcome State Fault Refusal :=
  runOn s fun m =>
    match m.umb.inbox with
    | [] => m
    | x :: rest =>
      let m := onUmb (fun u => { u with inbox := rest }) m
      if umberActs m then takeUmber x.2 m else m

/-- The elements of a stream blocked at once, with what follows for outputs and blocks (R372, R375). -/
def blockStream (i : Nat) (m : Mach) : Mach :=
  let es := (m.umb.elems.filter fun e => e.2.cfg.stream == i && usedChans e.2.cfg != []).map (·.1)
  tripsOut (noteSources (forEach es (fun e => onElem e clearElem) m))

/-- UMBER_STREAM_TIMEOUT: no sample of a stream has been accepted for 2 ms (R372). -/
def execUmberStreamTimeout (sub : Fin 8) (s : State) : Host.Outcome State Fault Refusal :=
  runOn s fun m =>
    match tget m.umb.streams sub.val with
    | none => m
    | some x =>
      if !umberActs m || !x.cfg.enabled || !x.valid then m
      else
        let m := passCycles (x.ref + 1000000 - m.time.ref) m
        raise 0x0E08 0 (fields [(1, sub.val), (1, 0), (6, 0)])
          (blockStream sub.val (onStream sub.val (fun x => { x with valid := false }) m))

-- The health word (R378, R379)

/-- The bytes of a word that CHECK covers. -/
def healthBytes (w : Health) : Bytes :=
  fields [(4, w.tickLo.toNat), (4, w.cores.toNat), (3, w.zone.toNat), (1, w.bfi.toNat), (2, b2n w.control)]

/-- A BOOL point that is 1 and good and not under test. -/
def goodOne (m : Mach) (i : Nat) : Bool :=
  (pointAt m.sig i).any fun p => p.v.value == 1 && validity p.v.quality == 0 && p.v.quality &&& qTest == 0

/-- The word of tick n as the compute domain forms it; every core has completed its maintenance (R187, R378). -/
def healthWord (n : Tick) (m : Mach) : Health :=
  let zone := (List.range 24).foldl (fun a e =>
    a + if ((tget m.umb.elems e).bind (·.cfg.zonePt)).all (goodOne m) then 2 ^ e else 0) 0
  let bfi := (List.range 8).foldl (fun a i => a + if ((m.umb.bfiPts[i]?).getD none).any (goodOne m) then 2 ^ i else 0) 0
  let w : Health :=
    { tickLo := .ofNat 32 n, cores := .ofNat 32 (2 ^ 32 - 1), zone := .ofNat 24 zone, bfi := .ofNat 8 bfi,
      control := controlRuns m, check := 0 }
  { w with check := .ofNat 16 (crc16 (healthBytes w)) }

/-- The word of tick n sets out for the umber domain (R378). -/
def sendHealthWord (n : Tick) (m : Mach) : Mach :=
  if computeReady m then onUmb (fun u => { u with words := u.words ++ [(n, healthWord n m)] }) m else m

/-- A word that arrives: present if its CHECK verifies and its tick is the one it should be (R379; log entry 86). -/
def takeWord (n : Tick) (w : Health) (m : Mach) : Mach :=
  if w.check.toNat ≠ crc16 (healthBytes w) then umbCount 1 1 m
  else if w.tickLo ≠ .ofNat 32 n ∨ (clockRuns m ∧ asmAt m (n + 1) < now m) then m
  else
    let run := (List.range 24).filterMap fun e => if w.zone.getLsbD e then none else some (e, tgetD m.umb.zoneRun e 0 + 1)
    let out := (List.range 32).filter fun c => !w.cores.getLsbD c
    noteSources (onUmb (fun u => { u with
      last := some (n, w), absent := 0, counted := some n, wordAbsent := false, wordOk := true, zoneRun := run
      coresOut := out.foldl (fun t c => tmod t c 0 (· + 1)) u.coresOut }) m)

/-- HEALTH_WORD_RECEIVE: the oldest word on its way reaches the umber domain (R379). -/
def execHealthWordReceive (s : State) : Host.Outcome State Fault Refusal :=
  runOn s fun m =>
    match m.umb.words with
    | [] => m
    | (n, w) :: rest =>
      let m := onUmb (fun u => { u with words := rest }) m
      if umberActs m && m.umb.fail.isNone then takeWord n w m else m

/-- The word of tick n judged at D(n + 1): one that has not come is absent and counted (R379). -/
def judgeWord (n : Tick) (m : Mach) : Mach :=
  if !umberActs m || m.umb.counted = some n then m
  else
    let a := m.umb.absent + 1
    let m := umbCount 0 1 (onUmb (fun u => { u with absent := a, counted := some n, words := u.words.filter fun w => w.1 != n }) m)
    if a = 3 then
      raise 0x0E05 0 (fields [(8, n)]) (onUmb (fun u => { u with wordAbsent := true }) m)
    else m

/-- HEALTH_WORD_ABSENT: the clock reaches D of the next tick to be assembled and the word of the one before it is judged; the
third absent word in a row forces primary substitute (R379). -/
def execHealthWordAbsent (s : State) : Host.Outcome State Fault Refusal :=
  runOn s fun m =>
    if !clockRuns m || !m.time.gridOn then m
    else
      let n := nextAssembly m
      if n = 0 then m else judgeWord (n - 1) (advanceTo (nextAsmAt m) m)

-- Commands

/-- The entry of R369 at an offset. -/
def ustreamAt (p : Bytes) (o : Nat) : UStreamCfg :=
  let f := rd 1 p o
  { enabled := bit f 0, matchVlan := bit f 1, nchan := rd 1 p (o + 1), appid := rd 2 p (o + 2), dmac := .ofNat 48 (rdBe 6 p (o + 4)),
    vlan := rd 2 p (o + 10) % 4096, rate := rd 4 p (o + 12), nasdu := rd 1 p (o + 17), confRev := rd 4 p (o + 20),
    vmask := .ofNat 32 (rd 4 p (o + 24)), svid := slice p (o + 64) (rd 1 p (o + 16)) }

def umbStreamSet : Cmd where
  code := 0x0E01
  len := fun p => p.length == 136
  right := rConfig
  journal := true
  sched := true
  check := fun m _ p =>
    let i := rd 1 p 0
    let c := ustreamAt p 8
    let n := rd 1 p 24
    let same (o : UStreamCfg) : Bool := o.dmac == c.dmac && o.appid == c.appid && o.svid == c.svid && o.matchVlan == c.matchVlan &&
      (!c.matchVlan || o.vlan == c.vlan)
    firstFail [
      (8 ≤ i, 0x0200),
      (!zeros p 1 7 || rd 1 p 8 / 4 != 0 || bits (rd 2 p 18) 15 12 != 0 || !zeros p 26 2 || !zeros p 36 36 || n = 0 || 64 < n ||
        !zeros p (72 + n) (64 - n) || c.nchan = 0 || 24 < c.nchan || c.nasdu = 0 || 8 < c.nasdu ||
        !List.contains [4800, 12800, 14400] c.rate, 0x0201),
      ((tget m.umb.streams i).any (fun x => x.cfg.enabled && { x.cfg with enabled := c.enabled } != c), 0x0202),
      (m.umb.streams.any (fun x => x.1 != i && same x.2.cfg), 0x0206)]

/-- UMB_STREAM_SET at its effective tick: a subscription that is enabled starts afresh, one that is disabled is invalid. -/
def applyStreamSet (p : Bytes) (m : Mach) : Mach :=
  let i := rd 1 p 0
  let c := ustreamAt p 8
  match tget m.umb.streams i with
  | some x =>
    if x.cfg.enabled && x.cfg == c then m
    else blockStream i (onUmb (fun u => { u with streams := tset u.streams i (ustreamOf c) }) m)
  | none => onUmb (fun u => { u with streams := tset u.streams i (ustreamOf c) }) m

/-- A settings group at an offset (R374). -/
def ugroupAt (p : Bytes) (o : Nat) : UGroup :=
  { enable := rd 1 p o == 1, curve := rd 1 p (o + 1), pickup := .ofNat 32 (rd 4 p (o + 4)), tms := .ofNat 32 (rd 4 p (o + 8)),
    delay := rd 4 p (o + 12), reset := rd 4 p (o + 16) }

/-- An element's entry at an offset (R373). -/
def uelemAt (p : Bytes) (o : Nat) : UElemCfg :=
  { flags := .ofNat 8 (rd 1 p o), stream := rd 1 p (o + 1), ch := rdList 1 3 p (o + 2), zonePt := optField 0xFFFFFFFF (rd 4 p (o + 8)),
    bfStart := .ofNat 32 (rd 4 p (o + 12)), group0 := ugroupAt p (o + 16), group1 := ugroupAt p (o + 40) }

/-- An element that has never been set, with its settings. -/
def uelemOf (c : UElemCfg) : UElem :=
  { cfg := c, started := false, operated := false, elapsed := 0, integ := 0, sinceDrop := none, primary := true, sources := 0, edge := false }

/-- A settings group breaks a limit of R374. -/
def ugroupBad (e : Nat) (p : Bytes) (o : Nat) : Bool :=
  let g := ugroupAt p o
  1 < rd 1 p o || 4 < g.curve || (12 ≤ e && g.curve != 0) || !zeros p (o + 2) 2 || !zeros p (o + 20) 4 || !fin32 g.pickup ||
  60000 < g.delay || 60000 < g.reset || (isBf e && (g.delay < 20 || 1000 < g.delay)) ||
  (g.curve != 0 && !(le32 0x3D4CCCCD g.tms && le32 g.tms 0x40000000))

/-- A point that exists and is BOOL. -/
def boolPoint (m : Mach) (i : Nat) : Bool := (rangeOf m.sig i).any fun r => r.ty == 0

def umbElemSet : Cmd where
  code := 0x0E02
  len := fun p => p.length == 72
  right := rConfig
  journal := true
  sched := true
  check := fun m _ p =>
    let e := rd 1 p 0
    let c := uelemAt p 8
    let st := tget m.umb.streams c.stream
    firstFail [
      (24 ≤ e, 0x0200),
      (!zeros p 1 7 || rd 1 p 8 / 32 != 0 || 7 < c.stream || !zeros p 13 3 || bits c.bfStart.toNat 23 16 != 0 || ugroupBad e p 24 ||
        ugroupBad e p 48, 0x0201),
      ((usedChans c).any (fun ch => !st.any fun x =>
        x.cfg.enabled && ch < x.cfg.nchan && x.cfg.vmask.getLsbD ch == isVoltage e), 0x0203)]
  depend := fun _ m _ p => if (uelemAt p 8).zonePt.any (fun i => !boolPoint m i) then 0x0204 else 0

/-- UMB_ELEM_SET at its effective tick: the new settings are judged at the element's next output. -/
def applyElemSet (p : Bytes) (m : Mach) : Mach :=
  let e := rd 1 p 0
  let c := uelemAt p 8
  let x := (tget m.umb.elems e).getD (uelemOf c)
  onUmb (fun u => { u with elems := tset u.elems e { x with cfg := c } }) m

def umbTripSet : Cmd where
  code := 0x0E03
  len := fun p => p.length == 8
  right := rConfig
  journal := true
  sched := true
  check := fun _ _ p => firstFail [
    (4 ≤ rd 1 p 0, 0x0200),
    (1 < rd 1 p 1 || rd 2 p 2 < 20 || 500 < rd 2 p 2 || rd 1 p 7 != 0, 0x0201)]

/-- UMB_TRIP_SET at its effective tick: an output that is disabled goes inactive. -/
def applyTripSet (p : Bytes) (m : Mach) : Mach :=
  let o := rd 1 p 0
  tripOut o (onUmb (fun u => { u with trips := tset u.trips o { tgetD u.trips o tripInit with
    enabled := bit (rd 1 p 1) 0
    minMs := rd 2 p 2
    mask := .ofNat 24 (rd 3 p 4) } }) m)

def umbPubSet : Cmd where
  code := 0x0E04
  len := pubLayout [(1, 7)]
  right := rConfig
  journal := true
  sched := true
  check := fun _ _ p => firstFail [
    (4 ≤ rd 1 p 0, 0x0200),
    ((rdList 4 (rd 1 p 9) p 264).any (fun w => 256 ≤ w || !umberBitOk w) ||
      1518 < longestMessage (pubEntryAt p 8) ((pubEntryAt p 8).members.map fun _ => (0, 0, 0)), 0x0205)]

/-- UMB_PUB_SET at its effective tick: a block with another entry sends its state anew at the next output; one that is left as it is goes
on (R27). -/
def applyUpubSet (p : Bytes) (m : Mach) : Mach :=
  let x : UPub :=
    { entry := pubEntryAt p 8, last := none, t := 0, tq := 0, interval := 1, ref := 0, running := false, force := false }
  if (tget m.umb.pubs (rd 1 p 0)).any fun y => y.entry == x.entry then m
  else onUmb (fun u => { u with pubs := tset u.pubs (rd 1 p 0) x }) m

def umbConfigSet : Cmd where
  code := 0x0E05
  len := fun p => p.length == 40
  right := rConfig
  journal := true
  sched := true
  check := fun _ _ p => if (rd 1 p 0 != 50 && rd 1 p 0 != 60) || !zeros p 1 3 then 0x0201 else 0
  depend := fun _ m _ p =>
    let upt := optField 0xFFFFFFFF (rd 4 p 4)
    let bfi := (rdList 4 8 p 8).filter fun i => i != 0xFFFFFFFF
    if upt.any (fun b => (List.range 128).any fun k => !(rangeOf m.sig (b + k)).any fun r => r.ty == 0 && r.ownerKind == 4) ||
      bfi.any (fun i => !boolPoint m i) then 0x0204 else 0

/-- UMB_CONFIG_SET at its effective tick. -/
def applyUmbConfig (p : Bytes) : Mach → Mach :=
  onUmb fun u => { u with
    f0 := rd 1 p 0
    uptBase := optField 0xFFFFFFFF (rd 4 p 4)
    bfiPts := (rdList 4 8 p 8).map (optField 0xFFFFFFFF) }

def umbStatus : Cmd where
  code := 0x0E10
  len := fun p => p.length == 8 && rd 1 p 0 / 2 == 0 && zeros p 1 7
  apply := false
  roleOk := clearOk 0

/-- The response of UMB_STATUS (R388). -/
def umbStatusBytes (m : Mach) : Bytes :=
  let byte (i : Nat) := (List.range 8).foldl (fun a k => a + if umberBit m (8 * i + k) then 2 ^ k else 0) 0
  let valid := (List.range 8).foldl (fun a i => a + if (tget m.umb.streams i).any (fun x => x.cfg.enabled && x.valid) then 2 ^ i else 0) 0
  fields ((List.range 16).map fun i => (1, byte i)) ++
  fields [(4, (m.umb.last.map fun w => w.2.cores.toNat).getD 0),
    (1, b2n (!clockRuns m) + 2 * b2n (onHold m) + 4 * b2n m.dom.hold + 8 * b2n m.umb.loaded), (1, valid), (2, 0), (8, m.umb.cfgSeq)] ++
  ctrBytes m.umb.ctrs 8

/-- UMB_STATUS. -/
def execUmbStatus (h : Hdr) (p : Bytes) (s : State) : Host.Outcome State Fault Refusal :=
  runOn s (runRead umbStatus h p umbStatusBytes
    (fun m => if bit (rd 1 p 0) 0 then onUmb (fun u => { u with ctrs := ctrClear u.ctrs 8 }) m else m))

end Sys2Proof.Machine
end

