-- ==== Sys2Proof/Machine/Frm.lean ====
section
/-! DEFINITION. Frame assembly: frame buffers, headers and frame-ready items (R136 to R143). -/
namespace Sys2Proof.Machine
open Sys2Proof

/-- Counter `i` of EST_FRAME_STATUS advanced for a slice (R144). -/
def frameCount (t i : Nat) : Mach → Mach := onSlice t fun s => { s with frameCtrs := bump s.frameCtrs i }

/-- The code of a time state (R38). -/
def timeCode : TimeState → Nat
  | .freeRunning => 0
  | .expired => 1
  | .holdover => 2
  | .synchronised => 3

/-- The group list of a subscription: its groups in order of first appearance (R139). -/
def groupList (m : Mach) (subs : List Nat) : List Nat := (subs.map fun c => (chanEntry m c).group).eraseDups

/-- The quality word of a record. -/
def recQuality (r : Bytes) : BitVec 32 := .ofNat 32 (rd 4 r 4)

/-- The header of a frame (R140). -/
def frameHeader (d : AsmDue) (s : Slice) (changed resumed : Bool) (recs : List Bytes) (m : Mach) : Bytes :=
  let qs := recs.map recQuality
  let gs := groupList m s.subs
  let mask (f : Group → Bool) : Nat := (gs.zip (List.range gs.length)).foldl (fun a x => a + if (getGroup m x.1).any f then 2 ^ x.2 else 0) 0
  let worst := qs.foldl (fun a q => if rank (validity a) < rank (validity q) then q else a) 0
  let flags := qs.foldl (fun a q => a ||| q) 0
  let count (f : BitVec 32 → Bool) : Nat := (qs.filter f).length
  let t := tickStart d.grid d.tick
  fields [(8, d.tick), (8, t / nsPerSec), (4, t % nsPerSec), (1, timeCode m.time.state),
    (1, b2n resumed + 2 * b2n (d.tick == d.grid.first) + 4 * b2n changed), (2, recs.length),
    (4, flags.toNat / 4 * 4 + validity worst), (2, count fun q => q &&& qLate != 0), (2, count fun q => validity q == 1),
    (8, mask fun g => g.shownBank == 1), (8, mask (·.shownFade)), (4, s.withheld.getD 0xFFFFFFFF), (4, s.subver.toNat),
    (1, gs.length), (1, (gs.filter fun g => (getGroup m g).any (·.recovery)).length), (2, count fun q => validity q == 3), (4, 0)]

/-- The address of the buffer of a tick (R136). -/
def frameAt (s : Slice) (n : Tick) : Nat :=
  ((s.regions.find? fun r => r.kind == 3).map (·.vbase)).getD 0 + n % 4 * frameStride s.nmax

/-- One frame-ready item; that of tick n − 4, still unfetched, is withdrawn before it (R141, R142). Items of a grid before are matched by
their tick numbers alone (DESIGN CHOICE, log entry 83). -/
def postFrame (tag h : Nat) (d : AsmDue) (addr : Nat) (m : Mach) : Mach :=
  let old := (listedItems m tag).filter fun i => i.handler == h && i.frame.any fun k => k + 4 == d.tick
  let m := forEach old (fun i m =>
    raise 0x0509 tag (fields [(1, tag), (1, h), (6, 0), (8, d.tick - 4)]) (dspCount tag 8 (frameCount tag 3 (dropItem tag i m)))) m
  if !(handlerOf m tag h).any (·.enabled) then dspCount tag 5 (frameCount tag 4 m)
  else frameCount tag 2 (enterItem tag { engineItem m tag h .frame d.tick addr none with frame := some d.tick } m).2

/-- Whether a slice receives the frame of a tick (R12, R18, R19, R143, R426). -/
def frameGoes (m : Mach) (tag : Nat) (d : AsmDue) : Bool :=
  computeReady m && delivers m d && sliceRan m tag d.t && !m.twn.held.getLsbD (tag - 1)

/-- The frame of a tick for one slice, or its withholding; a slice whose memory is filled for the first time has neither yet, and a tick
at which it subscribes no channel counts in WITHHELD alone (R140). -/
def assembleFrame (d : AsmDue) (tag : Nat) (m : Mach) : Mach :=
  match getSlice m tag with
  | none => m
  | some s0 =>
    let due := s0.subsDue.filter fun x => x.1 ≤ d.t
    let s := { s0 with
      subs := (due.getLast?.map (·.2)).getD s0.subs
      subsDue := s0.subsDue.filter fun x => d.t < x.1
      withheld := if d.tick = d.grid.first then none else s0.withheld
      ran := s0.ran.filter fun x => d.t < x.1
      subver := s0.subver + .ofNat 32 due.length }
    let m := onSlice tag (fun _ => s) m
    if s.arriving.isSome && !s.resumed then m
    else if s.subs = [] then onSlice tag (fun s => { s with withheld := s.withheld.map (· + 1) }) m
    else if frameGoes m tag d then
      let recs := s.subs.map fun c => recordOf m c d.tick
      let addr := frameAt s d.tick
      let m := slcPut tag addr (frameHeader d s (due != []) s0.skipped recs m ++ recs.flatten) m
      let m := onSlice tag (fun s => { s with slwTick := d.tick, framePtr := addr, withheld := some 0, skipped := false, frameCtrs := bump s.frameCtrs 0 }) m
      forEach ((List.range s.handlers.length).filter fun h => (s.handlers[h]?).any (·.frameReady)) (fun h => postFrame tag h d addr) m
    else onSlice tag (fun s => { s with withheld := s.withheld.map (· + 1), skipped := true, frameCtrs := bump s.frameCtrs 1 }) m

/-- The frames of a tick for every slice (R133). -/
def assembleFrames (d : AsmDue) (m : Mach) : Mach :=
  let m := forEach (m.cpu.slices.map (·.1)) (assembleFrame d) m
  onDom (fun x => { x with deliverFrom := if x.deliverFrom.any (· < d.t) then none else x.deliverFrom }) m

def estFrameStatus : Cmd where
  code := 0x0511
  len := fun p => layout 8 [(2, 6)] p && rd 1 p 1 < 2
  apply := false
  slice := fun _ t p => rd 1 p 0 == t
  roleOk := clearOk 1
  check := fun m _ p =>
    let t := rd 1 p 0
    if t = 0 || 64 < t then 0x0200 else if sliceThere m t then 0 else 0x0107

/-- The response of EST_FRAME_STATUS. -/
def frameStatusBytes (t : Nat) (m : Mach) : Bytes :=
  match getSlice m t with
  | none => []
  | some s => fields [(8, s.slwTick), (4, s.subver.toNat), (2, s.subs.length), (2, 0)] ++ ctrBytes s.frameCtrs 5

/-- EST_FRAME_STATUS (R144). -/
def execEstFrameStatus (h : Hdr) (p : Bytes) (s : State) : Host.Outcome State Fault Refusal :=
  runOn s (runRead estFrameStatus h p (frameStatusBytes (rd 1 p 0))
    (fun m => if bit (rd 1 p 1) 0 then onSlice (rd 1 p 0) (fun x => { x with frameCtrs := ctrClear x.frameCtrs 5 }) m else m))

end Sys2Proof.Machine
end

