-- ==== Sys2Proof/Machine/Twn.lean ====
section
/-! DEFINITION. The twin unit: heartbeats, liveness, roles and fail-over, mirroring, shadow compare and resynchronisation
(chapter 16). -/
namespace Sys2Proof.Machine
open Sys2Proof

/-- Counter `i` of TWN_STATUS advanced by `k`. -/
def twnCount (i k : Nat) : Mach → Mach := onTwn fun t => { t with ctrs := bumpBy t.ctrs i k }

/-- The code of a role (R416). -/
def roleCode : Role → Nat
  | .starting => 0
  | .standby => 1
  | .active => 2
  | .solo => 3

/-- The role the twin unit sends: starting while the control domain does not run (R510). -/
def sentRole (m : Mach) : Role := if controlRuns m then m.twn.role else .starting

def roleAt (v : Nat) : Role := if v = 0 then .starting else if v = 1 then .standby else if v = 2 then .active else .solo

/-- The member this module is: 0 A, 1 B (R411). -/
def member (m : Mach) : Nat := if m.chn.addr.getD 0 < m.twn.cfg.partner then 0 else 1

/-- The running digest: DIGEST of the copy in force chained over the journal's entries (R487); none without a copy. -/
def runDigest (m : Mach) : Bytes :=
  match m.sec.force with
  | none => []
  | some f => m.sec.journal.foldl (fun d j => shake256 (d ++ le 2 j.code ++ le 8 j.tick ++ j.payload)) f.digest

/-- Sequence number of the configuration in force, and the first 8 bytes of the running digest (R416, R487). -/
def cfgSeqOf (m : Mach) : Nat := (m.sec.force.map (·.seq)).getD 0
def cfgDigOf (m : Mach) : Nat := rd 8 (runDigest m) 0

/-- The image of the whole and of every slice is valid. -/
def imageWhole (m : Mach) : Bool := m.twn.imageValid && m.twn.sliceInvalid == 0

/-- The cause word of R428. -/
def causeWord (m : Mach) : Nat :=
  let t := m.twn
  let live := (List.range 8).any fun p => t.cfg.livePorts.getLsbD p && (getPort m p).any (·.link)
  let sv := m.svi.subs.any fun e => subOn e.2.entry && !e.2.run.invalid && e.2.run.ref.isSome
  b2n (t.testFail != 0) + 2 * b2n (m.dom.memError || m.dom.warning) + 4 * b2n (!(controlRuns m && computeRuns m)) +
  8 * b2n (t.partner.heard && (t.partner.cfgSeq.toNat != cfgSeqOf m || t.partner.cfgDig.toNat != cfgDigOf m)) +
  16 * b2n (t.gridDiff || t.gridNow == some true) + 32 * b2n (!imageWhole m) + 64 * b2n (!live || !sv) + 128 * b2n (t.partner.heard && t.partner.k != t.cfg.k)

def cleanNow (m : Mach) : Bool := causeWord m == 0

-- Roles (R412 to R414, R430 to R433)

/-- Event 0x1001: old role, new role, cause, epoch, and the old active's last mirrored N. Causes: 0 start, 1 failure announced,
2 yield, 3 silence, 4 demotion, 5 pair configured. -/
def roleEvent (old new : Role) (cause : Nat) (m : Mach) : Mach :=
  raise 0x1001 0 (fields [(1, roleCode old), (1, roleCode new), (1, cause), (5, 0), (8, m.twn.epoch.toNat), (8, m.twn.mirrorN.toNat)]) m

/-- A resynchronisation of the standby begins: the image is invalid and a copy is requested (R434). -/
def startResync (m : Mach) : Mach :=
  let r : Resync := { s := m.time.tick + 1, c := none, copied := 0, total := 0, todo := [], touched := [], only := none }
  raise 0x1007 0 (fields [(8, r.s)]) (twnCount 7 1 (onTwn (fun t => { t with imageValid := false, resync := some r, rx := none }) m))

/-- No yield is announced any more. -/
def endYield (t : Twin) : Twin := { t with yield := none, switch := none }

/-- The partner is heard to be clean: its last word said so, and chord and arc have not both been lost since (R420, R430). -/
def partnerClean (m : Mach) : Bool :=
  let t := m.twn
  t.partner.heard && t.partner.clean && !(t.cfg.k ≤ t.chordSilent && t.cfg.k ≤ t.arcSilent)

/-- What every change of role ends. -/
def roleReset (t : Twin) : Twin :=
  { t with ackF := none, ackNow := none, ackLast := none, yield := none, switch := none, failing := false, failAnn := false, released := false,
           listen := none, bothLost := false, heardSq := none }

/-- The module becomes standby. After a yield its slices stay matched; otherwise they are held as the image (R426, R432). -/
def goStandby (cause : Nat) (m : Mach) : Mach :=
  let old := m.twn.role
  let tags := m.cpu.slices.map (·.1)
  let all := tags.foldl (fun a t => a ||| tagBit t) (0 : BitVec 64)
  let m := if cause = 2 then forEach tags baseImage m else m
  let m := onTwn (fun t => { roleReset t with
    role := .standby
    epoch := t.partner.epoch
    matched := if cause = 2 then all else 0
    held := if cause = 2 then 0 else ~~~(0 : BitVec 64)
    cleanLast := false }) m
  upubsQuiet (tripsOut (startResync (roleEvent old .standby cause m)))

/-- An image-held slice starts from its image at take-over: its programs warm, its owned points outside mirror ranges returned
(R432). -/
def takeSlice (tag : Nat) (m : Mach) : Mach :=
  let n := m.time.tick
  let own (r : Range) : Bool := !r.mirror && ((r.ownerKind == 1 && r.owner == tag) ||
    (r.ownerKind == 2 && (tget m.lge.progs r.owner).any fun g => g.owner == tag))
  let m := forEach ((m.lge.progs.filter fun e => e.2.owner == tag && e.2.enabled).map (·.1)) (fun i => restartProg true true i n) m
  raise 0x100C tag (fields [(1, tag), (7, 0), (8, m.twn.mirror)]) (returnWhere own (tickAt m n) m)

/-- A slice held up to now had no frame of the ticks that are still to be assembled (R12, R426). -/
def heldBefore (m : Mach) (s : Slice) : List (Ns × Bool) :=
  if m.time.asm.all (fun d => d.tick == m.time.tick && d.grid == m.time.grid) then s.ran else s.ran ++ [(tickAt m m.time.tick, false)]

/-- The module becomes active: its messages, umber outputs and ring copies act, and held slices start (R413, R432; log entry 82). `epoch` is
the new epoch. -/
def goActive (cause : Nat) (epoch : BitVec 64) (m : Mach) : Mach :=
  let old := m.twn.role
  let tags := (m.cpu.slices.filter fun e => e.2.state == .running && m.twn.held.getLsbD (e.1 - 1)).map (·.1)
  let m := onTwn (fun t => { roleReset t with
    role := .active
    epoch := epoch
    demoted := false
    matched := 0
    held := 0
    sliceInvalid := 0
    imageValid := true
    resync := none
    rx := none
    liveSt := nextNum t.liveSt
    liveSq := 0 }) m
  let m := forEach tags (fun t => onSlice t fun s => { s with ran := heldBefore m s }) m
  let m := when (old == .standby) (twnCount 0 1) (roleEvent old .active cause m)
  let m := onSig (fun g => { g with pubs := tmap g.pubs fun _ b => { b with force := true } }) m
  let m := if old == .standby then forEach tags takeSlice m
    else forEach tags (fun t => startPrograms true t m.time.tick) m
  upubsAct (tripsOut m)

/-- The module enters starting, and listens while its fabric and control domains run (R414). -/
def goStarting (cause : Nat) (m : Mach) : Mach :=
  let old := m.twn.role
  let m := onTwn (fun t => { roleReset t with
    role := .starting
    demoted := false
    matched := 0
    held := ~~~(0 : BitVec 64)
    partner := partnerReset
    heardSq := none
    listen := if fabricRuns m && controlRuns m then some 0 else none }) m
  upubsQuiet (tripsOut (roleEvent old .starting cause m))

/-- A paired module whose fabric and control domains have come to run starts to listen, its slices image-held (R412, R414). -/
def twinStart (m : Mach) : Mach :=
  if m.twn.cfg.on && fabricRuns m && controlRuns m then
    (if m.twn.role != .starting then goStarting 0 m
      else if m.twn.listen.isSome then m
      else onTwn (fun t => { t with
        matched := 0, held := ~~~(0 : BitVec 64), listen := some 0, partner := partnerReset, heardSq := none }) m)
  else m

/-- The end of a listening period (R414). One who has heard a partner that is not active, and is not to start now, listens on. -/
def listenEnd (m : Mach) : Mach :=
  let p := m.twn.partner
  if p.heard then
    (if p.role == .starting && member m = 0 then goActive 0 (p.epoch + 1) m else onTwn (fun t => { t with listen := some 0 }) m)
  else if m.twn.heardSq.isSome then onTwn (fun t => { t with listen := some 0 }) m
  else goActive 0 (m.twn.epoch + 1) m

/-- The active's own failure, announced from the next heartbeat on while the partner is clean (R430). -/
def ownFailure (m : Mach) : Mach :=
  if !m.twn.cfg.on || m.twn.role != .active || m.twn.failing || m.twn.failAnn then m
  else if partnerClean m then onTwn (fun t => { t with failing := true }) m
  else raise 0x1009 0 (fields [(1, 1), (7, 0)]) m

/-- A yield with a handover tick, announced while the partner is clean (R430); `asked` is the TWN_SWITCH that asks for it. -/
def startYield (asked : Option (Hdr × BitVec 32)) (f : Tick) (m : Mach) : Mach :=
  if !m.twn.cfg.on || m.twn.role != .active then m
  else if partnerClean m then onTwn (fun t => { t with yield := some f, switch := asked }) m
  else raise 0x1009 0 (fields [(1, 0), (7, 0), (8, f)]) m

-- Supervision (R418 to R421)

/-- The counts of silent ticks at T(m), over the ticks up to m − 1 (R418). -/
def rollPresence (m : Mach) : Mach :=
  let t := m.twn
  let m := twnCount 2 (b2n !t.chordNow) (twnCount 3 (b2n !t.arcNow) (twnCount 4 (b2n (t.role == .standby && !t.liveNow)) m))
  onTwn (fun t => { t with
    chordLast := t.chordNow
    arcLast := t.arcNow
    liveLast := t.liveNow
    chordNow := false
    arcNow := false
    liveNow := false
    chordSilent := if t.chordNow then 0 else t.chordSilent + 1
    arcSilent := if t.arcNow then 0 else t.arcSilent + 1
    liveAbsent := if t.liveNow then 0 else t.liveAbsent + 1
    failLast := t.failNow
    failNow := false
    ackLast := t.ackNow
    ackNow := none
    gridDiff := t.gridNow.getD t.gridDiff
    gridNow := none }) m

/-- A path lost or restored (R419): `arc` names the path. -/
def pathChange (arc : Bool) (m : Mach) : Mach :=
  let t := m.twn
  let silent := if arc then t.arcSilent else t.chordSilent
  let other := if arc then t.chordSilent else t.arcSilent
  let was := if arc then t.arcLost else t.chordLost
  let set (b : Bool) : Mach → Mach := onTwn fun t => if arc then { t with arcLost := b, degraded := t.degraded || b }
    else { t with chordLost := b, degraded := t.degraded || b }
  if !was && t.cfg.k ≤ silent && other = 0 then raise 0x1002 0 (fields [(1, b2n arc), (7, 0)]) (set true m)
  else if was && silent = 0 then raise 0x1003 0 (fields [(1, b2n arc), (7, 0)]) (set false m)
  else m

/-- Both paths lost while the partner's liveness is present, or one of them back (R420). The active, which hears no liveness
message, judges by the paths alone. -/
def bothChange (m : Mach) : Mach :=
  let t := m.twn
  let live := t.role == .active || t.liveAbsent = 0
  if !t.bothLost && t.cfg.k ≤ t.chordSilent && t.cfg.k ≤ t.arcSilent && live && t.partner.heard then
    raise 0x100E 0 (fields [(1, 3), (1, 1), (6, 0)]) (onTwn (fun t => { t with bothLost := true, degraded := true }) m)
  else if t.bothLost && (t.chordSilent = 0 || t.arcSilent = 0) then
    raise 0x100E 0 (fields [(1, b2n (t.chordSilent = 0) + 2 * b2n (t.arcSilent = 0)), (1, 0), (6, 0)])
      (onTwn (fun t => { t with bothLost := false }) m)
  else m

/-- Liveness absent for K ticks while a path is present, or back (R421). -/
def liveChange (m : Mach) : Mach :=
  let t := m.twn
  if !t.liveLost && t.role == .standby && t.partner.role == .active && t.cfg.k ≤ t.liveAbsent && (t.chordSilent = 0 || t.arcSilent = 0) then
    raise 0x1004 0 (fields [(8, 0)]) (onTwn (fun t => { t with liveLost := true }) m)
  else if t.liveLost && t.liveAbsent = 0 then raise 0x1005 0 (fields [(8, 0)]) (onTwn (fun t => { t with liveLost := false }) m)
  else m

/-- Every condition of supervision at a tick boundary. -/
def supervision (m : Mach) : Mach :=
  let m := liveChange (bothChange (pathChange true (pathChange false m)))
  onTwn (fun t => if t.chordSilent = 0 && t.arcSilent = 0 then { t with degraded := false } else t) m

/-- The standby's clean state reported when it changes (R429). -/
def cleanChange (m : Mach) : Mach :=
  let c := cleanNow m
  if m.twn.role == .standby && c != m.twn.cleanLast then
    raise 0x100A 0 (fields [(1, b2n c), (3, 0), (4, causeWord m)]) (onTwn (fun t => { t with cleanLast := c }) m)
  else m

/-- The standby's decision at T(m) (R431). -/
def standbyDecides (n : Tick) (m : Mach) : Mach :=
  let t := m.twn
  let clean := cleanNow m
  let silent := t.cfg.k ≤ t.chordSilent && t.cfg.k ≤ t.arcSilent && t.cfg.k ≤ t.liveAbsent
  if t.failLast && clean then goActive 1 (t.partner.epoch + 1) m
  else if t.ackLast == some n && clean then goActive 2 (t.partner.epoch + 1) m
  else if silent && clean then goActive 3 (t.partner.epoch + 1) m
  else if silent && !t.released then
    upubsAct (tripsOut (raise 0x100B 0 (fields [(1, 1), (7, 0)]) (onTwn (fun t => { t with released := true }) m)))
  else if t.released && (t.chordLast || t.arcLast) then
    upubsQuiet (tripsOut (raise 0x100B 0 (fields [(1, 0), (7, 0)]) (onTwn (fun t => { t with released := false }) m)))
  else m

/-- The objects a copy carries (R434): regions, retentive state, flagged points, numbering, meters and pulse outputs. -/
def copyObjects (only : Option Nat) (m : Mach) : List (Nat × BitVec 32 × Nat) :=
  let mine (t : Nat) : Bool := only.all (· == t)
  let regs := m.cpu.slices.flatMap fun e => if !mine e.1 then [] else
    ((e.2.regions.zip (List.range e.2.regions.length)).filter fun r => r.1.mirrored).map fun r => (1, BitVec.ofNat 32 (e.1 * 256 + r.2), 0)
  let progs := (m.lge.progs.filter fun e => mine e.2.owner).map fun e => (2, BitVec.ofNat 32 e.1, 0)
  let ownPt (r : Range) : Bool := only.all fun t => (r.ownerKind == 1 && r.owner == t) ||
    (r.ownerKind == 2 && (tget m.lge.progs r.owner).any fun g => g.owner == t)
  let pts := (m.sig.ranges.filter fun r => r.mirror && ownPt r).flatMap fun r =>
    (List.range r.count).map fun k => (3, BitVec.ofNat 32 (r.first + k), 0)
  let rest := if only.isSome then [] else
    m.sig.nums.map (fun e => (4, BitVec.ofNat 32 (if e.1 < 2048 then e.1 else 2 ^ 31 + (e.1 - 2048)), 0)) ++
    m.eng.meters.map (fun e => (6, BitVec.ofNat 32 e.1, 0)) ++ m.eng.outs.map (fun e => (7, BitVec.ofNat 32 e.1, 0))
  regs ++ progs ++ pts ++ rest

/-- The active's side of a resynchronisation at a tick boundary: a copy begins when the standby asks for one, and is over when it
asks no more (R434). -/
def activeCopy (n : Tick) (m : Mach) : Mach :=
  let p := m.twn.partner
  let asks := p.heard && p.role == .standby && !p.imageValid
  let again := m.twn.resync.all fun r => r.todo.isEmpty && r.c.any fun c => c + 1 < p.mirror
  if !asks then onTwn (fun t => { t with resync := none }) m
  else if !again then m
  else
    let only := (List.range 64).find? fun t => m.twn.sliceInvalid.getLsbD t
    let objs := copyObjects (only.map (· + 1)) m
    onTwn (fun t => { t with
      resync := some { s := n, c := none, copied := 0, total := objs.length, todo := objs, touched := [], only := only.map (· + 1) }
      sliceInvalid := only.elim t.sliceInvalid fun k => t.sliceInvalid &&& ~~~tagBit (k + 1) }) m

/-- The active's decisions at T(m) (R430, R433). -/
def activeDecides (n : Tick) (m : Mach) : Mach :=
  let t := m.twn
  if t.demoted then goStandby 4 (twnCount 8 1 m)
  else if t.failAnn then goStarting 1 m
  else if t.failing then
    (if partnerClean m then onTwn (fun t => { t with failAnn := true, failing := false }) m
      else raise 0x1009 0 (fields [(1, 1), (7, 0)]) (onTwn (fun t => { t with failing := false }) m))
  else match t.yield with
    | none => activeCopy n m
    | some f =>
      if f ≤ n then
        (if t.partner.ack && t.partner.handover = f then goStandby 2 (twnCount 1 1 m)
          else raise 0x1009 0 (fields [(1, 0), (7, 0), (8, f)]) (onTwn endYield m))
      else if !partnerClean m then raise 0x1009 0 (fields [(1, 0), (7, 0), (8, f)]) (onTwn endYield m)
      else activeCopy n m

/-- A starting module at a tick boundary (R414). -/
def startingDecides (m : Mach) : Mach :=
  match m.twn.listen with
  | none => m
  | some k =>
    if m.twn.partner.heard && m.twn.partner.role == .active then goStandby 0 m
    else
      let m := onTwn (fun t => { t with listen := some (k + 1) }) m
      if m.twn.cfg.k + 16 ≤ k + 1 then listenEnd m else m

/-- The twin unit at T(n). -/
def twinBoundary (n : Tick) (m : Mach) : Mach :=
  if !m.twn.cfg.on then m
  else
    let m := cleanChange (supervision (rollPresence m))
    let m := if n % m.time.grid.rate = 0 then onTwn (fun t => { t with largest := t.largestNow, largestNow := 0 }) m else m
    match m.twn.role with
    | .standby => standbyDecides n m
    | .active => activeDecides n m
    | .starting => startingDecides m
    | .solo => m

-- Heartbeats (R416 to R418)

/-- ANNOUNCE of a heartbeat: 0 none, 1 yield, 2 failed. -/
def announceOf (m : Mach) : Nat := if m.twn.failAnn then 2 else if m.twn.yield.isSome then 1 else 0

/-- The payload of the chord heartbeat of a tick (R416). -/
def heartbeat (m : Mach) : Bytes :=
  let t := m.twn
  let state := b2n (cleanNow m) + 2 * b2n t.ackF.isSome + 4 * b2n t.degraded + 8 * b2n t.released + 16 * b2n (imageWhole m)
  fields [(1, 1), (1, 1), (1, member m), (1, roleCode (sentRole m)), (1, announceOf m), (1, state), (1, t.cfg.k), (1, 0), (8, m.time.tick),
    (8, t.epoch.toNat), (8, (if t.role == .active then t.yield else t.ackF).getD 0), (8, cfgSeqOf m), (8, cfgDigOf m), (8, t.mirror),
    (4, causeWord m), (4, 0)]

/-- CHORD_HEARTBEAT_SEND: the heartbeat of the tick, launch-timed at T(n) + 1 µs (R416). -/
def execChordHeartbeatSend (s : State) : Host.Outcome State Fault Refusal :=
  runOn s fun m =>
    if !m.twn.cfg.on || !clockRuns m || !m.time.gridOn then m
    else
      let t := tickAt m m.time.tick + 1000
      let m := sendTwin 3 (launchWord t) (heartbeat m) m
      onTwn (fun x => { x with ackNow := x.ackF }) m

/-- The number nearest to one given whose low bits are known. -/
def nearest (w near low : Nat) : Nat :=
  let c := near / 2 ^ w * 2 ^ w + low
  if near + 2 ^ (w - 1) < c ∧ 2 ^ w ≤ c then c - 2 ^ w
  else if c + 2 ^ (w - 1) < near then c + 2 ^ w else c

/-- Evidence that the partner is active with a claim that goes before this module's own (R433). -/
def evidence (epoch : Nat) (m : Mach) : Mach :=
  let own := m.twn.epoch.toNat
  if m.twn.role == .active && (own < epoch || (own = epoch && member m = 1)) then
    onTwn (fun t => { t with demoted := true, partner := { t.partner with role := .active, epoch := .ofNat 64 epoch } }) m
  else m

/-- What every word from the partner brings, whatever its path (R413, R418, R429, R431). -/
def hear (role : Role) (ann : Nat) (clean ack : Bool) (epoch : Nat) (m : Mach) : Mach :=
  let was := m.twn.partner.clean
  let m := onTwn (fun t => { t with
    partner := { t.partner with role := role, announce := ann, clean := clean, ack := ack, epoch := .ofNat 64 epoch, heard := true }
    failNow := t.failNow || ann == 2
    epoch := if t.role == .standby && role == .active then .ofNat 64 epoch else t.epoch }) m
  let m := if m.twn.role == .active && was != clean then raise 0x100A 0 (fields [(1, b2n clean), (7, 0)]) m else m
  if role == .active then evidence epoch m else m

/-- A heartbeat of the partner (R416). -/
def hearChord (p : Bytes) (m : Mach) : Mach :=
  let st := rd 1 p 5
  let ann := rd 1 p 4
  let f := rd 8 p 24
  let m := hear (roleAt (rd 1 p 3)) ann (bit st 0) (bit st 1) (rd 8 p 16) m
  onTwn (fun t => { t with
    chordNow := true
    gridNow := some (t.gridNow.getD false || rd 8 p 8 != m.time.tick)
    ackF := if t.role == .standby && ann == 1 then (if cleanNow m then some f else none) else if ann == 0 then none else t.ackF
    partner := { t.partner with
      imageValid := bit st 4
      k := rd 1 p 6
      tick := rd 8 p 8
      handover := f
      cfgSeq := .ofNat 64 (rd 8 p 32)
      cfgDig := .ofNat 64 (rd 8 p 40)
      mirror := rd 8 p 48 } }) m

/-- The standby's health report reaches the active (R429). -/
def hearReport (p : Bytes) (m : Mach) : Mach := twnCount 9 1 (onTwn (fun t => { t with report := p }) m)

/-- CHORD_HEARTBEAT_RECEIVE: a frame of the twin unit on P8: a heartbeat, or the partner's health report (R418, R429). -/
def execChordHeartbeatReceive (p : Bytes) (s : State) : Host.Outcome State Fault Refusal :=
  runOn s fun m =>
    if !m.twn.cfg.on || !portUp m 8 || !fabricRuns m || p.length < 64 || rd 1 p 1 != 1 || rd 1 p 2 == member m then m
    else if rd 1 p 0 = 1 then hearChord p m
    else if rd 1 p 0 = 3 then hearReport p m
    else m

/-- The arc word of a tick but for its check (R417). -/
def arcWord (m : Mach) : Nat :=
  let t := m.twn
  0xD5 * 2 ^ 56 + member m * 2 ^ 55 + roleCode (sentRole m) * 2 ^ 53 + announceOf m * 2 ^ 51 + b2n (cleanNow m) * 2 ^ 50 +
  b2n t.ackF.isSome * 2 ^ 49 + b2n t.degraded * 2 ^ 48 + m.time.tick % 2 ^ 16 * 2 ^ 32 + t.epoch.toNat % 2 ^ 16 * 2 ^ 16

/-- The check of an arc word: over bits 63:16, the highest byte first. -/
def arcCheck (w : Nat) : Nat := crc16 (be 6 (w / 2 ^ 16))

/-- ARC_WORD_SEND: the member drives its word from T(n) + 1 µs as A, from T(n) + 5 µs as B (R417). -/
def execArcWordSend (s : State) : Host.Outcome State Fault Refusal :=
  runOn s fun m =>
    if !m.twn.cfg.on || !clockRuns m || !m.time.gridOn then m
    else
      let m := advanceTo (tickAt m m.time.tick + (if member m = 0 then 1000 else 5000)) m
      let w := arcWord m
      onTwn (fun x => { x with arcOut := .ofNat 64 (w + arcCheck w), ackNow := x.ackF }) m

/-- ARC_WORD_RECEIVE: a word of the partner on the arc (R418). An acknowledgement on the arc is of the yield announced. -/
def execArcWordReceive (w : BitVec 64) (s : State) : Host.Outcome State Fault Refusal :=
  runOn s fun m =>
    let v := w.toNat
    if !m.twn.cfg.on || !fabricRuns m || bits v 63 56 != 0xD5 || arcCheck v != v % 2 ^ 16 || bits v 55 55 == member m then m
    else
      let m := hear (roleAt (bits v 54 53)) (bits v 52 51) (bit v 50) (bit v 49) (nearest 16 m.twn.epoch.toNat (bits v 31 16)) m
      onTwn (fun t => { t with
        arcNow := true
        gridNow := some (t.gridNow.getD false || bits v 47 32 != m.time.tick % 2 ^ 16)
        partner := { t.partner with handover := if bit v 49 then t.yield.getD t.partner.handover else t.partner.handover } }) m

-- Liveness (R421)

/-- The tag of the pair's liveness messages. -/
def liveTag (c : PairCfg) : Option Nat :=
  if c.vlan.getLsbD 15 then some (c.vlan.toNat % 2 ^ 15 / 2 ^ 12 * 2 ^ 13 + c.vlan.toNat % 4096) else none

/-- LIVENESS_SEND: the active's message of the tick, launch-timed at T(n) + 2 µs (R421; log entry 82). -/
def execLivenessSend (s : State) : Host.Outcome State Fault Refusal :=
  runOn s fun m =>
    let c := m.twn.cfg
    if !c.on || sentRole m != .active || m.twn.demoted || !clockRuns m || !m.time.gridOn then m
    else
      let t := tickAt m m.time.tick + 2000
      let pdu : GoosePdu :=
        { appid := c.appid, simulate := false, auth := none, ref := c.gocb, tal := 2, datSet := [], goId := [],
          tSec := utcSec m t, tFrac := t % nsPerSec * 2 ^ 24 / nsPerSec, tq := timeQuality m.time, stNum := m.twn.liveSt,
          sqNum := m.twn.liveSq, confRev := 0, ndsCom := false, entries := 2,
          data := [.uint (m.twn.epoch.setWidth 32), .bool (member m == 1)] }
      let f := if c.auth then signGoose m c.key c.dmac m.ident.mac (liveTag c) pdu else gooseFrame c.dmac m.ident.mac (liveTag c) pdu
      let dest := ((List.range 8).filter fun p => c.livePorts.getLsbD p && (getPort m p).any (·.cfg.enabled)).map fun p => (p, 4)
      let m := if dest = [] then m else sendInner (innerFrame f 4 14 dest true none (launchWord t) (now m)) m
      onTwn (fun x => { x with liveSq := nextNum x.liveSq }) m

/-- A liveness message brings the epoch of an active partner, which a standby adopts (R413). -/
def hearEpoch (epoch : Nat) : Mach → Mach := onTwn fun t => { t with
  partner := { t.partner with epoch := .ofNat 64 epoch }
  epoch := if t.role == .standby then .ofNat 64 epoch else t.epoch }

/-- LIVENESS_RECEIVE: a liveness message of the partner at the MAC of a port of LIVE_PORTS (R413, R421, R433). Its sqNum is later than
that of the last one accepted, or its epoch is, with which the numbering starts anew (log entry 82). -/
def execLivenessReceive (port : Fin 13) (f : Frame) (s : State) : Host.Outcome State Fault Refusal :=
  runOn s fun m =>
    let c := m.twn.cfg
    match f.body with
    | .goose p =>
      (match p.data with
        | [.uint e, .bool b] =>
          let ok := c.on && fabricRuns m && portUp m port && port.val < 8 && c.livePorts.getLsbD port.val && f.dmac == c.dmac &&
            p.appid == c.appid && p.ref == c.gocb && b2n b != member m && (!c.auth || authCheck m c.key f p.auth == .pass)
          let epoch := nearest 32 m.twn.epoch.toNat e.toNat
          let later := m.twn.heardSq.all fun q => sqAfter q.2 p.sqNum || q.1.toNat < epoch
          if ok && later && m.twn.epoch.toNat ≤ epoch then
            evidence epoch (hearEpoch epoch (onTwn (fun t => { t with liveNow := true, heardSq := some (.ofNat 64 epoch, p.sqNum) }) m))
          else m
        | _ => m)
    | .sv _ => m
    | .ptp _ => m
    | .raw => m

/-- PATH_LOST: a path has been silent for K ticks while the other is present (R419). -/
def execPathLost (arc : Bool) (s : State) : Host.Outcome State Fault Refusal :=
  runOn s fun m => if m.twn.cfg.on then pathChange arc m else m

/-- BOTH_PATHS_LOST: chord and arc have been silent for K ticks while liveness is present (R420). -/
def execBothPathsLost (s : State) : Host.Outcome State Fault Refusal :=
  runOn s fun m => if m.twn.cfg.on then bothChange m else m

/-- LIVENESS_ABSENT: liveness has been absent for K ticks while a path is present (R421). -/
def execLivenessAbsent (s : State) : Host.Outcome State Fault Refusal :=
  runOn s fun m => if m.twn.cfg.on then liveChange m else m

/-- STARTING_LISTEN_END: the listening period of K + 16 ticks is over (R414). -/
def execStartingListenEnd (s : State) : Host.Outcome State Fault Refusal :=
  runOn s fun m =>
    if m.twn.cfg.on && m.twn.role == .starting && m.twn.listen.any (m.twn.cfg.k + 16 ≤ ·) then listenEnd m else m

/-- TWIN_SELF_TEST: the standby has run its built-in tests; each datapath that failed has its bit (R428). -/
def execTwinSelfTest (fail : BitVec 16) (s : State) : Host.Outcome State Fault Refusal :=
  runOn s fun m =>
    if m.twn.cfg.on && m.twn.role == .standby then onTwn (fun t => { t with testFail := fail.setWidth 32 }) m else m

/-- TWIN_HEALTH_REPORT: at a second boundary the standby reports to the active (R429). -/
def execTwinHealthReport (s : State) : Host.Outcome State Fault Refusal :=
  runOn s fun m =>
    if !m.twn.cfg.on || m.twn.role != .standby || !clockRuns m then m
    else
      let t := m.twn
      let body := fields [(1, 3), (1, 1), (1, member m), (5, 0), (8, m.time.clock.sec.toNat), (4, causeWord m), (4, t.testFail.toNat),
        (8, t.matched.toNat), (8, t.held.toNat), (4, t.secMis), (4, t.secInc), (16, 0)]
      onTwn (fun t => { t with secMis := 0, secInc := 0 }) (sendTwin 3 0 body m)

-- Mirror records (R422, R423)

/-- Every point of a range with the mirror flag, as it stands. -/
def mirrorPoints (m : Mach) : Tab PVal :=
  (m.sig.ranges.filter (·.mirror)).flatMap fun r => (List.range r.count).filterMap fun k =>
    (pointAt m.sig (r.first + k)).map fun p => (r.first + k, p.v)

/-- The retentive state of every program as bytes, in whole 64-byte units. -/
def retStates (m : Mach) : Tab Bytes :=
  m.lge.progs.filterMap fun e => (tget m.lge.retained e.1).map fun r =>
    let b := retImage e.2.prog r
    (e.1, padTo (cdiv b.length 64 * 64) b)

/-- A point as a kind 3 record carries it. -/
def pointBody (v : PVal) : Bytes :=
  fields [(8, v.value.toNat), (4, v.quality.toNat), (4, v.tfrac.toNat), (4, v.secLo.toNat), (4, 0)]

/-- The ID of a block's numbering. -/
def blockId (k : Nat) : BitVec 32 := .ofNat 32 (if k < 2048 then k else 2 ^ 31 + (k - 2048))

/-- Kind 6: the registers of a metering point. -/
def meterRec (m : Mach) (i : Nat) : MRec :=
  { kind := 6, id := .ofNat 32 i, body := le 8 m.eng.tick ++
      ((getMeter m i).regs.take 7).flatMap fun r => fields [(8, r.acc.toNat), (2, r.wrap.toNat), (6, 0), (8, r.res.toNat)] }

/-- Kind 7: the store of a pulse output. -/
def outRec (m : Mach) (o : Nat) : MRec :=
  let x := getOut m o
  { kind := 7, id := .ofNat 32 o, body := fields [(8, m.eng.tick), (8, x.store.toNat), (2, x.pending.length), (6, 0)] }

/-- Lines of one slice that follow one another joined into one record. -/
def joinLines (tag : Nat) : List (Nat × Nat × Bytes) → List MRec → List MRec
  | [], acc => acc.reverse
  | (r, off, b) :: rest, acc =>
    let id : BitVec 32 := .ofNat 32 (tag * 256 + r)
    match acc with
    | x :: more =>
      if x.id == id && rd 8 x.body 0 + (x.body.length - 8) == off && x.body.length < 8 + 64 * 100 then
        joinLines tag rest ({ x with body := x.body ++ b } :: more)
      else joinLines tag rest ({ kind := 1, id := id, body := le 8 off ++ b } :: acc)
    | [] => joinLines tag rest [{ kind := 1, id := id, body := le 8 off ++ b }]

/-- The kind 1 records of a slice, up to its quota, and whether lines were left out (R424). -/
def lineRecs (m : Mach) (tag : Nat) : List MRec × Bool :=
  let ls := (m.twn.lines.filter fun x => x.1 == tag).map (·.2)
  let ls := ls.foldl (fun l x => linsert (fun a b => decide (a.1 < b.1) || (a.1 == b.1 && decide (a.2.1 < b.2.1))) x l) []
  let q := tgetD m.twn.quotas tag 0 / 64
  (joinLines tag (ls.take q) [], q < ls.length)

/-- The records of the mirror of tick n as they stand at D(n + 1) (R422), and the slices whose lines are cut off. -/
def mirrorRecs (n : Tick) (m : Mach) : List MRec × List Nat :=
  let tags := (m.twn.lines.map (·.1)).eraseDups
  let k1 := tags.flatMap fun t => (lineRecs m t).1
  let cut := tags.filter fun t => (lineRecs m t).2
  let k2 := (retStates m).flatMap fun e =>
    let old := tgetD m.twn.snapRet e.1 []
    (List.range (e.2.length / 64)).filterMap fun u =>
      if slice e.2 (64 * u) 64 = slice old (64 * u) 64 then none
      else some { kind := 2, id := .ofNat 32 e.1, body := fields [(4, 64 * u), (4, 0)] ++ slice e.2 (64 * u) 64 }
  let k3 := (mirrorPoints m).filterMap fun e =>
    if tget m.twn.snapPts e.1 = some e.2 then none else some { kind := 3, id := .ofNat 32 e.1, body := pointBody e.2 }
  let k4 := m.sig.nums.filterMap fun e =>
    if tget m.twn.snapNums e.1 = some e.2 then none
    else some { kind := 4, id := blockId e.1, body := fields [(4, e.2.1.toNat), (4, e.2.2.toNat)] }
  let k5 : List MRec := [{ kind := 5, id := 0, body := le 8 (newestSeq m) }]
  let pos := n % m.time.grid.rate
  let k6 := if 1 ≤ pos ∧ pos ≤ 256 ∧ (tget m.eng.meters (pos - 1)).isSome then [meterRec m (pos - 1)] else []
  let k7 := if 257 ≤ pos ∧ pos < 273 ∧ (tget m.eng.outs (pos - 257)).isSome then [outRec m (pos - 257)] else []
  let k8 := cut.map fun t => ({ kind := 8, id := .ofNat 32 t, body := [] } : MRec)
  (k1 ++ k2 ++ k3 ++ k4 ++ k5 ++ k6 ++ k7 ++ k8, cut)

/-- What the captures are compared with from now on. -/
def takeSnaps (m : Mach) : Mach :=
  let pts := mirrorPoints m
  let rets := retStates m
  onTwn (fun t => { t with snapPts := pts, snapNums := m.sig.nums, snapRet := rets, lines := [] }) m

/-- The capture of the interval that ends with D of a tick: the mirror of the tick before it. The first tick of a grid has none
before it. -/
def closeCapture (d : AsmDue) (m : Mach) : Mach :=
  if !m.twn.cfg.on then m
  else if d.tick = d.grid.first then takeSnaps m
  else
    let n := d.tick - 1
    let r := mirrorRecs n m
    let m := takeSnaps (onTwn (fun t => { t with captures := ((n, r.1) :: t.captures).take 4 }) m)
    if m.twn.role == .active then
      forEach r.2 (fun t m => raise 0x100D t (fields [(8, n), (1, t), (7, 0)])
        (onTwn (fun x => { x with sliceInvalid := x.sliceInvalid ||| tagBit t }) m)) m
    else m

/-- A record with its header (R423). -/
def mrecBytes (r : MRec) : Bytes := fields [(1, r.kind), (1, 0), (2, r.body.length), (4, r.id.toNat)] ++ r.body

/-- Records packed into frames of at most 9216 bytes. -/
def packFrames : List MRec → List MRec → Nat → List (List MRec)
  | [], cur, _ => [cur.reverse]
  | r :: rest, cur, used =>
    let k := (mrecBytes r).length
    if used + k ≤ 9166 then packFrames rest (r :: cur) (used + k) else cur.reverse :: packFrames rest [r] k

/-- The payload of a mirror or copy frame (R423). -/
def mirrorFrame (sub : Nat) (m : Mach) (frag : Nat) (tick : Tick) (last : Bool) (total : Nat) (rs : List MRec) : Bytes :=
  fields [(1, sub), (1, 1), (1, member m), (1, 0), (2, frag), (2, rs.length), (8, tick), (8, m.twn.epoch.toNat), (2, b2n last), (2, 0),
    (4, if last then total else 0)] ++ rs.flatMap mrecBytes

/-- MIRROR_SEND: the active sends the mirror of the tick last captured (R422, R423). -/
def execMirrorSend (s : State) : Host.Outcome State Fault Refusal :=
  runOn s fun m =>
    if !m.twn.cfg.on || m.twn.role != .active then m
    else match m.twn.captures with
      | [] => m
      | (n, rs) :: _ =>
        if n = m.twn.mirror then m
        else
          let fr := packFrames rs [] 0
          let total := (rs.map fun r => (mrecBytes r).length).sum
          let m := forEach (fr.zip (List.range fr.length)) (fun x m =>
            sendTwin 3 0 (mirrorFrame 2 m x.2 n (x.2 + 1 == fr.length) total x.1) m) m
          onTwn (fun t => { t with mirror := n, largestNow := max t.largestNow total }) m

-- Reception (R425, R426)

/-- The records of a frame. -/
def parseRecs : Nat → Bytes → List MRec
  | 0, _ => []
  | n + 1, b =>
    if b.length < 8 then []
    else
      let len := rd 2 b 2
      { kind := rd 1 b 0, id := .ofNat 32 (rd 4 b 4), body := slice b 8 len } :: parseRecs n (b.drop (8 + len))

/-- A record as its 64-byte units: offset and bytes; records of other kinds are one unit. -/
def recUnits (r : MRec) : List (Nat × Bytes) :=
  if r.kind = 1 ∨ r.kind = 2 then
    let o := if r.kind = 1 then rd 8 r.body 0 else rd 4 r.body 0
    (List.range ((r.body.length - 8) / 64)).map fun u => (o + 64 * u, slice r.body (8 + 64 * u) 64)
  else [(0, r.body)]

/-- The slice a record of kinds 1 to 3 belongs to: of a point, the owner or the owner of the program that owns it. -/
def recSlice (m : Mach) (r : MRec) : Option Nat :=
  let i := r.id.toNat
  if r.kind = 1 then some (i / 256 % 256)
  else if r.kind = 2 then (tget m.lge.progs i).map (·.owner)
  else if r.kind = 3 then
    (match ownerOf m i with
      | some (k, o) => if k = 1 then some o else if k = 2 then (tget m.lge.progs o).map (·.owner) else none
      | none => none)
  else none

/-- The bytes of a program's retentive state with a unit put in. -/
def patch (b : Bytes) (off : Nat) (u : Bytes) : Bytes := padTo off b ++ u ++ b.drop (off + u.length)

/-- A point that a kind 3 record carries. -/
def bodyPoint (b : Bytes) : PVal :=
  { value := .ofNat 64 (rd 8 b 0), quality := .ofNat 32 (rd 4 b 8), tfrac := .ofNat 32 (rd 4 b 12), secLo := .ofNat 32 (rd 4 b 16) }

/-- Numbering raised to at least a mirrored value (R426). -/
def raiseNums (k : Nat) (st sq : BitVec 32) (m : Mach) : Mach :=
  let o := tgetD m.sig.nums k (0, 0)
  if o.1.toNat < st.toNat ∨ (o.1 = st ∧ o.2.toNat < sq.toNat) then onSig (fun g => { g with nums := tset g.nums k (st, sq) }) m else m

/-- A register as a kind 6 body holds it. -/
def bodyReg (b : Bytes) (j : Nat) : Reg :=
  { acc := .ofNat 64 (rd 8 b (8 + 24 * j)), wrap := .ofNat 16 (rd 2 b (16 + 24 * j)), res := .ofNat 64 (rd 8 b (24 + 24 * j)) }

/-- A register set to the active's value after tick N plus the standby's own increments since: its own change since the same
record of its own (R426). -/
def mirrorReg (mirrored own now : Reg) : Reg :=
  let total (r : Reg) : Int := ((r.wrap.toNat * 2 ^ 64 + r.acc.toNat : Nat) : Int)
  (regAdd mirrored (add64 (int64 (total now - total own)) (sub64 now.res own.res))).1

/-- A kind 6 record applied: its N names the tick after whose increments the active read its registers (log entry 82). -/
def mirrorMeter (r : MRec) (m : Mach) : Mach :=
  let reg (x : Meter) (j : Nat) : Reg :=
    match x.past.find? (·.1 ≤ rd 8 r.body 0) with
    | some o => mirrorReg (bodyReg r.body j) (o.2.getD j regInit) (x.regs.getD j regInit)
    | none => bodyReg r.body j
  onMeter r.id.toNat (fun x => { x with regs := (List.range 7).map (reg x) }) m

/-- A kind 7 record applied: the store and the pending count are replaced (R426). -/
def mirrorOut (r : MRec) : Mach → Mach :=
  onOut r.id.toNat fun x =>
    let n := rd 2 r.body 16
    { x with store := .ofNat 64 (rd 8 r.body 8), pending := (x.pending ++ List.replicate n (0, x.cfg.width)).take n }

/-- One unit of a record applied to a held slice's own state, or to the image of a matched one (R426). -/
def applyUnit (kind : Nat) (id : BitVec 32) (off : Nat) (b : Bytes) (m : Mach) : Mach :=
  let i := id.toNat
  match recSlice m { kind := kind, id := id, body := b } with
  | none => m
  | some tag =>
    let held := m.twn.held.getLsbD (tag - 1)
    let image := !held || m.cpu.fills.any fun f => f.tag == tag && f.kind == .image
    if kind = 1 then
      (match (getSlice m tag).bind fun s => s.regions[i % 256]? with
        | none => m
        | some r =>
          if !r.mirrored || r.size < off + 64 then m
          else
            let m := if held then slcPut tag (r.vbase + off) b m else m
            if image then onMem (fun mem => memPut mem (imageKey tag (r.vbase + off)) b) m else m)
    else if kind = 2 then
      (match tget m.lge.progs i with
        | none => m
        | some g =>
          let old := match tget m.lge.retained i with
            | some r => retImage g.prog r
            | none => []
          let m := if held then onLge (fun l => { l with retained := tset l.retained i (retParse g.prog (patch old off b)) }) m else m
          if image then onTwn (fun t => { t with imgRet := tset t.imgRet i (patch (tgetD t.imgRet i old) off b) }) m else m)
    else
      let m := if held then putPoint i (bodyPoint b) m else m
      if image then onTwn (fun t => { t with imgPts := tset t.imgPts i (bodyPoint b) }) m else m

/-- A record applied: `copy` says that it comes from a copy, which leaves alone the units that the mirror has written (R434). -/
def applyRec (copy : Bool) (tick : Tick) (r : MRec) (m : Mach) : Mach :=
  let done (off : Nat) : Bool := m.twn.resync.any fun x => x.touched.contains (r.kind, r.id, off)
  let us := (recUnits r).filter fun u => !(copy && done u.1)
  let touch (x : Resync) : Resync := if tick < x.s then x
    else { x with touched := x.touched ++ (us.map fun u => (r.kind, r.id, u.1)).filter fun y => !x.touched.contains y }
  let m := if copy then m else onTwn (fun t => { t with resync := t.resync.map touch }) m
  if r.kind = 1 ∨ r.kind = 2 ∨ r.kind = 3 then forEach us (fun u => applyUnit r.kind r.id u.1 u.2) m
  else if us = [] then m
  else if r.kind = 4 then
    let k := if r.id.getLsbD 31 then 2048 + r.id.toNat % 2 ^ 31 else r.id.toNat
    raiseNums k (.ofNat 32 (rd 4 r.body 0)) (.ofNat 32 (rd 4 r.body 4)) m
  else if r.kind = 5 then (if copy then m else onTwn (fun t => { t with mirrorN := .ofNat 64 (rd 8 r.body 0) }) m)
  else if r.kind = 6 then (if (tget m.eng.meters r.id.toNat).isSome then mirrorMeter r m else m)
  else if r.kind = 7 then (if (tget m.eng.outs r.id.toNat).isSome then mirrorOut r m else m)
  else if r.kind = 8 then onTwn (fun t => { t with sliceInvalid := t.sliceInvalid ||| tagBit r.id.toNat }) m
  else m

-- Shadow compare (R427)

/-- A mismatch counted and reported. -/
def mismatch (tag kind : Nat) (m : Mach) : Mach :=
  raise 0x1006 tag (fields [(1, tag), (1, kind), (6, 0)]) (twnCount 6 1 (onTwn (fun t => { t with secMis := t.secMis + 1 }) m))

/-- A slice that differs becomes image-held, and its image is to be copied into its regions. -/
def holdSlice (tag kind : Nat) (m : Mach) : Mach :=
  queueFill tag .image (mismatch tag kind
    (onTwn (fun t => { t with matched := t.matched &&& ~~~tagBit tag, held := t.held ||| tagBit tag }) m))

/-- The units of some records. -/
def unitsOf (rs : List MRec) : List (Nat × BitVec 32 × Nat × Bytes) := rs.flatMap fun r => (recUnits r).map fun u => (r.kind, r.id, u.1, u.2)

/-- The kind of the first unit that only one of two lists holds. -/
def firstDiff (a b : List (Nat × BitVec 32 × Nat × Bytes)) : Option Nat :=
  ((a.filter fun x => !b.contains x) ++ (b.filter fun x => !a.contains x)).head?.map (·.1)

/-- The captures of both members for a tick compared. -/
def compareTick (mine theirs : List MRec) (m : Mach) : Mach :=
  let cut (t : Nat) : Bool := theirs.any fun r => r.kind == 8 && r.id.toNat == t
  let of_ (t : Option Nat) (rs : List MRec) : List MRec := rs.filter fun r => 1 ≤ r.kind && r.kind ≤ 3 && recSlice m r == t
  let m := forEach ((m.cpu.slices.map (·.1)).filter fun t => m.twn.matched.getLsbD (t - 1) && !cut t) (fun t m =>
    match firstDiff (unitsOf (of_ (some t) mine)) (unitsOf (of_ (some t) theirs)) with
    | none => m
    | some k => holdSlice t k m) m
  let nums (rs : List MRec) : List MRec := rs.filter fun r => r.kind == 4
  let m := when (firstDiff (unitsOf (of_ none mine)) (unitsOf (of_ none theirs))).isSome (mismatch 0 3) m
  when (firstDiff (unitsOf (nums mine)) (unitsOf (nums theirs))).isSome (mismatch 0 4) m

/-- The resynchronisation is over once the copy is complete and the mirror ticks up to c + 1 are applied (R434). -/
def resyncDone (m : Mach) : Mach :=
  match m.twn.resync with
  | none => m
  | some r =>
    if r.c.any fun c => c + 1 ≤ m.twn.mirror then
      raise 0x1008 0 (fields [(8, m.twn.mirror)]) (onTwn (fun t => { t with
        resync := none
        imageValid := r.only.isSome && t.imageValid || r.only.isNone
        sliceInvalid := r.only.elim 0 fun k => t.sliceInvalid &&& ~~~tagBit k }) m)
    else m

/-- A complete mirror tick applied and compared (R425 to R427). -/
def takeMirror (tick : Tick) (rs : List MRec) (m : Mach) : Mach :=
  let mine := m.twn.captures.find? fun c => c.1 == tick
  let m := forEach rs (applyRec false tick) m
  let m := onTwn (fun t => { t with mirror := tick, rx := none }) m
  let m := match mine with
    | none => m
    | some c => compareTick c.2 rs m
  let m := if m.twn.sliceInvalid != 0 && m.twn.imageValid && m.twn.resync.isNone then
      let k := ((List.range 64).find? fun t => m.twn.sliceInvalid.getLsbD t).map (· + 1)
      onTwn (fun t => { t with resync := some { s := m.time.tick + 1, c := none, copied := 0, total := 0, todo := [], touched := [], only := k } }) m
    else m
  resyncDone m

/-- A mirror tick that is not complete in time: discarded and counted, and resynchronisation begins anew (R425, R434). -/
def mirrorLate (tick : Tick) (m : Mach) : Mach :=
  let m := twnCount 5 1 (onTwn (fun t => { t with secInc := t.secInc + 1, rx := none }) m)
  let m := raise 0x100D 0 (fields [(8, tick)]) m
  let m := onTwn (fun t => { t with matched := 0, held := ~~~(0 : BitVec 64) }) m
  startResync m

/-- The mirror of tick n judged at D(n + 2): the standby expects it from the first tick its image covers (R425). -/
def judgeMirror (n : Tick) (m : Mach) : Mach :=
  let due := match m.twn.resync with
    | some r => r.s ≤ n
    | none => m.twn.imageValid
  if m.twn.cfg.on && m.twn.role == .standby && due && m.twn.mirror < n then mirrorLate n m else m

/-- The frames of a tick are complete (R425). -/
def rxComplete (x : MirrorRx) : Bool :=
  match x.frames.find? fun f => f.2.1 with
  | none => false
  | some l => (List.range (l.1 + 1)).all (fun k => x.frames.any fun f => f.1 == k) &&
      ((x.frames.flatMap fun f => f.2.2.2).map fun r => (mrecBytes r).length).sum == l.2.2.1

/-- A mirror frame of the partner; a tick whose D(n + 2) has come has been judged, and what still comes of it is discarded (R425). -/
def hearMirror (p : Bytes) (m : Mach) : Mach :=
  let tick := rd 8 p 8
  let fr := (rd 2 p 4, bit (rd 2 p 24) 0, rd 4 p 28, parseRecs (rd 2 p 6) (p.drop 32))
  let old := match m.twn.rx with
    | some x => if x.tick = tick then x.frames else []
    | none => []
  let x : MirrorRx := { tick := tick, frames := linsert (fun a b => decide (a.1 < b.1)) fr (old.filter fun f => f.1 != fr.1) }
  if tick + 2 < nextAssembly m then m
  else if rxComplete x then takeMirror tick (x.frames.flatMap fun f => f.2.2.2) m else onTwn (fun t => { t with rx := some x }) m

/-- A frame of the twin unit from the partner to a standby, of a subtype. -/
def toStandby (m : Mach) (sub : Nat) (p : Bytes) : Bool :=
  m.twn.cfg.on && m.twn.role == .standby && fabricRuns m && portUp m 8 && 32 ≤ p.length && rd 1 p 0 == sub && rd 1 p 1 == 1 &&
  rd 1 p 2 != member m

/-- MIRROR_FRAME_RECEIVE: a mirror frame of the active (R425). -/
def execMirrorFrameReceive (p : Bytes) (s : State) : Host.Outcome State Fault Refusal :=
  runOn s fun m => if toStandby m 2 p then hearMirror p m else m

/-- MIRROR_INCOMPLETE: the clock reaches D(n + 2), and the mirror of tick n is not complete (R425). -/
def execMirrorIncomplete (s : State) : Host.Outcome State Fault Refusal :=
  runOn s fun m =>
    if !clockRuns m || !m.time.gridOn || nextAssembly m < 2 then m
    else judgeMirror (nextAssembly m - 2) (advanceTo (nextAsmAt m) m)

-- The copy (R434)

/-- One record of a copy from an object's offset on, and the offset that comes after it, if any. -/
def copyRec (m : Mach) (x : Nat × BitVec 32 × Nat) : Option MRec × Option Nat :=
  let (kind, id, off) := x
  let i := id.toNat
  if kind = 1 then
    (match (getSlice m (i / 256)).bind fun s => (s.regions[i % 256]?).map fun r => r with
      | none => (none, none)
      | some r =>
        let n := min 9088 (r.size - off)
        (some { kind := 1, id := id, body := le 8 off ++ slcGet m (i / 256) (r.vbase + off) n }, if off + n < r.size then some (off + n) else none))
  else if kind = 2 then
    (match tget (retStates m) i with
      | none => (none, none)
      | some b =>
        let n := min 9088 (b.length - off)
        (some { kind := 2, id := id, body := fields [(4, off), (4, 0)] ++ slice b off n }, if off + n < b.length then some (off + n) else none))
  else if kind = 3 then ((pointAt m.sig i).map fun p => { kind := 3, id := id, body := pointBody p.v }, none)
  else if kind = 4 then
    let n := tgetD m.sig.nums (if 2 ^ 31 ≤ i then 2048 + i % 2 ^ 31 else i) (0, 0)
    (some { kind := 4, id := id, body := fields [(4, n.1.toNat), (4, n.2.toNat)] }, none)
  else if kind = 6 then (some (meterRec m i), none)
  else (some (outRec m i), none)

/-- RESYNC_COPY_SEND: the active sends the next frame of a copy; with the last goes the tick of its last read (R434). -/
def execResyncCopySend (s : State) : Host.Outcome State Fault Refusal :=
  runOn s fun m =>
    if !m.twn.cfg.on || m.twn.role != .active then m
    else match m.twn.resync with
      | none => m
      | some r =>
        let c := nextAssembly m - 1
        let last (rs : List MRec) (m : Mach) : Mach :=
          let rs := rs ++ [{ kind := 5, id := 0, body := le 8 c }]
          sendTwin 1 0 (mirrorFrame 4 m 0 r.s true ((rs.map fun y => (mrecBytes y).length).sum) rs)
            (onTwn (fun t => { t with resync := some { r with todo := [], c := some c, copied := r.total } }) m)
        if r.c.isSome then m
        else match r.todo with
          | [] => last [] m
          | x :: rest =>
            let y := copyRec m x
            let todo := match y.2 with
              | some o => (x.1, x.2.1, o) :: rest
              | none => rest
            if todo = [] then last y.1.toList m
            else
              let rs := y.1.toList
              sendTwin 1 0 (mirrorFrame 4 m 0 r.s false 0 rs)
                (onTwn (fun t => { t with resync := some { r with todo := todo, copied := r.copied + (if y.2.isNone then 1 else 0) } }) m)

/-- A copy frame of the active. -/
def hearCopy (p : Bytes) (m : Mach) : Mach :=
  match m.twn.resync with
  | none => m
  | some r =>
    let rs := parseRecs (rd 2 p 6) (p.drop 32)
    let m := forEach rs (applyRec true (rd 8 p 8)) m
    let c := (rs.find? fun x => x.kind == 5).map fun x => rd 8 x.body 0
    let m := onTwn (fun t => { t with resync := t.resync.map fun y =>
      { y with c := if bit (rd 2 p 24) 0 then c else r.c, copied := y.copied + p.length, total := y.total + p.length } }) m
    resyncDone m

/-- RESYNC_COPY_RECEIVE: a copy frame of the active (R434). -/
def execResyncCopyReceive (p : Bytes) (s : State) : Host.Outcome State Fault Refusal :=
  runOn s fun m => if toStandby m 4 p then hearCopy p m else m

-- The mirror budget (R424)

/-- The budget in bytes: what P8 carries in 0.7 tick, in whole KiB, at most 256 KiB. -/
def mirrorBudget (m : Mach) (rate : Nat) : Nat :=
  let speed := ((getPort m 8).map (·.cfg.speed)).getD 0
  let perSec := if speed = 0 then 3125000000 else if speed ≤ 2 then 1250000000 else 125000000
  min 256 (perSec * 7 / (10 * rate) / 1024) * 1024

/-- The worst-case mirror of a tick, frame overheads included. -/
def worstMirror (m : Mach) : Nat :=
  let quotas := (m.cpu.slices.map fun e =>
    let k := (e.2.regions.filter (·.mirrored)).length
    if k = 0 then 0 else tgetD m.twn.quotas e.1 0 + 16 * k).sum
  let rets := (m.lge.progs.map fun e => 8 * cdiv (retBytes e.2.prog) 64).sum
  let pts := ((m.sig.ranges.filter (·.mirror)).map fun r => 32 * r.count).sum
  let total := quotas + rets + pts + 16 * ((m.sig.pubs.filter fun e => e.2.entry.members != []).length + m.umb.pubs.length) + 184
  total + 38 * cdiv total 9216

/-- The worst case exceeds the budget, whether or not the module is one of a pair now (R24, R424; log entry 82). -/
def mirrorOver (m : Mach) : Bool := mirrorBudget m m.time.grid.rate < worstMirror m

/-- A change raises the worst case above the budget, lowers the budget under it, or makes a pair that does not fit (R424; log entry 82). -/
def mirrorRaised (old new : Mach) : Bool :=
  mirrorOver new && (worstMirror old < worstMirror new || mirrorBudget new new.time.grid.rate < mirrorBudget old old.time.grid.rate ||
    (new.twn.cfg.on && !old.twn.cfg.on))

-- Commands

/-- The settings of a TWN_PAIR_SET. -/
def pairReq (p : Bytes) : PairCfg :=
  { on := bit (rd 1 p 0) 0, auth := bit (rd 1 p 0) 1, partner := rd 1 p 1, k := rd 1 p 2, livePorts := .ofNat 8 (rd 1 p 3),
    appid := rd 2 p 4, dmac := .ofNat 48 (rdBe 6 p 6), vlan := .ofNat 16 (rd 2 p 12), key := rd 2 p 14, gocb := slice p 32 (rd 1 p 16) }

def twnPairSet : Cmd where
  code := 0x1001
  len := fun p => p.length == 96
  right := rConfig
  m2 := true
  journal := true
  sched := true
  check := fun m _ p =>
    let c := pairReq p
    firstFail [
      (31 < c.partner || m.chn.addr == some c.partner, 0x0200),
      (3 < rd 1 p 0 || c.k = 0 || 16 < c.k || !zeros p 17 15 || rd 1 p 16 = 0 || 64 < rd 1 p 16 || 1024 ≤ c.key ||
        !zeros p (32 + rd 1 p 16) (64 - rd 1 p 16), 0x0201)]

/-- TWN_PAIR_SET at its effective tick. A pair newly made starts as after a start; a pair that is dissolved leaves a solo module. -/
def applyPairSet (p : Bytes) (m : Mach) : Mach :=
  let c := pairReq p
  let was := m.twn.cfg.on
  let m := onTwn (fun t => { t with cfg := c }) m
  if c.on && !was then takeSnaps (goStarting 5 m)
  else if !c.on && was then
    tripsOut (roleEvent m.twn.role .solo 5 (onTwn (fun t => { roleReset t with
      role := .solo
      matched := 0
      held := 0
      demoted := false
      resync := none
      imageValid := false
      sliceInvalid := 0
      chordLost := false
      arcLost := false
      liveLost := false
      degraded := false }) m))
  else m

def twnQuotaSet : Cmd where
  code := 0x1002
  len := fun p => p.length == 8
  right := rConfig
  m2 := true
  journal := true
  sched := true
  check := fun m _ p =>
    let after := onTwn (fun t => { t with quotas := tset t.quotas (rd 1 p 0) (rd 4 p 4) }) m
    firstFail [
      (!sliceThere m (rd 1 p 0), 0x0207),
      (rd 4 p 4 % 64 != 0 || !zeros p 1 3, 0x0201),
      (mirrorRaised m after, 0x0204)]

/-- TWN_QUOTA_SET at its effective tick. -/
def applyQuotaSet (p : Bytes) : Mach → Mach := onTwn fun t => { t with quotas := tset t.quotas (rd 1 p 0) (rd 4 p 4) }

def twnSwitch : Cmd where
  code := 0x1003
  len := layout 8 [(0, 8)]
  right := rConfig
  check := fun m _ _ => firstFail [
    (m.twn.role != .active, 0x0202),
    (!partnerClean m, 0x0203),
    (m.twn.yield.isSome, 0x0205)]
  res := fun m _ _ => if 4096 ≤ scheduledCount m then 0x0104 else 0

/-- TWN_SWITCH: answered 0x0001 with the handover tick, and announced to the standby (R430). -/
def execTwnSwitch (h : Hdr) (p : Bytes) (s : State) : Host.Outcome State Fault Refusal :=
  runOn s (judged twnSwitch h p fun h m =>
    let f := effTick m h
    let role := roleOf m h
    respond 0x1003 h role f 1 (le 8 f) (startYield (some (h, role)) f (raiseAccepted 0x1003 h role f 1 m)))

def twnStatus : Cmd where
  code := 0x1010
  len := fun p => p.length == 8 && rd 1 p 0 / 2 == 0 && zeros p 1 7
  apply := false
  roleOk := clearOk 0

/-- The response of TWN_STATUS. -/
def twnStatusBytes (m : Mach) : Bytes :=
  let t := m.twn
  let role := if t.cfg.on then t.role else .solo
  let flags := b2n t.chordLast + 2 * b2n t.arcLast + 4 * b2n t.liveLast + 8 * b2n t.degraded + 16 * b2n (cleanNow m) +
    32 * b2n t.partner.clean + 64 * b2n (imageWhole m) + 128 * b2n t.released
  let copied := (t.resync.map (·.copied)).getD 0
  let total := (t.resync.map (·.total)).getD 0
  fields [(1, roleCode role), (1, member m), (1, roleCode t.partner.role), (1, flags), (4, causeWord m), (8, t.epoch.toNat), (8, t.mirror),
    (8, t.matched.toNat), (8, t.held.toNat), (4, t.largest), (4, mirrorBudget m m.time.grid.rate), (4, copied / 1024), (4, total / 1024)] ++
  ctrBytes t.ctrs 10

/-- TWN_STATUS (R436). -/
def execTwnStatus (h : Hdr) (p : Bytes) (s : State) : Host.Outcome State Fault Refusal :=
  runOn s (runRead twnStatus h p twnStatusBytes
    (fun m => if bit (rd 1 p 0) 0 then onTwn (fun t => { t with ctrs := ctrClear t.ctrs 10 }) m else m))

end Sys2Proof.Machine
end

