-- ==== Sys2Proof/Machine/Time.lean ====
section
/-! DEFINITION. Clock discipline, PTP, the time states and the TIME commands (chapter 02). -/
namespace Sys2Proof.Machine
open Sys2Proof

-- The increment and offset-adds (R31 to R35)

/-- A_max of a tick rate: the smaller of 10 000 ns and 12 slot lengths (R33). -/
def offsetMax (rate : Nat) : Nat := min 10000 (12 * nsPerSec / (rate * 256))

/-- PTP disciplines the clock: it is on, and a master is present. -/
def disciplined (t : TimeUnit) : Bool := t.cfg.profile != 0 && t.run.master.isSome

/-- Master holdover with no master present: the increment and the clock are left alone (R39). -/
def coasting (t : TimeUnit) : Bool := t.state == .holdover && t.run.master.isNone

/-- The CP firmware acts on the time unit. -/
def firmwareActs (m : Mach) : Bool := controlRuns m && clockRuns m

/-- INCREMENT_WRITE: the CP firmware writes the increment, which it keeps within 200 ppm of nominal (R32) and leaves alone
in master holdover (R39). -/
def execIncrementWrite (v : BitVec 64) (s : State) : Host.Outcome State Fault Refusal :=
  runOn s fun m =>
    let w := v.toNat % 2 ^ 44
    let d := if w < 2 ^ 41 then 2 ^ 41 - w else w - 2 ^ 41
    if !firmwareActs m || 2 ^ 41 < d * 5000 || coasting m.time then m
    else onTime (fun t => { t with increment := .ofNat 64 w }) m

/-- An offset-add written: held pending, or refused and counted (R33, R34). -/
def writeOffset (d : Int) (m : Mach) : Mach :=
  if m.time.offPending.isSome || offsetMax m.time.grid.rate < d.natAbs then
    onTime (fun t => { t with offRefused := t.offRefused + 1 }) m
  else onTime (fun t => { t with offPending := some d, run := { t.run with lastAdd := some t.ticks } }) m

/-- OFFSET_ADD_WRITE: the CP firmware writes an offset-add (R34). While PTP disciplines the clock it makes at most one in 16
ticks (R35), and none in master holdover (R39). -/
def execOffsetAddWrite (v : Int) (s : State) : Host.Outcome State Fault Refusal :=
  runOn s fun m =>
    let soon := disciplined m.time && m.time.run.lastAdd.any fun k => m.time.ticks < k + 16
    let early := soon && m.time.offPending.isNone && v.natAbs ≤ offsetMax m.time.grid.rate
    if !firmwareActs m || early || coasting m.time then m else writeOffset v m

-- Time states (R38, R39)

/-- The time unit enters holdover. -/
def enterHoldover (k : HoldKind) : Mach → Mach := onTime fun t => { t with
  state := .holdover, holdKind := k, holdRef := t.ref, holds := t.holds + 1 }

/-- An offset-add that still waits is dropped: the clock receives none any more (R20, R39). That it is dropped, and not counted, is
the model's choice (log entry 67). -/
def dropOffset : Mach → Mach := onTime fun t => { t with offPending := none }

/-- No master disciplines the clock any more: a synchronised unit enters master holdover, an excursion becomes one with its
elapsed time, and no offset-add is made in it (R39). -/
def holdMaster (m : Mach) : Mach :=
  match m.time.state with
  | .synchronised => dropOffset (enterHoldover .master m)
  | .holdover => dropOffset (onTime (fun t => { t with holdKind := .master }) m)
  | .expired => m
  | .freeRunning => m

/-- The master is lost: what has been counted toward synchronisation is void (R39). -/
def loseMaster (m : Mach) : Mach :=
  holdMaster (onTime (fun t => { t with run := { t.run with
    heard := t.run.heard.filter fun x => t.run.master.all fun y => x.port != y.port
    master := none
    good := 0 } }) m)

/-- The control domain leaves running: the clock is left to itself, without a phase correction, and what the CP's PTP protocol held is
gone (R20). -/
def timeControlDown (m : Mach) : Mach :=
  holdMaster (dropOffset <| onTime (fun t => { t with run := { t.run with
    heard := [], master := none, good := 0, step := none, pdelays := [], syncs := [], sentRef := none } }) m)

/-- HOLDOVER_LIMIT_EXPIRE: holdover has lasted as long as its limit, on the module's own time base (R39). -/
def execHoldoverLimitExpire (s : State) : Host.Outcome State Fault Refusal :=
  runOn s fun m =>
    if !clockRuns m || m.time.state != .holdover then m
    else
      let due := m.time.holdRef + m.time.cfg.limit * (nsPerSec / 2)
      onTime (fun t => { t with state := .expired, expiries := t.expiries + 1 }) (passCycles (due - m.time.ref) m)

/-- The unit has synchronised, or the offset shows an excursion (R38). -/
def judgeOffset (off : Int) (m : Mach) : Mach :=
  let t := m.time
  let good := if off.natAbs ≤ t.cfg.lock then t.run.good + 1 else 0
  let m := onTime (fun t => { t with run := { t.run with lastOffset := off, good := good } }) m
  if t.state = .synchronised then (if 4 * t.cfg.lock < off.natAbs then enterHoldover .excursion m else m)
  else if 8 ≤ good then onTime (fun t => { t with state := .synchronised }) m
  else m

/-- A step asked for by TIME_STEP waits among the scheduled changes. -/
def stepScheduled (m : Mach) : Bool := m.mbx.scheduled.any fun c => c.code == 0x0211

/-- An offset above the step threshold is removed by a step at the next tick boundary (R35). -/
def decideStep (off : Int) (m : Mach) : Mach :=
  if off.natAbs ≤ m.time.cfg.step * 1000 || m.time.run.step.isSome || stepScheduled m || !m.time.gridOn then m
  else onTime (fun t => { t with run := { t.run with step := some ((tickStart t.grid (t.tick + 1) : Int) - off).toNat } }) m

-- PTP (R36)

/-- The order of the IEEE 1588 comparison. -/
def keyLess : List Nat → List Nat → Bool
  | [], _ => false
  | _ :: _, [] => false
  | a :: as, b :: bs => a < b || (a == b && keyLess as bs)

/-- An Announce and a Sync interval of the profiles in reference cycles: 1 s (log entry 39). -/
def ptpPeriod : Nat := 500000000

/-- The reference cycle at which a master's Announce messages have been absent for announceReceiptTimeout intervals, and that at which
the followed one's Sync messages have been for 3 (R36, R39). -/
def announceDue (x : Master) : Nat := x.ref + 3 * ptpPeriod
def syncDue (t : TimeUnit) : Nat := t.run.syncRef + 3 * ptpPeriod

/-- The module's own clock as a master would be compared: its priorities, and the default quality of a clock that is no
reference (class 248, accuracy and variance unknown; IEEE 1588). -/
def ownKey (m : Mach) : List Nat :=
  [m.time.cfg.prio1, 0xF8FEFFFF, m.time.cfg.prio2, (portMac m 0).toNat * 2 ^ 16, 0]

/-- The masters heard whose Announce messages have not timed out (R36). -/
def heardNow (t : TimeUnit) : List Master := t.run.heard.filter fun x => t.ref < announceDue x

/-- The best master heard, if it is better than the module itself may be. -/
def bestMaster (m : Mach) : Option Master :=
  let best := (heardNow m.time).foldl (fun b x => match b with
    | none => some x
    | some y => if keyLess x.key y.key then some x else some y) none
  best.filter fun x => m.time.cfg.ctype == 1 || keyLess x.key (ownKey m)

/-- A PTP port: one of the ports set, and enabled. -/
def ptpPort (m : Mach) (p : Nat) : Bool :=
  m.time.cfg.ports.getLsbD p && (getPort m p).any fun x => x.cfg.enabled

/-- The master followed after the masters heard have changed; the count toward synchronisation is the master's own. -/
def chooseMaster (m : Mach) : Mach :=
  match bestMaster m with
  | none => if m.time.run.master.isSome then loseMaster m else m
  | some x =>
    let same := m.time.run.master.any fun y => y.port == x.port && y.gm == x.gm
    onTime (fun t => { t with run := { t.run with
      master := some x
      good := if same then t.run.good else 0
      syncRef := if same then t.run.syncRef else t.ref } }) m

/-- MASTER_LOSS: the time comes at which the master followed has sent no Announce, or no Sync, for its timeout, and it is lost
(R39). -/
def execMasterLoss (s : State) : Host.Outcome State Fault Refusal :=
  runOn s fun m =>
    match m.time.run.master with
    | none => m
    | some x =>
      if !controlRuns m then m
      else loseMaster (passCycles (min (announceDue x) (syncDue m.time) - m.time.ref) m)

/-- The UTC offset changes at an instant: the one in force until then is kept for the instants before (R41). -/
def setUtc (utc : Int) (at_ : Ns) : Mach → Mach := onTime fun t =>
  if utc = t.utcOffset then t else { t with utcOffset := utc, utcPast := (at_, t.utcOffset) :: t.utcPast }

/-- The UTC day, counted from the epoch, of an instant. -/
def utcDay (m : Mach) (t : Ns) : Nat := (((t / nsPerSec : Nat) : Int) - m.time.utcOffset).toNat / 86400

/-- The UTC offset and leap flags of the master's Announce (R41): a flag newly set names the day it is received in, and one
received clear may act again. -/
def takeUtc (utc : Int) (valid l61 l59 : Bool) (m : Mach) : Mach :=
  let fresh := (l61 && !m.time.run.leap61) || (l59 && !m.time.run.leap59)
  let m := if fresh then onTime (fun t => { t with run := { t.run with leapDay := utcDay m (now m) } }) m else m
  onTime (fun t => { t with
    run := { t.run with
      utcValid := valid, utcKnown := valid, leap61 := l61, leap59 := l59, acted61 := t.run.acted61 && l61,
      acted59 := t.run.acted59 && l59 } }) (setUtc utc (now m) m)

/-- The receive timestamp of a PTP message that is whole now on a port (R37). -/
def ptpStamp (m : Mach) (port : Nat) (g : PtpRx) : Ns :=
  match getPort m port with
  | none => now m
  | some x => rxStamp x (now m) g.len g.extra

/-- The offset a Sync of the master gives: its receipt less its origin, the corrections and the path delay (R36). -/
def takeOffset (port : Nat) (stamp origin : Ns) (corr : Int) (m : Mach) : Mach :=
  let off : Int := (stamp : Int) - (origin : Int) - corr - tgetD m.time.run.paths port 0
  decideStep off (judgeOffset off m)

/-- A Sync of the master: one-step it gives the offset at once, two-step with its Follow_Up (R36). -/
def takeSync (port : Nat) (stamp : Ns) (seq : Nat) (twoStep : Bool) (origin : Ns) (corr : Int) (m : Mach) : Mach :=
  let wait : Tab SyncWait := if twoStep then tset m.time.run.syncs port { seq := seq, stamp := stamp, corr := corr }
    else terase m.time.run.syncs port
  let m := onTime (fun t => { t with run := { t.run with syncRef := t.ref, syncs := wait } }) m
  if twoStep then m else takeOffset port stamp origin corr m

/-- The Follow_Up of a Sync that waits for it. -/
def takeFollowUp (port seq : Nat) (origin : Ns) (corr : Int) (m : Mach) : Mach :=
  match (tget m.time.run.syncs port).filter (·.seq == seq) with
  | none => m
  | some w =>
    takeOffset port w.stamp origin (w.corr + corr) (onTime (fun t => { t with run := { t.run with syncs := terase t.run.syncs port } }) m)

/-- The path delay of a port measured: half of what the exchange took beyond the responder's own time (R36; IEEE 1588). -/
def setPath (port : Nat) (twice : Int) (m : Mach) : Mach := onTime (fun t => { t with run := { t.run with
  paths := tset t.run.paths port (twice / 2), pdelays := terase t.run.pdelays port } }) m

/-- A Pdelay_Resp to the Pdelay_Req last sent: one-step it completes the exchange, two-step with its follow-up. -/
def takePdelayResp (port : Nat) (stamp : Ns) (seq : Nat) (twoStep : Bool) (received : Ns) (corr : Int) (m : Mach) : Mach :=
  match (tget m.time.run.pdelays port).filter (·.seq == seq) with
  | none => m
  | some x =>
    if twoStep then onTime (fun t => { t with run := { t.run with
      pdelays := tset t.run.pdelays port { x with half := some ((stamp : Int) + (received : Int) - corr) } } }) m
    else setPath port ((stamp : Int) - (x.sent : Int) - corr) m

/-- The follow-up of a two-step Pdelay_Resp completes the exchange. -/
def takePdelayFollowUp (port seq : Nat) (sent : Ns) (corr : Int) (m : Mach) : Mach :=
  match (tget m.time.run.pdelays port).filter (·.seq == seq) with
  | none => m
  | some x => match x.half with
    | none => m
    | some h => setPath port (h - (x.sent : Int) - (sent : Int) - corr) m

/-- A PTP message on a PTP port (R36): an Announce takes part in the choice of the master, a Sync of the master gives the
offset, a Pdelay exchange the path delay of its port; a Pdelay_Req is answered, two-step. -/
def takePtp (port : Nat) (g : PtpRx) (m : Mach) : Mach :=
  let cfg := m.time.cfg
  let own (d : Nat) : Bool := d == cfg.domain
  let mine : Bool := m.time.run.master.any (·.port == port)
  match g.msg with
  | .announce d gm p1 p2 q steps utc valid l61 l59 tlvs =>
    if !own d then m
    else
      let x : Master := { port := port, gm := gm, key := [p1, q, p2, gm.toNat, steps], tlvs := tlvs, ref := m.time.ref }
      let m := chooseMaster (onTime (fun t => { t with run := { t.run with
        heard := x :: t.run.heard.filter fun y => y.port != port } }) m)
      if m.time.run.master.any (·.port == port) then takeUtc utc valid l61 l59 m else m
  | .sync d seq two origin corr => if own d && mine then takeSync port (ptpStamp m port g) seq two origin corr m else m
  | .followUp d seq origin corr => if own d && mine then takeFollowUp port seq origin corr m else m
  | .pdelayReq d seq => if own d then sendPtp port true (.pdelayResp d seq true (ptpStamp m port g) 0) m else m
  | .pdelayResp d seq two received corr => if own d then takePdelayResp port (ptpStamp m port g) seq two received corr m else m
  | .pdelayFollowUp d seq sent corr => if own d then takePdelayFollowUp port seq sent corr m else m
  | .other _ => m

/-- PTP_MESSAGE_RECEIVE: a PTP message steered to the CP (R36); while the CP does not run it is discarded and counted
(R20). -/
def execPtpMessageReceive (port : Fin 8) (g : PtpRx) (s : State) : Host.Outcome State Fault Refusal :=
  runOn s fun m =>
    if !clockRuns m then m
    else if !controlRuns m then
      onTime (fun t => { t with run := { t.run with discarded := t.run.discarded + 1 } }) m
    else if m.time.cfg.profile = 0 || !ptpPort m port.val then m
    else takePtp port.val g m

/-- The ports on which the module is a master: none for a slave-only clock; every PTP port of a clock that follows no master;
for a boundary clock all but the one its master is on. -/
def masterPort (m : Mach) (p : Nat) : Bool :=
  match m.time.cfg.ctype, m.time.run.master with
  | 1, _ => false
  | _, none => true
  | 3, some x => x.port != p
  | _, some _ => false

/-- The TLVs of an Announce with profile IEEE C37.238-2017: the module's own, or those of its grandmaster with its own inaccuracy added
(R36; log entry 39). -/
def ownTlvs (m : Mach) : PtpTlvs :=
  let own : PtpTlvs := { power := some { gmNum := Config.gmNum % 65536, inaccuracy := Config.inaccuracy }, zones := Config.zones }
  if m.time.cfg.profile ≠ 2 then { power := none, zones := [] }
  else match m.time.run.master with
    | none => own
    | some x =>
      { power := (x.tlvs.power.map fun w => { w with inaccuracy := w.inaccuracy + Config.inaccuracy }).or own.power
        zones := if x.tlvs.zones = [] then own.zones else x.tlvs.zones }

/-- The Announce the module sends as a master: its own clock's, or, as a boundary clock, that of the grandmaster it follows one step
further away (R36; IEEE 1588). -/
def ownAnnounce (m : Mach) : PtpMsg :=
  let r := m.time.run
  let k := (r.master.map (·.key)).getD (ownKey m)
  let gm := (r.master.map (·.gm)).getD ((portMac m 0).setWidth 64 <<< 16)
  .announce m.time.cfg.domain gm (k.getD 0 0) (k.getD 2 0) (k.getD 1 0) (k.getD 4 0 + b2n r.master.isSome) m.time.utcOffset
    r.utcValid r.leap61 r.leap59 (ownTlvs m)

/-- What the module sends on a PTP port at a message interval: Pdelay_Req, and as a master Sync, whose Follow_Up its transmission
brings, and Announce. -/
def ptpInterval (p : Nat) (m : Mach) : Mach :=
  let c := m.time.cfg
  let n := m.time.run.seq % 65536
  let m := sendPtp p true (.pdelayReq c.domain n) m
  if !masterPort m p then m
  else sendPtp p false (ownAnnounce m) (sendPtp p false (.sync c.domain n true (now m) 0) m)

/-- The next message interval comes: the first as soon as the protocol runs, each other an interval of the profile after the last
(R36). -/
def nextInterval (m : Mach) : Mach :=
  let due := (m.time.run.sentRef.map (· + ptpPeriod)).getD m.time.ref
  onTime (fun t => { t with run := { t.run with sentRef := some t.ref, seq := t.run.seq + 1 } }) (passCycles (due - m.time.ref) m)

/-- PTP_MESSAGE_SEND: a message interval of the profile comes (R36). -/
def execPtpMessageSend (s : State) : Host.Outcome State Fault Refusal :=
  runOn s fun m =>
    if !firmwareActs m || m.time.cfg.profile = 0 then m
    else
      let m := nextInterval m
      forEach ((List.range 8).filter (ptpPort m)) ptpInterval m

/-- LEAP_SECOND: the end of the UTC day in which a leap flag was received, by the offset in force before it; the offset
changes, a master present or not, once for each flag (R41). -/
def execLeapSecond (s : State) : Host.Outcome State Fault Refusal :=
  runOn s fun m =>
    let r := m.time.run
    let plus := r.leap61 && !r.acted61
    let minus := r.leap59 && !r.acted59
    if !clockRuns m || !(plus || minus) then m
    else
      let at_ := ((((r.leapDay + 1) * 86400 : Nat) : Int) + m.time.utcOffset).toNat * nsPerSec
      onTime (fun t => { t with run := { t.run with acted61 := t.run.leap61, acted59 := t.run.leap59 } })
        (setUtc (m.time.utcOffset + (if plus then 1 else 0) - (if minus then 1 else 0)) at_ (advanceTo at_ m))

-- Reading the time in a slice

/-- SLW_TIME_S_READ: the seconds are returned, and nanoseconds and time state latched for the core (R44 to R46). -/
def execSlwTimeSRead (core : Fin 32) (s : State) : Host.Outcome State Fault Refusal :=
  runOn s fun m => match coreRun m core with
    | none => m
    | some _ =>
      let v := timeCode m.time.state * 2 ^ 32 + m.time.clock.ns.toNat
      onTime (fun t => { t with latch := tset t.latch core.val (.ofNat 64 v) }) (coreReads core m.time.clock.sec m)

-- Commands

def timeStatus : Cmd where
  code := 0x0201
  len := fun p => p.length == 0
  slice := fun _ _ _ => true
  apply := false

/-- The response of TIME_STATUS. -/
def timeStatusBytes (m : Mach) : Bytes :=
  let t := m.time
  let held := if t.state = .holdover then sinceRef t.holdRef m / 1000000 else 0
  fields [(8, t.clock.sec.toNat), (4, t.clock.ns.toNat), (1, timeCode t.state),
    (1, if t.cfg.profile = 0 then 0 else t.cfg.ctype), (2, t.grid.rate), (8, t.tick), (8, t.grid.s0),
    (8, t.increment.toNat), (8, toTwos 64 t.run.lastOffset),
    (4, toTwos 32 ((t.run.master.map fun x => tgetD t.run.paths x.port 0).getD 0)), (2, toTwos 16 t.utcOffset),
    (1, b2n t.run.leap61 + 2 * b2n t.run.leap59 + 4 * b2n t.run.utcValid),
    (1, ((t.run.master.map (·.port)).getD 0xFF)), (8, (gmIdentity m).toNat), (4, held), (4, t.cfg.limit),
    (8, ((t.rateChange.map (·.sec)).getD 0)), (4, ((t.rateChange.map (·.rate)).getD 0)), (4, t.adds.toNat),
    (4, t.steps.toNat), (4, t.holds.toNat), (4, t.expiries.toNat)]

/-- TIME_STATUS. -/
def execTimeStatus (h : Hdr) (p : Bytes) (s : State) : Host.Outcome State Fault Refusal :=
  runOn s (runRead timeStatus h p timeStatusBytes id)

/-- A grid restart is pending (R51). -/
def restartPending (m : Mach) : Bool := m.time.rateChange.isSome || m.time.run.step.isSome || stepScheduled m

/-- The module as it would be at another tick rate, for the checks of R51. -/
def atRate (rate : Nat) (m : Mach) : Mach := onTime (fun t => { t with grid := { t.grid with rate := rate } }) m

/-- The enabled groups. -/
def liveGroups (m : Mach) : List Group := (m.flt.groups.map (·.2)).filter (·.enabled)

/-- An enabled pulse output would exceed r / 4 at a rate (R355). -/
def outsTooFast (m : Mach) (rate : Nat) : Bool :=
  (List.range 16).any fun o => (outCfgOf m o).enabled && tooFast m rate (outCfgOf m o)

/-- TIME_RATE on a module as it stands now: a restart that is pending counts though it would be over by then. -/
def timeRate (now : Mach) : Cmd where
  code := 0x0210
  len := layout 16 [(4, 4)]
  right := rTime
  m2 := true
  apply := false
  journal := true
  check := fun m h p =>
    let rate := rd 4 p 0
    let b := rd 8 p 8
    let sec := m.time.clock.sec.toNat
    firstFail [
      (!tickRates.contains rate, 0x0200),
      (b < sec + 2 || sec + 86400 < b, 0x0201),
      (3 * nsPerSec < m.time.hold * rate, 0x0202),
      ((liveGroups m).any fun g => (selectBank g rate).isNone, 0x0203),
      (restartPending now, 0x0204),
      (h.apply != 0, 0x0206),
      ((liveGroups m).any fun g => !settleOk (estSettings g) rate, 0x020A),
      (outsTooFast m rate, 0x020B),
      (mirrorOver (atRate rate m), 0x020C)]
  res := fun m _ _ => if 4096 ≤ scheduledCount m then 0x0104 else 0

/-- The response of TIME_RATE: B and the last tick of the present rate (R48). -/
def rateReply (p : Bytes) (m : Mach) : Bytes :=
  fields [(8, rd 8 p 8), (8, (rd 8 p 8 - m.time.grid.s0) * m.time.grid.rate - 1)]

/-- A rate change accepted: it waits for B, and is answered 0x0001. -/
def makeRate (h : Hdr) (p : Bytes) (m : Mach) : Mach :=
  let role := roleOf m h
  let resp := rateReply p m
  let d : RateDue := { sec := rd 8 p 8, rate := rd 4 p 0, asked := some (h, role) }
  respond 0x0210 h role h.apply 1 resp
    (onTime (fun t => { t with rateChange := some d }) (raiseAccepted 0x0210 h role h.apply 1 m))

/-- TIME_STEP on a module as it stands now. -/
def timeStep (now : Mach) : Cmd where
  code := 0x0211
  len := layout 16 [(12, 4)]
  right := rTime
  sched := true
  check := fun m _ p =>
    firstFail [
      (restartPending now, 0x0204),
      (m.time.cfg.profile != 0 && (m.time.state == .holdover || m.time.state == .synchronised), 0x0207),
      (nsPerSec ≤ rd 4 p 8, 0x0208)]

/-- The target instant of a TIME_STEP. -/
def stepTarget (p : Bytes) : Ns := rd 8 p 0 * nsPerSec + rd 4 p 8

/-- The smallest tick of a grid whose start is at or after an instant (R49). -/
def firstTick (g : Grid) (v : Ns) : Tick :=
  let n := tickOf g v
  if tickStart g n < v then n + 1 else n

/-- A grid of a rate from the second of an instant on, with the first tick that is not before it (R49). -/
def gridFrom (rate : Nat) (v : Ns) : Grid :=
  let g : Grid := { s0 := v / nsPerSec, rate := rate, first := 0 }
  { g with first := firstTick g v }

/-- The grid a step to an instant begins (R49). A pending rate change that the step reaches takes effect with it; so does one whose
second is the first instant at which the new grid could have a tick, since no tick of the old rate begins before it (R52; log
entry 40). -/
def stepGrid (m : Mach) (v : Ns) : Grid :=
  let old := gridFrom m.time.grid.rate v
  match m.time.rateChange with
  | none => old
  | some d =>
    if d.sec * nsPerSec ≤ v then gridFrom d.rate v
    else if d.sec * nsPerSec ≤ tickStart old old.first then { s0 := d.sec, rate := d.rate, first := 0 }
    else old

/-- The response of TIME_STEP: n0. -/
def stepReply (p : Bytes) (m : Mach) : Bytes := le 8 (stepGrid m (stepTarget p)).first

/-- The settings of a TIME_PTP_SET. -/
def ptpCfgAt (p : Bytes) : PtpCfg :=
  { profile := rd 1 p 0, ctype := rd 1 p 1, domain := rd 1 p 2, ports := .ofNat 8 (rd 1 p 3), prio1 := rd 1 p 4,
    prio2 := rd 1 p 5, lock := rd 2 p 6, limit := rd 4 p 8, step := rd 4 p 12, accSync := rd 1 p 16, accHold := rd 1 p 17 }

def timePtpSet : Cmd where
  code := 0x0220
  len := layout 20 [(18, 2)]
  right := rTime
  journal := true
  sched := true
  check := fun m _ p =>
    let c := ptpCfgAt p
    let ports := (List.range 8).filter fun i => c.ports.getLsbD i
    firstFail [
      (2 < c.profile || c.ctype < 1 || 3 < c.ctype || c.lock < 50 || 10000 < c.lock || c.limit < 1 || 600 < c.limit ||
        c.step < 20 || 1000000 < c.step || 30 < c.accSync || 30 < c.accHold, 0x0208),
      (c.profile != 0 && ports.any fun i => !(getPort m i).any fun x => x.cfg.enabled, 0x0209)]

/-- TIME_PTP_SET at its effective tick. A change of profile, clock type, domain or ports restarts the protocol, with the time
state as for a loss of the master; with PTP off the clock runs free (R38). -/
def applyPtpSet (p : Bytes) (m : Mach) : Mach :=
  let c := ptpCfgAt p
  let o := m.time.cfg
  let restart := c.profile != o.profile || c.ctype != o.ctype || c.domain != o.domain || c.ports != o.ports
  let m := if !restart then m
    else holdMaster (onTime (fun t => { t with run := { t.run with
      heard := [], master := none, good := 0, step := none, utcKnown := false, paths := [], pdelays := [], syncs := [], sentRef := none } }) m)
  onTime (fun t => { t with cfg := c, state := if c.profile = 0 then .freeRunning else t.state }) m

end Sys2Proof.Machine
end

