-- ==== Sys2Proof/Machine/Sys.lean ====
section
/-! DEFINITION. The SYS commands and the capability list (chapter 18), but for what a restart does. -/
namespace Sys2Proof.Machine
open Sys2Proof

/-- The logical unit the module belongs to: its own address, or that of member A of its pair (R447). -/
def ownUnitNumber (m : Mach) : Option Nat :=
  m.chn.addr.map fun a => if m.twn.cfg.on then min a m.twn.cfg.partner else a

/-- The twin role as it is reported: solo without a pair (R416). -/
def roleNow (m : Mach) : Nat := roleCode (if m.twn.cfg.on then m.twn.role else .solo)

def sysIdent : Cmd where
  code := 0x0101
  len := fun p => p.length == 0
  slice := fun _ _ _ => true
  apply := false

/-- The response of SYS_IDENT. -/
def identBytes (m : Mach) : Bytes :=
  fields [(1, m.ident.order), (1, m.dom.slotId.toNat), (2, m.ident.hwRev), (4, m.sec.fwCur.version), (8, m.ident.serial.toNat),
    (6, m.ident.mac.toNat), (1, m.chn.addr.getD 0xFF), (1, (ownUnitNumber m).getD 0xFF)]

/-- SYS_IDENT (R1). -/
def execSysIdent (h : Hdr) (p : Bytes) (s : State) : Host.Outcome State Fault Refusal :=
  runOn s (runRead sysIdent h p identBytes id)

/-- The number of a domain state (SYS_STATUS). -/
def domCode : DomState → Nat
  | .off => 0
  | .reset => 1
  | .starting => 2
  | .running => 3
  | .updating => 4
  | .sleeping => 5

/-- The four domain states, umber to compute, one byte each. -/
def domBytes (m : Mach) : Bytes :=
  fields [(1, domCode m.dom.umber), (1, domCode m.dom.fabric), (1, domCode m.dom.control), (1, domCode m.dom.compute)]

def sysStatus : Cmd where
  code := 0x0102
  len := fun p => p.length == 0
  slice := fun _ _ _ => true
  apply := false

/-- The response of SYS_STATUS: one snapshot. -/
def statusBytes (m : Mach) : Bytes :=
  let d := m.dom
  let flags := b2n (m.lge.forces != []) + 2 * b2n d.warning + 4 * b2n d.memError + 8 * b2n d.hold +
    16 * b2n m.sec.unconfigured + 32 * b2n m.cpu.lattice.shared
  domBytes m ++ fields [(2, flags), (1, timeCode m.time.state), (1, roleNow m), (8, ((m.sec.force.map (·.seq)).getD 0)),
    (8, m.time.tick), (4, m.time.grid.rate), (4, m.time.hold), (1, d.lastKind), (7, 0), (8, sinceRef d.coldRef m / nsPerSec)]

/-- SYS_STATUS (R16). -/
def execSysStatus (h : Hdr) (p : Bytes) (s : State) : Host.Outcome State Fault Refusal :=
  runOn s (runRead sysStatus h p statusBytes id)

/-- H of a request in µs is out of range at a tick rate: below 20 µs or above 3 ticks (R24). -/
def holdBad (us rate : Nat) : Bool := us < 20 || 3 * nsPerSec < us * 1000 * rate

def sysHoldoffSet : Cmd where
  code := 0x0103
  len := layout 8 [(4, 4)]
  right := rConfig
  journal := true
  sched := true
  check := fun m _ p =>
    let h := rd 4 p 0
    if holdBad h m.time.grid.rate || m.time.rateChange.any fun d => holdBad h d.rate then 0x0202 else 0

/-- The response of SYS_HOLDOFF_SET: the groups whose required hold-off exceeds the new H (R93). -/
def holdReply (p : Bytes) (m : Mach) : Bytes :=
  let h := rd 4 p 0 * 1000
  let ovf (g : Nat × Group) : Bool := h < (leadOf m g.1 (bankOf g.2 (bankNow g.2))).2
  fields [(4, (m.flt.groups.filter ovf).length), (4, 0)]

/-- SYS_HOLDOFF_SET at its effective tick n: D(n), whose assembly is due already, uses the new H (R134). -/
def applyHoldoff (p : Bytes) : Mach → Mach :=
  let h := rd 4 p 0 * 1000
  onTime fun t => { t with
    hold := h
    asm := t.asm.map fun d => if d.grid = t.grid ∧ t.tick ≤ d.tick then { d with d := d.t + h } else d }

-- Role grants (R474)

/-- Signature by an active owner slot: the slot whose key verifies it. Only the digest of a key is held, and it stands for the
key (log entry 7). -/
def ownerSigned (m : Mach) (msg sig : Bytes) : Option Nat :=
  (m.sec.owners.find? fun e => match e.2 with
    | .active d => Config.slhVerify 0 d msg sig
    | .empty => false
    | .revoked _ => false).map (·.1)

/-- A grant body is well made (R474). -/
def grantOk (p : Bytes) : Bool :=
  rd 4 p 0 == 0x544E5247 && rd 2 p 4 == 1 && zeros p 6 2 && rd 4 p 8 < 64 && rd 4 p 8 % 2 == 0 && zeros p 12 4 &&
  rd 8 p 24 ≤ rd 8 p 32 && rd 8 p 32 ≤ rd 8 p 24 + 2592000 && zeros p 104 24

/-- MODULE, CERT, the mailbox or the time of a grant does not fit (R474). -/
def grantForeign (m : Mach) (h : Hdr) (p : Bytes) : Bool :=
  let module := rd 8 p 16
  let cert := rd 64 p 40
  let sec := m.time.clock.sec.toNat
  let held := ((tget m.mbx.sess (boxIx h.box)).map fun s => s.cert.toNat).getD 0
  let m3 := h.box == .m3
  (module != 0 && module != m.ident.serial.toNat) || (m3 && (module == 0 || cert != 0)) ||
  (!m3 && (cert == 0 || cert != held)) || sec < rd 8 p 24 || rd 8 p 32 < sec

def sysRoleGrant : Cmd where
  code := 0x0105
  len := fun p => p.length == 29920 && grantOk p
  m1 := false
  apply := false
  check := fun m h p =>
    firstFail [((ownerSigned m (p.take 128) (p.drop 128)).isNone, 0x0200), (grantForeign m h p, 0x0201)]

/-- Event 0x0106. -/
def grantEvent (h : Hdr) (p : Bytes) (status : Nat) (m : Mach) : Mach :=
  let num := ((tget m.mbx.sess (boxIx h.box)).map (·.num)).getD 0
  raise 0x0106 0 (fields [(1, boxIx h.box), (1, num), (2, status), (4, rd 4 p 8)]) m

/-- The session gains the rights of a grant (R470). -/
def gainRights (h : Hdr) (p : Bytes) (m : Mach) : Mach :=
  let slot := (ownerSigned m (p.take 128) (p.drop 128)).getD 0
  let r : BitVec 6 := .ofNat 6 (rd 4 p 8)
  onSess h.box (fun s => { s with rights := s.rights ||| r, grants := s.grants ++ [(slot, r)] }) m

/-- SYS_ROLE_GRANT: rights for the session that issues it (R474); every grant raises event 0x0106, whatever its fate. -/
def execSysRoleGrant (h : Hdr) (p : Bytes) (s : State) : Host.Outcome State Fault Refusal :=
  runOn s fun m =>
    let st := judge sysRoleGrant m h p
    let m := if boxOpen m h.box && st != relayMark then grantEvent h p st m else m
    judged sysRoleGrant h p (fun h m =>
      let role := roleOf m h
      let m := gainRights h p (raiseAccepted 0x0105 h role h.apply 0 m)
      respond 0x0105 h role h.apply 0 (fields [(4, (roleOf m h).toNat), (4, 0)]) m) m

-- The capability list (R477 to R479)

/-- An entry's ID and body; every entry is of version 1. -/
def capEntries (m : Mach) : List (Nat × Bytes) :=
  [(0x0001, fields [(1, m.ident.order), (1, 0), (2, m.ident.hwRev), (4, m.sec.fwCur.version), (8, m.ident.serial.toNat)]),
    (0x0010, fields [(1, 0x0F), (1, 0), (2, 256), (4, 20), (4, 3)]),
    (0x0011, fields [(2, 32), (2, 2200), (2, 64), (2, 64), (2, 16), (2, 32), (2, 256), (2, 0)]),
    (0x0012, fields [(1, 64), (1, 15), (1, 16), (1, 16), (4, 65536), (4, 16384), (1, 8), (1, 1), (2, 0)]),
    (0x0020, fields [(2, 512), (2, 24), (2, 12288), (2, 256), (1, 0x0F), (1, 64), (1, 32), (1, 1), (4, 49152), (4, 176947200)]),
    (0x0021, fields [(2, 1024), (1, 0x03), (1, 0)]),
    (0x0030, fields [(4, 8388608), (4, 65536), (2, 2048), (2, 4096), (1, 16), (1, 0), (2, 4096)]),
    (0x0040, fields [(1, 13), (1, 64), (2, 256), (2, 256), (2, 9216), (4, 32768), (2, 0x0DFF), (2, 0x0D00)]),
    (0x0050, fields [(1, 4), (1, 64), (2, 4096), (4, 1048576), (4, 65536), (4, 262144), (4, 65536), (4, 896)]),
    (0x0051, fields [(2, 0x07FE), (2, 0)]),
    (0x0060, fields [(2, 256), (1, 16), (1, 16), (1, 0x1F), (3, 0)]),
    (0x0070, fields [(1, 8), (1, 24), (1, 4), (1, 4), (1, 0x1F), (3, 0)]),
    (0x0071, fields [(4, 2048), (4, 16384)]),
    (0x0080, fields [(4, 65536), (4, 4194304), (2, 16384), (2, 0), (4, 65536)]),
    (0x0090, fields [(4, 262144), (1, 1), (1, 16), (2, 0)]),
    (0x00A0, fields [(1, 32), (1, 16), (2, 0)]),
    (0x00B0, fields [(1, 2), (3, 0), (4, 256), (4, 64)]),
    (0x00C0, fields [(1, 0x03), (1, 3), (2, 512)]),
    (0x00D0, fields [(4, 16384), (4, 262144), (1, 4), (1, 64), (2, 0)])]

/-- Entries laid one after another, each on a multiple of 4 bytes, from an offset on. -/
def capChain : Nat → List (Nat × Bytes) → Bytes
  | _, [] => []
  | off, (id, body) :: rest =>
    let pad := (4 - body.length % 4) % 4
    let next := off + 12 + body.length + pad
    fields [(2, id), (2, 1), (4, body.length), (4, if rest.isEmpty then 0 else next)] ++ body ++
      List.replicate (if rest.isEmpty then 0 else pad) 0 ++ capChain next rest

/-- The capability list. -/
def capList (m : Mach) : Bytes := capChain 0 (capEntries m)

/-- The capability digest: the list from the entry after MODULE on (R477). -/
def capDigest (m : Mach) : Bytes :=
  let l := capList m
  shake256 (l.drop (rd 4 l 8))

def sysCapRead : Cmd where
  code := 0x0110
  len := fun p => p.length == 8
  slice := fun _ _ _ => true
  apply := false
  check := fun m _ p => if (capList m).length < rd 4 p 0 || rd 4 p 4 < 1 || 16280 < rd 4 p 4 then 0x0205 else 0

/-- The response of SYS_CAP_READ. -/
def capBytes (p : Bytes) (m : Mach) : Bytes :=
  let l := capList m
  let b := slice l (rd 4 p 0) (rd 4 p 4)
  fields [(4, l.length), (4, b.length)] ++ padTo 64 (capDigest m) ++ b

/-- SYS_CAP_READ (R477). -/
def execSysCapRead (h : Hdr) (p : Bytes) (s : State) : Host.Outcome State Fault Refusal :=
  runOn s (runRead sysCapRead h p (capBytes p) id)

-- SYS_RESTART (R505)

def sysRestart : Cmd where
  code := 0x0104
  len := layout 8 [(1, 3)]
  right := rMaintenance
  check := fun m _ p =>
    let kind := rd 1 p 0
    let wake := rd 4 p 4
    firstFail [
      (kind < 1 || 5 < kind || (if kind < 4 then wake != 0 else wake < 1 || 86400 < wake), 0x0203),
      (m.dom.restart.isSome, 0x0204)]
  res := fun m _ _ => if 4096 ≤ scheduledCount m then 0x0104 else 0

/-- A restart accepted: scheduled for its tick, answered 0x0001 with it, and announced to the twin (R430). -/
def runRestart (h : Hdr) (p : Bytes) : Mach → Mach :=
  judged sysRestart h p fun h m =>
    let f := effTick m h
    let role := roleOf m h
    let m := raiseAccepted 0x0104 h role f 1 m
    let d : RestartDue := { kind := rd 1 p 0, tick := f, wake := rd 4 p 4, hdr := h, role := role }
    let m := onDom (fun x => { x with restart := some d }) m
    let m := if d.kind = 1 then m else startYield none f m
    respond 0x0104 h role f 1 (le 8 f) m

/-- SYS_RESTART_COLD: kind 1. -/
def execSysRestartCold (h : Hdr) (p : Bytes) (s : State) : Host.Outcome State Fault Refusal := runOn s (runRestart h p)
/-- SYS_RESTART_MODULE: kind 2. -/
def execSysRestartModule (h : Hdr) (p : Bytes) (s : State) : Host.Outcome State Fault Refusal := runOn s (runRestart h p)
/-- SYS_RESTART_COMPUTE: kind 3. -/
def execSysRestartCompute (h : Hdr) (p : Bytes) (s : State) : Host.Outcome State Fault Refusal := runOn s (runRestart h p)
/-- SYS_RESTART_SLEEP: kind 4. -/
def execSysRestartSleep (h : Hdr) (p : Bytes) (s : State) : Host.Outcome State Fault Refusal := runOn s (runRestart h p)
/-- SYS_RESTART_SLEEP_FABRIC: kind 5. -/
def execSysRestartSleepFabric (h : Hdr) (p : Bytes) (s : State) : Host.Outcome State Fault Refusal := runOn s (runRestart h p)

end Sys2Proof.Machine
end

