-- ==== Sys2Proof/Machine/Sec.lean ====
section
/-! DEFINITION. Copies, staging, signed images, owner slots, keys and attestation (chapter 19), but for the commit and the
boot selection, which apply configuration. -/
namespace Sys2Proof.Machine
open Sys2Proof

-- Keys and signatures (R482, R485)

/-- The digest in a key slot, if the slot is active: slot 0 is Gwynic's root. -/
def slotDigest (m : Mach) (slot : Nat) : Option Bytes :=
  if slot = 0 then some m.sec.root
  else match tget m.sec.owners slot with
    | some (.active d) => some d
    | some .empty => none
    | some (.revoked _) => none
    | none => none

/-- A slot that was active and has been revoked. -/
def slotRevoked (m : Mach) (slot : Nat) : Bool :=
  match tget m.sec.owners slot with
  | some (.revoked _) => true
  | some .empty => false
  | some (.active _) => false
  | none => false

/-- An object signed by the named public key, which must be the one an active slot holds (R482). -/
def signedBy (m : Mach) (slot : Nat) (pubkey msg sig : Bytes) : Bool :=
  slotDigest m slot == some (shake256 pubkey) && Config.slhVerify 0 pubkey msg sig

/-- Some owner slot is active. -/
def ownerActive (m : Mach) : Bool := [1, 2, 3].any fun i => (slotDigest m i).isSome

/-- The length of a copy's header area, and of the header with its signature and SEAL (R484). -/
def headLen : Nat := 65536

/-- Why a copy is not valid by R485, as event 0x1201 names it: 0 torn, 1 signature, 2 revoked slot, 3 other module. The SEAL
is not asked of a staged image. -/
def copyFault (m : Mach) (needSeal : Bool) (c : CopyArea) : Option Nat :=
  let h := c.header
  let len := rd 8 h 16
  let slot := rd 1 h 6
  let digest := slice h 64 64
  let formed := rd 4 h 0 == 0x47464E43 && rd 2 h 4 == 1 && zeros h 7 1 && zeros h 40 24 && 1 ≤ slot && slot ≤ 3 &&
    1 ≤ rd 8 h 8 && len ≤ 268369920 && len == c.body.length
  if !formed || shake256 c.body != digest || (needSeal && c.sealed != some (rd 8 h 8, digest.take 48)) then some 0
  else if slotRevoked m slot then some 2
  else if !signedBy m slot (slice h 128 64) (h.take 192) (slice h 192 29792) then some 1
  else if rd 8 h 24 != 0 && rd 8 h 24 != m.ident.serial.toNat then some 3
  else none

/-- A copy area that nothing has been written to. -/
def copyNone : CopyArea := { header := [], body := [], sealed := none }

/-- Copy A (0) or B (1). -/
def getCopy (m : Mach) (i : Nat) : CopyArea := tgetD m.sec.copies i copyNone

-- The staging area (R490)

/-- The staged bytes of an area: of what has not been written, zero. -/
def stagedBytes (s : Staging) : Bytes := padTo s.len s.data

/-- The staging area as its session holds it, for an object of a kind. -/
def stagedFor (m : Mach) (h : Hdr) (kinds : List Nat) : Option Bytes :=
  (m.sec.staging.filter fun s => s.owner == boxIx h.box && kinds.contains s.kind).map stagedBytes

def cfgStage : Cmd where
  code := 0x1201
  len := fun p => 16 ≤ p.length && p.length ≤ 16 + 262128 && rd 1 p 0 ≤ 2 && rd 1 p 1 ≤ 3 && zeros p 2 6 &&
    (rd 1 p 0 == 1 || p.length == 16)
  right := rConfig
  apply := false
  busy := fun m _ p => rd 1 p 0 == 0 && m.sec.staging.isSome
  check := fun m h p =>
    let held := m.sec.staging.filter fun s => s.owner == boxIx h.box
    if rd 1 p 0 = 0 then (if 2 ^ 28 < rd 8 p 8 then 0x0207 else 0)
    else match held with
      | none => 0x0206
      | some s => if rd 1 p 0 = 1 ∧ s.len < rd 8 p 8 + (p.length - 16) then 0x0207 else 0

/-- The staging area opened, written or emptied. -/
def stageOp (h : Hdr) (p : Bytes) : Mach → Mach :=
  onSec fun x =>
    if rd 1 p 0 = 0 then
      { x with staging := some { owner := boxIx h.box, kind := rd 1 p 1, len := rd 8 p 8, data := [] } }
    else if rd 1 p 0 = 2 then { x with staging := none }
    else
      let o := rd 8 p 8
      let b := p.drop 16
      { x with staging := x.staging.map fun s => { s with data := padTo o s.data ++ b ++ s.data.drop (o + b.length) } }

/-- CFG_STAGE by its op. -/
def runStage (h : Hdr) (p : Bytes) : Mach → Mach := runNow cfgStage h p (fun _ => []) (stageOp h p)

/-- CFG_STAGE_OPEN: op 0. -/
def execCfgStageOpen (h : Hdr) (p : Bytes) (s : State) : Host.Outcome State Fault Refusal := runOn s (runStage h p)
/-- CFG_STAGE_WRITE: op 1. -/
def execCfgStageWrite (h : Hdr) (p : Bytes) (s : State) : Host.Outcome State Fault Refusal := runOn s (runStage h p)
/-- CFG_STAGE_DISCARD: op 2. -/
def execCfgStageDiscard (h : Hdr) (p : Bytes) (s : State) : Host.Outcome State Fault Refusal := runOn s (runStage h p)

-- Signed images (R493, R494)

/-- Length of the envelope in front of an image's content. -/
def envLen : Nat := 29984

/-- The image an envelope and its content spell. -/
def imageAt (e : Bytes) : Image :=
  { kind := rd 1 e 4, tenant := rd 1 e 5, id := .ofNat 64 (rd 8 e 8), digest := slice e 64 64, pubkey := slice e 128 64,
    content := slice e envLen (rd 8 e 16) }

/-- Envelope and DIGEST of an image of some kinds are right; `tail` is what follows the content. -/
def envelopeOk (e : Bytes) (kinds : List Nat) (tail : Nat) : Bool :=
  let firmware := rd 1 e 4 == 3
  rd 4 e 0 == 0x5645_4E45 && kinds.contains (rd 1 e 4) && rd 2 e 6 == 1 && zeros e 28 36 &&
  (if firmware then rd 1 e 5 == 0 else 1 ≤ rd 1 e 5 && rd 1 e 5 ≤ 15 && rd 4 e 24 == 0) &&
  e.length == envLen + rd 8 e 16 + tail && shake256 (imageAt e).content == slice e 64 64

/-- SIGNATURE of an image verifies with the key it names. -/
def imageSigned (e : Bytes) : Bool := Config.slhVerify 0 (slice e 128 64) (e.take 192) (slice e 192 29792)

/-- Tenant and identity in the content's own header agree with the envelope (R155, R317). -/
def contentAgrees (i : Image) : Bool :=
  if i.kind = 1 then rd 1 i.content 6 == i.tenant && rd 8 i.content 16 == i.id.toNat
  else rd 1 i.content 7 == i.tenant && rd 8 i.content 8 == i.id.toNat

/-- A slice or a program present uses an image (R494). -/
def imageInUse (m : Mach) (kind : Nat) (id : BitVec 64) : Bool :=
  if kind = 1 then m.cpu.slices.any fun s => s.2.image == id
  else m.lge.progs.any fun g => g.2.prog.id == id || g.2.exchange.any fun x => x.prog.id == id

def cfgImageStore : Cmd where
  code := 0x1203
  len := layout 8 [(0, 8)]
  right := rConfig
  apply := false
  check := fun m h _ =>
    match stagedFor m h [1, 2] with
    | none => 0x0206
    | some e =>
      let i := imageAt e
      let size := (m.sec.images.map fun x => x.content.length + envLen).sum + e.length
      firstFail [
        (!envelopeOk e [1, 2] 0 || (m.sec.staging.any fun s => s.kind != i.kind) || !imageSigned e, 0x0200),
        (!m.sec.endorsed.contains (i.tenant, shake256 i.pubkey) || !contentAgrees i, 0x0205),
        (4096 ≤ m.sec.images.length || 2 ^ 34 < size, 0x0207)]

/-- A staged image placed in the store, in place of one of its kind, tenant and identity. -/
def storeImage (h : Hdr) (m : Mach) : Mach :=
  match stagedFor m h [1, 2] with
  | none => m
  | some e =>
    let i := imageAt e
    let other (x : Image) : Bool := !(x.kind == i.kind && x.tenant == i.tenant && x.id == i.id)
    onSec (fun x => { x with images := x.images.filter other ++ [i] }) m

/-- CFG_IMAGE_STORE. -/
def execCfgImageStore (h : Hdr) (p : Bytes) (s : State) : Host.Outcome State Fault Refusal :=
  runOn s fun m =>
    runNow cfgImageStore h p (fun m => le 8 (((stagedFor m h [1, 2]).map fun e => rd 8 e 8).getD 0)) (storeImage h) m

def cfgImageDelete : Cmd where
  code := 0x1204
  len := layout 16 [(1, 7)]
  right := rConfig
  apply := false
  check := fun m _ p =>
    let kind := rd 1 p 0
    let id : BitVec 64 := .ofNat 64 (rd 8 p 8)
    firstFail [(!m.sec.images.any fun i => i.kind == kind && i.id == id, 0x0107), (imageInUse m kind id, 0x0204)]

/-- CFG_IMAGE_DELETE. -/
def execCfgImageDelete (h : Hdr) (p : Bytes) (s : State) : Host.Outcome State Fault Refusal :=
  runOn s (runNow cfgImageDelete h p (fun _ => []) (onSec fun x => { x with
    images := x.images.filter fun i => !(i.kind == rd 1 p 0 && i.id == .ofNat 64 (rd 8 p 8)) }))

-- Reading the configuration (R487, R492)

/-- The body of the copy in force, and the journal as commands. -/
def runningConfig (m : Mach) : Option (Bytes × List (Nat × Bytes)) :=
  m.sec.force.map fun f => ((getCopy m f.which).body, m.sec.journal.map fun j => (j.code, j.payload))

/-- The body CFG_EXPORT returns (R492). -/
def exported (m : Mach) : Bytes :=
  match runningConfig m with
  | none => Config.exportBody [] (m.sec.journal.map fun j => (j.code, j.payload))
  | some (b, j) => Config.exportBody b j

def cfgExport : Cmd where
  code := 0x1205
  len := layout 16 [(12, 4)]
  right := rConfig
  apply := false
  check := fun m _ p => if (exported m).length < rd 8 p 0 || 262144 < 72 + rd 4 p 8 then 0x0207 else 0

/-- CFG_EXPORT. -/
def execCfgExport (h : Hdr) (p : Bytes) (s : State) : Host.Outcome State Fault Refusal :=
  runOn s (runRead cfgExport h p (fun m =>
    let b := exported m
    le 8 b.length ++ padTo 64 (runDigest m) ++ slice b (rd 8 p 0) (rd 4 p 8)) id)

def cfgStatus : Cmd where
  code := 0x1210
  len := layout 8 [(0, 8)]
  apply := false

/-- The response of CFG_STATUS. -/
def cfgStatusBytes (m : Mach) : Bytes :=
  let valid (i : Nat) := b2n (copyFault m true (getCopy m i)).isNone
  fields [(1, ((m.sec.force.map (·.which)).getD 0xFF)), (1, valid 0 + 2 * valid 1), (4, m.sec.journal.length), (2, 0),
    (8, rd 8 (getCopy m 0).header 8), (8, rd 8 (getCopy m 1).header 8)] ++ padTo 64 (runDigest m) ++
  fields [(4, m.sec.images.length), (4, 0)]

/-- CFG_STATUS. -/
def execCfgStatus (h : Hdr) (p : Bytes) (s : State) : Host.Outcome State Fault Refusal :=
  runOn s (runRead cfgStatus h p cfgStatusBytes id)

-- Owner slots (R483)

/-- An owner slot is active; an owner slot is empty. -/
def slotActive (m : Mach) (i : Nat) : Bool := 1 ≤ i && i ≤ 3 && (slotDigest m i).isSome
def slotEmpty (m : Mach) (i : Nat) : Bool := 1 ≤ i && i ≤ 3 && !slotActive m i && !slotRevoked m i

def secOwnerSlot : Cmd where
  code := 0x1301
  len := fun p => (p.length == 72 || p.length == 29864) && rd 1 p 1 < 2 && zeros p 3 5
  right := rSecurity
  m1 := false
  apply := false
  check := fun m h p =>
    let slot := rd 1 p 0
    let signer := rd 1 p 2
    let program := rd 1 p 1 == 0
    if !ownerActive m then
      (if program && h.box == .m3 && m.sec.unconfigured && slotEmpty m slot then 0 else 0x0202)
    else
      let good := slotActive m signer &&
        (slotDigest m signer).any fun d => Config.slhVerify 0 d (p.take 72) (p.drop 72)
      let last := [1, 2, 3].all fun i => i == slot || !slotActive m i
      firstFail [
        (!good, 0x0200),
        (program && !slotEmpty m slot, 0x0202),
        (!program && (!slotActive m slot || last || m.sec.force.any fun f => f.slot == slot), 0x0202)]

/-- A slot programmed or revoked. Rights that a revoked slot granted to open sessions are lost at once. -/
def ownerOp (p : Bytes) (m : Mach) : Mach :=
  let slot := rd 1 p 0
  let program := rd 1 p 1 == 0
  let m := raise 0x1301 0 (fields [(1, slot), (1, rd 1 p 1)]) m
  if program then onSec (fun x => { x with owners := tset x.owners slot (.active (shake256 (slice p 8 64))) }) m
  else
    let d := (slotDigest m slot).getD []
    let m := onSec (fun x => { x with owners := tset x.owners slot (.revoked d) }) m
    onMbx (fun x => { x with
      sess := tmap x.sess fun k s =>
        let g := s.grants.filter fun y => y.1 != slot
        if k < 64 then { s with grants := g, rights := g.foldl (fun a y => a ||| y.2) 1 } else s }) m

/-- SEC_OWNER_SLOT by its action. -/
def runOwner (h : Hdr) (p : Bytes) : Mach → Mach := runNow secOwnerSlot h p (fun _ => []) (ownerOp p)

/-- SEC_OWNER_SLOT_PROGRAM: action 0. -/
def execSecOwnerSlotProgram (h : Hdr) (p : Bytes) (s : State) : Host.Outcome State Fault Refusal := runOn s (runOwner h p)
/-- SEC_OWNER_SLOT_REVOKE: action 1. -/
def execSecOwnerSlotRevoke (h : Hdr) (p : Bytes) (s : State) : Host.Outcome State Fault Refusal := runOn s (runOwner h p)

-- Keys, anchors and certificates (R496)

/-- The fingerprint of a secret, of one that is absent zero. -/
def fingerprint (k : Option Bytes) : Bytes :=
  match k with
  | none => List.replicate 64 0
  | some b => padTo 64 (shake256 b)

/-- A key store entry after a load. -/
def keyLoaded (p : Bytes) (e : KeyEnt) : KeyEnt :=
  let f := rd 1 p 2
  { cur := if bit f 0 then some { key := slice p 8 32, ident := rd 4 p 40 } else e.cur
    next := if bit f 1 then some { key := slice p 44 32, ident := rd 4 p 76 } else e.next }

/-- An index of the key store as it stands. -/
def keyEnt (m : Mach) (i : Nat) : KeyEnt := tgetD m.sec.keys i { cur := none, next := none }

def secKeyLoad : Cmd where
  code := 0x1302
  len := fun p => layout 88 [(3, 5), (80, 8)] p && rd 1 p 2 < 4
  right := rSecurity
  m1 := false
  sched := true
  check := fun _ _ p => if 1023 < rd 2 p 0 then 0x0209 else 0

/-- The response of SEC_KEY_LOAD: the fingerprints of the current and the next key as they will stand. -/
def keyReply (p : Bytes) (m : Mach) : Bytes :=
  let e := keyLoaded p (keyEnt m (rd 2 p 0))
  fingerprint (e.cur.map (·.key)) ++ fingerprint (e.next.map (·.key))

/-- SEC_KEY_LOAD at its effective tick: a frame verified from then on uses the new key. -/
def applyKeyLoad (p : Bytes) (m : Mach) : Mach :=
  let i := rd 2 p 0
  let e := keyLoaded p (keyEnt m i)
  raise 0x1304 0 (le 2 i ++ (fingerprint (if bit (rd 1 p 2) 0 then e.cur.map (·.key) else e.next.map (·.key))).take 30)
    (onSec (fun x => { x with keys := tset x.keys i e }) m)

def secTlsSet : Cmd where
  code := 0x1303
  len := fun p => 8 ≤ p.length && rd 1 p 0 < 4 && zeros p 4 4 && p.length == 8 + rd 2 p 2 && rd 2 p 2 ≤ 4096 &&
    (rd 1 p 0 == 0 || rd 1 p 0 == 2 || rd 2 p 2 == 0)
  right := rSecurity
  m1 := false
  apply := false
  check := fun _ _ p => if rd 1 p 0 < 2 && 7 < rd 1 p 1 then 0x0209 else 0

/-- An anchor set or cleared, or the module certificate replaced. -/
def tlsOp (p : Bytes) (m : Mach) : Mach :=
  let a := rd 1 p 1
  let der := p.drop 8
  let m := onSec (fun x => match rd 1 p 0 with
    | 0 => { x with anchors := tset x.anchors a der }
    | 1 => { x with anchors := terase x.anchors a }
    | _ => { x with cert := der }) m
  raise 0x1304 0 (le 2 (if rd 1 p 0 = 2 then 0xFFFF else a) ++ (if rd 1 p 0 = 1 then [] else (fingerprint (some der)).take 30)) m

/-- SEC_TLS_SET by its op; op 3 only reads. -/
def runTls (h : Hdr) (p : Bytes) : Mach → Mach :=
  if rd 1 p 0 = 3 then runRead secTlsSet h p (fun _ => Config.tlsPublicKey) id
  else runNow secTlsSet h p (fun _ => []) (tlsOp p)

/-- SEC_TLS_ANCHOR_SET: op 0. -/
def execSecTlsAnchorSet (h : Hdr) (p : Bytes) (s : State) : Host.Outcome State Fault Refusal := runOn s (runTls h p)
/-- SEC_TLS_ANCHOR_CLEAR: op 1. -/
def execSecTlsAnchorClear (h : Hdr) (p : Bytes) (s : State) : Host.Outcome State Fault Refusal := runOn s (runTls h p)
/-- SEC_TLS_MODULE_CERT: op 2. -/
def execSecTlsModuleCert (h : Hdr) (p : Bytes) (s : State) : Host.Outcome State Fault Refusal := runOn s (runTls h p)
/-- SEC_TLS_READ_PUBLIC_KEY: op 3. -/
def execSecTlsReadPublicKey (h : Hdr) (p : Bytes) (s : State) : Host.Outcome State Fault Refusal := runOn s (runTls h p)

-- Firmware (R495)

/-- Length of the owner approval behind a firmware image's content (R493). -/
def approvalLen : Nat := 29864

/-- The owner approval of a staged firmware image verifies with an active slot. -/
def approved (m : Mach) (e : Bytes) : Bool :=
  let a := e.drop (envLen + rd 8 e 16)
  1 ≤ rd 1 a 0 && rd 1 a 0 ≤ 3 && zeros a 1 7 && signedBy m (rd 1 a 0) (slice a 8 64) (e.take 192) (slice a 72 29792)

def secFwInstall : Cmd where
  code := 0x1304
  len := fun p => layout 8 [(1, 7)] p && rd 1 p 0 < 2
  right := rSecurity
  m1 := false
  apply := false
  check := fun m h _ =>
    match stagedFor m h [3] with
    | none => 0x0206
    | some e =>
      firstFail [
        (!envelopeOk e [3] approvalLen || !signedBy m 0 (slice e 128 64) (e.take 192) (slice e 192 29792), 0x0200),
        (rd 4 e 24 < m.sec.secver || (ownerActive m && !approved m e), 0x0208)]

/-- The staged firmware written to the other firmware slot and marked pending. -/
def installFw (h : Hdr) (p : Bytes) (m : Mach) : Mach :=
  match stagedFor m h [3] with
  | none => m
  | some e =>
    let f : Firmware := { version := rd 8 e 8, digest := slice e 64 64, secver := rd 4 e 24 }
    raise 0x1302 0 (fields [(1, 0), (7, 0), (8, f.version)])
      (onSec (fun x => { x with fwPend := some f, raiseFloor := bit (rd 1 p 0) 0, fwTrying := false }) m)

/-- SEC_FW_INSTALL. -/
def execSecFwInstall (h : Hdr) (p : Bytes) (s : State) : Host.Outcome State Fault Refusal :=
  runOn s fun m =>
    runNow secFwInstall h p (fun m => le 8 (((stagedFor m h [3]).map fun e => rd 8 e 8).getD 0)) (installFw h p) m

-- Attestation (R497)

/-- A slice's state as R150 numbers it. -/
def sliceEntry (t : Nat) (s : Slice) : Bytes :=
  fields [(1, t), (1, s.tenant), (1, sliceNum s), (1, s.hue), (4, 0), (8, s.image.toNat)] ++ padTo 64 s.imageDigest

/-- The digest of a program's stored image. -/
def progDigest (m : Mach) (tenant : Nat) (id : BitVec 64) : Bytes := padTo 64 (((imageById m tenant id).map (·.digest)).getD [])

/-- The attestation report, fixed at acceptance. -/
def reportBytes (p : Bytes) (m : Mach) : Bytes :=
  let present := m.cpu.slices.filter fun s => sliceNum s.2 != 0
  fields [(4, 0x54535441), (2, 1), (1, rd 1 p 0), (1, present.length), (8, m.ident.serial.toNat)] ++ slice p 8 64 ++
  fields [(8, m.time.clock.sec.toNat), (4, m.time.clock.ns.toNat), (1, timeCode m.time.state), (1, roleNow m),
    (1, m.lge.progs.length), (1, 0), (8, m.time.tick), (8, ((m.sec.force.map (·.seq)).getD 0))] ++
  padTo 64 m.sec.fwCur.digest ++ padTo 64 ((m.sec.force.map (·.digest)).getD []) ++ padTo 64 (runDigest m) ++
  List.replicate 16 0 ++ (present.flatMap fun s => sliceEntry s.1 s.2) ++
  (m.lge.progs.flatMap fun g => fields [(1, g.1), (1, g.2.owner), (6, 0), (8, g.2.prog.id.toNat)] ++ progDigest m (tenantOf m g.2.owner) g.2.prog.id)

def secAttest : Cmd where
  code := 0x1310
  len := fun p => layout 72 [(2, 6)] p && rd 1 p 1 < 2
  m1 := true
  apply := false
  busy := fun m _ _ => m.sec.attest.isSome
  check := fun _ _ p => if 1 < rd 1 p 0 then 0x0209 else 0

/-- SEC_ATTEST: the report is fixed, and the security unit signs it while the CP goes on. -/
def execSecAttest (h : Hdr) (p : Bytes) (s : State) : Host.Outcome State Fault Refusal :=
  runOn s (judged secAttest h p fun h m =>
    let role := roleOf m h
    let a : Attest := { hdr := h, role := role, alg := rd 1 p 0, cert := bit (rd 1 p 1) 0, report := reportBytes p m }
    onSec (fun x => { x with attest := some a }) (raiseAccepted 0x1310 h role h.apply 0 m))

/-- The length of a signature of a parameter set (R497). -/
def sigLen (alg : Nat) : Nat := if alg = 0 then 29792 else 49856

/-- The identity certificate of a parameter set: 160 bytes and Gwynic root's signature (R497). -/
def identityCert (m : Mach) (alg : Nat) : Bytes :=
  fields [(4, 0x54524543), (1, alg), (1, m.ident.order), (2, 0), (8, m.ident.serial.toNat)] ++
  padTo 64 (Config.identityKey alg) ++ le 8 Config.madeAt ++ List.replicate 72 0 ++ padTo 29792 (Config.rootSignature alg)

/-- ATTEST_SIGN_COMPLETE: the signature is complete and the response is sent. -/
def execAttestSignComplete (s : State) : Host.Outcome State Fault Refusal :=
  runOn s fun m => match m.sec.attest with
    | none => m
    | some a =>
      if !controlRuns m then m
      else
        let sig := padTo (sigLen a.alg) (Config.slhSign a.alg a.report)
        let cert := if a.cert then identityCert m a.alg else []
        respond 0x1310 a.hdr a.role a.hdr.apply 0 (a.report ++ sig ++ cert) (onSec (fun x => { x with attest := none }) m)

def secStatus : Cmd where
  code := 0x1311
  len := layout 8 [(0, 8)]
  apply := false

/-- The number of an owner slot's state: 0 empty, 1 active, 2 revoked. -/
def slotCode (m : Mach) (i : Nat) : Nat := if slotRevoked m i then 2 else b2n (slotDigest m i).isSome

/-- The response of SEC_STATUS. -/
def secStatusBytes (m : Mach) : Bytes :=
  fields [(1, slotCode m 0), (1, slotCode m 1), (1, slotCode m 2), (1, slotCode m 3), (4, m.sec.secver),
    (8, m.sec.fwCur.version), (8, ((m.sec.fwPend.map (·.version)).getD 0))] ++
  (List.range 8).flatMap fun i => fingerprint (tget m.sec.anchors i)

/-- SEC_STATUS. -/
def execSecStatus (h : Hdr) (p : Bytes) (s : State) : Host.Outcome State Fault Refusal :=
  runOn s (runRead secStatus h p secStatusBytes id)

end Sys2Proof.Machine
end

