-- ==== Sys2Proof/Machine/Apply.lean ====
section
/-! DEFINITION. Scheduled changes: what each does at its tick, how it is discarded, and the module projected to the effective
tick of a command that is being judged (R25 to R30, R216). -/
namespace Sys2Proof.Machine
open Sys2Proof

/-- A command that enables the group a change disables follows it at the same tick (R27). -/
def enabledAgain (c : Change) (m : Mach) : Bool := m.mbx.scheduled.any fun d =>
  d.code == c.code && d.apply == c.apply && c.order < d.order && d.payload.head? == c.payload.head? && bit (rd 1 d.payload 1) 0

/-- What a change does to its object at its effective tick. -/
def applyChange (c : Change) (m : Mach) : Mach :=
  let p := c.payload
  match c.code with
  | 0x0103 => applyHoldoff p m
  | 0x0220 => applyPtpSet p m
  | 0x0301 => applySubEntry p m
  | 0x0302 => applyChanSet p m
  | 0x0401 => applyGroupSet (enabledAgain c m) p m
  | 0x0402 => applyBankLoad p m
  | 0x0410 => applySwap c.order p m
  | 0x0501 => applyEstSet p m
  | 0x0502 => applyFreeze p m
  | 0x0601 => applyHueSet p m
  | 0x0602 => applyAdmit c.deferred { c.hdr with apply := c.apply } c.role c.resp p m
  | 0x0603 => applyStart p m
  | 0x0604 => applyStop p m
  | 0x0605 => applyReset c.deferred { c.hdr with apply := c.apply } c.role p m
  | 0x0606 => applyRemove p m
  | 0x0610 => applyResource p m
  | 0x0611 => applySubList p m
  | 0x0612 => applyRights p m
  | 0x0613 => applyMemRelease c.hdr p m
  | 0x0701 => loadLattice p m
  | 0x0702 => applyLattice p m
  | 0x0704 => applyHandlerSet p m
  | 0x0801 => applyRangeSet p m
  | 0x0802 => applyPubSet p m
  | 0x0803 => applySubSet p m
  | 0x0804 => applyCurveSet p m
  | 0x0901 => applyBufSet p m
  | 0x0902 => applyQueueSet p m
  | 0x0903 => applySwPortSet p m
  | 0x0A01 => applyPortSet p m
  | 0x0A02 => applyRuleSet p m
  | 0x0B01 => applyRingSet p m
  | 0x0B02 => applyRingsetSet p m
  | 0x0C00 => beginPrograms p m
  | 0x0C01 => applyProgLoad p m
  | 0x0C02 => applyProgExchange p m
  | 0x0C03 => applyProgSet p m
  | 0x0C04 => applyRestart p m
  | 0x0C05 => applyForce p m
  | 0x0D01 => applyPointSet p m
  | 0x0D02 => applyPulseOut p m
  | 0x0D03 => applyPulseIn p m
  | 0x0D04 => applyPreset p m
  | 0x0E01 => applyStreamSet p m
  | 0x0E02 => applyElemSet p m
  | 0x0E03 => applyTripSet p m
  | 0x0E04 => applyUpubSet p m
  | 0x0E05 => applyUmbConfig p m
  | 0x0F02 => applyCodeSet p m
  | 0x0F03 => applyClear c.role m
  | 0x1001 => applyPairSet p m
  | 0x1002 => applyQuotaSet p m
  | 0x1302 => applyKeyLoad p m
  | _ => m

/-- The journal carries a change when it takes effect, but for those R486 names; a hue change is entered by its switch. -/
def journaled (c : Change) : Bool :=
  !([0x0104, 0x0105, 0x0211, 0x0605, 0x0C04, 0x0C05, 0x0D04, 0x0502, 0x1003, 0x1101, 0x0F03].contains c.code) &&
  c.code / 256 != 0x12 && c.code / 256 != 0x13 && !(c.code == 0x0610 && rd 1 c.payload 1 == 1)

/-- An event of a scheduled change: 0x0102 applied, 0x0103 discarded (R26, R30, R480). -/
def changeEvent (event : Nat) (code : Nat) (h : Hdr) (role : BitVec 32) (apply : Tick) (m : Mach) : Mach :=
  let num := ((tget m.mbx.sess (boxIx h.box)).map (·.num)).getD 0
  raise event (boxTag h.box) (fields [(2, code), (1, boxIx h.box), (1, num), (4, h.seq.toNat), (4, role.toNat), (4, 0),
    (8, apply)]) m

/-- The order in which changes take effect: by apply tick, then by acceptance (R27). -/
def changeLess (a b : Change) : Bool := a.apply < b.apply || (a.apply == b.apply && a.order < b.order)

/-- The scheduled changes in the order in which they take effect. -/
def inOrder (l : List Change) : List Change := l.foldl (fun l c => linsert changeLess c l) []

/-- A change leaves the schedule. -/
def dropChange (c : Change) : Mach → Mach := onMbx fun x => { x with scheduled := x.scheduled.filter fun d => d.order != c.order }

/-- The answer of a change whose sender waits for its tick (R25); an admission and a reset answer for themselves (R161, R174),
and a clear of the recorder answers with the F it took (R407). -/
def answerChange (c : Change) (m : Mach) : Mach :=
  if c.code = 0x0602 ∨ c.code = 0x0605 then m
  else
    let resp := if c.code = 0x0F03 then le 8 m.evr.clearSeq else c.resp
    respond c.code c.hdr c.role c.apply 0 resp m

/-- A change as it would be accepted now, for the checks made before. -/
def asChange (code : Nat) (h : Hdr) (p : Bytes) (e : Tick) (m : Mach) : Change :=
  { order := m.mbx.accepted, apply := e, code := code, hdr := h, role := 0, payload := p, resp := [], deferred := false }

/-- The header of a change that no message carried. -/
def blankHdr (tag : Nat) : Hdr :=
  { box := .slice (.ofNat 65 tag), flags := 0, seq := 0, length := 0, target := 0xFE, segment := 0, apply := 0, status := 0,
    role := 0 }

-- Changes of what acts at the assembly alone (R12)

/-- The codes of such changes: banks, publish blocks and retransmission curves, and what the logic engine holds (log entry 85). -/
def atAssembly (code : Nat) : Bool := [0x0402, 0x0802, 0x0804, 0x0C01, 0x0C02, 0x0C03, 0x0C04, 0x0C05].contains code

/-- The changes left to the assembly of a tick are made, on its grid. -/
def makeLate (d : AsmDue) (m : Mach) : Mach :=
  let n := m.time.tick
  let g := m.time.grid
  let at_ (k : Tick) (g : Grid) : Mach → Mach := onTime fun t => { t with tick := k, grid := g }
  at_ n g (forEach d.late (fun c => applyChange (asChange c.1 (blankHdr 0) c.2 d.tick m)) (at_ d.tick d.grid m))

/-- Every change so left is made; or those of some codes. -/
def settleCodes (ok : Nat → Bool) (m : Mach) : Mach :=
  let part (b : Bool) (d : AsmDue) : AsmDue := { d with late := d.late.filter fun c => ok c.1 == b }
  forEach (m.time.asm.map (part true)) makeLate (onTime (fun t => { t with asm := t.asm.map (part false) }) m)
def settleLate : Mach → Mach := settleCodes fun _ => true

-- Changes of one object at one tick (R27)

/-- The length of the index a change of a whole entry begins with. -/
def entryIndex (code : Nat) : Option Nat :=
  if [0x0A01, 0x0C03, 0x0D01, 0x0D02, 0x0D03, 0x0E01, 0x0E03, 0x0E04].contains code then some 1
  else if [0x0802, 0x0803, 0x0B01].contains code then some 2
  else none

/-- Another change of the same entry, accepted later, is effective at the same tick: the entry takes the state that one gives it, and
nothing is lost by this one. -/
def superseded (c : Change) (m : Mach) : Bool := match entryIndex c.code with
  | none => false
  | some k => m.mbx.scheduled.any fun d =>
    d.code == c.code && d.apply == c.apply && c.order < d.order && d.payload.take k == c.payload.take k

/-- What a change does as its tick begins. -/
def makeChange (c : Change) (m : Mach) : Mach := if superseded c m then m else applyChange c m

/-- The same, left to the assembly of its tick where its object acts there. -/
def makeAtTick (c : Change) (m : Mach) : Mach :=
  if atAssembly c.code && waitsFor c.apply m then (if superseded c m then m else addLate c.apply c.code c.payload m)
  else makeChange c m

/-- A change whose tick has begun takes effect: it is journaled, and its outcome answered or recorded (R25, R26, R486). -/
def effectChange (c : Change) (m : Mach) : Mach :=
  let m := makeAtTick c (dropChange c m)
  let m := if journaled c then journalAdd c.code c.payload m (tag := boxTag c.hdr.box) else m
  if c.deferred then answerChange c m else changeEvent 0x0102 c.code c.hdr c.role c.apply m

/-- SCHEDULED_CHANGE_APPLY: the next change whose apply tick has begun becomes effective (R25, R27). -/
def execScheduledChangeApply (s : State) : Host.Outcome State Fault Refusal :=
  runOn s fun m =>
    if !controlRuns m then m
    else match (inOrder m.mbx.scheduled).find? fun c => c.apply ≤ m.time.tick with
      | none => m
      | some c => effectChange c m

/-- What acceptance of a change has taken is given back. A swap discarded here, by a step or a restart too, counts as discarded (log entry
80). -/
def undoChange (c : Change) (m : Mach) : Mach :=
  match c.code with
  | 0x0410 => rscCount (rd 1 c.payload 0) 5 1 m
  | 0x0702 => onCpu (fun x => { x with locked := false }) m
  | 0x0602 => dropAdmit c.payload m
  | 0x0610 => if rd 1 c.payload 1 = 1 then endMigration (resTag c.payload) 2 m else m
  | _ => m

/-- A scheduled change is discarded (R30): its place is free, the event recorded; a sender that still waits for the tick is
told to retry. -/
def discardChange (c : Change) (m : Mach) : Mach :=
  let m := changeEvent 0x0103 c.code c.hdr c.role c.apply (undoChange c (dropChange c m))
  if c.deferred then respond c.code c.hdr c.role c.apply 0x0103 [] m else m

/-- Every scheduled change that meets a condition is discarded, in order of acceptance. -/
def discardWhere (f : Change → Bool) (m : Mach) : Mach :=
  forEach (m.mbx.scheduled.filter f) discardChange m

-- Projection

/-- Slices that will have become loaded by a tick stand as loaded, or running where that was asked. -/
def arriveBy (e : Tick) : Mach → Mach := onCpu fun c => { c with
  slices := tmap c.slices fun _ s => if s.arriving.any (· ≤ e) then
    { s with arriving := none, state := if s.toRun then .running else .loaded } else s }

/-- A group after `k` more ticks have been put out: swaps in progress end and those that wait begin (R98, R100). -/
def evolveSwap (k : Nat) (x : Group) : Group :=
  let wait := swapOrder (x.pending.toList ++ x.due.map (·.2))
  let begin_ (x : Group) (k : Nat) : Group := match wait.reverse with
    | [] => x
    | last :: _ =>
      let dest := 1 - x.inUse
      if last.2 ≤ k then { x with inUse := dest, swap := none, pending := none, due := [] }
      else { x with swap := some { dest := dest, len := last.2, done := k }, pending := none, due := [] }
  match x.swap with
  | none => begin_ x k
  | some w =>
    if w.len ≤ w.done + k then begin_ { x with inUse := w.dest, swap := none } (w.done + k - w.len)
    else { x with swap := some { w with done := w.done + k } }

/-- The module as tick `e` begins, with the ticks before it put out: of their assemblies only that of `e` itself is to come. -/
def passTo (e : Tick) (m : Mach) : Mach :=
  let base := (m.time.asm.getLast?.map (·.tick)).getD m.time.tick
  if e ≤ base then onTime (fun t => { t with tick := e }) m
  else
    let ts := m.time.asm.map (·.t)
    let m := onFlt (fun f => { f with groups := tmap f.groups fun _ g => evolveSwap (e - 1 - base) (groupAfter ts g) }) m
    let t := tickAt m e
    let due : AsmDue :=
      { tick := e, t := t, d := t + m.time.hold, rate := m.time.grid.rate, grid := m.time.grid, len := 0, late := [] }
    onTime (fun u => { u with tick := e, asm := [due] }) m

/-- The module as it will stand when tick `e` begins, with the changes given made. -/
def projectWith (l : List Change) (e : Tick) (m : Mach) : Mach :=
  arriveBy e (passTo e (l.foldl (fun m c => arriveBy c.apply (makeChange c (passTo c.apply (dropChange c m)))) m))

/-- The module as it will stand at a tick, with every change scheduled for that tick or an earlier one made (log entry 15). -/
def project (m : Mach) (e : Tick) : Mach := projectWith (inOrder (m.mbx.scheduled.filter fun c => c.apply ≤ e)) e (settleLate m)

/-- How many bytes of a payload name the entry that a command with dependants or as a dependant writes, for those that write one
(R216). -/
def pointEntryIndex (code : Nat) : Option Nat :=
  if code = 0x0801 then some 4
  else if code = 0x0802 ∨ code = 0x0803 then some 2
  else if code = 0x0501 ∨ code = 0x0C01 ∨ code = 0x0E02 then some 1
  else if code = 0x0E05 then some 0
  else none

/-- A change rewrites the entry that a command writes. -/
def rewrites (code : Nat) (p : Bytes) (c : Change) : Bool :=
  c.code == code && (pointEntryIndex code).any fun k => c.payload.take k == p.take k

/-- The module after each change scheduled for a later tick, up to the first that rewrites a command's own entry. -/
def laterMods (code : Nat) (p : Bytes) (m : Mach) (e : Tick) : List Mach :=
  (((inOrder (m.mbx.scheduled.filter fun c => e < c.apply)).takeWhile fun c => !rewrites code p c).foldl (fun (acc : List Mach × Mach) c =>
    let x := projectWith [c] c.apply acc.2
    (acc.1 ++ [x], x)) ([], project m e)).1

/-- The module with a change made, to see what it would need. -/
def madeNow (code : Nat) (h : Hdr) (p : Bytes) (e : Tick) (m : Mach) : Mach :=
  applyChange (asChange code h p e m) (if code = 0x0602 then reserveSlice p e m else m)

/-- A scheduled command judged at its effective tick, with the twin's mirror budget among its resources (R424). -/
def atEffect (c : Cmd) : Cmd :=
  { c with
    proj := fun m h => project m (effTick m h)
    later := fun m h p => laterMods c.code p m (effTick m h)
    res := fun m h p =>
      let r := c.res m h p
      if r ≠ 0 then r
      else if mirrorRaised m (madeNow c.code h p m.time.tick m) then 0x0104 else 0 }

/-- A command that takes effect by R25. -/
def runChange (c : Cmd) (h : Hdr) (p : Bytes) (reply : Mach → Bytes) (m : Mach) : Mach :=
  runSched (atEffect c) h p (fun m => reply (project m (effTick m h))) m

/-- A command that takes effect by R25 and needs something done at its acceptance. -/
def runChangeThen (c : Cmd) (h : Hdr) (p : Bytes) (reply : Mach → Bytes) (act : Tick → Mach → Mach) (m : Mach) : Mach :=
  judged (atEffect c) h p (fun h m =>
    let n := effTick m h
    let resp := reply (project m n)
    act n (enterChange c.code h (roleOf m h) p resp n m)) m

/-- No response payload. -/
def noReply : Mach → Bytes := fun _ => []

-- Configuration without a command (R488, R490)

/-- The rate a configuration holds: taken at once before the grid begins, else by a rate change at the next second boundary
that R48 admits, which bears the command that asked for the configuration, if one did. -/
def configRate (asked : Option (Hdr × BitVec 32)) (rate : Nat) (m : Mach) : Mach :=
  if m.time.grid.rate = rate then onTime (fun t => { t with rateChange := none }) m
  else if !m.time.gridOn then onTime (fun t => { t with grid := { t.grid with rate := rate } }) m
  else onTime (fun t => { t with rateChange := some { sec := t.clock.sec.toNat + 2, rate := rate, asked := asked } }) m

/-- A slice moved into a hue as a whole, with its pages (R154). -/
def moveHue (tag hue : Nat) (m : Mach) : Mach :=
  let m := endMigration tag 2 m
  onSlice tag (fun s => if s.hue = hue then s else
    { s with hue := hue, regions := withPages s.regions (placeRegions m hue m.time.tick s.regions) }) m

/-- A change of configuration made as one of a configuration that is selected or committed. -/
def configChange (tag code : Nat) (p : Bytes) (m : Mach) (asked : Option (Hdr × BitVec 32) := none) : Mach :=
  if code = 0x0210 then configRate asked (rd 4 p 0) m
  else if code = 0x0610 ∧ rd 1 p 1 = 1 then moveHue (resTag p) (resArgA p) m
  else applyChange (asChange code (blankHdr tag) p m.time.tick m)
    (if code = 0x0602 then reserveSlice p m.time.tick m else m)

/-- The changes of a configuration made in order as a tick begins. -/
def configChanges (asked : Option (Hdr × BitVec 32)) (l : List (Nat × Bytes)) : Mach → Mach := forEach l fun c m =>
  if atAssembly c.1 && waitsFor m.time.tick m then addLate m.time.tick c.1 c.2 m else configChange 0 c.1 c.2 m asked

end Sys2Proof.Machine
end

