-- ==== Sys2Proof/Machine/Cmds.lean ====
section
/-! DEFINITION. The commands that take effect at a tick: each is judged on the module as it will stand then and enters the
schedule; what it does there is `applyChange` (R25, R26). -/
namespace Sys2Proof.Machine
open Sys2Proof

/-- SVI_SUB_SET (R64). -/
def execSviSubSet (h : Hdr) (p : Bytes) (s : State) : Host.Outcome State Fault Refusal :=
  runOn s (runChange sviSubSet h p (subReply p))

/-- SVI_CHAN_SET (R61). -/
def execSviChanSet (h : Hdr) (p : Bytes) (s : State) : Host.Outcome State Fault Refusal :=
  runOn s (runChange sviChanSet h p noReply)

/-- RSC_GROUP_SET (R102). -/
def execRscGroupSet (h : Hdr) (p : Bytes) (s : State) : Host.Outcome State Fault Refusal :=
  runOn s (runChange rscGroupSet h p (groupReply p))

/-- RSC_BANK_LOAD (R101). -/
def execRscBankLoad (h : Hdr) (p : Bytes) (s : State) : Host.Outcome State Fault Refusal :=
  runOn s (runChange rscBankLoad h p noReply)

/-- RSC_SWAP (R98): effective at its tick, or held pending (R100). -/
def execRscSwap (h : Hdr) (p : Bytes) (s : State) : Host.Outcome State Fault Refusal :=
  runOn s (runChange rscSwap h p noReply)

/-- EST_GROUP_SET (R106). -/
def execEstGroupSet (h : Hdr) (p : Bytes) (s : State) : Host.Outcome State Fault Refusal :=
  runOn s (runChange estGroupSet h p (estReply p))

/-- EST_FREEZE, action 0: freeze (R118). -/
def execEstFreeze (h : Hdr) (p : Bytes) (s : State) : Host.Outcome State Fault Refusal :=
  runOn s (runChange estFreeze h p noReply)

/-- EST_FREEZE, action 1: release (R118). -/
def execEstRelease (h : Hdr) (p : Bytes) (s : State) : Host.Outcome State Fault Refusal :=
  runOn s (runChange estFreeze h p noReply)

/-- SLC_HUE_SET (R151). -/
def execSlcHueSet (h : Hdr) (p : Bytes) (s : State) : Host.Outcome State Fault Refusal :=
  runOn s (runChange slcHueSet h p noReply)

/-- SLC_START (R150, R160). -/
def execSlcStart (h : Hdr) (p : Bytes) (s : State) : Host.Outcome State Fault Refusal :=
  runOn s (runChange slcStart h p noReply)

/-- SLC_STOP (R150). -/
def execSlcStop (h : Hdr) (p : Bytes) (s : State) : Host.Outcome State Fault Refusal :=
  runOn s (runChange slcStop h p noReply)

/-- SLC_RESET (R174): with apply tick zero it is answered when the reset is complete, with another at acceptance, the fields of the
response zero. -/
def execSlcReset (h : Hdr) (p : Bytes) (s : State) : Host.Outcome State Fault Refusal :=
  runOn s (runChange slcReset h p fun _ => le 16 0)

/-- SLC_REMOVE (R150). -/
def execSlcRemove (h : Hdr) (p : Bytes) (s : State) : Host.Outcome State Fault Refusal :=
  runOn s (runChange slcRemove h p noReply)

/-- SLC_RESOURCE_SET kind 2 (R170). -/
def execSlcResourceSetRegionSize (h : Hdr) (p : Bytes) (s : State) : Host.Outcome State Fault Refusal :=
  runOn s (runChange slcRegion h p noReply)

/-- SLC_RESOURCE_SET kind 3 (R168). -/
def execSlcResourceSetRingAssign (h : Hdr) (p : Bytes) (s : State) : Host.Outcome State Fault Refusal :=
  runOn s (runChange slcRingAssign h p noReply)

/-- SLC_RESOURCE_SET kind 4 (R168). -/
def execSlcResourceSetRingRelease (h : Hdr) (p : Bytes) (s : State) : Host.Outcome State Fault Refusal :=
  runOn s (runChange slcRingRelease h p noReply)

/-- SLC_RESOURCE_SET kind 5 (R169). -/
def execSlcResourceSetSwitchShare (h : Hdr) (p : Bytes) (s : State) : Host.Outcome State Fault Refusal :=
  runOn s (runChange slcShare h p noReply)

/-- SLC_RESOURCE_SET kind 6 (R168). -/
def execSlcResourceSetReady (h : Hdr) (p : Bytes) (s : State) : Host.Outcome State Fault Refusal :=
  runOn s (runChange slcReady h p noReply)

/-- SLC_SUB_SET (R138). -/
def execSlcSubSet (h : Hdr) (p : Bytes) (s : State) : Host.Outcome State Fault Refusal :=
  runOn s (runChange slcSubSet h p noReply)

/-- SLC_RIGHTS_SET, action 0 (R172). -/
def execSlcRightsGrant (h : Hdr) (p : Bytes) (s : State) : Host.Outcome State Fault Refusal :=
  runOn s (runChange (slcRights 0) h p noReply)

/-- SLC_RIGHTS_SET, action 1 (R172). -/
def execSlcRightsRevoke (h : Hdr) (p : Bytes) (s : State) : Host.Outcome State Fault Refusal :=
  runOn s (runChange (slcRights 1) h p noReply)

/-- SLC_MEM_RELEASE (R170). -/
def execSlcMemRelease (h : Hdr) (p : Bytes) (s : State) : Host.Outcome State Fault Refusal :=
  runOn s (runChange slcMemRelease h p noReply)

/-- DSP_HANDLER_SET, action 1 (R205). -/
def execDspHandlerEnable (h : Hdr) (p : Bytes) (s : State) : Host.Outcome State Fault Refusal :=
  runOn s (runChange dspHandlerSet h p noReply)

/-- DSP_HANDLER_SET, action 0 (R28, R205). -/
def execDspHandlerDisable (h : Hdr) (p : Bytes) (s : State) : Host.Outcome State Fault Refusal :=
  runOn s (runChange dspHandlerSet h p noReply)

/-- SIG_RANGE_SET (R215). -/
def execSigRangeSet (h : Hdr) (p : Bytes) (s : State) : Host.Outcome State Fault Refusal :=
  runOn s (runChange sigRangeSet h p noReply)

/-- SIG_PUB_SET (R228). -/
def execSigPubSet (h : Hdr) (p : Bytes) (s : State) : Host.Outcome State Fault Refusal :=
  runOn s (runChange sigPubSet h p noReply)

/-- SIG_SUB_SET (R236). -/
def execSigSubSet (h : Hdr) (p : Bytes) (s : State) : Host.Outcome State Fault Refusal :=
  runOn s (runChange sigSubSet h p noReply)

/-- SIG_CURVE_SET (R234). -/
def execSigCurveSet (h : Hdr) (p : Bytes) (s : State) : Host.Outcome State Fault Refusal :=
  runOn s (runChange sigCurveSet h p noReply)

/-- SWC_BUF_SET (R249). -/
def execSwcBufSet (h : Hdr) (p : Bytes) (s : State) : Host.Outcome State Fault Refusal :=
  runOn s (runChange swcBufSet h p noReply)

/-- SWC_QUEUE_SET (R250). -/
def execSwcQueueSet (h : Hdr) (p : Bytes) (s : State) : Host.Outcome State Fault Refusal :=
  runOn s (runChange swcQueueSet h p noReply)

/-- SWC_PORT_SET (R256). -/
def execSwcPortSet (h : Hdr) (p : Bytes) (s : State) : Host.Outcome State Fault Refusal :=
  runOn s (runChange swcPortSet h p noReply)

/-- MAC_PORT_SET (R284). -/
def execMacPortSet (h : Hdr) (p : Bytes) (s : State) : Host.Outcome State Fault Refusal :=
  runOn s (runChange macPortSet h p noReply)

/-- MAC_RULE_SET (R269). -/
def execMacRuleSet (h : Hdr) (p : Bytes) (s : State) : Host.Outcome State Fault Refusal :=
  runOn s (runChange macRuleSet h p noReply)

/-- HDMA_RING_SET (R289). -/
def execHdmaRingSet (h : Hdr) (p : Bytes) (s : State) : Host.Outcome State Fault Refusal :=
  runOn s (runChange hdmaRingSet h p noReply)

/-- HDMA_RINGSET_SET (R299). -/
def execHdmaRingsetSet (h : Hdr) (p : Bytes) (s : State) : Host.Outcome State Fault Refusal :=
  runOn s (runChange hdmaRingsetSet h p noReply)

/-- LGE_PROG_LOAD (R311). -/
def execLgeProgLoad (h : Hdr) (p : Bytes) (s : State) : Host.Outcome State Fault Refusal :=
  runOn s (runChange lgeProgLoad h p (loadReply false p))

/-- LGE_PROG_EXCHANGE (R338). -/
def execLgeProgExchange (h : Hdr) (p : Bytes) (s : State) : Host.Outcome State Fault Refusal :=
  runOn s (runChange lgeProgExchange h p (loadReply true p))

/-- LGE_PROG_SET (R312). -/
def execLgeProgSet (h : Hdr) (p : Bytes) (s : State) : Host.Outcome State Fault Refusal :=
  runOn s (runChange lgeProgSet h p noReply)

/-- LGE_RESTART, kind 0 (R331). -/
def execLgeRestartWarm (h : Hdr) (p : Bytes) (s : State) : Host.Outcome State Fault Refusal :=
  runOn s (runChange lgeRestart h p noReply)

/-- LGE_RESTART, kind 1 (R331). -/
def execLgeRestartCold (h : Hdr) (p : Bytes) (s : State) : Host.Outcome State Fault Refusal :=
  runOn s (runChange lgeRestart h p noReply)

/-- ENG_POINT_SET (R344). -/
def execEngPointSet (h : Hdr) (p : Bytes) (s : State) : Host.Outcome State Fault Refusal :=
  runOn s (runChange engPointSet h p noReply)

/-- ENG_PULSE_OUT_SET (R355). -/
def execEngPulseOutSet (h : Hdr) (p : Bytes) (s : State) : Host.Outcome State Fault Refusal :=
  runOn s (runChange engPulseOutSet h p noReply)

/-- ENG_PULSE_IN_SET (R359). -/
def execEngPulseInSet (h : Hdr) (p : Bytes) (s : State) : Host.Outcome State Fault Refusal :=
  runOn s (runChange engPulseInSet h p noReply)

/-- UMB_STREAM_SET (R369). -/
def execUmbStreamSet (h : Hdr) (p : Bytes) (s : State) : Host.Outcome State Fault Refusal :=
  runOn s (runChange umbStreamSet h p noReply)

/-- UMB_ELEM_SET (R373). -/
def execUmbElemSet (h : Hdr) (p : Bytes) (s : State) : Host.Outcome State Fault Refusal :=
  runOn s (runChange umbElemSet h p noReply)

/-- UMB_TRIP_SET (R380). -/
def execUmbTripSet (h : Hdr) (p : Bytes) (s : State) : Host.Outcome State Fault Refusal :=
  runOn s (runChange umbTripSet h p noReply)

/-- UMB_PUB_SET (R382). -/
def execUmbPubSet (h : Hdr) (p : Bytes) (s : State) : Host.Outcome State Fault Refusal :=
  runOn s (runChange umbPubSet h p noReply)

/-- UMB_CONFIG_SET (R378). -/
def execUmbConfigSet (h : Hdr) (p : Bytes) (s : State) : Host.Outcome State Fault Refusal :=
  runOn s (runChange umbConfigSet h p noReply)

/-- EVR_CODE_SET (R405). -/
def execEvrCodeSet (h : Hdr) (p : Bytes) (s : State) : Host.Outcome State Fault Refusal :=
  runOn s (runChange evrCodeSet h p noReply)

/-- EVR_CLEAR (R407): its answer names F where it waits for the tick. -/
def execEvrClear (h : Hdr) (p : Bytes) (s : State) : Host.Outcome State Fault Refusal :=
  runOn s fun m => runChange (evrClear m) h p (fun _ => le 8 0) m

/-- SYS_HOLDOFF_SET (R134). -/
def execSysHoldoffSet (h : Hdr) (p : Bytes) (s : State) : Host.Outcome State Fault Refusal :=
  runOn s (runChange sysHoldoffSet h p (holdReply p))

/-- TIME_STEP (R49): the step is made at the boundary of its tick. -/
def execTimeStep (h : Hdr) (p : Bytes) (s : State) : Host.Outcome State Fault Refusal :=
  runOn s fun m => runChange (timeStep m) h p (stepReply p) m

/-- TIME_PTP_SET (R36). -/
def execTimePtpSet (h : Hdr) (p : Bytes) (s : State) : Host.Outcome State Fault Refusal :=
  runOn s (runChange timePtpSet h p noReply)

/-- SEC_KEY_LOAD (R496). -/
def execSecKeyLoad (h : Hdr) (p : Bytes) (s : State) : Host.Outcome State Fault Refusal :=
  runOn s (runChange secKeyLoad h p (keyReply p))

/-- SLC_ADMIT: everything is reserved at acceptance, and the slice is loaded at its tick (R159, R161). -/
def execSlcAdmit (h : Hdr) (p : Bytes) (s : State) : Host.Outcome State Fault Refusal :=
  runOn s fun m => runChangeThen (slcAdmit m) h p (admitReply p) (reserveSlice p) m

/-- SLC_RESOURCE_SET kind 1: the copy begins at acceptance (R171); one that comes too early is told the earliest tick. -/
def execSlcResourceSetHue (h : Hdr) (p : Bytes) (s : State) : Host.Outcome State Fault Refusal :=
  runOn s fun m =>
    let c := slcHue m
    if boxOpen m h.box && judge (atEffect c) m h p == 0x0209 then
      respond 0x0610 h (roleOf m h) h.apply 0x0209 (le 8 (migrationTick m (resTag p))) m
    else runChangeThen c h p (fun _ => le 8 (effTick m h)) (beginMigration p) m

/-- DSP_LAT_APPLY: the staged lattice is locked until its tick (R204). -/
def execDspLatApply (h : Hdr) (p : Bytes) (s : State) : Host.Outcome State Fault Refusal :=
  runOn s fun m => runChangeThen (dspLatApply m) h p (fun _ => latReply h p m) (fun _ => lockLattice) m

/-- A command of the pair that takes effect by R25: forwarded first (R415). -/
def runPair (c : Cmd) (refuse : Nat) (h : Hdr) (p : Bytes) (reply : Mach → Bytes) (m : Mach) : Mach :=
  runForward (atEffect c) refuse h p reply
    (fun m => enterChange c.code h (roleOf m h) p (reply m) (effTick m h) m) m

/-- The response of LGE_FORCE at the command's effective tick. -/
def forceAnswer (h : Hdr) (p : Bytes) (m : Mach) : Bytes := forceReply m h p fun m h => project m (effTick m h)

/-- LGE_FORCE, action 0 (R334). -/
def execLgeForceSet (h : Hdr) (p : Bytes) (s : State) : Host.Outcome State Fault Refusal :=
  runOn s (runPair lgeForce 0x020D h p (forceAnswer h p))

/-- LGE_FORCE, action 1 (R335). -/
def execLgeForceRemove (h : Hdr) (p : Bytes) (s : State) : Host.Outcome State Fault Refusal :=
  runOn s (runPair lgeForce 0x020D h p (forceAnswer h p))

/-- ENG_PRESET of a register (R351). -/
def execEngPresetRegister (h : Hdr) (p : Bytes) (s : State) : Host.Outcome State Fault Refusal :=
  runOn s (runPair (engPreset 0) 0x0207 h p noReply)

/-- ENG_PRESET of a pulse input (R359). -/
def execEngPresetPulseInput (h : Hdr) (p : Bytes) (s : State) : Host.Outcome State Fault Refusal :=
  runOn s (runPair (engPreset 1) 0x0207 h p noReply)

/-- TWN_PAIR_SET (R411). -/
def execTwnPairSet (h : Hdr) (p : Bytes) (s : State) : Host.Outcome State Fault Refusal :=
  runOn s (runPair twnPairSet 0x0207 h p noReply)

/-- TWN_QUOTA_SET (R424). -/
def execTwnQuotaSet (h : Hdr) (p : Bytes) (s : State) : Host.Outcome State Fault Refusal :=
  runOn s (runPair twnQuotaSet 0x0207 h p noReply)

/-- TIME_RATE: judged with every scheduled change made, forwarded, and then waiting for B (R48, R51, R53). -/
def execTimeRate (h : Hdr) (p : Bytes) (s : State) : Host.Outcome State Fault Refusal :=
  runOn s fun m =>
    let last := (m.mbx.scheduled.map (·.apply)).foldl max m.time.tick
    let c := { timeRate m with proj := fun m _ => onTime (fun t => { t with tick := m.time.tick }) (project m last) }
    runForward c 0x0205 h p (rateReply p) (makeRate h p) m

end Sys2Proof.Machine
end

