-- ==== Sys2Proof/Machine/Cfg.lean ====
section
/-! DEFINITION. The commit of a configuration and the boot selection (chapter 19). -/
namespace Sys2Proof.Machine
open Sys2Proof

-- The changes of a body judged as commands (R490 step 1)

/-- The command a change of configuration is judged as, by its code and payload. -/
def cmdOf (now : Mach) (code : Nat) (p : Bytes) : Option Cmd :=
  match code with
  | 0x0103 => some sysHoldoffSet
  | 0x0210 => some (timeRate now)
  | 0x0220 => some timePtpSet
  | 0x0301 => some sviSubSet
  | 0x0302 => some sviChanSet
  | 0x0401 => some rscGroupSet
  | 0x0402 => some rscBankLoad
  | 0x0410 => some rscSwap
  | 0x0501 => some estGroupSet
  | 0x0601 => some slcHueSet
  | 0x0602 => some (slcAdmit now)
  | 0x0603 => some slcStart
  | 0x0604 => some slcStop
  | 0x0606 => some slcRemove
  | 0x0610 => match rd 1 p 1 with
    | 1 => some (slcHue now)
    | 2 => some slcRegion
    | 3 => some slcRingAssign
    | 4 => some slcRingRelease
    | 5 => some slcShare
    | 6 => some slcReady
    | _ => none
  | 0x0611 => some slcSubSet
  | 0x0612 => some (slcRights (rd 1 p 1))
  | 0x0701 => some dspLatLoad
  | 0x0702 => some (dspLatApply machReset)
  | 0x0704 => some dspHandlerSet
  | 0x0801 => some sigRangeSet
  | 0x0802 => some sigPubSet
  | 0x0803 => some sigSubSet
  | 0x0804 => some sigCurveSet
  | 0x0901 => some swcBufSet
  | 0x0902 => some swcQueueSet
  | 0x0903 => some swcPortSet
  | 0x0A01 => some macPortSet
  | 0x0A02 => some macRuleSet
  | 0x0B01 => some hdmaRingSet
  | 0x0B02 => some hdmaRingsetSet
  | 0x0C01 => some lgeProgLoad
  | 0x0C02 => some lgeProgExchange
  | 0x0C03 => some lgeProgSet
  | 0x0D01 => some engPointSet
  | 0x0D02 => some engPulseOutSet
  | 0x0D03 => some engPulseInSet
  | 0x0E01 => some umbStreamSet
  | 0x0E02 => some umbElemSet
  | 0x0E03 => some umbTripSet
  | 0x0E04 => some umbPubSet
  | 0x0E05 => some umbConfigSet
  | 0x0F02 => some evrCodeSet
  | 0x1001 => some twnPairSet
  | 0x1002 => some twnQuotaSet
  | _ => none

/-- The payload a change is judged with: a configuration holds a rate without a boundary second, and the commit takes the first
that R48 admits. -/
def changePayload (m : Mach) (code : Nat) (p : Bytes) : Bytes :=
  if code = 0x0210 then fields [(4, rd 4 p 0), (4, 0), (8, m.time.clock.sec.toNat + 2)] else p

/-- The status one change of a configuration would be refused with, 0 when it passes (R490 step 1). -/
def changeStatus (now m : Mach) (h : Hdr) (code : Nat) (p : Bytes) : Nat :=
  if code = 0x0210 ∧ rd 4 p 0 = m.time.grid.rate then 0
  else match cmdOf now code p with
    | none => 0x0101
    | some c =>
      let p := changePayload m code p
      let h := { h with apply := 0 }
      if !c.len p then 0x0101
      else firstFail [(c.check m h p != 0, c.check m h p), (c.depend m m h p != 0, c.depend m m h p), (c.res m h p != 0, c.res m h p),
        (mirrorRaised m (madeNow code h p m.time.tick m), 0x0104)]

/-- Every change of a configuration judged in turn on the module as the ones before it leave it: the first status that is not
zero, and the module after all. -/
def changesStatus (now : Mach) (h : Hdr) (l : List (Nat × Bytes)) (m : Mach) : Nat × Mach :=
  l.foldl (fun a c => if a.1 ≠ 0 then a else (changeStatus now a.2 h c.1 c.2, configChange 0 c.1 c.2 a.2)) (0, m)

/-- The signature, layout or module of a staged copy is wrong (R485). -/
def stagedStatus (m : Mach) (c : CopyArea) : Nat :=
  match copyFault m false c with
  | none => 0
  | some 3 => 0x0201
  | some _ => 0x0200

/-- A staged image as a copy: its header area, and the body behind it (R484). -/
def stagedCopy (e : Bytes) : CopyArea := { header := e.take headLen, body := e.drop headLen, sealed := none }

/-- A present slice or program uses an endorsement that a new configuration lacks. -/
def endorsementGone (m : Mach) (new : List (Nat × Bytes)) : Bool :=
  m.sec.images.any fun i => imageInUse m i.kind i.id && !new.contains (i.tenant, shake256 i.pubkey)

/-- A hue that more than one tenant shares without a waiver that a current owner key has signed (R167). -/
def waiverGone (m : Mach) : Bool :=
  m.cpu.hues.any fun e => manyTenants e.2.tenants.toNat && !(e.2.waiver.any fun k => (slotDigest m k).isSome)

/-- The number of the copy in force, 0 without one. -/
def seqInForce (m : Mach) : Nat := (m.sec.force.map (·.seq)).getD 0

/-- The copy a commit writes: the one not in force. -/
def olderCopy (m : Mach) : Nat := match m.sec.force with
  | none => 0
  | some f => 1 - f.which

/-- The tick a commit takes effect at: its apply tick, or the first at least two ticks after the seal, which the CP estimates
from LENGTH at 200 MB/s (R490 step 2). -/
def commitTick (m : Mach) (h : Hdr) (e : Bytes) : Tick :=
  if h.apply ≠ 0 then h.apply else firstTick m.time.grid (now m + 5 * rd 8 e 16) + 2

def cfgCommit : Cmd where
  code := 0x1202
  len := layout 8 [(0, 8)]
  right := rConfig
  check := fun m h _ =>
    match stagedFor m h [0] with
    | none => 0x0206
    | some e =>
      let c := stagedCopy e
      let a := firstFail [
        (stagedStatus m c != 0, stagedStatus m c),
        (rd 8 e 8 != seqInForce m + 1, 0x0201),
        (m.mbx.scheduled != [] || m.sec.commit.isSome || m.time.rateChange.isSome || m.dom.restart.isSome, 0x0203),
        (endorsementGone m (Config.bodyEndorsements c.body), 0x0204)]
      if a ≠ 0 then a
      else
        let r := changesStatus m h (Config.bodyChanges (runningConfig m) c.body) (project m (commitTick m h e))
        if r.1 ≠ 0 then r.1 else if waiverGone r.2 then 0x0105 else 0

/-- CFG_COMMIT: checked whole, accepted, answered with e, and the SEAL of the older copy cleared (R490 steps 1 to 3). -/
def execCfgCommit (h : Hdr) (p : Bytes) (s : State) : Host.Outcome State Fault Refusal :=
  runOn s (judged cfgCommit h p fun h m =>
    match stagedFor m h [0] with
    | none => m
    | some e =>
      let role := roleOf m h
      let tick := commitTick m h e
      let c := stagedCopy e
      let m := raiseAccepted 0x1202 h role tick 1 m
      let m := onSec (fun x => { x with
        commit := some { tick := tick, header := c.header, body := c.body, sealed := false, hdr := h, role := role }
        copies := tmod x.copies (olderCopy m) copyNone fun o => { o with sealed := none } }) m
      respond 0x1202 h role tick 1 (le 8 tick) m)

/-- A commit that is pending is given up (R490): the copy in force and its journal stand. -/
def abandonCommit (m : Mach) : Mach :=
  match m.sec.commit with
  | none => m
  | some c => raise 0x1204 0 (fields [(8, rd 8 c.header 8)]) (onSec (fun x => { x with commit := none }) m)

/-- CFG_COPY_WRITTEN: header and body are written and read back, and the SEAL follows; or one of these has failed, and the copy
stays invalid (R490 steps 3 to 5). -/
def execCfgCopyWritten (ok : Bool) (s : State) : Host.Outcome State Fault Refusal :=
  runOn s fun m =>
    match m.sec.commit with
    | none => m
    | some c =>
      if !controlRuns m || c.sealed then m
      else
        let mark := if ok then some (rd 8 c.header 8, (slice c.header 64 64).take 48) else none
        let m' := onSec (fun x => { x with
          copies := tset x.copies (olderCopy m) { header := c.header, body := if ok then c.body else [], sealed := mark }
          commit := some { c with sealed := ok } }) m
        if ok then m' else abandonCommit m'

/-- CFG_COMMIT_DEADLINE: SEAL is not written by T(e − 2), and the commit is abandoned then (R490). -/
def execCfgCommitDeadline (s : State) : Host.Outcome State Fault Refusal :=
  runOn s fun m =>
    match m.sec.commit with
    | none => m
    | some c => if !controlRuns m || c.sealed || !clockRuns m then m else abandonCommit (advanceTo (tickAt m (c.tick - 2)) m)

/-- The copy in force becomes the one given, with an empty journal of its SEQ. -/
def forceCopy (which : Nat) (header body : Bytes) (m : Mach) : Mach :=
  let f : InForce := { which := which, seq := rd 8 header 8, digest := slice header 64 64, slot := rd 1 header 6 }
  let m := onUmb (fun u => { u with cfgSeq := f.seq }) m
  onSec (fun x => { x with
    force := some f
    journalBase := f.seq
    journal := []
    endorsed := Config.bodyEndorsements body
    unconfigured := false }) m

/-- CFG_COMMIT_APPLY: at T(e) every change is made, the journal is emptied, and the unconfigured-safe state ends (R489, R490
step 6). -/
def execCfgCommitApply (s : State) : Host.Outcome State Fault Refusal :=
  runOn s fun m =>
    match m.sec.commit with
    | none => m
    | some c =>
      if !controlRuns m || !c.sealed || m.time.tick < c.tick then m
      else
        let changes := Config.bodyChanges (runningConfig m) c.body
        let m := forceCopy (olderCopy m) c.header c.body (onSec (fun x => { x with commit := none }) m)
        let m := configChanges (some (c.hdr, c.role)) changes m
        let m := raise 0x1205 0 (fields [(8, rd 8 c.header 8)] ++ (slice c.header 64 64).take 24) m
        changeEvent 0x0102 0x1202 c.hdr c.role c.tick m

-- Boot selection (R488, R489)

/-- A change of umber settings that leaves them as they stand: the CP rewrites only those that differ (R383). -/
def umberSame (m : Mach) (code : Nat) (p : Bytes) : Bool :=
  let i := rd 1 p 0
  match code with
  | 0x0E01 => (tget m.umb.streams i).any fun x => x.cfg == ustreamAt p 8
  | 0x0E02 => (tget m.umb.elems i).any fun x => x.cfg == uelemAt p 8
  | 0x0E03 => (tget m.umb.trips i).any fun x => x.enabled == bit (rd 1 p 1) 0 && x.minMs == rd 2 p 2 && x.mask == .ofNat 24 (rd 3 p 4)
  | 0x0E04 => (tget m.umb.pubs i).any fun x => x.entry == pubEntryAt p 8
  | 0x0E05 => m.umb.f0 == rd 1 p 0 && m.umb.uptBase == optField 0xFFFFFFFF (rd 4 p 4) &&
      m.umb.bfiPts == (rdList 4 8 p 8).map (optField 0xFFFFFFFF)
  | 0x1001 => m.twn.cfg == pairReq p
  | _ => false

/-- A metering point and a pulse output as they stand without their settings: registers, stores and counters stay (R358, R361). -/
def meterBare (x : Meter) : Meter :=
  { x with cfg := { meterCfgInit with quantum := x.cfg.quantum }, inCreep := false, questionable := false, unmeasured := false,
           wrongSeq := false, seqTicks := 0, missNeutral := false, neutTicks := 0, past := [] }
def outBare (x : PulseOut) : PulseOut := { x with cfg := outInit.cfg, pending := [], ctrs := bumpBy x.ctrs 1 x.pending.length }

/-- Umber settings that a configuration does not hold are gone, and a pair that it does not hold is dissolved. -/
def dropUnset (l : List (Nat × Bytes)) (m : Mach) : Mach :=
  let has (code i : Nat) : Bool := l.any fun c => c.1 == code && rd 1 c.2 0 == i
  let m := onUmb (fun u => { u with
    streams := u.streams.filter fun e => has 0x0E01 e.1
    elems := u.elems.filter fun e => has 0x0E02 e.1
    trips := u.trips.filter fun e => has 0x0E03 e.1
    pubs := u.pubs.filter fun e => has 0x0E04 e.1 }) m
  let m := if l.any fun c => c.1 == 0x0E05 then m
    else onUmb (fun u => { u with f0 := umbReset.f0, uptBase := umbReset.uptBase, bfiPts := umbReset.bfiPts }) m
  let m := onEng (fun e => { e with
    outs := tmap e.outs fun o x => if has 0x0D02 o then x else outBare x
    ins := tmap e.ins fun i x => if has 0x0D03 i then x else { x with enabled := false } }) m
  if m.twn.cfg.on && !l.any (fun c => c.1 == 0x1001) then applyPairSet (List.replicate 96 0) m else m

/-- The whole of a configuration taken by a module that holds none (R488). -/
def bootWhole (l : List (Nat × Nat × Bytes)) (m : Mach) : Mach :=
  let m := dropUnset (l.map (·.2)) m
  forEach l (fun c m => if umberSame m c.2.1 c.2.2 then m else configChange c.1 c.2.1 c.2.2 m) m

/-- The copy boot takes: the valid one with the higher SEQ; A where both have the same. -/
def bootChoice (m : Mach) : Option Nat :=
  let ok (i : Nat) : Bool := (copyFault m true (getCopy m i)).isNone
  let seq (i : Nat) : Nat := rd 8 (getCopy m i).header 8
  if ok 0 && ok 1 then some (if seq 0 < seq 1 then 1 else 0)
  else if ok 0 then some 0
  else if ok 1 then some 1
  else none

/-- Both copies judged: an invalid one is reported with its cause, and so are two of the same SEQ. -/
def judgeCopies (m : Mach) : Mach :=
  let m := forEach [0, 1] (fun i m => match copyFault m true (getCopy m i) with
    | none => m
    | some cause => raise 0x1201 0 (fields [(1, i), (1, cause), (6, 0)]) m) m
  let both := (copyFault m true (getCopy m 0)).isNone && (copyFault m true (getCopy m 1)).isNone
  if both && rd 8 (getCopy m 0).header 8 == rd 8 (getCopy m 1).header 8 then
    raise 0x1202 0 (le 8 (rd 8 (getCopy m 0).header 8)) m
  else m

/-- Entries that are not set. -/
def subBlank : SubEntry :=
  { flags := 0, nchan := 0, appid := 0, dmac := 0, vlan := 0, rate := 0, port := 0, prpPort := 0, nasdu := 0, tdelay := 0, polRate := 0
    polBurst := 0, key := 0, chan0 := 0, confRev := 0, svid := [] }
def pubBlank : PubEntry :=
  { flags := 0, appid := 0, dmac := 0, vlan := 0, ports := 0, curve := 0, ownerKind := 0, owner := 0, key := 0, confRev := 0, ref := []
    datSet := [], goId := [], members := [] }
def gsubBlank : GSubEntry :=
  { flags := 0, appid := 0, dmac := 0, vlan := 0, ports := 0, key := 0, confRev := 0, ref := [], members := [] }

/-- Every configuration object outside the umber domain's own settings as after cold start, and what lives by it with it; what
retention SRAM and MRAM hold stays, and so do the counters and the class last seen (R76, R80). -/
def clearConfig (m : Mach) : Mach :=
  let rules (p : Nat) (x : Port) : Tab Rule := tmap x.rules fun k r => { tgetD (rulesReset p) k ruleOff with hits := r.hits }
  let ports := tmap m.net.ports fun p x =>
    { portReset p with link := x.link, rules := rules p x, ctrs := x.ctrs, swCtrs := x.swCtrs }
  let net : Network :=
    { netReset with
      ports := ports
      queues := tmap m.net.queues fun k q => { queueInit k with ctrs := q.ctrs }
      rings := tmap m.net.rings fun _ r => { ringInit with ctrs := r.ctrs } }
  let svi : Ingest :=
    { machReset.svi with
      ports := m.svi.ports
      subs := tmap m.svi.subs fun _ s => { entry := subBlank, run := { runInit with cls := s.run.cls, ctrs := s.run.ctrs }, spans := [] } }
  let flt := { machReset.flt with groups := tmap m.flt.groups fun _ g => { groupInit with ctrs := g.ctrs, estCtrs := g.estCtrs } }
  let sig : Signals :=
    { sigReset with
      nums := m.sig.nums
      savedNums := m.sig.savedNums
      pubs := tmap m.sig.pubs fun _ b => { pubInit pubBlank with ctrs := b.ctrs }
      gsubs := tmap m.sig.gsubs fun _ b => { gsubInit gsubBlank with ctrs := b.ctrs } }
  let lge : Logic := { progs := [], ending := [], forces := [], due := [], used := true, retained := m.lge.retained, savedRet := m.lge.savedRet }
  let eng : Energy := { m.eng with meters := tmap m.eng.meters fun _ x => meterBare x, incs := [], due := [] }
  { m with svi := svi, flt := flt, net := net, cpu := cpuReset, sig := sig, lge := lge, eng := eng }

/-- The unconfigured-safe state (R489): nothing is configured, the umber domain has the factory settings, and P9 alone runs. -/
def enterSafe (m : Mach) : Mach :=
  let m := dropUnset [] (clearConfig m)
  let m := onSec (fun x => { x with force := none, journal := [], journalBase := 0, endorsed := [], bootDue := [], unconfigured := true }) m
  let m := onUmb (fun u => { u with cfgSeq := 0, loaded := true }) m
  onPort 9 (fun x => { x with cfg := { x.cfg with enabled := true, speed := 4 } }) m

/-- What is lost of a journal that is not replayed is reported (R488 step 3). -/
def dropJournal (m : Mach) : Mach :=
  let n := m.sec.journal.length
  if n = 0 then m else raise 0x1203 0 (le 8 n) (onSec (fun x => { x with journal := [] }) m)

/-- The CP takes a copy and its journal. A module that holds no configuration takes the whole of it at once; one whose fabric has
kept running takes what differs, at the first tick at which the compute domain runs again (R488); of the copy it had in force that is a
rate whose change was discarded (R30). -/
def bootTake (i : Nat) (m : Mach) : Mach :=
  let c := getCopy m i
  let seq := rd 8 c.header 8
  let running := runningConfig m
  let same := m.sec.force.any fun f => f.which == i && f.seq == seq
  let replay := m.sec.journalBase == seq
  let m := if replay then m else dropJournal m
  let journal := m.sec.journal
  let m := onSec (fun x => { x with journal := journal }) (forceCopy i c.header c.body m)
  let changes := (Config.bodyChanges running c.body).map fun c => (0, c.1, c.2)
  let all := changes ++ journal.map fun j => (j.tag, j.code, j.payload)
  if same then onSec (fun x => { x with bootDue := ((all.filter fun c => c.2.1 = 0x0210).getLast?.map (·.2)).toList }) m
  else
    if running.isNone then bootWhole all m
    else onSec (fun x => { x with bootDue := all.map (·.2) }) m

/-- The CP selects the configuration (R488). -/
def bootSelect (m : Mach) : Mach :=
  let m := judgeCopies m
  match bootChoice m with
  | some i => bootTake i m
  | none => enterSafe (dropJournal m)

/-- The differences a boot selection has left take effect (R488). -/
def takeBootDue (m : Mach) : Mach :=
  configChanges none m.sec.bootDue (onSec (fun x => { x with bootDue := [] }) m)

end Sys2Proof.Machine
end

