-- ==== Sys2Proof/Machine/Dom.lean ====
section
/-! DEFINITION. The domains: how they go down, start and start again (chapters 01 and 20). -/
namespace Sys2Proof.Machine
open Sys2Proof

/-- The state of a domain by its number: 0 umber, 1 fabric, 2 control, 3 compute. -/
def domState (d : Nat) (m : Mach) : DomState :=
  if d = 0 then m.dom.umber else if d = 1 then m.dom.fabric else if d = 2 then m.dom.control else m.dom.compute

def putDom (d : Nat) (st : DomState) : Mach → Mach := onDom fun x =>
  if d = 0 then { x with umber := st } else if d = 1 then { x with fabric := st }
  else if d = 2 then { x with control := st } else { x with compute := st }

/-- A domain changes its state, and the umber domain records it with the restart kind that caused it, 0 for none (R16; its code is a free
value). -/
def setDom (d : Nat) (st : DomState) (m : Mach) : Mach :=
  if domState d m == st then m
  else raise (openCode Config.domainEventCode) 0 (fields [(1, d), (1, domCode st), (1, m.dom.why), (5, 0)]) (putDom d st m)

/-- What changes state from now on does so without a restart kind (R16). -/
def noKind : Mach → Mach := onDom fun x => { x with why := 0 }

-- Sessions (R459, R463)

/-- Event 0x0107: a message abandoned or a response discarded, with its SEQ (R463). -/
def abandonEvent (box : Nat) (seq : BitVec 32) (m : Mach) : Mach :=
  let num := ((tget m.mbx.sess box).map (·.num)).getD 0
  raise 0x0107 (box - 64) (fields [(1, box), (1, num), (2, 0), (4, seq.toNat)]) m

/-- The message in assembly is abandoned. -/
def dropAsm (box : Nat) (m : Mach) : Mach :=
  match (tget m.mbx.sess box).bind (·.asm) with
  | none => m
  | some a => abandonEvent box a.hdr.seq (onMbx (fun x => { x with sess := tmod x.sess box (sessionInit 0 0 0 0) fun s => { s with asm := none } }) m)

/-- The rest of a response is discarded. -/
def dropMore (box : Nat) (m : Mach) : Mach :=
  match tget m.mbx.sess box with
  | none => m
  | some s =>
    match s.more, s.answered with
    | some _, some a =>
      abandonEvent box a.seq (onMbx (fun x => { x with sess := tset x.sess box { s with more := none } }) m)
    | _, _ => m

/-- A session closes for a cause (R480): its message is abandoned, its staging area emptied (R490), its rights gone. -/
def closeSession (box cause : Nat) (m : Mach) : Mach :=
  match tget m.mbx.sess box with
  | none => m
  | some s =>
    let m := dropMore box (dropAsm box m)
    let m := onSec (fun x => { x with staging := x.staging.filter fun g => g.owner != box }) m
    let m := raise 0x0105 0 (fields [(1, box), (1, s.num), (1, cause), (5, 0)]) m
    onMbx (fun x => { x with sess := terase x.sess box, places := x.places.filter fun e => e.1 != box }) m

/-- A slice mailbox closes with what it holds. -/
def shutBox (tag : Nat) (m : Mach) : Mach := closeBox tag (dropMore (64 + tag) (dropAsm (64 + tag) m))

-- A domain goes down

/-- A slice while the compute domain is down: it waits for its memory to be refilled (R501), resetting if it had become loaded (log entry
81). -/
def sliceDown (s : Slice) : Slice :=
  { s with
    state := if sliceNum s = 0 then .loaded else .resetting
    arriving := some 0
    filled := false
    resumed := true
    toRun := s.state == .running || s.reset.any (·.restart) || s.toRun
    reset := none
    resetAt := none
    migration := none
    ran := []
    slwTick := 0
    framePtr := 0
    dspCtrs := [] }

/-- A published block and a subscribed block after the GOOSE engine's reset: numbering goes on, the next message starts a new state, and
those that would have been due meanwhile are counted (R235, R506). -/
def pubDown (b : Pub) : Pub := { b with force := true }
def gsubDown (b : GSub) : GSub := { gsubInit b.entry with ctrs := b.ctrs }

/-- The compute domain leaves running (R18, R506): resets in progress end, changes of its objects are discarded, and memory,
lists, points, engines and rings are as after its reset. Banks, which the fabric holds, are loaded at the assemblies that they wait for
(R101). -/
def computeDown (m : Mach) : Mach :=
  let m := forEach (m.cpu.slices.map (·.1)) completeReset (settleCodes (· != 0x0402) m)
  let m := discardWhere (fun c => computeObject c.code) m
  let m := forEach (m.cpu.slices.map (·.1)) (fun t m => shutBox t (endMigration t 2 m)) m
  let m := forEach (m.net.rings.map (·.1)) (fun r m => emptyQueue (queueKey 14 r) 7 (onRing r ringEmpty m)) m
  let m := onNet (fun n => { n with
    store := tmap n.store fun _ f => { f with tx := none }
    inner := n.inner.filter fun f => f.port != 14
    stalled := []
    turns := [] }) m
  let m := returnWhere (fun _ => true) (tickAt m m.time.tick) m
  let m := forEach m.cpu.slices (fun e m =>
    when (sliceNum e.2 != sliceNum (sliceDown e.2)) (stateEvent e.1 (sliceNum e.2) (sliceNum (sliceDown e.2))) m) m
  let m := onCpu (fun c => { c with
    slices := tmap c.slices fun _ s => sliceDown s
    fills := [], ready := [], delay := [], held := [], pairs := [], staged := c.lattice, loadedPages := [], locked := false
    cores := cpuReset.cores }) m
  let m := onSig (fun g => { g with
    windows := [], spa := [], inbox := [], pubs := tmap g.pubs (fun _ b => pubDown b), gsubs := tmap g.gsubs (fun _ b => gsubDown b) }) m
  let m := onEvr (fun e => { e with image := [], wins := [] }) (logicReset m)
  let m := onUmb (fun u => { u with wordOk := false }) (onTime (fun t => { t with latch := [] }) m)
  let m := onTwn (fun t => { t with imageValid := false, dirty := [], lines := [], captures := [], imgPts := [], imgRet := [] }) m
  let m := onDom (fun x => { x with ready := false, deliverFrom := none }) m
  onMem (fun mem => mem.filter fun c => boxKey 0 0 ≤ c.1 && c.1 < imageKey 0 0) m

/-- Restarts scheduled and not carried out are discarded with their event (R503). -/
def dropRestart (m : Mach) : Mach :=
  match m.dom.restart with
  | none => m
  | some r => changeEvent 0x0103 0x0104 r.hdr r.role r.tick (onDom (fun x => { x with restart := none }) m)

/-- The pending rate change that a command asked for is discarded (R30). -/
def dropRate (m : Mach) : Mach :=
  match m.time.rateChange with
  | none => m
  | some r =>
    let m := onTime (fun t => { t with rateChange := none }) m
    match r.asked with
    | none => m
    | some a => changeEvent 0x0103 0x0210 a.1 a.2 0 m

/-- The yield that is announced ends, and with it the TWN_SWITCH that asked for it, which is discarded (R30). -/
def dropSwitch (m : Mach) : Mach :=
  let f := m.twn.yield.getD 0
  let done := onTwn endYield m
  match m.twn.switch with
  | none => done
  | some a => changeEvent 0x0103 0x1003 a.1 a.2 f done

/-- A commit at a restart: as a scheduled change it is discarded with its event (R30), and abandoned unless its SEAL is written and the
next boot selects the new copy (R508). -/
def dropCommit (m : Mach) : Mach :=
  match m.sec.commit with
  | none => m
  | some c =>
    let m := changeEvent 0x0103 0x1202 c.hdr c.role c.tick m
    if c.sealed then onSec (fun x => { x with commit := none }) m else abandonCommit m

/-- The control domain leaves running (R20): holdover, every session closed, every scheduled change discarded, and what the CP
was doing is gone. -/
def controlDown (m : Mach) : Mach :=
  let m := onUmb (fun u => { u with wordOk := false }) (timeControlDown (dropSwitch (dropRestart m)))
  let m := forEach (m.mbx.sess.map (·.1)) (fun b m => if b < 64 then closeSession b 2 m else shutBox (b - 64) m) m
  let m := onMbx (fun x => { x with scheduled := x.scheduled.map fun c => { c with deferred := false }, forward := [] }) m
  let m := dropCommit (dropRate (discardWhere (fun _ => true) m))
  let m := onSec (fun x => { x with staging := none, attest := none, bootDue := [] }) m
  let m := onCpu (fun c => { c with slices := tmap c.slices fun _ s => { s with asked := none } }) m
  onChn (fun c => { c with run := none, relays := [], rxFrags := [], asked := [] }) m

/-- The switch and its ports after the fabric's reset; PU, which the umber domain has, keeps its settings and its link (R367). -/
def netDown (m : Mach) : Network :=
  match getPort m 12 with
  | none => netReset
  | some x => { netReset with ports := tset netReset.ports 12 { x with
      pauses := [], sending := none, cutOff := none, guard := none, fcOut := [], fcAsked := [], waiting := [], incoming := none, inPre := false, offAt := none,
      recent := [] } }

/-- The fabric domain leaves running: clock and grid, ingest, filters, switch and ports are as after its reset; the energy points
count unmeasured time from now on (R347, R363). -/
def fabricDown (m : Mach) : Mach :=
  let t := eventTime m
  let m := onTime (fun u => { timeReset with ref := u.ref, rtc := u.rtc, rtcSaved := u.rtcSaved }) m
  let m := onEng (fun e => { e with
    meters := tmap e.meters fun _ x => meterBare x
    incs := [], due := []
    outage := if e.outage.isSome then e.outage else some t }) m
  let m := onTwn (fun w => { twnReset with
    cfg := w.cfg, role := w.role, epoch := w.epoch, savedRole := w.savedRole, savedEpoch := w.savedEpoch }) m
  let m := onChn (fun c => { chnReset with addr := c.addr, enumIn := c.enumIn, nextRseq := c.nextRseq, outcomes := c.outcomes }) m
  { m with svi := machReset.svi, flt := machReset.flt, net := netDown m }

/-- The three lower domains leave running and hold nothing more: the next start takes the whole configuration (R488). -/
def lowerReset (m : Mach) : Mach :=
  let m := fabricDown (controlDown (computeDown m))
  let c := clearConfig m
  let m := { c with net := netDown m, svi := machReset.svi, flt := machReset.flt, sig := { c.sig with pubs := [], gsubs := [] }, mem := [] }
  onEvr (fun e => { e with ctrs := terase e.ctrs 5 }) (onSec (fun x => { x with force := none, endorsed := [] }) m)

/-- SLOT_ID and APEX_STRAP are sampled (R520). -/
def sampleStraps : Mach → Mach := onDom fun x => { x with slotId := x.slotIdPin, apex := x.apexPin }

/-- The umber domain's own reset: its settings stand in MRAM (R383), and energy, numbering, role and counters as last saved
(R361, R233, R412, R364). -/
def umberReset (m : Mach) : Mach :=
  let fresh (u : Umber) : Umber := { umbReset with
    streams := tmap u.streams fun _ x => ustreamOf x.cfg
    elems := tmap u.elems fun _ x => uelemOf x.cfg
    trips := tmap u.trips fun _ x => { x with active := false, ref := 0 }
    pubs := tmap u.pubs fun _ b => { b with last := none, running := false, force := true }
    f0 := u.f0, uptBase := u.uptBase, bfiPts := u.bfiPts, cfgSeq := u.cfgSeq, ctrs := u.savedCtrs, savedCtrs := u.savedCtrs, saveRecord := u.saveRecord }
  let m := onUmb fresh m
  let m := onEvr (fun e => { e with codes := [], buckets := [], suppr := [], ctrs := e.savedCtrs }) m
  let m := onSig (fun g => { g with nums := g.savedNums }) m
  let m := onLge (fun l => { l with retained := l.savedRet }) m
  let m := onPort 12 (fun _ => portReset 12) m
  let m := onTwn (fun t => { t with role := t.savedRole, epoch := t.savedEpoch }) m
  sampleStraps (onEng (fun e => { engReset with
    slots := e.slots, saveSeq := e.saveSeq, stamp := e.stamp, savedSec := e.savedSec, outage := e.outage }) m)

/-- The states of some domains set, from compute up; a domain without supply stays off. -/
def setDoms (l : List Nat) (st : DomState) (m : Mach) : Mach :=
  forEach l (fun d m => if domState d m == .off then m else setDom d st m) m

/-- What a start after a restart begins with: no miss, no fault. The changes of state are the restart kind's, unless a fault or the
temperature caused it (R16). -/
def freshStart (kind why : Nat) : Mach → Mach := onDom fun x =>
  { x with lastKind := kind, why := why, missed := [], retried := [], fault := false, sleep := none }

-- A domain starts (R500)

/-- A domain may leave reset: it is supplied and not held, every domain above it runs, and it has not missed its limit. -/
def mayStart (d : Nat) (m : Mach) : Bool :=
  domState d m == .reset && (List.range d).all (fun e => domState e m == .running) && !m.dom.resetHeld &&
    m.umb.fail.isNone && !m.umb.halted && (tget m.dom.missed d).isNone &&
    (if d = 0 then m.dom.main || m.dom.hold else m.dom.main && !m.dom.disconnected && !m.dom.shutdown)

/-- A domain starts; the control domain with pending firmware, and compute after it, are updating (R15, R495). -/
def startDom (d : Nat) (m : Mach) : Mach :=
  if d = 2 && m.sec.fwPend.isSome then setDom 2 .updating (onSec (fun x => { x with fwTrying := true }) m)
  else if d = 3 && m.sec.fwTrying then setDom 3 .updating m
  else setDom d .starting m

/-- The next domain in the order umber, fabric, control, compute that may start, starts. -/
def nextStart (m : Mach) : Mach :=
  match (List.range 4).find? fun d => mayStart d m with
  | some d => startDom d m
  | none => m

/-- A domain is starting. -/
def isStarting (d : Nat) (m : Mach) : Bool := domState d m == .starting || domState d m == .updating

/-- The umber domain runs: it has restored the energy slot and its settings; after a loss of its own supply the RTC resumes from
its saved value, which is recorded (R42, R500). -/
def umberUp (m : Mach) : Mach :=
  let m := onDom (fun x => { x with driveRef := m.time.ref }) (setDom 0 .running m)
  let m := if m.dom.lastKind = 0 then onTime (fun t => { t with rtc := t.rtcSaved }) m else m
  let m := if m.dom.lastKind = 0 then raise (openCode Config.rtcLostCode) 0 (le 8 m.time.rtc) m else m
  onUmb (fun u => { u with loaded := true }) (restoreEnergy m)

/-- The fabric runs: it loads the clock from the RTC; the grid begins at the next second boundary (R43). -/
def fabricUp (m : Mach) : Mach :=
  onTime (fun t => { t with
    clock := clockAt t.rtc
    loaded := true
    state := .freeRunning
    gridOn := false
    grid := { t.grid with s0 := t.rtc / nsPerSec + 1, first := 0 } }) (setDom 1 .running m)

/-- Pending firmware that has reached running becomes current (R495). -/
def takeFirmware (m : Mach) : Mach :=
  match m.sec.fwPend with
  | none => m
  | some f =>
    if !m.sec.fwTrying then m
    else
      let m := onSec (fun x => { x with
        fwCur := f, fwPend := none, raiseFloor := false, secver := if x.raiseFloor then max x.secver f.secver else x.secver }) m
      raise 0x1302 0 (fields [(1, 1), (7, 0), (8, f.version)]) m

/-- An enumeration begins at the apex (R442): ENUM_OUT is inactive until the offer is sent. -/
def beginEnumeration (force : Bool) (asked : Option (Hdr × BitVec 32)) : Mach → Mach := fun m =>
  onChn (fun c => { c with
    addr := some 0
    enum := c.enum + 1
    joined := false
    reached := 0
    enumOut := false
    run := some { force := force, ref := m.time.ref, offered := false, asked := asked } }) m

/-- The control domain runs: firmware, event records and configuration are settled, the twin listens, and the apex enumerates
after a cold start (R398, R414, R442, R488, R495). -/
def controlUp (m : Mach) : Mach :=
  let m := takeFirmware (setDom 2 .running m)
  let m := twinStart (bootSelect (verifyRecords m))
  if isApex m && m.chn.enum == 0 then beginEnumeration false none m else m

/-- The programs after a start of the compute domain: warm, or after a cold start by R332. -/
def startLogic (m : Mach) : Mach :=
  let n := if m.time.gridOn then m.time.tick + 1 else 0
  let warm := m.dom.lastKind == 2 || m.dom.lastKind == 3 || m.dom.lastKind == 4
  forEach ((m.lge.progs.filter fun e => e.2.enabled).map (·.1)) (fun i => if warm then restartProg true true i n else coldStartProg i n) m

/-- The dispatcher signals ready and the compute domain runs: frames from the next tick on, slices refilled in tag order, programs
restarted, the event image rebuilt, and a standby's image resynchronised (R19, R332, R397, R434, R501). -/
def computeUp (m : Mach) : Mach :=
  let m := onSec (fun x => { x with fwTrying := false }) (setDom 3 .running m)
  let m := onDom (fun x => { x with ready := true, deliverFrom := some (now m) }) m
  let tags := (m.cpu.slices.filter fun e => !e.2.filled).map (·.1)
  let m := onCpu (fun c => { c with fills := [], slices := tmap c.slices fun _ s => { s with resumed := s.resumed || s.arriving.isSome } }) m
  let m := forEach tags (fun t => queueFill t .refill) m
  let m := rebuildImage (startLogic m)
  let m := if m.twn.role == .standby then startResync (onTwn (fun t => { t with matched := 0, held := ~~~(0 : BitVec 64) }) m) else m
  guarantee m

/-- DOMAIN_START_COMPLETE: a starting domain enters running, and the next one leaves reset (R500). -/
def execDomainStartComplete (domain : Fin 4) (s : State) : Host.Outcome State Fault Refusal :=
  runOn s fun m =>
    if !isStarting domain.val m then m
    else
      let m := if domain = 0 then umberUp m else if domain = 1 then fabricUp m else if domain = 2 then controlUp m else computeUp m
      nextStart m

/-- DISPATCHER_READY: the dispatcher signals ready (R19), at which the compute domain runs (R500). -/
def execDispatcherReady (s : State) : Host.Outcome State Fault Refusal :=
  runOn s fun m => if isStarting 3 m then computeUp m else m

/-- START_PHASE_TIMEOUT: a starting domain misses its limit and is held in reset (R500), and staging is flushed
(R395). -/
def execStartPhaseTimeout (domain : Fin 4) (s : State) : Host.Outcome State Fault Refusal :=
  runOn s fun m =>
    if !isStarting domain.val m then m
    else
      let m := setDom domain.val .reset (noKind (when (recorderRuns m) flushStaging m))
      let m := onDom (fun x => { x with missed := tset x.missed domain.val m.time.ref, missedPhase := domain.val + 1 }) m
      raise 0x1401 0 (fields [(1, domain.val + 1), (7, 0)]) m

/-- START_RETRY: 1 s after its first miss the domain is started once more (R500). -/
def execStartRetry (domain : Fin 4) (s : State) : Host.Outcome State Fault Refusal :=
  runOn s fun m =>
    match tget m.dom.missed domain.val with
    | none => m
    | some ref =>
      if m.dom.retried.contains domain.val then m
      else
        let m := passCycles (ref + 500000000 - m.time.ref) m
        nextStart (onDom (fun x => { x with missed := terase x.missed domain.val, retried := domain.val :: x.retried }) m)

/-- FW_START_TIMEOUT: pending firmware has not brought the control domain to running within 60 s, and the boot ROM returns to the
current one (R495). -/
def execFwStartTimeout (s : State) : Host.Outcome State Fault Refusal :=
  runOn s fun m =>
    match m.sec.fwPend with
    | none => m
    | some f =>
      if m.dom.control != .updating || !m.sec.fwTrying then m
      else
        let m := onSec (fun x => { x with fwPend := none, fwTrying := false, raiseFloor := false }) m
        setDom 2 .starting (raise 0x1303 0 (le 8 f.version) m)

-- Restarts (R503, R505, R508, R509)

/-- The control and compute domains are reset, and start again (R505). -/
def moduleRestart (kind : Nat) (m : Mach) (why : Nat := kind) : Mach :=
  nextStart (setDoms [3, 2] .reset (controlDown (computeDown (freshStart kind why m))))

/-- The compute domain alone is reset, and starts again. -/
def computeRestart (kind : Nat) (m : Mach) (why : Nat := kind) : Mach :=
  nextStart (setDom 3 .reset (computeDown (freshStart kind why m)))

/-- The domains that a sleep has put down start again (R509): after kind 4 as at a module restart, after kind 5 as at a cold start
with the umber domain kept. -/
def wake (m : Mach) : Mach :=
  match m.dom.sleep with
  | none => m
  | some z =>
    let m := onDom (fun x => { x with coldRef := if z.kind = 5 then m.time.ref else x.coldRef }) (freshStart z.kind z.kind m)
    nextStart (setDoms (if z.kind = 5 then [3, 2, 1] else [3, 2]) .reset m)

/-- WAKE: the wake time of a sleep elapses. -/
def execWake (s : State) : Host.Outcome State Fault Refusal :=
  runOn s fun m => match m.dom.sleep with
    | none => m
    | some z => wake (passCycles (z.due - m.time.ref) m)

/-- A sleep begins: compute and control go down, and after kind 5 the fabric (R509). -/
def goSleep (kind seconds : Nat) (m : Mach) : Mach :=
  let m := onDom (fun x => { x with lastKind := kind, why := kind, sleep := some { kind := kind, due := m.time.ref + seconds * 500000000 } }) m
  if kind = 5 then setDoms [3, 2, 1] .sleeping (lowerReset m) else setDoms [3, 2] .sleeping (controlDown (computeDown m))

/-- DOMAIN_FAULT: cause 0, a domain enters reset other than by command, with those below it, and starts again; the fabric and the umber
domain have no restart but a cold start of every domain (R17; log entry 47). Cause 1 a CP lockstep mismatch, cause 2 a watchdog expiry.
Each flushes staging (R395), lights FAULT (R510), and makes an active member announce failure (R430). -/
def execDomainFault (domain : Fin 4) (cause : Nat) (s : State) : Host.Outcome State Fault Refusal :=
  runOn s fun m =>
    if domState domain.val m != .running || 2 < cause then m
    else
      let m := ownFailure (flushStaging m)
      let flag (m : Mach) : Mach := onDom (fun x => { x with fault := true }) m
      if cause ≠ 0 then flag m
      else if domain = 3 then flag (computeRestart 3 m 0)
      else if domain = 2 then flag (moduleRestart 2 m 0)
      else flag (nextStart (setDoms [3, 2, 1, 0] .reset (umberReset (lowerReset (freshStart 1 0 m)))))

end Sys2Proof.Machine
end

