-- ==== Sys2Proof/Machine/Pow.lean ====
section
/-! DEFINITION. Supplies, reset input, straps, temperature and the electrical interface (chapters 14, 20 and 21). -/
namespace Sys2Proof.Machine
open Sys2Proof

-- The rows of the power-fail table (R386)

/-- What set out for the umber domain before an instant has arrived by it (the order of the two is the model's: log entry 27). -/
def settle (m : Mach) : Mach := forEach m.eng.incs (fun _ => applyIncs) (arriveAll m)

/-- The rows of R386: the detection stamp, numbering, with HOLD the energy state, staging, retentive state and the RTC. They are
complete at the instant of detection (log entry 27). -/
def saveRows (hold stamp : Bool) (m : Mach) : Mach :=
  let t := eventTime m
  let m := if stamp then onEng (fun e => { e with stamp := some (t, hold, e.saveSeq.toNat % 65536) }) m else m
  let m := saveNums m
  let m := flushStaging (if hold then saveEnergy true m else m)
  saveRtc (saveRetained m)

/-- The rows of the table by number, 0 detection to 6 retentive state and RTC; row 4 is for HOLD only. -/
def rowsDone (hold : Bool) (t : Ns) : PfRows := (((List.range 7).filter fun k => hold || k != 4).map fun k => (k, t))

/-- The rows of a second detection: one already completed is repeated only where what it saves has changed since, and otherwise keeps
its instant (R385, R387). Event 0x0E04 is its own, and stages a record. -/
def rowsAgain (hold : Bool) (t : Ns) (old : PfRows) (m : Mach) : PfRows :=
  (rowsDone hold t).map fun r =>
    let changed := r.1 == 0 || r.1 == 5 || (r.1 == 3 && m.sig.nums != m.sig.savedNums) ||
      (r.1 == 6 && (m.lge.retained != m.lge.savedRet || m.time.rtc != m.time.rtcSaved))
    match old.find? fun o => o.1 == r.1 with
    | some o => if changed then r else o
    | none => r

/-- The power-fail save record is sealed: its contents, the rows and the RTC value, under their digest (R386; the layout is the model's,
log entry 79). -/
def sealRecord (t : Ns) (hold : Bool) (rows : PfRows) (m : Mach) : Mach :=
  let body := fields ([(8, t / nsPerSec), (4, t % nsPerSec), (2, b2n hold), (8, m.time.rtcSaved / nsPerSec), (4, m.time.rtcSaved % nsPerSec)] ++
    rows.flatMap fun r => (1, r.1) :: timeFields r.2)
  onUmb (fun u => { u with saveRecord := body ++ shake256 body }) m

/-- The lower domains are held in reset and send nothing more: what their end would have raised is not taken (R386). -/
def lowerStopped (m : Mach) : Mach := onEvr (fun e => { e with arrivals := [] }) (lowerReset m)

/-- Every trip and pulse output is driven inactive. -/
def outputsOff (m : Mach) : Mach :=
  let m := onUmb (fun u => { u with trips := tmap u.trips fun _ x => { x with active := false } }) m
  onEng (fun e => { e with outs := tmap e.outs fun _ x => { x with active := false, left := 0 } }) m

/-- Power-fail is detected (R385, R386). `lower`: the lower domains still have to be held in reset; `stamp`: the stamp is
written. -/
def powerFail (hold lower stamp : Bool) (m : Mach) : Mach :=
  let m := raise 0x0E04 0 (fields [(1, b2n hold), (7, 0)]) (settle m)
  let m := arriveAll (umbCount 7 1 m)
  let t := eventTime m
  let old := (m.umb.fail.map fun f => f.2.2).getD []
  let m := onDom (fun x => { x with pwrGood := false, restart := none, sleep := none, why := 0 }) (when lower lowerStopped m)
  let m := setDoms [3, 2, 1] .reset m
  let rows := rowsAgain hold t old m
  sealRecord t hold rows (onUmb (fun u => { u with words := [], fail := some (t, hold, rows) }) (saveRows hold stamp m))

/-- The umber domain has lost supply, and what retention SRAM held is gone; the next sequence number and the RTC resume from their saved
values (R42, R394). -/
def umberLost (m : Mach) : Mach :=
  let m := onEvr (fun e => { e with nextSeq := e.savedSeq, staging := [], arrivals := [], lost := none }) m
  onTime (fun t => { t with rtc := t.rtcSaved }) (setDom 0 .off (noKind (umberReset m)))

/-- The lower domains are without supply, and the umber domain too where nothing supplies it. -/
def supplyGone (m : Mach) : Mach :=
  let m := setDoms [3, 2, 1] .off (noKind m)
  if m.dom.hold || m.dom.umber == .off then m else umberLost m

/-- Main power is gone: power-fail is detected where the umber domain runs, whatever the others do (R508, R512). -/
def mainLost (m : Mach) : Mach :=
  let m := onDom (fun x => { x with main := false }) m
  if m.umb.fail.isSome || m.umb.halted then m
  else if umberRuns m then powerFail m.dom.hold true true m
  else supplyGone (onDom (fun x => { x with pwrGood := false, restart := none }) m)

/-- POWER_FAIL: main 12 V has been below 10.4 V for 4 µs (R385). -/
def execPowerFail (s : State) : Host.Outcome State Fault Refusal :=
  runOn s fun m => if m.dom.main then mainLost m else m

/-- MAIN_OVERVOLTAGE: main above 14.0 V for 4 µs disconnects the input, which is also power-fail detection (R512). -/
def execMainOvervoltage (s : State) : Host.Outcome State Fault Refusal :=
  runOn s fun m => if m.dom.main then mainLost (onDom (fun x => { x with disconnected := true }) m) else m

/-- A domain that was off is supplied again and held in reset. -/
def supplied (l : List Nat) (m : Mach) : Mach := forEach l (fun d m => if domState d m == .off then setDom d .reset m else m) m

/-- A cold start of every domain from now (R500): the umber domain is reset as well, after a flush of staging (R395). -/
def coldStart (kind : Nat) (m : Mach) : Mach :=
  let m := freshStart kind kind (when (recorderRuns m) (fun m => flushStaging (settle m)) m)
  let m := onDom (fun x => { x with coldRef := m.time.ref, pwrGood := x.main }) (umberReset m)
  nextStart (setDoms [3, 2, 1, 0] .reset m)

/-- The lower domains start with the umber domain kept (R387, R509, R530), with event 0x0D05 where a stamp was written (R363). -/
def lowerStart (kind : Nat) (m : Mach) : Mach :=
  let m := freshStart kind 0 (gapKept m)
  nextStart (setDoms [3, 2, 1] .reset (onDom (fun x => { x with coldRef := m.time.ref, pwrGood := x.main }) m))

/-- Main power is there and the domains start from it. -/
def mainStart (m : Mach) : Mach :=
  if m.umb.halted then coldStart 1 (supplied [0, 1, 2, 3] (onUmb (fun u => { u with halted := false }) m))
  else if umberRuns m then lowerStart 0 (supplied [1, 2, 3] m)
  else
    let m := freshStart 0 0 (supplied [0, 1, 2, 3] m)
    nextStart (onDom (fun x => { x with coldRef := m.time.ref, pwrGood := !x.resetHeld }) (if m.dom.umber == .reset then sampleStraps m else m))

/-- MAIN_POWER_RETURN: main has been within its range for 10 ms, which is t_p (R387, R500, R512). A sequence of R386 in progress
completes first. -/
def execMainPowerReturn (s : State) : Host.Outcome State Fault Refusal :=
  runOn s fun m =>
    if m.dom.main && !m.dom.disconnected && m.dom.umber != .reset && m.dom.umber != .off then m
    else
      let m := onDom (fun x => { x with main := true, disconnected := false }) m
      if m.umb.fail.isSome then m else mainStart m

/-- Event 0x0E07 carries which rows are complete, and the instants of each in ns after detection. -/
def rowsPayload (t : Ns) (rows : PfRows) : Bytes :=
  fields [(1, rows.foldl (fun a r => a + 2 ^ r.1) 0), (3, 0)] ++ rows.flatMap fun r => le 4 (r.2 - t)

/-- POWER_FAIL_SEQUENCE_COMPLETE: 1.4 ms after detection the table is complete. With HOLD the umber domain runs on; without it every
output is inactive and the domain halts, its last record flushed (log entry 50). If main power is back by then, the domains start (R386,
R387). -/
def execPowerFailSequenceComplete (s : State) : Host.Outcome State Fault Refusal :=
  runOn s fun m =>
    match m.umb.fail with
    | none => m
    | some (t, hold, rows) =>
      let m := arriveAll (raise 0x0E07 0 (rowsPayload t rows) (reachTime (t + 1400000) m))
      let m := onUmb (fun u => { u with fail := none, halted := !hold }) (when (!hold) (fun m => flushStaging (outputsOff m)) m)
      if m.dom.main then mainStart m else setDoms [3, 2, 1] .off (noKind m)

/-- UMBER_SUPPLY_LOST: the hold-up of a halted umber domain is spent. What retention SRAM held is gone: records not flushed, whose
numbers were not saved either (R394), and everything not saved to MRAM; the RTC resumes from its saved value (R42). -/
def execUmberSupplyLost (s : State) : Host.Outcome State Fault Refusal :=
  runOn s fun m =>
    if m.umb.halted then umberLost m else m

/-- HOLD_LOSS: HOLD is lost (R513). While the umber domain runs on it, that is a power-fail detection without HOLD, which keeps the
stamp of the first and repeats no row already done (R385, R387). -/
def execHoldLoss (s : State) : Host.Outcome State Fault Refusal :=
  runOn s fun m =>
    if !m.dom.hold then m
    else
      let m := onDom (fun x => { x with hold := false }) m
      let m := if umberActs m then raise 0x0E06 0 (fields [(1, 0), (7, 0)]) m else m
      if m.dom.main then m
      else if umberActs m then powerFail false false false m
      else supplyGone m

/-- HOLD_REGAIN: HOLD has been within its range for 10 ms. The umber domain starts from HOLD alone (R513); one that had halted
makes a cold start (R387). -/
def execHoldRegain (s : State) : Host.Outcome State Fault Refusal :=
  runOn s fun m =>
    if m.dom.hold then m
    else
      let m := onDom (fun x => { x with hold := true }) m
      if m.umb.halted then coldStart 1 (onUmb (fun u => { u with halted := false }) m)
      else if m.dom.umber == .off then nextStart (sampleStraps (freshStart 0 0 (supplied [0] m)))
      else if umberRuns m then raise 0x0E06 0 (fields [(1, 1), (7, 0)]) m
      else m

-- VIO and the straps (R514 to R516, R520)

/-- VIO_LOSS: VIO falls below 0.8 V: every sideband output is high-impedance and the inputs are held (R516). -/
def execVioLoss (s : State) : Host.Outcome State Fault Refusal :=
  runOn s fun m =>
    if !m.dom.vio then m
    else
      let m := onDom (fun x => { x with vio := false, vioSticky := x.vioSticky || umberRuns m }) m
      if umberActs m then raise 0x1404 0 (fields [(1, 0), (7, 0)]) m else m

/-- VIO_RETURN: VIO has been at or above 0.85 V for 1 ms, and each output takes the level of its function (R516). -/
def execVioReturn (s : State) : Host.Outcome State Fault Refusal :=
  runOn s fun m =>
    if m.dom.vio then m
    else
      let m := onDom (fun x => { x with vio := true, driveRef := m.time.ref }) m
      if umberActs m then raise 0x1404 0 (fields [(1, 1), (7, 0)]) m else m

/-- STRAP_CHANGE: SLOT_ID or APEX_STRAP changes; while the module runs that is recorded, and the sampled values stand until the next
cold start (R520). -/
def execStrapChange (slotId : Fin 32) (apex : Bool) (s : State) : Host.Outcome State Fault Refusal :=
  runOn s fun m =>
    let new : BitVec 5 := .ofNat 5 slotId.val
    let old := m.dom
    if old.slotIdPin == new && old.apexPin == apex then m
    else
      let m := onDom (fun x => { x with slotIdPin := new, apexPin := apex }) m
      if umberActs m then
        raise 0x1406 0 (fields [(1, old.slotIdPin.toNat), (1, b2n old.apexPin), (1, new.toNat), (1, b2n apex), (4, 0)]) m
      else m

-- The reset input (R503)

/-- RESET_IN_LONG: RESET_IN_N has been low for 1 s: the rows of R386 as with HOLD present, the outputs inactive, and every domain
held in reset. -/
def execResetInLong (s : State) : Host.Outcome State Fault Refusal :=
  runOn s fun m =>
    if !umberActs m || m.umb.fail.isSome || m.dom.resetHeld then m
    else
      let m := onDom (fun x => { x with sleep := none }) (lowerReset (settle m))
      let m := umberReset (outputsOff (saveRows true true m))
      let m := onDom (fun x => { x with resetHeld := true, pwrGood := false }) m
      setDoms [3, 2, 1, 0] .reset (noKind m)

/-- RESET_IN_RELEASE: after 1 s or more low, a cold start, which during a thermal shutdown waits for the temperature (R530). After
10 µs to 1 s low, a module restart, or the end of a sleep (R509); on the active member that is a failure of its own (R430). -/
def execResetInRelease (s : State) : Host.Outcome State Fault Refusal :=
  runOn s fun m =>
    if m.dom.resetHeld then
      let m := onDom (fun x => { x with resetHeld := false }) m
      if m.dom.shutdown then onDom (fun x => { x with coldWaits := true }) m else coldStart 1 m
    else if !umberActs m || m.umb.fail.isSome || m.dom.shutdown || !m.dom.main then m
    else if m.dom.sleep.isSome then wake m
    else moduleRestart 2 (ownFailure (flushStaging (settle m)))

-- Commanded restarts (R505, R508)

/-- RESTART_EFFECTIVE: at T(f) staging is flushed and the domains of the restart's kind are reset, or put to sleep. A commit whose
seal is not written is abandoned. A cold start saves as at a power-fail with HOLD, without its event. -/
def execRestartEffective (s : State) : Host.Outcome State Fault Refusal :=
  runOn s fun m =>
    match m.dom.restart with
    | none => m
    | some r =>
      if !controlRuns m || m.time.tick < r.tick then m
      else
        let m := changeEvent 0x0102 0x0104 r.hdr r.role r.tick (onDom (fun x => { x with restart := none }) m)
        let m := if m.sec.commit.any (·.sealed) then m else dropCommit m
        let m := flushStaging (settle m)
        if r.kind = 1 then coldStart 1 (outputsOff (saveRows true true (lowerReset m)))
        else if r.kind = 2 then moduleRestart 2 m
        else if r.kind = 3 then computeRestart 3 m
        else goSleep r.kind r.wake m

-- Temperature (R529, R530) and memory errors (R166)

/-- THERMAL_WARNING_ASSERT: a die reaches 105 °C, given in 0.1 °C. -/
def execThermalWarningAssert (temp : Int) (s : State) : Host.Outcome State Fault Refusal :=
  runOn s fun m =>
    if !umberActs m || m.dom.warning || temp < 1050 then m
    else
      let m := onDom (fun x => { x with warning := true }) m
      ownFailure (guarantee (raise 0x1402 0 (fields [(1, 1), (7, 0), (2, temp.toNat)]) m))

/-- THERMAL_WARNING_DEASSERT: every die has been below 100 °C for 10 s. -/
def execThermalWarningDeassert (s : State) : Host.Outcome State Fault Refusal :=
  runOn s fun m =>
    if !umberActs m || !m.dom.warning then m
    else
      let m := onDom (fun x => { x with warning := false }) m
      guarantee (raise 0x1402 0 (fields [(1, 0), (7, 0)]) m)

/-- THERMAL_SHUTDOWN: a die has been at or above 115 °C for 100 ms: the rows of R386 as with HOLD present, and the lower domains held
in reset. -/
def execThermalShutdown (s : State) : Host.Outcome State Fault Refusal :=
  runOn s fun m =>
    if !umberActs m || m.dom.shutdown || m.umb.fail.isSome then m
    else
      let m := raise 0x1403 0 (fields [(1, 1), (7, 0)]) (settle m)
      let m := saveRows true true (lowerReset (arriveAll m))
      setDoms [3, 2, 1] .reset (onDom (fun x => { x with shutdown := true, sleep := none, why := 0 }) m)

/-- THERMAL_RECOVER: every die has been below 95 °C for 60 s: the lower domains start as after a sleep of kind 5, or a cold start
that has waited begins. -/
def execThermalRecover (s : State) : Host.Outcome State Fault Refusal :=
  runOn s fun m =>
    if !m.dom.shutdown then m
    else
      let m := onDom (fun x => { x with shutdown := false, coldWaits := false }) m
      if m.dom.resetHeld then m
      else if s.m.dom.coldWaits then coldStart 1 m
      else
        let m := raise 0x1403 0 (fields [(1, 0), (7, 0)]) m
        if m.dom.main && m.umb.fail.isNone then lowerStart 5 m else m

/-- A slice has memory in a bank set (R154). -/
def inBank (m : Mach) (b tag : Nat) : Bool := (getSlice m tag).any fun s => pagesIn b (slicePages s) != 0

/-- MEMORY_ERROR: an uncorrectable memory error is active in a bank set: the guarantee is suspended for every slice, staging is flushed
(R395), and an active member announces failure (R430). -/
def execMemoryError (bank _word : Nat) (s : State) : Host.Outcome State Fault Refusal :=
  runOn s fun m =>
    if !umberActs m then m
    else
      let tags := (m.cpu.slices.map (·.1)).filter (inBank m bank)
      ownFailure (flushStaging (guarantee (onDom (fun x => { x with memError := true, memBanks := tset x.memBanks bank tags }) m)))

/-- Every slice with memory in a bank set that was struck has completed a reset since, or has no memory in it any more (R166). -/
def memoryScrubbed (m : Mach) : Bool := m.dom.memBanks.all fun e => e.2.all fun t => !inBank m e.1 t

/-- MEMORY_ERROR_CLEAR: the bank sets are scrubbed, and the CP clears the error (R166). -/
def execMemoryErrorClear (s : State) : Host.Outcome State Fault Refusal :=
  runOn s fun m =>
    if controlRuns m && m.dom.memError && memoryScrubbed m then
      guarantee (onDom (fun x => { x with memError := false, memBanks := [] }) m)
    else m

-- Front panel and I2C (R524 to R528)

/-- TRANSCEIVER_INSERT: the power level that SFF-8472 declares, 1 for 1.0 W, 2 for 1.5 W, 3 above. One over the cage's limit stays in
its low-power state, and its port down. -/
def execTransceiverInsert (port : Fin 13) (level : Nat) (s : State) : Host.Outcome State Fault Refusal :=
  runOn s fun m =>
    let p := port.val
    let limit := if p < 9 then 2 else 1
    if p = 9 ∨ p = 10 ∨ p = 11 then m
    else
      let m := onDom (fun x => { x with cageLow := x.cageLow.filter (· != p) }) m
      if level ≤ limit then m
      else raise 0x1405 0 (fields [(1, p), (1, level), (6, 0)]) (onDom (fun x => { x with cageLow := p :: x.cageLow }) m)

/-- A measurement as a two-byte field in units of its own measure: signed, modulo 2^16 (log entry 2). -/
def reading (m : Mach) (kind unit : Nat) : Nat := (Config.sensor kind m.time.ref / unit % 65536).toNat

/-- Some element is in primary substitute. -/
def anyPrimary (m : Mach) : Bool := m.umb.elems.any fun e => e.2.primary

/-- The payload of the umber status frame (R527). -/
def umberStatusBytes (m : Mach) : Bytes :=
  let d := m.dom
  let bits := b2n d.hold + 2 * b2n (onHold m) + 4 * b2n m.umb.fail.isSome + 8 * b2n d.warning + 16 * b2n d.shutdown + 32 * b2n d.vio +
    64 * b2n (anyPrimary m)
  domBytes m ++ fields [(4, eventTime m / nsPerSec), (1, bits), (1, d.missedPhase), (2, reading m 3 1), (4, m.evr.nextSeq - 1)]

/-- UMBER_STATUS_FRAME: sent while a debug host is attached. -/
def execUmberStatusFrame (s : State) : Host.Outcome State Fault Refusal :=
  runOn s fun m => if m.dom.dbg && umberRuns m then onDom (fun x => { x with statusFrame := umberStatusBytes m }) m else m

/-- DBG_PRESENT_CHANGE: a debug host is attached or gone; with it goes the session on M3 (R526). -/
def execDbgPresentChange (present : Bool) (s : State) : Host.Outcome State Fault Refusal :=
  runOn s fun m => onDom (fun x => { x with dbg := present }) (if present then m else closeSession 6 0 m)

/-- The 32-byte map of the management pair (R528). -/
def i2cMap (m : Mach) : Bytes :=
  let d := m.dom
  let bits := b2n d.hold + 2 * b2n d.pwrGood + 4 * b2n d.warning + 8 * b2n d.vioSticky + 16 * b2n d.shutdown
  fields [(1, m.ident.order), (1, d.slotId.toNat), (2, m.ident.hwRev), (8, m.ident.serial.toNat)] ++ domBytes m ++
    fields [(1, bits), (1, m.chn.addr.getD 0xFF), (2, reading m 0 10), (2, reading m 1 10),
      (2, reading m 2 100), (2, reading m 3 1), (2, reading m 4 1), (4, 0)]

/-- I2C_ACCESS: a read from an offset on clears the sticky bit when it reads it; a byte past the map is a free value (log entry 2).
A write is acknowledged and ignored. -/
def execI2cAccess (write : Bool) (off : BitVec 8) (count : Nat) (s : State) : Host.Outcome State Fault Refusal :=
  runOn s fun m =>
    if write || !umberRuns m || !m.dom.vio then m
    else
      let map := i2cMap m
      let at_ (i : Nat) : Byte := if i < 32 then map.getD i 0 else .ofNat 8 (Config.freeNat (m.free + i))
      let bytes := (List.range count).map fun k => at_ (off.toNat + k)
      let sticky := off.toNat ≤ 16 && 16 < off.toNat + count
      { onDom (fun x => { x with i2c := bytes, vioSticky := x.vioSticky && !sticky }) m with free := m.free + 256 }

end Sys2Proof.Machine
end

