-- ==== Sys2Proof/Machine/Tick.lean ====
section
/-! DEFINITION. The two anchors of a tick: its boundary T(n), with grid restarts, and its assembly D(n) (chapters 02 and 05). -/
namespace Sys2Proof.Machine
open Sys2Proof

-- Grid restarts (R48 to R50)

/-- An optional instant moved by a step. -/
def shiftOpt (d : Int) : Option Ns → Option Ns := Option.map (shiftNs d)

/-- The first part of pairs moved by a step. -/
def shiftFst {α : Type} (d : Int) : List (Ns × α) → List (Ns × α) := List.map fun x => (shiftNs d x.1, x.2)

/-- A channel group across a step: what it remembers by instants goes on. -/
def shiftGroup (d : Int) (g : Group) : Group :=
  { g with
    due := shiftFst d g.due
    cuts := shiftFst d g.cuts
    since := shiftNs d g.since
    before := g.before.map fun x => (shiftNs d x.1, shiftNs d x.2)
    limited := shiftOpt d g.limited
    estDue := shiftFst d g.estDue
    cmds := shiftFst d g.cmds
    started := shiftOpt d g.started
    failing := shiftOpt d g.failing }

/-- A port across a step. -/
def shiftPort (d : Int) (p : Port) : Port :=
  let sending (x : Sending) : Sending := { x with start := shiftNs d x.start }
  { p with
    pauses := tmap p.pauses fun _ x => { x with until_ := shiftOpt d x.until_, since := shiftOpt d x.since, ignore := shiftOpt d x.ignore }
    sending := p.sending.map sending
    cutOff := p.cutOff.map sending
    fcAsked := tmap p.fcAsked fun _ t => shiftNs d t
    fcOut := shiftFst d p.fcOut
    oldRules := shiftFst d p.oldRules
    offAt := shiftOpt d p.offAt
    waiting := tmap p.waiting fun _ l => l.map fun f => { f with ts := shiftNs d f.ts }
    recent := p.recent.map fun x => (shiftNs d x.1, shiftNs d x.2.1, x.2.2) }

/-- Every instant the module has noted to measure a time from is moved by the step of the clock, so that durations go on; frames
still queued for launch are transmitted at once (R50, R96, R325). -/
def shiftAll (d : Int) (m : Mach) : Mach :=
  let m := logicStepped (ingestStep d m)
  let m := onFlt (fun f => { f with groups := tmap f.groups fun _ g => shiftGroup d g }) m
  let fill (f : Fill) : Fill := { f with start := shiftOpt d f.start }
  let slice (s : Slice) : Slice := { s with subsDue := shiftFst d s.subsDue, ran := shiftFst d s.ran, faults := s.faults.map (shiftNs d) }
  let core (c : Core) : Core := { c with run := c.run.map fun r => { r with startNs := shiftNs d r.startNs } }
  let m := onCpu (fun c => { c with slices := tmap c.slices fun _ s => slice s, fills := c.fills.map fill, cores := c.cores.map core }) m
  let m := onEng (fun e => { e with due := shiftFst d e.due, savedSec := now m / nsPerSec }) m
  let m := onDom (fun x => { x with deliverFrom := shiftOpt d x.deliverFrom }) m
  let m := onSig (fun g => { g with
    ranges := g.ranges.map fun r => { r with bands := shiftFst d r.bands }
    gsubs := tmap g.gsubs fun _ b => { b with expiry := shiftOpt d b.expiry }
    inbox := g.inbox.map fun x => { x with ts := shiftNs d x.ts } }) m
  let ring (r : Ring) : Ring := { r with delivery := r.delivery.map fun x => { x with hold := shiftNs d x.hold } }
  let m := onNet (fun n => { n with
    store := tmap n.store fun _ f => { f with stepped := f.stepped || f.launch != 0 }
    inner := n.inner.map fun f => { f with stepped := f.stepped || f.launch != 0 }
    ports := tmap n.ports fun _ p => shiftPort d p
    rings := tmap n.rings fun _ r => ring r }) m
  let m := onUmb (fun u => { u with inbox := shiftFst d u.inbox }) m
  let m := onTime (fun t => { t with
    asm := t.asm.map fun x => { x with t := shiftNs d x.t, d := shiftNs d x.d }
    run := { t.run with
      pdelays := tmap t.run.pdelays fun _ x => { x with sent := shiftNs d x.sent, half := x.half.map (· + d) }
      syncs := tmap t.run.syncs fun _ x => { x with stamp := shiftNs d x.stamp } } }) m
  { m with quiet := tmap m.quiet fun _ t => shiftNs d t }

/-- Items on delay lists are due at the first slot of the new grid, in their order, and are counted for each slice by event
0x0705 (R185, R207). -/
def freeDelays (first : Tick) (m : Mach) : Mach :=
  let counts := m.cpu.delay.map fun e => (e.1, e.2.length)
  let m := onCpu (fun c => { c with delay := tmap c.delay fun _ l => l.map fun i => { i with due := first * 256 } }) m
  forEach counts (fun e m => if e.2 = 0 then m else raise 0x0705 e.1 (le 8 e.2) m) m

/-- Windows that end in the tick after their own close in the first tick of the new grid. -/
def carryWindows (last first : Tick) (m : Mach) : Mach :=
  let carry (n e : Nat) : Nat × Nat := if n = last ∧ 256 ≤ closeSlot e then (first, e + 3) else (n, e)
  let run (r : Running) : Running := { r with tick := (carry r.tick r.e).1, e := (carry r.tick r.e).2 }
  let m := onCpu (fun c => { c with cores := c.cores.map fun x => { x with run := x.run.map run } }) m
  let m := onSig (fun g => { g with windows := g.windows.map fun w =>
    { w with tick := (carry w.tick w.e).1, e := (carry w.tick w.e).2 } }) m
  onTwn (fun t => { t with dirty := t.dirty.map fun x => { x with close := first * 256 + (x.close - (last + 1) * 256) } }) m

/-- What a grid restart does to what counts ticks (R50): changes that have become effective are made and all others discarded,
delayed items released, windows carried over, and a resynchronisation begun anew. -/
def gridRestart (first : Tick) (m : Mach) : Mach :=
  let last := m.time.tick
  let m := forEach ((inOrder m.mbx.scheduled).filter fun c => c.apply ≤ last) (fun c m => if controlRuns m then effectChange c m else m) m
  let m := abandonCommit (dropSwitch (dropRestart (discardWhere (fun _ => true) m)))
  let m := carryWindows last first (freeDelays first m)
  let m := onCpu (fun c => { c with slices := tmap c.slices fun _ s => { s with
    arriving := s.arriving.map fun _ => 0
    migration := s.migration.map fun g => { g with tick := first } } }) m
  let again (r : Resync) : Resync := { r with s := first + 1, c := none, todo := [], touched := [], copied := 0 }
  onTwn (fun t => { t with
    ackF := none, ackNow := none, ackLast := none, mirror := first - 1, rx := none, resync := t.resync.map again }) m

/-- A rate change takes effect at its second boundary (R48). -/
def rateRestart (d : RateDue) (m : Mach) : Mach :=
  let m := onTime (fun t => { t with rateChange := none }) (gridRestart 0 m)
  let m := onTime (fun t => { t with grid := { s0 := d.sec, rate := d.rate, first := 0 } }) m
  let m := forEach (m.flt.groups.map (·.1)) (selectAtRate (settleLate m) d.rate (d.sec * nsPerSec)) m
  match d.asked with
  | none => m
  | some a => changeEvent 0x0102 0x0210 a.1 a.2 0 (journalAdd 0x0210 (fields [(4, d.rate), (4, 0), (8, d.sec)]) m (tag := boxTag a.1.box))

/-- The steps that are due at the boundary of a tick: one that a TIME_STEP asked for, and one the CP decided (R35, R49). -/
def stepChange (n : Tick) (m : Mach) : Option Change := m.mbx.scheduled.find? fun c => c.code == 0x0211 && c.apply ≤ n
def stepDue (n : Tick) (m : Mach) : Option Ns :=
  match stepChange n m with
  | some c => some (stepTarget c.payload)
  | none => if controlRuns m then m.time.run.step else none

/-- A step at the boundary of tick `n`: the clock is set, and the new grid begins at its first tick (R49); a pending offset-add is
discarded (R34), and a rate change that is reached takes effect with it (R52). A TIME_STEP leaves the clock free-running. -/
def stepRestart (n : Tick) (v : Ns) (m : Mach) : Mach :=
  let m := ingestAll m
  let asked := stepChange n m
  let m := match asked with
    | none => m
    | some c => dropChange c m
  let g := stepGrid m v
  let reached := m.time.rateChange.filter fun d => d.sec * nsPerSec ≤ tickStart g g.first
  let m := gridRestart g.first m
  let delta : Int := (v : Int) - now m
  let m := onTime (fun t => { t with
    clock := clockAt v
    rtc := v
    grid := g
    steps := t.steps + 1
    offPending := none
    offDiscarded := if t.offPending.isSome then t.offDiscarded + 1 else t.offDiscarded
    rateChange := if reached.isSome then none else t.rateChange
    run := { t.run with step := none } }) m
  let m := shiftAll delta m
  let m := if reached.isSome then forEach (m.flt.groups.map (·.1)) (selectAtRate (settleLate m) g.rate (tickStart g g.first)) m else m
  let m := match reached.bind fun d => d.asked.map fun a => (d, a) with
    | none => m
    | some (d, a) => changeEvent 0x0102 0x0210 a.1 a.2 0 (journalAdd 0x0210 (fields [(4, d.rate), (4, 0), (8, d.sec)]) m (tag := boxTag a.1.box))
  match asked with
  | none => m
  | some c =>
    let m := onTime (fun t => { t with state := .freeRunning }) m
    if c.deferred then answerChange c m else changeEvent 0x0102 c.code c.hdr c.role c.apply m

-- TICK_BOUNDARY (R9)

/-- Tick `n` of the running grid begins: its TimeQuality is latched, its assembly becomes due, and everything anchored to its
boundary happens: slices, the twin unit, pulse outputs, held items, and slot 0. -/
def beginTick (n : Tick) (m : Mach) : Mach :=
  let m := advanceTo (tickAt m n) m
  let t := tickAt m n
  let g := m.time.grid
  let due : AsmDue :=
    { tick := n, t := t, d := t + m.time.hold, rate := g.rate, grid := g, len := tickStart g (n + 1) - t, late := [] }
  let m := onTime (fun u => { u with
    tick := n
    slot := 0
    gridOn := true
    ticks := u.ticks + 1
    tqs := ((n, timeQuality u) :: u.tqs).take 8
    asm := u.asm ++ [due] }) m
  let m := if computeReady m then forEach (m.cpu.slices.map (·.1)) sliceBoundary m else m
  let m := if controlRuns m && computeReady m && m.sec.bootDue != [] then takeBootDue m else m
  let m := outsBoundary (twinBoundary n m)
  dispatchSlot m

/-- TICK_BOUNDARY: the clock reaches the next tick boundary. The first tick of a grid after a start begins at the first second boundary
after the clock was loaded (R43); a rate change or a step that is due begins a new grid (R48, R49). -/
def execTickBoundary (s : State) : Host.Outcome State Fault Refusal :=
  runOn s fun m =>
    if !clockRuns m then m
    else if !m.time.gridOn then beginTick 0 m
    else
      let n := m.time.tick + 1
      let m := advanceTo (tickAt m n) m
      match stepDue n m with
      | some v =>
        let m := stepRestart n v m
        beginTick m.time.grid.first m
      | none =>
        match m.time.rateChange with
        | none => beginTick n m
        | some d => if d.sec * nsPerSec ≤ tickAt m n then beginTick 0 (rateRestart d m) else beginTick n m

-- ASSEMBLY (R133)

/-- A change made while the grid is that of the tick being assembled: the last frames of an old grid are assembled on it (R50). -/
def onGrid (g : Grid) (f : Mach → Mach) (m : Mach) : Mach :=
  let g0 := m.time.grid
  onTime (fun t => { t with grid := g0 }) (f (onTime (fun t => { t with grid := g }) m))

/-- The tick assembled before, if one was. -/
def assembledBefore (m : Mach) : Option Tick :=
  if m.flt.grid.isNone then none else some ((m.eng.incs.getLast?.map (·.tick)).getD m.eng.tick)

/-- Retransmissions of the old grid's numbering are due as many ticks into the new grid as they would have been (R234). -/
def carryCurves (prev first : Tick) : Mach → Mach := onSig fun g => { g with pubs := tmap g.pubs fun _ b =>
  { b with next := b.next.map fun n => first + (n - (prev + 1)) } }

/-- The logic engine's and the GOOSE engine's part of D(n) (R230, R315, R378, R381). -/
def decideTick (d : AsmDue) (m : Mach) : Mach :=
  let mid (m : Mach) : Mach :=
    let m := commitUmberBits m
    if delivers m d then sendHealthWord d.tick m else m
  gooseSnapshot d (if computeReady m then logicBoundaries d.tick d.t mid m else m)

/-- Tick n assembled, in the order of R133 and R315: the steps left of the tick before; what ingest still lacks; window commits; logic,
umber bits, the health word and the GOOSE snapshot; the mirror capture; then the chain, the estimates, energy and the frames; and
what is judged at D(n) of words and mirrors. -/
def assembleTick (d : AsmDue) (m : Mach) : Mach :=
  let m := makeLate d m
  let prev := assembledBefore m
  let restarted := prev.isSome && m.flt.grid != some d.grid
  let m := if m.lge.used then m else logicPeriod m
  let m := captureLines (commitDue (ingestDeadline d m))
  let m := if d.tick = d.grid.first then logicGrid d.tick m else m
  let m := if restarted then carryCurves (prev.getD 0) d.grid.first m else m
  let inner := m.net.inner.length
  let m := onGrid d.grid (fun m => closeCapture d (decideTick d m)) m
  let m := if d.t = tickStart d.grid d.tick then m
    else onNet (fun n => { n with inner := n.inner.take inner ++ (n.inner.drop inner).map fun f => { f with stepped := true } }) m
  let m := onGrid d.grid (withViews d.t fun m => assembleFrames d (energyTick d restarted (groupsTick d m))) m
  let m := match prev with
    | none => m
    | some k => judgeWord k m
  let m := if d.grid.first + 2 ≤ d.tick then judgeMirror (d.tick - 2) m else m
  onLge (fun l => { l with used := false }) m

/-- The clock reaches D(n) of the oldest tick that is due, and it is assembled. -/
def assembleNext (m : Mach) : Mach :=
  if !clockRuns m then m
  else match m.time.asm with
    | [] => m
    | d :: rest => assembleTick d (onTime (fun t => { t with asm := rest }) (advanceTo d.d m))

/-- ASSEMBLY. -/
def execAssembly (s : State) : Host.Outcome State Fault Refusal := runOn s assembleNext

/-- Assemblies passed, oldest first. -/
def assembleSome : Nat → Mach → Mach
  | 0, m => m
  | k + 1, m => assembleSome k (assembleNext m)

/-- How many assemblies of the running grid have to come until that of a tick has, if it is due. -/
def assembliesTo (n : Tick) (m : Mach) : Nat :=
  match m.time.asm.findIdx? fun d => some d.grid == m.flt.grid && n ≤ d.tick with
  | none => 0
  | some i => i + 1

/-- How many assemblies have to come until that of a program's boundary has: the first tick of another grid is a boundary of every
program (R312). -/
def assembliesToBoundary (n : Tick) (m : Mach) : Nat :=
  match m.time.asm.findIdx? fun d => some d.grid != m.flt.grid || n ≤ d.tick with
  | none => 0
  | some i => i + 1

/-- LOGIC_CYCLE_BOUNDARY: the clock reaches D of the program's next boundary, and everything that happens there does so in its order
(R314, R315). -/
def execLogicCycleBoundary (prog : Fin 64) (s : State) : Host.Outcome State Fault Refusal :=
  runOn s fun m =>
    match (tget m.lge.progs prog).bind (·.next) with
    | none => m
    | some n => if computeReady m then assembleSome (assembliesToBoundary n m) m else m

/-- GOOSE_RETRANSMIT: the retransmission of an enabled block falls due at Λ(n), and the snapshot of D(n) enqueues it (R231, R234). -/
def execGooseRetransmit (blk : Fin 2048) (s : State) : Host.Outcome State Fault Refusal :=
  runOn s fun m =>
    match tget m.sig.pubs blk with
    | none => m
    | some b => match b.next with
      | none => m
      | some n => if pubOn b.entry then assembleSome (assembliesTo n m) m else m

end Sys2Proof.Machine
end

