-- ==== Sys2Proof/Machine/Chn.lean ====
section
/-! DEFINITION. The chain: enumeration, supervision, health reports and the CHN commands (chapter 17). -/
namespace Sys2Proof.Machine
open Sys2Proof

-- Entries (R453)

/-- An entry of the apex that nothing has been heard for. -/
def entryInit : ModEntry := { state := .absent, body := [], unit := 0, diverged := [], caps := [] }

/-- The number of an entry's state (CHN_STATUS). -/
def addrCode : AddrState → Nat
  | .absent => 0
  | .enumerated => 1
  | .unreachable => 2
  | .moved => 3

/-- The entry of an address rewritten. -/
def onEntry (a : Nat) (f : ModEntry → ModEntry) : Mach → Mach :=
  onChn fun c => { c with entries := tmod c.entries a entryInit f }

/-- The unit number a module has in its entry: 0xFF for member B, and before it has an address (R447). -/
def unitByte (m : Mach) : Nat :=
  match m.chn.addr, ownUnitNumber m with
  | some a, some u => if a = u then u else 0xFF
  | _, _ => 0xFF

/-- A module's own entry, as a health frame carries it (R455). -/
def ownEntry (m : Mach) : Bytes :=
  let running := (m.cpu.slices.filter fun e => e.2.state == .running && e.2.arriving.isNone).length
  fields [(1, 1), (1, unitByte m), (1, m.dom.slotId.toNat), (1, m.ident.order)] ++ domBytes m ++
    fields [(8, m.ident.serial.toNat), (4, m.sec.fwCur.version), (1, roleNow m),
      (1, b2n (cleanNow m) + 4 * b2n (m.lge.forces != [])), (2, m.time.grid.rate), (8, m.time.grid.s0), (4, causeWord m),
      (4, running), (8, m.evr.nextSeq - 1)] ++ (padTo 64 (capDigest m)).take 8 ++ le 8 m.time.clock.sec.toNat

/-- An entry as CHN_STATUS gives it: what was last reported, under the apex's own state, unit and divergence. -/
def entryBytes (m : Mach) (a : Nat) : Bytes :=
  let e := tgetD m.chn.entries a entryInit
  let div := 2 * b2n (e.diverged != [])
  let body := if m.chn.addr == some a then ownEntry m else padTo 64 e.body
  if m.chn.addr != some a && e.state == .absent then List.replicate 64 0
  else
    (if m.chn.addr == some a then fields [(1, 1), (1, unitByte m)] else fields [(1, addrCode e.state), (1, e.unit)]) ++
      slice body 2 19 ++ fields [(1, rd 1 body 21 % 2 + div + 4 * b2n (bit (rd 1 body 21) 2))] ++ body.drop 22

-- Frames (R441)

/-- A chain frame passed on unchanged. -/
def passChain (down : Bool) (cls : Nat) (p : Bytes) (m : Mach) : Mach :=
  let port := if down then 11 else 10
  sendInner (innerFrame (unitFrame chainMac m port p) cls port [(port, cls)] false none 0 (now m)) m

/-- A chain port has link. -/
def chainLink (m : Mach) (down : Bool) : Bool := (getPort m (if down then 11 else 10)).any (·.link)

/-- A chain frame of a subtype, of version 1, that the chain unit can take. -/
def chainFrame (m : Mach) (sub : Nat) (p : Bytes) : Bool := fabricRuns m && rd 1 p 0 == sub && rd 1 p 1 == 1 && 16 ≤ p.length

/-- The module's own address, 0xFF without one. -/
def ownAddr (m : Mach) : Nat := m.chn.addr.getD 0xFF

/-- The chain link below and above works: it has link and has been heard since (R445, R446). -/
def belowUp (m : Mach) : Bool := m.chn.downHeard && !m.chn.downLost
def aboveUp (m : Mach) : Bool := m.chn.upHeard && !m.chn.upLost

/-- Milliseconds as reference cycles. -/
def msCycles (k : Nat) : Nat := 500000 * k

-- Relays that fail (R451, R452)

/-- The module addressed by the unit a relay belongs to. -/
def unitOf (r : Relay) (m : Mach) : Nat :=
  let t := r.hdr.target.toNat
  if 0x20 ≤ t then t - 0x20 else ownAddr m

/-- Member B has not accepted what member A has (R451): the unit is divergent. -/
def diverge (r : Relay) (a : Response) (st : Nat) (m : Mach) : Mach :=
  let u := unitOf r m
  let m := forEach [u, r.addr] (fun x => onEntry x fun e => { e with diverged := (r.code :: e.diverged).eraseDups }) m
  let m := raise 0x1107 0 (fields [(1, u), (1, r.addr), (2, a.status), (2, st), (2, r.code)]) m
  respond r.code r.hdr r.role a.apply 0x0205 [] m

/-- An outstanding relay is given up: its outcome is unknown, and it is in doubt (R452). -/
def failRelay (r : Relay) (m : Mach) : Mach :=
  let m := onChn (fun c => { c with relays := c.relays.filter fun x => x.rseq != r.rseq }) m
  if r.own then m
  else
    let m := onChn (fun c => { c with doubt := c.doubt ++ [(r.rseq, r.addr)] }) m
    respond r.code r.hdr r.role r.hdr.apply 0x0204 [] m

/-- Every module below an address cannot be reached any more (R445): its event, and the relays on the way to it. -/
def loseBelow (last : Nat) (m : Mach) : Mach :=
  let gone := (m.chn.entries.filter fun e => last < e.1 && e.2.state == .enumerated).map (·.1)
  let m := forEach gone (fun a m =>
    raise 0x1108 0 (fields [(1, a), (1, 0), (6, 0)]) (onEntry a (fun e => { e with state := .unreachable }) m)) m
  forEach (m.chn.relays.filter fun r => last < r.addr) failRelay m

/-- The apex begins to read the capability list of a module (R453). -/
def readCaps (a : Nat) (m : Mach) : Mach :=
  let h : Hdr :=
    { box := .m1, flags := 0, seq := m.chn.nextRseq, length := 8, target := .ofNat 8 a, segment := 0, apply := 0, status := 0,
      role := 1 }
  let r : Relay :=
    { rseq := 0, code := 0x0110, hdr := h, role := 1, payload := fields [(4, 0), (4, 16280)], addr := a, thenB := none,
      fromA := none, own := true, seg := 0, ref := 0, frags := [], got := [] }
  sendNext r m

-- Enumeration (R442 to R444)

/-- The end of an enumeration reaches the apex: what lies below the last address is not reached, and the enumeration, or the part
of it that a restored link has begun, is complete. -/
def chainEnd (last cause : Nat) (m : Mach) : Mach :=
  let last := if cause < 3 then last else m.chn.reached
  let m := if cause = 4 then raise 0x1104 0 (fields [(1, cause), (1, last), (6, 0)]) m else m
  let m := loseBelow last (onChn (fun c => { c with reached := last, length := last + 1 }) m)
  let run := m.chn.run
  if run.isNone && !m.chn.joined then m
  else
    let m := onChn (fun c => { c with run := none, joined := false }) m
    let m := raise 0x1101 0 (fields [(4, m.chn.enum.toNat), (1, m.chn.length), (3, 0)]) m
    match run.bind (·.asked) with
    | none => m
    | some a => respond 0x1101 a.1 a.2 a.1.apply 0 (fields [(4, m.chn.enum.toNat), (1, m.chn.length), (3, 0)]) m

/-- A module ends the line: the apex takes the end itself, another module sends it upward (R442). -/
def endLine (last cause : Nat) (m : Mach) : Mach :=
  let m := onChn (fun c => { c with offer := none }) m
  if isApex m then chainEnd last cause m else sendChain false 3 0x12 0 (fields [(1, last), (1, cause), (6, 0)]) m

/-- A module offers the next address downward, or ends the line where it has no link below (R442). -/
def sendOffer (force : Bool) (m : Mach) : Mach :=
  if !chainLink m true then endLine (ownAddr m) 0 m
  else
    let next := ownAddr m + 1
    let m := sendChain true 3 0x10 0xFF (fields [(1, next), (1, b2n force), (6, 0)]) m
    onChn (fun c => { c with offer := some (next, force, m.time.ref) }) m

/-- ENUMERATION_START: 1 ms after the apex has driven ENUM_OUT inactive it sends its offer and drives ENUM_OUT active. -/
def execEnumerationStart (s : State) : Host.Outcome State Fault Refusal :=
  runOn s fun m =>
    match m.chn.run with
    | none => m
    | some r =>
      if r.offered || !fabricRuns m then m
      else
        let m := passCycles (r.ref + msCycles 1 - m.time.ref) m
        sendOffer r.force (onChn (fun c => { c with run := some { r with offered := true }, enumOut := true }) m)

/-- ENUM_IN_CHANGE: ENUM_IN changes; a module that is no apex drives its ENUM_OUT inactive with it (R440, R442). -/
def execEnumInChange (level : Bool) (s : State) : Host.Outcome State Fault Refusal :=
  runOn s fun m =>
    onChn (fun c => { c with enumIn := level, enumOut := if level || isApex m then c.enumOut else false }) m

/-- A join of a module: the address it has taken, or none and that it is moved, and what it is (R441). -/
def joinBody (taken : Option Nat) (moved : Bool) (m : Mach) : Bytes :=
  fields [(1, taken.getD 0xFF), (1, ownAddr m), (1, b2n m.sec.force.isSome + 2 * b2n moved), (1, m.dom.slotId.toNat),
    (1, m.ident.order), (3, 0), (8, m.ident.serial.toNat), (4, m.sec.fwCur.version), (4, 0)] ++ (padTo 64 (capDigest m)).take 8

/-- A configuration is held: in force, or in a copy that the next boot takes. -/
def configured (m : Mach) : Bool := m.sec.force.isSome || (bootChoice m).isSome

/-- The module takes an address, joins, and offers downward. -/
def takeAddress (next : Nat) (force : Bool) (m : Mach) : Mach :=
  let body := joinBody (some next) false m
  let m := onChn (fun c => { c with addr := some next, joined := true }) m
  sendOffer force (onChn (fun c => { c with enumOut := true }) (sendChain false 3 0x11 0 body m))

/-- Event 0x1105: the address held, and the one taken or offered. -/
def addressEvent (held next : Nat) : Mach → Mach := raise 0x1105 0 (fields [(1, held), (1, next), (6, 0)])

/-- What a module that is no apex does with an offer (R443). -/
def answerOffer (next : Nat) (force : Bool) (m : Mach) : Mach :=
  if 32 ≤ next then raise 0x1104 0 (fields [(1, 2), (1, next), (6, 0)]) (onChn (fun c => { c with enumOut := false, joined := false }) m)
  else
    match m.chn.addr with
    | none => takeAddress next force m
    | some held =>
      if held = next then takeAddress next force m
      else if force then takeAddress next force (addressEvent held next (closeSession 4 0 m))
      else if !configured m then takeAddress next force m
      else
        let m := addressEvent held next (onChn (fun c => { c with enumOut := false, joined := false }) m)
        endLine held 3 (sendChain false 3 0x11 0 (joinBody none true m) m)

/-- An apex that receives an offer answers with an end of cause 4 and stays what it is (R444). -/
def answerSecond (m : Mach) : Mach :=
  raise 0x1104 0 (fields [(1, 4), (7, 0)]) (sendChain false 3 0x12 0 (fields [(1, ownAddr m), (1, 4), (6, 0)]) m)

/-- CHAIN_OFFER_RECEIVE: an offer on P10, accepted while ENUM_IN is active (R442 to R444). -/
def execChainOfferReceive (p : Bytes) (s : State) : Host.Outcome State Fault Refusal :=
  runOn s fun m =>
    if !chainFrame m 0x10 p then m
    else if isApex m then answerSecond m
    else if !m.chn.enumIn then m
    else answerOffer (rd 1 p 8) (bit (rd 1 p 9) 0) (onChn (fun c => { c with enum := .ofNat 32 (rd 4 p 4) }) m)

/-- SECOND_APEX_OFFER: an offer on P10 of an apex (R444). -/
def execSecondApexOffer (p : Bytes) (s : State) : Host.Outcome State Fault Refusal :=
  runOn s fun m => if chainFrame m 0x10 p && isApex m then answerSecond m else m

/-- A join recorded by the apex: the module is enumerated, or moved, and its capability list is read (R442, R453). -/
def recordJoin (b : Bytes) (m : Mach) : Mach :=
  let a := rd 1 b 0
  let held := rd 1 b 1
  let info := fields [(1, 0), (1, 0), (1, rd 1 b 3), (1, rd 1 b 4), (4, 0), (8, rd 8 b 8), (4, rd 4 b 16), (1, 3)]
  if 32 ≤ a then
    (if bit (rd 1 b 2) 1 && held < 32 && (tget m.chn.entries held).all (fun e => e.state != .enumerated) then
      onEntry held (fun e => { e with state := .moved, body := padTo 64 info }) m
    else m)
  else
    let old := tgetD m.chn.entries a entryInit
    let body := if old.body = [] ∨ rd 8 old.body 8 ≠ rd 8 b 8 then padTo 48 info ++ slice b 24 8 ++ le 8 0 else old.body
    let m := onEntry a (fun e => { e with state := .enumerated, body := body, unit := if old.body = [] then a else e.unit }) m
    let m := onChn (fun c => { c with joined := true, reached := a }) m
    let m := raise 0x1102 0 (fields [(1, a), (1, b2n (held == a)), (6, 0), (8, rd 8 b 8)]) m
    let m := if old.state == .unreachable then raise 0x1108 0 (fields [(1, a), (1, 1), (6, 0)]) m else m
    readCaps a m

/-- CHAIN_JOIN_RECEIVE: a join on P11 is forwarded upward, and recorded by the apex; the first answers the module's own offer. -/
def execChainJoinReceive (p : Bytes) (s : State) : Host.Outcome State Fault Refusal :=
  runOn s fun m =>
    if !chainFrame m 0x11 p then m
    else
      let m := onChn (fun c => { c with offer := none }) m
      if isApex m then recordJoin (p.drop 8) m else passChain false 3 p m

/-- CHAIN_END_RECEIVE: an end on P11 is forwarded upward, and completes the enumeration at the apex. -/
def execChainEndReceive (p : Bytes) (s : State) : Host.Outcome State Fault Refusal :=
  runOn s fun m =>
    if !chainFrame m 0x12 p then m
    else
      let m := onChn (fun c => { c with offer := none }) m
      if isApex m then chainEnd (rd 1 p 8) (rd 1 p 9) m else passChain false 3 p m

/-- CHAIN_JOIN_TIMEOUT: the module's offer has drawn no join within 1 ms: cause 1, or 2 where 32 was offered (R442, R443). -/
def execChainJoinTimeout (s : State) : Host.Outcome State Fault Refusal :=
  runOn s fun m =>
    match m.chn.offer with
    | none => m
    | some o =>
      if !fabricRuns m then m
      else
        let m := passCycles (o.2.2 + msCycles 1 - m.time.ref) m
        endLine (ownAddr m) (if 32 ≤ o.1 then 2 else 1) m

-- Supervision (R445, R446)

/-- NEIGHBOUR_SEND: a neighbour frame on each chain port that has link, every 1 ms of the module's own time base. -/
def execNeighbourSend (s : State) : Host.Outcome State Fault Refusal :=
  runOn s fun m =>
    if !fabricRuns m then m
    else
      let m := passCycles (msCycles 1 - m.time.ref % msCycles 1) m
      let m := if chainLink m false then sendChain false 3 0x13 0xFF (le 8 0) m else m
      if chainLink m true then sendChain true 3 0x13 0xFF (le 8 0) m else m

/-- A module whose position the present enumeration has settled, and that may repeat its offer. -/
def mayOffer (m : Mach) : Bool :=
  if isApex m then m.chn.enum != 0 && m.chn.run.all (·.offered) else m.chn.joined

/-- The link below is heard for the first time since it came up, or again: the module above it repeats its offer (R446). -/
def restoreBelow (m : Mach) : Mach :=
  let m := onChn (fun c => { c with downHeard := true, downLost := false }) m
  if mayOffer m && m.chn.offer.isNone then sendOffer false m else m

/-- A neighbour frame has arrived on a chain link. -/
def hearNeighbour (down : Bool) (m : Mach) : Mach :=
  if down then
    let m := onChn (fun c => { c with downRef := m.time.ref }) m
    if belowUp m then m else restoreBelow m
  else onChn (fun c => { c with upHeard := true, upLost := false, upRef := m.time.ref }) m

/-- NEIGHBOUR_FRAME_RECEIVE (R445). -/
def execNeighbourFrameReceive (down : Bool) (p : Bytes) (s : State) : Host.Outcome State Fault Refusal :=
  runOn s fun m => if chainFrame m 0x13 p && chainLink m down then hearNeighbour down m else m

/-- CHAIN_LINK_RESTORED: the first neighbour frame after the link has come up (R446). -/
def execChainLinkRestored (down : Bool) (s : State) : Host.Outcome State Fault Refusal :=
  runOn s fun m => if fabricRuns m && chainLink m down then hearNeighbour down m else m

/-- CHAIN_LINK_LOST: the port has lost link, or no neighbour frame has come for 3 ms (R445). The module above the link ends the line
and reports it. -/
def execChainLinkLost (down : Bool) (s : State) : Host.Outcome State Fault Refusal :=
  runOn s fun m =>
    if !fabricRuns m || !(if down then belowUp m else aboveUp m) then m
    else
      let ref := if down then m.chn.downRef else m.chn.upRef
      let m := if chainLink m down then passCycles (ref + msCycles 3 - m.time.ref) m else m
      if down then
        let m := onChn (fun c => { c with downHeard := false, downLost := true }) m
        let m := raise 0x1103 0 (fields [(1, ownAddr m), (7, 0)]) m
        endLine (ownAddr m) 0 m
      else onChn (fun c => { c with upHeard := false, upLost := true }) m

-- Health reports (R453, R455)

/-- What of a health frame is sent within a tick of its change: domain states, twin role, clean, capability digest (R455). -/
def healthKey (b : Bytes) : List Nat := [rd 4 b 4, rd 1 b 20, rd 1 b 21 % 2, rd 8 b 48]

/-- HEALTH_FRAME_SEND: a worker's report upward, at a change, or a second after the last. -/
def execHealthFrameSend (s : State) : Host.Outcome State Fault Refusal :=
  runOn s fun m =>
    if !fabricRuns m || isApex m || !chainLink m false then m
    else
      let m := if healthKey (ownEntry m) != healthKey m.chn.lastHealth then m
        else passCycles (m.chn.healthRef + msCycles 1000 - m.time.ref) m
      let b := ownEntry m
      sendChain false 2 0x15 0 b (onChn (fun c => { c with lastHealth := b, healthRef := m.time.ref }) m)

/-- HEALTH_FRAME_RECEIVE: passed upward by a worker; the apex updates the entry of the sender, and reads the capability list of one
whose digest has changed. -/
def execHealthFrameReceive (p : Bytes) (s : State) : Host.Outcome State Fault Refusal :=
  runOn s fun m =>
    if !chainFrame m 0x15 p || p.length < 72 then m
    else if !isApex m then passChain false 2 p m
    else
      let a := rd 1 p 2
      let b := slice p 8 64
      match tget m.chn.entries a with
      | none => m
      | some e =>
        let m := onEntry a (fun e => { e with body := b, unit := rd 1 b 1 }) m
        if slice e.body 48 8 != slice b 48 8 then readCaps a m else m

-- CHN commands

/-- The chain is in the capability list (R478). -/
def chainSupported (m : Mach) : Bool := (capEntries m).any fun e => e.1 == 0x00A0

/-- The checks every CHN command has in common. -/
def chnCheck (m : Mach) : Nat := firstFail [(!chainSupported m, 0x0206), (!isApex m, 0x0201)]

def chnEnumerate : Cmd where
  code := 0x1101
  len := fun p => layout 8 [(1, 7)] p && rd 1 p 0 < 2
  right := rConfig
  m1 := false
  apply := false
  check := fun m _ _ => firstFail [(!chainSupported m, 0x0206), (!isApex m, 0x0201), (m.chn.run.isSome, 0x0209)]

/-- CHN_ENUMERATE: an enumeration begins at once, and is answered when its end is received (R442). -/
def execChnEnumerate (h : Hdr) (p : Bytes) (s : State) : Host.Outcome State Fault Refusal :=
  runOn s (judged chnEnumerate h p fun h m =>
    let role := roleOf m h
    beginEnumeration (bit (rd 1 p 0) 0) (some (h, role)) (raiseAccepted 0x1101 h role h.apply 0 m))

def chnStatus : Cmd where
  code := 0x1110
  len := layout 8 [(0, 8)]
  apply := false
  check := fun m _ _ => chnCheck m

/-- The response of CHN_STATUS. -/
def chnStatusBytes (m : Mach) : Bytes :=
  fields [(4, m.chn.enum.toNat), (1, m.chn.length), (3, 0)] ++ (List.range 32).flatMap (entryBytes m)

/-- CHN_STATUS (R453). -/
def execChnStatus (h : Hdr) (p : Bytes) (s : State) : Host.Outcome State Fault Refusal :=
  runOn s (runRead chnStatus h p chnStatusBytes id)

def chnCap : Cmd where
  code := 0x1111
  len := layout 8 [(0, 8)]
  apply := false
  check := fun m _ _ => chnCheck m

/-- The capability lists of the modules that can be reached, the apex among them: address, and ID and version of each entry. -/
def reachableCaps (m : Mach) : List (Nat × List (Nat × Nat)) :=
  (ownAddr m, (capEntries m).map fun e => (e.1, 1)) ::
    (m.chn.entries.filter fun e => e.2.state == .enumerated && e.1 != ownAddr m).map fun e => (e.1, e.2.caps)

/-- The response of CHN_CAP: each ID with the lowest version and the addresses that report it. -/
def chnCapBytes (m : Mach) : Bytes :=
  let l := reachableCaps m
  let ids := ((l.flatMap fun e => e.2.map (·.1)).eraseDups).foldl (fun a i => linsert (fun x y => decide (x < y)) i a) []
  let entry (i : Nat) : Bytes :=
    let has := l.filterMap fun e => (e.2.find? fun x => x.1 == i).map fun x => (e.1, x.2)
    fields [(2, i), (2, has.foldl (fun a x => min a x.2) 0xFFFF), (4, (has.map fun x => 2 ^ x.1).sum)]
  fields [(4, ids.length), (4, 0)] ++ ids.flatMap entry

/-- CHN_CAP (R453). -/
def execChnCap (h : Hdr) (p : Bytes) (s : State) : Host.Outcome State Fault Refusal :=
  runOn s (runRead chnCap h p chnCapBytes id)

def chnPlace : Cmd where
  code := 0x1102
  len := fun p => 8 ≤ p.length && zeros p 1 7 && (slcAdmit machReset).len (p.drop 8)
  right := rConfig
  m1 := false
  check := fun m _ p =>
    let u := rd 1 p 0
    let e := tget m.chn.entries u
    let own := ownUnitNumber m == some u
    firstFail [
      (!chainSupported m, 0x0206), (!isApex m, 0x0201), (32 ≤ u, 0x0202),
      (!own && (e.all fun e => e.state == .absent), 0x0202),
      (!own && (e.any fun e => e.unit == 0xFF), 0x0207),
      (!own && (e.any fun e => e.state != .enumerated), 0x0203)]

/-- An image is missing from a member and cannot be copied to it: from the apex's own store, or, by a free value, from that of
another member, whose store and whose copying the apex's state does not show (log entry 29). -/
def copyFails (u : Nat) (p : Bytes) (m : Mach) : Bool :=
  if ownUnitNumber m == some u && (storedSlice m (admitReq (p.drop 8)).id).isNone then true
  else if soloUnit m && m.chn.addr == some u then false
  else Config.freeNat m.free % 2 == 1

/-- CHN_PLACE: the image is copied to the members that lack it, and SLC_ADMIT goes to the unit (R451, R454); its answer is that of
member A, under the code of this command. -/
def execChnPlace (h : Hdr) (p : Bytes) (s : State) : Host.Outcome State Fault Refusal :=
  runOn s (judged chnPlace h p fun h m =>
    let role := roleOf m h
    let fails := copyFails (rd 1 p 0) p m
    let m := { m with free := m.free + 1 }
    if fails then respond 0x1102 h role h.apply 0x0208 [] m
    else
      let m := onMbx (fun x => { x with places := (boxIx h.box, h.seq) :: x.places }) m
      let inner := { h with target := .ofNat 8 (0x20 + rd 1 p 0), length := p.length - 8 }
      match execSlcAdmit inner (p.drop 8) ⟨m, []⟩ with
      | .next t => t.m
      | .fault _ => m
      | .refused _ => m)

end Sys2Proof.Machine
end

