-- ==== Sys2Proof/Machine/Mbx.lean ====
section
/-! DEFINITION. The mailboxes: sessions, segments, the registers of a slice mailbox, and the plain register writes of the slice
window (chapter 18). -/
namespace Sys2Proof.Machine
open Sys2Proof

-- A whole message (R471)

/-- The command a code stands for; a payload that names a form picks the row. None where the code is not defined. -/
def commandOf (code : Nat) (h : Hdr) (p : Bytes) : Option (State → Host.Outcome State Fault Refusal) :=
  match code with
  | 0x0101 => some (execSysIdent h p)
  | 0x0102 => some (execSysStatus h p)
  | 0x0103 => some (execSysHoldoffSet h p)
  | 0x0104 => some (if rd 1 p 0 = 2 then execSysRestartModule h p else if rd 1 p 0 = 3 then execSysRestartCompute h p else if rd 1 p 0 = 4 then execSysRestartSleep h p else if rd 1 p 0 = 5 then execSysRestartSleepFabric h p else execSysRestartCold h p)
  | 0x0105 => some (execSysRoleGrant h p)
  | 0x0110 => some (execSysCapRead h p)
  | 0x0201 => some (execTimeStatus h p)
  | 0x0210 => some (execTimeRate h p)
  | 0x0211 => some (execTimeStep h p)
  | 0x0220 => some (execTimePtpSet h p)
  | 0x0301 => some (execSviSubSet h p)
  | 0x0302 => some (execSviChanSet h p)
  | 0x0310 => some (execSviSubStatus h p)
  | 0x0401 => some (execRscGroupSet h p)
  | 0x0402 => some (execRscBankLoad h p)
  | 0x0410 => some (execRscSwap h p)
  | 0x0420 => some (execRscGroupStatus h p)
  | 0x0501 => some (execEstGroupSet h p)
  | 0x0502 => some (if rd 1 p 3 = 1 then execEstRelease h p else execEstFreeze h p)
  | 0x0510 => some (execEstGroupStatus h p)
  | 0x0511 => some (execEstFrameStatus h p)
  | 0x0601 => some (execSlcHueSet h p)
  | 0x0602 => some (execSlcAdmit h p)
  | 0x0603 => some (execSlcStart h p)
  | 0x0604 => some (execSlcStop h p)
  | 0x0605 => some (execSlcReset h p)
  | 0x0606 => some (execSlcRemove h p)
  | 0x0610 => some (if rd 1 p 1 = 2 then execSlcResourceSetRegionSize h p else if rd 1 p 1 = 3 then execSlcResourceSetRingAssign h p else if rd 1 p 1 = 4 then execSlcResourceSetRingRelease h p else if rd 1 p 1 = 5 then execSlcResourceSetSwitchShare h p else if rd 1 p 1 = 6 then execSlcResourceSetReady h p else execSlcResourceSetHue h p)
  | 0x0611 => some (execSlcSubSet h p)
  | 0x0612 => some (if rd 1 p 1 = 1 then execSlcRightsRevoke h p else execSlcRightsGrant h p)
  | 0x0613 => some (execSlcMemRelease h p)
  | 0x0620 => some (execSlcStatus h p)
  | 0x0701 => some (execDspLatLoad h p)
  | 0x0702 => some (execDspLatApply h p)
  | 0x0703 => some (execDspLatRead h p)
  | 0x0704 => some (if rd 1 p 1 = 0 then execDspHandlerDisable h p else execDspHandlerEnable h p)
  | 0x0710 => some (execDspStatus h p)
  | 0x0801 => some (execSigRangeSet h p)
  | 0x0802 => some (execSigPubSet h p)
  | 0x0803 => some (execSigSubSet h p)
  | 0x0804 => some (execSigCurveSet h p)
  | 0x0810 => some (execSigPointRead h p)
  | 0x0811 => some (execSigPubStatus h p)
  | 0x0812 => some (execSigSubStatus h p)
  | 0x0901 => some (execSwcBufSet h p)
  | 0x0902 => some (execSwcQueueSet h p)
  | 0x0903 => some (execSwcPortSet h p)
  | 0x0910 => some (execSwcStatus h p)
  | 0x0911 => some (execSwcQueueStatus h p)
  | 0x0A01 => some (execMacPortSet h p)
  | 0x0A02 => some (execMacRuleSet h p)
  | 0x0A10 => some (execMacPortStatus h p)
  | 0x0A11 => some (execMacRuleStatus h p)
  | 0x0B01 => some (execHdmaRingSet h p)
  | 0x0B02 => some (execHdmaRingsetSet h p)
  | 0x0B10 => some (execHdmaRingStatus h p)
  | 0x0C01 => some (execLgeProgLoad h p)
  | 0x0C02 => some (execLgeProgExchange h p)
  | 0x0C03 => some (execLgeProgSet h p)
  | 0x0C04 => some (if rd 1 p 1 = 1 then execLgeRestartCold h p else execLgeRestartWarm h p)
  | 0x0C05 => some (if rd 1 p 1 = 1 then execLgeForceRemove h p else execLgeForceSet h p)
  | 0x0C10 => some (execLgeForceList h p)
  | 0x0C11 => some (execLgeStatus h p)
  | 0x0D01 => some (execEngPointSet h p)
  | 0x0D02 => some (execEngPulseOutSet h p)
  | 0x0D03 => some (execEngPulseInSet h p)
  | 0x0D04 => some (if rd 1 p 0 = 1 then execEngPresetPulseInput h p else execEngPresetRegister h p)
  | 0x0D10 => some (execEngRead h p)
  | 0x0D11 => some (execEngIoRead h p)
  | 0x0E01 => some (execUmbStreamSet h p)
  | 0x0E02 => some (execUmbElemSet h p)
  | 0x0E03 => some (execUmbTripSet h p)
  | 0x0E04 => some (execUmbPubSet h p)
  | 0x0E05 => some (execUmbConfigSet h p)
  | 0x0E10 => some (execUmbStatus h p)
  | 0x0F01 => some (execEvrRead h p)
  | 0x0F02 => some (execEvrCodeSet h p)
  | 0x0F03 => some (execEvrClear h p)
  | 0x0F10 => some (execEvrInfo h p)
  | 0x1001 => some (execTwnPairSet h p)
  | 0x1002 => some (execTwnQuotaSet h p)
  | 0x1003 => some (execTwnSwitch h p)
  | 0x1010 => some (execTwnStatus h p)
  | 0x1101 => some (execChnEnumerate h p)
  | 0x1102 => some (execChnPlace h p)
  | 0x1110 => some (execChnStatus h p)
  | 0x1111 => some (execChnCap h p)
  | 0x1201 => some (if rd 1 p 0 = 1 then execCfgStageWrite h p else if rd 1 p 0 = 2 then execCfgStageDiscard h p else execCfgStageOpen h p)
  | 0x1202 => some (execCfgCommit h p)
  | 0x1203 => some (execCfgImageStore h p)
  | 0x1204 => some (execCfgImageDelete h p)
  | 0x1205 => some (execCfgExport h p)
  | 0x1210 => some (execCfgStatus h p)
  | 0x1301 => some (if rd 1 p 1 = 1 then execSecOwnerSlotRevoke h p else execSecOwnerSlotProgram h p)
  | 0x1302 => some (execSecKeyLoad h p)
  | 0x1303 => some (if rd 1 p 0 = 1 then execSecTlsAnchorClear h p else if rd 1 p 0 = 2 then execSecTlsModuleCert h p else if rd 1 p 0 = 3 then execSecTlsReadPublicKey h p else execSecTlsAnchorSet h p)
  | 0x1304 => some (execSecFwInstall h p)
  | 0x1310 => some (execSecAttest h p)
  | 0x1311 => some (execSecStatus h p)  | _ => none

/-- The module after a step of a command, whose queue is not looked at. -/
def moduleAfter (f : State → Host.Outcome State Fault Refusal) (m : Mach) : Mach :=
  match f ⟨m, []⟩ with
  | .next t => t.m
  | .fault _ => m
  | .refused _ => m

/-- A message that is refused before a command is known. -/
def refuseMsg (code : Nat) (h : Hdr) (status : Nat) (m : Mach) : Mach :=
  respond code h (roleOf m h) h.apply status [] m

/-- A complete message judged and executed (R471). -/
def runMsg (code : Nat) (h : Hdr) (p : Bytes) (m : Mach) : Mach :=
  let m := onMbx (fun x => { x with places := x.places.filter fun e => e.1 != boxIx h.box }) m
  match commandOf code h p with
  | some f => moduleAfter f m
  | none => refuseMsg code h (if headerOk h p then 0x0100 else 0x0101) m

-- Segments (R462, R463)

/-- Payload bytes of a full segment. -/
def segLen : Nat := 16352

/-- A segment is as R462 cuts a message: its size and MORE agree with LENGTH and SEGMENT, and no reserved flag is set. -/
def segmentOk (h : Hdr) (p : Bytes) : Bool :=
  let k := h.segment.toNat
  let last := h.length ≤ (k + 1) * segLen
  let f := h.flags.toNat
  !bit f 0 && f / 8 == 0 && h.length ≤ 262144 && (k == 0 || k * segLen < h.length) &&
    p.length == min segLen (h.length - k * segLen) && bit f 1 == !last

/-- Commands whose request length their own contents decide. -/
def freeLength (code : Nat) : Bool :=
  [0x0302, 0x0402, 0x0602, 0x0611, 0x0612, 0x0701, 0x0802, 0x0803, 0x0804, 0x0B02, 0x0E04, 0x0F02, 0x1102, 0x1201, 0x1303].contains code

/-- LENGTH of a message of several segments can be that of its command's fixed layout (R462). -/
def longOk (code : Nat) (h : Hdr) : Bool :=
  freeLength code || (commandOf code h []).isNone ||
    (if code = 0x0105 then h.length == 29920 else if code = 0x1301 then h.length == 29864 else code == 0x0601 && h.length == 29872)

/-- A slice mailbox waits for a request segment (R466). -/
def awaitSegment (b : Box) (next : Nat) (m : Mach) : Mach :=
  match b with
  | .slice t => onSliceBox t.val (fun x => { x with state := 4, segment := next, notify := none }) m
  | .m0 _ => m
  | .m1 => m
  | .m2 => m
  | .m3 => m

/-- A segment accepted: the message waits for its next one, and the segment is answered 0x0108. -/
def keepSegment (code : Nat) (h : Hdr) (data : Bytes) (m : Mach) : Mach :=
  let next := h.segment.toNat + 1
  let a : Assembling := { code := code, hdr := h, next := next, data := data, ref := m.time.ref }
  awaitSegment h.box next (refuseMsg code h 0x0108 (onSess h.box (fun s => { s with asm := some a }) m))

/-- The first segment of a message: refused if malformed, executed if it is the whole, and kept otherwise. -/
def firstSegment (code : Nat) (h : Hdr) (p : Bytes) (m : Mach) : Mach :=
  if !segmentOk h p then refuseMsg code h 0x0101 m
  else if h.length ≤ segLen then runMsg code h p m
  else if !longOk code h then refuseMsg code h 0x0101 m
  else keepSegment code h p m

/-- The next segment of the message in assembly; a malformed one ends it. -/
def nextSegment (code : Nat) (h : Hdr) (p : Bytes) (a : Assembling) (m : Mach) : Mach :=
  if !segmentOk h p then refuseMsg code h 0x0101 (dropAsm (boxIx h.box) m)
  else if h.length ≤ (h.segment.toNat + 1) * segLen then
    runMsg code h (a.data ++ p) (onSess h.box (fun s => { s with asm := none }) m)
  else keepSegment code h (a.data ++ p) m

/-- A segment belongs to the message in assembly and is the one expected (R463). -/
def continues (a : Assembling) (code : Nat) (h : Hdr) : Bool :=
  a.code == code && a.hdr.seq == h.seq && a.hdr.length == h.length && a.hdr.target == h.target && a.hdr.apply == h.apply &&
    a.next == h.segment.toNat

/-- A segment that starts afresh, with nothing in assembly. -/
def freshSegment (code : Nat) (h : Hdr) (p : Bytes) (late : Option (Nat × BitVec 32)) (m : Mach) : Mach :=
  let m := onSess h.box (fun s => { s with late := none }) m
  if h.segment = 0 then firstSegment code h p m
  else refuseMsg code h (if late == some (code, h.seq) then 0x0109 else 0x0101) m

/-- A request segment arrives: a repeat of the last one answered gets the stored answer (R461); others go on with the message in
assembly, or abandon it (R463). -/
def takeSegment (code : Nat) (h : Hdr) (p : Bytes) (m : Mach) : Mach :=
  match tget m.mbx.sess (boxIx h.box) with
  | none => m
  | some s =>
    let m := onSess h.box (fun s => { s with ref := m.time.ref }) m
    match s.answered.filter fun a => a.code == code && a.seq == h.seq && a.segment == h.segment.toNat with
    | some a => deliver h a.resp m
    | none =>
      match s.asm with
      | none => freshSegment code h p s.late m
      | some a =>
        if continues a code h then nextSegment code h p a m
        else
          let m := dropAsm (boxIx h.box) m
          if h.segment = 0 then firstSegment code h p m else refuseMsg code h 0x0109 m

-- Sessions (R459, R467)

/-- A session opens with a number of its own (R470). -/
def openSession (b : Box) (cert : BitVec 512) (m : Mach) : Mach :=
  let num := m.mbx.nextNum
  let m := onMbx (fun x => { x with
    sess := tset x.sess (boxIx b) (sessionInit num (if b == .m1 || b == .m2 then 0 else 1) cert m.time.ref)
    nextNum := num + 1 }) m
  raise 0x0104 0 (fields [(1, boxIx b), (1, num), (6, 0), (24, cert.toNat)]) m

/-- A session can open: on M0 with a client certificate that chains to an installed anchor, on M3 with the tool attached. -/
def mayOpen (b : Box) (m : Mach) : Bool :=
  controlRuns m && (tget m.mbx.sess (boxIx b)).isNone &&
    match b with
    | .m0 _ => m.sec.anchors != []
    | .m1 => true
    | .m2 => m.twn.cfg.on
    | .m3 => m.dom.dbg
    | .slice _ => false

/-- SESSION_OPEN: a TLS session on P9, or the attachment of a tool on M3, with MONITOR rights (R467, R470). -/
def execSessionOpen (box : Box) (cert : BitVec 512) (s : State) : Host.Outcome State Fault Refusal :=
  runOn s fun m => if mayOpen box m then openSession box cert m else m

/-- SESSION_CLOSE: a session closes for a cause of event 0x0105 (R459, R480). -/
def execSessionClose (box : Box) (cause : Nat) (s : State) : Host.Outcome State Fault Refusal :=
  runOn s fun m => if boxTag box = 0 && cause < 4 then closeSession (boxIx box) cause m else m

/-- SESSION_IDLE_TIMEOUT: a session on M0 has sent no segment for 600 s (R467). -/
def execSessionIdleTimeout (box : Box) (s : State) : Host.Outcome State Fault Refusal :=
  runOn s fun m =>
    match box, tget m.mbx.sess (boxIx box) with
    | .m0 _, some x => closeSession (boxIx box) 1 (passCycles (x.ref + msCycles 600000 - m.time.ref) m)
    | _, _ => m

-- Answers of the partner (R415, R468)

/-- A command whose twin has accepted it is made here too. -/
def makeForward (f : Forward) (m : Mach) : Mach :=
  if f.code = 0x0210 then makeRate f.hdr f.payload m else enterChange f.code f.hdr f.role f.payload f.resp f.apply m

/-- A forwarded command leaves the list of those that wait. -/
def dropForward (f : Forward) : Mach → Mach := onMbx fun x => { x with forward := x.forward.filter fun g => g != f }

/-- The partner's answer: a command that it has accepted is made, one that it has refused is refused with its own status (R415). -/
def partnerAnswer (code : Nat) (h : Hdr) (m : Mach) : Mach :=
  match m.mbx.forward.find? fun f => f.code == code && f.hdr.seq == h.seq with
  | none => m
  | some f =>
    let m := dropForward f m
    if h.status.toNat % 65536 < 2 then makeForward f m else respond f.code f.hdr f.role f.hdr.apply f.refuse [] m

/-- M2_SEGMENT_RETRY: 2 ms after an unanswered segment it is sent again, up to 5 times; after the last it counts as refused (R468). -/
def execM2SegmentRetry (s : State) : Host.Outcome State Fault Refusal :=
  runOn s fun m =>
    match m.mbx.forward.foldl (fun (a : Option Forward) f => match a with
        | none => some f
        | some g => if f.ref < g.ref then some f else some g) none with
    | none => m
    | some f =>
      let m := passCycles (f.ref + msCycles 2 - m.time.ref) m
      if 5 < f.tries then respond f.code f.hdr f.role f.hdr.apply f.refuse [] (dropForward f m)
      else
        let g := { f with tries := f.tries + 1, ref := m.time.ref }
        sendForward g (onMbx (fun x => { x with forward := x.forward.map fun y => if y == f then g else y }) m)

-- Segments as they arrive

/-- A request segment's header as its bytes (R460). -/
def hdrBytes (code : Nat) (h : Hdr) : Bytes :=
  fields [(2, code), (2, h.flags.toNat), (4, h.seq.toNat), (4, h.length), (1, h.target.toNat), (1, boxTag h.box),
    (2, h.segment.toNat), (8, h.apply), (4, h.status.toNat), (4, h.role.toNat)]

/-- The header that 32 bytes spell, for a way in. -/
def hdrAt (box : Box) (b : Bytes) : Hdr :=
  { box := box, flags := .ofNat 16 (rd 2 b 2), seq := .ofNat 32 (rd 4 b 4), length := rd 4 b 8, target := .ofNat 8 (rd 1 b 12),
    segment := .ofNat 16 (rd 2 b 14), apply := rd 8 b 16, status := .ofNat 32 (rd 4 b 24), role := .ofNat 32 (rd 4 b 28) }

/-- A segment on the serial link, whose payload is followed by the CRC of header and payload: one with a bad CRC is discarded and
counted (R468). -/
def serialSegment (code : Nat) (h : Hdr) (p : Bytes) (m : Mach) : Mach :=
  let n := p.length - 4
  if p.length < 4 || rd 4 p n != crc32 (hdrBytes code h ++ p.take n) then onMbx (fun x => { x with m3Bad := x.m3Bad + 1 }) m
  else takeSegment code h (p.take n) m

/-- MAILBOX_SEGMENT: a segment arrives on a management mailbox: a request, or on M2 the partner's answer (R462, R468). On M3 the
payload is followed by its CRC. -/
def execMailboxSegment (h : Hdr) (code : BitVec 16) (p : Bytes) (s : State) : Host.Outcome State Fault Refusal :=
  runOn s fun m =>
    let c := code.toNat
    match h.box with
    | .slice _ => m
    | .m0 _ => if boxOpen m h.box then takeSegment c h p m else m
    | .m3 => if boxOpen m h.box then serialSegment c h p m else m
    | .m1 =>
      let m := if mayOpen .m1 m then openSession .m1 0 m else m
      if boxOpen m .m1 then takeSegment c h p m else m
    | .m2 =>
      let m := if mayOpen .m2 m then openSession .m2 0 m else m
      if !boxOpen m .m2 then m else if bit h.flags.toNat 0 then partnerAnswer c h m else takeSegment c h p m

/-- The state of a slice mailbox after what it held has gone. -/
def idleBox (box : Nat) (m : Mach) : Mach :=
  if box < 64 then m else onSliceBox (box - 64) (fun b => { b with state := 0, segment := 0, notify := none }) m

/-- SEGMENT_TIMEOUT: 10 s have passed with no next segment, and the message is abandoned (R463). -/
def execSegmentTimeout (box : Box) (s : State) : Host.Outcome State Fault Refusal :=
  runOn s fun m =>
    match (tget m.mbx.sess (boxIx box)).bind (·.asm) with
    | none => m
    | some a =>
      if !controlRuns m then m
      else
        let m := passCycles (a.ref + msCycles 10000 - m.time.ref) m
        idleBox (boxIx box) (onSess box (fun s => { s with late := some (a.code, a.hdr.seq) }) (dropAsm (boxIx box) m))

/-- RESPONSE_TIMEOUT: the next segment of a response has not been fetched within 10 s, and the rest is discarded (R463). -/
def execResponseTimeout (box : Box) (s : State) : Host.Outcome State Fault Refusal :=
  runOn s fun m =>
    match tget m.mbx.sess (boxIx box) with
    | none => m
    | some x =>
      if x.more.isNone || !controlRuns m then m
      else idleBox (boxIx box) (dropMore (boxIx box) (passCycles (x.ref + msCycles 10000 - m.time.ref) m))

-- Slice mailboxes (R464 to R466)

/-- A slice mailbox is open: its slice is loaded, running or stopped, and the CP runs (R20, R459). -/
def sliceBoxOpen (m : Mach) (t : Nat) : Bool := controlRuns m && (tget m.mbx.sess (64 + t)).isSome && !sliceResets m t

/-- The registers of a slice mailbox. -/
def sliceBox (m : Mach) (t : Nat) : SliceBox := tgetD m.mbx.boxes t boxInit

/-- STATE of a slice mailbox. -/
def boxState (m : Mach) (t : Nat) : Nat := if sliceBoxOpen m t then (sliceBox m t).state else 5

/-- A doorbell write that is ignored. -/
def overrunBox (t : Nat) : Mach → Mach := onSliceBox t fun b => { b with overrun := true }

/-- The way in of a slice. -/
def sliceWay (t : Nat) : Box := .slice (Fin.ofNat 65 t)

/-- The request segment in the buffer of a slice handed to the CP: its header, and as much payload as LENGTH says for it. -/
def takeBuffer (t : Nat) (m : Mach) : Mach :=
  let b := memGet m.mem (boxKey t 0x4000) 32
  let h := hdrAt (sliceWay t) b
  let n := min segLen (h.length - h.segment.toNat * segLen)
  let p := memGet m.mem (boxKey t 0x4020) n
  takeSegment (rd 2 b 0) h p (onSliceBox t (fun x => { x with state := 1, seq := h.seq, segment := 0, notify := none }) m)

/-- MBX_TAKE_REQUEST: MBX_DOORBELL op 0x01 by the item a core runs. -/
def execMbxTakeRequest (core : Fin 32) (s : State) : Host.Outcome State Fault Refusal :=
  runOn s fun m =>
    match coreRun m core with
    | none => m
    | some r =>
      let st := boxState m r.tag
      if st = 1 ∨ st = 3 ∨ st = 5 then overrunBox r.tag m else takeBuffer r.tag m

/-- The next segment of a response placed in the buffer. -/
def placeNext (t : Nat) (m : Mach) : Mach :=
  match tget m.mbx.sess (64 + t) with
  | none => m
  | some s =>
    match s.more, s.answered with
    | some k, some a =>
      let more := k + 2 < segCount a.resp
      let m := onMem (fun mem => memPut mem (boxKey t 0x8000) (segBytes a.resp (k + 1))) m
      let m := onSess (sliceWay t) (fun s => { s with more := if more then some (k + 1) else none, ref := m.time.ref }) m
      onSliceBox t (fun b => { b with state := if more then 3 else 2, segment := if more then k + 1 else 0 }) m
    | _, _ => m

/-- MBX_NEXT_RESPONSE: MBX_DOORBELL op 0x02. -/
def execMbxNextResponse (core : Fin 32) (s : State) : Host.Outcome State Fault Refusal :=
  runOn s fun m =>
    match coreRun m core with
    | none => m
    | some r => if boxState m r.tag = 3 then placeNext r.tag m else overrunBox r.tag m

/-- The message in assembly, or the rest of a response, is abandoned at the slice's own wish: a message is answered 0x0109. -/
def abandonBox (t : Nat) (m : Mach) : Mach :=
  match (tget m.mbx.sess (64 + t)).bind (·.asm) with
  | some a => refuseMsg a.code a.hdr 0x0109 (dropAsm (64 + t) m)
  | none => if boxState m t = 3 then idleBox (64 + t) (dropMore (64 + t) m) else m

/-- MBX_ABANDON: MBX_DOORBELL op 0x03. -/
def execMbxAbandon (core : Fin 32) (s : State) : Host.Outcome State Fault Refusal :=
  runOn s fun m =>
    match coreRun m core with
    | none => m
    | some r => if boxState m r.tag = 5 then overrunBox r.tag m else abandonBox r.tag m

/-- MBX_STATUS as it reads (R466). -/
def boxWord (m : Mach) (t : Nat) : BitVec 64 :=
  let b := sliceBox m t
  let st := boxState m t
  .ofNat 64 (b.seq.toNat * 2 ^ 32 + (if st = 3 ∨ st = 4 then b.segment else 0) * 2 ^ 16 + b2n b.overrun * 256 + st)

/-- MBX_STATUS_READ: the read returns the register and clears OVERRUN (R6, R466). -/
def execMbxStatusRead (core : Fin 32) (s : State) : Host.Outcome State Fault Refusal :=
  runOn s fun m =>
    match coreRun m core with
    | none => m
    | some r => onSliceBox r.tag (fun b => { b with overrun := false }) (coreReads core (boxWord m r.tag) m)

/-- MAILBOX_NOTIFY: the final response is in the buffer, and the CP posts the item that the slice has asked for; a handler that takes
none is counted (R464). -/
def execMailboxNotify (tag : Fin 65) (s : State) : Host.Outcome State Fault Refusal :=
  runOn s fun m =>
    let b := sliceBox m tag.val
    match b.notify with
    | none => m
    | some n =>
      if boxState m tag.val ≠ 2 then m
      else
        let m := onSliceBox tag.val (fun b => { b with notify := none }) m
        let h := n.1 % 65536
        if noHandler m tag.val h then onMbx (fun x => { x with notifyRefused := x.notifyRefused + 1 }) (postItem tag.val h .cp n.2.1 n.2.2 none m)
        else postItem tag.val h .cp n.2.1 n.2.2 none m

-- Plain register writes (R5, R6)

/-- A write of an access register of the signal table that has no row of its own (R222, R223, R225). -/
def writeSpa (core t off : Nat) (v : BitVec 64) : Mach → Mach :=
  onSpa core t fun x =>
    if off = 0x2000 then { x with index := .ofNat 64 (v.toNat % 2 ^ 23) }
    else if off = 0x2008 then { x with value := v }
    else if off = 0x2010 then { x with meta_ := v }
    else if off = 0x2018 then { x with sec := .ofNat 64 (v.toNat % 2 ^ 32) }
    else if off = 0x2040 then { x with list := v }
    else if off = 0x2048 then { x with buf := v }
    else x

/-- A doorbell of the mailbox: an OP that no row names is ignored and sets OVERRUN (R465). -/
def writeDoorbell (core : Fin 32) (t op : Nat) (m : Mach) : Mach :=
  if op = 1 then moduleAfter (execMbxTakeRequest core) m
  else if op = 2 then moduleAfter (execMbxNextResponse core) m
  else if op = 3 then moduleAfter (execMbxAbandon core) m
  else overrunBox t m

/-- A write to a register of the slice window by the item of a core. A register that a row of its own writes acts as that row; of
the others the fields of SPA and the request buffer take the value, and what can only be read ignores it (R6). -/
def writeWindow (core : Fin 32) (t off : Nat) (v : BitVec 64) (m : Mach) : Mach :=
  if 0x4000 ≤ off ∧ off < 0x8000 then onMem (fun mem => memPut mem (boxKey t off) (le 8 v.toNat)) m
  else if off = 0x0108 then moduleAfter (execDspSubmit core v) m
  else if off = 0x0118 then moduleAfter (execDspCancel core v) m
  else if 0x0200 ≤ off ∧ off < 0x0600 ∧ off % 16 = 0 then moduleAfter (execRdbTail core (Fin.ofNat 64 ((off - 0x0200) / 16)) v) m
  else if off = 0x0800 then writeDoorbell core t (v.toNat % 256) m
  else if off = 0x0C00 then moduleAfter (execEvrCursor core v) m
  else if off = 0x2020 then spaCmd core (v.toNat % 16) m
  else if off = 0x2050 then spaBurst core (v.toNat / 65536 % 16) (v.toNat % 512) m
  else writeSpa core.val t off v m

/-- REGISTER_WRITE: an 8-byte store of the item a core runs: to the slice window, where an unaligned one is a fault (R173), or to
the slice's own memory; any other address is refused by the translation unit (R148). -/
def execRegisterWrite (core : Fin 32) (va : BitVec 64) (v : BitVec 64) (s : State) : Host.Outcome State Fault Refusal :=
  runOn s fun m =>
    match coreRun m core with
    | none => m
    | some r =>
      let a := va.toNat
      if windowBase ≤ a ∧ a < windowBase + 0x10000 then
        (if a % 8 = 0 then writeWindow core r.tag (a - windowBase) v m else faultItem core a m)
      else
        match getSlice m r.tag with
        | none => m
        | some x => if spanOk x a 8 1 then noteLines r r.tag x a 8 (slcPut r.tag a (le 8 v.toNat) m) else faultItem core a m

end Sys2Proof.Machine
end

