-- ==== Sys2Proof/Machine/Rly.lean ====
section
/-! DEFINITION. Relay: the way of a message from the apex to its target and of the response back (R448 to R452). -/
namespace Sys2Proof.Machine
open Sys2Proof

/-- A relay frame of a direction: 0 request, 1 response (R441). -/
def relayFrame (m : Mach) (dir : Nat) (p : Bytes) : Bool := chainFrame m 0x14 p && rd 1 p 14 == dir

/-- Fragment FRAG of NFRAG put among those received; the whole once they are all there (R449). -/
def addFragment (l : List (Nat × Bytes)) (frag count : Nat) (b : Bytes) : List (Nat × Bytes) × Option Bytes :=
  let l := tset l frag b
  (l, if count ≤ l.length then some (l.flatMap (·.2)) else none)

/-- A segment taken on M1 by the target of a relay (R449, R468). -/
def takeRelayed (rseq : BitVec 32) (b : Bytes) (m : Mach) : Mach :=
  let m := if mayOpen .m1 m then openSession .m1 0 m else m
  if !boxOpen m .m1 then m
  else
    let h := hdrAt .m1 b
    takeSegment (rd 2 b 0) h (b.drop 32) (onChn (fun c => { c with asked := c.asked ++ [(rseq, rd 2 b 0, h.seq)] }) m)

/-- A fragment of a request for this module. -/
def hearRequest (p : Bytes) (m : Mach) : Mach :=
  let rseq : BitVec 32 := .ofNat 32 (rd 4 p 8)
  let old := if rseq = m.chn.rxSeq then m.chn.rxFrags else []
  let r := addFragment old (rd 1 p 12) (rd 1 p 13) (p.drop 16)
  let m := onChn (fun c => { c with rxSeq := rseq, rxFrags := if r.2.isSome then [] else r.1 }) m
  match r.2 with
  | none => m
  | some b => takeRelayed rseq b m

/-- RELAY_REQUEST_RECEIVE: a request on P10 is forwarded downward, or executed on M1 by its target (R449). -/
def execRelayRequestReceive (p : Bytes) (s : State) : Host.Outcome State Fault Refusal :=
  runOn s fun m =>
    if !relayFrame m 0 p || isApex m then m
    else if m.chn.addr == some (rd 1 p 3) then hearRequest p m
    else if chainLink m true then passChain true 2 p m else m

/-- The entries of a capability list (R477): ID and version of each. -/
def capEntriesOf : Nat → Bytes → Nat → List (Nat × Nat)
  | 0, _, _ => []
  | fuel + 1, l, off =>
    if l.length < off + 12 then []
    else
      let next := rd 4 l (off + 8)
      (rd 2 l off, rd 2 l (off + 2)) :: (if next = 0 then [] else capEntriesOf fuel l next)

/-- A status says that a command was accepted (R475). -/
def acceptedStatus (st : Nat) : Bool := st < 2

/-- A command of a unit that both members have now accepted is no divergence any more; nor is one that a member has accepted at its
own address, by which the owner corrects it (R451; log entry 30). -/
def converge (code : Nat) (l : List Nat) : Mach → Mach := fun m =>
  forEach l (fun a m => if (tget m.chn.entries a).isSome then onEntry a (fun e => { e with diverged := e.diverged.filter (· != code) }) m else m) m

/-- The address of member A of the unit a module belongs to, as the apex knows it. -/
def memberA (m : Mach) (a : Nat) : Nat :=
  ((m.chn.entries.find? fun e => memberB m e.1 == some a).map (·.1)).getD (if memberB m (ownAddr m) == some a then ownAddr m else a)

/-- A relay is answered: the answer goes to its session, or the message goes on to member B (R451). -/
def relayDone (r : Relay) (resp : Response) (m : Mach) : Mach :=
  let ok := acceptedStatus resp.status
  if r.own then onEntry r.addr (fun e => { e with caps := capEntriesOf 64 (resp.payload.drop 72) 0 }) m
  else
    match r.thenB, r.fromA with
    | some b, _ =>
      if !ok then deliver r.hdr resp m
      else if (tget m.chn.entries b).any (fun e => e.state == .enumerated) then
        startRelay r.code r.hdr r.role r.hdr.apply b none (some resp) r.payload m
      else diverge { r with addr := b } resp 0x0203 m
    | none, some a =>
      if ok then deliver r.hdr a (converge r.code [unitOf r m, r.addr] m) else diverge r a resp.status m
    | none, none => deliver r.hdr resp (if ok then converge r.code [r.addr, memberA m r.addr] m else m)

/-- A whole response segment of a relay: more of the message is asked for, more of the response awaited, or the relay is done. -/
def relaySegment (r : Relay) (b : Bytes) (m : Mach) : Mach :=
  let st := rd 4 b 24 % 65536
  let got := r.got ++ b.drop 32
  let drop : Mach → Mach := onChn fun c => { c with relays := c.relays.filter fun x => x.rseq != r.rseq }
  if bit (rd 2 b 2) 1 then
    let r' := { r with frags := [], got := got, ref := m.time.ref }
    onChn (fun c => { c with relays := c.relays.map fun x => if x.rseq == r.rseq then r' else x }) m
  else if st = 0x0108 ∧ r.seg + 1 < reqSegments r.payload then sendNext { r with seg := r.seg + 1 } (drop m)
  else
    let resp : Response :=
      { code := r.code, seq := r.hdr.seq, target := r.hdr.target, slice := 0, apply := rd 8 b 16, status := st,
        role := .ofNat 32 (rd 4 b 28), payload := got }
    relayDone r resp (drop m)

/-- A fragment of a response at the apex. -/
def hearResponse (p : Bytes) (m : Mach) : Mach :=
  let rseq : BitVec 32 := .ofNat 32 (rd 4 p 8)
  match m.chn.relays.find? fun r => r.rseq == rseq with
  | none => m
  | some r =>
    let f := addFragment r.frags (rd 1 p 12) (rd 1 p 13) (p.drop 16)
    match f.2 with
    | some b => relaySegment r b m
    | none =>
      let r' := { r with frags := f.1 }
      onChn (fun c => { c with relays := c.relays.map fun x => if x.rseq == rseq then r' else x }) m

/-- RELAY_RESPONSE_RECEIVE: a response on P11 is forwarded upward; the apex takes it (R449). -/
def execRelayResponseReceive (p : Bytes) (s : State) : Host.Outcome State Fault Refusal :=
  runOn s fun m =>
    if !relayFrame m 1 p then m
    else if isApex m then (if controlRuns m then hearResponse p m else m)
    else if chainLink m false then passChain false 2 p m else m

/-- RELAY_TIMEOUT: the oldest relay has had no response for 10 s (R452). -/
def execRelayTimeout (s : State) : Host.Outcome State Fault Refusal :=
  runOn s fun m =>
    match m.chn.relays with
    | [] => m
    | r :: _ => failRelay r (passCycles (r.ref + msCycles 10000 - m.time.ref) m)

/-- IN_DOUBT_RESOLVE: the apex reads the outcome of the first relay in doubt whose target can be reached again, and reports it. The
outcome is the target's: a free value, or lost (R452; log entry 2). -/
def execInDoubtResolve (s : State) : Host.Outcome State Fault Refusal :=
  runOn s fun m =>
    match m.chn.doubt.find? fun d => (tget m.chn.entries d.2).any (fun e => e.state == .enumerated) with
    | none => m
    | some d =>
      let v := Config.freeNat m.free
      let m := onChn (fun c => { c with doubt := c.doubt.filter fun x => x != d }) { m with free := m.free + 1 }
      raise 0x1106 0 (fields [(4, d.1.toNat), (1, d.2), (1, v % 2), (2, v / 2)]) m

end Sys2Proof.Machine
end

