-- ==== Sys2Proof/Machine/Dispatch.lean ====
section
/-!
DEFINITION. The dispatch of a command to its meaning: one arm for each row of the spec's table of operations.
-/
namespace Sys2Proof.Machine
open Sys2Proof

def exec (i : Instr) (s : State) : Host.Outcome State Fault Refusal :=
  match i with
  | .timeStatus h p => Sys2Proof.Machine.execTimeStatus h p s
  | .timeRate h p => Sys2Proof.Machine.execTimeRate h p s
  | .timeStep h p => Sys2Proof.Machine.execTimeStep h p s
  | .timePtpSet h p => Sys2Proof.Machine.execTimePtpSet h p s
  | .sviSubSet h p => Sys2Proof.Machine.execSviSubSet h p s
  | .sviChanSet h p => Sys2Proof.Machine.execSviChanSet h p s
  | .sviSubStatus h p => Sys2Proof.Machine.execSviSubStatus h p s
  | .rscGroupSet h p => Sys2Proof.Machine.execRscGroupSet h p s
  | .rscBankLoad h p => Sys2Proof.Machine.execRscBankLoad h p s
  | .rscSwap h p => Sys2Proof.Machine.execRscSwap h p s
  | .rscGroupStatus h p => Sys2Proof.Machine.execRscGroupStatus h p s
  | .estGroupSet h p => Sys2Proof.Machine.execEstGroupSet h p s
  | .estFreeze h p => Sys2Proof.Machine.execEstFreeze h p s
  | .estRelease h p => Sys2Proof.Machine.execEstRelease h p s
  | .estGroupStatus h p => Sys2Proof.Machine.execEstGroupStatus h p s
  | .estFrameStatus h p => Sys2Proof.Machine.execEstFrameStatus h p s
  | .slcHueSet h p => Sys2Proof.Machine.execSlcHueSet h p s
  | .slcAdmit h p => Sys2Proof.Machine.execSlcAdmit h p s
  | .slcStart h p => Sys2Proof.Machine.execSlcStart h p s
  | .slcStop h p => Sys2Proof.Machine.execSlcStop h p s
  | .slcReset h p => Sys2Proof.Machine.execSlcReset h p s
  | .slcRemove h p => Sys2Proof.Machine.execSlcRemove h p s
  | .slcResourceSetHue h p => Sys2Proof.Machine.execSlcResourceSetHue h p s
  | .slcResourceSetRegionSize h p => Sys2Proof.Machine.execSlcResourceSetRegionSize h p s
  | .slcResourceSetRingAssign h p => Sys2Proof.Machine.execSlcResourceSetRingAssign h p s
  | .slcResourceSetRingRelease h p => Sys2Proof.Machine.execSlcResourceSetRingRelease h p s
  | .slcResourceSetSwitchShare h p => Sys2Proof.Machine.execSlcResourceSetSwitchShare h p s
  | .slcResourceSetReady h p => Sys2Proof.Machine.execSlcResourceSetReady h p s
  | .slcSubSet h p => Sys2Proof.Machine.execSlcSubSet h p s
  | .slcRightsGrant h p => Sys2Proof.Machine.execSlcRightsGrant h p s
  | .slcRightsRevoke h p => Sys2Proof.Machine.execSlcRightsRevoke h p s
  | .slcMemRelease h p => Sys2Proof.Machine.execSlcMemRelease h p s
  | .slcStatus h p => Sys2Proof.Machine.execSlcStatus h p s
  | .dspLatLoad h p => Sys2Proof.Machine.execDspLatLoad h p s
  | .dspLatApply h p => Sys2Proof.Machine.execDspLatApply h p s
  | .dspLatRead h p => Sys2Proof.Machine.execDspLatRead h p s
  | .dspHandlerEnable h p => Sys2Proof.Machine.execDspHandlerEnable h p s
  | .dspHandlerDisable h p => Sys2Proof.Machine.execDspHandlerDisable h p s
  | .dspStatus h p => Sys2Proof.Machine.execDspStatus h p s
  | .sigRangeSet h p => Sys2Proof.Machine.execSigRangeSet h p s
  | .sigPubSet h p => Sys2Proof.Machine.execSigPubSet h p s
  | .sigSubSet h p => Sys2Proof.Machine.execSigSubSet h p s
  | .sigCurveSet h p => Sys2Proof.Machine.execSigCurveSet h p s
  | .sigPointRead h p => Sys2Proof.Machine.execSigPointRead h p s
  | .sigPubStatus h p => Sys2Proof.Machine.execSigPubStatus h p s
  | .sigSubStatus h p => Sys2Proof.Machine.execSigSubStatus h p s
  | .swcBufSet h p => Sys2Proof.Machine.execSwcBufSet h p s
  | .swcQueueSet h p => Sys2Proof.Machine.execSwcQueueSet h p s
  | .swcPortSet h p => Sys2Proof.Machine.execSwcPortSet h p s
  | .swcStatus h p => Sys2Proof.Machine.execSwcStatus h p s
  | .swcQueueStatus h p => Sys2Proof.Machine.execSwcQueueStatus h p s
  | .macPortSet h p => Sys2Proof.Machine.execMacPortSet h p s
  | .macRuleSet h p => Sys2Proof.Machine.execMacRuleSet h p s
  | .macPortStatus h p => Sys2Proof.Machine.execMacPortStatus h p s
  | .macRuleStatus h p => Sys2Proof.Machine.execMacRuleStatus h p s
  | .hdmaRingSet h p => Sys2Proof.Machine.execHdmaRingSet h p s
  | .hdmaRingsetSet h p => Sys2Proof.Machine.execHdmaRingsetSet h p s
  | .hdmaRingStatus h p => Sys2Proof.Machine.execHdmaRingStatus h p s
  | .lgeProgLoad h p => Sys2Proof.Machine.execLgeProgLoad h p s
  | .lgeProgExchange h p => Sys2Proof.Machine.execLgeProgExchange h p s
  | .lgeProgSet h p => Sys2Proof.Machine.execLgeProgSet h p s
  | .lgeRestartWarm h p => Sys2Proof.Machine.execLgeRestartWarm h p s
  | .lgeRestartCold h p => Sys2Proof.Machine.execLgeRestartCold h p s
  | .lgeForceSet h p => Sys2Proof.Machine.execLgeForceSet h p s
  | .lgeForceRemove h p => Sys2Proof.Machine.execLgeForceRemove h p s
  | .lgeForceList h p => Sys2Proof.Machine.execLgeForceList h p s
  | .lgeStatus h p => Sys2Proof.Machine.execLgeStatus h p s
  | .engPointSet h p => Sys2Proof.Machine.execEngPointSet h p s
  | .engPulseOutSet h p => Sys2Proof.Machine.execEngPulseOutSet h p s
  | .engPulseInSet h p => Sys2Proof.Machine.execEngPulseInSet h p s
  | .engPresetRegister h p => Sys2Proof.Machine.execEngPresetRegister h p s
  | .engPresetPulseInput h p => Sys2Proof.Machine.execEngPresetPulseInput h p s
  | .engRead h p => Sys2Proof.Machine.execEngRead h p s
  | .engIoRead h p => Sys2Proof.Machine.execEngIoRead h p s
  | .umbStreamSet h p => Sys2Proof.Machine.execUmbStreamSet h p s
  | .umbElemSet h p => Sys2Proof.Machine.execUmbElemSet h p s
  | .umbTripSet h p => Sys2Proof.Machine.execUmbTripSet h p s
  | .umbPubSet h p => Sys2Proof.Machine.execUmbPubSet h p s
  | .umbConfigSet h p => Sys2Proof.Machine.execUmbConfigSet h p s
  | .umbStatus h p => Sys2Proof.Machine.execUmbStatus h p s
  | .evrRead h p => Sys2Proof.Machine.execEvrRead h p s
  | .evrCodeSet h p => Sys2Proof.Machine.execEvrCodeSet h p s
  | .evrClear h p => Sys2Proof.Machine.execEvrClear h p s
  | .evrInfo h p => Sys2Proof.Machine.execEvrInfo h p s
  | .twnPairSet h p => Sys2Proof.Machine.execTwnPairSet h p s
  | .twnQuotaSet h p => Sys2Proof.Machine.execTwnQuotaSet h p s
  | .twnSwitch h p => Sys2Proof.Machine.execTwnSwitch h p s
  | .twnStatus h p => Sys2Proof.Machine.execTwnStatus h p s
  | .chnEnumerate h p => Sys2Proof.Machine.execChnEnumerate h p s
  | .chnPlace h p => Sys2Proof.Machine.execChnPlace h p s
  | .chnStatus h p => Sys2Proof.Machine.execChnStatus h p s
  | .chnCap h p => Sys2Proof.Machine.execChnCap h p s
  | .sysIdent h p => Sys2Proof.Machine.execSysIdent h p s
  | .sysStatus h p => Sys2Proof.Machine.execSysStatus h p s
  | .sysHoldoffSet h p => Sys2Proof.Machine.execSysHoldoffSet h p s
  | .sysRestartCold h p => Sys2Proof.Machine.execSysRestartCold h p s
  | .sysRestartModule h p => Sys2Proof.Machine.execSysRestartModule h p s
  | .sysRestartCompute h p => Sys2Proof.Machine.execSysRestartCompute h p s
  | .sysRestartSleep h p => Sys2Proof.Machine.execSysRestartSleep h p s
  | .sysRestartSleepFabric h p => Sys2Proof.Machine.execSysRestartSleepFabric h p s
  | .sysRoleGrant h p => Sys2Proof.Machine.execSysRoleGrant h p s
  | .sysCapRead h p => Sys2Proof.Machine.execSysCapRead h p s
  | .cfgStageOpen h p => Sys2Proof.Machine.execCfgStageOpen h p s
  | .cfgStageWrite h p => Sys2Proof.Machine.execCfgStageWrite h p s
  | .cfgStageDiscard h p => Sys2Proof.Machine.execCfgStageDiscard h p s
  | .cfgCommit h p => Sys2Proof.Machine.execCfgCommit h p s
  | .cfgImageStore h p => Sys2Proof.Machine.execCfgImageStore h p s
  | .cfgImageDelete h p => Sys2Proof.Machine.execCfgImageDelete h p s
  | .cfgExport h p => Sys2Proof.Machine.execCfgExport h p s
  | .cfgStatus h p => Sys2Proof.Machine.execCfgStatus h p s
  | .secOwnerSlotProgram h p => Sys2Proof.Machine.execSecOwnerSlotProgram h p s
  | .secOwnerSlotRevoke h p => Sys2Proof.Machine.execSecOwnerSlotRevoke h p s
  | .secKeyLoad h p => Sys2Proof.Machine.execSecKeyLoad h p s
  | .secTlsAnchorSet h p => Sys2Proof.Machine.execSecTlsAnchorSet h p s
  | .secTlsAnchorClear h p => Sys2Proof.Machine.execSecTlsAnchorClear h p s
  | .secTlsModuleCert h p => Sys2Proof.Machine.execSecTlsModuleCert h p s
  | .secTlsReadPublicKey h p => Sys2Proof.Machine.execSecTlsReadPublicKey h p s
  | .secFwInstall h p => Sys2Proof.Machine.execSecFwInstall h p s
  | .secAttest h p => Sys2Proof.Machine.execSecAttest h p s
  | .secStatus h p => Sys2Proof.Machine.execSecStatus h p s
  | .slwTimeSRead core => Sys2Proof.Machine.execSlwTimeSRead core s
  | .dspFetch core => Sys2Proof.Machine.execDspFetch core s
  | .dspSubmit core va => Sys2Proof.Machine.execDspSubmit core va s
  | .dspCancel core v => Sys2Proof.Machine.execDspCancel core v s
  | .spaRead core => Sys2Proof.Machine.execSpaRead core s
  | .spaWriteAuto core => Sys2Proof.Machine.execSpaWriteAuto core s
  | .spaWriteExplicit core => Sys2Proof.Machine.execSpaWriteExplicit core s
  | .spaBurstRead core count => Sys2Proof.Machine.execSpaBurstRead core count s
  | .spaBurstWriteAuto core count => Sys2Proof.Machine.execSpaBurstWriteAuto core count s
  | .spaBurstWriteExplicit core count => Sys2Proof.Machine.execSpaBurstWriteExplicit core count s
  | .rdbTail core pos v => Sys2Proof.Machine.execRdbTail core pos v s
  | .rdbHeadRead core pos => Sys2Proof.Machine.execRdbHeadRead core pos s
  | .mbxTakeRequest core => Sys2Proof.Machine.execMbxTakeRequest core s
  | .mbxNextResponse core => Sys2Proof.Machine.execMbxNextResponse core s
  | .mbxAbandon core => Sys2Proof.Machine.execMbxAbandon core s
  | .mbxStatusRead core => Sys2Proof.Machine.execMbxStatusRead core s
  | .evrCursor core v => Sys2Proof.Machine.execEvrCursor core v s
  | .registerWrite core va v => Sys2Proof.Machine.execRegisterWrite core va v s
  | .i2cAccess write off count => Sys2Proof.Machine.execI2cAccess write off count s
  | .incrementWrite v => Sys2Proof.Machine.execIncrementWrite v s
  | .offsetAddWrite v => Sys2Proof.Machine.execOffsetAddWrite v s
  | .tickBoundary => Sys2Proof.Machine.execTickBoundary s
  | .slotBoundary => Sys2Proof.Machine.execSlotBoundary s
  | .delayRelease tag => Sys2Proof.Machine.execDelayRelease tag s
  | .windowOverrunAbort core => Sys2Proof.Machine.execWindowOverrunAbort core s
  | .windowCommit core => Sys2Proof.Machine.execWindowCommit core s
  | .handlerFault core addr => Sys2Proof.Machine.execHandlerFault core addr s
  | .scheduledChangeApply => Sys2Proof.Machine.execScheduledChangeApply s
  | .leapSecond => Sys2Proof.Machine.execLeapSecond s
  | .ptpMessageReceive port msg => Sys2Proof.Machine.execPtpMessageReceive port msg s
  | .masterLoss => Sys2Proof.Machine.execMasterLoss s
  | .holdoverLimitExpire => Sys2Proof.Machine.execHoldoverLimitExpire s
  | .frameReceive port f => Sys2Proof.Machine.execFrameReceive port f s
  | .cutThrough port f => Sys2Proof.Machine.execCutThrough port f s
  | .admission src => Sys2Proof.Machine.execAdmission src s
  | .pauseResend port => Sys2Proof.Machine.execPauseResend port s
  | .pauseReceive port quanta => Sys2Proof.Machine.execPauseReceive port quanta s
  | .pfcReceive port vec times => Sys2Proof.Machine.execPfcReceive port vec times s
  | .pauseTimerExpire port tc => Sys2Proof.Machine.execPauseTimerExpire port tc s
  | .pauseStorm port tc => Sys2Proof.Machine.execPauseStorm port tc s
  | .pauseStormPeriodEnd port tc => Sys2Proof.Machine.execPauseStormPeriodEnd port tc s
  | .macTransmitStart port => Sys2Proof.Machine.execMacTransmitStart port s
  | .launchHoldGuard port => Sys2Proof.Machine.execLaunchHoldGuard port s
  | .launch port => Sys2Proof.Machine.execLaunch port s
  | .preemptVerify port v => Sys2Proof.Machine.execPreemptVerify port v s
  | .linkUp port => Sys2Proof.Machine.execLinkUp port s
  | .linkDown port => Sys2Proof.Machine.execLinkDown port s
  | .transceiverInsert port level => Sys2Proof.Machine.execTransceiverInsert port level s
  | .svFrameIngest => Sys2Proof.Machine.execSvFrameIngest s
  | .assembly => Sys2Proof.Machine.execAssembly s
  | .recoveryExit group => Sys2Proof.Machine.execRecoveryExit group s
  | .freezeEnd chan => Sys2Proof.Machine.execFreezeEnd chan s
  | .trackingLost group => Sys2Proof.Machine.execTrackingLost group s
  | .comparatorTransition chan k => Sys2Proof.Machine.execComparatorTransition chan k s
  | .gooseRetransmit blk => Sys2Proof.Machine.execGooseRetransmit blk s
  | .gooseReceive => Sys2Proof.Machine.execGooseReceive s
  | .gooseSupervisionExpire blk => Sys2Proof.Machine.execGooseSupervisionExpire blk s
  | .logicCycleBoundary prog => Sys2Proof.Machine.execLogicCycleBoundary prog s
  | .logicExecutionPeriod => Sys2Proof.Machine.execLogicExecutionPeriod s
  | .ringReceiveDelivery ring => Sys2Proof.Machine.execRingReceiveDelivery ring s
  | .ringHoldExpire ring => Sys2Proof.Machine.execRingHoldExpire ring s
  | .ringTransmitRead ring => Sys2Proof.Machine.execRingTransmitRead ring s
  | .ringTransmitComplete frame => Sys2Proof.Machine.execRingTransmitComplete frame s
  | .ringCompletionPost ring => Sys2Proof.Machine.execRingCompletionPost ring s
  | .engineItemStallRelease tag => Sys2Proof.Machine.execEngineItemStallRelease tag s
  | .energyIncrementApply => Sys2Proof.Machine.execEnergyIncrementApply s
  | .pulseOutStart out => Sys2Proof.Machine.execPulseOutStart out s
  | .pulseOutEnd out => Sys2Proof.Machine.execPulseOutEnd out s
  | .pulseInEdge inp => Sys2Proof.Machine.execPulseInEdge inp s
  | .phaseSequenceChange point => Sys2Proof.Machine.execPhaseSequenceChange point s
  | .missingNeutralChange point => Sys2Proof.Machine.execMissingNeutralChange point s
  | .periodicSave => Sys2Proof.Machine.execPeriodicSave s
  | .umberSvReceive => Sys2Proof.Machine.execUmberSvReceive s
  | .umberStreamTimeout sub => Sys2Proof.Machine.execUmberStreamTimeout sub s
  | .healthWordReceive => Sys2Proof.Machine.execHealthWordReceive s
  | .healthWordAbsent => Sys2Proof.Machine.execHealthWordAbsent s
  | .tripOutMinTimeExpire out => Sys2Proof.Machine.execTripOutMinTimeExpire out s
  | .umberGooseRetransmit blk => Sys2Proof.Machine.execUmberGooseRetransmit blk s
  | .powerFail => Sys2Proof.Machine.execPowerFail s
  | .powerFailSequenceComplete => Sys2Proof.Machine.execPowerFailSequenceComplete s
  | .mainOvervoltage => Sys2Proof.Machine.execMainOvervoltage s
  | .mainPowerReturn => Sys2Proof.Machine.execMainPowerReturn s
  | .holdLoss => Sys2Proof.Machine.execHoldLoss s
  | .holdRegain => Sys2Proof.Machine.execHoldRegain s
  | .vioLoss => Sys2Proof.Machine.execVioLoss s
  | .vioReturn => Sys2Proof.Machine.execVioReturn s
  | .resetInRelease => Sys2Proof.Machine.execResetInRelease s
  | .resetInLong => Sys2Proof.Machine.execResetInLong s
  | .strapChange slotId apex => Sys2Proof.Machine.execStrapChange slotId apex s
  | .thermalWarningAssert temp => Sys2Proof.Machine.execThermalWarningAssert temp s
  | .thermalWarningDeassert => Sys2Proof.Machine.execThermalWarningDeassert s
  | .thermalShutdown => Sys2Proof.Machine.execThermalShutdown s
  | .thermalRecover => Sys2Proof.Machine.execThermalRecover s
  | .memoryError region word => Sys2Proof.Machine.execMemoryError region word s
  | .domainFault domain cause => Sys2Proof.Machine.execDomainFault domain cause s
  | .restartEffective => Sys2Proof.Machine.execRestartEffective s
  | .wake => Sys2Proof.Machine.execWake s
  | .domainStartComplete domain => Sys2Proof.Machine.execDomainStartComplete domain s
  | .startPhaseTimeout domain => Sys2Proof.Machine.execStartPhaseTimeout domain s
  | .startRetry domain => Sys2Proof.Machine.execStartRetry domain s
  | .dispatcherReady => Sys2Proof.Machine.execDispatcherReady s
  | .fwStartTimeout => Sys2Proof.Machine.execFwStartTimeout s
  | .sliceFillComplete => Sys2Proof.Machine.execSliceFillComplete s
  | .sliceResetComplete tag => Sys2Proof.Machine.execSliceResetComplete tag s
  | .hueMigrationSwitch tag => Sys2Proof.Machine.execHueMigrationSwitch tag s
  | .eventRecordStage => Sys2Proof.Machine.execEventRecordStage s
  | .suppressionSummary code => Sys2Proof.Machine.execSuppressionSummary code s
  | .stagingFlush => Sys2Proof.Machine.execStagingFlush s
  | .eventFlashMove n => Sys2Proof.Machine.execEventFlashMove n s
  | .eventImageEnter => Sys2Proof.Machine.execEventImageEnter s
  | .evrWindowFillComplete core => Sys2Proof.Machine.execEvrWindowFillComplete core s
  | .chordHeartbeatSend => Sys2Proof.Machine.execChordHeartbeatSend s
  | .chordHeartbeatReceive p => Sys2Proof.Machine.execChordHeartbeatReceive p s
  | .arcWordSend => Sys2Proof.Machine.execArcWordSend s
  | .arcWordReceive w => Sys2Proof.Machine.execArcWordReceive w s
  | .livenessSend => Sys2Proof.Machine.execLivenessSend s
  | .livenessReceive port f => Sys2Proof.Machine.execLivenessReceive port f s
  | .pathLost arc => Sys2Proof.Machine.execPathLost arc s
  | .bothPathsLost => Sys2Proof.Machine.execBothPathsLost s
  | .livenessAbsent => Sys2Proof.Machine.execLivenessAbsent s
  | .startingListenEnd => Sys2Proof.Machine.execStartingListenEnd s
  | .mirrorSend => Sys2Proof.Machine.execMirrorSend s
  | .mirrorFrameReceive p => Sys2Proof.Machine.execMirrorFrameReceive p s
  | .mirrorIncomplete => Sys2Proof.Machine.execMirrorIncomplete s
  | .resyncCopySend => Sys2Proof.Machine.execResyncCopySend s
  | .resyncCopyReceive p => Sys2Proof.Machine.execResyncCopyReceive p s
  | .twinSelfTest fail => Sys2Proof.Machine.execTwinSelfTest fail s
  | .twinHealthReport => Sys2Proof.Machine.execTwinHealthReport s
  | .enumerationStart => Sys2Proof.Machine.execEnumerationStart s
  | .enumInChange level => Sys2Proof.Machine.execEnumInChange level s
  | .chainOfferReceive p => Sys2Proof.Machine.execChainOfferReceive p s
  | .chainJoinReceive p => Sys2Proof.Machine.execChainJoinReceive p s
  | .chainEndReceive p => Sys2Proof.Machine.execChainEndReceive p s
  | .chainJoinTimeout => Sys2Proof.Machine.execChainJoinTimeout s
  | .neighbourSend => Sys2Proof.Machine.execNeighbourSend s
  | .chainLinkLost down => Sys2Proof.Machine.execChainLinkLost down s
  | .chainLinkRestored down => Sys2Proof.Machine.execChainLinkRestored down s
  | .secondApexOffer p => Sys2Proof.Machine.execSecondApexOffer p s
  | .relayRequestReceive p => Sys2Proof.Machine.execRelayRequestReceive p s
  | .relayResponseReceive p => Sys2Proof.Machine.execRelayResponseReceive p s
  | .relayTimeout => Sys2Proof.Machine.execRelayTimeout s
  | .inDoubtResolve => Sys2Proof.Machine.execInDoubtResolve s
  | .healthFrameSend => Sys2Proof.Machine.execHealthFrameSend s
  | .healthFrameReceive p => Sys2Proof.Machine.execHealthFrameReceive p s
  | .sessionOpen box cert => Sys2Proof.Machine.execSessionOpen box cert s
  | .sessionClose box cause => Sys2Proof.Machine.execSessionClose box cause s
  | .sessionIdleTimeout box => Sys2Proof.Machine.execSessionIdleTimeout box s
  | .mailboxSegment h code p => Sys2Proof.Machine.execMailboxSegment h code p s
  | .segmentTimeout box => Sys2Proof.Machine.execSegmentTimeout box s
  | .responseTimeout box => Sys2Proof.Machine.execResponseTimeout box s
  | .m2SegmentRetry => Sys2Proof.Machine.execM2SegmentRetry s
  | .mailboxNotify tag => Sys2Proof.Machine.execMailboxNotify tag s
  | .cfgCopyWritten ok => Sys2Proof.Machine.execCfgCopyWritten ok s
  | .cfgCommitDeadline => Sys2Proof.Machine.execCfgCommitDeadline s
  | .cfgCommitApply => Sys2Proof.Machine.execCfgCommitApply s
  | .attestSignComplete => Sys2Proof.Machine.execAttestSignComplete s
  | .umberStatusFrame => Sys2Proof.Machine.execUmberStatusFrame s
  | .memoryErrorClear => Sys2Proof.Machine.execMemoryErrorClear s
  | .umberSupplyLost => Sys2Proof.Machine.execUmberSupplyLost s
  | .dbgPresentChange present => Sys2Proof.Machine.execDbgPresentChange present s
  | .ptpMessageSend => Sys2Proof.Machine.execPtpMessageSend s
  | .neighbourFrameReceive down p => Sys2Proof.Machine.execNeighbourFrameReceive down p s

end Sys2Proof.Machine
end

