-- ==== Sys2Proof/Machine/Window.lean ====
section
/-! DEFINITION. What a read of a register of the slice window returns (R6, R44 to R46, R132, R196 to R203, R222 to R226, R292, R293,
R400, R401, R465, R466). -/
namespace Sys2Proof.Machine
open Sys2Proof

/-- The registers of the slice window but DSP_FETCH, whose read is a command of its own and returns at a grant. -/
inductive WinReg where
  | slwTick | slwFramePtr | slwTimeS | slwTimeNs
  | dspSubmit | dspSubmitStatus | dspCancel | dspCancelStatus | dspBudget
  | rdbTail (pos : Fin 64) | rdbHead (pos : Fin 64)
  | mbxDoorbell | mbxStatus
  | evrCursor | evrStatus | evrSlot (word : Fin 512)
  | spaIndex | spaValue | spaMeta | spaSec | spaCmd | spaStatus | spaBurstList | spaBurstBuf | spaBurstCmd | spaBurstStatus
  deriving DecidableEq, Repr

/-- The register at an offset of the window; the spec gives SLW_TICK and SLW_FRAME_PTR no offset. -/
def winRegAt (off : Nat) : Option WinReg :=
  if 0x0200 ≤ off ∧ off < 0x0600 then
    let pos := Fin.ofNat 64 ((off - 0x0200) / 16)
    if off % 16 = 0 then some (.rdbTail pos) else if off % 16 = 8 then some (.rdbHead pos) else none
  else if 0x1000 ≤ off ∧ off < 0x2000 then
    if off % 8 = 0 then some (.evrSlot (Fin.ofNat 512 ((off - 0x1000) / 8))) else none
  else match off with
    | 0x0010 => some .slwTimeS
    | 0x0018 => some .slwTimeNs
    | 0x0108 => some .dspSubmit
    | 0x0110 => some .dspSubmitStatus
    | 0x0118 => some .dspCancel
    | 0x0120 => some .dspCancelStatus
    | 0x0128 => some .dspBudget
    | 0x0800 => some .mbxDoorbell
    | 0x0808 => some .mbxStatus
    | 0x0C00 => some .evrCursor
    | 0x0C08 => some .evrStatus
    | 0x2000 => some .spaIndex
    | 0x2008 => some .spaValue
    | 0x2010 => some .spaMeta
    | 0x2018 => some .spaSec
    | 0x2020 => some .spaCmd
    | 0x2028 => some .spaStatus
    | 0x2040 => some .spaBurstList
    | 0x2048 => some .spaBurstBuf
    | 0x2050 => some .spaBurstCmd
    | 0x2058 => some .spaBurstStatus
    | _ => none

/-- DSP_BUDGET of a running item: the whole slots of its window left after the current one, OVER once its last slot has passed, and
BORROWED (R201). A window carried over a grid restart has passed. -/
def budgetWord (m : Mach) (r : Running) : BitVec 64 :=
  let past := 256 ≤ r.e || r.tick * 256 + r.e < slotIndex m
  .ofNat 64 (b2n r.borrowed * 2 ^ 17 + b2n past * 2 ^ 16 + (if past then 0 else r.tick * 256 + r.e - slotIndex m))

/-- EVR_STATUS of a window; of one never filled every field is zero (R401). -/
def evrStatusWord (w : EvrWin) : BitVec 64 :=
  .ofNat 64 (b2n w.busy * 2 ^ 63 + b2n w.past * 2 ^ 62 + b2n w.live * 2 ^ 61 + w.filled)

/-- What a core's read of a register returns while it runs an item: the current value of a register that only reads, the last value of one
that is written and read, zero of one that only takes writes (R6). -/
def readReg (m : Mach) (core : Fin 32) (r : Running) : WinReg → BitVec 64
  | .slwTick => .ofNat 64 (((getSlice m r.tag).map (·.slwTick)).getD 0)
  | .slwFramePtr => .ofNat 64 (((getSlice m r.tag).map (·.framePtr)).getD 0)
  | .slwTimeS => m.time.clock.sec
  | .slwTimeNs => tgetD m.time.latch core.val 0
  | .dspSubmit => 0
  | .dspSubmitStatus => (getPair m core r.tag).submit
  | .dspCancel => 0
  | .dspCancelStatus => (getPair m core r.tag).cancel
  | .dspBudget => budgetWord m r
  | .rdbTail _ => 0
  | .rdbHead pos => ((ringAt m r.tag pos).map fun g => headWord (getRing m g)).getD 0
  | .mbxDoorbell => 0
  | .mbxStatus => boxWord m r.tag
  | .evrCursor => ((tget m.evr.wins (core.val * 128 + r.tag)).map (·.cursor)).getD 0
  | .evrStatus => ((tget m.evr.wins (core.val * 128 + r.tag)).map evrStatusWord).getD 0
  | .evrSlot word => ((tget m.evr.wins (core.val * 128 + r.tag)).map fun w => if w.busy then 0 else tgetD w.words word.val 0).getD 0
  | .spaIndex => (getSpa m core r.tag).index
  | .spaValue => (getSpa m core r.tag).value
  | .spaMeta => (getSpa m core r.tag).meta_
  | .spaSec => (getSpa m core r.tag).sec
  | .spaCmd => 0
  | .spaStatus => (getSpa m core r.tag).status.setWidth 64
  | .spaBurstList => 0
  | .spaBurstBuf => 0
  | .spaBurstCmd => 0
  | .spaBurstStatus =>
    .ofNat 64 ((getSpa m core r.tag).burstStatus.toNat * 2 ^ 56 + (getSpa m core r.tag).burstDone)

end Sys2Proof.Machine
end

