-- ==== Sys2Proof/Safety.lean ====
section
/-! DEFINITION. What a safe run is, and the words the statements are made in: parts of the state for frames, acceptance of a
message, how an answer is delivered, what acceptance of a scheduled change leaves. -/
namespace Sys2Proof
open Sys2Proof.Machine

/-- A step goes on: it neither faults nor is refused. -/
def Goes (s : State) : Prop := ∃ t, step s = .next t

/-- A core waits at its fetch, or runs an item; it never does both. -/
def CoresFit (m : Mach) : Prop := ∀ c ∈ m.cpu.cores, c.fetching = true → c.run = none

/-- What every step keeps of a module: memory in canonical form (R157), a nanoseconds part below a second (R31), 32 cores, none of which
fetches while it runs an item, the 13 MAC ports P0 to P12, and one delay list for each slice. -/
structure Sound (m : Mach) : Prop where
  mem : memWf m.mem = true
  ns : m.time.clock.ns.toNat < nsPerSec
  cores : m.cpu.cores.length = 32
  fetch : CoresFit m
  ports : m.net.ports.map Prod.fst = List.range 13
  delay : tabWf m.cpu.delay = true

/-- The invariant of the state. -/
def StateInv (s : State) : Prop := Sound s.m

/-- The command answers the state whose module is `m'` and whose queue is as it was. -/
def Makes (c : Instr) (s : State) (m' : Mach) : Prop := exec c s = .next { s with m := m' }

-- Frames

/-- A part of the module's state. -/
inductive Part where
  | dom | ident | time | evr | mbx | sec | chn | twn | net | svi | flt | cpu | sig | lge | eng | umb | mem | free | quiet
  deriving DecidableEq, Repr

/-- A part is as it was; of memory, every byte reads as it did. -/
def Part.Kept (a b : Mach) : Part → Prop
  | .dom => b.dom = a.dom
  | .ident => b.ident = a.ident
  | .time => b.time = a.time
  | .evr => b.evr = a.evr
  | .mbx => b.mbx = a.mbx
  | .sec => b.sec = a.sec
  | .chn => b.chn = a.chn
  | .twn => b.twn = a.twn
  | .net => b.net = a.net
  | .svi => b.svi = a.svi
  | .flt => b.flt = a.flt
  | .cpu => b.cpu = a.cpu
  | .sig => b.sig = a.sig
  | .lge => b.lge = a.lge
  | .eng => b.eng = a.eng
  | .umb => b.umb = a.umb
  | .mem => ∀ x, memRead b.mem x = memRead a.mem x
  | .free => b.free = a.free
  | .quiet => b.quiet = a.quiet

/-- From `a` to `b` only the parts listed may have changed. -/
def Only (l : List Part) (a b : Mach) : Prop := ∀ p, p ∉ l → p.Kept a b

/-- The records of some events, each a code, a tag and a payload, are on their way to the umber domain, stamped with the time and the time
quality of `b`; nothing else of the recorder has changed (R393). -/
def Raises (l : List (Nat × Nat × Bytes)) (a b : Mach) : Prop :=
  b.evr = { a.evr with arrivals := a.evr.arrivals ++ l.map fun e =>
    { code := e.1, tag := e.2.1, time := eventTime b, tq := timeQuality b.time, payload := e.2.2.take 32 } }

-- Messages

/-- A message finds its mailbox open and passes every check of R471. -/
def Accepts (c : Cmd) (m : Mach) (h : Hdr) (p : Bytes) : Prop := boxOpen m h.box = true ∧ judge c m h p = 0

/-- The frames that carry one segment of a mailbox message over a chain port (R449). -/
def relayFrames (m : Mach) (rseq : BitVec 32) (msg : Bytes) : List Stored :=
  let n := max 1 (cdiv msg.length relayChunk)
  (List.range n).map fun i =>
    innerFrame (unitFrame chainMac m 10 (chainHdr m 0x14 0 ++
      (fields [(4, rseq.toNat), (1, i), (1, n), (1, 1), (1, 0)] ++ slice msg (i * relayChunk) relayChunk))) 2 10 [(10, 2)] false none 0 (now m)

/-- The frame that carries a segment of a response to the twin (R468). -/
def twinFrame (m : Mach) (msg : Bytes) : Stored :=
  innerFrame (unitFrame twinMac m 8 (fields [(1, 0x20), (1, 1), (6, 0)] ++ msg)) 2 8 [(8, 2)] false none 0 (now m)

/-- The segments of a response. -/
def segmentsOf (r : Response) : List Bytes := (List.range (segCount r)).map (segBytes r)

/-- What the CP keeps of a session after it has answered a request (R461, R463). -/
def sessionAfter (h : Hdr) (r : Response) (m : Mach) (s : Session) : Session :=
  { s with
    answered := some { code := r.code, seq := r.seq, segment := h.segment.toNat, resp := r }
    more := if 1 < segCount r ∧ boxTag h.box ≠ 0 then some 0 else none
    ref := if boxTag h.box ≠ 0 then m.time.ref else s.ref }

/-- Response `r` to a request is stored as the mailbox's answer and has gone the way its mailbox takes it, and from `a` to `b`
nothing else has changed: on M0 and M3 it is the session's answer; on a slice mailbox its first segment stands in the response
buffer (R464, R466); on M1 it goes upward in relay frames (R449); on M2 in twin frames (R468). -/
structure Delivered (h : Hdr) (r : Response) (a b : Mach) : Prop where
  mbx : b.mbx = { a.mbx with sess := b.mbx.sess, boxes := b.mbx.boxes }
  answer : tget b.mbx.sess (boxIx h.box) = (tget a.mbx.sess (boxIx h.box)).map (sessionAfter h r a)
  others : ∀ i, i ≠ boxIx h.box → tget b.mbx.sess i = tget a.mbx.sess i
  way : match h.box with
    | .slice t =>
      Only [.mbx, .mem] a b ∧
      (∀ i, i ≠ t.val → tget b.mbx.boxes i = tget a.mbx.boxes i) ∧
      tget b.mbx.boxes t.val = some { tgetD a.mbx.boxes t.val boxInit with
        state := if 1 < segCount r ∧ t.val ≠ 0 then 3 else 2, seq := r.seq, segment := 0
        notify := if bit h.flags.toNat 2 then some (h.status.toNat, r.seq.toNat, r.status) else none } ∧
      (∀ i, (hi : i < (segBytes r 0).length) → memRead b.mem (boxKey t.val 0x8000 + i) = (segBytes r 0)[i]) ∧
      (∀ x, (x < boxKey t.val 0x8000 ∨ boxKey t.val 0x8000 + (segBytes r 0).length ≤ x) → memRead b.mem x = memRead a.mem x)
    | .m1 =>
      Only [.mbx, .chn, .net] a b ∧ b.mbx.boxes = a.mbx.boxes ∧
      b.chn = { a.chn with
        asked := a.chn.asked.filter fun e => e.1 != askedUnder r a
        outcomes := ((askedUnder r a, segBytes r 0) :: a.chn.outcomes).take 256 } ∧
      b.net = { a.net with inner := a.net.inner ++ (segmentsOf r).flatMap (relayFrames b (askedUnder r a)) }
    | .m2 =>
      Only [.mbx, .net] a b ∧ b.mbx.boxes = a.mbx.boxes ∧
      b.net = { a.net with inner := a.net.inner ++ (segmentsOf r).map (twinFrame b) }
    | .m0 _ => Only [.mbx] a b ∧ b.mbx.boxes = a.mbx.boxes
    | .m3 => Only [.mbx] a b ∧ b.mbx.boxes = a.mbx.boxes

/-- The response to a request: CODE, SEQ, TARGET and the slice's tag as in the request, with an apply tick, a status, the role under
which it was judged, and a payload (R461). A response to an SLC_ADMIT that stands for a CHN_PLACE bears that command's code (R454). -/
def answerOf (code : Nat) (h : Hdr) (role : BitVec 32) (apply status : Nat) (payload : Bytes) (m : Mach) : Response :=
  { code := if code = 0x0602 ∧ (boxIx h.box, h.seq) ∈ m.mbx.places then 0x1102 else code
    seq := h.seq, target := h.target, slice := boxTag h.box, apply := apply, status := status, role := role, payload := payload }

/-- The payload of an event about an accepted or scheduled command: code, mailbox, session number, SEQ, role, status, reserved, tick. -/
def cmdFields (code : Nat) (h : Hdr) (role : BitVec 32) (apply status : Nat) (m : Mach) : Bytes :=
  le 2 code ++ le 1 (boxIx h.box) ++ le 1 (((tget m.mbx.sess (boxIx h.box)).map (·.num)).getD 0) ++ le 4 h.seq.toNat ++
    le 4 role.toNat ++ le 2 status ++ le 2 0 ++ le 8 apply

/-- The entry of the schedule that an accepted change is. -/
def entryOf (code : Nat) (h : Hdr) (p resp : Bytes) (n : Tick) (m : Mach) : Change :=
  { order := m.mbx.accepted, apply := n, code := code, hdr := h, role := roleOf m h, payload := p, resp := resp, deferred := h.apply == 0 }

/-- Acceptance of a change for tick `n` leaves it last in the schedule and event 0x0101 raised. With an apply tick in its header it is
answered 0x0001; without one its answer waits for the tick, and a slice mailbox shows that it executes (R25, R26, R473). -/
def Scheduled (code : Nat) (h : Hdr) (p resp : Bytes) (n : Tick) (a b : Mach) : Prop :=
  let role := roleOf a h
  let st := if h.apply = 0 then 0 else 1
  ∃ mid : Mach,
    mid = { a with
      evr := mid.evr
      mbx := { a.mbx with
        accepted := a.mbx.accepted + 1
        scheduled := a.mbx.scheduled ++ [entryOf code h p resp n a] } } ∧
    Raises [(0x0101, boxTag h.box, cmdFields code h role n st a)] a mid ∧
    (h.apply ≠ 0 → Delivered h (answerOf code h role n 1 resp mid) mid b) ∧
    (h.apply = 0 → b = { mid with mbx := { mid.mbx with boxes := b.mbx.boxes } } ∧
      match h.box with
      | .slice t =>
        (∀ i, i ≠ t.val → tget b.mbx.boxes i = tget a.mbx.boxes i) ∧
        tget b.mbx.boxes t.val = some { tgetD a.mbx.boxes t.val boxInit with state := 1, seq := h.seq }
      | .m0 _ => b.mbx.boxes = a.mbx.boxes
      | .m1 => b.mbx.boxes = a.mbx.boxes
      | .m2 => b.mbx.boxes = a.mbx.boxes
      | .m3 => b.mbx.boxes = a.mbx.boxes)

/-- The end of the UTC day in which a leap flag was received, by the offset in force (R41). -/
def leapInstant (m : Mach) : Ns := ((((m.time.run.leapDay + 1) * 86400 : Nat) : Int) + m.time.utcOffset).toNat * nsPerSec

/-- A PTP frame of the CP for a port, with its transmit timestamp asked for (R36). -/
def ptpFrame (m : Mach) (p : Nat) (peer : Bool) (msg : PtpMsg) : Stored :=
  let f : Frame :=
    { dmac := ptpMac peer, smac := portMac m p, tags := [], etype := 0x88F7, len := 64, prp := none, body := .ptp msg, payload := [] }
  { innerFrame f 5 15 [(p, 5)] false none 0 (now m) with stamp := true }

/-- The Announce of a port that is a master: the module's own priorities, quality and identity, or those of the grandmaster it follows,
one step further away (R36). -/
def announceMsg (m : Mach) : PtpMsg :=
  let r := m.time.run
  match r.master with
  | none =>
    .announce m.time.cfg.domain ((portMac m 0).setWidth 64 <<< 16) m.time.cfg.prio1 m.time.cfg.prio2 0xF8FEFFFF 0 m.time.utcOffset
      r.utcValid r.leap61 r.leap59 (ownTlvs m)
  | some x =>
    .announce m.time.cfg.domain x.gm (x.key.getD 0 0) (x.key.getD 2 0) (x.key.getD 1 0) (x.key.getD 4 0 + 1) m.time.utcOffset
      r.utcValid r.leap61 r.leap59 (ownTlvs m)

/-- What the CP sends on a PTP port at a message interval: a Pdelay_Req, and as a master a two-step Sync and an Announce, numbered with the
interval. -/
def ptpIntervalFrames (m : Mach) (p : Nat) : List Stored :=
  let d := m.time.cfg.domain
  let n := m.time.run.seq % 65536
  ptpFrame m p true (.pdelayReq d n) ::
    if masterPort m p then [ptpFrame m p false (.sync d n true (now m) 0), ptpFrame m p false (announceMsg m)] else []

/-- The outcome of an offset that a message of the master gives, with what waits for it taken off: it is measured and counted toward
synchronisation; one above four times the lock threshold begins excursion holdover, and one above the step threshold asks for a step at the
next tick boundary (R35, R38). -/
def OffsetTaken (off : Int) (a b : Mach) : Prop :=
  let t := a.time
  let good := if off.natAbs ≤ t.cfg.lock then t.run.good + 1 else 0
  Only [.time] a b ∧ b.time.clock = t.clock ∧ b.time.increment = t.increment ∧ b.time.run.lastOffset = off ∧ b.time.run.good = good ∧
    b.time.run.syncRef = t.run.syncRef ∧ b.time.run.syncs = t.run.syncs ∧
    (t.state = .synchronised → 4 * t.cfg.lock < off.natAbs →
      b.time.state = .holdover ∧ b.time.holdKind = .excursion ∧ b.time.holdRef = t.ref ∧ b.time.holds = t.holds + 1) ∧
    (t.state = .synchronised → off.natAbs ≤ 4 * t.cfg.lock → b.time.state = .synchronised ∧ b.time.holds = t.holds) ∧
    (t.state ≠ .synchronised → b.time.state = if 8 ≤ good then .synchronised else t.state) ∧
    (t.cfg.step * 1000 < off.natAbs → t.run.step = none → stepScheduled a = false → t.gridOn = true →
      b.time.run.step = some ((tickStart t.grid (t.tick + 1) : Int) - off).toNat) ∧
    (off.natAbs ≤ t.cfg.step * 1000 → b.time.run.step = t.run.step)

/-- The module with what the running PTP has in hand changed. -/
def ptpRunSet (f : PtpRun → PtpRun) (m : Mach) : Mach := { m with time := { m.time with run := f m.time.run } }

/-- The module when the next message interval has come: at once where none was sent, else an interval after the last (R36). -/
def intervalCome (m : Mach) : Mach :=
  let m := passCycles ((m.time.run.sentRef.map (· + ptpPeriod)).getD m.time.ref - m.time.ref) m
  ptpRunSet (fun r => { r with sentRef := some m.time.ref, seq := r.seq + 1 }) m

/-- The module with a master heard on a port in place of what was heard there before. -/
def heardOn (port : Nat) (x : Master) (m : Mach) : Mach :=
  { m with time := { m.time with run := { m.time.run with heard := x :: m.time.run.heard.filter fun y => y.port != port } } }

/-- The module with frames given to the switch. -/
def withFrames (l : List Stored) (m : Mach) : Mach := { m with net := { m.net with inner := m.net.inner ++ l } }

/-- A read: a command answered at once with a snapshot of the module. -/
structure ReadRow where
  make : Hdr → Bytes → Instr
  cmd : Cmd
  reply : Hdr → Bytes → Mach → Bytes

/-- The reads that change nothing, each with what its response carries. -/
def readRows : List ReadRow := [
  ⟨.timeStatus, timeStatus, fun _ _ => timeStatusBytes⟩,
  ⟨.dspLatRead, dspLatRead, fun _ p m =>
    let l := if rd 1 p 0 = 1 then m.cpu.staged else m.cpu.lattice
    fields [(1, b2n l.shared), (1, l.period), (6, 0)] ++ (latRow l (rd 1 p 1) (rd 1 p 2)).flatMap fun e => le 2 e.toNat⟩,
  ⟨.sigPointRead, sigPointRead, fun h p m =>
    let es := pointsFrom m (boxTag h.box) (rd 4 p 4) (rd 4 p 0)
    fields [(4, es.length), (4, 0)] ++ es.flatten⟩,
  ⟨.macRuleStatus, macRuleStatus, fun _ p m =>
    match getPort m (rd 1 p 0) with
    | none => []
    | some x => (List.range 65).flatMap fun i => ruleBytes (ruleOf x i)⟩,
  ⟨.lgeForceList, lgeForceList, fun h p m =>
    let all := visibleForces m (boxTag h.box)
    let es := (all.filter fun e => rd 2 p 0 ≤ e.1).take 256
    fields [(2, es.length), (2, all.length), (4, 0)] ++ es.flatMap fun e => forceBytes e.1 e.2⟩,
  ⟨.engIoRead, engIoRead, fun _ _ => engIoBytes⟩,
  ⟨.evrRead, evrRead, fun h p => evrReadBytes (boxTag h.box) p⟩,
  ⟨.chnStatus, chnStatus, fun _ _ => chnStatusBytes⟩,
  ⟨.chnCap, chnCap, fun _ _ => chnCapBytes⟩,
  ⟨.sysIdent, sysIdent, fun _ _ => identBytes⟩,
  ⟨.sysStatus, sysStatus, fun _ _ => statusBytes⟩,
  ⟨.sysCapRead, sysCapRead, fun _ => capBytes⟩,
  ⟨.cfgExport, cfgExport, fun _ p m =>
    le 8 (exported m).length ++ padTo 64 (runDigest m) ++ slice (exported m) (rd 8 p 0) (rd 4 p 8)⟩,
  ⟨.cfgStatus, cfgStatus, fun _ _ => cfgStatusBytes⟩,
  ⟨.secStatus, secStatus, fun _ _ => secStatusBytes⟩
]

/-- A read that clears counters where bit 0 of a byte of its request is set. -/
structure ClearRow where
  make : Hdr → Bytes → Instr
  cmd : Cmd
  reply : Bytes → Mach → Bytes
  /-- The offset of the byte whose bit 0 clears. -/
  flag : Nat
  /-- The module with the counters cleared. -/
  cleared : Bytes → Mach → Mach

/-- The status commands with counters: what the response carries, and what their clearing clears. -/
def clearRows : List ClearRow := [
  ⟨.sviSubStatus, sviSubStatus, fun p => subStatus (rd 2 p 0), 2, fun p m =>
    if rd 2 p 0 = 0xFFFF then { m with svi := { m.svi with ports := [] } }
    else onSub (rd 2 p 0) (fun s => { s with run := { s.run with ctrs := ctrClear s.run.ctrs 25 } }) m⟩,
  ⟨.rscGroupStatus, rscGroupStatus, fun p m =>
    let g := (getGroup m (rd 1 p 0)).getD groupInit
    let x := if g.cuts = [] then g else { g with inUse := bankNow g, swap := none, pending := none }
    let l := leadOf m (rd 1 p 0) (bankOf x (bankInUse x))
    let num (f : Bank → Nat) (b : Option Bank) : Nat := (b.map f).getD 0
    fields [(1, b2n x.enabled + 2 * b2n x.swap.isSome + 4 * b2n x.pending.isSome +
        8 * b2n (swapScheduled m (rd 1 p 0) || x.due != []) + 16 * b2n (decide (m.time.hold < l.2))), (1, bankInUse x),
      (1, (x.swap.map (·.len)).getD 0), (1, (x.swap.map (·.done)).getD 0), (4, x.inRate), (1, bankByte x.bankA),
      (1, bankByte x.bankB), (1, num (·.ntaps) x.bankA), (1, num (·.ntaps) x.bankB), (1, num (·.ahead) x.bankA),
      (1, num (·.ahead) x.bankB), (2, 0), (8, num (·.id.toNat) x.bankA), (8, num (·.id.toNat) x.bankB), (4, l.1), (4, l.2)] ++
      ctrBytes x.ctrs 6, 1, fun p m => onGroup (rd 1 p 0) (fun x => { x with ctrs := ctrClear x.ctrs 6 }) m⟩,
  ⟨.estGroupStatus, estGroupStatus, fun p m =>
    let gi := rd 1 p 0
    let g := (getGroup m gi).getD groupInit
    let frozen := ((groupChans m gi).filter fun c => (getChan m c).frozen).length
    let left := if g.enabled && g.recovery then recoveryTicks g.est m.time.grid.rate - g.good else 0
    fields [(1, b2n g.enabled + 2 * b2n g.est.commissioning + 4 * b2n (g.enabled && g.recovery) + 8 * b2n g.est.settle +
        16 * b2n (tracks m gi g && !g.lost)), (1, 0), (2, if g.enabled then frozen else 0), (4, g.ft.toNat), (4, left), (4, 0)] ++
      ctrBytes g.estCtrs 6, 1, fun p m => onGroup (rd 1 p 0) (fun x => { x with estCtrs := ctrClear x.estCtrs 6 }) m⟩,
  ⟨.estFrameStatus, estFrameStatus, fun p => frameStatusBytes (rd 1 p 0), 1, fun p m =>
    onSlice (rd 1 p 0) (fun x => { x with frameCtrs := ctrClear x.frameCtrs 5 }) m⟩,
  ⟨.slcStatus, slcStatus, fun p => slcStatusBytes (rd 1 p 0), 1, fun p m =>
    onSlice (rd 1 p 0) (fun s => { s with ctrs := ctrClear s.ctrs 12 }) m⟩,
  ⟨.dspStatus, dspStatus, fun p m =>
    let t := rd 1 p 0
    fields [(4, (readyItems m t).length), (4, (getDelay m t).length), (4, readyMin m t), (4, delayQuota m t)] ++
      ctrBytes (((getSlice m t).map (·.dspCtrs)).getD []) 10, 1, fun p m =>
    onSlice (rd 1 p 0) (fun s => { s with dspCtrs := ctrClear s.dspCtrs 10 }) m⟩,
  ⟨.sigPubStatus, sigPubStatus, fun p m =>
    let n := tgetD m.sig.nums (rd 2 p 0) (0, 0)
    match tget m.sig.pubs (rd 2 p 0) with
    | none => []
    | some b => fields [(4, n.1.toNat), (4, n.2.toNat), (8, b.m)] ++ ctrBytes b.ctrs 6, 2, fun p m =>
    { m with sig := { m.sig with pubs := tmap m.sig.pubs fun k b => if k = rd 2 p 0 then { b with ctrs := ctrClear b.ctrs 6 } else b } }⟩,
  ⟨.sigSubStatus, sigSubStatus, fun p m =>
    match tget m.sig.gsubs (rd 2 p 0) with
    | none => []
    | some b =>
      fields [(1, b2n (gsubOn b.entry) + 2 * b2n b.expiry.isSome + 4 * b2n b.authFail + 8 * b2n b.inSim), (3, 0),
        (4, b.st.toNat), (4, b.sq.toNat), (4, 0)] ++ ctrBytes b.ctrs 10, 2, fun p m =>
    { m with sig := { m.sig with gsubs := tmap m.sig.gsubs fun k b => if k = rd 2 p 0 then { b with ctrs := ctrClear b.ctrs 10 } else b } }⟩,
  ⟨.swcQueueStatus, swcQueueStatus, fun p m =>
    let key := queueKey (rd 1 p 0) (rd 2 p 2)
    let q := getQueue m.net key
    fields [(4, occTotal m.net key), (4, min q.rmin (drawn m.net (.queue (key / 512) (key % 512)))), (4, q.rmin), (1, toTwos 8 q.k),
      (3, 0)] ++ ctrBytes q.ctrs 9, 1, fun p m =>
    onQueue (queueKey (rd 1 p 0) (rd 2 p 2)) (fun q => { q with ctrs := ctrClear q.ctrs 9 }) m⟩,
  ⟨.macPortStatus, macPortStatus, fun p m =>
    match getPort m (rd 1 p 0) with
    | none => []
    | some x =>
      let classes := (List.range 8).filter (stopped x)
      let storm := x.pauses.any fun e => e.2.ignore.isSome
      fields [(1, b2n x.cfg.enabled + 2 * b2n x.link + 4 * b2n x.preTx + 8 * b2n x.preRx + 16 * b2n (!classes.isEmpty) + 32 * b2n storm),
        (1, x.cfg.speed), (1, x.cfg.fec), (1, (classes.map (2 ^ ·)).sum), (4, guardBytes x), (4, toTwos 32 (corrOf x).1),
        (4, toTwos 32 (corrOf x).2)] ++ ctrBytes x.ctrs 28, 1, fun p m =>
    onPort (rd 1 p 0) (fun x => { x with ctrs := ctrClear x.ctrs 28 }) m⟩,
  ⟨.hdmaRingStatus, hdmaRingStatus, fun p m =>
    let x := getRing m (rd 2 p 0)
    fields [(1, b2n x.enabled + 2 * b2n x.tx + 4 * b2n x.starved + 8 * b2n x.armed + 16 * b2n (x.owner == some 0)),
      (1, ringTag x), (1, x.pos.getD 0xFF), (1, x.s), (4, x.head.toNat), (4, x.tail.toNat), (4, x.pend)] ++ ctrBytes x.ctrs 13, 2,
    fun p m => onRing (rd 2 p 0) (fun x => { x with ctrs := ctrClear x.ctrs 13 }) m⟩,
  ⟨.lgeStatus, lgeStatus, fun p m => lgeStatusBytes m (rd 1 p 0), 1, fun p m =>
    onProg (rd 1 p 0) (fun g => { g with ctrs := ctrClear g.ctrs 6, maxSteps := 0 }) m⟩,
  ⟨.engRead, engRead, fun p => engReadBytes (rd 1 p 0), 1, fun p m =>
    onMeter (rd 1 p 0) (fun x => { x with ctrs := ctrClear x.ctrs 5 }) m⟩,
  ⟨.umbStatus, umbStatus, fun _ => umbStatusBytes, 0, fun _ m => { m with umb := { m.umb with ctrs := ctrClear m.umb.ctrs 8 } }⟩,
  ⟨.evrInfo, evrInfo, fun _ => evrInfoBytes, 0, fun _ m => { m with evr := { m.evr with ctrs := ctrClear m.evr.ctrs 6 } }⟩,
  ⟨.twnStatus, twnStatus, fun _ => twnStatusBytes, 0, fun _ m => { m with twn := { m.twn with ctrs := ctrClear m.twn.ctrs 10 } }⟩
]

/-- The command is a change that takes effect at a tick, accepted with a response payload that is a function of the module as it will
stand then. -/
structure ChangeRow where
  make : Hdr → Bytes → Instr
  cmd : Mach → Cmd
  reply : Bytes → Mach → Bytes

/-- The changes that enter the schedule and nothing else, each with its command and its response payload (R12, R25). -/
def changeRows : List ChangeRow := [
  ⟨.sviSubSet, fun _ => sviSubSet, subReply⟩,
  ⟨.sviChanSet, fun _ => sviChanSet, fun _ => noReply⟩,
  ⟨.rscGroupSet, fun _ => rscGroupSet, groupReply⟩,
  ⟨.rscBankLoad, fun _ => rscBankLoad, fun _ => noReply⟩,
  ⟨.rscSwap, fun _ => rscSwap, fun _ => noReply⟩,
  ⟨.estGroupSet, fun _ => estGroupSet, estReply⟩,
  ⟨.estFreeze, fun _ => estFreeze, fun _ => noReply⟩,
  ⟨.estRelease, fun _ => estFreeze, fun _ => noReply⟩,
  ⟨.slcHueSet, fun _ => slcHueSet, fun _ => noReply⟩,
  ⟨.slcStart, fun _ => slcStart, fun _ => noReply⟩,
  ⟨.slcStop, fun _ => slcStop, fun _ => noReply⟩,
  ⟨.slcReset, fun _ => slcReset, fun _ _ => le 16 0⟩,
  ⟨.slcRemove, fun _ => slcRemove, fun _ => noReply⟩,
  ⟨.slcResourceSetRegionSize, fun _ => slcRegion, fun _ => noReply⟩,
  ⟨.slcResourceSetRingAssign, fun _ => slcRingAssign, fun _ => noReply⟩,
  ⟨.slcResourceSetRingRelease, fun _ => slcRingRelease, fun _ => noReply⟩,
  ⟨.slcResourceSetSwitchShare, fun _ => slcShare, fun _ => noReply⟩,
  ⟨.slcResourceSetReady, fun _ => slcReady, fun _ => noReply⟩,
  ⟨.slcSubSet, fun _ => slcSubSet, fun _ => noReply⟩,
  ⟨.slcRightsGrant, fun _ => slcRights 0, fun _ => noReply⟩,
  ⟨.slcRightsRevoke, fun _ => slcRights 1, fun _ => noReply⟩,
  ⟨.slcMemRelease, fun _ => slcMemRelease, fun _ => noReply⟩,
  ⟨.dspHandlerEnable, fun _ => dspHandlerSet, fun _ => noReply⟩,
  ⟨.dspHandlerDisable, fun _ => dspHandlerSet, fun _ => noReply⟩,
  ⟨.sigRangeSet, fun _ => sigRangeSet, fun _ => noReply⟩,
  ⟨.sigPubSet, fun _ => sigPubSet, fun _ => noReply⟩,
  ⟨.sigSubSet, fun _ => sigSubSet, fun _ => noReply⟩,
  ⟨.sigCurveSet, fun _ => sigCurveSet, fun _ => noReply⟩,
  ⟨.swcBufSet, fun _ => swcBufSet, fun _ => noReply⟩,
  ⟨.swcQueueSet, fun _ => swcQueueSet, fun _ => noReply⟩,
  ⟨.swcPortSet, fun _ => swcPortSet, fun _ => noReply⟩,
  ⟨.macPortSet, fun _ => macPortSet, fun _ => noReply⟩,
  ⟨.macRuleSet, fun _ => macRuleSet, fun _ => noReply⟩,
  ⟨.hdmaRingSet, fun _ => hdmaRingSet, fun _ => noReply⟩,
  ⟨.hdmaRingsetSet, fun _ => hdmaRingsetSet, fun _ => noReply⟩,
  ⟨.lgeProgLoad, fun _ => lgeProgLoad, loadReply false⟩,
  ⟨.lgeProgExchange, fun _ => lgeProgExchange, loadReply true⟩,
  ⟨.lgeProgSet, fun _ => lgeProgSet, fun _ => noReply⟩,
  ⟨.lgeRestartWarm, fun _ => lgeRestart, fun _ => noReply⟩,
  ⟨.lgeRestartCold, fun _ => lgeRestart, fun _ => noReply⟩,
  ⟨.engPointSet, fun _ => engPointSet, fun _ => noReply⟩,
  ⟨.engPulseOutSet, fun _ => engPulseOutSet, fun _ => noReply⟩,
  ⟨.engPulseInSet, fun _ => engPulseInSet, fun _ => noReply⟩,
  ⟨.umbStreamSet, fun _ => umbStreamSet, fun _ => noReply⟩,
  ⟨.umbElemSet, fun _ => umbElemSet, fun _ => noReply⟩,
  ⟨.umbTripSet, fun _ => umbTripSet, fun _ => noReply⟩,
  ⟨.umbPubSet, fun _ => umbPubSet, fun _ => noReply⟩,
  ⟨.umbConfigSet, fun _ => umbConfigSet, fun _ => noReply⟩,
  ⟨.evrCodeSet, fun _ => evrCodeSet, fun _ => noReply⟩,
  ⟨.evrClear, evrClear, fun _ _ => le 8 0⟩,
  ⟨.sysHoldoffSet, fun _ => sysHoldoffSet, holdReply⟩,
  ⟨.timeStep, timeStep, stepReply⟩,
  ⟨.timePtpSet, fun _ => timePtpSet, fun _ => noReply⟩,
  ⟨.secKeyLoad, fun _ => secKeyLoad, keyReply⟩
]


-- Commands that take effect at once, and commands of a pair

/-- Event 0x0101 of an accepted message is raised, and nothing else has changed (R473). -/
def Announced (code : Nat) (h : Hdr) (apply status : Nat) (a b : Mach) : Prop :=
  b = { a with evr := b.evr } ∧ Raises [(0x0101, boxTag h.box, cmdFields code h (roleOf a h) apply status a)] a b

/-- A command that is accepted, carried out and answered 0x0000 in one step. -/
structure NowRow where
  make : Hdr → Bytes → Instr
  cmd : Cmd
  /-- The payloads that name this form of the command. -/
  form : Bytes → Bool
  reply : Hdr → Mach → Bytes
  act : Hdr → Bytes → Mach → Mach

/-- A key fingerprint as an event carries it: its first 30 bytes. -/
def fingerStart (b : Bytes) : Bytes := (padTo 64 (shake256 b)).take 30

/-- The commands that take effect at once, each with what it does. -/
def nowRows : List NowRow := [
  ⟨.cfgStageOpen, cfgStage, fun p => rd 1 p 0 == 0, fun _ _ => [], fun h p m =>
    { m with sec := { m.sec with staging := some { owner := boxIx h.box, kind := rd 1 p 1, len := rd 8 p 8, data := [] } } }⟩,
  ⟨.cfgStageWrite, cfgStage, fun p => rd 1 p 0 == 1, fun _ _ => [], fun _ p m =>
    { m with sec := { m.sec with staging := m.sec.staging.map fun s =>
      { s with data := padTo (rd 8 p 8) s.data ++ p.drop 16 ++ s.data.drop (rd 8 p 8 + (p.drop 16).length) } } }⟩,
  ⟨.cfgStageDiscard, cfgStage, fun p => rd 1 p 0 == 2, fun _ _ => [], fun _ _ m =>
    { m with sec := { m.sec with staging := none } }⟩,
  ⟨.cfgImageStore, cfgImageStore, fun _ => true, fun h m => le 8 (((stagedFor m h [1, 2]).map fun e => rd 8 e 8).getD 0), fun h _ m =>
    match stagedFor m h [1, 2] with
    | none => m
    | some e => { m with sec := { m.sec with
        images := (m.sec.images.filter fun x =>
          !(x.kind == rd 1 e 4 && x.tenant == rd 1 e 5 && x.id == .ofNat 64 (rd 8 e 8))) ++ [imageAt e] } }⟩,
  ⟨.cfgImageDelete, cfgImageDelete, fun _ => true, fun _ _ => [], fun _ p m =>
    { m with sec := { m.sec with images := m.sec.images.filter fun i => !(i.kind == rd 1 p 0 && i.id == .ofNat 64 (rd 8 p 8)) } }⟩,
  ⟨.secOwnerSlotProgram, secOwnerSlot, fun p => rd 1 p 1 == 0, fun _ _ => [], fun _ p m =>
    let n := raise 0x1301 0 (le 1 (rd 1 p 0) ++ le 1 0) m
    { n with sec := { m.sec with owners := tset m.sec.owners (rd 1 p 0) (.active (shake256 (slice p 8 64))) } }⟩,
  ⟨.secOwnerSlotRevoke, secOwnerSlot, fun p => rd 1 p 1 == 1, fun _ _ => [], fun _ p m =>
    let n := raise 0x1301 0 (le 1 (rd 1 p 0) ++ le 1 1) m
    { n with
      sec := { m.sec with owners := tset m.sec.owners (rd 1 p 0) (.revoked ((slotDigest m (rd 1 p 0)).getD [])) }
      mbx := { m.mbx with sess := tmap m.mbx.sess fun k s =>
        let g := s.grants.filter fun y => y.1 != rd 1 p 0
        if k < 64 then { s with grants := g, rights := g.foldl (fun a y => a ||| y.2) 1 } else s } }⟩,
  ⟨.secTlsAnchorSet, secTlsSet, fun p => rd 1 p 0 == 0, fun _ _ => [], fun _ p m =>
    raise 0x1304 0 (le 2 (rd 1 p 1) ++ fingerStart (p.drop 8))
      { m with sec := { m.sec with anchors := tset m.sec.anchors (rd 1 p 1) (p.drop 8) } }⟩,
  ⟨.secTlsAnchorClear, secTlsSet, fun p => rd 1 p 0 == 1, fun _ _ => [], fun _ p m =>
    raise 0x1304 0 (le 2 (rd 1 p 1)) { m with sec := { m.sec with anchors := terase m.sec.anchors (rd 1 p 1) } }⟩,
  ⟨.secTlsModuleCert, secTlsSet, fun p => rd 1 p 0 == 2, fun _ _ => [], fun _ p m =>
    raise 0x1304 0 (le 2 0xFFFF ++ fingerStart (p.drop 8)) { m with sec := { m.sec with cert := p.drop 8 } }⟩,
  ⟨.secFwInstall, secFwInstall, fun _ => true, fun h m => le 8 (((stagedFor m h [3]).map fun e => rd 8 e 8).getD 0), fun h p m =>
    match stagedFor m h [3] with
    | none => m
    | some e => raise 0x1302 0 (le 1 0 ++ le 7 0 ++ le 8 (rd 8 e 8)) { m with sec := { m.sec with
        fwPend := some { version := rd 8 e 8, digest := slice e 64 64, secver := rd 4 e 24 }
        raiseFloor := bit (rd 1 p 0) 0
        fwTrying := false } }⟩,
  ⟨.dspLatLoad, dspLatLoad, fun _ => true, fun _ _ => [], fun _ p m =>
    { m with
      cpu := { m.cpu with
        staged := (List.range (256 * rd 1 p 2)).foldl (fun l i =>
          latSet l (rd 1 p 0) (rd 1 p 1 + i / 256) (i % 256) (.ofNat 16 (rd 2 p (8 + 2 * i)))) m.cpu.staged
        loadedPages := if m.cpu.loadedPages.contains (rd 1 p 0) then m.cpu.loadedPages else rd 1 p 0 :: m.cpu.loadedPages }
      sec := { m.sec with journal := m.sec.journal ++ [{ code := 0x0701, tick := m.time.tick, payload := p, tag := 0 }] } }⟩
]

/-- A change that both members of a pair make (R415). -/
structure PairRow where
  make : Hdr → Bytes → Instr
  cmd : Cmd
  /-- The status that a refusal by the partner gives. -/
  refuse : Nat
  reply : Hdr → Bytes → Mach → Bytes

/-- The forwarded changes. -/
def pairRows : List PairRow := [
  ⟨.lgeForceSet, lgeForce, 0x020D, forceAnswer⟩,
  ⟨.lgeForceRemove, lgeForce, 0x020D, forceAnswer⟩,
  ⟨.engPresetRegister, engPreset 0, 0x0207, fun _ _ => noReply⟩,
  ⟨.engPresetPulseInput, engPreset 1, 0x0207, fun _ _ => noReply⟩,
  ⟨.twnPairSet, twnPairSet, 0x0207, fun _ _ => noReply⟩,
  ⟨.twnQuotaSet, twnQuotaSet, 0x0207, fun _ _ => noReply⟩
]

/-- A forwarded command on its way to the partner: a twin frame with the request's first segment, for the partner itself and under the
role of the session; a TWN_PAIR_SET names its sender as the partner (R415, R468). -/
def forwardFrame (f : Forward) (m : Mach) : Stored :=
  let p := if f.code = 0x1001 then f.payload.set 1 (.ofNat 8 (m.chn.addr.getD 0xFF)) else f.payload
  twinFrame m (reqSegment f.code { f.hdr with target := 0xFE } f.role f.apply p 0)

/-- A command is forwarded: it waits for the partner's answer, its first segment is on its way, and nothing else has changed. -/
def Forwarded (f : Forward) (a b : Mach) : Prop :=
  b = { a with mbx := { a.mbx with forward := a.mbx.forward ++ [f] }, net := { a.net with inner := a.net.inner ++ [forwardFrame f a] } }

/-- The outcome of an announcement to the twin that this module will yield at a tick: an active member with a clean partner, heard on one
of the paths, yields then, one without raises event 0x1009, and any other module does nothing (R420, R430). The TWN_SWITCH that asks for it
waits with it. -/
def YieldsAt (asked : Option (Hdr × BitVec 32)) (f : Tick) (a b : Mach) : Prop :=
  if a.twn.cfg.on = true ∧ a.twn.role = .active then
    (if a.twn.partner.heard = true ∧ a.twn.partner.clean = true ∧ (a.twn.chordSilent < a.twn.cfg.k ∨ a.twn.arcSilent < a.twn.cfg.k) then
       b = { a with twn := { a.twn with yield := some f, switch := asked } }
     else Only [.evr] a b ∧ Raises [(0x1009, 0, le 1 0 ++ le 7 0 ++ le 8 f)] a b)
  else b = a

/-- A command that is answered with its refusal alone (R471). -/
structure MsgRow where
  make : Hdr → Bytes → Instr
  cmd : Mach → Cmd

/-- TIME_RATE as it is judged: with every scheduled change made (R48). -/
def rateCmd (m : Mach) : Cmd :=
  { timeRate m with proj := fun m _ =>
      let x := project m ((m.mbx.scheduled.map (·.apply)).foldl max m.time.tick)
      { x with time := { x.time with tick := m.time.tick } } }

/-- The message rows and what each is judged as, but for SYS_ROLE_GRANT, whose refusals raise an event too, and for the hue change, whose
refusal 0x0209 names a tick. -/
def msgRows : List MsgRow :=
  readRows.map (fun r => ⟨r.make, fun _ => r.cmd⟩) ++ clearRows.map (fun r => ⟨r.make, fun _ => r.cmd⟩) ++
  changeRows.map (fun r => ⟨r.make, fun m => atEffect (r.cmd m)⟩) ++ nowRows.map (fun r => ⟨r.make, fun _ => r.cmd⟩) ++
  pairRows.map (fun r => ⟨r.make, fun _ => atEffect r.cmd⟩) ++ [
  ⟨.timeRate, rateCmd⟩, ⟨.slcAdmit, fun m => atEffect (slcAdmit m)⟩, ⟨.dspLatApply, fun m => atEffect (dspLatApply m)⟩,
  ⟨.secTlsReadPublicKey, fun _ => secTlsSet⟩, ⟨.sysRestartCold, fun _ => sysRestart⟩, ⟨.sysRestartModule, fun _ => sysRestart⟩,
  ⟨.sysRestartCompute, fun _ => sysRestart⟩, ⟨.sysRestartSleep, fun _ => sysRestart⟩, ⟨.sysRestartSleepFabric, fun _ => sysRestart⟩,
  ⟨.twnSwitch, fun _ => twnSwitch⟩, ⟨.chnEnumerate, fun _ => chnEnumerate⟩, ⟨.chnPlace, fun _ => chnPlace⟩,
  ⟨.secAttest, fun _ => secAttest⟩, ⟨.cfgCommit, fun _ => cfgCommit⟩, ⟨.swcStatus, fun _ => swcStatus⟩]

/-- The event record that gives the reason of a refusal for a settle time that does not fit (R108): command, mailbox, session number, SEQ,
role, status and apply tick. Its code is the model's free value (log entry 10). -/
def refusalRecord (code status : Nat) (h : Hdr) (m : Mach) : Nat × Nat × Bytes :=
  (openCode Config.refusalCode, boxTag h.box, fields [(2, code), (1, boxIx h.box),
    (1, ((tget m.mbx.sess (boxIx h.box)).map (·.num)).getD 0), (4, h.seq.toNat), (4, (roleOf m h).toNat), (2, status), (2, 0), (8, h.apply)])

/-- A slice with its suspensions left out of account. -/
def bareSlice (s : Slice) : Slice := { s with suspended := 0 }

/-- Slices are as they were, but for what suspends the guarantee (R166). -/
def SameSlices (a b : Tab Slice) : Prop := ∀ t, (tget b t).map bareSlice = (tget a t).map bareSlice

-- The dispatcher

/-- The compute unit with item `i` entered on the lists of slice `tag`, which is `x`: with the slice's next handle, at the tail of the ready
list of its priority, or, if its due slot is still to come, in the delay list behind those due no later, and before what a later operation of
the same cycle has put there (R180, R184, R185). -/
def entered (tag : Nat) (i : Item) (x : Slice) (m : Mach) : Compute :=
  let i := { i with handle := x.nextHandle, cyc := m.time.ref, rank := cycleRank i }
  let ready := i.due ≤ cycleIndex m
  { m.cpu with
    slices := tset m.cpu.slices tag { x with nextHandle := if x.nextHandle + 1 = 0 then 1 else x.nextHandle + 1 }
    ready := if ready then putList m.cpu.ready (readyKey tag i.prio) (linsert sooner i (getReady m tag i.prio)) else m.cpu.ready
    delay := if ready then m.cpu.delay
      else putList m.cpu.delay tag (linsert (fun a b => decide (a.due < b.due) || (a.due == b.due && sooner a b)) i (getDelay m tag)) }

/-- The module as an operation of the dispatcher finds it: in the cycle of a slot boundary that the clock has reached, what is due has been
released (R184, R185). -/
def inItsCycle (m : Mach) : Mach := if (computeReady m && boundaryCycle m) = true then releaseAll (cycleIndex m) m else m

/-- The fills, with the instant at which the first began; where it is only now the first, it begins now (R537). -/
def startedFills (t : Ns) : List Fill → List Fill
  | [] => []
  | f :: r => { f with start := some (f.start.getD t) } :: r

/-- A slice that a request admits from an image, with the pages that hold its regions (R154, R159). -/
def admitted (r : AdmitReq) (i : Image) (n : Tick) (m : Mach) : Slice :=
  let x := newSlice r i n
  { x with regions := withPages x.regions (placeRegions m r.hue n x.regions) }

/-- The status pair of a core and slice rewritten. -/
def pairSet (core tag : Nat) (f : DspPair → DspPair) (c : Compute) : Compute :=
  { c with pairs := tset c.pairs (pairKey core tag) (f (tgetD c.pairs (pairKey core tag) pairInit)) }

/-- The counters of slice rewritten, if it is there. -/
def sliceSet (tag : Nat) (f : Slice → Slice) (c : Compute) : Compute :=
  match tget c.slices tag with
  | none => c
  | some x => { c with slices := tset c.slices tag (f x) }

/-- The status pairs when item `i` of a slice comes to a new state: its submitter's submit status, if it still names the item (R202). -/
def followed (tag : Nat) (i : Item) (code : Nat) (c : Compute) : Compute :=
  if i.src = .slice ∧ statusHandle (tgetD c.pairs (pairKey i.core tag) pairInit).submit = i.handle then
    pairSet i.core tag (fun p => { p with submit := statusWord code i.handle }) c
  else c

/-- The compute unit when the item of a core ends with a status code: the core's fetch is pending, the slice counts the item, and the
submitter's status shows the code (R190, R193). -/
def retired (core : Fin 32) (code : Nat) (r : Running) (c : Compute) : Compute :=
  let d := followed r.tag r.item code (sliceSet r.tag (fun x => { x with dspCtrs := bump x.dspCtrs 1 }) c)
  { d with cores := lmod c.cores core.val fun k => { k with fetching := true, run := none } }

/-- A slice that a fault or an abort is counted for: those of the last second count, and with as many as FLIM it is to be reset at the
next tick boundary (R173). -/
def faulted (ctr : Nat) (m : Mach) (x : Slice) : Slice :=
  let l := (x.faults ++ [now m]).filter fun t => now m < t + 1000000000
  { x with
    ctrs := bump x.ctrs ctr
    faults := l
    resetAt := if x.flim ≠ 0 ∧ x.flim ≤ l.length ∧ x.state ≠ .resetting ∧ x.resetAt = none then some (m.time.tick + 1) else x.resetAt }

-- Signals

/-- The module with the access registers of a core and slice as given (R222). -/
def withSpa (core tag : Nat) (x : Spa) (m : Mach) : Mach :=
  { m with sig := { m.sig with spa := tset m.sig.spa (core * 128 + tag) x } }

/-- A point of a range that names `tag` as its owner, with the type and length that a staged write was made for (R218). -/
def StillOwned (m : Mach) (tag i : Nat) (e : StagedPt) : Prop :=
  ∃ r, rangeOf m.sig i = some r ∧ r.ownerKind = 1 ∧ r.owner = tag ∧ r.ty = e.ty ∧ r.len = e.len


-- The chain and the mailboxes

/-- A frame of the chain unit on P10, or downward on P11: its header of the sender's address, the destination and the enumeration number,
and a body (R441). -/
def chainOut (m : Mach) (down : Bool) (cls subtype dst : Nat) (body : Bytes) : Stored :=
  let p := if down then 11 else 10
  innerFrame (unitFrame chainMac m p (chainHdr m subtype dst ++ body)) cls p [(p, cls)] false none 0 (now m)

/-- A chain frame passed on unchanged. -/
def chainPass (m : Mach) (down : Bool) (cls : Nat) (p : Bytes) : Stored :=
  let port := if down then 11 else 10
  innerFrame (unitFrame chainMac m port p) cls port [(port, cls)] false none 0 (now m)

/-- The module when some reference cycles have passed since cycle `ref`; it is as it is if they have passed already. -/
def afterCycles (ref cycles : Nat) (m : Mach) : Mach := passCycles (ref + cycles - m.time.ref) m

/-- The module with its chain state rewritten. -/
def withChn (f : Chain → Chain) (m : Mach) : Mach := { m with chn := f m.chn }

/-- The module with a session rewritten. -/
def withSess (b : Box) (x : Session) (m : Mach) : Mach := { m with mbx := { m.mbx with sess := tset m.mbx.sess (boxIx b) x } }

/-- The payload of a request segment as its way in carries it: on the serial link with the CRC of header and payload behind it (R468). -/
def onWire (code : Nat) (h : Hdr) (p : Bytes) : Bytes := if h.box = .m3 then p ++ le 4 (crc32 (hdrBytes code h ++ p)) else p

/-- Event 0x0107 of a message abandoned, or of the rest of a response discarded (R463). -/
def abandoned (box : Nat) (seq : BitVec 32) (m : Mach) : Nat × Nat × Bytes :=
  (0x0107, box - 64, fields [(1, box), (1, ((tget m.mbx.sess box).map (·.num)).getD 0), (2, 0), (4, seq.toNat)])

/-- The module with the registers of a slice mailbox rewritten (R466). -/
def withBox (t : Nat) (f : SliceBox → SliceBox) (m : Mach) : Mach :=
  { m with mbx := { m.mbx with boxes := tset m.mbx.boxes t (f (tgetD m.mbx.boxes t boxInit)) } }

/-- The module with bytes written into memory from an address up. -/
def withBytes (a : Nat) (b : Bytes) (m : Mach) : Mach := { m with mem := memPut m.mem a b }

/-- A slot of a window reads as a record: its eight words are the record's bytes (R391, R403). -/
def Shows (w : EvrWin) (i : Nat) (r : Rec) : Prop := ∀ j, j < 8 → tgetD w.words (8 * i + j) 0 = .ofNat 64 (rd 8 (eventBytes r) (8 * j))

-- Rings, logic, energy

/-- The module with a ring, a program, a metering point or a pulse output as given. -/
def withRing (r : Nat) (x : Ring) (m : Mach) : Mach := { m with net := { m.net with rings := tset m.net.rings r x } }
def withProg (i : Nat) (g : Program) (m : Mach) : Mach := { m with lge := { m.lge with progs := tset m.lge.progs i g } }
def withMeter (i : Nat) (x : Meter) (m : Mach) : Mach := { m with eng := { m.eng with meters := tset m.eng.meters i x } }
def withOut (o : Nat) (x : PulseOut) (m : Mach) : Mach := { m with eng := { m.eng with outs := tset m.eng.outs o x } }
def withIn (i : Nat) (x : PulseIn) (m : Mach) : Mach := { m with eng := { m.eng with ins := tset m.eng.ins i x } }

/-- The module with the value that a core's last read of a window register returned. -/
def withRead (core : Fin 32) (v : BitVec 64) (m : Mach) : Mach :=
  { m with cpu := { m.cpu with cores := lmod m.cpu.cores core.val fun c => { c with rdata := v } } }

-- The switch and the MACs

/-- The module with a port, or a pause state of a class of a port, as given. -/
def withPort (p : Nat) (x : Port) (m : Mach) : Mach := { m with net := { m.net with ports := tset m.net.ports p x } }
def withPause (p c : Nat) (a : Pause) (x : Port) (m : Mach) : Mach := withPort p { x with pauses := tset x.pauses c a } m

/-- A port after the MAC has counted a frame at its end (R267, R286): it was the preemptable one that was coming in, or the express one. -/
def counted (x : Port) (f : RxFrame) : Port :=
  { x with
    ctrs := bumpBy (bumpBy (bump x.ctrs 0) 1 f.frame.len) 20 ((f.fragments.map (·.1)).getD 0)
    swCtrs := bump x.swCtrs 0
    incoming := if f.preemptable = true ∧ x.preRx = true then x.incoming else none
    inPre := if f.preemptable = true ∧ x.preRx = true then false else x.inPre }

/-- A port after the MAC has counted a pause frame of 64 bytes at its end (R286). -/
def heard64 (x : Port) : Port := { x with ctrs := bumpBy (bump x.ctrs 0) 1 64, swCtrs := bump x.swCtrs 0 }

/-- The module with a frame counted that PU discards while the fabric does not run (R367). -/
def withPuOther (m : Mach) : Mach := { m with umb := { m.umb with ctrs := bump m.umb.ctrs 4 } }

/-- A class that is stopped from now on for a number of quanta, whether it was before or not (R280). -/
def StopsFor (x : Port) (q : Nat) (now : Ns) (a b : Pause) : Prop :=
  b.until_ = some (now + quantaNs x q) ∧ b.waiting = a.waiting ∧ b.ignore = a.ignore ∧
    b.since = if a.until_.isSome then a.since else some now

/-- A port has begun to send a frame of its queues, that is no longer in its queue (R274). -/
def Begins (p : Nat) (k : Candidate) (a b : Mach) : Prop :=
  (getPort b p).bind (·.sending) = some { id := k.id, cls := k.cls, start := now a, left := k.bytes, sent := 0, cut := false, owed := false } ∧
    b.time = a.time ∧ k.id ∉ (getQueue b.net (queueKey p k.cls)).goose ∧ k.id ∉ (getQueue b.net (queueKey p k.cls)).other

-- The twin

/-- A frame of the twin unit on P8 (R416). -/
def twinOut (m : Mach) (cls : Nat) (launch : BitVec 64) (payload : Bytes) : Stored :=
  innerFrame (unitFrame twinMac m 8 payload) cls 8 [(8, cls)] false none launch (now m)

/-- The module with its twin state rewritten. -/
def withTwn (f : Twin → Twin) (m : Mach) : Mach := { m with twn := f m.twn }

/-- The twin state when a word from the partner has named its role, announcement, clean state, acknowledgement and epoch (R418, R431). -/
def toldBy (role : Role) (ann : Nat) (clean ack : Bool) (epoch : Nat) (t : Twin) : Twin :=
  { t with
    partner := { t.partner with role := role, announce := ann, clean := clean, ack := ack, epoch := .ofNat 64 epoch, heard := true }
    failNow := t.failNow || ann == 2
    epoch := if t.role = .standby ∧ role = .active then .ofNat 64 epoch else t.epoch }

/-- The module with its domains' state rewritten. -/
def withDom (f : Domains → Domains) (m : Mach) : Mach := { m with dom := f m.dom }

/-- Some event of a code and a payload is among those on their way. -/
def Told (code : Nat) (payload : Bytes) (m : Mach) : Prop := ∃ e ∈ m.evr.arrivals, e.code = code ∧ e.payload = payload

-- Domains

/-- Nothing keeps the lower domains in reset: main power is there and connected, and neither RESET_IN_N, a power-fail sequence, a halt nor
a thermal shutdown holds them (R500, R503, R530). -/
def Unhindered (m : Mach) : Prop :=
  m.dom.resetHeld = false ∧ m.umb.fail = none ∧ m.umb.halted = false ∧ m.dom.main = true ∧ m.dom.disconnected = false ∧
    m.dom.shutdown = false

/-- A domain has been put into a state, unless it is without supply. -/
def PutInto (st : DomState) (d : Nat) (a b : Mach) : Prop := domState d b = if domState d a = .off then .off else st

/-- A domain does not run: it is without supply, in reset or starting anew. -/
def IsDown (d : Nat) (m : Mach) : Prop := domState d m ≠ .running ∧ domState d m ≠ .sleeping

-- Scheduled changes at their tick

/-- What a scheduled change does to its object. -/
structure EffectRow where
  code : Nat
  /-- The journal carries it (R486). -/
  journal : Bool
  act : Bytes → Mach → Mach

/-- Changes and what each makes of its object. -/
def effectRows : List EffectRow := [
  ⟨0x0103, true, fun p m => { m with
    time := { m.time with
      hold := rd 4 p 0 * 1000
      asm := m.time.asm.map fun d => if d.grid = m.time.grid ∧ m.time.tick ≤ d.tick then { d with d := d.t + rd 4 p 0 * 1000 } else d } }⟩,
  ⟨0x0502, false, fun p m => onGroup (rd 1 p 2) (fun g => { g with
    cmds := g.cmds ++ [(tickAt m m.time.tick, if rd 2 p 0 = 0xFFFF then none else some (rd 2 p 0), rd 1 p 3 == 1, rd 2 p 4)] }) m⟩,
  ⟨0x0611, true, fun p m => onSlice (rd 1 p 0) (fun s => { s with
    subsDue := s.subsDue ++ [(tickAt m m.time.tick, rdList 2 (rd 2 p 2) p 8)] }) m⟩,
  ⟨0x0704, true, fun p m => onSlice (rd 1 p 0) (fun s => { s with
    handlers := lmod s.handlers (rd 2 p 2) fun h => { h with enabled := rd 1 p 1 == 1 } }) m⟩,
  ⟨0x0804, true, fun p m => { m with sig := { m.sig with curves := tset m.sig.curves (rd 1 p 0) (rdList 2 (rd 1 p 1) p 8) } }⟩,
  ⟨0x0901, true, fun p m => noteFree m { m with net := { m.net with
    sliceLimit := rd 4 p 0
    ports := tmap m.net.ports fun i x => { x with headroom := rd 4 p (8 + 4 * i) } } }⟩,
  ⟨0x0902, true, fun p m =>
    let k := queueKey (rd 1 p 0) (rd 2 p 2)
    noteFree m { m with net := { m.net with
      queues := tset m.net.queues k { getQueue m.net k with rmin := rd 4 p 4, k := ofTwos 8 (rd 1 p 8) } } }⟩,
  ⟨0x0903, true, fun p m => onPort (rd 1 p 0) (fun x => { x with cutThrough := rd 1 p 1 == 1 }) m⟩,
  ⟨0x0B02, true, fun p m => { m with net := { m.net with
    ringSets := if rd 1 p 2 = 0 then terase m.net.ringSets (rd 1 p 0)
      else tset m.net.ringSets (rd 1 p 0) { copy := rd 1 p 1 == 1, rings := rdList 2 (rd 1 p 2) p 8 } } }⟩,
  ⟨0x0D03, true, fun p m => { m with eng := { m.eng with ins := tmod m.eng.ins (rd 1 p 0) inInit fun x => { x with
    enabled := bit (rd 1 p 1) 0, falling := bit (rd 1 p 1) 1, invert := bit (rd 1 p 1) 2, debounce := rd 1 p 2 } } }⟩,
  ⟨0x1002, true, fun p m => { m with twn := { m.twn with quotas := tset m.twn.quotas (rd 1 p 0) (rd 4 p 4) } }⟩
]

/-- Change `c` is the first, by apply tick and then by acceptance, of those scheduled, and its tick has begun (R27). -/
def IsNext (c : Change) (m : Mach) : Prop :=
  controlRuns m = true ∧ c ∈ m.mbx.scheduled ∧ c.apply ≤ m.time.tick ∧
    ∀ d ∈ m.mbx.scheduled, d ≠ c → c.apply < d.apply ∨ (c.apply = d.apply ∧ c.order < d.order)

/-- The module without a scheduled change. -/
def unscheduled (c : Change) (m : Mach) : Mach :=
  { m with mbx := { m.mbx with scheduled := m.mbx.scheduled.filter fun d => d.order != c.order } }

/-- The module when a change is made at its tick: one that another of the same tick and entry follows has no effect of its own (R27); a curve
waits for the assembly of an earlier tick that is still due, so that no operation anchored to that tick sees it (R12). -/
def madeBy (r : EffectRow) (c : Change) (m : Mach) : Mach :=
  if superseded c m = true then m
  else if r.code = 0x0804 ∧ waitsFor c.apply m = true then addLate c.apply c.code c.payload m
  else r.act c.payload m

/-- The module with a change entered in the journal (R486). -/
def journalled (c : Change) (m : Mach) : Mach :=
  { m with sec := { m.sec with
    journal := m.sec.journal ++ [{ code := c.code, tick := m.time.tick, payload := c.payload, tag := boxTag c.hdr.box }] } }

end Sys2Proof
end

