-- ==== Sys2Proof/Certificates/Slice0/Obligations.lean ====
section
/-! DEFINITION. The statements about the model: each a proposition that its docstring puts in words. -/
open Sys2Proof Sys2Proof.Machine

-- The whole module

/-- One step of the block carries out the command at the front of its queue, on the state with the queue's rest. With nothing waiting it
idles: one cycle of the reference passes (the model's choice: log entry 13).

Every command has an effect, and none touches the queue: what waits, waits in order.

What rests on a choice of the model: log entries 1, 13, 33. -/
def Obligations.StepRunsTheFrontCommand : Prop :=
  -- StepRunsTheFrontCommand
  ((∀ c s rest, s.pending = c :: rest → step s = exec c { s with pending := rest }) ∧
   (∀ s, s.pending = [] → step s = .next { s with m := passCycles 1 s.m })) ∧
  -- EveryCommandGoesOn
  (∀ c s, ∃ m, exec c s = .next { s with m := m })

/-- What reset leaves (R500, R24, R31, R38): every domain is held in reset, nothing is scheduled and no session is open, the tick rate is
4800, the hold-off 100 µs, the increment the nominal one, the clock free-running and not loaded; and the invariant holds.

What rests on a choice of the model: log entries 4, 11. -/
def Obligations.ResetLeaves : Prop :=
  StateInv State.reset ∧ State.reset.pending = [] ∧ (∀ d < 4, domState d State.reset.m = .reset) ∧
    State.reset.m.time.grid.rate = 4800 ∧ State.reset.m.time.hold = 100000 ∧ State.reset.m.time.increment = 0x20000000000 ∧
    State.reset.m.time.state = .freeRunning ∧ State.reset.m.time.loaded = false ∧ State.reset.m.mbx.scheduled = [] ∧
    State.reset.m.mbx.sess = [] ∧ State.reset.m.mem = []

/-- The invariant is kept by every step: memory stays in canonical form, the nanoseconds of the clock stay below a second (R31), the module
keeps its 32 cores and its 13 MAC ports, no core fetches while it runs an item, and the delay lists stay in order. -/
def Obligations.EveryStepKeepsTheInvariant : Prop :=
  ∀ s t, StateInv s → step s = .next t → StateInv t

/-- What no command changes: identity and root key; the security version and the reference count never go back; a revoked owner slot stays
revoked with the digest it had, and an active one is only ever revoked, with its digest kept (R1, R482, R495). -/
def Obligations.NothingUndoesWhatIsPermanent : Prop :=
  ∀ s t, step s = .next t → t.m.ident = s.m.ident ∧ t.m.sec.root = s.m.sec.root ∧ s.m.sec.secver ≤ t.m.sec.secver ∧
    s.m.time.ref ≤ t.m.time.ref ∧ (∀ i d, tget s.m.sec.owners i = some (.revoked d) → tget t.m.sec.owners i = some (.revoked d)) ∧
    (∀ i d, tget s.m.sec.owners i = some (.active d) →
      tget t.m.sec.owners i = some (.active d) ∨ tget t.m.sec.owners i = some (.revoked d))

-- Mailbox messages (chapters 01 and 18)

/-- A read that is accepted is answered at once with status 0x0000, its apply tick echoed and a snapshot of the module; nothing else changes.

A status command with counters is answered at once with their values as they stood; they are cleared in the same step if bit 0 of its flag
byte is set, and nothing else changes.

SEC_TLS_SET that asks for the module's public key is answered with it and changes nothing else (R496). SWC_STATUS is answered with a
snapshot of the buffer pool, and the least free bytes start anew at what is free now (R262).

What rests on a choice of the model: log entries 2, 10. -/
def Obligations.ReadsAnswerAtOnce : Prop :=
  -- ReadsAnswerAtOnce
  (∀ r ∈ readRows, ∀ s h p, StateInv s → Accepts r.cmd s.m h p →
     ∃ t, Makes (r.make h p) s t ∧ Delivered h (answerOf r.cmd.code h (roleOf s.m h) h.apply 0 (r.reply h p s.m) s.m) s.m t) ∧
  -- StatusReadsClearOnRequest
  (∀ r ∈ clearRows, ∀ s h p, StateInv s → Accepts r.cmd s.m h p →
     let m := if bit (rd 1 p r.flag) 0 then r.cleared p s.m else s.m
     ∃ t, Makes (r.make h p) s t ∧ Delivered h (answerOf r.cmd.code h (roleOf s.m h) h.apply 0 (r.reply p s.m) s.m) m t) ∧
  -- KeyReadAndPoolStatus
  ((∀ s h p, StateInv s → rd 1 p 0 = 3 → Accepts secTlsSet s.m h p → ∃ t, Makes (.secTlsReadPublicKey h p) s t ∧
     Delivered h (answerOf 0x1303 h (roleOf s.m h) h.apply 0 Config.tlsPublicKey s.m) s.m t) ∧
   (∀ s h p, StateInv s → Accepts swcStatus s.m h p → ∃ t, Makes (.swcStatus h p) s t ∧
     Delivered h (answerOf 0x0910 h (roleOf s.m h) h.apply 0
       (le 4 (poolSize s.m) ++ le 4 (poolFree s.m) ++ le 4 s.m.net.minFree ++ le 4 (sliceReserves s.m) ++
         (s.m.net.ports.flatMap fun e => le 4 (headroomUse e.2 none)) ++ le 4 0 ++ s.m.net.ports.flatMap fun e => ctrBytes e.2.swCtrs 5) s.m)
       { s.m with net := { s.m.net with minFree := poolFree s.m } } t))

/-- A change that is accepted enters the schedule for its apply tick, or for the second tick from now, with event 0x0101; it is answered
0x0001 now, or at its tick where it names none; nothing else changes (R25, R26).

What rests on a choice of the model: log entry 15. -/
def Obligations.ChangesAreScheduled : Prop :=
  ∀ r ∈ changeRows, ∀ s h p, StateInv s → Accepts (atEffect (r.cmd s.m)) s.m h p →
    let n := effTick s.m h
    ∃ t, Makes (r.make h p) s t ∧ Scheduled (r.cmd s.m).code h p (r.reply p (project s.m n)) n s.m t

/-- A message whose mailbox is open and that fails a check of R471 is answered with the status of the first check it fails, with its own
apply tick and no payload; nothing else changes, but that a record tells the reason where a settle time does not fit a rate (R108).

A message to a mailbox that is not open does nothing: no answer, no event, no session (R459).

What rests on a choice of the model: log entries 1, 10, 34. -/
def Obligations.RefusedMessageOnlyAnswers : Prop :=
  -- RefusedMessageOnlyAnswers
  (∀ r ∈ msgRows, ∀ s h p, StateInv s → boxOpen s.m h.box = true → judge (r.cmd s.m) s.m h p ≠ 0 → judge (r.cmd s.m) s.m h p ≠ relayMark →
     let c := r.cmd s.m
     let st := judge c s.m h p
     ∃ mid t, Makes (r.make h p) s t ∧ Delivered h (answerOf c.code h (roleOf s.m h) h.apply st [] s.m) mid t ∧
       (settleRefusal c.code st = false → mid = s.m) ∧
       (settleRefusal c.code st = true → Only [.evr] s.m mid ∧ Raises [refusalRecord c.code st h s.m] s.m mid)) ∧
  -- ClosedMailboxTakesNothing
  (∀ r ∈ msgRows, ∀ s h p, boxOpen s.m h.box = false → Makes (r.make h p) s s.m)

/-- A command of those that take effect at once and is accepted raises event 0x0101, has its effect and is answered 0x0000, with its own
apply tick; nothing else changes (chapters 07, 19).

What rests on a choice of the model: log entries 10, 34. -/
def Obligations.ImmediateCommandsActAtOnce : Prop :=
  ∀ r ∈ nowRows, ∀ s h p, StateInv s → r.form p = true → Accepts r.cmd s.m h p →
    ∃ mid t, Announced r.cmd.code h h.apply 0 s.m mid ∧ Makes (r.make h p) s t ∧
      Delivered h (answerOf r.cmd.code h (roleOf s.m h) h.apply 0 (r.reply h s.m) s.m) (r.act h p mid) t

/-- A change that both members of a pair make (R415): accepted on a module without a partner, or over M2, it enters the schedule as any
change does; accepted otherwise it is forwarded to the partner, with the apply tick both will use, and waits for its answer.

The partner's answer to a forwarded command: accepted there, the command is made here too; refused there, it is answered with the status
of a refusal by the partner (R415). Unanswered for 2 ms a forwarded segment is sent again, five times; then it counts as refused (R468).

What rests on a choice of the model: log entries 10, 15, 33. -/
def Obligations.PairCommandsForwarded : Prop :=
  -- PairCommandsForwarded
  (∀ r ∈ pairRows, ∀ s h p, StateInv s → Accepts (atEffect r.cmd) s.m h p →
     let n := effTick s.m h
     let both := (s.m.twn.cfg.on = true ∨ (r.cmd.code = 0x1001 ∧ bit (rd 1 p 0) 0 = true)) ∧ h.box ≠ .m2
     (¬ both → ∃ t, Makes (r.make h p) s t ∧ Scheduled r.cmd.code h p (r.reply h p s.m) n s.m t) ∧
     (both → ∃ t, Makes (r.make h p) s t ∧ Forwarded
       { code := r.cmd.code, hdr := h, role := roleOf s.m h, payload := p, resp := r.reply h p s.m, apply := n, refuse := r.refuse,
         tries := 1, ref := s.m.time.ref } s.m t)) ∧
  -- PartnerAnswersForwarded
  ((∀ s h (code : BitVec 16) p f, StateInv s → h.box = .m2 → boxOpen s.m .m2 = true → bit h.flags.toNat 0 = true →
     s.m.mbx.forward.find? (fun f => f.code == code.toNat && f.hdr.seq == h.seq) = some f →
     let mid : Mach := { s.m with mbx := { s.m.mbx with forward := s.m.mbx.forward.filter fun g => g != f } }
     (h.status.toNat % 65536 < 2 → f.code ≠ 0x0210 → ∃ t, Makes (.mailboxSegment h code p) s t ∧
       t = enterChange f.code f.hdr f.role f.payload f.resp f.apply mid) ∧
     (2 ≤ h.status.toNat % 65536 → ∃ t, Makes (.mailboxSegment h code p) s t ∧
       Delivered f.hdr (answerOf f.code f.hdr f.role f.hdr.apply f.refuse [] mid) mid t)) ∧
   (∀ s, StateInv s → s.m.mbx.forward ≠ [] → ∃ f ∈ s.m.mbx.forward, (∀ g ∈ s.m.mbx.forward, f.ref ≤ g.ref) ∧
     let m := afterCycles f.ref 1000000 s.m
     (f.tries ≤ 5 →
       let g := { f with tries := f.tries + 1, ref := m.time.ref }
       let mid : Mach := { m with mbx := { m.mbx with forward := m.mbx.forward.map fun y => if y == f then g else y } }
       Makes .m2SegmentRetry s (withFrames [forwardFrame g mid] mid)) ∧
     (5 < f.tries →
       let mid : Mach := { m with mbx := { m.mbx with forward := m.mbx.forward.filter fun y => y != f } }
       ∃ t, Makes .m2SegmentRetry s t ∧ Delivered f.hdr (answerOf f.code f.hdr f.role f.hdr.apply f.refuse [] mid) mid t)))

/-- SLC_ADMIT accepted: the change is scheduled, and everything the slice needs is reserved already: the slice stands under its tag as
arriving at its tick with its regions' pages in its hue, its rings are its own at their positions, and the fill of its memory is due
behind those before it; other slices, rings and fills are as they were (R154, R159, R161, R537).

CHN_PLACE accepted: an image that a member lacks and cannot be given makes it refused 0x0208; else the unit's SLC_ADMIT is carried out as
any is, and answered under CHN_PLACE's code (R454).

What rests on a choice of the model: log entries 2, 10, 15, 29. -/
def Obligations.AdmissionReservesAtAcceptance : Prop :=
  -- AdmissionReservesAtAcceptance
  (∀ s h p, StateInv s → Accepts (atEffect (slcAdmit s.m)) s.m h p →
     let n := effTick s.m h
     let r := admitReq p
     ∃ mid t i, Scheduled 0x0602 h p (admitReply p (project s.m n)) n s.m mid ∧ Makes (.slcAdmit h p) s t ∧
       storedSlice s.m r.id = some i ∧ Only [.cpu, .net, .evr] mid t ∧
       SameSlices (tset s.m.cpu.slices r.tag (admitted r i n s.m)) t.cpu.slices ∧
       t.cpu.fills = startedFills (now s.m) (s.m.cpu.fills ++
         [{ tag := r.tag, kind := .admission, bytes := sliceBytes (admitted r i n s.m), start := none }]) ∧
       (∀ x ∈ r.rings, (getRing t x.2).owner = some r.tag) ∧
       (∀ k, k ∉ r.rings.map Prod.snd → getRing t k = getRing s.m k)) ∧
  -- PlacementAdmitsInTheUnit
  (∀ s h p, StateInv s → Accepts chnPlace s.m h p →
     let m : Mach := { s.m with free := s.m.free + 1 }
     (copyFails (rd 1 p 0) p s.m = true →
       ∃ t, Makes (.chnPlace h p) s t ∧ Delivered h (answerOf 0x1102 h (roleOf s.m h) h.apply 0x0208 [] m) m t) ∧
     (copyFails (rd 1 p 0) p s.m = false →
       let mid : Mach := { m with mbx := { m.mbx with places := (boxIx h.box, h.seq) :: m.mbx.places } }
       ∃ t, exec (.slcAdmit { h with target := .ofNat 8 (0x20 + rd 1 p 0), length := p.length - 8 } (p.drop 8)) ⟨mid, s.pending⟩ =
         .next t ∧ Makes (.chnPlace h p) s t.m))

/-- DSP_LAT_APPLY accepted: scheduled for its tick, and the staged lattice is locked until then; nothing else changes (R204).

A restart accepted is due at its apply tick, or at the second tick from now; event 0x0101 is raised, the twin is told that the module yields
at that tick unless the restart is cold, and the command is answered 0x0001 with the tick (R430, R508, R505). The payload's first byte names
the kind, whichever row brings it.

TWN_SWITCH accepted: the active member announces that it yields at its tick, and the command is answered 0x0001 with that tick; nothing else
changes (R430).

What rests on a choice of the model: log entries 10, 38. -/
def Obligations.LatticeRestartAndSwitchAreScheduled : Prop :=
  -- LatticeLocksUntilItsTick
  (∀ s h p, StateInv s → Accepts (atEffect (dspLatApply s.m)) s.m h p →
     let n := effTick s.m h
     ∃ mid t, Scheduled 0x0702 h p (latReply h p s.m) n s.m mid ∧ Makes (.dspLatApply h p) s t ∧
       t = { mid with cpu := { s.m.cpu with locked := true } }) ∧
  -- RestartIsScheduled
  (∀ c ∈ [Instr.sysRestartCold, .sysRestartModule, .sysRestartCompute, .sysRestartSleep, .sysRestartSleepFabric],
     ∀ s h p, StateInv s → Accepts sysRestart s.m h p →
       let f := effTick s.m h
       ∃ m1 m2 t, Announced 0x0104 h f 1 s.m m1 ∧ Makes (c h p) s t ∧
         (let due : Mach := { m1 with
           dom := { s.m.dom with restart := some { kind := rd 1 p 0, tick := f, wake := rd 4 p 4, hdr := h, role := roleOf s.m h } } }
          if rd 1 p 0 = 1 then m2 = due else YieldsAt none f due m2) ∧
         Delivered h (answerOf 0x0104 h (roleOf s.m h) f 1 (le 8 f) s.m) m2 t) ∧
  -- SwitchAnnouncesTheYield
  (∀ s h p, StateInv s → Accepts twnSwitch s.m h p →
     let f := effTick s.m h
     ∃ m1 m2 t, Announced 0x1003 h f 1 s.m m1 ∧ YieldsAt (some (h, roleOf s.m h)) f m1 m2 ∧ Makes (.twnSwitch h p) s t ∧
       Delivered h (answerOf 0x1003 h (roleOf s.m h) f 1 (le 8 f) s.m) m2 t)

/-- SYS_ROLE_GRANT (R470, R474): a grant that passes gives its session the granted right bits, beside those it has; it and every refused
grant raise event 0x0106 with the grant's status, and are answered; nothing else changes.

SEC_ATTEST accepted: the report is fixed at once and waits for its signature, with event 0x0101; when the security unit has signed, the
response with report, signature and, if asked, the identity certificate is sent, and the unit is free (R497).

What rests on a choice of the model: log entries 2, 10, 37. -/
def Obligations.RoleGrantsAndAttestation : Prop :=
  -- RoleGrantGivesRights
  (∀ s h p, StateInv s → boxOpen s.m h.box = true → judge sysRoleGrant s.m h p ≠ relayMark →
     let st := judge sysRoleGrant s.m h p
     let told := (0x0106, 0, le 1 (boxIx h.box) ++ le 1 (((tget s.m.mbx.sess (boxIx h.box)).map (·.num)).getD 0) ++ le 2 st ++
       le 4 (rd 4 p 8))
     ∃ mid t, Only [.evr, .mbx] s.m mid ∧ Makes (.sysRoleGrant h p) s t ∧
       (st = 0 → Raises [told, (0x0101, 0, cmdFields 0x0105 h (roleOf s.m h) h.apply 0 s.m)] s.m mid ∧
         (∃ slot, ownerSigned s.m (p.take 128) (p.drop 128) = some slot ∧
           mid.mbx = { s.m.mbx with sess := mid.mbx.sess } ∧
           tget mid.mbx.sess (boxIx h.box) = (tget s.m.mbx.sess (boxIx h.box)).map (fun x =>
             { x with rights := x.rights ||| .ofNat 6 (rd 4 p 8), grants := x.grants ++ [(slot, .ofNat 6 (rd 4 p 8))] }) ∧
           ∀ i, i ≠ boxIx h.box → tget mid.mbx.sess i = tget s.m.mbx.sess i) ∧
         Delivered h (answerOf 0x0105 h (roleOf s.m h) h.apply 0 (le 4 (roleOf mid h).toNat ++ le 4 0) s.m) mid t) ∧
       (st ≠ 0 → Raises [told] s.m mid ∧ mid.mbx = s.m.mbx ∧
         Delivered h (answerOf 0x0105 h (roleOf s.m h) h.apply st [] s.m) mid t)) ∧
  -- AttestationSignsTheReport
  ((∀ s h p, StateInv s → Accepts secAttest s.m h p → ∃ mid, Announced 0x1310 h h.apply 0 s.m mid ∧ Makes (.secAttest h p) s
     { mid with
       sec := { s.m.sec with
         attest := some { hdr := h, role := roleOf s.m h, alg := rd 1 p 0, cert := bit (rd 1 p 1) 0, report := reportBytes p s.m } } }) ∧
   (∀ s a, StateInv s → s.m.sec.attest = some a → controlRuns s.m = true →
     ∃ t, Makes .attestSignComplete s t ∧ Delivered a.hdr (answerOf 0x1310 a.hdr a.role a.hdr.apply 0
       (a.report ++ padTo (if a.alg = 0 then 29792 else 49856) (Config.slhSign a.alg a.report) ++
         (if a.cert then identityCert s.m a.alg else [])) s.m) { s.m with sec := { s.m.sec with attest := none } } t))

/-- SCHEDULED_CHANGE_APPLY makes the first change, by apply tick and then by acceptance, whose tick has begun: it leaves the schedule, has
its effect, enters the journal if the journal carries its command, and is answered or recorded. Where none has, and while the CP is down,
nothing happens (R25, R27).

What rests on a choice of the model: log entry 1. -/
def Obligations.EarliestChangeTakesEffect : Prop :=
  (∀ s c, IsNext c s.m → Makes .scheduledChangeApply s (effectChange c s.m)) ∧
  (∀ s, (controlRuns s.m = false ∨ ∀ c ∈ s.m.mbx.scheduled, s.m.time.tick < c.apply) → Makes .scheduledChangeApply s s.m)

/-- What a scheduled change does at its tick: it leaves the schedule, changes its object as its payload asks, enters the journal if the
journal carries it, and is recorded by event 0x0102, or, where its sender waits for the tick, answered 0x0000 (R25, R26, R486). One that
another of the same tick and entry follows changes nothing itself (R27), and a curve does not touch an earlier tick still to be assembled
(R12). A slice that SLC_START names runs, and one that SLC_STOP names stops.

What rests on a choice of the model: log entry 10. -/
def Obligations.ScheduledChangesHaveTheirEffects : Prop :=
  (∀ r ∈ effectRows, ∀ s c, IsNext c s.m → c.code = r.code →
    let made := madeBy r c (unscheduled c s.m)
    let m := if r.journal = true then journalled c made else made
    (c.deferred = false → Makes .scheduledChangeApply s (raise 0x0102 (boxTag c.hdr.box) (cmdFields c.code c.hdr c.role c.apply 0 m) m)) ∧
    (c.deferred = true → StateInv s → ∃ t, Makes .scheduledChangeApply s t ∧
      Delivered c.hdr (answerOf c.code c.hdr c.role c.apply 0 c.resp m) m t)) ∧
  (∀ s c x, IsNext c s.m → tget s.m.cpu.slices (rd 1 c.payload 0) = some x →
    (c.code = 0x0603 → x.arriving = none → (x.state = .loaded ∨ x.state = .stopped) → ∃ t, Makes .scheduledChangeApply s t ∧
      (tget t.cpu.slices (rd 1 c.payload 0)).map (·.state) = some .running ∧ t.time = { s.m.time with asm := t.time.asm }) ∧
    (c.code = 0x0604 → x.state = .running → ∃ t, Makes .scheduledChangeApply s t ∧
      (tget t.cpu.slices (rd 1 c.payload 0)).map (·.state) = some .stopped ∧ t.time = s.m.time))

/-- A request segment on an open management mailbox (R461 to R463): one that repeats the last answered is answered as that was and nothing is
carried out; a whole message is carried out as its CODE says, or answered 0x0100 where no command has it; the first of several is kept and
answered 0x0108; one that is out of place is answered 0x0109, or 0x0101 where no message is in assembly. On M3 a segment with a bad CRC is
discarded and counted; a mailbox that is not open takes none.

A message in assembly without its next segment for 10 s is abandoned, and so is the rest of a response that is not fetched (R463): each
raises event 0x0107; a slice mailbox then shows that it is idle.

A session opens on M0 with an anchor installed, on M3 with the tool attached, on M2 in a pair: it takes the next session number, MONITOR
alone on M0 and M3, and event 0x0104 names it (R467, R470). It closes with event 0x0105 and its cause: no session is left, nor what it
staged or has in hand; 600 s without a segment close one on M0 with cause 1 (R467, R480, R490).

What rests on a choice of the model: log entries 1, 2, 10, 33, 35, 36. -/
def Obligations.SegmentsAndSessions : Prop :=
  -- SegmentsMakeMessages
  ((∀ s h (code : BitVec 16) p x, StateInv s → boxOpen s.m h.box = true → (∀ k, h.box ≠ .slice k) → (h.box = .m2 → bit h.flags.toNat 0 = false) →
     tget s.m.mbx.sess (boxIx h.box) = some x →
     let c := code.toNat
     let i : Instr := .mailboxSegment h code (onWire c h p)
     let back := withSess h.box { x with ref := s.m.time.ref } s.m
     let again := x.answered.filter fun a => a.code == c && a.seq == h.seq && a.segment == h.segment.toNat
     let fresh (asm : Option Assembling) := withSess h.box { x with ref := s.m.time.ref, late := none, asm := asm } s.m
     (∀ a, again = some a → ∃ t, Makes i s t ∧ Delivered h (placed h a.resp back) back t) ∧
     (again = none → x.asm = none → h.segment = 0 → segmentOk h p = true →
       (segLen < h.length → longOk c h = true →
         let mid := fresh (some { code := c, hdr := h, next := 1, data := p, ref := s.m.time.ref })
         ∃ t, Makes i s t ∧ Delivered h (answerOf c h (roleOf s.m h) h.apply 0x0108 [] mid) mid t) ∧
       (h.length ≤ segLen →
         let mid : Mach := { fresh none with mbx := { (fresh none).mbx with places := s.m.mbx.places.filter fun e => e.1 != boxIx h.box } }
         (∀ f, commandOf c h p = some f → ∃ t, f ⟨mid, []⟩ = .next t ∧ Makes i s t.m) ∧
         (commandOf c h p = none → headerOk h p = true →
           ∃ t, Makes i s t ∧ Delivered h (answerOf c h (roleOf s.m h) h.apply 0x0100 [] mid) mid t))) ∧
     (again = none → x.asm = none → h.segment ≠ 0 →
       let st := if x.late = some (c, h.seq) then 0x0109 else 0x0101
       ∃ t, Makes i s t ∧ Delivered h (answerOf c h (roleOf s.m h) h.apply st [] (fresh none)) (fresh none) t)) ∧
   (∀ s h (code : BitVec 16) p, h.box = .m3 → boxOpen s.m .m3 = true →
     (p.length < 4 ∨ rd 4 p (p.length - 4) ≠ crc32 (hdrBytes code.toNat h ++ p.take (p.length - 4))) →
     Makes (.mailboxSegment h code p) s { s.m with mbx := { s.m.mbx with m3Bad := s.m.mbx.m3Bad + 1 } }) ∧
   (∀ s h (code : BitVec 16) p, (∃ k, h.box = .slice k) ∨ (boxOpen s.m h.box = false ∧ mayOpen h.box s.m = false) →
     Makes (.mailboxSegment h code p) s s.m)) ∧
  -- UnfinishedMessagesAreAbandoned
  ((∀ s box x a, controlRuns s.m = true → tget s.m.mbx.sess (boxIx box) = some x → x.asm = some a →
     ∃ t, Makes (.segmentTimeout box) s t ∧ Only [.time, .free, .mbx, .evr] s.m t ∧ t.time = (afterCycles a.ref 5000000000 s.m).time ∧
       Raises [abandoned (boxIx box) a.hdr.seq s.m] s.m t ∧
       t.mbx.sess = tset s.m.mbx.sess (boxIx box) { x with asm := none, late := some (a.code, a.hdr.seq) } ∧
       ∀ k : Fin 65, box = .slice k → tget t.mbx.boxes k.val = some { sliceBox s.m k.val with state := 0, segment := 0, notify := none }) ∧
   (∀ s box x a n, controlRuns s.m = true → tget s.m.mbx.sess (boxIx box) = some x → x.more = some n → x.answered = some a →
     ∃ t, Makes (.responseTimeout box) s t ∧ Only [.time, .free, .mbx, .evr] s.m t ∧ t.time = (afterCycles x.ref 5000000000 s.m).time ∧
       Raises [abandoned (boxIx box) a.seq s.m] s.m t ∧ t.mbx.sess = tset s.m.mbx.sess (boxIx box) { x with more := none } ∧
       ∀ k : Fin 65, box = .slice k → tget t.mbx.boxes k.val = some { sliceBox s.m k.val with state := 0, segment := 0, notify := none })) ∧
  -- SessionsOpenAndClose
  ((∀ s box cert, mayOpen box s.m = true →
     ∃ t x, Makes (.sessionOpen box cert) s t ∧ Only [.mbx, .evr] s.m t ∧
       t.mbx = { s.m.mbx with sess := tset s.m.mbx.sess (boxIx box) x, nextNum := s.m.mbx.nextNum + 1 } ∧
       x.num = s.m.mbx.nextNum ∧ x.rights = (if box = .m1 ∨ box = .m2 then 0 else 1) ∧ x.grants = [] ∧ x.cert = cert ∧ x.answered = none ∧
       Raises [(0x0104, 0, fields [(1, boxIx box), (1, x.num), (6, 0), (24, cert.toNat)])] s.m t) ∧
   (∀ s box, mayOpen box s.m = false → ∀ cert, Makes (.sessionOpen box cert) s s.m) ∧
   (∀ s box x, boxTag box = 0 → tget s.m.mbx.sess (boxIx box) = some x →
     ∀ c ∈ [(Instr.sessionClose box 0, 0, s.m), (.sessionClose box 1, 1, s.m), (.sessionClose box 2, 2, s.m), (.sessionClose box 3, 3, s.m)] ++
         (if boxIx box < 4 then [(.sessionIdleTimeout box, 1, afterCycles x.ref 300000000000 s.m)] else []),
       ∃ t l, Makes c.1 s t ∧ Only [.time, .free, .mbx, .evr, .sec] s.m t ∧ t.time = c.2.2.time ∧
         t.mbx.sess = terase (t.mbx.sess) (boxIx box) ∧ (∀ k, k ≠ boxIx box → tabWf s.m.mbx.sess = true → tget t.mbx.sess k = tget s.m.mbx.sess k) ∧
         t.sec.staging = s.m.sec.staging.filter (fun g => g.owner != boxIx box) ∧
         Raises (l ++ [(0x0105, 0, fields [(1, boxIx box), (1, x.num), (1, c.2.1), (5, 0)])]) s.m t ∧
         (∀ e ∈ l, e.1 = 0x0107)))

/-- The doorbell of a slice mailbox (R464 to R466), rung by the item of a core: op 1 hands the request in the buffer to the CP, unless one is
being handled or the mailbox is closed; op 2 puts the next segment of a response into the buffer; op 3 abandons. A write that a state does
not admit sets OVERRUN and does nothing else. A read of MBX_STATUS returns it and clears OVERRUN.

A final response in the buffer of a slice that asked for it posts the item of its notify handler, once; a handler that takes none is counted
(R464).

What rests on a choice of the model: log entries 1, 10. -/
def Obligations.SliceMailboxesAndNotify : Prop :=
  -- DoorbellsOfSliceMailboxes
  (∀ s (core : Fin 32) r, coreRun s.m core = some r →
     let t := r.tag
     let st := boxState s.m t
     let late := withBox t (fun b => { b with overrun := true }) s.m
     (st = 1 ∨ st = 3 ∨ st = 5 → Makes (.mbxTakeRequest core) s late) ∧
     (st = 0 ∨ st = 2 ∨ st = 4 →
       let h := hdrAt (.slice (Fin.ofNat 65 t)) (memGet s.m.mem (boxKey t 0x4000) 32)
       Makes (.mbxTakeRequest core) s
         (takeSegment (rd 2 (memGet s.m.mem (boxKey t 0x4000) 32) 0) h
           (memGet s.m.mem (boxKey t 0x4020) (min 16352 (h.length - h.segment.toNat * 16352)))
           (withBox t (fun b => { b with state := 1, seq := h.seq, segment := 0, notify := none }) s.m))) ∧
     (st ≠ 3 → Makes (.mbxNextResponse core) s late) ∧
     (∀ x k a, t ≤ 64 → st = 3 → tget s.m.mbx.sess (64 + t) = some x → x.more = some k → x.answered = some a →
       let more := k + 2 < segCount a.resp
       Makes (.mbxNextResponse core) s
         (withBox t (fun b => { b with state := if more then 3 else 2, segment := if more then k + 1 else 0 })
           (withSess (.slice (Fin.ofNat 65 t)) { x with more := if more then some (k + 1) else none, ref := s.m.time.ref }
             (withBytes (boxKey t 0x8000) (segBytes a.resp (k + 1)) s.m)))) ∧
     (st = 5 → Makes (.mbxAbandon core) s late) ∧
     (st ≠ 5 → st ≠ 3 → (∀ x, tget s.m.mbx.sess (64 + t) = some x → x.asm = none) → Makes (.mbxAbandon core) s s.m) ∧
     (∀ x k a, st = 3 → tget s.m.mbx.sess (64 + t) = some x → x.asm = none → x.more = some k → x.answered = some a →
       ∃ m, Makes (.mbxAbandon core) s m ∧ Only [.mbx, .evr] s.m m ∧ Raises [abandoned (64 + t) a.seq s.m] s.m m ∧
         m.mbx.sess = tset s.m.mbx.sess (64 + t) { x with more := none } ∧
         tget m.mbx.boxes t = some { sliceBox s.m t with state := 0, segment := 0, notify := none }) ∧
     Makes (.mbxStatusRead core) s (withBox t (fun b => { b with overrun := false })
       { s.m with cpu := { s.m.cpu with cores := lmod s.m.cpu.cores core.val fun c => { c with rdata := boxWord s.m t } } })) ∧
  -- NotifyPostsOnce
  (∀ s (tag : Fin 65) n, (sliceBox s.m tag.val).notify = some n → boxState s.m tag.val = 2 →
     let m := withBox tag.val (fun b => { b with notify := none }) s.m
     let h := n.1 % 65536
     (∀ x, tget s.m.cpu.slices tag.val = some x → noHandler s.m tag.val h = false → listsFull s.m tag.val = false →
       Makes (.mailboxNotify tag) s { m with cpu := entered tag.val (engineItem s.m tag.val h .cp n.2.1 n.2.2 none) x m }) ∧
     (∀ x, tget s.m.cpu.slices tag.val = some x → x.arriving = none → noHandler s.m tag.val h = true →
       Makes (.mailboxNotify tag) s { m with
         mbx := { m.mbx with notifyRefused := m.mbx.notifyRefused + 1 }
         cpu := sliceSet tag.val (fun y => { y with dspCtrs := bump y.dspCtrs 5 }) m.cpu }))

/-- A store of the item a core runs (R5, R6, R148, R173): into its own slice's memory where a region allows it, 8 bytes; to the access and
data registers of the slice window; to the request buffer; a misaligned one to the window, and one no region allows, is a fault of the
item. A store to memory that is being moved marks its page for a second copy (R171). A register that is written and read returns the last
value written, one that only takes writes returns zero, and one that only reads takes no value.

What rests on a choice of the model: log entry 4. -/
def Obligations.StoresReachMemoryOrWindow : Prop :=
  ∀ s (core : Fin 32) (va v : BitVec 64) r x, coreRun s.m core = some r → tget s.m.cpu.slices r.tag = some x →
    let a := va.toNat
    let inside := 0xF0000 ≤ a ∧ a < 0x100000
    let off := a - 0xF0000
    let c : Instr := .registerWrite core va v
    let spa := getSpa s.m core r.tag
    let faultOf := exec (.handlerFault core va) s
    (¬ inside → spanOk x a 8 1 = true → s.m.twn.cfg.on = false → x.migration = none →
      Makes c s (withBytes (memKey r.tag a) (le 8 v.toNat) s.m)) ∧
    (¬ inside → spanOk x a 8 1 = true → ∃ t, Makes c s t ∧ Only [.mem, .twn, .cpu] s.m t ∧
      t.cpu = (markPages r.tag a 8 s.m).cpu ∧ t.mem = memPut s.m.mem (memKey r.tag a) (le 8 v.toNat)) ∧
    (¬ inside → spanOk x a 8 1 = false → exec c s = faultOf) ∧
    (inside → a % 8 ≠ 0 → exec c s = faultOf) ∧
    (inside → a % 8 = 0 → 0x4000 ≤ off → off < 0x8000 → Makes c s (withBytes (boxKey r.tag off) (le 8 v.toNat) s.m)) ∧
    (inside → off = 0x2000 → Makes c s (withSpa core r.tag { spa with index := .ofNat 64 (v.toNat % 2 ^ 23) } s.m)) ∧
    (inside → off = 0x2008 → Makes c s (withSpa core r.tag { spa with value := v } s.m)) ∧
    (inside → off = 0x2010 → Makes c s (withSpa core r.tag { spa with meta_ := v } s.m)) ∧
    (inside → off = 0x2018 → Makes c s (withSpa core r.tag { spa with sec := .ofNat 64 (v.toNat % 2 ^ 32) } s.m)) ∧
    (inside → off = 0x2040 → Makes c s (withSpa core r.tag { spa with list := v } s.m)) ∧
    (inside → off = 0x2048 → Makes c s (withSpa core r.tag { spa with buf := v } s.m)) ∧
    (inside → ∀ reg last, (off, reg, last) ∈ [(0x2000, WinReg.spaIndex, (.ofNat 64 (v.toNat % 2 ^ 23) : BitVec 64)), (0x2008, .spaValue, v),
        (0x2010, .spaMeta, v), (0x2018, .spaSec, .ofNat 64 (v.toNat % 2 ^ 32)), (0x2040, .spaBurstList, 0), (0x2048, .spaBurstBuf, 0)] →
      winRegAt off = some reg ∧ ∃ t, Makes c s t ∧ readReg t core r reg = last ∧ ∀ w, w ≠ reg → readReg t core r w = readReg s.m core r w) ∧
    (inside → (off = 0x0108 ∨ off = 0x0118 ∨ off = 0x0800 ∨ off = 0x2020 ∨ off = 0x2050) →
      (winRegAt off).map (readReg s.m core r) = some 0) ∧
    (inside → (off = 0x0110 ∨ off = 0x0120 ∨ off = 0x0128 ∨ off = 0x0808 ∨ off = 0x0C08 ∨ off = 0x2028 ∨ off = 0x2058) →
      ∃ t, Makes c s t ∧ ∀ w, readReg t core r w = readReg s.m core r w) ∧
    (inside → off = 0x0108 → exec c s = exec (.dspSubmit core v) s) ∧
    (inside → off = 0x0118 → exec c s = exec (.dspCancel core v) s) ∧
    (inside → off = 0x0800 → v.toNat % 256 = 1 → exec c s = exec (.mbxTakeRequest core) s) ∧
    (inside → off = 0x0C00 → exec c s = exec (.evrCursor core v) s)

-- Time (chapter 02)

/-- The instants of the grid at the four rates: T(n) falls in second S0 + floor(n / r), at in-second position n mod r (R7). Slot 0 begins
with its tick, slots follow one another inside it, and the last begins before the next tick (R8). An instant from S0 on lies in tick n
just if it is at or after T(n) and before T(n + 1) (R9). -/
def Obligations.InstantsOfTheGrid : Prop :=
  ∀ g : Grid, g.rate ∈ [4000, 4800, 9600, 14400] → ∀ n,
    tickStart g n = (g.s0 + n / g.rate) * 1000000000 + n % g.rate * 1000000000 / g.rate ∧
    tickStart g n < tickStart g (n + 1) ∧
    slotStart g n 0 = tickStart g n ∧
    (∀ j k, j < k → k < 256 → slotStart g n j < slotStart g n k) ∧
    (∀ j, j < 256 → slotStart g n j = tickStart g n + j * 1000000000 / (g.rate * 256) ∧ slotStart g n j < tickStart g (n + 1)) ∧
    (∀ t, g.s0 * 1000000000 ≤ t → (tickOf g t = n ↔ tickStart g n ≤ t ∧ t < tickStart g (n + 1)))

/-- R31, of a cycle of the reference while the fabric runs and its clock is loaded: the increment is added to nanoseconds and fraction, a
second is carried when the nanoseconds reach 1 000 000 000, and they never read as more; nothing but the time unit changes. Several cycles
pass one after the other. The increment at reset is 2.0 ns; its bits 63:44 take no part, bits 43:40 are whole nanoseconds and bits 39:0
the fraction. -/
def Obligations.ClockAddsIncrementEachCycle : Prop :=
  State.reset.m.time.increment = 0x20000000000 ∧
  (∀ m j k, clockRuns m = true → passCycles (j + k) m = passCycles k (passCycles j m)) ∧
  ∀ m, clockRuns m = true → m.time.clock.ns.toNat < 1000000000 →
    let c := m.time.clock
    let inc := m.time.increment
    let sum := c.frac.toNat + (inc.extractLsb' 0 40).toNat
    let n := c.ns.toNat + (inc.extractLsb' 40 4).toNat + sum / 2 ^ 40
    let t := passCycles 1 m
    Only [.time] m t ∧
      t.time.clock.frac.toNat = sum % 2 ^ 40 ∧
      (n < 1000000000 → t.time.clock.ns.toNat = n ∧ t.time.clock.sec = c.sec) ∧
      (1000000000 ≤ n → t.time.clock.ns.toNat = n - 1000000000 ∧ t.time.clock.sec = c.sec + 1) ∧
      t.time.clock.ns.toNat < 1000000000 ∧
      t.time = { m.time with clock := t.time.clock, ref := m.time.ref + 1, rtc := clockNs t.time.clock }

/-- No command but a write by the CP firmware changes the increment, unless the fabric starts anew and the increment is nominal again; the
firmware runs, and the increment it writes is within 200 ppm of the nominal 2^41; the write itself passes no cycle, so the new increment is
first added in the cycle after it (R32). -/
def Obligations.OnlyFirmwareWritesTheIncrement : Prop :=
  ∀ c s t, exec c s = .next t → t.m.time.increment ≠ s.m.time.increment → t.m.time.increment.toNat ≠ 2199023255552 →
      (∃ v, c = .incrementWrite v ∧ controlRuns s.m = true ∧ t.m.time.clock = s.m.time.clock ∧ t.m.time.ref = s.m.time.ref ∧
        t.m.time.increment.toNat = v.toNat % 2 ^ 44 ∧
        2199023255552 - t.m.time.increment.toNat ≤ 439804651 ∧ t.m.time.increment.toNat - 2199023255552 ≤ 439804651)

/-- A write of the increment by the CP firmware, while it runs and PTP is not in master holdover, sets it where the value is within 200
ppm of nominal, and is not made where it is not (R32, R39). Nothing else changes.

An offset-add that the CP firmware writes, when discipline lets it (R35), is held pending; one that is larger than A_max, or comes while
another is pending, is refused and counted and leaves the pending one alone (R33, R34). In master holdover none is made (R39). Nothing
else changes.

A_max at the four tick rates is 10 000, 9765, 4882 and 3255 ns (R33). -/
def Obligations.ServoWritesAndLimits : Prop :=
  -- IncrementWrite
  (∀ s v, firmwareActs s.m = true → coasting s.m.time = false →
     let w := v.toNat % 2 ^ 44
     Makes (.incrementWrite v) s
       (if 2199023255552 - w ≤ 439804651 ∧ w - 2199023255552 ≤ 439804651 then
         { s.m with time := { s.m.time with increment := .ofNat 64 w } } else s.m)) ∧
  -- OffsetAddHeldOrRefused
  (∀ s v, firmwareActs s.m = true → coasting s.m.time = false →
     let t := s.m.time
     let big := offsetMax t.grid.rate < v.natAbs
     (t.offPending.isSome ∨ big → Makes (.offsetAddWrite v) s { s.m with time := { t with offRefused := t.offRefused + 1 } }) ∧
     (t.offPending = none → ¬ big → (disciplined t = true → ∀ k, t.run.lastAdd = some k → k + 16 ≤ t.ticks) →
       Makes (.offsetAddWrite v) s
         { s.m with time := { t with offPending := some v, run := { t.run with lastAdd := some t.ticks } } })) ∧
  -- OffsetLimits
  (offsetMax 4000 = 10000 ∧ offsetMax 4800 = 9765 ∧ offsetMax 9600 = 4882 ∧ offsetMax 14400 = 3255)

/-- The master is lost when no Announce, or no Sync, of it has come for three intervals: a synchronised module enters master holdover, an
excursion becomes one with its elapsed time, the other states stay; the count toward synchronisation is void (R38, R39). In master holdover
no offset-add is pending, and none comes. Holdover that has lasted as long as its limit ends in the unsynchronised state, and the expiry is
counted. Nothing but the time unit changes.

What rests on a choice of the model: log entries 33, 39, 67. -/
def Obligations.HoldoverEntersAndExpires : Prop :=
  (∀ s x, controlRuns s.m = true → s.m.time.run.master = some x →
    let due := min x.ref s.m.time.run.syncRef + 3 * ptpPeriod
    let m := passCycles (due - s.m.time.ref) s.m
    ∃ t, Makes .masterLoss s t ∧ Only [.time, .free] s.m t ∧
    t.time.run.master = none ∧ t.time.run.good = 0 ∧ t.time.ref = max s.m.time.ref due ∧ t.time.clock = m.time.clock ∧
    t.time.increment = s.m.time.increment ∧
    (s.m.time.state = .synchronised → t.time.state = .holdover ∧ t.time.holdKind = .master ∧ t.time.holdRef = m.time.ref ∧
      t.time.holds = s.m.time.holds + 1 ∧ t.time.offPending = none) ∧
    (s.m.time.state = .holdover → t.time.state = .holdover ∧ t.time.holdKind = .master ∧ t.time.holdRef = s.m.time.holdRef ∧
      t.time.holds = s.m.time.holds ∧ t.time.offPending = none) ∧
    (s.m.time.state = .expired → t.time.state = .expired ∧ t.time.holds = s.m.time.holds) ∧
    (s.m.time.state = .freeRunning → t.time.state = .freeRunning ∧ t.time.holds = s.m.time.holds)) ∧
  (∀ s, clockRuns s.m = true → s.m.time.state = .holdover → ∃ t, Makes .holdoverLimitExpire s t ∧ Only [.time] s.m t ∧
    t.time.state = .expired ∧ t.time.expiries = s.m.time.expiries + 1 ∧
    t.time.ref = max s.m.time.ref (s.m.time.holdRef + s.m.time.cfg.limit * 500000000) ∧ t.time.run = s.m.time.run)

/-- LEAP_SECOND at a running clock with a leap flag not yet acted on: the clock is not stepped but runs on to the leap instant, the end of
the UTC day in which the flag was received, by the offset before it. The offset grows by 1 s for leap61 and falls by 1 s for leap59,
master or not; the flags stay as received, and each is acted on once; the offset that was in force before is kept for the instants before
it. With both flags the two cancel. Only the time unit changes, and without a flag to act on, or with the clock stopped, nothing does
(R41). -/
def Obligations.LeapSecondActsOnce : Prop :=
  (∀ s, clockRuns s.m = true → s.m.time.run.leap61 = true → s.m.time.run.acted61 = false →
     (s.m.time.run.leap59 = false ∨ s.m.time.run.acted59 = true) →
     ∃ t, Makes .leapSecond s t ∧ Only [.time] s.m t ∧ t.time.utcOffset = s.m.time.utcOffset + 1 ∧
       t.time.utcPast = (leapInstant s.m, s.m.time.utcOffset) :: s.m.time.utcPast ∧
       t.time.run = { s.m.time.run with acted61 := true, acted59 := s.m.time.run.leap59 } ∧
       t.time.clock = (advanceTo (leapInstant s.m) s.m).time.clock) ∧
  (∀ s, clockRuns s.m = true → s.m.time.run.leap59 = true → s.m.time.run.acted59 = false →
     (s.m.time.run.leap61 = false ∨ s.m.time.run.acted61 = true) →
     ∃ t, Makes .leapSecond s t ∧ Only [.time] s.m t ∧ t.time.utcOffset = s.m.time.utcOffset - 1 ∧
       t.time.utcPast = (leapInstant s.m, s.m.time.utcOffset) :: s.m.time.utcPast ∧
       t.time.run = { s.m.time.run with acted61 := s.m.time.run.leap61, acted59 := true } ∧
       t.time.clock = (advanceTo (leapInstant s.m) s.m).time.clock) ∧
  (∀ s, clockRuns s.m = true → s.m.time.run.leap61 = true → s.m.time.run.acted61 = false → s.m.time.run.leap59 = true →
     s.m.time.run.acted59 = false →
     ∃ t, Makes .leapSecond s t ∧ Only [.time] s.m t ∧ t.time.utcOffset = s.m.time.utcOffset ∧ t.time.utcPast = s.m.time.utcPast ∧
       t.time.run = { s.m.time.run with acted61 := true, acted59 := true } ∧
       t.time.clock = (advanceTo (leapInstant s.m) s.m).time.clock) ∧
  (∀ s, clockRuns s.m = false ∨ ((s.m.time.run.leap61 = false ∨ s.m.time.run.acted61 = true) ∧
       (s.m.time.run.leap59 = false ∨ s.m.time.run.acted59 = true)) →
     Makes .leapSecond s s.m)

/-- The PTP messages a running CP takes on a PTP port in its domain. A one-step Sync of the master followed, and the Follow_Up of a two-step
one, give the offset: eight in a row within the lock threshold synchronise; from the synchronised state one above four times it begins
excursion holdover; one above the step threshold asks for a step at the next tick boundary (R35, R36, R38). The instant of a message is its
receive timestamp at the MAC (R37). An Announce enters the choice of the master, and that of the master followed gives UTC offset and leap
flags (R36, R41). A Pdelay_Req is answered with the instant of its receipt; the answer to the Pdelay_Req last sent on the port, with its
follow-up where it is two-step, gives the path delay: half of what the exchange took beyond the responder's own time. Any other message does
nothing. Nothing else changes. Without a profile, or on a port that is no PTP port, a message does nothing.

A PTP message steered to a CP that does not run is discarded and counted, and does nothing else (R20). At a message interval the CP sends,
on each PTP port, a Pdelay_Req and, as a master there, Sync and Announce, each with its transmit timestamp asked for (R36).

What rests on a choice of the model: log entry 39. -/
def Obligations.PtpMessages : Prop :=
  -- PtpMessageTaken
  (∀ s (port : Fin 8) (g : PtpRx), firmwareActs s.m = true → s.m.time.cfg.profile ≠ 0 → ptpPort s.m port.val = true →
     let t := s.m.time
     let d := t.cfg.domain
     let p := port.val
     let c : Instr := .ptpMessageReceive port g
     let stamp : Int := (ptpStamp s.m p g : Int)
     let path : Int := tgetD t.run.paths p 0
     let follows := t.run.master.any (·.port == p) = true
     (∀ (n : Nat) (origin : Nat) (corr : Int), g.msg = .sync d n false origin corr → follows → ∃ b, Makes c s b ∧
       OffsetTaken (stamp - origin - corr - path) (ptpRunSet (fun r => { r with syncRef := t.ref, syncs := terase r.syncs p }) s.m) b) ∧
     (∀ (n : Nat) (origin : Nat) (corr : Int), g.msg = .sync d n true origin corr → follows → Makes c s
       (ptpRunSet (fun r => { r with
         syncRef := t.ref, syncs := tset r.syncs p { seq := n, stamp := ptpStamp s.m p g, corr := corr } }) s.m)) ∧
     (∀ (n : Nat) (origin : Nat) (corr : Int) w, g.msg = .followUp d n origin corr → follows → tget t.run.syncs p = some w →
       (w.seq = n → ∃ b, Makes c s b ∧
         OffsetTaken ((w.stamp : Int) - origin - (w.corr + corr) - path) (ptpRunSet (fun r => { r with syncs := terase r.syncs p }) s.m) b) ∧
       (w.seq ≠ n → Makes c s s.m)) ∧
     (∀ gm p1 p2 q steps utc valid l61 l59 tlvs, g.msg = .announce d gm p1 p2 q steps utc valid l61 l59 tlvs →
       let x : Master := { port := p, gm := gm, key := [p1, q, p2, gm.toNat, steps], tlvs := tlvs, ref := t.ref }
       let best := bestMaster (heardOn p x s.m)
       ∃ b, Makes c s b ∧ Only [.time] s.m b ∧
         b.time.clock = t.clock ∧ b.time.increment = t.increment ∧ b.time.run.master = best ∧
         (best.any (·.port == p) = true → b.time.utcOffset = utc ∧ b.time.run.utcValid = valid ∧ b.time.run.utcKnown = valid ∧
           b.time.run.leap61 = l61 ∧ b.time.run.leap59 = l59) ∧
         (best.any (·.port == p) = false → b.time.utcOffset = t.utcOffset ∧ b.time.run.leap61 = t.run.leap61 ∧
           b.time.run.leap59 = t.run.leap59)) ∧
     (∀ n, g.msg = .pdelayReq d n →
       Makes c s (withFrames [ptpFrame s.m p true (.pdelayResp d n true (ptpStamp s.m p g) 0)] s.m)) ∧
     (∀ (n : Nat) (got : Nat) (corr : Int) x, tget t.run.pdelays p = some x → x.seq = n →
       (g.msg = .pdelayResp d n false got corr → Makes c s (ptpRunSet (fun r => { r with
         paths := tset r.paths p ((stamp - x.sent - corr) / 2), pdelays := terase r.pdelays p }) s.m)) ∧
       (g.msg = .pdelayResp d n true got corr → Makes c s (ptpRunSet (fun r => { r with
         pdelays := tset r.pdelays p { x with half := some (stamp + got - corr) } }) s.m)) ∧
       (∀ h, x.half = some h → g.msg = .pdelayFollowUp d n got corr → Makes c s (ptpRunSet (fun r => { r with
         paths := tset r.paths p ((h - x.sent - got - corr) / 2), pdelays := terase r.pdelays p }) s.m)) ∧
       (x.half = none → g.msg = .pdelayFollowUp d n got corr → Makes c s s.m)) ∧
     (∀ (n : Nat) (two : Bool) (got : Nat) (corr : Int), (∀ x, tget t.run.pdelays p = some x → x.seq ≠ n) →
       (g.msg = .pdelayResp d n two got corr ∨ g.msg = .pdelayFollowUp d n got corr) → Makes c s s.m) ∧
     (∀ k n two (origin : Nat) (corr : Int), g.msg ∈ [PtpMsg.sync k n two origin corr, .followUp k n origin corr] →
       (k ≠ d ∨ ¬ follows ∨ (g.msg = .followUp k n origin corr ∧ tget t.run.syncs p = none)) → Makes c s s.m) ∧
     (∀ k n two (origin : Nat) (corr : Int), k ≠ d →
       g.msg ∈ [PtpMsg.pdelayReq k n, .pdelayResp k n two origin corr, .pdelayFollowUp k n origin corr] → Makes c s s.m) ∧
     (∀ k gm p1 p2 q steps utc valid l61 l59 tlvs, k ≠ d → g.msg = .announce k gm p1 p2 q steps utc valid l61 l59 tlvs → Makes c s s.m) ∧
     (∀ k, g.msg = .other k → Makes c s s.m)) ∧
  (∀ s (port : Fin 8) g, firmwareActs s.m = true → (s.m.time.cfg.profile = 0 ∨ ptpPort s.m port.val = false) →
     Makes (.ptpMessageReceive port g) s s.m) ∧
  -- PtpDiscardedAndSent
  ((∀ s port g, clockRuns s.m = true → controlRuns s.m = false → Makes (.ptpMessageReceive port g) s
     (ptpRunSet (fun r => { r with discarded := r.discarded + 1 }) s.m)) ∧
   (∀ s, firmwareActs s.m = true → s.m.time.cfg.profile ≠ 0 →
     let m := intervalCome s.m
     Makes .ptpMessageSend s (withFrames (((List.range 8).filter (ptpPort m)).flatMap (ptpIntervalFrames m)) m)))

/-- TIME_RATE accepted: with a partner and not over M2 it is forwarded; else the rate change waits for its second boundary B, with event
0x0101, and is answered 0x0001 with B and the last tick of the present rate; nothing else changes (R48, R415).

At the boundary at which a pending rate change reaches its second, the grid restarts: tick 0 begins at that second with the new rate, no
rate change is pending, every scheduled change that had not become effective is discarded, and so are a restart, a commit and a yield that
were pending (R48, R50).

A step due at a tick boundary sets the clock to its target there; the new grid is that of R49, its first tick begins, the step is counted, a
pending offset-add is discarded and counted, every other scheduled change is discarded, and a TIME_STEP leaves the time unit free-running
(R34, R49, R50).

What rests on a choice of the model: log entries 1, 10, 33, 40. -/
def Obligations.RateChangesAndSteps : Prop :=
  -- RateChangeWaitsForItsSecond
  (∀ s h p, StateInv s → Accepts (rateCmd s.m) s.m h p →
     let reply := le 8 (rd 8 p 8) ++ le 8 ((rd 8 p 8 - s.m.time.grid.s0) * s.m.time.grid.rate - 1)
     (s.m.twn.cfg.on = true ∧ h.box ≠ .m2 → ∃ t, Makes (.timeRate h p) s t ∧ Forwarded
       { code := 0x0210, hdr := h, role := roleOf s.m h, payload := p, resp := reply, apply := 0, refuse := 0x0205, tries := 1,
         ref := s.m.time.ref } s.m t) ∧
     (¬ (s.m.twn.cfg.on = true ∧ h.box ≠ .m2) → ∃ mid t, Announced 0x0210 h h.apply 1 s.m mid ∧ Makes (.timeRate h p) s t ∧
       Delivered h (answerOf 0x0210 h (roleOf s.m h) h.apply 1 reply s.m)
         { mid with
           time := { s.m.time with rateChange := some { sec := rd 8 p 8, rate := rd 4 p 0, asked := some (h, roleOf s.m h) } } } t)) ∧
  -- RateChangeRestartsTheGrid
  (∀ s d, clockRuns s.m = true → s.m.sec.bootDue = [] → s.m.time.gridOn = true → stepDue (s.m.time.tick + 1) s.m = none →
     s.m.time.rateChange = some d → d.sec * 1000000000 ≤ tickAt s.m (s.m.time.tick + 1) →
     ∃ t, Makes .tickBoundary s t ∧ t.time.grid = { s0 := d.sec, rate := d.rate, first := 0 } ∧ t.time.tick = 0 ∧ t.time.slot = 0 ∧
       t.time.rateChange = none ∧ t.time.ticks = s.m.time.ticks + 1 ∧ t.mbx.scheduled = [] ∧ t.sec.commit = none ∧
       t.dom.restart = none) ∧
  -- StepSetsTheClockAtABoundary
  (∀ s v, clockRuns s.m = true → s.m.sec.bootDue = [] → s.m.time.gridOn = true → stepDue (s.m.time.tick + 1) s.m = some v →
     ∃ t, Makes .tickBoundary s t ∧
       t.time.grid = stepGrid s.m v ∧ t.time.tick = (stepGrid s.m v).first ∧ t.time.slot = 0 ∧ t.time.steps = s.m.time.steps + 1 ∧
       t.time.offPending = none ∧
       ((∀ c ∈ s.m.mbx.scheduled, c.code = 0x0220 → s.m.time.tick < c.apply) →
         t.time.offDiscarded = s.m.time.offDiscarded + (if s.m.time.offPending.isSome then 1 else 0)) ∧
       t.time.run.step = none ∧ t.mbx.scheduled = [] ∧
       ((stepChange (s.m.time.tick + 1) s.m).isSome → t.time.state = .freeRunning))

-- Ticks and slots (chapters 01, 02, 05)

/-- With the clock running and the grid on, no step due and no rate change reached, TICK_BOUNDARY begins the next tick of the same grid at
slot 0: one more tick is counted, its assembly at D(n) = T(n) + H is due behind those before it, and its time quality is latched. A grid
that has not begun begins at tick 0 (R7, R9, R23, R212).

SLOT_BOUNDARY begins the next slot of the tick at its instant; at slot 3 a pending offset-add is applied to the clock after the boundary
and counted, unless it was written in this very tick (R8, R34). Of the module only time, compute unit, rings, events, signal table and
twin unit can change. In the last slot of a tick, without a grid, or with the clock stopped, it does nothing.

A read of SLW_TIME_S by a core that runs an item returns the seconds of the clock, and latches nanoseconds and time state of the same
cycle for that core alone; nothing else changes (R44 to R46). A read of SLW_TIME_NS returns what is latched for its core, and zero where
nothing is.

What rests on a choice of the model: log entries 1, 33. -/
def Obligations.BoundariesBeginTicksAndSlots : Prop :=
  -- TickBoundaryBeginsATick
  (∀ s, clockRuns s.m = true → s.m.sec.bootDue = [] →
     let u := s.m.time
     let n := if u.gridOn = true then u.tick + 1 else 0
     (u.gridOn = true → stepDue n s.m = none ∧ ∀ d, u.rateChange = some d → tickAt s.m n < d.sec * 1000000000) →
     ∃ t, Makes .tickBoundary s t ∧ t.time.tick = n ∧ t.time.slot = 0 ∧ t.time.gridOn = true ∧ t.time.grid = u.grid ∧
       t.time.ticks = u.ticks + 1 ∧ t.time.clock = (advanceTo (tickAt s.m n) s.m).time.clock ∧
       t.time.asm = u.asm ++ [AsmDue.mk n (tickStart u.grid n) (tickStart u.grid n + u.hold) u.grid.rate u.grid
         (tickStart u.grid (n + 1) - tickStart u.grid n) []] ∧
       t.time.tqs = ((n, timeQuality u) :: u.tqs).take 8) ∧
  -- SlotBoundaryBeginsASlot
  ((∀ s, clockRuns s.m = true → s.m.time.gridOn = true → s.m.time.slot < 255 →
     let u := s.m.time
     let c := (advanceTo (slotStart u.grid u.tick (u.slot + 1)) s.m).time.clock
     ∃ t, Makes .slotBoundary s t ∧ Only [.time, .cpu, .net, .evr, .sig, .twn] s.m t ∧
       t.time.slot = u.slot + 1 ∧ t.time.tick = u.tick ∧ t.time.grid = u.grid ∧ t.time.increment = u.increment ∧
       (u.slot + 1 ≠ 3 ∨ u.offPending = none ∨ u.run.lastAdd = some u.ticks →
         t.time.clock = c ∧ t.time.offPending = u.offPending ∧ t.time.adds = u.adds) ∧
       (∀ d, u.slot + 1 = 3 → (∀ k, u.run.lastAdd = some k → k < u.ticks) → u.offPending = some d → t.time.offPending = none ∧
         t.time.adds = u.adds + 1 ∧
         t.time.clock = clockOf (((clockTotal c : Int) + d * 2 ^ 40).toNat))) ∧
   (∀ s, clockRuns s.m = false ∨ s.m.time.gridOn = false ∨ 255 ≤ s.m.time.slot → Makes .slotBoundary s s.m)) ∧
  -- TimeReadLatches
  (∀ s (core : Fin 32) r, coreRun s.m core = some r → s.m.cpu.cores.length = 32 →
     ∃ b, Makes (.slwTimeSRead core) s b ∧ Only [.time, .cpu] s.m b ∧
       b.time = { s.m.time with latch := b.time.latch } ∧
       tget b.time.latch core.val = some (.ofNat 64 (timeCode s.m.time.state * 2 ^ 32 + s.m.time.clock.ns.toNat)) ∧
       (∀ k, k ≠ core.val → tget b.time.latch k = tget s.m.time.latch k) ∧
       b.cpu = { s.m.cpu with cores := b.cpu.cores } ∧
       b.cpu.cores[core.val]? = (s.m.cpu.cores[core.val]?).map (fun c => { c with rdata := s.m.time.clock.sec }) ∧
       (∀ k, k ≠ core.val → b.cpu.cores[k]? = s.m.cpu.cores[k]?) ∧
       readReg s.m core r .slwTimeS = s.m.time.clock.sec ∧
       readReg b core r .slwTimeNs = .ofNat 64 (timeCode s.m.time.state * 2 ^ 32 + s.m.time.clock.ns.toNat) ∧
       (tget s.m.time.latch core.val = none → readReg s.m core r .slwTimeNs = 0))

/-- Ingest takes the oldest frame that was steered to it, and only ingest and the recorder can change. A frame of another EtherType, one
that is not a sampled-value message as R59 supports them, and one that no entry matches are counted on the port they came from, and
nothing else happens (R65 steps 1 and 2, R81).

A sampled-value frame of one ASDU that matches an enabled entry without authentication or PRP, passes the policer and step 7, is no
simulation, came since the last step of the clock, and brings on time a position not yet known, is accepted: the position enters the
stream's history with its instant, its receive timestamp and the scaled values and qualities of its channels (R62, R65, R70, R71, R79).

D(n) of the oldest tick that is due: the clock reaches it, the tick is taken off those that wait, it counts as assembled on its own grid,
and the logic engine's steps begin anew; a slice to which the tick's frame goes shows the tick and the address of the frame's buffer. Of
time and domains nothing else changes, and the identity stays (R133, R136).

What rests on a choice of the model: log entries 5, 20, 33, 41. -/
def Obligations.SamplesAndFrames : Prop :=
  -- IngestTakesTheOldestFrame
  (∀ s x rest, fabricRuns s.m = true → tabWf s.m.svi.subs = true → s.m.svi.inbox = x :: rest →
     let left (j : Nat) : Mach := { s.m with
       svi := { s.m.svi with
         inbox := rest
         ports := if x.port < 8 then bump s.m.svi.ports (x.port * 3 + j) else s.m.svi.ports } }
     (∃ t, Makes .svFrameIngest s t ∧ Only [.svi, .evr] s.m t ∧ t.svi.inbox = rest ∧ t.svi.chans = s.m.svi.chans) ∧
     (x.frame.etype ≠ 0x88BA → Makes .svFrameIngest s (left 0)) ∧
     (x.frame.etype = 0x88BA → (∀ p, x.frame.body ≠ .sv p) → Makes .svFrameIngest s (left 1)) ∧
     (∀ p, x.frame.etype = 0x88BA → x.frame.body = .sv p → pduOk x.frame p = false → Makes .svFrameIngest s (left 1)) ∧
     (∀ p, x.frame.etype = 0x88BA → x.frame.body = .sv p → pduOk x.frame p = true →
       (∀ e ∈ s.m.svi.subs, e.2.entry.dmac ≠ x.frame.dmac ∧ ∀ z ∈ e.2.spans, z.entry.dmac ≠ x.frame.dmac) →
       Makes .svFrameIngest s (left 2))) ∧
  -- SampleOnTimeIsAccepted
  (∀ s x rest p a i sub, fabricRuns s.m = true → s.m.svi.inbox = x :: rest → x.frame.etype = 0x88BA → x.frame.body = .sv p →
     pduOk x.frame p = true → p.asdus = [a] → p.simulate = false → s.m.svi.stepAt.all (· ≤ x.ts) = true →
     (let m0 : Mach := { s.m with svi := { s.m.svi with inbox := rest } }
      matchSub (subTakes m0 x.ts p) m0 x.frame p = some (i, sub)) → tget s.m.svi.subs i = some sub →
     let e := sub.entry
     let r := sub.run
     subOn e = true → x.port = e.port → e.flags.getLsbD 2 = false → e.flags.getLsbD 3 = false →
     1000000000 ≤ policerFill e r x.ts → asduOk s.m e a = true → r.inSim = false →
     let t := asduInstant s.m e x.ts 1 0 a
     offDuring sub t = false → spanAt sub t = none →
     let key := keyOf r e.rate a.smpCnt
     ¬ ((syncClass s.m e a).1 = .global ∧ x.ts + 10000 < t) → known r key = false → onTimeAt s.m x.ts t = true →
     ∃ b y, Makes .svFrameIngest s b ∧ tget b.svi.subs i = some y ∧ y.entry = e ∧
       y.run.poss = putPos
         { key := key, t := t, rx := x.ts, kind := .accepted
           vals := ((chansOf e).zip a.data).map fun z => (scaled z.2.1 (chanAt s.m z.1 t).scale,
             sampleQuality z.2.2 false ((syncClass s.m e a).1 != .global)) } r.poss ∧
       y.run.cls = some (syncClass s.m e a).1 ∧ y.run.invalid = false ∧ y.run.lastCnt = a.smpCnt ∧ y.run.lastT = t ∧
       ctr y.run.ctrs 0 = ctr r.ctrs 0 + 1 ∧ ctr y.run.ctrs 1 = ctr r.ctrs 1 + 1) ∧
  -- AssemblyTakesTheOldestTick
  (∀ s d rest, clockRuns s.m = true → s.m.time.asm = d :: rest → (∀ c ∈ d.late, atAssembly c.1 = true) →
     ∃ t, Makes .assembly s t ∧ t.time = { (advanceTo d.d s.m).time with asm := rest } ∧ assembledBefore t = some d.tick ∧
       t.flt.grid = some d.grid ∧ t.lge.used = false ∧ t.ident = s.m.ident ∧
       t.dom = { s.m.dom with
         deliverFrom := if s.m.dom.deliverFrom.any (· < d.t) then none else s.m.dom.deliverFrom } ∧
       ∀ k y, tget s.m.cpu.slices k = some y → frameGoes s.m k d = true → y.arriving = none → y.subs ≠ [] → y.subsDue = [] →
         ∃ x, tget t.cpu.slices k = some x ∧ x.slwTick = d.tick ∧ x.framePtr = frameAt y d.tick)

/-- A group that has had Rt good ticks in recovery leaves it with event 0x0503 (R113); a freeze that nothing extends ends with event 0x0505,
which gives its length (R117); a group whose tracking has failed for a second is lost: f_t is the nominal frequency, with event 0x0506
(R125). Nothing else changes, and where the condition does not hold nothing does.

A comparator turns on once its condition has held for more than DELAY ticks, and off past its hysteresis; with an unusable source it keeps
its state. The transition is counted on the group; in commissioning behaviour event 0x0501 reports it too (R110, R127, R128).

What rests on a choice of the model: log entries 1, 10, 21. -/
def Obligations.EstimatesAndComparators : Prop :=
  -- EstimateTimersExpire
  ((∀ s (group : Fin 256) g, fabricRuns s.m = true → getGroup s.m group = some g →
     (s.m.flt.grid.any (fun r => recoveryOver g r.rate) = true → ∃ t, Makes (.recoveryExit group) s t ∧ Only [.flt, .evr] s.m t ∧
       t.flt = { s.m.flt with groups := tset s.m.flt.groups group { g with recovery := false } } ∧
       Raises [(0x0503, 0, le 1 group.val ++ le 7 0)] s.m t) ∧
     (s.m.flt.grid.any (fun r => recoveryOver g r.rate) = false → Makes (.recoveryExit group) s s.m)) ∧
   (∀ s (chan : Fin 12288) g, fabricRuns s.m = true → getGroup s.m (chanEntry s.m chan).group = some g →
     let c := getChan s.m chan
     let due := freezeAhead (chanEntry s.m chan).group chan s.m
     (c.frozen = true → due = false → ∃ t, Makes (.freezeEnd chan) s t ∧ Only [.flt, .evr] s.m t ∧
       t.flt = { s.m.flt with chans := tset s.m.flt.chans chan { c with frozen := false, frozenTicks := 0 } } ∧
       Raises [(0x0505, 0, le 1 (chanEntry s.m chan).group ++ le 1 0 ++ le 2 chan.val ++ le 4 c.frozenTicks)] s.m t) ∧
     (c.frozen = false ∨ due = true → Makes (.freezeEnd chan) s s.m)) ∧
   (∀ s (group : Fin 256) g u, clockRuns s.m = true → getGroup s.m group = some g → g.enabled = true → g.est.track = true →
     g.lost = false → g.failing = some u →
     (u + 1000000000 ≤ now s.m → ∃ t, Makes (.trackingLost group) s t ∧ Only [.flt, .evr] s.m t ∧
       t.flt = { s.m.flt with
         groups := tset s.m.flt.groups group { g with lost := true, ft := int32 g.est.nomf, estCtrs := bump g.estCtrs 4 } } ∧
       Raises [(0x0506, 0, le 1 group.val ++ le 7 0)] s.m t) ∧
     (now s.m < u + 1000000000 → Makes (.trackingLost group) s s.m))) ∧
  -- ComparatorTransitions
  (∀ s (chan : Fin 12288) (k : Fin 4) g cfg y fast fine invalid, fabricRuns s.m = true →
     let gi := (chanEntry s.m chan).group
     let c := getChan s.m chan
     getGroup s.m gi = some g → g.est.comps[k.val]? = some cfg → c.seen = some (y, fast, fine, invalid) → cfg.source ≠ 0 →
     let st := c.comps.getD k.val (false, 0)
     let src := sourceOf cfg y c.d fast fine invalid
     let on := match src with
       | none => st.1
       | some v => if st.1 = true then !offCond cfg v else decide (cfg.delay < st.2)
     (on = st.1 → Makes (.comparatorTransition chan k) s s.m) ∧
     (on ≠ st.1 → ∃ t, Makes (.comparatorTransition chan k) s t ∧ Only [.flt, .evr, .sig] s.m t ∧
       t.flt = { s.m.flt with
         groups := tset s.m.flt.groups gi { g with estCtrs := bump g.estCtrs 3 }
         chans := tset s.m.flt.chans chan { c with comps := lmod c.comps k.val fun x => (on, x.2) } } ∧
       Raises (if inService g then [] else [(0x0501, 0, le 1 gi ++ le 1 k.val ++ le 2 chan.val ++ le 4 (b2n on) ++
         le 4 (magOf (src.getD (0, 0))).toNat)]) s.m t ∧
       (inService g = true ∨ g.est.thrBase = none → t.sig = s.m.sig)))

-- Slices and the dispatcher (chapters 06 and 07)

/-- In strict mode every item that a slot boundary grants is one of the slice that the lattice names for the core in that slot; the slice
runs or is stopped, the item's cost fits the rest of the window, and its window ends where the lattice's does (R186, R189, R191).

No item runs past its window: when the boundary at which its window closes, the third slot after its last, comes in this tick,
WINDOW_OVERRUN_ABORT passes the slots up to it, and none of the cores then runs an item whose window is closed; the item that ran there
has raised event 0x0701 (R194). -/
def Obligations.GrantsAndOverruns : Prop :=
  -- GrantsFollowTheLattice
  (∀ s, clockRuns s.m = true → s.m.time.gridOn = true → s.m.time.slot < 255 → s.m.cpu.lattice.shared = false →
     ∃ t, Makes .slotBoundary s t ∧ ∀ core r, (getCore t core).run = some r → (getCore s.m core).run ≠ some r →
       let l := s.m.cpu.lattice
       let row := (latRow l (pageOf l s.m.time.tick) core.val).drop (s.m.time.slot + 1)
       ∃ e, row.head? = some e ∧ ownsSlice e = true ∧ r.tag = latOwner e ∧ servable s.m r.tag = true ∧ r.item.cost ≤ windowRun row ∧
         r.tick = s.m.time.tick ∧ r.e = s.m.time.slot + windowRun row ∧ r.borrowed = false) ∧
  -- OverrunAbortsAtTheWindowsEnd
  (∀ s core r, StateInv s → clockRuns s.m = true → s.m.time.gridOn = true → coreRun s.m core = some r →
     let close := r.tick * 256 + closeSlot r.e
     slotIndex s.m < close → close / 256 = s.m.time.tick →
     ∃ t, Makes (.windowOverrunAbort core) s t ∧ slotIndex t = close ∧
       (∀ k x, (getCore t k).run = some x → close < x.tick * 256 + closeSlot x.e) ∧
       (∃ e ∈ t.evr.arrivals, e.code = 0x0701 ∧ e.tag = r.tag) ∧ (∃ l, t.evr.arrivals = s.m.evr.arrivals ++ l))

/-- When the due slot of a slice's first delayed item comes in this tick, DELAY_RELEASE passes the slots before it, and in the cycle in which
it begins no item whose due slot has come is left on the slice's delay list (R184, R185).

An engine's item held for a full slice enters as soon as the slice has a free entry; if its handler takes no item any more it is refused and
counted, and a ring whose completions it reports counts it too and stays armed; while the lists are full it waits on. Nothing else changes
(R182, R305, R306).

What rests on a choice of the model: log entries 1, 73. -/
def Obligations.ItemsEnterTheReadyLists : Prop :=
  -- DelayedItemsReleasedWhenDue
  (∀ s (tag : Fin 65) i, StateInv s → clockRuns s.m = true → computeReady s.m = true → s.m.time.gridOn = true →
     (getDelay s.m tag.val).head? = some i → slotIndex s.m < i.due → i.due / 256 = s.m.time.tick →
     ∃ t, Makes (.delayRelease tag) s t ∧ slotIndex t + 1 = i.due ∧ ∀ x ∈ getDelay t tag.val, i.due < x.due) ∧
  -- HeldItemEntersWhenAnEntryIsFree
  (∀ s (tag : Fin 65) x, computeReady s.m = true → heldItem s.m tag.val .engine = some x →
     let rest : Mach := { s.m with cpu := { s.m.cpu with held := s.m.cpu.held.erase x } }
     (noHandler s.m tag.val x.item.handler = true → Makes (.engineItemStallRelease tag) s
       { rest with
         cpu := sliceSet tag.val (fun y => { y with dspCtrs := bump y.dspCtrs 5 }) rest.cpu
         net := match x.item.ring with
           | none => s.m.net
           | some k => { s.m.net with
             rings := tset s.m.net.rings k { getRing s.m k with armed := true, ctrs := bump (getRing s.m k).ctrs 10 } } }) ∧
     (∀ y, noHandler s.m tag.val x.item.handler = false → listsFull s.m tag.val = false → tget s.m.cpu.slices tag.val = some y →
       Makes (.engineItemStallRelease tag) s { rest with cpu := entered tag.val x.item y rest }) ∧
     (noHandler s.m tag.val x.item.handler = false → listsFull s.m tag.val = true → Makes (.engineItemStallRelease tag) s s.m))

/-- A read of DSP_FETCH completes the core's item: the core waits for its next grant, the slice counts the item, and the submit status of its
submitter, if it still names the item, shows it completed. A core without an item just waits. Nothing else changes (R190, R193).

A fault of the item a core runs aborts it at once: the submitter's status shows the abort, the fault is counted toward FLIM, and event
0x0606 names slice, core, handler and address; nothing else changes (R173).

What rests on a choice of the model: log entries 10, 43. -/
def Obligations.ItemsEndAtTheirCore : Prop :=
  -- FetchCompletesTheItem
  ((∀ s core r, StateInv s → computeReady s.m = true → (getCore s.m core).run = some r →
     Makes (.dspFetch core) s { s.m with cpu := retired core 3 r s.m.cpu }) ∧
   (∀ s core, computeReady s.m = true → (getCore s.m core).run = none →
     Makes (.dspFetch core) s { s.m with
       cpu := { s.m.cpu with cores := lmod s.m.cpu.cores core.val fun k => { k with fetching := true } } })) ∧
  -- HandlerFaultAbortsTheItem
  (∀ s core addr r, StateInv s → coreRun s.m core = some r →
     ∃ t, Makes (.handlerFault core addr) s t ∧ Only [.cpu, .evr] s.m t ∧
       t.cpu = sliceSet r.tag (faulted 0 s.m) (retired core 4 r s.m.cpu) ∧
       Raises [(0x0606, r.tag, le 1 r.tag ++ le 1 core.val ++ le 2 r.item.handler ++ le 4 0 ++ le 8 addr.toNat)] s.m t)

/-- In the cycle of a slot boundary the releases come first (R184); then a submission is refused with the reason that R202 names, shown in
the core's submit status and counted, or the item enters the lists: it takes the slice's next handle, and the status shows it ready or
delayed with that handle. Nothing else changes but event 0x0703, once a second at most, for full lists (R198, R202).

A cancel: of a slice that resets it is refused; an item still on a list leaves it, its ring is armed again, its submitter's status shows
it cancelled, and the cancel is counted; an item that runs cannot be cancelled and is counted; a handle that names none is not found. The
core's cancel status shows which; nothing else changes (R195, R203).

What rests on a choice of the model: log entry 73. -/
def Obligations.SubmissionsAndCancels : Prop :=
  -- SubmissionEntersOrIsRefused
  (∀ s core va r x, coreRun s.m core = some r →
     let m := inItsCycle s.m
     tget m.cpu.slices r.tag = some x →
     let why := submitRefusal m r.tag x va.toNat core.val
     let i := itemAt m r.tag va.toNat core.val
     (why = 0 → Makes (.dspSubmit core va) s { m with
       cpu := pairSet core.val r.tag (fun p => { p with submit := statusWord (if i.due ≤ cycleIndex m then 0 else 1) x.nextHandle })
         (entered r.tag i x m) }) ∧
     (why ≠ 0 → ∃ t, Makes (.dspSubmit core va) s t ∧ Only (if why = 0x80 then [.cpu, .evr, .quiet] else [.cpu]) m t ∧
       t.cpu = sliceSet r.tag (fun y => { y with dspCtrs := bump y.dspCtrs (if why = 0x80 then 3 else if why = 0x81 then 4 else 5) })
         (pairSet core.val r.tag (fun p => { p with submit := statusWord why 0 }) m.cpu))) ∧
  -- CancelTakesAListedItem
  (∀ s core v r, coreRun s.m core = some r →
     let m := inItsCycle s.m
     let h : BitVec 56 := .ofNat 56 v.toNat
     let listed := (listedItems m r.tag).find? fun i => i.handle == h
     let answer (code : Nat) : Compute → Compute := pairSet core.val r.tag fun p => { p with cancel := statusWord code h }
     (sliceResets m r.tag = true → Makes (.dspCancel core v) s { m with cpu := answer 0x12 m.cpu }) ∧
     (sliceResets m r.tag = false → listed = none → runsHandle m r.tag h = true →
       Makes (.dspCancel core v) s { m with
         cpu := answer 0x10 (sliceSet r.tag (fun x => { x with dspCtrs := bump x.dspCtrs 7 }) m.cpu) }) ∧
     (sliceResets m r.tag = false → listed = none → runsHandle m r.tag h = false →
       Makes (.dspCancel core v) s { m with cpu := answer 0x11 m.cpu }) ∧
     (∀ i, sliceResets m r.tag = false → listed = some i →
       ∃ t, Makes (.dspCancel core v) s t ∧ Only [.cpu, .net] m t ∧
         t.net = (match i.ring with
           | none => m.net
           | some k => { m.net with rings := tset m.net.rings k { getRing m k with armed := true } }) ∧
         (let keep (l : List Item) := l.filter fun x => x.handle != h
          let delayed := (getDelay m r.tag).any fun x => x.handle == h
          let freed (x : Slice) := if i.src = .frame then x.freed else x.freed.filter (·.1 == m.time.ref) ++ [(m.time.ref, delayed)]
          let c := followed r.tag i 5 (sliceSet r.tag (fun x => { x with dspCtrs := bump x.dspCtrs 6, freed := freed x })
            { m.cpu with
              ready := putList m.cpu.ready (readyKey r.tag i.prio) (keep (getReady m r.tag i.prio))
              delay := putList m.cpu.delay r.tag (keep (getDelay m r.tag)) })
          t.cpu = answer (if delayed = true then 1 else 0) c)))

/-- The fill or copy that runs ends when its bytes have passed at 16 GB/s, and the next in turn begins (R537). A fill of a slice from its
image leaves the slice filled: in its own memory every byte that no filled region's contents cover reads zero, every byte outside it reads
as before, and a reload raises event 0x0605 (R157, R161, R174). The end of a migration's copy marks it copied; a matched copy of the
twin's image leaves the queue. Before the compute domain runs no fill ends (R501).

A resetting slice completes once none of its deliveries is in flight any more (R174): event 0x0604 gives what was withdrawn and discarded,
its staged windows stay to be committed at their gaps (R218), its latched time registers are cleared, every waiting SLC_RESET is answered,
a memory error no longer waits for it (R166), and the reload is due behind the fills before it. One with a delivery in flight, one whose
reset is complete already, or that does not reset, is left alone.

What rests on a choice of the model: log entries 1, 10, 33, 45, 51. -/
def Obligations.FillsAndResets : Prop :=
  -- FillsEndInTurn
  ((∀ s f rest x, StateInv s → controlRuns s.m = true → computeRuns s.m = true → s.m.cpu.fills = f :: rest → tget s.m.cpu.slices f.tag = some x →
     f.kind = .admission ∨ f.kind = .refill ∨ f.kind = .reload →
     let m := advanceTo (f.start.getD (now s.m) + cdiv f.bytes 16) s.m
     ∃ t, Makes .sliceFillComplete s t ∧ Only [.cpu, .mem, .evr] m t ∧
       t.cpu = { s.m.cpu with
         fills := startedFills (now m) rest
         slices := tset s.m.cpu.slices f.tag { x with filled := true } } ∧
       Raises (if f.kind = .reload then [(0x0605, f.tag, le 1 f.tag ++ le 7 0)] else []) s.m t ∧
       ∀ k, (∀ r ∈ x.regions, r.kind < 2 → k < memKey f.tag r.vbase ∨ memKey f.tag r.vbase + r.clen ≤ k) →
         memRead t.mem k = if memKey f.tag 0 ≤ k ∧ k < memKey f.tag 0 + 2 ^ 40 then 0 else memRead s.m.mem k) ∧
   (∀ s f rest x, controlRuns s.m = true → computeRuns s.m = true → s.m.cpu.fills = f :: rest → tget s.m.cpu.slices f.tag = some x →
     f.kind = .migrate →
     let m := advanceTo (f.start.getD (now s.m) + cdiv f.bytes 16) s.m
     Makes .sliceFillComplete s { m with
       cpu := { s.m.cpu with
         fills := startedFills (now m) rest
         slices := tset s.m.cpu.slices f.tag { x with migration := x.migration.map fun g => { g with copied := true } } } }) ∧
   (∀ s, controlRuns s.m = false ∨ computeRuns s.m = false → Makes .sliceFillComplete s s.m) ∧
   (∀ s f rest, controlRuns s.m = true → computeRuns s.m = true → s.m.cpu.fills = f :: rest → f.kind = .image →
     let m := advanceTo (f.start.getD (now s.m) + cdiv f.bytes 16) s.m
     ∃ t, Makes .sliceFillComplete s t ∧ Only [.cpu, .mem, .lge, .sig] m t ∧
       t.cpu = { s.m.cpu with fills := startedFills (now m) rest })) ∧
  -- ResetCompletesOnce
  ((∀ s (tag : Fin 65) x r, computeReady s.m = true → tget s.m.cpu.slices tag.val = some x → x.reset = some r → r.complete = false →
     inFlight s.m tag.val = false →
     ∃ t e l, Makes (.sliceResetComplete tag) s t ∧ t.evr.arrivals = s.m.evr.arrivals ++ e :: l ∧ e.code = 0x0604 ∧ e.tag = tag.val ∧
       e.payload = le 1 tag.val ++ le 7 0 ++ le 8 (tickOf s.m.time.grid (now s.m)) ++ le 4 r.withdrawn ++ le 4 r.discarded ∧
       t.cpu.slices = tset s.m.cpu.slices tag.val { x with reset := some { r with complete := true, asked := [] } } ∧
       t.cpu.fills = startedFills (now s.m) (s.m.cpu.fills ++ [{ tag := tag.val, kind := .reload, bytes := sliceBytes x, start := none }]) ∧
       t.sig.windows = s.m.sig.windows ∧ (∀ e ∈ t.dom.memBanks, tag.val ∉ e.2) ∧
       (∀ k ∈ t.time.latch, k.1 < 32 → (s.m.cpu.cores.getD k.1 coreReset).lastTag ≠ tag.val) ∧ t.time.clock = s.m.time.clock) ∧
   (∀ s (tag : Fin 65), (inFlight s.m tag.val = true ∨ ((tget s.m.cpu.slices tag.val).bind (·.reset)).all (·.complete) = true) →
     Makes (.sliceResetComplete tag) s s.m))

/-- SLC_RESOURCE_SET of a hue accepted: scheduled, the pages of the new hue are chosen, and the copy of the slice's memory begins at
acceptance (R154, R171). One whose apply tick comes too early is refused 0x0209 with the earliest tick, and nothing else happens.

In the gap between two windows of the slice before its apply tick or one of the 16 ticks after it, long enough for the pages marked
meanwhile, a hue change switches the slice if its copy is complete and no core runs an item of it: the slice has the new hue and its
pages, event 0x0607 says so and the journal carries the change; else nothing happens. A tick after the apply tick that begins without the
switch counts a try, and with the seventeenth the change fails: the slice stays, its copy leaves the queue and event 0x0607 reports the
failure (R171).

What rests on a choice of the model: log entries 10, 23, 72. -/
def Obligations.HueChanges : Prop :=
  -- HueChangeBeginsItsCopy
  ((∀ s h p x, StateInv s → Accepts (atEffect (slcHue s.m)) s.m h p → tget s.m.cpu.slices (rd 1 p 0) = some x →
     let n := effTick s.m h
     ∃ mid t, Scheduled 0x0610 h p (le 8 n) n s.m mid ∧ Makes (.slcResourceSetHue h p) s t ∧
       t = { mid with
         cpu := { s.m.cpu with
           slices := tset s.m.cpu.slices (rd 1 p 0) { x with
             migration := some { hue := rd 4 p 4, tick := n, copied := false, tries := 0, marked := []
                                 pages := if x.hue = rd 4 p 4 then x.regions.map (·.pages) else placeRegions s.m (rd 4 p 4) n x.regions } }
           fills := startedFills (now s.m) (s.m.cpu.fills ++
             [{ tag := rd 1 p 0, kind := .migrate, bytes := sliceBytes x, start := none }]) } }) ∧
   (∀ s h p, StateInv s → boxOpen s.m h.box = true → judge (atEffect (slcHue s.m)) s.m h p = 0x0209 →
     ∃ t, Makes (.slcResourceSetHue h p) s t ∧ Delivered h
       (answerOf 0x0610 h (roleOf s.m h) h.apply 0x0209 (le 8 (migrationTick s.m (rd 1 p 0))) s.m) s.m t) ∧
   (∀ s h p, StateInv s → boxOpen s.m h.box = true →
     let st := judge (atEffect (slcHue s.m)) s.m h p
     st ≠ 0 → st ≠ 0x0209 → st ≠ relayMark →
     ∃ t, Makes (.slcResourceSetHue h p) s t ∧ Delivered h (answerOf 0x0610 h (roleOf s.m h) h.apply st [] s.m) s.m t)) ∧
  -- HueSwitchesOrFails
  (∀ s (tag : Fin 65) x g, tget s.m.cpu.slices tag.val = some x → x.migration = some g →
     let free := computeReady s.m = true ∧ g.copied = true ∧ (∀ c ∈ s.m.cpu.cores, ∀ r, c.run = some r → r.tag ≠ tag.val) ∧
       ∃ gap, migrationGap s.m tag.val = some gap ∧ g.tick ≤ gap.1 ∧
         (gap.1 ≤ s.m.time.tick ∨ s.m.time.tick < g.tick ∨ g.tries < 16) ∧ g.marked.length * 65536 ≤ gap.2 * 16
     let told (what : Nat) := le 1 tag.val ++ le 1 g.hue ++ le 1 what ++ le 5 0 ++ le 8 s.m.time.tick
     (free → ∃ t e l, Makes (.hueMigrationSwitch tag) s t ∧ Only [.cpu, .evr, .sec] s.m t ∧
       (tget t.cpu.slices tag.val).map bareSlice =
         some (bareSlice { x with hue := g.hue, regions := withPages x.regions g.pages, migration := none }) ∧
       t.evr.arrivals = s.m.evr.arrivals ++ e :: l ∧ e.code = 0x0607 ∧ e.payload = told 0 ∧
       t.sec = { s.m.sec with
         journal := s.m.sec.journal ++ [JEntry.mk 0x0610 s.m.time.tick (le 1 tag.val ++ le 1 1 ++ le 2 0 ++ le 4 g.hue ++ le 8 0) 0] }) ∧
     (¬ free → Makes (.hueMigrationSwitch tag) s s.m) ∧
     (s.m.time.tick ≤ g.tick → migrationPassed tag.val s.m = s.m) ∧
     (g.tick < s.m.time.tick → g.tries < 16 → migrationPassed tag.val s.m = { s.m with
       cpu := { s.m.cpu with slices := tset s.m.cpu.slices tag.val { x with migration := some { g with tries := g.tries + 1 } } } }) ∧
     (g.tick < s.m.time.tick → 16 ≤ g.tries → ∃ t, migrationPassed tag.val s.m = t ∧ Only [.cpu, .evr] s.m t ∧
       Raises [(0x0607, tag.val, told 1)] s.m t ∧
       t.cpu = { s.m.cpu with
         slices := tset s.m.cpu.slices tag.val { x with migration := none }
         fills := startedFills (now s.m) (s.m.cpu.fills.filter fun f => !(f.tag == tag.val && f.kind == .migrate)) }))

-- Signals and GOOSE (chapter 08)

/-- A read of a point by a slice's item (R172, R214, R221, R227): refused while the slice resets, where no range defines the point, and where
neither ownership nor a read right of the item's grant allows it, which is counted; else the slice's own staged value, if it has one, and
otherwise the committed one, flagged as initial if nothing has written it. Only the access registers change, and the counter.

A write of a point by a slice's item (R217, R227): refused and counted where no range defines the point, another owns it, or value or
quality is not of its type; else it is staged in the item's window, without FORCED, with the timestamp given or that of the tick the window
commits in, and no committed point changes. -/
def Obligations.PointAccess : Prop :=
  -- PointReadsStagedThenCommitted
  (∀ s core run, coreRun s.m core = some run →
     let t := run.tag
     let x := getSpa s.m core t
     let i := x.index.toNat % 2 ^ 23
     let shows (code : BitVec 8) (v : PVal) : Mach := withSpa core t
       { x with value := v.value, meta_ := .ofNat 64 (v.tfrac.toNat * 2 ^ 32 + v.quality.toNat), sec := .ofNat 64 v.secLo.toNat, status := code }
       s.m
     (sliceResets s.m t = true → Makes (.spaRead core) s (withSpa core t { x with status := 0x15 } s.m)) ∧
     (sliceResets s.m t = false → rangeOf s.m.sig i = none → Makes (.spaRead core) s (withSpa core t { x with status := 0x12 } s.m)) ∧
     (∀ r, sliceResets s.m t = false → rangeOf s.m.sig i = some r → mayRead r t i run.reads = false →
       Makes (.spaRead core) s (withSpa core t { x with status := 0x10 }
         { s.m with cpu := sliceSet t (fun y => { y with ctrs := bump y.ctrs 4 }) s.m.cpu })) ∧
     (∀ r e, sliceResets s.m t = false → rangeOf s.m.sig i = some r → mayRead r t i run.reads = true → stagedOf s.m.sig t i = some e →
       Makes (.spaRead core) s (shows 0 e.v)) ∧
     (∀ r p, sliceResets s.m t = false → rangeOf s.m.sig i = some r → mayRead r t i run.reads = true → stagedOf s.m.sig t i = none →
       pointAt s.m.sig i = some p → Makes (.spaRead core) s (shows (if p.initial then 1 else 0) p.v))) ∧
  -- PointWritesAreStaged
  (∀ s (core : Fin 32) run, coreRun s.m core = some run → sliceResets s.m run.tag = false →
     let t := run.tag
     let x := getSpa s.m core t
     let i := x.index.toNat % 2 ^ 23
     let q : BitVec 32 := .ofNat 32 x.meta_.toNat
     let refused (code : BitVec 8) : Mach := withSpa core t { x with status := code }
       { s.m with cpu := sliceSet t (fun y => { y with ctrs := bump y.ctrs 5 }) s.m.cpu }
     ∀ c ∈ [(Instr.spaWriteAuto core, false), (Instr.spaWriteExplicit core, true)],
       (rangeOf s.m.sig i = none → Makes c.1 s (refused 0x12)) ∧
       (∀ r, rangeOf s.m.sig i = some r → ¬ (r.ownerKind = 1 ∧ r.owner = t) → Makes c.1 s (refused 0x11)) ∧
       (∀ r, rangeOf s.m.sig i = some r → r.ownerKind = 1 → r.owner = t → (valueOk r.ty r.len x.value && qualityOk q) = false →
         Makes c.1 s (refused 0x13)) ∧
       (∀ r, rangeOf s.m.sig i = some r → r.ownerKind = 1 → r.owner = t → (valueOk r.ty r.len x.value && qualityOk q) = true →
         let w := windowOf s.m.sig core t run
         (tget w.writes i).isSome ∨ w.writes.length < 4096 →
         let n := windowTick s.m (commitAt s.m run.tick run.e)
         let q' := q &&& ~~~0x4000
         let v : PVal := if c.2 then
             { value := x.value, quality := q', tfrac := .ofNat 32 (x.meta_.toNat / 2 ^ 32), secLo := .ofNat 32 x.sec.toNat }
           else stamped x.value q' (tickAt s.m n) (tqAt s.m n)
         let e : StagedPt := { v := v, ty := r.ty, len := r.len, order := s.m.sig.stageOrder }
         let g := setWindow core t run { w with writes := tset w.writes i e } { s.m.sig with stageOrder := s.m.sig.stageOrder + 1 }
         Makes c.1 s (withSpa core t { x with status := 0 } { s.m with sig := g }) ∧ g.points = s.m.sig.points))

/-- A burst works down its list until an entry is refused: the done count and the status say where, and the status is 0 exactly if every
entry is done (R225 to R227). A count of 0 or above 256 and misaligned addresses do nothing but set the status. A read can change the
slice's memory and its mirror list beside the access registers, a write stages as single writes do; a burst that reads one point stores
the point's 24 bytes at the buffer's address and no byte elsewhere.

The writes of a core's oldest window with staged writes commit together at its commit instant (R217, R218): a point that still belongs to
the slice with the same type takes the staged value; one that does not stays, with event 0x0808; no other point changes.

What rests on a choice of the model: log entry 33. -/
def Obligations.BurstsAndCommits : Prop :=
  -- BurstsStopAtTheFirstRefusal
  (∀ s (core : Fin 32) (cnt : BitVec 16) run, StateInv s → coreRun s.m core = some run →
     let n := cnt.toNat % 512
     let x := getSpa s.m core run.tag
     let bad := n = 0 ∨ 256 < n
     let skew := x.list.toNat % 8 ≠ 0 ∨ x.buf.toNat % 16 ≠ 0
     (∀ c ∈ [(Instr.spaBurstRead core cnt, [Part.sig, .cpu, .mem, .twn]), (Instr.spaBurstWriteAuto core cnt, [.sig, .cpu, .evr]),
         (Instr.spaBurstWriteExplicit core cnt, [.sig, .cpu, .evr])],
       (bad → Makes c.1 s (withSpa core run.tag { x with burstStatus := 0x17, burstDone := 0 } s.m)) ∧
       (¬ bad → skew → Makes c.1 s (withSpa core run.tag { x with burstStatus := 0x16, burstDone := 0 } s.m)) ∧
       (¬ bad → ¬ skew → ∃ t, Makes c.1 s t ∧ Only c.2 s.m t ∧ t.sig.points = s.m.sig.points ∧
         (getSpa t core run.tag).burstDone ≤ n ∧
         ((getSpa t core run.tag).burstStatus = 0 ↔ (getSpa t core run.tag).burstDone = n))) ∧
     (∀ y v code, n = 1 → ¬ skew → tget s.m.cpu.slices run.tag = some y → spanOk y x.list.toNat 4 0 = true → spanOk y x.buf.toNat 24 1 = true →
       sliceRead s.m run.tag (ofLe (slcGet s.m run.tag x.list.toNat 4) % 2 ^ 23) run.reads = (code, some v) →
       ∃ t, Makes (.spaBurstRead core cnt) s t ∧ (getSpa t core run.tag).burstStatus = 0 ∧
         (∀ k, (hk : k < (pointEntry v).length) → memRead t.mem (memKey run.tag x.buf.toNat + k) = (pointEntry v)[k]) ∧
         ∀ a, (a < memKey run.tag x.buf.toNat ∨ memKey run.tag x.buf.toNat + 24 ≤ a) → memRead t.mem a = memRead s.m.mem a)) ∧
  -- WindowCommitsItsWrites
  (∀ s (core : Fin 32) w, computeRuns s.m = true → clockRuns s.m = true → s.m.sig.windows.find? (fun w => w.core == core.val) = some w →
     ∃ t, Makes (.windowCommit core) s t ∧ Only [.time, .sig, .cpu, .evr] s.m t ∧
       t.time = (advanceTo (commitAt s.m w.tick w.e) s.m).time ∧ t.sig.windows = s.m.sig.windows.erase w ∧
       (∀ i, (∀ y ∈ w.writes, y.1 ≠ i) → pointAt t.sig i = pointAt s.m.sig i) ∧
       ∀ x ∈ w.writes, (∀ y ∈ w.writes, y.1 = x.1 → y = x) →
         (StillOwned s.m w.tag x.1 x.2 → pointAt t.sig x.1 = some { v := x.2.v, initial := false }) ∧
         (¬ StillOwned s.m w.tag x.1 x.2 → pointAt t.sig x.1 = pointAt s.m.sig x.1 ∧
           ∃ e ∈ t.evr.arrivals, e.code = 0x0808 ∧ e.payload = le 1 w.tag ++ le 3 0 ++ le 4 x.1))

/-- A retransmission that is due at Λ(n) leaves with the assembly of tick n, which the command brings about: where that is the next, it is
the same step (R231). There a retransmission of a block whose owner runs is numbered with the same stNum and the next sqNum, and the curve
moves on; a state change is numbered with the next stNum and sqNum 0, and the curve begins anew. A message numbered is enqueued for launch
at Λ(n) on the ports that are enabled then, but not on a standby, whose numbers go on (R415); one that is not numbered is counted, and the
next message announces a change. Only signal table and the switch's input change. Trip messages are enqueued before others, changes before
retransmissions (R230, R231, R233 to R235).

The GOOSE engine takes the oldest message steered to it. One that matches an enabled block on its port, needs no authentication, is no
simulation and fits the block is a state change if its stNum is new or supervision begins with it: numbers and data are kept, supervision
lasts its timeAllowedtoLive, and the members are committed; a repetition with a later sqNum only prolongs supervision; one under the last
stNum whose sqNum is not after the last is counted and dropped, after an expiry too (R236, R237).

When the timeAllowedtoLive of a supervised block ends, it is expired with event 0x0801: every member point keeps its value, with quality
invalid and oldData and the time of the expiry (R238).

What rests on a choice of the model: log entries 10, 16, 17, 33. -/
def Obligations.GooseIsSentAndSupervised : Prop :=
  -- RetransmissionFollowsItsCurve
  ((∀ s (blk : Fin 2048) b n, clockRuns s.m = true → tget s.m.sig.pubs blk = some b → pubOn b.entry = true → b.next = some n →
     Makes (.gooseRetransmit blk) s (assembleSome (assembliesTo n s.m) s.m) ∧
     (assembliesTo n s.m = 0 → Makes (.gooseRetransmit blk) s s.m) ∧
     (∀ d rest, s.m.time.asm = d :: rest → s.m.flt.grid = some d.grid → n ≤ d.tick → d.late = [] → ∃ t, Makes (.gooseRetransmit blk) s t ∧
       Makes .assembly s t ∧ t.time = { (advanceTo d.d s.m).time with asm := rest } ∧ assembledBefore t = some d.tick)) ∧
   (∀ s (blk : Fin 2048), (∀ b, tget s.m.sig.pubs blk = some b → pubOn b.entry = false ∨ b.next = none) →
     Makes (.gooseRetransmit blk) s s.m) ∧
   (∀ m blk b vals (d : AsmDue), tget m.sig.pubs blk = some b →
     let cls := if b.entry.flags.getLsbD 1 = true then 7 else 4
     let on := (List.range 8).filter fun p => b.entry.ports.getLsbD p && portOnAt m p (d.d + 12000)
     let n := tgetD m.sig.nums blk (0, 0)
     let sends (t : Mach) : Prop := (on = [] → t.net = m.net) ∧
       (on ≠ [] → ∃ f, t.net = { m.net with inner := m.net.inner ++ [f] } ∧ f.goose = true ∧ f.block = some blk ∧
         f.launch = launchWord (d.d + 12000) ∧ f.cls = cls ∧ f.targets = on.map (fun p => (p, cls)))
     (∀ t, t = pubRepeat blk b vals d m → ∃ y, Only [.sig, .net] m t ∧ t.sig.points = m.sig.points ∧ tget t.sig.pubs blk = some y ∧
       y.entry = b.entry ∧ y.pos = b.pos + 1 ∧ y.next = some (d.tick + curveStep (curveOf m b.entry) (b.pos + 1)) ∧ y.last = b.last ∧
       y.t = b.t ∧
       (pubNumbered m d.t b.entry = true → tget t.sig.nums blk = some (n.1, nextNum n.2) ∧ y.force = b.force) ∧
       (pubAllowed m d.t b.entry = true → sends t) ∧
       (pubNumbered m d.t b.entry = false → t.sig.nums = m.sig.nums ∧ y.force = true) ∧
       (pubAllowed m d.t b.entry = false → t.net = m.net ∧ ctr y.ctrs 3 = ctr b.ctrs 3 + 1)) ∧
     (∀ t, t = pubChange blk b vals d m → ∃ y, Only [.sig, .net] m t ∧ t.sig.points = m.sig.points ∧ tget t.sig.pubs blk = some y ∧
       y.entry = b.entry ∧ y.pos = 0 ∧ y.next = some (d.tick + curveStep (curveOf m b.entry) 0) ∧ y.last = some vals ∧
       (pubNumbered m d.t b.entry = true → tget t.sig.nums blk = some (nextNum n.1, 0) ∧ y.force = false ∧ y.m = d.tick ∧
         y.t = d.d + 12000) ∧
       (pubAllowed m d.t b.entry = true → sends t) ∧
       (pubNumbered m d.t b.entry = false → t.sig.nums = m.sig.nums ∧ y.force = true) ∧
       (pubAllowed m d.t b.entry = false → t.net = m.net ∧ ctr y.ctrs 3 = ctr b.ctrs 3 + 1))) ∧
   (∀ m i j a b x y (d : AsmDue), m.sig.pubs = [(i, a), (j, b)] → owedAt d m a = some x → owedAt d m b = some y →
     let trip (p : Pub) := p.entry.flags.getLsbD 1
     (trip a = false → trip b = true → gooseSnapshot d m = sendOwed d ((i, a), x) (sendOwed d ((j, b), y) m)) ∧
     (trip a = trip b → (∃ v, x = .again v) → (∃ v, y = .change v) →
       gooseSnapshot d m = sendOwed d ((i, a), x) (sendOwed d ((j, b), y) m)) ∧
     (trip a = true → trip b = false → gooseSnapshot d m = sendOwed d ((j, b), y) (sendOwed d ((i, a), x) m)))) ∧
  -- GooseMessagesAreTaken
  ((∀ s g rest, s.m.sig.inbox = g :: rest → ∃ t, Makes .gooseReceive s t ∧ Only [.sig, .evr] s.m t ∧ t.sig.inbox = rest) ∧
   (∀ s g rest p i b, s.m.sig.inbox = g :: rest → computeReady s.m = true → g.frame.body = .goose p →
     matchGoose s.m g.frame p = some (i, b) → gsubOn b.entry = true → b.entry.ports.getLsbD g.port = true →
     b.entry.flags.getLsbD 2 = false → b.authFail = false → p.simulate = false → b.inSim = false →
     p.confRev = b.entry.confRev → p.ndsCom = false → p.entries = b.entry.members.length → p.data.length = b.entry.members.length →
     ((b.entry.members.zip p.data).all fun x => gvalFits s.m x.1 x.2) = true →
     let first := b.heard = false ∨ b.expired = true
     let stale := b.heard = true ∧ p.stNum = b.st ∧ sqAfter b.sq p.sqNum = false
     ∃ t y, Makes .gooseReceive s t ∧ tget t.sig.gsubs i = some y ∧ y.entry = b.entry ∧
       (¬ stale → first ∨ p.stNum ≠ b.st → y.st = p.stNum ∧ y.sq = p.sqNum ∧ y.heard = true ∧ y.expired = false ∧
         y.expiry = some (g.ts + p.tal * 1000000) ∧ y.data = p.data ∧ t.sig.points = (commitGoose b.entry p s.m).sig.points) ∧
       (¬ first → p.stNum = b.st → sqAfter b.sq p.sqNum = true → y.st = b.st ∧ y.sq = p.sqNum ∧
         y.expiry = some (g.ts + p.tal * 1000000) ∧ y.data = b.data ∧ t.sig.points = s.m.sig.points) ∧
       (stale → y.sq = b.sq ∧ y.expiry = b.expiry ∧ y.expired = b.expired ∧ y.data = b.data ∧
         ctr y.ctrs 2 = ctr b.ctrs 2 + 1 ∧ t.sig.points = s.m.sig.points))) ∧
  -- SupervisionExpires
  (∀ s (blk : Fin 4096) b u, computeReady s.m = true → clockRuns s.m = true → tget s.m.sig.gsubs blk = some b → gsubOn b.entry = true →
     b.expiry = some u →
     ∃ t y, Makes (.gooseSupervisionExpire blk) s t ∧ Only [.time, .sig, .evr] s.m t ∧ t.time = (advanceTo u s.m).time ∧
       tget t.sig.gsubs blk = some y ∧ y.expiry = none ∧ y.expired = true ∧ y.st = b.st ∧ y.sq = b.sq ∧ y.entry = b.entry ∧
       Raises [(0x0801, 0, le 2 blk.val ++ le 6 0)] s.m t ∧
       ∀ i p, pointAt s.m.sig i = some p → ((∃ x ∈ b.entry.members, x.1 = i ∧ x.2 ≠ 3) →
         pointAt t.sig i = some { v := stamped p.v.value (setValidity p.v.quality 1 ||| 0x80) (now t) (timeQuality t.time), initial := false }) ∧
         ((∀ x ∈ b.entry.members, x.1 = i → x.2 = 3) → pointAt t.sig i = some p))

-- Switch, ports and rings (chapters 09 to 11)

/-- A frame at its end on a port that receives (R267): one with an error is counted by its kind and discarded; a good one is decided by
the first rule that matches, of those that stood as its first byte came in, which counts it; a rule without a target discards and counts
it, and else it waits in its class's headroom for admission, bearing class, rule, port and corrected timestamp (R37, R247). While the
fabric does not run PU discards and counts all but the frames of its streams (R367). An oversize one is truncated for the targets that
take it and counted for the others (R273). On a port that is down, or disabled but for a frame in reception then, nothing is received
(R285).

A frame that waits is tried for admission (R250), one whose targets take it at once before those that may have to wait (R255): a source
that waits has its frame stay, marked; an admitted one leaves its headroom or its source's list. One whose single target is an enabled MAC
port with room under its threshold, and free cells in the pool, is admitted, and stands last in that queue. A frame that comes in on a
port with cut-through begins on a single target port that fits while it comes in, and is counted, an express one too that comes in before
the end of a preemptable one; a preemptable one, a MAC control frame and one of the chain or twin unit are not cut through (R256, R267).

What rests on a choice of the model: log entries 1, 10, 65, 76. -/
def Obligations.FramesAreReceivedAndAdmitted : Prop :=
  -- FramesAreReceived
  ((∀ s port f, portHears s.m port.val f.frame.len = false → Makes (.frameReceive port f) s s.m) ∧
   (∀ s (port : Fin 13) f x, portHears s.m port.val f.frame.len = true → getPort s.m port.val = some x →
     (¬ (f.preemptable = true ∧ x.preRx = true) → ∀ g, x.incoming = some g → g.id = 0 ∧ g.targets = []) →
     let y := counted x f
     let first := firstByte x (now s.m) f.frame.len f.extra
     let x' := rulesAt x first
     let fr := f.frame
     (∀ i, rxError f = some i → Makes (.frameReceive port f) s (withPort port { y with ctrs := bump y.ctrs i } s.m)) ∧
     (rxError f = none → fabricRuns s.m = false → port.val = 12 → umberStream s.m fr = none →
       Makes (.frameReceive port f) s (withPuOther (withPort port y s.m))) ∧
     (rxError f = none → (fabricRuns s.m = true ∨ port.val ≠ 12) → fr.etype = 0x8808 → rdBe 2 fr.payload 0 ≠ 1 → rdBe 2 fr.payload 0 ≠ 0x0101 →
       Makes (.frameReceive port f) s (withPort port { y with ctrs := bump y.ctrs 9 } s.m)) ∧
     (rxError f = none → fabricRuns s.m = true → fr.etype ≠ 0x8808 → (port.val = 12 → umberStream s.m fr = none) →
       (fr.etype = 0x88B5 → port.val ≠ 8 ∧ port.val ≠ 10 ∧ port.val ≠ 11) →
       let k := decidingRule x' fr
       let r := ruleOf x' k
       let hit := { y with rules := tset y.rules k { ruleOf x k with hits := (ruleOf x k).hits + 1 } }
       (r.targets.toNat % 64 = 0 → Makes (.frameReceive port f) s (withPort port { hit with ctrs := bump hit.ctrs 8 } s.m)) ∧
       (r.targets.toNat % 64 ≠ 0 → fr.len ≤ x.cfg.maxLen →
         let to_ := targetsOf s.m port r (classOf r fr) fr
         let w := receivedFrame port k (classOf r fr) fr (rxStamp x (now s.m) fr.len f.extra) false to_
         let use := headroomUse x (if port.val ∈ [8, 10, 11] then some w.cls else none)
         ∃ t z, Makes (.frameReceive port f) s t ∧ Only [.net, .evr] s.m t ∧ getPort t port = some z ∧ z.rules = hit.rules ∧ z.cfg = x.cfg ∧
           z.link = x.link ∧ z.sending = x.sending ∧
           (to_ ≠ [] → use + w.bytes ≤ x.headroom →
             tgetD z.waiting w.cls [] = tgetD x.waiting w.cls [] ++ [w] ∧ t.evr = s.m.evr) ∧
           (to_ = [] → z.waiting = x.waiting ∧ t.evr = s.m.evr) ∧
           (to_ ≠ [] → neverWaits w = false → x.headroom < use + w.bytes →
             z.waiting = x.waiting ∧ Raises [(0x0904, 0, fields [(1, port.val), (1, w.cls), (6, 0)])] s.m t)) ∧
       (r.targets.toNat % 64 ≠ 0 → x.cfg.maxLen < fr.len →
         let to_ := targetsOf s.m port r (classOf r fr) fr
         let kept := to_.filter (oversizeTakes r)
         let w := receivedFrame port k (classOf r fr) (truncated x.cfg.maxLen fr) (rxStamp x (now s.m) fr.len f.extra) true kept
         let use := headroomUse x (if port.val ∈ [8, 10, 11] then some w.cls else none)
         ∃ t z, Makes (.frameReceive port f) s t ∧ Only [.net, .evr, .quiet] s.m t ∧ getPort t port = some z ∧ z.rules = hit.rules ∧
           ctr z.ctrs 6 = ctr x.ctrs 6 + .ofNat 64 (to_.length - kept.length) ∧
           (kept ≠ [] → use + w.bytes ≤ x.headroom → tgetD z.waiting w.cls [] = tgetD x.waiting w.cls [] ++ [w]) ∧
           (kept = [] → z.waiting = x.waiting))))) ∧
  -- FramesAreAdmitted
  ((∀ s (p : Fin 13) (c : Fin 8) x f rest, fabricRuns s.m = true → getPort s.m p.val = some x → tgetD x.waiting c.val [] = f :: rest →
     (∀ g, (f :: rest).find? neverWaits = some g → ∃ t y, Makes (.admission (.port p c)) s t ∧ getPort t p = some y ∧ t.time = s.m.time ∧
       ((f :: rest).erase g ≠ [] → tget y.waiting c.val = some ((f :: rest).erase g))) ∧
     ((f :: rest).find? neverWaits = none →
     (∀ w, (admitOne f s.m).1 = some w → ∃ t y, Makes (.admission (.port p c)) s t ∧ getPort t p = some y ∧
       tget y.waiting c.val = some (w :: rest) ∧ w.waited = true ∧ t.time = s.m.time) ∧
     ((admitOne f s.m).1 = none → ∃ t y, Makes (.admission (.port p c)) s t ∧ getPort t p = some y ∧ t.time = s.m.time ∧
       (rest ≠ [] → tget y.waiting c.val = some rest)) ∧
     (∀ (q : Fin 13) (d : Fin 8) z, f.targets = [(q.val, d.val)] → f.goose = false → f.tx = none → f.acct = none → f.id = 0 → f.launch = 0 →
       f.block = none → getPort s.m q.val = some z → z.cfg.enabled = true → overThreshold s.m f (queueKey q d) = false → f.bytes ≤ poolFree s.m →
       ∃ t, Makes (.admission (.port p c)) s t ∧ t.net.nextId = s.m.net.nextId + 1 ∧
         ctr (getQueue t.net (queueKey q d)).ctrs 0 = ctr (getQueue s.m.net (queueKey q d)).ctrs 0 + 1 ∧
         (tget s.m.net.store s.m.net.nextId = none → (tget t.net.store s.m.net.nextId).isSome ∧
           (getQueue t.net (queueKey q d)).other = (getQueue s.m.net (queueKey q d)).other ++ [s.m.net.nextId])))) ∧
   (∀ s src, src = .internal ∨ (∃ r, src = .ring r) → fabricRuns s.m = true → s.m.net.inner = [] → Makes (.admission src) s s.m) ∧
   (∀ s r f, fabricRuns s.m = true → s.m.net.inner.find? (fun x => innerGroup x == (14, 16 + ringAccount s.m r)) = some f →
     (admitOne f s.m).1 = none → ∃ t, Makes (.admission (.ring r)) s t ∧ t.net.inner = s.m.net.inner.erase f ∧ t.time = s.m.time) ∧
   (∀ s f, fabricRuns s.m = true → s.m.net.inner = [f] → (f.port ≠ 14 ∨ (f.acct = none ∧ f.cls < 8)) → (admitOne f s.m).1 = none →
     ∃ t, Makes (.admission .internal) s t ∧ t.net.inner = [] ∧ t.time = s.m.time) ∧
   (∀ s (port : Fin 13) g x, getPort s.m port.val = some x →
     let f := g.frame
     let x' := rulesAt x (firstByte x (now s.m) 64 g.extra)
     let r := ruleOf x' (decidingRule x' f)
     let cls := classOf r f
     let st := receivedFrame port (decidingRule x' f) cls { f with len := x.cfg.maxLen } (rxStamp x (now s.m) 64) false []
     let pre := g.preemptable = true ∧ x.preRx = true
     let whole := x.cutThrough = false ∨ f.etype = 0x8808 ∨
       (f.etype = 0x88B5 ∧ (port = 8 ∨ port = 10 ∨ port = 11))
     let hears := fabricRuns s.m = true ∧ portHears s.m port 64 = true ∧ ¬ pre ∧ x.incoming = none
     (fabricRuns s.m = true → portHears s.m port 64 = true → pre → Makes (.cutThrough port g) s (withPort port { x with inPre := true } s.m)) ∧
     (¬ hears → (fabricRuns s.m = false ∨ portHears s.m port 64 = false ∨ ¬ pre) → Makes (.cutThrough port g) s s.m) ∧
     (hears → whole → Makes (.cutThrough port g) s (withPort port { x with incoming := some st } s.m)) ∧
     (∀ (q : Fin 13) y, hears → ¬ whole → macTargets r = [q.val] → q ≠ port → getPort s.m q.val = some y → cutFits s.m x q cls = true →
       (admitTry s.m { st with targets := [(q.val, cls)] }).isSome →
       ∃ t w, Makes (.cutThrough port g) s t ∧ Only [.net, .evr] s.m t ∧ getPort t q = some w ∧
         w.sending = some { id := s.m.net.nextId, cls := cls, start := now s.m, left := x.cfg.maxLen, sent := 0, cut := true, owed := false } ∧
         ∃ v, getPort t port = some v ∧ (s.m.net.nextId ≠ 0 → v.swCtrs = bump x.swCtrs 1) ∧
           v.incoming.map (·.id) = some s.m.net.nextId)))

/-- A PAUSE frame stops all classes of a port in mode PAUSE, a PFC frame the classes of vector and mask on one in mode PFC, for their
times from now; one of a mode the port is not in is counted and ignored (R279, R280), and one on PU while the fabric does not run is
discarded and counted (R367). Each is a frame received, as any is (R286). The
timer of a class ends its stop.

A class that pause frames have kept stopped for the whole storm limit is released; for one limit more they are ignored, with event 0x0A04
and a count; at its end the storm goes on if a pause frame has arrived in it, and ends with event 0x0A05 if none has (R281). A port whose
headroom stays above XON repeats its own pause frame at half its time (R282).

What rests on a choice of the model: log entries 1, 2, 10, 33. -/
def Obligations.PauseFrames : Prop :=
  -- PauseFramesStopClasses
  ((∀ s (port : Fin 13) (q : BitVec 16) x, portHears s.m port.val 64 = true → getPort s.m port.val = some x →
     let h := heard64 x
     (fabricRuns s.m = false → Makes (.pauseReceive port q) s (withPuOther (withPort port h s.m))) ∧
     (x.cfg.fc ≠ 1 → fabricRuns s.m = true → Makes (.pauseReceive port q) s (withPort port { h with ctrs := bump h.ctrs 14 } s.m)) ∧
     (x.cfg.fc = 1 → fabricRuns s.m = true → (getPause x 0).ignore = none → q ≠ 0 → x.sending = none →
       ∃ t y, Makes (.pauseReceive port q) s t ∧ Only [.net] s.m t ∧ getPort t port = some y ∧ y.cfg = x.cfg ∧ y.ctrs = bump h.ctrs 13 ∧
         ∀ c, c < 8 → StopsFor x q.toNat (now s.m) (getPause x c) (getPause y c))) ∧
   (∀ s (port : Fin 13) (vec : BitVec 8) times x, portHears s.m port.val 64 = true → getPort s.m port.val = some x →
     let h := heard64 x
     (fabricRuns s.m = false → Makes (.pfcReceive port vec times) s (withPuOther (withPort port h s.m))) ∧
     (x.cfg.fc ≠ 2 → fabricRuns s.m = true → Makes (.pfcReceive port vec times) s (withPort port { h with ctrs := bump h.ctrs 16 } s.m)) ∧
     (x.cfg.fc = 2 → fabricRuns s.m = true → (∀ c, (getPause x c).ignore = none) → x.sending = none →
       (∀ c, c < 8 → vec.getLsbD c = true → times.getD c 0 ≠ 0) → ∃ t y, Makes (.pfcReceive port vec times) s t ∧ Only [.net] s.m t ∧ getPort t port = some y ∧
         y.cfg = x.cfg ∧
         ∀ c, c < 8 →
           (vec.getLsbD c = true → x.cfg.pfcMask.getLsbD c = true →
             StopsFor x (times.getD c 0).toNat (now s.m) (getPause x c) (getPause y c)) ∧
           (vec.getLsbD c = false ∨ x.cfg.pfcMask.getLsbD c = false → getPause y c = getPause x c))) ∧
   (∀ s (port : Fin 13) (tc : Fin 8) x u, getPort s.m port.val = some x → (getPause x tc).until_ = some u →
     ∃ t y, Makes (.pauseTimerExpire port tc) s t ∧ Only [.time, .free, .net] s.m t ∧ t.time = (advanceTo u s.m).time ∧
       getPort t port = some y ∧ y.cfg = x.cfg ∧
       getPause y tc = { getPause x tc with waiting := none, until_ := none, since := none } ∧
       ∀ c, c ≠ tc.val → getPause y c = getPause x c)) ∧
  -- PauseStormsAreIgnored
  ((∀ s (port : Fin 13) (tc : Fin 8) x t0 u, getPort s.m port.val = some x → (getPause x tc).since = some t0 → (getPause x tc).until_ = some u →
     let limit := x.cfg.stormMs * 1000000
     let which := fields [(1, port.val), (1, if x.cfg.fc = 1 then 0xFF else tc.val), (6, 0)]
     (u < t0 + limit → Makes (.pauseStorm port tc) s s.m) ∧
     (t0 + limit ≤ u → ∃ t y, Makes (.pauseStorm port tc) s t ∧ Only [.time, .free, .net, .evr] s.m t ∧
       t.time = (advanceTo (t0 + limit) s.m).time ∧ getPort t port = some y ∧ y.ctrs = bump x.ctrs 19 ∧
       (∀ c ∈ stormClasses x tc, (getPause y c).until_ = none ∧ (getPause y c).ignore = some (now t + limit) ∧ (getPause y c).arrived = false) ∧
       Raises [(0x0A04, 0, which)] s.m t)) ∧
   (∀ s (port : Fin 13) (tc : Fin 8) x u, getPort s.m port.val = some x → (getPause x tc).ignore = some u →
     ∃ t y, Makes (.pauseStormPeriodEnd port tc) s t ∧ Only [.time, .free, .net, .evr] s.m t ∧ t.time = (advanceTo u s.m).time ∧
       getPort t port = some y ∧
       ((getPause x tc).arrived = true → y.ctrs = bump x.ctrs 19 ∧ t.evr = s.m.evr ∧
         ∀ c ∈ stormClasses x tc, (getPause y c).ignore = some (u + x.cfg.stormMs * 1000000) ∧ (getPause y c).arrived = false) ∧
       ((getPause x tc).arrived = false → y.ctrs = x.ctrs ∧ (∀ c ∈ stormClasses x tc, (getPause y c).ignore = none) ∧
         Raises [(0x0A05, 0, fields [(1, port.val), (1, if x.cfg.fc = 1 then 0xFF else tc.val), (6, 0)])] s.m t)) ∧
   (∀ s (port : Fin 13) x k t0, getPort s.m port.val = some x → x.fcAsked = [(k, t0)] →
     let half := quantaNs x x.cfg.pauseTime / 2
     let m := advanceTo (t0 + half) s.m
     (x.cfg.xon < headroomUse x (if k = 8 then none else some k) → t0 + half ≤ now m → Makes (.pauseResend port) s
       (withPort port { x with fcOut := addFlow (now m) k x.cfg.pauseTime x.fcOut, fcAsked := [(k, now m)] } m)) ∧
     (headroomUse x (if k = 8 then none else some k) ≤ x.cfg.xon → Makes (.pauseResend port) s (withPort port x m))))

/-- At a frame boundary an enabled port with link starts its oldest flow-control frame first, and else the frame that R274 to R276 name,
which may be what is left of a preempted one; a disabled port sends only that (R28, R260, R282). A frame in transmission ends after its
gap, and is counted; with nothing to send nothing happens. From the hold guard on a port with nothing on the wire holds for its earliest
launch, and at the launch instant starts the frame those rules name then (R55, R56).

A link that comes up on an enabled port starts anew: verification and earlier pauses are void and the heads of its queues are judged anew,
with event 0x0A01; the port of a cage held in low power stays down (R285, R524). A link that goes down raises event 0x0A02: nothing is in
transmission, no preemption is active. The verify procedure makes preemption active, each direction by itself, or its failure is reported
with event 0x0A03 (R275).

What rests on a choice of the model: log entries 1, 2, 10, 33, 42, 76. -/
def Obligations.PortsTransmitAndLink : Prop :=
  -- PortsTransmitInOrder
  ((∀ s (port : Fin 13) x, getPort s.m port.val = some x → portPowered s.m port = true → x.cfg.enabled = true → x.link = true → x.sending = none →
     (∀ e rest, x.fcOut = e :: rest → Makes (.macTransmitStart port) s (withPort port { x with
       fcOut := rest
       sending := some { id := 0, cls := 8, start := now s.m, left := 64, sent := 0, cut := false, owed := false }
       ctrs := bump x.ctrs (if e.2.any (fun y => y.1 != 8) = true then 18 else 17) } s.m)) ∧
     (x.fcOut = [] → nextFrame s.m port x = none → Makes (.macTransmitStart port) s s.m) ∧
     (∀ k, x.fcOut = [] → nextFrame s.m port x = some k → k.resume = false → ∃ t, Makes (.macTransmitStart port) s t ∧
       Only [.net, .evr, .sig] s.m t ∧ Begins port k s.m t) ∧
     (∀ k c, x.fcOut = [] → nextFrame s.m port x = some k → k.resume = true → x.cutOff = some c →
       ∃ t y, Makes (.macTransmitStart port) s t ∧ Only [.net, .evr, .sig] s.m t ∧ getPort t port = some y ∧
         y.sending = some { c with start := now s.m } ∧ y.cutOff = none)) ∧
   (∀ s (port : Fin 13) x, getPort s.m port.val = some x → portPowered s.m port = true → x.cfg.enabled = false → x.sending = none →
     (x.cutOff = none → Makes (.macTransmitStart port) s s.m) ∧
     (∀ c, x.cutOff = some c → ∃ t y, Makes (.macTransmitStart port) s t ∧ Only [.net, .evr, .sig] s.m t ∧ getPort t port = some y ∧
       y.sending = some { c with start := now s.m } ∧ y.cutOff = none ∧ y.fcOut = x.fcOut)) ∧
   (∀ s (port : Fin 13) x c, getPort s.m port.val = some x → portPowered s.m port = true → x.cfg.enabled = true → x.link = true →
     x.sending = some c → stillComing s.m c.id = false → wantsExpress s.m port x = false →
     ∃ t y, Makes (.macTransmitStart port) s t ∧ Only [.time, .free, .net, .evr, .sig] s.m t ∧
       t.time = (advanceTo (c.start + wireNs x (20 + c.left)) s.m).time ∧ getPort t port = some y ∧ ctr y.ctrs 10 = ctr x.ctrs 10 + 1) ∧
   (∀ s (port : Fin 13) x k, getPort s.m port.val = some x → portUp s.m port = true → pendingLaunch s.m port x = some k → x.sending = none →
     Makes (.launchHoldGuard port) s (withPort port { x with guard := some k.cls }
       (advanceTo ((k.launch.getD 0) - wireNs x (guardBytes x)) s.m))) ∧
   (∀ s (port : Fin 13) x k, getPort s.m port.val = some x → portUp s.m port = true → pendingLaunch s.m port x = some k → x.sending = none →
     x.fcOut = [] →
     let m := advanceTo (k.launch.getD 0) s.m
     (∀ k', nextFrame m port x = some k' → k'.resume = false → ∃ t, Makes (.launch port) s t ∧ Only [.time, .free, .net, .evr, .sig] s.m t ∧
       Begins port k' m t) ∧
     (nextFrame m port x = none → Makes (.launch port) s m))) ∧
  -- LinksComeAndGo
  ((∀ s (port : Fin 13) x, getPort s.m port.val = some x → portPowered s.m port = true →
     (x.cfg.enabled = true → x.link = false → s.m.dom.cageLow.contains port.val = false →
       let m := withPort port { x with link := true, preTx := false, preRx := false, verifyTries := 0, pauses := [] } s.m
       let judged := forEach (List.range 8) (fun c => settleHead port.val c 0 64) m
       Makes (.linkUp port) s (raise 0x0A01 0 (fields [(1, port.val), (1, x.cfg.speed), (1, x.cfg.fec), (5, 0)]) judged) ∧
       ((∀ c < 8, queueHead s.m port.val c = none) → judged = m)) ∧
     (x.cfg.enabled = false ∨ x.link = true ∨ s.m.dom.cageLow.contains port.val = true → Makes (.linkUp port) s s.m) ∧
     (x.link = true → ∃ t y e l, Makes (.linkDown port) s t ∧ getPort t port = some y ∧ y.link = false ∧ y.sending = none ∧ y.cutOff = none ∧
       y.incoming = none ∧ y.inPre = false ∧ y.preTx = false ∧ y.preRx = false ∧ y.cfg = x.cfg ∧ t.time = s.m.time ∧
       t.evr.arrivals = s.m.evr.arrivals ++ (l ++ [e]) ∧ e.code = 0x0A02 ∧ e.payload = fields [(1, port.val), (7, 0)]) ∧
     (x.link = false → Makes (.linkDown port) s s.m)) ∧
   (∀ s (port : Fin 13) x, getPort s.m port.val = some x →
     let may := portUp s.m port = true ∧ x.cfg.preempt = true
     (may → Makes (.preemptVerify port (.receive true)) s (withPort port { x with preRx := true } s.m)) ∧
     (may → x.preTx = false → x.verifyTries < 3 →
       Makes (.preemptVerify port (.transmit true)) s (withPort port { x with preTx := true } s.m) ∧
       Makes (.preemptVerify port (.transmit false)) s
         (raise 0x0A03 0 (fields [(1, port.val), (7, 0)]) (withPort port { x with verifyTries := 3 } s.m))) ∧
     (∀ ok, ¬ may ∨ x.preTx = true ∨ 3 ≤ x.verifyTries → Makes (.preemptVerify port (.transmit ok)) s s.m) ∧
     (∀ ok, ¬ may ∨ ok = false → Makes (.preemptVerify port (.receive ok)) s s.m)))

/-- R293, on the item of a core: RDB_HEAD of a position where its slice has a ring reads bit 63 enabled, bit 62 the direction, bit 61 STARVE,
bit 60 starved, the reserved bits zero and HEAD in the low 32 bits, and the read clears STARVE. At a position without a ring a read returns
0 and a write is ignored. After reset every field is 0. Nothing else changes. -/
def Obligations.RingRegisters : Prop :=
  (∀ g, let x := getRing State.reset.m g
    x.enabled = false ∧ x.tx = false ∧ x.starve = false ∧ x.starved = false ∧ x.head = 0) ∧
  ∀ s (core : Fin 32) (pos : Fin 64) (v : BitVec 64) r, coreRun s.m core = some r →
    (ringAt s.m r.tag pos.val = none → Makes (.rdbTail core pos v) s s.m ∧ Makes (.rdbHeadRead core pos) s (withRead core 0 s.m)) ∧
    (∀ g, ringAt s.m r.tag pos.val = some g →
      let x := getRing s.m g
      Makes (.rdbHeadRead core pos) s (withRing g { x with starve := false } (withRead core
        (.ofNat 64 (b2n x.enabled * 2 ^ 63 + b2n x.tx * 2 ^ 62 + b2n x.starve * 2 ^ 61 + b2n x.starved * 2 ^ 60 + x.head.toNat)) s.m)))

/-- A write of RDB_TAIL by a core's item (R291, R294, R301) is taken where it is no more than the ring's size above HEAD and not behind
the old one: TAIL is set, and a starved ring given a descriptor leaves that state with event 0x0B02. Any other write changes nothing, is
counted and raises event 0x0B04 unless it has lately done so; one of a disabled ring is only counted. A hold whose limit has passed has
ended before the write, one whose limit this cycle acts on has not (R300, R535). A receive ring delivers the frame at the head of its
queue: where the next posted buffer is good and holds it whole, the buffer holds the frame, the descriptor is written back with length and
status 0, HEAD is past it, and it is counted; no other byte of memory changes (R297, R298). A frame that finds no descriptor, or a slice
with a completion item held, waits, at most for a tick (R300, R306); in the starved state without a descriptor it is dropped and counted
(R301). At the limit the frame is dropped, the ring is starved with event 0x0B01, and without a descriptor what stands behind is dropped
too. At its slice's reset a delivery runs out to a null sink (R174). The engine reads a frame of the transmit ring whose turn it is (R302,
R303): a good one goes to the switch with its ports, class and launch time; a bad one is written back with status 5 or 6, counted and
reported by event 0x0B03 once a second at most (R308, R309). When no copy of a transmitted frame is left its descriptors are written back,
with 3 for one too far ahead and 4 for one removed (R304), unless the ring was enabled anew since they were read (log entry 84). A ring
that is armed reports its completions once CMP_COUNT are pending, or CMP_TICKS have gone since the oldest: a slice's ring posts one item
to its handler and is armed again when that item leaves the lists; a system ring tells the CP. Else, and without a handler, nothing
happens (R305). What rests on a choice of the model: log entries 1, 2, 10, 33, 75, 77, 84. -/
def Obligations.RingsDeliverAndTransmit : Prop :=
  -- DoorbellsPostDescriptors
  (∀ s (core : Fin 32) (pos : Fin 64) (v : BitVec 64) r g, coreRun s.m core = some r → ringAt s.m r.tag pos.val = some g →
     let x := getRing s.m g
     let tail : BitVec 32 := v.setWidth 32
     let bad := 2 ^ x.s < (tail - x.head).toNat ∨ 2 ^ 31 ≤ (tail - x.tail).toNat
     let fed := x.starved = true ∧ tail ≠ x.tail
     let ended := (∃ d, x.delivery = some d ∧ holding s.m x d = true ∧ d.hold + 2 ≤ now s.m) ∧ sliceResets s.m (ringTag x) = false
     (ended → Makes (.rdbTail core pos v) s (doorbell r.tag g tail (endHold g s.m))) ∧
     (¬ ended → x.enabled = false ∨ sliceResets s.m r.tag = true →
       Makes (.rdbTail core pos v) s (withRing g { x with ctrs := bump x.ctrs 7 } s.m)) ∧
     (¬ ended → x.enabled = true → sliceResets s.m r.tag = false → bad → ∃ t, Makes (.rdbTail core pos v) s t ∧
       Only [.net, .evr, .quiet] s.m t ∧ t.net = (withRing g { x with ctrs := bump x.ctrs 8 } s.m).net ∧
       (tget s.m.quiet (quietKey 0x0B04 g) = none → Raises [(0x0B04, r.tag, fields [(2, g), (1, r.tag), (5, 0)])] s.m t)) ∧
     (¬ ended → x.enabled = true → sliceResets s.m r.tag = false → ¬ bad → ¬ fed →
       Makes (.rdbTail core pos v) s (withRing g { x with tail := tail } s.m)) ∧
     (¬ ended → x.enabled = true → sliceResets s.m r.tag = false → ¬ bad → fed → Makes (.rdbTail core pos v) s
       (withRing g { x with tail := tail, starved := false, starvedDrops := 0 }
         (raise 0x0B02 r.tag (fields [(2, g), (1, r.tag), (1, 0), (4, x.starvedDrops)]) s.m)))) ∧
  -- RingsDeliverFrames
  ((∀ s (ring : Fin 256) x, getRing s.m ring = x → x.tx = false → fabricRuns s.m = true → computeRuns s.m = true →
     sliceResets s.m (ringTag x) = false → x.enabled = true → ringDrains s.m (ringTag x) = true →
     let tag := ringTag x
     let limit := now s.m + ticksNs s.m.time.grid 1
     (x.delivery = none → (getQueue s.m.net (queueKey 14 ring)).other = [] → Makes (.ringReceiveDelivery ring) s s.m) ∧
     (∀ f id rest, x.delivery = none → (getQueue s.m.net (queueKey 14 ring)).other = id :: rest → tget s.m.net.store id = some f →
       let data := frameBytes f.frame
       let d := readDesc s.m x x.rdIdx
       let va := rd 8 d 0
       let size := 2048 * rd 1 d 8
       (x.rdIdx ≠ x.tail → completionHeld s.m tag = false → descOk s.m x x.rdIdx 0 = true → descOk s.m x x.rdIdx 1 = true →
         0 < data.length → va % 64 = 0 → data.length ≤ size → size ≤ 65536 → bufferOk s.m tag va size 1 = true →
         ∃ t y, Makes (.ringReceiveDelivery ring) s t ∧ Only [.mem, .net] s.m t ∧
           t.mem = memPut (memPut s.m.mem (memKey tag va) data) (memKey tag (descAddr x x.rdIdx))
             (rxDesc f data.length data.length 0 true true (.ofNat 64 (rd 8 d 16)) x.rdIdx) ∧
           tget t.net.rings ring = some y ∧ y.head = x.rdIdx + 1 ∧ y.rdIdx = x.rdIdx + 1 ∧ y.tail = x.tail ∧ y.delivery = none ∧
           y.pend = x.pend + 1 ∧ ctr y.ctrs 1 = ctr x.ctrs 1 + 1 ∧
           (getQueue t.net (queueKey 14 ring)).other = (id :: rest).filter (· != f.id)) ∧
       (x.rdIdx = x.tail → x.starved = true → ∃ t y, Makes (.ringReceiveDelivery ring) s t ∧ Only [.net] s.m t ∧
         tget t.net.rings ring = some y ∧ y = { x with starvedDrops := x.starvedDrops + 1, ctrs := bump x.ctrs 4 } ∧
         (getQueue t.net (queueKey 14 ring)).other = rest.filter (· != id)) ∧
       (¬ (x.rdIdx = x.tail ∧ x.starved = true) → completionHeld s.m tag = true →
         Makes (.ringReceiveDelivery ring) s
           (withRing ring { x with delivery := some { id := id, done := 0, used := [], hold := limit } } s.m)) ∧
       (x.rdIdx = x.tail → x.starved = false → completionHeld s.m tag = false → 0 < data.length →
         Makes (.ringReceiveDelivery ring) s
           (withRing ring { x with delivery := some { id := f.id, done := 0, used := [], hold := limit } } s.m))) ∧
     (∀ d f, x.delivery = some d → tget s.m.net.store d.id = some f → holding s.m x d = true → now s.m < d.hold + 2 →
       Makes (.ringReceiveDelivery ring) s s.m)) ∧
   (∀ s (ring : Fin 256), (getRing s.m ring).delivery = none →
     (fabricRuns s.m = false ∨ computeRuns s.m = false ∨ (getRing s.m ring).tx = true) → Makes (.ringReceiveDelivery ring) s s.m) ∧
   (∀ s (ring : Fin 256) x d, getRing s.m ring = x → x.tx = false → fabricRuns s.m = true → computeRuns s.m = true →
     sliceResets s.m (ringTag x) = true → x.delivery = some d →
     ∃ t y, Makes (.ringReceiveDelivery ring) s t ∧ Only [.net] s.m t ∧ tget t.net.rings ring = some y ∧ y = { x with delivery := none }) ∧
   (∀ s (ring : Fin 256) x d, getRing s.m ring = x → x.delivery = some d →
     (holding s.m x d = false ∨ sliceResets s.m (ringTag x) = true → Makes (.ringHoldExpire ring) s s.m) ∧
     (holding s.m x d = true → sliceResets s.m (ringTag x) = false → ∃ t, Makes (.ringHoldExpire ring) s t ∧
       Only [.time, .free, .net, .mem, .evr] s.m t ∧ t.time = (advanceTo d.hold s.m).time ∧ (getRing t ring).delivery = none ∧
       (getRing t ring).starve = true ∧ (getRing t ring).starved = true ∧
       (x.rdIdx = x.tail → (getQueue t.net (queueKey 14 ring)).other = []) ∧
       (x.rdIdx ≠ x.tail → (getQueue t.net (queueKey 14 ring)).other = (getQueue s.m.net (queueKey 14 ring)).other.filter (· != d.id)) ∧
       Raises [(0x0B01, ringTag x, fields [(2, ring.val), (1, ringTag x), (5, 0)])] s.m t)) ∧
   (∀ s (ring : Fin 256), (getRing s.m ring).delivery = none → Makes (.ringHoldExpire ring) s s.m)) ∧
  -- RingsTransmitFrames
  ((∀ s (ring : Fin 256) x, getRing s.m ring = x →
     let tag := ringTag x
     let may := fabricRuns s.m = true ∧ computeRuns s.m = true ∧ x.tx = true ∧ x.enabled = true ∧ x.owner.isSome ∧
       (tag = 0 ∨ sliceRuns s.m tag = true) ∧ s.m.net.stalled.contains tag = false ∧ completionHeld s.m tag = false ∧
       ringTurn s.m tag x = true
     (¬ may ∨ frameDescs s.m x 4096 x.rdIdx [] = none → Makes (.ringTransmitRead ring) s s.m) ∧
     (∀ ds, may → frameDescs s.m x 4096 x.rdIdx [] = some ds →
       let y := { x with rdIdx := x.rdIdx + .ofNat 32 ds.length }
       let turned (m : Mach) : Mach :=
         if tag = 0 then m else { m with net := { m.net with turns := tset m.net.turns tag (x.pos.getD 0) } }
       (txRefusal s.m x ds = 0 → Makes (.ringTransmitRead ring) s
         (withFrames [txFrame s.m ring x x.rdIdx ds] (turned (withRing ring y s.m)))) ∧
       (∀ st, txRefusal s.m x ds = st → st ≠ 0 → ∃ mid t, Makes (.ringTransmitRead ring) s t ∧ t = finishTx ring x.rdIdx ds 0 st false mid ∧
         Only [.net, .evr, .quiet] s.m mid ∧ mid.net = (turned (withRing ring { y with ctrs := bumpBy y.ctrs 6 ds.length } s.m)).net ∧
         (tget s.m.quiet (quietKey 0x0B03 ring) = none → Raises [(0x0B03, tag, fields [(2, ring.val), (1, tag), (5, 0)])] s.m mid) ∧
         (getRing t ring).rdIdx = y.rdIdx ∧ (getRing t ring).tail = x.tail))) ∧
   (∀ (s : State) (ring : Fin 256) first ds ts status late, ∃ t, finishTx ring first ds ts status late s.m = t ∧ Only [.net, .mem] s.m t ∧
     (∀ k, k ≠ ring.val → getRing t k = getRing s.m k) ∧
     (ds.length ≠ 0 → (getRing t ring).pend = (getRing s.m ring).pend + ds.length)) ∧
   (∀ s frame f x, tget s.m.net.store frame = some f → f.tx = some x →
     (f.refs ≠ 0 → Makes (.ringTransmitComplete frame) s s.m) ∧
     (f.refs = 0 →
       let gone : Mach := { s.m with net := { s.m.net with store := terase s.m.net.store frame } }
       let ts := if f.stamp = true then f.sentTs else 0
       let sent := withRing x.ring { getRing gone x.ring with ctrs := bumpBy (bump (getRing gone x.ring).ctrs 1) 2 (f.frame.len - 4) } gone
       (x.epoch ≠ (getRing s.m x.ring).epoch → Makes (.ringTransmitComplete frame) s
         (if f.tooFar = false ∧ f.removed = false then sent else gone)) ∧
       (x.epoch = (getRing s.m x.ring).epoch →
       (f.tooFar = true → Makes (.ringTransmitComplete frame) s (finishTx x.ring x.first x.descs ts 3 (f.late != []) gone)) ∧
       (f.tooFar = false → f.removed = true → Makes (.ringTransmitComplete frame) s (finishTx x.ring x.first x.descs ts 4 (f.late != []) gone)) ∧
       (f.tooFar = false → f.removed = false → Makes (.ringTransmitComplete frame) s (finishTx x.ring x.first x.descs ts 0 (f.late != []) sent)))))) ∧
  -- CompletionsPostOneItem
  (∀ s (ring : Fin 256),
     let x := getRing s.m ring
     (computeRuns s.m = false ∨ reportDue s.m x = false → Makes (.ringCompletionPost ring) s s.m) ∧
     (computeRuns s.m = true → reportDue s.m x = true →
       (x.owner = some 0 → Makes (.ringCompletionPost ring) s (withRing ring { x with pend := 0, ctrs := bump x.ctrs 9 } s.m)) ∧
       (∀ tag y, x.owner = some tag → tag ≠ 0 → x.handler ≠ 0xFFFF → tget s.m.cpu.slices tag = some y → noHandler s.m tag x.handler = false →
         listsFull s.m tag = false →
         let i := engineItem s.m tag x.handler .engine (ring.val + 256 * x.pos.getD 0) x.head.toNat (some ring.val)
         Makes (.ringCompletionPost ring) s (withRing ring { x with pend := 0, armed := false, ctrs := bump x.ctrs 9 }
           { s.m with cpu := entered tag i y s.m })) ∧
       (∀ tag y, x.owner = some tag → tag ≠ 0 → x.handler ≠ 0xFFFF → tget s.m.cpu.slices tag = some y → noHandler s.m tag x.handler = true →
         let told : Compute :=
           if y.arriving = none then sliceSet tag (fun z => { z with dspCtrs := bump z.dspCtrs 5 }) s.m.cpu else s.m.cpu
         Makes (.ringCompletionPost ring) s (withRing ring { x with ctrs := bump x.ctrs 10 } { s.m with cpu := told }))))

-- Logic and energy (chapters 12 and 13)

/-- A boundary of a program comes at D of its tick, with everything else that happens there: the command brings the assemblies up to it about
(R312 to R315). There a complete cycle commits its outputs, and the next one reads its inputs; with a cycle still in progress the boundary is
skipped, counted, and the first time reported as an overrun (R329); a program that does not run begins none.

In the execution period of a tick every program's cycle goes on by its quota; a cycle that completes in it raises the greatest count of
steps where it took more. A period runs once for each assembled tick (R313).

What rests on a choice of the model: log entries 1, 10, 19, 33, 74. -/
def Obligations.LogicPeriods : Prop :=
  -- BoundariesCommitAndBegin
  ((∀ s (prog : Fin 64) g n, tget s.m.lge.progs prog.val = some g → g.next = some n → computeReady s.m = true →
     Makes (.logicCycleBoundary prog) s (assembleSome (assembliesToBoundary n s.m) s.m) ∧
     (assembliesToBoundary n s.m = 0 → Makes (.logicCycleBoundary prog) s s.m) ∧
     (∀ d rest, s.m.time.asm = d :: rest → (s.m.flt.grid ≠ some d.grid ∨ n ≤ d.tick) → d.late = [] → clockRuns s.m = true →
       ∃ t, Makes (.logicCycleBoundary prog) s t ∧ Makes .assembly s t ∧ t.time = { (advanceTo d.d s.m).time with asm := rest } ∧
         assembledBefore t = some d.tick)) ∧
   (∀ s (prog : Fin 64), ((∀ g, tget s.m.lge.progs prog.val = some g → g.next = none) ∨ computeReady s.m = false) →
     Makes (.logicCycleBoundary prog) s s.m) ∧
   (∀ m (prog : Fin 64) g n at_, tget m.lge.progs prog.val = some g →
     let t := boundaryBegin prog n at_ (boundaryCommit prog m)
     (∀ c, g.cycle = some c → c.left ≠ 0 → g.change = none → Only [.lge, .evr] m t ∧
       tget t.lge.progs prog.val = some { g with
         cycle := some { c with late := true }
         next := some (n + g.c)
         k4 := true
         ctrs := bump (if c.late then g.ctrs else bump g.ctrs 1) 2 } ∧
       Raises (if c.late then [] else [(0x0C01, g.owner, fields [(1, prog.val), (1, g.owner), (2, 0), (8, c.b)])]) m t) ∧
     (∀ c k u, g.cycle = some c → c.left ≠ 0 → g.change = some (k, u) → ∃ h, tget t.lge.progs prog.val = some h ∧ h.c = k ∧ h.units = u ∧
       h.beta = n ∧ h.change = none ∧ h.next = some (n + k)) ∧
     (g.cycle = none → g.exchange = [] → g.change = none → g.pointsDue = none → progRuns m at_ g = false →
       t = withProg prog.val { g with next := none } m) ∧
     ((∀ c, g.cycle = some c → c.left = 0) → g.exchange = [] → g.change = none → g.pointsDue = none →
       progRuns m at_ g = true → ∃ h c, Only [.lge, .sig, .evr, .free] m t ∧
         tget t.lge.progs prog.val = some h ∧ h.prog = g.prog ∧ h.next = some (n + g.c) ∧ h.cycle = some c ∧ c.b = n ∧ c.left = c.steps ∧
         c.late = false ∧ h.k2 = false ∧ h.k3 = false ∧ h.k4 = false ∧
         (∀ e, g.cycle = some e → h.st = e.result ∧ h.committed = some (g.prog, e.result) ∧ ctr h.ctrs 0 = ctr g.ctrs 0 + 1 ∧
           (tget t.lge.retained prog.val).map (fun r => (r.prog, r.st)) = some (g.prog.id, e.result)) ∧
         (g.cycle = none → h.st = g.st ∧ h.ctrs = g.ctrs ∧ t.sig = m.sig)))) ∧
  -- PeriodRunsEveryProgram
  ((∀ s, computeReady s.m = true → clockRuns s.m = true → s.m.lge.used = false →
     ∃ t, Makes .logicExecutionPeriod s t ∧ Only [.time, .lge] s.m t ∧ t.lge.used = true ∧ t.lge.forces = s.m.lge.forces ∧
       t.lge.retained = s.m.lge.retained ∧
       ∀ i g, tget s.m.lge.progs i = some g → ∃ h, tget t.lge.progs i = some h ∧
         (g.cycle = none → h = g) ∧
         (∀ c, g.cycle = some c →
           let left := c.left - periodQuota s.m g.units
           h = { g with
             cycle := some { c with left := left }
             maxSteps := if left = 0 ∧ c.left ≠ 0 then max g.maxSteps c.steps else g.maxSteps })) ∧
   (∀ s, s.m.lge.used = true ∨ computeReady s.m = false → Makes .logicExecutionPeriod s s.m))

/-- The increments of the oldest tick that waits are taken; while the umber domain is down they are lost. Of a tick with one usable point
that is not in creep and drives no output, active, reactive and apparent energy are added to the registers that the signs of P and Q name,
whole quanta, with the rest kept; an unusable point counts its time as unmeasured instead (R347 to R352).

A pulse whose tick has come starts on an output that is inactive and has been for the width of the previous one; one that has lasted its
width ends. An accepted edge of an enabled input changes its level, which is its pin's or, where it is inverted, the other, and counts if
it is the counted one, at its first agreeing sample. The wrong-sequence and the missing-neutral state change when their timers have
reached 1 s and 2 s, with their events. A periodic save writes registers, stores and counters into the slot whose turn it is, and with
them what else MRAM keeps (R353 to R360).

What rests on a choice of the model: log entries 1, 10, 24, 33. -/
def Obligations.EnergyAndPulses : Prop :=
  -- IncrementsAccumulate
  ((∀ s, s.m.eng.incs = [] → Makes .energyIncrementApply s s.m) ∧
   (∀ s b rest, s.m.eng.incs = b :: rest → umberRuns s.m = false →
     Makes .energyIncrementApply s { s.m with eng := { s.m.eng with incs := rest } }) ∧
   (∀ s b rest, s.m.eng.incs = b :: rest → umberRuns s.m = true → ∃ t, Makes .energyIncrementApply s t ∧ Only [.eng, .evr] s.m t ∧
     t.eng.incs = rest ∧ t.eng.tick = b.tick ∧ t.eng.slots = s.m.eng.slots ∧ t.eng.ins = s.m.eng.ins) ∧
   (∀ s b rest x, s.m.eng.incs = b :: rest → umberRuns s.m = true → b.incs = [x] → s.m.eng.outage = none →
     let y := getMeter s.m x.point
     (x.usable = false → Makes .energyIncrementApply s (keepPast b.tick (withMeter x.point { y with
         unmeasured := true, questionable := false, inCreep := false, ctrs := bumpBy y.ctrs 0 b.len }
       { s.m with eng := { s.m.eng with incs := rest, tick := b.tick } }))) ∧
     (x.usable = true → x.ovf = false → x.questionable = false → (lt32 (.ofNat 32 (fabs fmt32 x.p.toNat)) y.cfg.creep && x.idle) = false →
       (∀ e ∈ s.m.eng.outs, e.2.cfg.enabled = false ∨ e.2.cfg.point ≠ x.point) →
       let scale := div64 (int64 b.len) (mul64 (int64 3600000000000) (quantumWh y.cfg.quantum))
       let part (v : F32) : F64 := mul64 (abs64 (to64 v)) scale
       let up := le32 0 x.p
       let quad := if up then (if le32 0 x.q then 1 else 4) else (if le32 0 x.q then 2 else 3)
       let into (j : Nat) (e : F64) (l : List Reg) : List Reg := lmod l j fun _ => (regAdd (l.getD j regInit) e).1
       ∃ t, Makes .energyIncrementApply s t ∧ Only [.eng, .evr] s.m t ∧
         (getMeter t x.point).regs = into 6 (part x.s) (into (quad + 1) (part x.q) (into (if up then 0 else 1) (part x.p) y.regs)) ∧
         (getMeter t x.point).cfg = y.cfg ∧ (getMeter t x.point).past = ((b.tick, (getMeter t x.point).regs) :: y.past).take 8 ∧
         t.eng.outs = s.m.eng.outs ∧ ∀ k, k ≠ x.point → { getMeter t k with past := [] } = { getMeter s.m k with past := [] }))) ∧
  -- PulsesEdgesAndSaves
  ((∀ s (out : Fin 16) p rest, umberRuns s.m = true →
     let x := getOut s.m out
     x.pending = p :: rest →
     (pulseReady s.m x = true → Makes (.pulseOutStart out) s (withOut out
       { x with active := true, left := p.2, prevWidth := p.2, pending := rest, ctrs := bump x.ctrs 0 } s.m)) ∧
     (pulseReady s.m x = false → Makes (.pulseOutStart out) s s.m)) ∧
   (∀ s (out : Fin 16), umberRuns s.m = true → (clockRuns s.m = false ∨ (getOut s.m out).left ≤ 1) → (getOut s.m out).active = true →
     Makes (.pulseOutEnd out) s (withOut out { getOut s.m out with active := false, left := 0, idle := 0 } s.m)) ∧
   (∀ s (inp : Fin 16), umberRuns s.m = true → s.m.dom.vio = true →
     let x := getIn s.m inp
     (x.enabled = true → x.level = x.falling → Makes (.pulseInEdge inp) s (withIn inp
       { x with level := !x.level, pin := !x.level != x.invert, counter := x.counter + 1, last := eventTime s.m - (10 * x.debounce - 1) * 100000 } s.m)) ∧
     (x.enabled = true → x.level ≠ x.falling → Makes (.pulseInEdge inp) s (withIn inp { x with level := !x.level, pin := !x.level != x.invert } s.m)) ∧
     (x.enabled = false → Makes (.pulseInEdge inp) s s.m)) ∧
   (∀ s (pt : Fin 256), clockRuns s.m = true →
     let x := getMeter s.m pt
     let rate := s.m.time.grid.rate
     rate ≠ 0 →
     (rate ≤ x.seqTicks → Makes (.phaseSequenceChange pt) s (raise (if x.wrongSeq = true then 0x0D02 else 0x0D01) 0
       (fields [(1, pt.val), (7, 0)]) (withMeter pt { x with wrongSeq := !x.wrongSeq, seqTicks := 0 } s.m))) ∧
     (x.seqTicks < rate → Makes (.phaseSequenceChange pt) s s.m) ∧
     (2 * rate ≤ x.neutTicks → Makes (.missingNeutralChange pt) s (raise (if x.missNeutral = true then 0x0D04 else 0x0D03) 0
       (fields [(1, pt.val), (7, 0)]) (withMeter pt { x with missNeutral := !x.missNeutral, neutTicks := 0 } s.m))) ∧
     (x.neutTicks < 2 * rate → Makes (.missingNeutralChange pt) s s.m)) ∧
   (∀ s, umberRuns s.m = true → s.m.umb.halted = false →
     let t := (s.m.eng.savedSec + 1) * 1000000000
     let m := if eventTime s.m < t then reachTime t s.m else s.m
     let v := saveNow false m
     Makes .periodicSave s { m with
       eng := { s.m.eng with slots := tset s.m.eng.slots (v.seq.toNat % 2) v, saveSeq := v.seq, savedSec := eventTime m / 1000000000 }
       umb := { s.m.umb with savedCtrs := s.m.umb.ctrs }
       lge := { s.m.lge with savedRet := s.m.lge.retained }
       sig := { s.m.sig with savedNums := s.m.sig.nums }
       time := { m.time with rtcSaved := m.time.rtc }
       twn := { s.m.twn with savedRole := s.m.twn.role, savedEpoch := s.m.twn.epoch } }))

-- The umber domain and the recorder (chapters 14 and 15)

/-- The umber subscriber takes the oldest frame of PU: one that is not whole, or of no subscription, is counted and dropped; a sample that
follows the last accepted one enters the stream's history and keeps it valid (R369 to R372). 2 ms without a sample make a stream invalid
with event 0x0E08, and its elements are blocked at once (R372, R375).

A health word that reaches the umber domain counts as present if its CHECK verifies and its tick is the expected one in time; a bad CHECK
is counted (R379); each core it shows out of service is counted, and the sources of breaker failure are noted with it (R376). At the
assembly instant of the next tick a word that has not come is absent; the third in a row forces primary substitute
with event 0x0E05.

At the end of its minimum time an active trip output follows its elements: it goes inactive when none operates, and stays active while one
does (R380). An umber block whose interval has gone repeats its message under the next sqNum, with the interval doubled up to 1024 ms, or
sends the state that it owes under the next stNum; while the fabric runs it leaves through the switch for PU (R382).

What rests on a choice of the model: log entries 2, 10, 25, 33. -/
def Obligations.UmberMeasuresAndWatches : Prop :=
  -- UmberSamplesAndTimeouts
  ((∀ s x rest, s.m.umb.inbox = x :: rest →
     let left : Mach := { s.m with umb := { s.m.umb with inbox := rest } }
     (umberActs s.m = false → Makes .umberSvReceive s left) ∧
     (umberActs s.m = true → umberStream left x.2 = none → Makes .umberSvReceive s
       { left with umb := { left.umb with ctrs := bump left.umb.ctrs 5 } }) ∧
     (∀ p a i y q l, umberActs s.m = true → x.2.body = .sv p → umberStream left x.2 = some i → tget s.m.umb.streams i = some y →
       pduOk x.2 p = true → p.simulate = false → p.asdus = [a] → umberAsduOk s.m.umb.f0 y.cfg a = true →
       y.samples = q :: l → y.valid = true → y.heard = true → 500 ≤ y.cfg.rate → a.smpCnt = (q.pos + 1) % y.cfg.rate →
       (q.pos + 1) % uD y.cfg ≠ 0 →
       Makes .umberSvReceive s { left with umb := { left.umb with
         streams := tset s.m.umb.streams i { y with
           samples := (usample y.cfg (q.pos + 1) a :: q :: l).take 128
           ref := s.m.time.ref } } })) ∧
   (∀ s (sub : Fin 8) x, umberActs s.m = true → tget s.m.umb.streams sub.val = some x → x.cfg.enabled = true → x.valid = true →
     ∃ t e l, Makes (.umberStreamTimeout sub) s t ∧ Only [.time, .free, .umb, .evr] s.m t ∧ t.time = (afterCycles x.ref 1000000 s.m).time ∧
       tget t.umb.streams sub.val = some { x with valid := false } ∧
       t.evr.arrivals = s.m.evr.arrivals ++ (l ++ [e]) ∧ e.code = 0x0E08 ∧ e.payload = fields [(1, sub.val), (1, 0), (6, 0)] ∧
       ∀ k y, tget s.m.umb.elems k = some y → y.cfg.stream = sub.val → usedChans y.cfg ≠ [] →
         ∃ z, tget t.umb.elems k = some z ∧ z = { clearElem y with sources := z.sources, edge := z.edge } ∧
           (isBf k = false → z = clearElem y))) ∧
  -- HealthWordsAreWatched
  ((∀ s n w rest, s.m.umb.words = (n, w) :: rest →
     let left : Mach := { s.m with umb := { s.m.umb with words := rest } }
     (umberActs s.m = false ∨ s.m.umb.fail.isSome → Makes .healthWordReceive s left) ∧
     (umberActs s.m = true → s.m.umb.fail = none → w.check.toNat ≠ crc16 (healthBytes w) → Makes .healthWordReceive s
       { left with umb := { left.umb with ctrs := bump left.umb.ctrs 1 } }) ∧
     (umberActs s.m = true → s.m.umb.fail = none → w.check.toNat = crc16 (healthBytes w) → w.tickLo = .ofNat 32 n →
       (clockRuns s.m = false ∨ now s.m ≤ asmAt s.m (n + 1)) → ∃ t, Makes .healthWordReceive s t ∧
       t = { left with umb := { left.umb with
         last := some (n, w), absent := 0, counted := some n, wordAbsent := false, wordOk := true, zoneRun := t.umb.zoneRun
         coresOut := t.umb.coresOut, elems := t.umb.elems } } ∧
       (∀ c, c < 32 → tgetD t.umb.coresOut c 0 = tgetD s.m.umb.coresOut c 0 + (if w.cores.getLsbD c = true then 0 else 1)) ∧
       (∀ k y, tget s.m.umb.elems k = some y →
         let src := bfSources t y.cfg.bfStart
         tget t.umb.elems k = some (if isBf k = true then { y with sources := src, edge := y.edge || src &&& ~~~y.sources != 0 } else y)) ∧
       ∀ e, e < 24 → (w.zone.getLsbD e = true → tgetD t.umb.zoneRun e 0 = 0) ∧
         (w.zone.getLsbD e = false → tgetD t.umb.zoneRun e 0 = tgetD s.m.umb.zoneRun e 0 + 1))) ∧
   (∀ s, clockRuns s.m = true → s.m.time.gridOn = true → nextAssembly s.m ≠ 0 →
     let n := nextAssembly s.m - 1
     let m := advanceTo (nextAsmAt s.m) s.m
     let a := s.m.umb.absent + 1
     (s.m.umb.counted = some n ∨ umberActs m = false → Makes .healthWordAbsent s m) ∧
     (s.m.umb.counted ≠ some n → umberActs m = true →
       let gone : Mach := { m with umb := { s.m.umb with
         absent := a
         counted := some n
         words := s.m.umb.words.filter fun w => w.1 != n
         ctrs := bump s.m.umb.ctrs 0 } }
       (a ≠ 3 → Makes .healthWordAbsent s gone) ∧
       (a = 3 → Makes .healthWordAbsent s (raise 0x0E05 0 (fields [(8, n)]) { gone with umb := { gone.umb with wordAbsent := true } }))))) ∧
  -- TripsAndUmberGoose
  ((∀ s (out : Fin 4) x, umberActs s.m = true → tget s.m.umb.trips out.val = some x → x.active = true →
     let m := afterCycles x.ref (x.minMs * 500000) s.m
     (operating s.m x.mask = 0 ∨ x.enabled = false → Makes (.tripOutMinTimeExpire out) s
       { m with umb := { m.umb with trips := tset m.umb.trips out { x with active := false } } }) ∧
     (operating s.m x.mask ≠ 0 → x.enabled = true → s.m.umb.loaded = true → umberMuted s.m = false →
       Makes (.tripOutMinTimeExpire out) s { m with umb := { m.umb with trips := tset m.umb.trips out x } })) ∧
   (∀ s (blk : Fin 4) x, umberActs s.m = true → fabricRuns s.m = true → tget s.m.umb.pubs blk.val = some x → x.running = true →
     pubOn x.entry = true → upubMuted s.m = false →
     let m := afterCycles x.ref (x.interval * 500000) s.m
     let n := tgetD s.m.sig.nums (2048 + blk.val) (0, 0)
     (x.force = true → s.m.umb.loaded = true → ∃ t, Makes (.umberGooseRetransmit blk) s t ∧ t.time = m.time ∧
       t.sig = { s.m.sig with nums := tset s.m.sig.nums (2048 + blk.val) (nextNum n.1, 0) }) ∧
     (x.force = false → ∃ t f, Makes (.umberGooseRetransmit blk) s t ∧ Only [.time, .free, .umb, .sig, .net] s.m t ∧ t.time = m.time ∧
       t.umb = { s.m.umb with
         pubs := tset s.m.umb.pubs blk { x with interval := min 1024 (2 * x.interval), ref := m.time.ref } } ∧
       t.sig = { s.m.sig with nums := tset s.m.sig.nums (2048 + blk.val) (n.1, nextNum n.2) } ∧
       t.net = { s.m.net with inner := s.m.net.inner ++ [f] } ∧ f.targets = [(12, 7)] ∧ f.goose = true ∧ f.frame.dmac = x.entry.dmac)))

/-- The oldest record on its way reaches the umber domain (R394 to R396, R405, R406): one whose code has a token, or is never suppressed,
takes the next sequence number and stands last in staging; one without a token is counted in its code's suppression; with staging full it
is lost and counted, and takes no token. When a suppressed code's bucket is full its summary, event 0x0F02, is staged and the suppression
ends.

Staged records become durable in MRAM as far as it has room, and the next sequence number and the counters are saved with them (R394,
R408); the CP moves the oldest from MRAM to flash, and what neither area holds any more is dropped (R395, R399). The oldest record the
image lacks enters it, and a live window takes it in its next slot (R397, R402). A write of the cursor starts a fill of the item's window,
in which it reads busy; the fill holds the first 64 records the slice may see from the cursor on, and tells whether earlier ones are gone;
a slot reads as the 64 bytes of its record (R391, R400 to R403).

What rests on a choice of the model: log entries 1, 2, 78. -/
def Obligations.RecordsAreStagedAndKept : Prop :=
  -- RecordsAreStaged
  ((∀ s e rest, recorderRuns s.m = true → s.m.evr.arrivals = e :: rest →
     let u := s.m.evr
     let r : Rec :=
       { seq := u.nextSeq, ev := e, severity := severity e.code, pub := (codeEnt s.m e.code).pub && e.tag == 0, commit := true
         tail := .ofNat 32 u.nextSeq }
     let t := tokensNow s.m e.code
     let paid := if neverSuppressed e.code = true then u.buckets
       else tset u.buckets e.code { tokens := t - 10 ^ 12, ref := s.m.time.ref }
     (neverSuppressed e.code = true ∨ 10 ^ 12 ≤ t → tget u.suppr e.code = none → u.lost = none → u.staging.length + 1 < 8192 →
       Makes .eventRecordStage s { s.m with evr := { u with
         arrivals := rest
         buckets := paid
         staging := u.staging ++ [r]
         nextSeq := u.nextSeq + 1
         ctrs := bump u.ctrs 0 } }) ∧
     (neverSuppressed e.code = false → t < 10 ^ 12 → ∃ x, Makes .eventRecordStage s { s.m with evr := { u with
         arrivals := rest
         suppr := tset u.suppr e.code x
         ctrs := bump u.ctrs 1 } } ∧ x.last = e.time ∧
       x.count = ((tget u.suppr e.code).map (·.count)).getD 0 + 1) ∧
     (neverSuppressed e.code = false → 10 ^ 12 ≤ t → tget u.suppr e.code = none → u.lost = none → 16384 ≤ u.staging.length →
       ∃ l, Makes .eventRecordStage s { s.m with evr := { u with
         arrivals := rest
         lost := some l
         ctrs := bump u.ctrs 2 } } ∧ l.last = e.time ∧ l.count = 1) ∧
     (neverSuppressed e.code = true → 16384 ≤ u.staging.length → ∃ l, Makes .eventRecordStage s { s.m with evr := { u with
         arrivals := rest
         lost := some l
         ctrs := bump u.ctrs 2 } } ∧ l.last = e.time ∧ l.count = (u.lost.map (·.count)).getD 0 + 1)) ∧
   (∀ s (code : BitVec 16) x, recorderRuns s.m = true → tget s.m.evr.suppr code.toNat = some x → s.m.evr.lost = none →
     s.m.evr.staging.length + 1 < 8192 →
     ∃ t r, Makes (.suppressionSummary code) s t ∧ Only [.time, .free, .evr] s.m t ∧ tget t.evr.suppr code.toNat = none ∧
       t.evr.staging = s.m.evr.staging ++ [r] ∧ t.evr.nextSeq = s.m.evr.nextSeq + 1 ∧ r.seq = s.m.evr.nextSeq ∧ r.ev.code = 0x0F02 ∧
       r.ev.tag = x.tag ∧ r.severity = x.severity ∧
       r.ev.payload = fields ([(2, code.toNat), (2, 0), (4, x.count)] ++ timeFields x.first ++ timeFields x.last))) ∧
  -- RecordsMoveAndAreRead
  ((∀ s, recorderRuns s.m = true → s.m.evr.lost = none →
     let u := s.m.evr
     let k := min u.staging.length (65536 - u.mram.length)
     (k = 0 → Makes .stagingFlush s { s.m with evr := { u with savedSeq := u.nextSeq, savedCtrs := terase u.ctrs 5 } }) ∧
     (k ≠ 0 → Makes .stagingFlush s { s.m with evr := { u with
       mram := u.mram ++ u.staging.take k
       staging := u.staging.drop k
       ctrs := bump u.ctrs 4
       savedSeq := u.nextSeq
       savedCtrs := terase (bump u.ctrs 4) 5 } })) ∧
   (∀ s n, controlRuns s.m = true → recorderRuns s.m = true → s.m.evr.staging.length < 8192 →
     let u := s.m.evr
     Makes (.eventFlashMove n) s { s.m with evr := { u with
       flash := keepAreas u.clearSeq (u.nextSeq - 1) (u.flash ++ u.mram.take n)
       mram := u.mram.drop n } }) ∧
   (∀ s r, controlRuns s.m = true → computeRuns s.m = true →
     (s.m.evr.flash ++ s.m.evr.mram ++ s.m.evr.staging).find? (fun r => newestSeq s.m < r.seq && s.m.evr.clearSeq ≤ r.seq) = some r →
     ∃ t, Makes .eventImageEnter s t ∧ Only [.evr, .free] s.m t ∧ t.evr = { s.m.evr with image := t.evr.image, wins := t.evr.wins } ∧
       newestSeq t = r.seq ∧ t.evr.image = keepAreas s.m.evr.clearSeq r.seq (s.m.evr.image ++ [r]) ∧
       ∀ k w, tget s.m.evr.wins k = some w →
         (w.live = false → ∃ v, tget t.evr.wins k = some v ∧ v.slots.length = w.slots.length) ∧
         (w.live = true → w.busy = false → w.slots = [] → w.cursor.toNat % 2 ^ 63 ≤ r.seq → recVisible (k % 128) r = true →
           inArea s.m.evr.clearSeq r.seq (w.cursor.getLsbD 63) r.seq = true →
           ∃ v, tget t.evr.wins k = some v ∧ { v with words := w.words } = { w with slots := [.holds r] } ∧ Shows v 0 r)) ∧
   (∀ s (core : Fin 32) v r, coreRun s.m core = some r → Makes (.evrCursor core v) s { s.m with evr := { s.m.evr with
     wins := tset s.m.evr.wins (core.val * 128 + r.tag)
       { cursor := v, busy := true, past := false, live := false, filled := 0, slots := [], words := [] } } }) ∧
   (∀ s (core : Fin 32) k w, computeReady s.m = true → s.m.evr.wins.find? (fun w => w.1 / 128 == core.val && w.2.busy) = some (k, w) →
     let all := areaRecords s.m (k % 128) (w.cursor.getLsbD 63)
     let got := (all.filter fun r => w.cursor.toNat % 2 ^ 63 ≤ r.seq).take 64
     ∃ v, Makes (.evrWindowFillComplete core) s { s.m with evr := { s.m.evr with
       ctrs := bump s.m.evr.ctrs 5
       wins := tset s.m.evr.wins k v } } ∧
       { v with words := [] } =
         { cursor := w.cursor, busy := false, past := all.head?.any (fun r => w.cursor.toNat % 2 ^ 63 < r.seq), live := got.length < 64
           filled := got.length, slots := got.map .holds, words := [] } ∧
       ∀ i r, got[i]? = some r → Shows v i r))

-- The twin (chapter 16)

/-- The heartbeat of a tick goes out on P8, launch-timed 1 µs after the tick's start; the word of the arc is driven 1 µs after it by A and
5 µs after it by B, with its check; the active's liveness message is launch-timed 2 µs after it on the enabled ports of LIVE_PORTS and
advances sqNum (R416, R417, R421).

The standby keeps the result of its self-test for the cause word, and reports each second on P8 what it is, which clears the counts of
that second (R428, R429).

What rests on a choice of the model: log entries 10, 33. -/
def Obligations.TwinWordsAndReports : Prop :=
  -- TwinWordsGoOut
  (∀ s, s.m.twn.cfg.on = true → clockRuns s.m = true → s.m.time.gridOn = true →
     let start := tickAt s.m s.m.time.tick
     Makes .chordHeartbeatSend s (withFrames [twinOut s.m 3 (launchWord (start + 1000)) (heartbeat s.m)]
       (withTwn (fun t => { t with ackNow := t.ackF }) s.m)) ∧
     (let m := advanceTo (start + (if member s.m = 0 then 1000 else 5000)) s.m
      Makes .arcWordSend s (withTwn (fun t => { t with
       arcOut := .ofNat 64 (arcWord m + crc16 (be 6 (arcWord m / 2 ^ 16)))
       ackNow := t.ackF }) m)) ∧
     (s.m.twn.role = .active → controlRuns s.m = true → s.m.twn.demoted = false →
       (∃ p : Nat, p < 8 ∧ s.m.twn.cfg.livePorts.getLsbD p = true ∧ (getPort s.m p).any (·.cfg.enabled) = true) →
       ∃ f, Makes .livenessSend s (withFrames [f] (withTwn (fun t => { t with liveSq := nextNum t.liveSq }) s.m)) ∧
         f.launch = launchWord (start + 2000) ∧ f.cls = 4 ∧
         f.targets = ((List.range 8).filter fun p =>
           s.m.twn.cfg.livePorts.getLsbD p && (getPort s.m p).any (·.cfg.enabled)).map (fun p => (p, 4)))) ∧
  -- TheStandbyReports
  (∀ s, s.m.twn.cfg.on = true → s.m.twn.role = .standby →
     (∀ fail, Makes (.twinSelfTest fail) s (withTwn (fun t => { t with testFail := fail.setWidth 32 }) s.m) ∧
       (fail ≠ 0 → bit (causeWord (withTwn (fun t => { t with testFail := fail.setWidth 32 }) s.m)) 0 = true)) ∧
     (clockRuns s.m = true →
       let t := s.m.twn
       Makes .twinHealthReport s (withFrames [twinOut s.m 3 0 (fields [(1, 3), (1, 1), (1, member s.m), (5, 0),
           (8, s.m.time.clock.sec.toNat), (4, causeWord s.m), (4, t.testFail.toNat), (8, t.matched.toNat), (8, t.held.toNat), (4, t.secMis),
           (4, t.secInc), (16, 0)])]
         (withTwn (fun t => { t with secMis := 0, secInc := 0 }) s.m))))

/-- A heartbeat, an arc word and a liveness message of the partner mark its path present in the tick and bring what they say of it; the
standby follows the active's epoch, of a liveness message too (R413), and acknowledges an announced yield while it is clean. One word that
differs in its tick sets the grid cause, whatever else comes in that tick. A standby's health report reaches the active (R418, R421, R429,
R431).

An active member that hears of an active partner with a later epoch, or with the same one where it is member B itself, is demoted,
whatever path brings the word (R433). -/
def Obligations.TwinWordsAreHeard : Prop :=
  -- TwinWordsAreHeard
  ((∀ s p, s.m.twn.cfg.on = true → portUp s.m 8 = true → fabricRuns s.m = true → 64 ≤ p.length → rd 1 p 1 = 1 →
     rd 1 p 2 ≠ member s.m →
     (rd 1 p 0 = 1 → s.m.twn.role ≠ .active →
       let st := rd 1 p 5
       let mid := withTwn (toldBy (roleAt (rd 1 p 3)) (rd 1 p 4) (bit st 0) (bit st 1) (rd 8 p 16)) s.m
       Makes (.chordHeartbeatReceive p) s (withTwn (fun t => { t with
         chordNow := true
         gridNow := some (t.gridNow.getD false || rd 8 p 8 != s.m.time.tick)
         ackF := if rd 1 p 4 = 1 ∧ t.role = .standby then (if cleanNow mid = true then some (rd 8 p 24) else none)
           else if rd 1 p 4 = 0 then none else t.ackF
         partner := { t.partner with
           imageValid := bit st 4
           k := rd 1 p 6
           tick := rd 8 p 8
           handover := rd 8 p 24
           cfgSeq := .ofNat 64 (rd 8 p 32)
           cfgDig := .ofNat 64 (rd 8 p 40)
           mirror := rd 8 p 48 } }) mid)) ∧
     (rd 1 p 0 = 3 → Makes (.chordHeartbeatReceive p) s (withTwn (fun t => { t with report := p, ctrs := bumpBy t.ctrs 9 1 }) s.m))) ∧
   (∀ s w, s.m.twn.cfg.on = true → fabricRuns s.m = true → s.m.twn.role ≠ .active → bits w.toNat 63 56 = 0xD5 →
     crc16 (be 6 (w.toNat / 2 ^ 16)) = w.toNat % 2 ^ 16 → bits w.toNat 55 55 ≠ member s.m →
     let v := w.toNat
     Makes (.arcWordReceive w) s (withTwn (fun t => { t with
       arcNow := true
       gridNow := some (t.gridNow.getD false || bits v 47 32 != s.m.time.tick % 2 ^ 16)
       partner := { t.partner with handover := if bit v 49 = true then t.yield.getD t.partner.handover else t.partner.handover } })
       (withTwn (toldBy (roleAt (bits v 54 53)) (bits v 52 51) (bit v 50) (bit v 49) (nearest 16 s.m.twn.epoch.toNat (bits v 31 16))) s.m))) ∧
   (∀ s port f g e b, f.body = .goose g → g.data = [.uint e, .bool b] → s.m.twn.cfg.on = true → fabricRuns s.m = true →
     portUp s.m port.val = true → port.val < 8 → s.m.twn.cfg.livePorts.getLsbD port.val = true → f.dmac = s.m.twn.cfg.dmac →
     g.appid = s.m.twn.cfg.appid → g.ref = s.m.twn.cfg.gocb → b2n b ≠ member s.m →
     (s.m.twn.cfg.auth = true → authCheck s.m s.m.twn.cfg.key f g.auth = .pass) →
     let epoch := nearest 32 s.m.twn.epoch.toNat e.toNat
     (∀ q, s.m.twn.heardSq = some q → sqAfter q.2 g.sqNum = true ∨ q.1.toNat < epoch) →
     s.m.twn.epoch.toNat ≤ epoch →
     let heard (t : Twin) : Twin := { t with
       liveNow := true
       heardSq := some (.ofNat 64 epoch, g.sqNum)
       epoch := if t.role = .standby then .ofNat 64 epoch else t.epoch
       partner := { t.partner with epoch := .ofNat 64 epoch } }
     (s.m.twn.role ≠ .active ∨ (s.m.twn.epoch.toNat = epoch ∧ member s.m ≠ 1) →
       Makes (.livenessReceive port f) s (withTwn heard s.m)) ∧
     (s.m.twn.role = .active → (s.m.twn.epoch.toNat < epoch ∨ member s.m = 1) →
       Makes (.livenessReceive port f) s (withTwn (fun t => { heard t with
         demoted := true
         partner := { t.partner with role := .active, epoch := .ofNat 64 epoch } }) s.m))) ∧
   (∀ m, (rollPresence m).twn.gridNow = none ∧ (rollPresence m).twn.gridDiff = m.twn.gridNow.getD m.twn.gridDiff) ∧
   (∀ m, m.twn.gridNow = some true → bit (causeWord m) 4 = true)) ∧
  -- AnEarlierClaimDemotes
  ((∀ s p, s.m.twn.cfg.on = true → portUp s.m 8 = true → fabricRuns s.m = true → 64 ≤ p.length → rd 1 p 1 = 1 →
     rd 1 p 2 ≠ member s.m → rd 1 p 0 = 1 → rd 1 p 3 = 2 → s.m.twn.role = .active →
     (s.m.twn.epoch.toNat < rd 8 p 16 ∨ (s.m.twn.epoch.toNat = rd 8 p 16 ∧ member s.m = 1)) →
     ∃ t, Makes (.chordHeartbeatReceive p) s t ∧ Only [.twn, .evr] s.m t ∧ t.twn.demoted = true ∧ t.twn.role = .active ∧
       t.twn.chordNow = true ∧ t.twn.partner.role = .active ∧ t.twn.partner.epoch.toNat = rd 8 p 16) ∧
   (∀ s w, s.m.twn.cfg.on = true → fabricRuns s.m = true → bits w.toNat 63 56 = 0xD5 → arcCheck w.toNat = w.toNat % 2 ^ 16 →
     bits w.toNat 55 55 ≠ member s.m → bits w.toNat 54 53 = 2 → s.m.twn.role = .active →
     (s.m.twn.epoch.toNat < nearest 16 s.m.twn.epoch.toNat (bits w.toNat 31 16) ∨
       (s.m.twn.epoch.toNat = nearest 16 s.m.twn.epoch.toNat (bits w.toNat 31 16) ∧ member s.m = 1)) →
     ∃ t, Makes (.arcWordReceive w) s t ∧ Only [.twn, .evr] s.m t ∧ t.twn.demoted = true ∧ t.twn.role = .active ∧ t.twn.arcNow = true) ∧
   (∀ m n, m.twn.cfg.on = true → m.twn.role = .active → m.twn.demoted = true →
     (twinBoundary n m).twn.role = .standby ∧ (twinBoundary n m).twn.imageValid = false ∧ (twinBoundary n m).twn.held = ~~~(0 : BitVec 64)))

/-- The supervision of the paths (R419 to R421): a path silent for K ticks while the other is present is lost with event 0x1002, and is
restored with event 0x1003 by its first word; both silent while liveness is present is event 0x100E; liveness absent for K ticks while a
path is present is event 0x1004 at the standby of an active partner.

At the end of the listening period of K + 16 ticks a module that has heard no one becomes active with the next epoch, as does member A
beside a partner that starts too; one that hears a partner listens on (R414).

What rests on a choice of the model: log entry 10. -/
def Obligations.TwinPathsAndListening : Prop :=
  -- TwinPathsAreSupervised
  ((∀ s, s.m.twn.cfg.on = true → ∀ arc : Bool,
     let t := s.m.twn
     let silent := if arc = true then t.arcSilent else t.chordSilent
     let other := if arc = true then t.chordSilent else t.arcSilent
     let lost := if arc = true then t.arcLost else t.chordLost
     let set (b : Bool) (w : Twin) : Twin :=
       if arc = true then { w with arcLost := b, degraded := w.degraded || b } else { w with chordLost := b, degraded := w.degraded || b }
     (lost = false → t.cfg.k ≤ silent → other = 0 →
       Makes (.pathLost arc) s (raise 0x1002 0 (fields [(1, b2n arc), (7, 0)]) (withTwn (set true) s.m))) ∧
     (lost = true → silent = 0 →
       Makes (.pathLost arc) s (raise 0x1003 0 (fields [(1, b2n arc), (7, 0)]) (withTwn (set false) s.m)))) ∧
   (∀ s, s.m.twn.cfg.on = true →
     let t := s.m.twn
     (t.bothLost = false → t.cfg.k ≤ t.chordSilent → t.cfg.k ≤ t.arcSilent → t.partner.heard = true → (t.role = .active ∨ t.liveAbsent = 0) →
       Makes .bothPathsLost s (raise 0x100E 0 (fields [(1, 3), (1, 1), (6, 0)])
         (withTwn (fun t => { t with bothLost := true, degraded := true }) s.m))) ∧
     (t.bothLost = true → t.chordSilent = 0 ∨ t.arcSilent = 0 →
       Makes .bothPathsLost s (raise 0x100E 0 (fields [(1, b2n (t.chordSilent == 0) + 2 * b2n (t.arcSilent == 0)), (1, 0), (6, 0)])
         (withTwn (fun t => { t with bothLost := false }) s.m))) ∧
     (t.liveLost = false → t.role = .standby → t.partner.role = .active → t.cfg.k ≤ t.liveAbsent →
       (t.chordSilent = 0 ∨ t.arcSilent = 0) →
       Makes .livenessAbsent s (raise 0x1004 0 (le 8 0) (withTwn (fun t => { t with liveLost := true }) s.m))) ∧
     (t.liveLost = true → t.liveAbsent = 0 →
       Makes .livenessAbsent s (raise 0x1005 0 (le 8 0) (withTwn (fun t => { t with liveLost := false }) s.m))))) ∧
  -- ListeningEnds
  (∀ s k, s.m.twn.cfg.on = true → s.m.twn.role = .starting → s.m.twn.listen = some k → s.m.twn.cfg.k + 16 ≤ k →
     let p := s.m.twn.partner
     (p.heard = false → s.m.twn.heardSq = none → ∃ t, Makes .startingListenEnd s t ∧ t.twn.role = .active ∧
       t.twn.epoch = s.m.twn.epoch + 1 ∧ t.twn.listen = none ∧ t.twn.held = 0 ∧ t.twn.matched = 0) ∧
     (p.heard = true → p.role = .starting → member s.m = 0 → ∃ t, Makes .startingListenEnd s t ∧ t.twn.role = .active ∧
       t.twn.epoch = p.epoch + 1 ∧ t.twn.listen = none) ∧
     (p.heard = true → (p.role ≠ .starting ∨ member s.m ≠ 0) →
       Makes .startingListenEnd s (withTwn (fun t => { t with listen := some 0 }) s.m)))

/-- The active sends the mirror of the tick last captured in frames of at most 9216 bytes, the last of them marked and with the total (R422,
R423). With no tick captured that it has not sent, or not active, nothing changes.

A mirror frame is held until its tick is complete; then every record of the tick is applied, and the tick is the last one mirrored. A frame
that arrives after D(n + 2) of its tick n is discarded (R425). A payload that is no mirror frame of the partner changes nothing.

A mirror that D(n + 2) finds incomplete is discarded and counted with event 0x100D, every slice becomes image-held, and a resynchronisation
begins with event 0x1007 (R425, R434). Where none is missing, the clock only runs on to that instant.

What rests on a choice of the model: log entries 1, 10, 33, 64. -/
def Obligations.MirrorsAreSentTakenOrMissed : Prop :=
  -- Sent
  (∀ s n rs rest, s.m.twn.cfg.on = true → s.m.twn.role = .active → s.m.twn.captures = (n, rs) :: rest → n ≠ s.m.twn.mirror →
     let fr := packFrames rs [] 0
     let total := (rs.map fun r => (mrecBytes r).length).sum
     Makes .mirrorSend s (withFrames ((fr.zip (List.range fr.length)).map fun x =>
         twinOut s.m 3 0 (mirrorFrame 2 s.m x.2 n (x.2 + 1 == fr.length) total x.1))
       (withTwn (fun t => { t with mirror := n, largestNow := max t.largestNow total }) s.m)) ∧
     fr.flatten = rs ∧
     ((∀ r ∈ rs, r.body.length ≤ 9100) → ∀ g ∈ fr, (mirrorFrame 2 s.m 0 n true total g).length + 18 ≤ 9216)) ∧
  (∀ s, s.m.twn.cfg.on = false ∨ s.m.twn.role ≠ .active ∨ (∀ c, s.m.twn.captures.head? = some c → c.1 = s.m.twn.mirror) →
     Makes .mirrorSend s s.m) ∧
  -- Taken
  (∀ s p, toStandby s.m 2 p = true →
     let tick := rd 8 p 8
     let fr := (rd 2 p 4, bit (rd 2 p 24) 0, rd 4 p 28, parseRecs (rd 2 p 6) (p.drop 32))
     let old := match s.m.twn.rx with
       | some x => if x.tick = tick then x.frames else []
       | none => []
     let x : MirrorRx := { tick := tick, frames := linsert (fun a b => decide (a.1 < b.1)) fr (old.filter fun f => f.1 != fr.1) }
     (tick + 2 < nextAssembly s.m → Makes (.mirrorFrameReceive p) s s.m) ∧
     (nextAssembly s.m ≤ tick + 2 → rxComplete x = false → Makes (.mirrorFrameReceive p) s (withTwn (fun t => { t with rx := some x }) s.m)) ∧
     (nextAssembly s.m ≤ tick + 2 → rxComplete x = true → ∃ t, Makes (.mirrorFrameReceive p) s t ∧ t.twn.mirror = tick ∧ t.twn.rx = none ∧ t.time = s.m.time ∧
       t.net = s.m.net ∧ t.twn.role = .standby)) ∧
  (∀ s p, toStandby s.m 2 p = false → Makes (.mirrorFrameReceive p) s s.m) ∧
  -- Missed
  (∀ s, clockRuns s.m = true → s.m.time.gridOn = true → 2 ≤ nextAssembly s.m →
     let n := nextAssembly s.m - 2
     let m := advanceTo (nextAsmAt s.m) s.m
     let due := match s.m.twn.resync with
       | some r => r.s ≤ n
       | none => s.m.twn.imageValid = true
     (s.m.twn.cfg.on = true → s.m.twn.role = .standby → due → s.m.twn.mirror < n → ∃ t, Makes .mirrorIncomplete s t ∧ Only [.twn, .evr] m t ∧
       Raises [(0x100D, 0, le 8 n), (0x1007, 0, le 8 (s.m.time.tick + 1))] m t ∧
       t.twn = { s.m.twn with
         rx := none, secInc := s.m.twn.secInc + 1, matched := 0, held := ~~~(0 : BitVec 64), imageValid := false
         ctrs := bumpBy (bumpBy s.m.twn.ctrs 5 1) 7 1
         resync := some { s := s.m.time.tick + 1, c := none, copied := 0, total := 0, todo := [], touched := [], only := none } }) ∧
     ((s.m.twn.cfg.on = false ∨ s.m.twn.role ≠ .standby ∨ ¬ due ∨ n ≤ s.m.twn.mirror) → Makes .mirrorIncomplete s m)) ∧
  (∀ s, clockRuns s.m = false ∨ s.m.time.gridOn = false ∨ nextAssembly s.m < 2 → Makes .mirrorIncomplete s s.m)

/-- The active sends the copy of an image record by record; with nothing left to copy it sends the last frame with the tick of its last read,
and then no more (R434). Without a resynchronisation, or not active, nothing changes.

A copy frame that the standby takes in a resynchronisation is applied and counted. The resynchronisation is over, with event 0x1008 and a
valid image, once a last frame has come and the mirror has passed its tick by one (R434). A payload that is no copy frame of the partner, or
one without a resynchronisation, changes nothing.

What rests on a choice of the model: log entries 10, 33, 64. -/
def Obligations.CopiesAreSentAndTaken : Prop :=
  (∀ s r, s.m.twn.cfg.on = true → s.m.twn.role = .active → s.m.twn.resync = some r →
     (r.c.isSome = true → Makes .resyncCopySend s s.m) ∧
     (r.c = none → r.todo = [] →
       let c := nextAssembly s.m - 1
       let last : MRec := { kind := 5, id := 0, body := le 8 c }
       Makes .resyncCopySend s (withFrames [twinOut s.m 1 0 (mirrorFrame 4 s.m 0 r.s true (mrecBytes last).length [last])]
         (withTwn (fun t => { t with resync := some { r with c := some c, copied := r.total } }) s.m))) ∧
     (∀ x rest, r.c = none → r.todo = x :: rest →
       let y := copyRec s.m x
       let left := match y.2 with
         | some o => (x.1, x.2.1, o) :: rest
         | none => rest
       let c := nextAssembly s.m - 1
       let rs := y.1.toList ++ [{ kind := 5, id := 0, body := le 8 c }]
       (left = [] → Makes .resyncCopySend s (withFrames
         [twinOut s.m 1 0 (mirrorFrame 4 s.m 0 r.s true ((rs.map fun z => (mrecBytes z).length).sum) rs)]
         (withTwn (fun t => { t with resync := some { r with todo := [], c := some c, copied := r.total } }) s.m))) ∧
       (left ≠ [] → Makes .resyncCopySend s (withFrames [twinOut s.m 1 0 (mirrorFrame 4 s.m 0 r.s false 0 y.1.toList)]
         (withTwn (fun t => { t with
           resync := some { r with todo := left, copied := r.copied + (if y.2 = none then 1 else 0) } }) s.m))))) ∧
  (∀ s, s.m.twn.cfg.on = false ∨ s.m.twn.role ≠ .active ∨ s.m.twn.resync = none → Makes .resyncCopySend s s.m) ∧
  (∀ s p r, toStandby s.m 4 p = true → s.m.twn.resync = some r →
     let rs := parseRecs (rd 2 p 6) (p.drop 32)
     let c := if bit (rd 2 p 24) 0 = true then (rs.find? fun x => x.kind == 5).map fun x => rd 8 x.body 0 else r.c
     let past := c.any fun k => k + 1 ≤ s.m.twn.mirror
     ∃ t, Makes (.resyncCopyReceive p) s t ∧ t.time = s.m.time ∧ t.net = s.m.net ∧ t.twn.role = .standby ∧ t.twn.mirror = s.m.twn.mirror ∧
       (past = true → t.twn.resync = none ∧ Told 0x1008 (le 8 s.m.twn.mirror) t ∧ (r.only = none → t.twn.imageValid = true)) ∧
       (past = false → t.twn.imageValid = s.m.twn.imageValid ∧
         t.twn.resync = some { r with c := c, copied := r.copied + p.length, total := r.total + p.length })) ∧
  (∀ s p, toStandby s.m 4 p = false ∨ s.m.twn.resync = none → Makes (.resyncCopyReceive p) s s.m)

-- The chain (chapter 17)

/-- CHN_ENUMERATE accepted raises event 0x0101 and begins an enumeration: the apex has address 0, the enumeration number is one more,
ENUM_OUT is inactive. 1 ms later ENUMERATION_START drives it active and offers address 1 downward (R442).

An offer to a module without an address, or for the address it has, while ENUM_IN is active and it has a link below: it takes the address,
joins upward, drives ENUM_OUT active and offers the next one downward (R442, R443). 32 or more ends the line with event 0x1104. A
configured module with another address keeps it unless the offer is forced: it reports itself moved and ends the line with event 0x1105.
Without ENUM_IN the offer is not taken.

An apex that is offered an address answers with an end of cause 4 and event 0x1104, and stays what it is, whichever command brings the
offer (R444). ENUM_IN as it changes is what the module reads; a module that is no apex drives its own ENUM_OUT inactive with it.

A join and an end on P11 answer the module's own offer, and go upward unchanged (R442). At the apex a join of an address below 32
makes its module enumerated, with event 0x1102, and one of address 32 or above none; an end completes the enumeration with event 0x1101
and fixes the chain's length. An offer without a join within 1 ms ends the line with cause 1, or with 2 where 32 was offered; at the apex
it ends there.

What rests on a choice of the model: log entries 1, 10, 33, 35, 54, 56. -/
def Obligations.EnumerationOffersJoinsAndEnds : Prop :=
  -- EnumerationBegins
  ((∀ s h p, StateInv s → Accepts chnEnumerate s.m h p → ∃ mid, Announced 0x1101 h h.apply 0 s.m mid ∧ Makes (.chnEnumerate h p) s
     { mid with
       chn := { s.m.chn with
         addr := some 0
         enum := s.m.chn.enum + 1
         joined := false
         reached := 0
         enumOut := false
         run := some { force := bit (rd 1 p 0) 0, ref := s.m.time.ref, offered := false, asked := some (h, roleOf s.m h) } } }) ∧
   (∀ s r, fabricRuns s.m = true → s.m.chn.run = some r → r.offered = false → chainLink s.m true = true →
     let m := afterCycles r.ref 500000 s.m
     Makes .enumerationStart s (withFrames [chainOut m true 3 0x10 0xFF (fields [(1, ownAddr m + 1), (1, b2n r.force), (6, 0)])]
       { m with
         chn := { m.chn with
           run := some { r with offered := true }
           enumOut := true
           offer := some (ownAddr m + 1, r.force, m.time.ref) } }))) ∧
  -- OffersAreTakenOrTurnedAway
  (∀ s p, chainFrame s.m 0x10 p = true → isApex s.m = false →
     let next := rd 1 p 8
     let force := bit (rd 1 p 9) 0
     let c : Chain := { s.m.chn with enum := .ofNat 32 (rd 4 p 4) }
     (s.m.chn.enumIn = false → Makes (.chainOfferReceive p) s s.m) ∧
     (s.m.chn.enumIn = true → 32 ≤ next → Makes (.chainOfferReceive p) s
       (raise 0x1104 0 (fields [(1, 2), (1, next), (6, 0)]) { s.m with chn := { c with enumOut := false, joined := false } })) ∧
     (s.m.chn.enumIn = true → next < 32 → (s.m.chn.addr = none ∨ s.m.chn.addr = some next) → chainLink s.m true = true →
       let t : Mach := { s.m with chn := { c with
         addr := some next
         joined := true
         enumOut := true
         offer := some (next + 1, force, s.m.time.ref) } }
       Makes (.chainOfferReceive p) s (withFrames
         [chainOut t false 3 0x11 0 (joinBody (some next) false s.m), chainOut t true 3 0x10 0xFF (fields [(1, next + 1), (1, b2n force), (6, 0)])]
         t)) ∧
     (∀ held, s.m.chn.enumIn = true → next < 32 → s.m.chn.addr = some held → held ≠ next → force = false → configured s.m = true →
       let t : Mach := { s.m with chn := { c with enumOut := false, joined := false, offer := none } }
       Makes (.chainOfferReceive p) s (raise 0x1105 0 (fields [(1, held), (1, next), (6, 0)]) (withFrames
         [chainOut t false 3 0x11 0 (joinBody none true s.m), chainOut t false 3 0x12 0 (fields [(1, held), (1, 3), (6, 0)])] t)))) ∧
  -- ApexRefusesOffers
  ((∀ s p, chainFrame s.m 0x10 p = true → isApex s.m = true → ∀ c ∈ [Instr.chainOfferReceive p, .secondApexOffer p],
     Makes c s (raise 0x1104 0 (fields [(1, 4), (7, 0)])
       (withFrames [chainOut s.m false 3 0x12 0 (fields [(1, ownAddr s.m), (1, 4), (6, 0)])] s.m))) ∧
   (∀ s level, Makes (.enumInChange level) s { s.m with
     chn := { s.m.chn with enumIn := level, enumOut := if level = true ∨ isApex s.m = true then s.m.chn.enumOut else false } })) ∧
  -- JoinsAndEndsGoUpward
  (∀ s p, isApex s.m = false → ∀ c ∈ [(Instr.chainJoinReceive p, 0x11), (.chainEndReceive p, 0x12)], chainFrame s.m c.2 p = true →
    Makes c.1 s (withFrames [chainPass s.m false 3 p] { s.m with chn := { s.m.chn with offer := none } })) ∧
  (∀ s p, ∀ c ∈ [(Instr.chainJoinReceive p, 0x11), (.chainEndReceive p, 0x12)], chainFrame s.m c.2 p = false → Makes c.1 s s.m) ∧
  (∀ s p, isApex s.m = true → chainFrame s.m 0x11 p = true → 32 ≤ rd 1 p 8 → ∃ t, Makes (.chainJoinReceive p) s t ∧ Only [.chn] s.m t ∧
    t.chn.offer = none ∧ t.chn.reached = s.m.chn.reached ∧ t.chn.joined = s.m.chn.joined) ∧
  (∀ s p, isApex s.m = true → chainFrame s.m 0x11 p = true → rd 1 p 8 < 32 →
    let a := rd 1 p 8
    ∃ t e l, Makes (.chainJoinReceive p) s t ∧ Only [.chn, .evr, .net] s.m t ∧ t.chn.offer = none ∧ t.chn.reached = a ∧ t.chn.joined = true ∧
      (∃ x, tget t.chn.entries a = some x ∧ x.state = .enumerated) ∧ t.evr.arrivals = s.m.evr.arrivals ++ e :: l ∧ e.code = 0x1102 ∧
      e.payload = fields [(1, a), (1, b2n (rd 1 p 9 == a)), (6, 0), (8, rd 8 p 16)]) ∧
  (∀ s p, isApex s.m = true → chainFrame s.m 0x12 p = true →
    let last := if rd 1 p 9 < 3 then rd 1 p 8 else s.m.chn.reached
    ∃ t, Makes (.chainEndReceive p) s t ∧ t.chn.offer = none ∧ t.chn.run = none ∧ t.chn.joined = false ∧ t.chn.length = last + 1 ∧
      (s.m.chn.run.isSome ∨ s.m.chn.joined = true → ∃ e ∈ t.evr.arrivals, e.code = 0x1101 ∧
        e.payload = fields [(4, s.m.chn.enum.toNat), (1, last + 1), (3, 0)])) ∧
  (∀ s o, fabricRuns s.m = true → s.m.chn.offer = some o →
    let m := afterCycles o.2.2 500000 s.m
    (isApex s.m = false →
      Makes .chainJoinTimeout s (withFrames [chainOut m false 3 0x12 0 (fields [(1, ownAddr m), (1, if 32 ≤ o.1 then 2 else 1), (6, 0)])]
        { m with chn := { m.chn with offer := none } })) ∧
    (isApex s.m = true → ∃ t, Makes .chainJoinTimeout s t ∧ t.time = m.time ∧ t.chn.offer = none ∧ t.chn.run = none ∧ t.chn.joined = false ∧
      t.chn.reached = ownAddr s.m ∧ t.chn.length = ownAddr s.m + 1)) ∧
  (∀ s, s.m.chn.offer = none ∨ fabricRuns s.m = false → Makes .chainJoinTimeout s s.m)

/-- Neighbour frames go out at every millisecond on each chain port that has link (R445). One that arrives keeps its link up; the first
one on the link below after it came up makes a module whose place is settled offer again (R446). 3 ms without one, or the loss of link,
loses the link: the module above it ends the line with event 0x1103.

A worker sends its health report at a change, or a second after the last (R455); a worker passes one upward unchanged, and the apex puts
it in the entry of the module it comes from; a new capability digest makes the apex read that module's list (R453).

What rests on a choice of the model: log entries 10, 33, 54, 55. -/
def Obligations.NeighboursAndHealth : Prop :=
  -- NeighboursAreSupervised
  ((∀ s, fabricRuns s.m = true →
     let m := passCycles (500000 - s.m.time.ref % 500000) s.m
     Makes .neighbourSend s (withFrames ((if chainLink s.m false = true then [chainOut m false 3 0x13 0xFF (le 8 0)] else []) ++
       (if chainLink s.m true = true then [chainOut m true 3 0x13 0xFF (le 8 0)] else [])) m)) ∧
   (∀ s p down, chainLink s.m down = true → ∀ c ∈ [(Instr.neighbourFrameReceive down p, chainFrame s.m 0x13 p),
       (.chainLinkRestored down, fabricRuns s.m)], c.2 = true →
     (down = false → Makes c.1 s (withChn (fun x => { x with upHeard := true, upLost := false, upRef := s.m.time.ref }) s.m)) ∧
     (down = true → belowUp s.m = true → Makes c.1 s (withChn (fun x => { x with downRef := s.m.time.ref }) s.m)) ∧
     (down = true → belowUp s.m = false →
       let m := withChn (fun x => { x with downRef := s.m.time.ref, downHeard := true, downLost := false }) s.m
       (mayOffer s.m = false ∨ s.m.chn.offer.isSome → Makes c.1 s m) ∧
       (mayOffer s.m = true → s.m.chn.offer = none → Makes c.1 s
         (withFrames [chainOut m true 3 0x10 0xFF (fields [(1, ownAddr m + 1), (1, 0), (6, 0)])]
           (withChn (fun x => { x with offer := some (ownAddr m + 1, false, m.time.ref) }) m))))) ∧
   (∀ s, fabricRuns s.m = true → aboveUp s.m = true →
     let m := if chainLink s.m false = true then afterCycles s.m.chn.upRef 1500000 s.m else s.m
     Makes (.chainLinkLost false) s (withChn (fun x => { x with upHeard := false, upLost := true }) m)) ∧
   (∀ s, fabricRuns s.m = true → belowUp s.m = true →
     let m := if chainLink s.m true = true then afterCycles s.m.chn.downRef 1500000 s.m else s.m
     (isApex s.m = false → Makes (.chainLinkLost true) s (withFrames
       [chainOut m false 3 0x12 0 (fields [(1, ownAddr m), (1, 0), (6, 0)])]
       (raise 0x1103 0 (fields [(1, ownAddr m), (7, 0)])
         (withChn (fun x => { x with downHeard := false, downLost := true, offer := none }) m)))) ∧
     (isApex s.m = true → ∃ t, Makes (.chainLinkLost true) s t ∧ t.chn.downHeard = false ∧ t.chn.downLost = true ∧ t.chn.run = none ∧
       t.chn.length = ownAddr s.m + 1 ∧ t.time = m.time))) ∧
  -- HealthGoesToTheApex
  ((∀ s, fabricRuns s.m = true → isApex s.m = false → chainLink s.m false = true →
     let m := if healthKey (ownEntry s.m) ≠ healthKey s.m.chn.lastHealth then s.m else afterCycles s.m.chn.healthRef 500000000 s.m
     Makes .healthFrameSend s (withFrames [chainOut m false 2 0x15 0 (ownEntry m)]
       (withChn (fun x => { x with lastHealth := ownEntry m, healthRef := m.time.ref }) m))) ∧
   (∀ s p, chainFrame s.m 0x15 p = true → 72 ≤ p.length →
     (isApex s.m = false → Makes (.healthFrameReceive p) s (withFrames [chainPass s.m false 2 p] s.m)) ∧
     (∀ e, isApex s.m = true → tget s.m.chn.entries (rd 1 p 2) = some e →
       let b := slice p 8 64
       ∃ t, Makes (.healthFrameReceive p) s t ∧ Only [.chn, .net] s.m t ∧
         t.chn.entries = tset s.m.chn.entries (rd 1 p 2) { e with body := b, unit := rd 1 b 1 } ∧
         (slice e.body 48 8 = slice b 48 8 → t.net = s.m.net ∧ t.chn.relays = s.m.chn.relays) ∧
         (slice e.body 48 8 ≠ slice b 48 8 → ∃ r, t.chn.relays = s.m.chn.relays ++ [r] ∧ r.code = 0x0110 ∧ r.addr = rd 1 p 2 ∧ r.own = true))))

/-- A relayed request goes downward unchanged until the module it is for, which executes it on M1; a response goes upward to the apex
(R449). A relay without a response for 10 s is given up: its session is answered 0x0204, and it is in doubt until the outcome is read,
which event 0x1106 reports (R452).

What rests on a choice of the model: log entries 2, 10, 33, 57. -/
def Obligations.RelaysGoToTheirTarget : Prop :=
  (∀ s p, relayFrame s.m 0 p = true → isApex s.m = false → s.m.chn.addr ≠ some (rd 1 p 3) → chainLink s.m true = true →
    Makes (.relayRequestReceive p) s (withFrames [chainPass s.m true 2 p] s.m)) ∧
  (∀ s p, relayFrame s.m 0 p = true → isApex s.m = false → s.m.chn.addr = some (rd 1 p 3) → rd 1 p 13 = 1 →
    s.m.chn.rxSeq ≠ .ofNat 32 (rd 4 p 8) → boxOpen s.m .m1 = true →
    let h := hdrAt .m1 (p.drop 16)
    Makes (.relayRequestReceive p) s (takeSegment (rd 2 p 16) h (p.drop 48) (withChn (fun x => { x with
      rxSeq := .ofNat 32 (rd 4 p 8)
      rxFrags := []
      asked := x.asked ++ [(.ofNat 32 (rd 4 p 8), rd 2 p 16, h.seq)] }) s.m))) ∧
  (∀ s p, relayFrame s.m 1 p = true → isApex s.m = false → chainLink s.m false = true →
    Makes (.relayResponseReceive p) s (withFrames [chainPass s.m false 2 p] s.m)) ∧
  (∀ s p r, relayFrame s.m 1 p = true → isApex s.m = true → controlRuns s.m = true →
    s.m.chn.relays.find? (fun x => x.rseq == .ofNat 32 (rd 4 p 8)) = some r → r.own = true → rd 1 p 13 = 1 → r.frags = [] → r.got = [] →
    bit (rd 2 p 18) 1 = false → rd 4 p 40 % 65536 = 0 →
    Makes (.relayResponseReceive p) s (withChn (fun x => { x with
      relays := x.relays.filter fun y => y.rseq != r.rseq
      entries := tmod x.entries r.addr entryInit fun e => { e with caps := capEntriesOf 64 ((p.drop 48).drop 72) 0 } }) s.m)) ∧
  (∀ s r rest, StateInv s → s.m.chn.relays = r :: rest → r.own = false →
    let m := afterCycles r.ref 5000000000 s.m
    let mid := withChn (fun x => { x with
      relays := x.relays.filter fun y => y.rseq != r.rseq
      doubt := x.doubt ++ [(r.rseq, r.addr)] }) m
    ∃ t, Makes .relayTimeout s t ∧ Delivered r.hdr (answerOf r.code r.hdr r.role r.hdr.apply 0x0204 [] mid) mid t) ∧
  (∀ s d, s.m.chn.doubt.find? (fun d => (tget s.m.chn.entries d.2).any (fun e => e.state == .enumerated)) = some d →
    let v := Config.freeNat s.m.free
    Makes .inDoubtResolve s (raise 0x1106 0 (fields [(4, d.1.toNat), (1, d.2), (1, v % 2), (2, v / 2)])
      { withChn (fun x => { x with doubt := x.doubt.filter fun y => y != d }) s.m with free := s.m.free + 1 }))

-- Configuration (chapter 19)

/-- The way of a commit (R490): accepted, it is answered 0x0001 with its tick, and the SEAL of the copy that it will write is cleared;
when the copy is written and read back it is sealed, and when that fails it stays unsealed and the commit is abandoned with event 0x1204;
a commit not sealed two ticks before its tick is abandoned then.

At the tick of a sealed commit the copy that it wrote is the one in force with an empty journal, the unconfigured-safe state ends, and
every change of it is made, in order, one that shows at an assembly with that of the tick; event 0x1205 names it and event 0x0102 the
command (R12, R489, R490).

What rests on a choice of the model: log entries 2, 10, 33, 58. -/
def Obligations.CommitsAreSealedAndTakeEffect : Prop :=
  -- CommitIsSealedOrAbandoned
  ((∀ s h p e, StateInv s → Accepts cfgCommit s.m h p → stagedFor s.m h [0] = some e →
     let tick := commitTick s.m h e
     ∃ mid t, Announced 0x1202 h tick 1 s.m mid ∧ Makes (.cfgCommit h p) s t ∧
       Delivered h (answerOf 0x1202 h (roleOf s.m h) tick 1 (le 8 tick) s.m) { mid with
         sec := { s.m.sec with
           commit := some { tick := tick, header := e.take headLen, body := e.drop headLen, sealed := false, hdr := h, role := roleOf s.m h }
           copies := tmod s.m.sec.copies (olderCopy s.m) copyNone fun o => { o with sealed := none } } } t) ∧
   (∀ s c, controlRuns s.m = true → s.m.sec.commit = some c → c.sealed = false →
     let written (ok : Bool) : CopyArea :=
       { header := c.header, body := if ok = true then c.body else []
         sealed := if ok = true then some (rd 8 c.header 8, (slice c.header 64 64).take 48) else none }
     let copies (ok : Bool) := tset s.m.sec.copies (olderCopy s.m) (written ok)
     Makes (.cfgCopyWritten true) s { s.m with sec := { s.m.sec with copies := copies true, commit := some { c with sealed := true } } } ∧
     Makes (.cfgCopyWritten false) s (raise 0x1204 0 (le 8 (rd 8 c.header 8))
       { s.m with sec := { s.m.sec with copies := copies false, commit := none } }) ∧
     (clockRuns s.m = true →
       let m := advanceTo (tickAt s.m (c.tick - 2)) s.m
       Makes .cfgCommitDeadline s (raise 0x1204 0 (le 8 (rd 8 c.header 8)) { m with sec := { m.sec with commit := none } })))) ∧
  -- CommitTakesEffectAtItsTick
  (∀ s c, controlRuns s.m = true → s.m.sec.commit = some c → c.sealed = true → c.tick ≤ s.m.time.tick →
     let seq := rd 8 c.header 8
     let forced : Mach := { s.m with
       umb := { s.m.umb with cfgSeq := seq }
       sec := { s.m.sec with
         commit := none
         force := some { which := olderCopy s.m, seq := seq, digest := slice c.header 64 64, slot := rd 1 c.header 6 }
         journalBase := seq
         journal := []
         endorsed := Config.bodyEndorsements c.body
         unconfigured := false } }
     Makes .cfgCommitApply s (changeEvent 0x0102 0x1202 c.hdr c.role c.tick
       (raise 0x1205 0 (fields [(8, seq)] ++ (slice c.header 64 64).take 24)
         (configChanges (some (c.hdr, c.role)) (Config.bodyChanges (runningConfig s.m) c.body) forced))))

-- Domains and supplies (chapters 01, 14, 20 and 21)

/-- A domain whose start completes runs, and the next one may leave reset (R500). The fabric loads its clock from the RTC, free-running,
with the grid to begin at the next second boundary (R43); the dispatcher signals ready, and the ticks that begin from then on have their
frames delivered (R19).

A domain that misses its limit is held in reset with event 0x1401 after a flush of what is staged, its change of state naming no restart
kind (R16, R395), and is started once more
a second after (R500); pending firmware that has
not come to run in time is dropped with event 0x1303, and the current one starts (R495).

What rests on a choice of the model: log entries 1, 10, 33, 46, 48. -/
def Obligations.DomainsStart : Prop :=
  -- DomainsStartInOrder
  ((∀ s (d : Fin 4), isStarting d.val s.m = true → ∃ t, Makes (.domainStartComplete d) s t ∧ domState d.val t = .running ∧
     (d.val < 3 → mayStart (d.val + 1) (putDom d.val .running s.m) = true → (∀ e < d.val, domState e s.m = .running) →
       isStarting (d.val + 1) t = true) ∧
     (d = 1 → t.time.clock = clockAt s.m.time.rtc ∧ t.time.loaded = true ∧ t.time.state = .freeRunning ∧ t.time.gridOn = false ∧
       t.time.grid.s0 = s.m.time.rtc / nsPerSec + 1) ∧
     (d = 3 → t.dom.ready = true ∧ t.dom.deliverFrom = some (now s.m))) ∧
   (∀ s, isStarting 3 s.m = true → ∃ t, Makes .dispatcherReady s t ∧ t.dom.compute = .running ∧ t.dom.ready = true ∧
     t.dom.deliverFrom = some (now s.m)) ∧
   (∀ s (d : Fin 4), isStarting d.val s.m = false → Makes (.domainStartComplete d) s s.m)) ∧
  -- MissedStartsAreRetriedOnce
  ((∀ s (d : Fin 4), isStarting d.val s.m = true → Makes (.startPhaseTimeout d) s
     (raise 0x1401 0 (fields [(1, d.val + 1), (7, 0)]) (withDom
       (fun x => { x with missed := tset x.missed d.val s.m.time.ref, missedPhase := d.val + 1 })
       (setDom d.val .reset (noKind (if recorderRuns s.m = true then flushStaging s.m else s.m)))))) ∧
   (∀ s (d : Fin 4) ref, tget s.m.dom.missed d.val = some ref →
     (d.val ∈ s.m.dom.retried → Makes (.startRetry d) s s.m) ∧
     (d.val ∉ s.m.dom.retried → ∃ t, Makes (.startRetry d) s t ∧ tget t.dom.missed d.val = none ∧ d.val ∈ t.dom.retried ∧
       t.time = (afterCycles ref 500000000 s.m).time ∧
       (mayStart d.val (withDom (fun x => { x with missed := terase x.missed d.val }) s.m) = true → isStarting d.val t = true))) ∧
   (∀ s f, s.m.sec.fwPend = some f → s.m.dom.control = .updating → s.m.sec.fwTrying = true → Makes .fwStartTimeout s
     (setDom 2 .starting (raise 0x1303 0 (le 8 f.version)
       { s.m with sec := { s.m.sec with fwPend := none, fwTrying := false, raiseFloor := false } }))))

/-- A fault flushes staging and lights FAULT; a lockstep mismatch or a watchdog expiry does no more. A domain that enters reset goes down
with those below it, and starts again at once (the model's choice: the spec names no delay); the domains above it run on, but for the
fabric, which leaves the running state only in a cold start of every domain (R13, R17, R395, R510).

A restart that is due leaves the schedule and has its effect (R505, R508, R509): kind 1 every domain starts anew; kind 2 the control and
compute domains; kind 3 compute alone; kinds 4 and 5 put those domains, and with 5 the fabric, to sleep until the wake time, at which they
start again.

What rests on a choice of the model: log entries 33, 47. -/
def Obligations.DomainsFallAndSleep : Prop :=
  -- DomainFaultsTakeTheLowerDomainsDown
  (∀ s (d : Fin 4), domState d.val s.m = .running → (∀ e < d.val, domState e s.m = .running) → s.m.evr.lost = none →
     (∀ cause ∈ [1, 2], ∃ t, Makes (.domainFault d cause) s t ∧ t.dom = { s.m.dom with fault := true } ∧
       t.evr.staging = s.m.evr.staging.drop (mramSize - s.m.evr.mram.length) ∧
       t.evr.mram = s.m.evr.mram ++ s.m.evr.staging.take (mramSize - s.m.evr.mram.length)) ∧
     (let first := if d.val < 2 then 0 else d.val
      ∃ t, Makes (.domainFault d 0) s t ∧ t.dom.fault = true ∧ t.dom.why = 0 ∧ (∀ e < 4, first ≤ e → IsDown e t) ∧
       (∀ e < first, domState e t = .running) ∧ (Unhindered s.m → isStarting first t = true))) ∧
  -- RestartsAndSleeps
  ((∀ s r, controlRuns s.m = true → s.m.dom.restart = some r → r.tick ≤ s.m.time.tick → ∃ t, Makes .restartEffective s t ∧
     t.dom.restart = none ∧ t.dom.lastKind = r.kind ∧ t.dom.why = r.kind ∧
     (r.kind = 1 → ∀ d < 4, IsDown d t) ∧
     (r.kind = 2 → IsDown 2 t ∧ IsDown 3 t ∧ (umberRuns s.m = true → umberRuns t = true) ∧ (fabricRuns s.m = true → fabricRuns t = true)) ∧
     (r.kind = 3 → IsDown 3 t ∧ controlRuns t = true) ∧
     (r.kind = 4 ∨ r.kind = 5 → t.dom.sleep = some { kind := r.kind, due := s.m.time.ref + r.wake * 500000000 } ∧
       (∀ d ∈ (if r.kind = 5 then [1, 2, 3] else [2, 3]), PutInto .sleeping d s.m t))) ∧
   (∀ s z, s.m.dom.sleep = some z → ∃ t, Makes .wake s t ∧ t.dom.sleep = none ∧ t.dom.lastKind = z.kind ∧
     t.time = (passCycles (z.due - s.m.time.ref) s.m).time ∧
     (∀ d ∈ (if z.kind = 5 then [1, 2, 3] else [2, 3]), IsDown d t) ∧
     (Unhindered s.m → umberRuns s.m = true → z.kind = 5 → s.m.dom.fabric ≠ .off → isStarting 1 t = true) ∧
     (Unhindered s.m → umberRuns s.m = true → fabricRuns s.m = true → z.kind ≠ 5 → s.m.dom.control ≠ .off → isStarting 2 t = true)))

/-- Main power lost while the umber domain runs is a power-fail, as is an overvoltage, which disconnects the input: the lower domains are
held in reset, PWR_GOOD goes inactive, numbering, retentive state and the RTC are saved, and the table runs (R385, R386, R512). Without a
running umber domain the lower domains are off, and without HOLD the umber domain too, whose RTC resumes from its saved value (R42). 1.4
ms after detection the table is complete: with HOLD the umber domain runs on, without it every output is inactive and it halts (R387).

Main power that returns connects the input. While a power-fail sequence runs no more happens; else the domains start: from the umber
domain where it is in reset or halted, from the fabric where it runs (R387, R500, R512).

HOLD lost with main power present is event 0x0E06; without, a power-fail without HOLD. HOLD back is event 0x0E06 where the umber domain
runs, and starts it from HOLD alone where it was off or had halted (R385, R387, R513). A halted domain whose hold-up is spent loses what
retention SRAM held: the records not flushed, and the next number and the RTC resume from their saved values (R42, R394).

What rests on a choice of the model: log entries 1, 10, 27, 50. -/
def Obligations.PowerComesAndGoes : Prop :=
  -- PowerFails
  ((∀ s, s.m.dom.main = true → s.m.umb.fail = none → s.m.umb.halted = false →
     ∀ c ∈ [Instr.powerFail, .mainOvervoltage], ∃ t, Makes c s t ∧ t.dom.main = false ∧ t.dom.pwrGood = false ∧ t.dom.restart = none ∧
       (c = .mainOvervoltage → t.dom.disconnected = true) ∧
       (umberRuns s.m = true → umberRuns t = true ∧ (∀ d ∈ [1, 2, 3], PutInto .reset d s.m t) ∧ t.dom.sleep = none ∧
         (∃ at_, t.umb.fail = some (at_, s.m.dom.hold, rowsDone s.m.dom.hold at_)) ∧ t.sig.savedNums = t.sig.nums ∧
         t.lge.savedRet = t.lge.retained ∧ t.time.rtcSaved = t.time.rtc) ∧
       (umberRuns s.m = false → t.umb.fail = none ∧ (∀ d ∈ [1, 2, 3], domState d t = .off) ∧ (s.m.dom.hold = false → domState 0 t = .off ∧
         (s.m.dom.umber ≠ .off → t.time.rtc = s.m.time.rtcSaved)))) ∧
   (∀ s at_ hold rows, s.m.umb.fail = some (at_, hold, rows) → s.m.dom.main = false → ∃ t, Makes .powerFailSequenceComplete s t ∧
     t.umb.fail = none ∧ t.umb.halted = !hold ∧ t.dom.umber = s.m.dom.umber ∧ (∀ d ∈ [1, 2, 3], domState d t = .off) ∧
     (hold = false → (∀ e ∈ t.umb.trips, e.2.active = false) ∧ ∀ e ∈ t.eng.outs, e.2.active = false ∧ e.2.left = 0)) ∧
   (∀ s at_ hold rows, s.m.umb.fail = some (at_, hold, rows) → s.m.dom.main = true → umberRuns s.m = true →
     s.m.dom.resetHeld = false → s.m.dom.disconnected = false → s.m.dom.shutdown = false → ∃ t, Makes .powerFailSequenceComplete s t ∧
     t.umb.fail = none ∧ t.umb.halted = false ∧ (if hold = true then t.dom.lastKind = 0 ∧ isStarting 1 t = true
       else t.dom.lastKind = 1 ∧ isStarting 0 t = true))) ∧
  -- PowerReturns
  ((∀ s at_, s.m.umb.fail = some at_ → s.m.dom.main = false →
     Makes .mainPowerReturn s (withDom (fun x => { x with main := true, disconnected := false }) s.m)) ∧
   (∀ s, s.m.umb.fail = none → s.m.dom.resetHeld = false → s.m.dom.shutdown = false → (s.m.dom.main = false ∨ s.m.dom.umber = .reset) →
     (s.m.umb.halted = true ∨ s.m.dom.umber = .running ∨ s.m.dom.umber = .reset ∨ s.m.dom.umber = .off) →
     ∃ t, Makes .mainPowerReturn s t ∧ t.dom.main = true ∧ t.dom.disconnected = false ∧ t.dom.pwrGood = true ∧ t.umb.halted = false ∧
       (s.m.umb.halted = true → t.dom.lastKind = 1 ∧ isStarting 0 t = true) ∧
       (s.m.umb.halted = false → t.dom.lastKind = 0 ∧ (s.m.dom.umber = .running → isStarting 1 t = true) ∧
         (s.m.dom.umber ≠ .running → isStarting 0 t = true ∧ t.dom.slotId = s.m.dom.slotIdPin ∧ t.dom.apex = s.m.dom.apexPin))) ∧
   (∀ s, s.m.dom.main = true → s.m.dom.disconnected = false → umberRuns s.m = true → Makes .mainPowerReturn s s.m)) ∧
  -- HoldComesAndGoes
  ((∀ s, s.m.dom.hold = true → umberActs s.m = true →
     (s.m.dom.main = true → Makes .holdLoss s (raise 0x0E06 0 (fields [(1, 0), (7, 0)]) (withDom (fun x => { x with hold := false }) s.m))) ∧
     (s.m.dom.main = false → ∃ t at_ rows, Makes .holdLoss s t ∧ t.dom.hold = false ∧ t.umb.fail = some (at_, false, rows) ∧
       rows.map Prod.fst = (rowsDone false at_).map Prod.fst ∧ (s.m.umb.fail = none → rows = rowsDone false at_))) ∧
   (∀ s, s.m.dom.hold = false →
     (umberActs s.m = true → Makes .holdRegain s (raise 0x0E06 0 (fields [(1, 1), (7, 0)]) (withDom (fun x => { x with hold := true }) s.m))) ∧
     (s.m.dom.resetHeld = false → (s.m.umb.halted = true ∧ s.m.dom.umber ≠ .off) ∨
         (s.m.umb.halted = false ∧ s.m.umb.fail = none ∧ s.m.dom.umber = .off) →
       ∃ t, Makes .holdRegain s t ∧ t.dom.hold = true ∧ isStarting 0 t = true ∧ t.dom.slotId = s.m.dom.slotIdPin)) ∧
   (∀ s, s.m.umb.halted = true → ∃ t, Makes .umberSupplyLost s t ∧ t.dom.umber = .off ∧ t.umb.halted = false ∧
     t.time = { s.m.time with rtc := s.m.time.rtcSaved } ∧ t.evr.staging = [] ∧
     t.evr.nextSeq = s.m.evr.savedSeq ∧ t.sig.nums = s.m.sig.savedNums))

/-- RESET_IN_N low for 1 s holds every domain in reset with the outputs inactive, and its release is a cold start, which waits during a
thermal shutdown; a shorter one is a module restart, or ends a sleep (R503, R509, R530).

Temperature and memory errors (R166, R529, R530): the warning and an uncorrectable error suspend the guarantee of every slice until they
end, a memory error not before every slice that had memory in the bank set has completed a reset or holds none there any more; a shutdown
holds the lower domains in reset with what a power-fail saves, and recovery starts them as after a sleep of kind 5.

What rests on a choice of the model: log entries 10, 51. -/
def Obligations.ResetInputHeatAndErrors : Prop :=
  -- ResetInputActs
  ((∀ s, umberActs s.m = true → s.m.umb.fail = none → s.m.dom.resetHeld = false → ∃ t, Makes .resetInLong s t ∧ t.dom.resetHeld = true ∧
     t.dom.pwrGood = false ∧ t.dom.sleep = none ∧ (∀ d < 4, PutInto .reset d s.m t) ∧ ∀ e ∈ t.umb.trips, e.2.active = false) ∧
   (∀ s, s.m.dom.resetHeld = true →
     (s.m.dom.shutdown = true → Makes .resetInRelease s (withDom (fun x => { x with resetHeld := false, coldWaits := true }) s.m)) ∧
     (s.m.dom.shutdown = false → ∃ t, Makes .resetInRelease s t ∧ t.dom.resetHeld = false ∧ t.dom.lastKind = 1 ∧
       (s.m.dom.umber ≠ .off → (s.m.dom.main = true ∨ s.m.dom.hold = true) → isStarting 0 t = true))) ∧
   (∀ s, umberActs s.m = true → Unhindered s.m → fabricRuns s.m = true → ∃ t, Makes .resetInRelease s t ∧ t.dom.sleep = none ∧
     t.dom.lastKind = ((s.m.dom.sleep.map (·.kind)).getD 2) ∧
     (s.m.dom.sleep = none → s.m.dom.control ≠ .off → isStarting 2 t = true ∧ IsDown 3 t))) ∧
  -- HeatAndMemoryErrors
  ((∀ s temp, umberActs s.m = true → s.m.dom.warning = false → 1050 ≤ temp → ∃ t, Makes (.thermalWarningAssert temp) s t ∧
     Only [.dom, .cpu, .evr, .twn] s.m t ∧ t.dom = { s.m.dom with warning := true } ∧
     Told 0x1402 (fields [(1, 1), (7, 0), (2, temp.toNat)]) t ∧ ∀ k x, tget t.cpu.slices k = some x → x.suspended.getLsbD 3 = true) ∧
   (∀ s, umberActs s.m = true → s.m.dom.warning = true → ∃ t, Makes .thermalWarningDeassert s t ∧ Only [.dom, .cpu, .evr] s.m t ∧
     t.dom = { s.m.dom with warning := false } ∧ Told 0x1402 (fields [(1, 0), (7, 0)]) t ∧
     ∀ k x, tget t.cpu.slices k = some x → x.suspended.getLsbD 3 = false) ∧
   (∀ s bank word, umberActs s.m = true → ∃ t, Makes (.memoryError bank word) s t ∧
     Only [.dom, .cpu, .evr, .twn] s.m t ∧ t.dom = { s.m.dom with
       memError := true
       memBanks := tset s.m.dom.memBanks bank ((s.m.cpu.slices.map Prod.fst).filter (inBank s.m bank)) } ∧
     ∀ k x, tget t.cpu.slices k = some x → x.suspended.getLsbD 2 = true) ∧
   (∀ s, controlRuns s.m = true → s.m.dom.memError = true → (∀ e ∈ s.m.dom.memBanks, ∀ tag ∈ e.2, inBank s.m e.1 tag = false) →
     ∃ t, Makes .memoryErrorClear s t ∧ Only [.dom, .cpu, .evr] s.m t ∧ t.dom = { s.m.dom with memError := false, memBanks := [] } ∧
     ∀ k x, tget t.cpu.slices k = some x → x.suspended.getLsbD 2 = false) ∧
   (∀ s e tag, e ∈ s.m.dom.memBanks → tag ∈ e.2 → inBank s.m e.1 tag = true → Makes .memoryErrorClear s s.m) ∧
   (∀ s, umberActs s.m = true → s.m.dom.shutdown = false → s.m.umb.fail = none → ∃ t, Makes .thermalShutdown s t ∧
     t.dom.shutdown = true ∧ t.dom.sleep = none ∧ umberRuns t = true ∧ (∀ d ∈ [1, 2, 3], PutInto .reset d s.m t) ∧
     t.sig.savedNums = t.sig.nums ∧ t.time.rtcSaved = t.time.rtc) ∧
   (∀ s, s.m.dom.shutdown = true → s.m.dom.resetHeld = false → s.m.dom.main = true → s.m.dom.disconnected = false → s.m.umb.fail = none →
     s.m.umb.halted = false → ∃ t, Makes .thermalRecover s t ∧ t.dom.shutdown = false ∧ t.dom.coldWaits = false ∧
     (s.m.dom.coldWaits = false → umberRuns s.m = true → s.m.dom.fabric ≠ .off → t.dom.lastKind = 5 ∧ isStarting 1 t = true) ∧
     (s.m.dom.coldWaits = true → s.m.dom.umber ≠ .off → t.dom.lastKind = 1 ∧ isStarting 0 t = true)))

/-- A change of a strap while the module runs is event 0x1406, and the sampled values stand (R520). VIO lost and back is event 0x1404; the
loss is remembered until the map is read (R516, R528).

The front panel and the management pair: a transceiver that declares more than its cage's limit stays in its low-power state with event
0x1405 (R524); a read of the map gives its bytes and clears the remembered loss of VIO when it takes in byte 16, a write changes nothing
(R528); the status frame goes out while a debug host is attached (R527), and with the host goes its session (R526).

What rests on a choice of the model: log entries 1, 2, 10, 52, 53. -/
def Obligations.StrapsPanelAndSideband : Prop :=
  -- StrapsAndSidebandSupply
  ((∀ s (slot : Fin 32) apex, umberActs s.m = true → (s.m.dom.slotIdPin ≠ .ofNat 5 slot.val ∨ s.m.dom.apexPin ≠ apex) →
     Makes (.strapChange slot apex) s (raise 0x1406 0
       (fields [(1, s.m.dom.slotIdPin.toNat), (1, b2n s.m.dom.apexPin), (1, slot.val), (1, b2n apex), (4, 0)])
       (withDom (fun x => { x with slotIdPin := .ofNat 5 slot.val, apexPin := apex }) s.m))) ∧
   (∀ s, umberActs s.m = true →
     (s.m.dom.vio = true → Makes .vioLoss s (raise 0x1404 0 (fields [(1, 0), (7, 0)])
       (withDom (fun x => { x with vio := false, vioSticky := true }) s.m))) ∧
     (s.m.dom.vio = false → Makes .vioReturn s (raise 0x1404 0 (fields [(1, 1), (7, 0)])
       (withDom (fun x => { x with vio := true, driveRef := s.m.time.ref }) s.m))))) ∧
  -- PanelAndManagementPair
  ((∀ s (port : Fin 13) level, port.val ∉ [9, 10, 11] →
     let limit := if port.val < 9 then 2 else 1
     let m := withDom (fun x => { x with cageLow := x.cageLow.filter (· != port.val) }) s.m
     (level ≤ limit → Makes (.transceiverInsert port level) s m) ∧
     (limit < level → Makes (.transceiverInsert port level) s (raise 0x1405 0 (fields [(1, port.val), (1, level), (6, 0)])
       (withDom (fun x => { x with cageLow := port.val :: x.cageLow }) m)))) ∧
   (∀ s (port : Fin 13) level, port.val ∈ [9, 10, 11] → Makes (.transceiverInsert port level) s s.m) ∧
   (∀ s off count, umberRuns s.m = true → s.m.dom.vio = true →
     (∃ t, Makes (.i2cAccess false off count) s t ∧ Only [.dom, .free] s.m t ∧ t.dom.i2c.length = count ∧
       (∀ k < count, off.toNat + k < 32 → t.dom.i2c[k]? = (i2cMap s.m)[off.toNat + k]?) ∧
       t.dom = { s.m.dom with
         i2c := t.dom.i2c
         vioSticky := if off.toNat ≤ 16 ∧ 16 < off.toNat + count then false else s.m.dom.vioSticky })) ∧
   (∀ s off count, Makes (.i2cAccess true off count) s s.m) ∧
   (∀ s, umberRuns s.m = true →
     (s.m.dom.dbg = true → Makes .umberStatusFrame s (withDom (fun x => { x with statusFrame := umberStatusBytes s.m }) s.m)) ∧
     (s.m.dom.dbg = false → Makes .umberStatusFrame s s.m)) ∧
   (∀ s, Makes (.dbgPresentChange true) s (withDom (fun x => { x with dbg := true }) s.m) ∧
     ∃ t, Makes (.dbgPresentChange false) s t ∧ Only [.dom, .mbx, .evr, .sec] s.m t ∧ t.dom = { s.m.dom with dbg := false } ∧
       tget t.mbx.sess 6 = none))
end

