-- ==== Sys2Proof/Laws/Data.lean ====
section
/-! SUPPORT. Laws of the plain data: sparse tables, memory in canonical form, counters, and byte strings. -/
namespace Sys2Proof.Machine
open Sys2Proof

-- Tables

/-- Every key of a table lies above a bound. -/
def tabAbove {α : Type} (b : Nat) (t : Tab α) : Prop := ∀ e ∈ t, b < e.1

theorem tabWf_cons {α : Type} (k : Nat) (v : α) (r : Tab α) : tabWf ((k, v) :: r) = true ↔ tabAbove k r ∧ tabWf r = true := by
  induction r generalizing k v with
  | nil => simp [tabWf, tabAbove]
  | cons e r ih =>
    obtain ⟨k', v'⟩ := e
    simp only [tabWf, Bool.and_eq_true, decide_eq_true_eq]
    constructor
    · rintro ⟨h1, h2⟩
      refine ⟨?_, h2⟩
      intro e he
      rcases List.mem_cons.1 he with rfl | he
      · exact h1
      · exact Nat.lt_trans h1 (((ih k' v').1 h2).1 e he)
    · rintro ⟨h1, h2⟩
      exact ⟨h1 (k', v') (List.mem_cons_self ..), h2⟩

theorem tabWf_filter {α : Type} (p : Nat × α → Bool) (t : Tab α) (h : tabWf t = true) : tabWf (t.filter p) = true := by
  induction t with
  | nil => rfl
  | cons e r ih =>
    obtain ⟨k, v⟩ := e
    obtain ⟨h1, h2⟩ := (tabWf_cons k v r).1 h
    simp only [List.filter]
    split
    · exact (tabWf_cons k v _).2 ⟨fun e he => h1 e (List.mem_filter.1 he).1, ih h2⟩
    · exact ih h2

theorem tset_mem {α : Type} (t : Tab α) (i : Nat) (a : α) (e : Nat × α) (h : e ∈ tset t i a) : e = (i, a) ∨ e ∈ t := by
  induction t with
  | nil => simpa [tset] using h
  | cons x r ih =>
    obtain ⟨k, v⟩ := x
    simp only [tset] at h
    split at h
    · simpa using h
    · split at h
      · rcases List.mem_cons.1 h with h | h
        · exact .inl h
        · exact .inr (List.mem_cons_of_mem _ h)
      · rcases List.mem_cons.1 h with h | h
        · exact .inr (h ▸ List.mem_cons_self ..)
        · exact (ih h).imp id (List.mem_cons_of_mem _)

theorem tabWf_tset {α : Type} (t : Tab α) (i : Nat) (a : α) (h : tabWf t = true) : tabWf (tset t i a) = true := by
  induction t with
  | nil => rfl
  | cons x r ih =>
    obtain ⟨k, v⟩ := x
    obtain ⟨h1, h2⟩ := (tabWf_cons k v r).1 h
    simp only [tset]
    split
    · rename_i hlt
      refine (tabWf_cons i a _).2 ⟨?_, h⟩
      intro e he
      rcases List.mem_cons.1 he with rfl | he
      · exact hlt
      · exact Nat.lt_trans hlt (h1 e he)
    · split
      · rename_i heq
        subst heq
        exact (tabWf_cons i a r).2 ⟨h1, h2⟩
      · rename_i h3 h4
        refine (tabWf_cons k v _).2 ⟨?_, ih h2⟩
        intro e he
        rcases tset_mem r i a e he with rfl | he
        · simp only; omega
        · exact h1 e he

/-- A key set reads back. -/
@[simp] theorem tget_tset_same {α : Type} (t : Tab α) (i : Nat) (a : α) : tget (tset t i a) i = some a := by
  induction t with
  | nil => simp [tset, tget]
  | cons x r ih =>
    obtain ⟨k, v⟩ := x
    simp only [tset]
    split
    · simp [tget]
    · split
      · simp [tget]
      · rename_i h1 h2
        have h3 : k ≠ i := fun h => h2 h.symm
        simp [tget, h3, h1, ih]

theorem tget_none {α : Type} (t : Tab α) (i : Nat) (h : tabAbove i t) : tget t i = none := by
  induction t with
  | nil => rfl
  | cons x r ih =>
    obtain ⟨k, v⟩ := x
    have h1 : i < k := h (k, v) (List.mem_cons_self ..)
    simp [tget, Nat.ne_of_gt h1, h1]

/-- Setting one key leaves every other key alone. -/
theorem tget_tset_other {α : Type} (t : Tab α) (i j : Nat) (a : α) (h : j ≠ i) : tget (tset t i a) j = tget t j := by
  induction t with
  | nil => simp only [tset, tget]; split <;> simp_all
  | cons x r ih =>
    obtain ⟨k, v⟩ := x
    simp only [tset]
    split
    · rename_i hlt
      simp only [tget]
      have hij : i ≠ j := Ne.symm h
      simp only [hij, if_false]
      split
      · have h2 : k ≠ j := by omega
        have h3 : j < k := by omega
        simp [h2, h3]
      · rfl
    · split
      · rename_i heq
        subst heq
        simp [tget, Ne.symm h]
      · simp [tget, ih]

theorem tget_tmap {α β : Type} (t : Tab α) (f : Nat → α → β) (i : Nat) : tget (tmap t f) i = (tget t i).map (f i) := by
  induction t with
  | nil => rfl
  | cons x r ih =>
    obtain ⟨k, v⟩ := x
    simp only [tmap, List.map_cons, tget] at *
    split
    · rename_i h; subst h; rfl
    · split
      · rfl
      · exact ih

/-- In a table in canonical form an erased key is gone. -/
theorem tget_terase_same {α : Type} (t : Tab α) (i : Nat) : tget (terase t i) i = none := by
  induction t with
  | nil => rfl
  | cons x r ih =>
    obtain ⟨k, v⟩ := x
    simp only [terase, List.filter] at *
    split
    · rename_i h
      have h1 : k ≠ i := by simpa using h
      simp only [tget, h1, if_false]
      split
      · rfl
      · exact ih
    · exact ih

/-- Erasing one key leaves every other key alone. -/
theorem tget_terase_other {α : Type} (t : Tab α) (i j : Nat) (h : j ≠ i) (hw : tabWf t = true) :
    tget (terase t i) j = tget t j := by
  induction t with
  | nil => rfl
  | cons x r ih =>
    obtain ⟨k, v⟩ := x
    obtain ⟨h1, h2⟩ := (tabWf_cons k v r).1 hw
    have ih := ih h2
    simp only [terase, List.filter] at *
    split
    · simp only [tget]
      split
      · rfl
      · split
        · rfl
        · exact ih
    · rename_i hk
      have hk : k = i := by simpa using hk
      subst hk
      rw [ih]
      simp only [tget, Ne.symm h, if_false]
      split
      · rename_i hlt
        exact tget_none r j fun e he => Nat.lt_trans hlt (h1 e he)
      · rfl

theorem tset_keys {α : Type} (t : Tab α) (i : Nat) (a : α) (h : (tget t i).isSome) :
    (tset t i a).map Prod.fst = t.map Prod.fst := by
  induction t with
  | nil => simp [tget] at h
  | cons x r ih =>
    obtain ⟨k, v⟩ := x
    simp only [tget] at h
    simp only [tset]
    split at h
    · rename_i hk; subst hk; simp
    · rename_i hk
      split at h
      · simp at h
      · rename_i hlt
        simp [hlt, Ne.symm hk, ih h]

@[simp] theorem tmap_keys {α β : Type} (t : Tab α) (f : Nat → α → β) : (tmap t f).map Prod.fst = t.map Prod.fst := by
  simp [tmap, Function.comp_def]

@[simp] theorem lmod_length {α : Type} (l : List α) (i : Nat) (f : α → α) : (lmod l i f).length = l.length := by
  induction l generalizing i with
  | nil => rfl
  | cons a r ih => cases i <;> simp [lmod, ih]

-- Memory

theorem memWf_iff (mem : List Host.Cell) : memWf mem = true ↔ tabWf mem = true ∧ ∀ c ∈ mem, c.2 ≠ 0 := by
  simp only [memWf, Bool.and_eq_true, List.all_eq_true, bne_iff_ne, ne_eq]

/-- A byte written keeps the canonical form. -/
theorem memWrite_wf (mem : List Host.Cell) (a : Nat) (b : Byte) (h : memWf mem = true) : memWf (memWrite mem a b) = true := by
  obtain ⟨h1, h2⟩ := (memWf_iff mem).1 h
  unfold memWrite
  split
  · exact (memWf_iff _).2 ⟨tabWf_filter _ _ h1, fun c hc => h2 c (List.mem_filter.1 hc).1⟩
  · rename_i hb
    refine (memWf_iff _).2 ⟨tabWf_tset _ _ _ h1, fun c hc => ?_⟩
    rcases tset_mem mem a b c hc with rfl | hc
    · exact hb
    · exact h2 c hc

/-- A string written keeps the canonical form. -/
theorem memPut_wf (mem : List Host.Cell) (a : Nat) (b : Bytes) (h : memWf mem = true) : memWf (memPut mem a b) = true := by
  induction b generalizing mem a with
  | nil => exact h
  | cons x r ih => exact ih _ _ (memWrite_wf mem a x h)

/-- Dropping cells keeps the canonical form. -/
theorem memFilter_wf (mem : List Host.Cell) (p : Host.Cell → Bool) (h : memWf mem = true) : memWf (mem.filter p) = true := by
  obtain ⟨h1, h2⟩ := (memWf_iff mem).1 h
  exact (memWf_iff _).2 ⟨tabWf_filter _ _ h1, fun c hc => h2 c (List.mem_filter.1 hc).1⟩

theorem memZero_wf (mem : List Host.Cell) (a n : Nat) (h : memWf mem = true) : memWf (memZero mem a n) = true :=
  memFilter_wf mem _ h

/-- A byte written reads back. -/
theorem memRead_memWrite_same (mem : List Host.Cell) (a : Nat) (b : Byte) : memRead (memWrite mem a b) a = b := by
  unfold memRead memWrite
  split
  · rename_i h; subst h; rw [tget_terase_same]; rfl
  · simp

/-- A write leaves every other byte alone. -/
theorem memRead_memWrite_other (mem : List Host.Cell) (a x : Nat) (b : Byte) (hx : x ≠ a) (h : memWf mem = true) :
    memRead (memWrite mem a b) x = memRead mem x := by
  unfold memRead memWrite
  split
  · rw [tget_terase_other _ _ _ hx ((memWf_iff mem).1 h).1]
  · rw [tget_tset_other _ _ _ _ hx]

/-- A string written leaves every byte outside it alone. -/
theorem memRead_memPut_outside (mem : List Host.Cell) (a x : Nat) (b : Bytes) (hx : x < a ∨ a + b.length ≤ x)
    (h : memWf mem = true) : memRead (memPut mem a b) x = memRead mem x := by
  induction b generalizing mem a with
  | nil => rfl
  | cons y r ih =>
    simp only [memPut]
    simp only [List.length_cons] at hx
    rw [ih (memWrite mem a y) (a + 1) (by omega) (memWrite_wf mem a y h)]
    exact memRead_memWrite_other mem a x y (by omega) h

/-- Each byte of a string written reads back. -/
theorem memRead_memPut_inside (mem : List Host.Cell) (a i : Nat) (b : Bytes) (hi : i < b.length) (h : memWf mem = true) :
    memRead (memPut mem a b) (a + i) = b[i] := by
  induction b generalizing mem a i with
  | nil => simp at hi
  | cons y r ih =>
    simp only [memPut]
    cases i with
    | zero =>
      rw [memRead_memPut_outside _ _ _ _ (by omega) (memWrite_wf mem a y h)]
      simp [memRead_memWrite_same]
    | succ i =>
      have hi : i < r.length := by simpa using hi
      have := ih (memWrite mem a y) (a + 1) i hi (memWrite_wf mem a y h)
      simpa [Nat.add_assoc, Nat.add_comm 1 i] using this

-- Counters

@[simp] theorem ctr_bump_same (c : Ctrs) (i : Nat) : ctr (bump c i) i = ctr c i + 1 := by
  simp [bump, bumpBy, ctr, tgetD]

theorem ctr_bump_other (c : Ctrs) (i j : Nat) (h : j ≠ i) : ctr (bump c i) j = ctr c j := by
  simp [bump, bumpBy, ctr, tgetD, tget_tset_other _ _ _ _ h]

-- Byte strings

@[simp] theorem le_length (n v : Nat) : (le n v).length = n := by
  induction n generalizing v with
  | zero => rfl
  | succ n ih => simp [le, ih]

/-- What a little-endian string spells is the number it was made of, cut to its width (R4). -/
theorem ofLe_le (n v : Nat) : ofLe (le n v) = v % 256 ^ n := by
  induction n generalizing v with
  | zero => simp [le, ofLe, Nat.mod_one]
  | succ n ih =>
    have h2 : v % 256 ^ (n + 1) = v % 256 + 256 * (v / 256 % 256 ^ n) := by
      rw [Nat.pow_succ, Nat.mul_comm, Nat.mod_mul]
    simp only [le, ofLe, ih, BitVec.toNat_ofNat, h2]

end Sys2Proof.Machine
end

