-- ==== Sys2Proof/Laws/Keeps.lean ====
section
/-! SUPPORT. What every operation of the module keeps: the form of memory and clock, the cores and ports that exist, the identity,
the OTP slots, and a reference count that never goes back. -/
namespace Sys2Proof.Machine
open Sys2Proof

/-- A revoked owner slot stays revoked with its digest; an active one stays active with its digest, or is revoked with it. -/
def OwnersKept (a b : Tab OwnerSlot) : Prop :=
  (∀ i d, tget a i = some (.revoked d) → tget b i = some (.revoked d)) ∧
    ∀ i d, tget a i = some (.active d) → tget b i = some (.active d) ∨ tget b i = some (.revoked d)

theorem OwnersKept.refl (a : Tab OwnerSlot) : OwnersKept a a := ⟨fun _ _ h => h, fun _ _ h => .inl h⟩

theorem OwnersKept.trans {a b c : Tab OwnerSlot} (h : OwnersKept a b) (k : OwnersKept b c) : OwnersKept a c :=
  ⟨fun i d hx => k.1 i d (h.1 i d hx), fun i d hx => (h.2 i d hx).elim (k.2 i d) fun e => .inr (k.1 i d e)⟩

/-- From `a` to `b` nothing is lost that no operation may touch: canonical memory and a whole-nanosecond part below a second (R31)
stay so, the 32 cores and the 13 ports stay, no core comes to fetch while it runs an item, the delay lists stay one for a slice,
identity and root key are as they were, an owner slot has at most been revoked, and the reference count and the security version have not
gone back. -/
structure Keeps (a b : Mach) : Prop where
  mem : memWf a.mem = true → memWf b.mem = true
  ns : a.time.clock.ns.toNat < nsPerSec → b.time.clock.ns.toNat < nsPerSec
  cores : a.cpu.cores.length = 32 → b.cpu.cores.length = 32
  fetch : CoresFit a → CoresFit b
  delay : tabWf a.cpu.delay = true → tabWf b.cpu.delay = true
  ports : a.net.ports.map Prod.fst = List.range 13 → b.net.ports.map Prod.fst = List.range 13
  ident : b.ident = a.ident
  root : b.sec.root = a.sec.root
  owners : OwnersKept a.sec.owners b.sec.owners
  secver : a.sec.secver ≤ b.sec.secver
  ref : a.time.ref ≤ b.time.ref

theorem Keeps.refl (a : Mach) : Keeps a a := ⟨id, id, id, id, id, id, rfl, rfl, .refl _, Nat.le_refl _, Nat.le_refl _⟩

theorem Keeps.trans {a b c : Mach} (h : Keeps a b) (k : Keeps b c) : Keeps a c :=
  ⟨k.mem ∘ h.mem, k.ns ∘ h.ns, k.cores ∘ h.cores, k.fetch ∘ h.fetch, k.delay ∘ h.delay, k.ports ∘ h.ports, k.ident.trans h.ident, k.root.trans h.root,
    h.owners.trans k.owners, Nat.le_trans h.secver k.secver, Nat.le_trans h.ref k.ref⟩

theorem Keeps.ite {a b c : Mach} {p : Prop} [Decidable p] (hb : Keeps a b) (hc : Keeps a c) : Keeps a (if p then b else c) := by
  split <;> assumption

theorem Keeps.bite {a b c : Mach} {p : Bool} (hb : Keeps a b) (hc : Keeps a c) : Keeps a (bif p then b else c) := by
  cases p <;> assumption

end Sys2Proof.Machine
end

