-- ==== Sys2Proof/Laws/KeepsUnits.lean ====
section
/-! SUPPORT. What the updates of one unit keep, and the plumbing lemmas by which the lemmas about operations are put together. -/
namespace Sys2Proof.Machine
open Sys2Proof

theorem Keeps.of {b m n : Mach} (h : Keeps b m) (h1 : n.mem = m.mem) (h2 : n.time = m.time) (h3 : n.cpu = m.cpu)
    (h4 : n.net = m.net) (h5 : n.ident = m.ident) (h6 : n.sec = m.sec) : Keeps b n :=
  h.trans ⟨fun k => h1 ▸ k, fun k => h2 ▸ k, fun k => h3 ▸ k, fun k c hc => k c (h3 ▸ hc), fun k => h3 ▸ k, fun k => h4 ▸ k, h5, by rw [h6], by rw [h6]; exact .refl _, Nat.le_of_eq (by rw [h6]),
    Nat.le_of_eq (by rw [h2])⟩

theorem onDom_keeps {b m f} (h : Keeps b m) : Keeps b (onDom f m) := h.of rfl rfl rfl rfl rfl rfl
theorem onEvr_keeps {b m f} (h : Keeps b m) : Keeps b (onEvr f m) := h.of rfl rfl rfl rfl rfl rfl
theorem onMbx_keeps {b m f} (h : Keeps b m) : Keeps b (onMbx f m) := h.of rfl rfl rfl rfl rfl rfl
theorem onChn_keeps {b m f} (h : Keeps b m) : Keeps b (onChn f m) := h.of rfl rfl rfl rfl rfl rfl
theorem onTwn_keeps {b m f} (h : Keeps b m) : Keeps b (onTwn f m) := h.of rfl rfl rfl rfl rfl rfl
theorem onSvi_keeps {b m f} (h : Keeps b m) : Keeps b (onSvi f m) := h.of rfl rfl rfl rfl rfl rfl
theorem onFlt_keeps {b m f} (h : Keeps b m) : Keeps b (onFlt f m) := h.of rfl rfl rfl rfl rfl rfl
theorem onSig_keeps {b m f} (h : Keeps b m) : Keeps b (onSig f m) := h.of rfl rfl rfl rfl rfl rfl
theorem onLge_keeps {b m f} (h : Keeps b m) : Keeps b (onLge f m) := h.of rfl rfl rfl rfl rfl rfl
theorem onEng_keeps {b m f} (h : Keeps b m) : Keeps b (onEng f m) := h.of rfl rfl rfl rfl rfl rfl
theorem onUmb_keeps {b m f} (h : Keeps b m) : Keeps b (onUmb f m) := h.of rfl rfl rfl rfl rfl rfl

theorem onTime_keeps {b m f} (h : Keeps b m) (hc : (f m.time).clock = m.time.clock) (hr : (f m.time).ref = m.time.ref) :
    Keeps b (onTime f m) :=
  h.trans ⟨id, fun k => by simpa [onTime, hc] using k, id, fun k c hc => k c hc, id, id, rfl, rfl, .refl _, Nat.le_refl _, by simp [onTime, hr]⟩

theorem onSec_keeps {b m f} (h : Keeps b m) (h1 : (f m.sec).root = m.sec.root) (h2 : (f m.sec).owners = m.sec.owners)
    (h3 : m.sec.secver ≤ (f m.sec).secver) : Keeps b (onSec f m) := h.trans ⟨id, id, id, fun k c hc => k c hc, id, id, rfl, h1, by rw [show (onSec f m).sec = f m.sec from rfl, h2]; exact .refl _, h3, Nat.le_refl _⟩

theorem onCpu_keeps {b m f} (h : Keeps b m) (hc : (f m.cpu).cores = m.cpu.cores) (hd : (f m.cpu).delay = m.cpu.delay) : Keeps b (onCpu f m) :=
  h.trans ⟨id, id, fun k => (congrArg List.length hc).trans k, fun k c hk => k c (hc ▸ hk), fun k => (congrArg tabWf hd).trans k, id, rfl, rfl, .refl _,
    Nat.le_refl _, Nat.le_refl _⟩

theorem lmod_mem {α : Type} (l : List α) (i : Nat) (f : α → α) (x : α) (h : x ∈ lmod l i f) : x ∈ l ∨ ∃ y ∈ l, x = f y := by
  induction l generalizing i with
  | nil => exact .inl h
  | cons a r ih =>
    cases i with
    | zero =>
      rcases List.mem_cons.mp h with h | h
      · exact .inr ⟨a, List.mem_cons_self, h⟩
      · exact .inl (List.mem_cons_of_mem _ h)
    | succ i =>
      rcases List.mem_cons.mp h with h | h
      · exact .inl (h ▸ List.mem_cons_self)
      · rcases ih i h with h | ⟨y, hy, e⟩
        · exact .inl (List.mem_cons_of_mem _ h)
        · exact .inr ⟨y, List.mem_cons_of_mem _ hy, e⟩

theorem onCore_keeps {b m c f} (h : Keeps b m) (hf : ∀ k : Core, (k.fetching = true → k.run = none) → (f k).fetching = true → (f k).run = none) :
    Keeps b (onCore c f m) :=
  h.trans ⟨id, id, fun k => (lmod_length _ _ _).trans k, fun k x hx => by
    rcases lmod_mem _ _ _ _ hx with hx | ⟨y, hy, rfl⟩
    · exact k x hx
    · exact hf y (k y hy), id, id, rfl, rfl, .refl _, Nat.le_refl _, Nat.le_refl _⟩

theorem putList_wf (t : Tab (List Item)) (i : Nat) (l : List Item) (h : tabWf t = true) : tabWf (putList t i l) = true := by
  unfold putList; split
  · exact tabWf_filter _ _ h
  · exact tabWf_tset _ _ _ h

theorem setDelay_keeps {b m tag l} (h : Keeps b m) : Keeps b (setDelay tag l m) :=
  h.trans ⟨id, id, id, fun k c hc => k c hc, putList_wf _ _ _, id, rfl, rfl, .refl _, Nat.le_refl _, Nat.le_refl _⟩

theorem onNet_keeps {b m f} (h : Keeps b m) (hp : (f m.net).ports.map Prod.fst = m.net.ports.map Prod.fst) : Keeps b (onNet f m) :=
  h.trans ⟨id, id, id, fun k c hc => k c hc, id, fun k => hp.trans k, rfl, rfl, .refl _, Nat.le_refl _, Nat.le_refl _⟩

theorem onMem_keeps {b m f} (h : Keeps b m) (hm : memWf m.mem = true → memWf (f m.mem) = true) : Keeps b (onMem f m) :=
  h.trans ⟨hm, id, id, fun k c hc => k c hc, id, id, rfl, rfl, .refl _, Nat.le_refl _, Nat.le_refl _⟩

theorem when_keeps {b m c f} (h : Keeps b m) (hf : ∀ x, Keeps b x → Keeps b (f x)) : Keeps b (when c f m) := by
  unfold when; split
  · exact hf m h
  · exact h

theorem forEach_keeps {α : Type} {b m : Mach} {l : List α} {f : α → Mach → Mach} (h : Keeps b m)
    (hf : ∀ a x, Keeps b x → Keeps b (f a x)) : Keeps b (forEach l f m) := by
  induction l generalizing m with
  | nil => exact h
  | cons a r ih => exact ih (hf a m h)

theorem clockOf_ns (t : Nat) : (clockOf t).ns.toNat < nsPerSec := by
  have h : t / 2 ^ 40 % nsPerSec < nsPerSec := Nat.mod_lt _ (by decide)
  simp only [clockOf, BitVec.toNat_ofNat]
  exact Nat.lt_of_le_of_lt (Nat.mod_le _ _) h

theorem passCycles_keeps {b m k} (h : Keeps b m) : Keeps b (passCycles k m) := by
  unfold passCycles; dsimp only; split
  · exact h.trans ⟨id, fun _ => clockOf_ns _, id, fun k c hc => k c hc, id, id, rfl, rfl, .refl _, Nat.le_refl _, Nat.le_add_right _ _⟩
  · exact h.trans ⟨id, id, id, fun k c hc => k c hc, id, id, rfl, rfl, .refl _, Nat.le_refl _, Nat.le_add_right _ _⟩

theorem onPort_keeps {b m p f} (h : Keeps b m) : Keeps b (onPort p f m) := by
  unfold onPort; split
  · exact h
  · rename_i x hx
    exact onNet_keeps h (tset_keys _ _ _ (by simp [hx]))

theorem fitSet (m : Mach) (c : Fin 32) (f : Core → Core) (k : CoresFit m) (hf : (f (getCore m c)).fetching = true → (f (getCore m c)).run = none) :
    ∀ x ∈ lmod m.cpu.cores c.val f, x.fetching = true → x.run = none := by
  intro x hx
  have aux : ∀ (l : List Core) (i : Nat), x ∈ lmod l i f → x ∈ l ∨ x = f (l.getD i coreReset) := by
    intro l
    induction l with
    | nil => exact fun i h => .inl h
    | cons a r ih =>
      intro i h
      cases i with
      | zero =>
        rcases List.mem_cons.mp h with h | h
        · exact .inr h
        · exact .inl (List.mem_cons_of_mem _ h)
      | succ i =>
        rcases List.mem_cons.mp h with h | h
        · exact .inl (h ▸ List.mem_cons_self)
        · rcases ih i h with h | h
          · exact .inl (List.mem_cons_of_mem _ h)
          · exact .inr h
  rcases aux _ _ hx with h | rfl
  · exact k x h
  · exact hf

theorem foldWrite_wf (mem : List Host.Cell) (l : List Host.Cell) (k : Nat → Nat) (j : Nat) (h : memWf mem = true) :
    memWf (l.foldl (fun mem c => memWrite mem (k (c.1 - j)) c.2) mem) = true := by
  induction l generalizing mem with
  | nil => exact h
  | cons c r ih => exact ih _ (memWrite_wf _ _ _ h)

theorem foldZero_wf (mem : List Host.Cell) (l : List (Nat × Nat)) (k : Nat → Nat) (j : Nat) (h : memWf mem = true) :
    memWf (l.foldl (fun mem x => memZero mem (k (j + x.1)) x.2) mem) = true := by
  induction l generalizing mem with
  | nil => exact h
  | cons c r ih => exact ih _ (memZero_wf _ _ _ h)

theorem tabWf_tmap {α β : Type} (t : Tab α) (f : Nat → α → β) (h : tabWf t = true) : tabWf (tmap t f) = true := by
  induction t with
  | nil => rfl
  | cons e r ih =>
    obtain ⟨k, v⟩ := e
    rw [tabWf_cons] at h
    show tabWf ((k, f k v) :: tmap r f) = true
    rw [tabWf_cons]
    refine ⟨?_, ih h.2⟩
    intro e he
    obtain ⟨x, hx, rfl⟩ := List.mem_map.mp he
    exact h.1 x hx

theorem netDown_ports (m : Mach) : (netDown m).ports.map Prod.fst = List.range 13 := by
  unfold netDown
  split
  · decide
  · rw [tset_keys _ _ _ (by decide)]; decide

theorem runOn_keeps {b s t f} (h : Keeps b (f s.m)) (e : runOn s f = .next t) : Keeps b t.m := by
  unfold runOn at e
  cases e
  exact h

theorem moduleAfter_keeps {b m f} (h : Keeps b m) (hf : ∀ s t, Keeps b s.m → f s = .next t → Keeps b t.m) : Keeps b (moduleAfter f m) := by
  unfold moduleAfter
  split
  · rename_i t e
    exact hf _ _ h e
  · exact h
  · exact h

theorem clock_keeps {b m} {f : TimeUnit → TimeUnit} (h : Keeps b m) (hc : (f m.time).clock.ns.toNat < nsPerSec) (hr : (f m.time).ref = m.time.ref) :
    Keeps b (onTime f m) :=
  h.trans ⟨id, fun _ => hc, id, fun k c hc => k c hc, id, id, rfl, rfl, .refl _, Nat.le_refl _, Nat.le_of_eq hr.symm⟩

theorem id_keeps {b m} (h : Keeps b m) : Keeps b (id m) := h


end Sys2Proof.Machine
end

