-- ==== Sys2Proof/Laws/KeepsOps.lean ====
section
/-! SUPPORT. What every operation of Machine/Ops keeps (Keeps, Laws/Keeps). -/
namespace Sys2Proof.Machine
set_option linter.all false
open Sys2Proof

theorem advanceTo_keeps {b m} {a0} (h : Keeps b m) : Keeps b (advanceTo a0 m) := by
  unfold advanceTo; try dsimp only
  repeat' first | intro _ | with_reducible assumption | with_reducible apply passCycles_keeps | with_reducible apply Keeps.ite | split | exact h.of rfl rfl rfl rfl rfl rfl | rfl | exact Nat.le_refl _ | (simp; done)

theorem raise_keeps {b m} {a0 a1 a2} (h : Keeps b m) : Keeps b (raise a0 a1 a2 m) := by
  unfold raise; try dsimp only
  repeat' first | intro _ | with_reducible assumption | with_reducible apply onEvr_keeps | with_reducible apply Keeps.ite | split | exact h.of rfl rfl rfl rfl rfl rfl | rfl | exact Nat.le_refl _ | (simp; done)

theorem raiseQuiet_keeps {b m} {a0 a1 a2 a3} (h : Keeps b m) : Keeps b (raiseQuiet a0 a1 a2 a3 m) := by
  unfold raiseQuiet; try dsimp only
  repeat' first | intro _ | with_reducible assumption | with_reducible apply raise_keeps | with_reducible apply Keeps.ite | split | exact h.of rfl rfl rfl rfl rfl rfl | rfl | exact Nat.le_refl _ | (simp; done)

theorem macCount_keeps {b m} {a0 a1} (h : Keeps b m) : Keeps b (macCount a0 a1 m) := by
  unfold macCount; try dsimp only
  repeat' first | intro _ | with_reducible assumption | with_reducible apply onPort_keeps | with_reducible apply Keeps.ite | split | exact h.of rfl rfl rfl rfl rfl rfl | rfl | exact Nat.le_refl _ | (simp; done)

theorem swCount_keeps {b m} {a0 a1} (h : Keeps b m) : Keeps b (swCount a0 a1 m) := by
  unfold swCount; try dsimp only
  repeat' first | intro _ | with_reducible assumption | with_reducible apply onPort_keeps | with_reducible apply Keeps.ite | split | exact h.of rfl rfl rfl rfl rfl rfl | rfl | exact Nat.le_refl _ | (simp; done)

theorem pubCount_keeps {b m} {a0 a1 a2} (h : Keeps b m) : Keeps b (pubCount a0 a1 a2 m) := by
  unfold pubCount; try dsimp only
  repeat' first | intro _ | with_reducible assumption | with_reducible apply onSig_keeps | with_reducible apply Keeps.ite | split | exact h.of rfl rfl rfl rfl rfl rfl | rfl | exact Nat.le_refl _ | (simp; done)

theorem sendInner_keeps {b m} {a0} (h : Keeps b m) : Keeps b (sendInner a0 m) := by
  unfold sendInner; try dsimp only
  repeat' first | intro _ | with_reducible assumption | with_reducible apply onNet_keeps | with_reducible apply Keeps.ite | split | exact h.of rfl rfl rfl rfl rfl rfl | rfl | exact Nat.le_refl _ | (simp; done)

end Sys2Proof.Machine
end

