-- ==== Sys2Proof/Laws/KeepsCommand.lean ====
section
/-! SUPPORT. What every operation of Machine/Command keeps (Keeps, Laws/Keeps). -/
namespace Sys2Proof.Machine
set_option linter.all false
open Sys2Proof

theorem sendTwin_keeps {b m} {a0 a1 a2} (h : Keeps b m) : Keeps b (sendTwin a0 a1 a2 m) := by
  unfold sendTwin; try dsimp only
  repeat' first | intro _ | with_reducible assumption | with_reducible apply sendInner_keeps | with_reducible apply Keeps.ite | split | exact h.of rfl rfl rfl rfl rfl rfl | rfl | exact Nat.le_refl _ | (simp; done)

theorem sendChain_keeps {b m} {a0 a1 a2 a3 a4} (h : Keeps b m) : Keeps b (sendChain a0 a1 a2 a3 a4 m) := by
  unfold sendChain; try dsimp only
  repeat' first | intro _ | with_reducible assumption | with_reducible apply sendInner_keeps | with_reducible apply Keeps.ite | split | exact h.of rfl rfl rfl rfl rfl rfl | rfl | exact Nat.le_refl _ | (simp; done)

theorem sendRelay_keeps {b m} {a0 a1 a2 a3 a4} (h : Keeps b m) : Keeps b (sendRelay a0 a1 a2 a3 a4 m) := by
  unfold sendRelay; try dsimp only
  repeat' first | intro _ | with_reducible assumption | with_reducible apply forEach_keeps | with_reducible apply sendChain_keeps | with_reducible apply Keeps.ite | split | exact h.of rfl rfl rfl rfl rfl rfl | rfl | exact Nat.le_refl _ | (simp; done)

theorem onSess_keeps {b m} {a0 a1} (h : Keeps b m) : Keeps b (onSess a0 a1 m) := by
  unfold onSess; try dsimp only
  repeat' first | intro _ | with_reducible assumption | with_reducible apply onMbx_keeps | with_reducible apply Keeps.ite | split | exact h.of rfl rfl rfl rfl rfl rfl | rfl | exact Nat.le_refl _ | (simp; done)

theorem onSliceBox_keeps {b m} {a0 a1} (h : Keeps b m) : Keeps b (onSliceBox a0 a1 m) := by
  unfold onSliceBox; try dsimp only
  repeat' first | intro _ | with_reducible assumption | with_reducible apply onMbx_keeps | with_reducible apply Keeps.ite | split | exact h.of rfl rfl rfl rfl rfl rfl | rfl | exact Nat.le_refl _ | (simp; done)

theorem sendSegments_keeps {b m} {a0 a1} (h : Keeps b m) (ha1 : ∀ x0 x1, Keeps b x1 → Keeps b (a1 x0 x1)) : Keeps b (sendSegments a0 a1 m) := by
  unfold sendSegments; try dsimp only
  repeat' first | intro _ | with_reducible assumption | apply ha1 | with_reducible apply forEach_keeps | with_reducible apply Keeps.ite | split | exact h.of rfl rfl rfl rfl rfl rfl | rfl | exact Nat.le_refl _ | (simp; done)

theorem deliver_keeps {b m} {a0 a1} (h : Keeps b m) : Keeps b (deliver a0 a1 m) := by
  unfold deliver; try dsimp only
  repeat' first | intro _ | with_reducible assumption | exact memPut_wf _ _ _ (by assumption) | exact memFilter_wf _ _ (by assumption) | exact memZero_wf _ _ _ (by assumption) | with_reducible apply onChn_keeps | with_reducible apply onMem_keeps | with_reducible apply onSess_keeps | with_reducible apply onSliceBox_keeps | with_reducible apply sendRelay_keeps | with_reducible apply sendSegments_keeps | with_reducible apply sendTwin_keeps | with_reducible apply Keeps.ite | split | exact h.of rfl rfl rfl rfl rfl rfl | rfl | exact Nat.le_refl _ | (simp; done)

theorem respond_keeps {b m} {a0 a1 a2 a3 a4 a5} (h : Keeps b m) : Keeps b (respond a0 a1 a2 a3 a4 a5 m) := by
  unfold respond; try dsimp only
  repeat' first | intro _ | with_reducible assumption | with_reducible apply deliver_keeps | with_reducible apply Keeps.ite | split | exact h.of rfl rfl rfl rfl rfl rfl | rfl | exact Nat.le_refl _ | (simp; done)

theorem raiseAccepted_keeps {b m} {a0 a1 a2 a3 a4} (h : Keeps b m) : Keeps b (raiseAccepted a0 a1 a2 a3 a4 m) := by
  unfold raiseAccepted; try dsimp only
  repeat' first | intro _ | with_reducible assumption | with_reducible apply raise_keeps | with_reducible apply Keeps.ite | split | exact h.of rfl rfl rfl rfl rfl rfl | rfl | exact Nat.le_refl _ | (simp; done)

theorem refuse_keeps {b m} {a0 a1 a2} (h : Keeps b m) : Keeps b (refuse a0 a1 a2 m) := by
  unfold refuse; try dsimp only
  repeat' first | intro _ | with_reducible assumption | with_reducible apply raise_keeps | with_reducible apply respond_keeps | with_reducible apply Keeps.ite | split | exact h.of rfl rfl rfl rfl rfl rfl | rfl | exact Nat.le_refl _ | (simp; done)

theorem sendNext_keeps {b m} {a0} (h : Keeps b m) : Keeps b (sendNext a0 m) := by
  unfold sendNext; try dsimp only
  repeat' first | intro _ | with_reducible assumption | with_reducible apply onChn_keeps | with_reducible apply sendRelay_keeps | with_reducible apply Keeps.ite | split | exact h.of rfl rfl rfl rfl rfl rfl | rfl | exact Nat.le_refl _ | (simp; done)

theorem startRelay_keeps {b m} {a0 a1 a2 a3 a4 a5 a6 a7} (h : Keeps b m) : Keeps b (startRelay a0 a1 a2 a3 a4 a5 a6 a7 m) := by
  unfold startRelay; try dsimp only
  repeat' first | intro _ | with_reducible assumption | with_reducible apply sendNext_keeps | with_reducible apply Keeps.ite | split | exact h.of rfl rfl rfl rfl rfl rfl | rfl | exact Nat.le_refl _ | (simp; done)

theorem relayOut_keeps {b m} {a0 a1 a2} (h : Keeps b m) : Keeps b (relayOut a0 a1 a2 m) := by
  unfold relayOut; try dsimp only
  repeat' first | intro _ | with_reducible assumption | with_reducible apply startRelay_keeps | with_reducible apply Keeps.ite | split | exact h.of rfl rfl rfl rfl rfl rfl | rfl | exact Nat.le_refl _ | (simp; done)

theorem ownUnit_keeps {b m} {a0 a1 a2 a3 a4} (h : Keeps b m) (ha4 : ∀ x0 x1, Keeps b x1 → Keeps b (a4 x0 x1)) : Keeps b (ownUnit a0 a1 a2 a3 a4 m) := by
  unfold ownUnit; try dsimp only
  repeat' first | intro _ | with_reducible assumption | apply ha4 | with_reducible apply onSess_keeps | with_reducible apply refuse_keeps | with_reducible apply startRelay_keeps | with_reducible apply Keeps.ite | split | exact h.of rfl rfl rfl rfl rfl rfl | rfl | exact Nat.le_refl _ | (simp; done)

theorem judged_keeps {b m} {a0 a1 a2 a3} (h : Keeps b m) (ha3 : ∀ x0 x1, Keeps b x1 → Keeps b (a3 x0 x1)) : Keeps b (judged a0 a1 a2 a3 m) := by
  unfold judged; try dsimp only
  repeat' first | intro _ | with_reducible assumption | apply ha3 | with_reducible apply ownUnit_keeps | with_reducible apply refuse_keeps | with_reducible apply relayOut_keeps | with_reducible apply Keeps.ite | split | exact h.of rfl rfl rfl rfl rfl rfl | rfl | exact Nat.le_refl _ | (simp; done)

theorem runRead_keeps {b m} {a0 a1 a2 a3 a4} (h : Keeps b m) (ha4 : ∀ x0, Keeps b x0 → Keeps b (a4 x0)) : Keeps b (runRead a0 a1 a2 a3 a4 m) := by
  unfold runRead; try dsimp only
  repeat' first | intro _ | with_reducible assumption | apply ha4 | with_reducible apply judged_keeps | with_reducible apply respond_keeps | with_reducible apply Keeps.ite | split | exact h.of rfl rfl rfl rfl rfl rfl | rfl | exact Nat.le_refl _ | (simp; done)

theorem runNow_keeps {b m} {a0 a1 a2 a3 a4} (h : Keeps b m) (ha4 : ∀ x0, Keeps b x0 → Keeps b (a4 x0)) : Keeps b (runNow a0 a1 a2 a3 a4 m) := by
  unfold runNow; try dsimp only
  repeat' first | intro _ | with_reducible assumption | apply ha4 | with_reducible apply judged_keeps | with_reducible apply raiseAccepted_keeps | with_reducible apply respond_keeps | with_reducible apply Keeps.ite | split | exact h.of rfl rfl rfl rfl rfl rfl | rfl | exact Nat.le_refl _ | (simp; done)

theorem enterChange_keeps {b m} {a0 a1 a2 a3 a4 a5} (h : Keeps b m) : Keeps b (enterChange a0 a1 a2 a3 a4 a5 m) := by
  unfold enterChange; try dsimp only
  repeat' first | intro _ | with_reducible assumption | with_reducible apply onMbx_keeps | with_reducible apply onSliceBox_keeps | with_reducible apply raiseAccepted_keeps | with_reducible apply respond_keeps | with_reducible apply Keeps.ite | split | exact h.of rfl rfl rfl rfl rfl rfl | rfl | exact Nat.le_refl _ | (simp; done)

theorem runSched_keeps {b m} {a0 a1 a2 a3} (h : Keeps b m) : Keeps b (runSched a0 a1 a2 a3 m) := by
  unfold runSched; try dsimp only
  repeat' first | intro _ | with_reducible assumption | with_reducible apply enterChange_keeps | with_reducible apply judged_keeps | with_reducible apply Keeps.ite | split | exact h.of rfl rfl rfl rfl rfl rfl | rfl | exact Nat.le_refl _ | (simp; done)

theorem sendForward_keeps {b m} {a0} (h : Keeps b m) : Keeps b (sendForward a0 m) := by
  unfold sendForward; try dsimp only
  repeat' first | intro _ | with_reducible assumption | with_reducible apply sendTwin_keeps | with_reducible apply Keeps.ite | split | exact h.of rfl rfl rfl rfl rfl rfl | rfl | exact Nat.le_refl _ | (simp; done)

theorem runForward_keeps {b m} {a0 a1 a2 a3 a4 a5} (h : Keeps b m) (ha5 : ∀ x0, Keeps b x0 → Keeps b (a5 x0)) : Keeps b (runForward a0 a1 a2 a3 a4 a5 m) := by
  unfold runForward; try dsimp only
  repeat' first | intro _ | with_reducible assumption | apply ha5 | with_reducible apply judged_keeps | with_reducible apply onMbx_keeps | with_reducible apply sendForward_keeps | with_reducible apply Keeps.ite | split | exact h.of rfl rfl rfl rfl rfl rfl | rfl | exact Nat.le_refl _ | (simp; done)

end Sys2Proof.Machine
end

