-- ==== Sys2Proof/Laws/KeepsSpace.lean ====
section
/-! SUPPORT. What every operation of Machine/Space keeps (Keeps, Laws/Keeps). -/
namespace Sys2Proof.Machine
set_option linter.all false
open Sys2Proof

theorem onSlice_keeps {b m} {a0 a1} (h : Keeps b m) : Keeps b (onSlice a0 a1 m) := by
  unfold onSlice; try dsimp only
  repeat' first | intro _ | with_reducible assumption | with_reducible apply onCpu_keeps | with_reducible apply Keeps.ite | split | exact h.of rfl rfl rfl rfl rfl rfl | rfl | exact Nat.le_refl _ | (simp; done)

theorem slcCount_keeps {b m} {a0 a1} (h : Keeps b m) : Keeps b (slcCount a0 a1 m) := by
  unfold slcCount; try dsimp only
  repeat' first | intro _ | with_reducible assumption | with_reducible apply onSlice_keeps | with_reducible apply Keeps.ite | split | exact h.of rfl rfl rfl rfl rfl rfl | rfl | exact Nat.le_refl _ | (simp; done)

theorem dspCount_keeps {b m} {a0 a1} (h : Keeps b m) : Keeps b (dspCount a0 a1 m) := by
  unfold dspCount; try dsimp only
  repeat' first | intro _ | with_reducible assumption | with_reducible apply onSlice_keeps | with_reducible apply Keeps.ite | split | exact h.of rfl rfl rfl rfl rfl rfl | rfl | exact Nat.le_refl _ | (simp; done)

theorem addLate_keeps {b m} {a0 a1 a2} (h : Keeps b m) : Keeps b (addLate a0 a1 a2 m) := by
  unfold addLate; try dsimp only
  repeat' first | intro _ | with_reducible assumption | with_reducible apply onTime_keeps | with_reducible apply Keeps.ite | split | exact h.of rfl rfl rfl rfl rfl rfl | rfl | exact Nat.le_refl _ | (simp; done)

theorem coreReads_keeps {b m} {a0 a1} (h : Keeps b m) : Keeps b (coreReads a0 a1 m) := by
  unfold coreReads; exact onCore_keeps h fun _ hk hf => hk hf

theorem markPages_keeps {b m} {a0 a1 a2} (h : Keeps b m) : Keeps b (markPages a0 a1 a2 m) := by
  unfold markPages; try dsimp only
  repeat' first | intro _ | with_reducible assumption | with_reducible apply onSlice_keeps | with_reducible apply Keeps.ite | split | exact h.of rfl rfl rfl rfl rfl rfl | rfl | exact Nat.le_refl _ | (simp; done)

theorem slcPut_keeps {b m} {a0 a1 a2} (h : Keeps b m) : Keeps b (slcPut a0 a1 a2 m) := by
  unfold slcPut; try dsimp only
  repeat' first | intro _ | with_reducible assumption | exact memPut_wf _ _ _ (by assumption) | exact memFilter_wf _ _ (by assumption) | exact memZero_wf _ _ _ (by assumption) | with_reducible apply onMem_keeps | with_reducible apply Keeps.ite | split | exact h.of rfl rfl rfl rfl rfl rfl | rfl | exact Nat.le_refl _ | (simp; done)

end Sys2Proof.Machine
end

