-- ==== Sys2Proof/Laws/KeepsPoints.lean ====
section
/-! SUPPORT. What every operation of Machine/Points keeps (Keeps, Laws/Keeps). -/
namespace Sys2Proof.Machine
set_option linter.all false
open Sys2Proof

theorem putPoint_keeps {b m} {a0 a1} (h : Keeps b m) : Keeps b (putPoint a0 a1 m) := by
  unfold putPoint; try dsimp only
  repeat' first | intro _ | with_reducible assumption | with_reducible apply onSig_keeps | with_reducible apply Keeps.ite | split | exact h.of rfl rfl rfl rfl rfl rfl | rfl | exact Nat.le_refl _ | (simp; done)

theorem ownerWrite_keeps {b m} {a0 a1 a2} (h : Keeps b m) : Keeps b (ownerWrite a0 a1 a2 m) := by
  unfold ownerWrite; try dsimp only
  repeat' first | intro _ | with_reducible assumption | with_reducible apply putPoint_keeps | with_reducible apply Keeps.ite | split | exact h.of rfl rfl rfl rfl rfl rfl | rfl | exact Nat.le_refl _ | (simp; done)

theorem returnWhere_keeps {b m} {a0 a1} (h : Keeps b m) : Keeps b (returnWhere a0 a1 m) := by
  unfold returnWhere; try dsimp only
  repeat' first | intro _ | with_reducible assumption | with_reducible apply forEach_keeps | with_reducible apply onSig_keeps | with_reducible apply Keeps.ite | split | exact h.of rfl rfl rfl rfl rfl rfl | rfl | exact Nat.le_refl _ | (simp; done)

theorem returnPoint_keeps {b m} {a0 a1} (h : Keeps b m) : Keeps b (returnPoint a0 a1 m) := by
  unfold returnPoint; try dsimp only
  repeat' first | intro _ | with_reducible assumption | with_reducible apply onSig_keeps | with_reducible apply Keeps.ite | split | exact h.of rfl rfl rfl rfl rfl rfl | rfl | exact Nat.le_refl _ | (simp; done)

theorem sliceWrite_keeps {b m} {a0 a1 a2 a3 a4 a5 a6} (h : Keeps b m) : Keeps b (sliceWrite a0 a1 a2 a3 a4 a5 a6 m).2 := by
  unfold sliceWrite; try dsimp only
  repeat' first | intro _ | with_reducible assumption | with_reducible apply onSig_keeps | with_reducible apply raise_keeps | with_reducible apply slcCount_keeps | with_reducible apply Keeps.ite | split | exact h.of rfl rfl rfl rfl rfl rfl | rfl | exact Nat.le_refl _ | (simp; done)

theorem commitOne_keeps {b m} {a0 a1 a2} (h : Keeps b m) : Keeps b (commitOne a0 a1 a2 m) := by
  unfold commitOne; try dsimp only
  repeat' first | intro _ | with_reducible assumption | with_reducible apply putPoint_keeps | with_reducible apply raise_keeps | with_reducible apply slcCount_keeps | with_reducible apply Keeps.ite | split | exact h.of rfl rfl rfl rfl rfl rfl | rfl | exact Nat.le_refl _ | (simp; done)

theorem commitWindow_keeps {b m} {a0} (h : Keeps b m) : Keeps b (commitWindow a0 m) := by
  unfold commitWindow; try dsimp only
  repeat' first | intro _ | with_reducible assumption | with_reducible apply commitOne_keeps | with_reducible apply forEach_keeps | with_reducible apply onSig_keeps | with_reducible apply Keeps.ite | split | exact h.of rfl rfl rfl rfl rfl rfl | rfl | exact Nat.le_refl _ | (simp; done)

end Sys2Proof.Machine
end

