-- ==== Sys2Proof/Laws/KeepsBuffer.lean ====
section
/-! SUPPORT. What every operation of Machine/Buffer keeps (Keeps, Laws/Keeps). -/
namespace Sys2Proof.Machine
set_option linter.all false
open Sys2Proof

theorem onQueue_keeps {b m} {a0 a1} (h : Keeps b m) : Keeps b (onQueue a0 a1 m) := by
  unfold onQueue; try dsimp only
  repeat' first | intro _ | with_reducible assumption | with_reducible apply onNet_keeps | with_reducible apply Keeps.ite | split | exact h.of rfl rfl rfl rfl rfl rfl | rfl | exact Nat.le_refl _ | (simp; done)

theorem queueCount_keeps {b m} {a0 a1 a2} (h : Keeps b m) : Keeps b (queueCount a0 a1 a2 m) := by
  unfold queueCount; try dsimp only
  repeat' first | intro _ | with_reducible assumption | with_reducible apply onQueue_keeps | with_reducible apply Keeps.ite | split | exact h.of rfl rfl rfl rfl rfl rfl | rfl | exact Nat.le_refl _ | (simp; done)

theorem onRing_keeps {b m} {a0 a1} (h : Keeps b m) : Keeps b (onRing a0 a1 m) := by
  unfold onRing; try dsimp only
  repeat' first | intro _ | with_reducible assumption | with_reducible apply onNet_keeps | with_reducible apply Keeps.ite | split | exact h.of rfl rfl rfl rfl rfl rfl | rfl | exact Nat.le_refl _ | (simp; done)

theorem ringCount_keeps {b m} {a0 a1 a2} (h : Keeps b m) : Keeps b (ringCount a0 a1 a2 m) := by
  unfold ringCount; try dsimp only
  repeat' first | intro _ | with_reducible assumption | with_reducible apply onRing_keeps | with_reducible apply Keeps.ite | split | exact h.of rfl rfl rfl rfl rfl rfl | rfl | exact Nat.le_refl _ | (simp; done)

theorem onStored_keeps {b m} {a0 a1} (h : Keeps b m) : Keeps b (onStored a0 a1 m) := by
  unfold onStored; try dsimp only
  repeat' first | intro _ | with_reducible assumption | with_reducible apply onNet_keeps | with_reducible apply Keeps.ite | split | exact h.of rfl rfl rfl rfl rfl rfl | rfl | exact Nat.le_refl _ | (simp; done)

theorem passLaunches_keeps {b m} {a0} (h : Keeps b m) : Keeps b (passLaunches a0 m) := by
  unfold passLaunches; try dsimp only
  repeat' first | intro _ | with_reducible assumption | with_reducible apply forEach_keeps | with_reducible apply onStored_keeps | with_reducible apply Keeps.ite | split | exact h.of rfl rfl rfl rfl rfl rfl | rfl | exact Nat.le_refl _ | (simp; done)

theorem noteFree_keeps {b m} {a0} (h : Keeps b m) : Keeps b (noteFree a0 m) := by
  unfold noteFree; try dsimp only
  repeat' first | intro _ | with_reducible assumption | with_reducible apply onNet_keeps | with_reducible apply raise_keeps | with_reducible apply Keeps.ite | split | exact h.of rfl rfl rfl rfl rfl rfl | rfl | exact Nat.le_refl _ | (simp; done)

theorem partition_keeps {b m} {a0} (h : Keeps b m) (ha0 : ∀ x0, Keeps b x0 → Keeps b (a0 x0)) : Keeps b (partition a0 m) := by
  unfold partition; try dsimp only
  repeat' first | intro _ | with_reducible assumption | apply ha0 | with_reducible apply noteFree_keeps | with_reducible apply Keeps.ite | split | exact h.of rfl rfl rfl rfl rfl rfl | rfl | exact Nat.le_refl _ | (simp; done)

end Sys2Proof.Machine
end

