-- ==== Sys2Proof/Laws/KeepsSig.lean ====
section
/-! SUPPORT. What every operation and every command of Machine/Sig keeps (Keeps, Laws/Keeps). -/
namespace Sys2Proof.Machine
set_option linter.all false
open Sys2Proof

theorem applyRangeSet_keeps {b m} {a0} (h : Keeps b m) : Keeps b (applyRangeSet a0 m) := by
  unfold applyRangeSet; try dsimp only
  repeat' first | intro _ | with_reducible assumption | with_reducible apply onSig_keeps | with_reducible apply Keeps.ite | split | exact h.of rfl rfl rfl rfl rfl rfl | rfl | exact Nat.le_refl _ | (simp; done)

theorem withPub_keeps {b m} {a1 a2} (h : Keeps b m) : Keeps b (withPub m a1 a2) := by
  unfold withPub; try dsimp only
  repeat' first | intro _ | with_reducible assumption | with_reducible apply onSig_keeps | with_reducible apply Keeps.ite | split | exact h.of rfl rfl rfl rfl rfl rfl | rfl | exact Nat.le_refl _ | (simp; done)

theorem raiseTrip_keeps {b m} (h : Keeps b m) : Keeps b (raiseTrip m) := by
  unfold raiseTrip; try dsimp only
  repeat' first | intro _ | with_reducible assumption | with_reducible apply forEach_keeps | with_reducible apply onQueue_keeps | with_reducible apply Keeps.ite | split | exact h.of rfl rfl rfl rfl rfl rfl | rfl | exact Nat.le_refl _ | (simp; done)

theorem applyPubSet_keeps {b m} {a0} (h : Keeps b m) : Keeps b (applyPubSet a0 m) := by
  unfold applyPubSet; try dsimp only
  repeat' first | intro _ | with_reducible assumption | with_reducible apply onSig_keeps | with_reducible apply partition_keeps | with_reducible apply raiseTrip_keeps | with_reducible apply Keeps.ite | split | exact h.of rfl rfl rfl rfl rfl rfl | rfl | exact Nat.le_refl _ | (simp; done)

theorem applySubSet_keeps {b m} {a0} (h : Keeps b m) : Keeps b (applySubSet a0 m) := by
  unfold applySubSet; try dsimp only
  repeat' first | intro _ | with_reducible assumption | with_reducible apply onSig_keeps | with_reducible apply raise_keeps | with_reducible apply Keeps.ite | split | exact h.of rfl rfl rfl rfl rfl rfl | rfl | exact Nat.le_refl _ | (simp; done)

theorem applyCurveSet_keeps {b m} {a0} (h : Keeps b m) : Keeps b (applyCurveSet a0 m) := by
  unfold applyCurveSet; try dsimp only
  repeat' first | intro _ | with_reducible assumption | with_reducible apply onSig_keeps | with_reducible apply Keeps.ite | split | exact h.of rfl rfl rfl rfl rfl rfl | rfl | exact Nat.le_refl _ | (simp; done)

theorem execSigPointRead_keeps {b s t} {a0 a1} (h : Keeps b s.m) (e : execSigPointRead a0 a1 s = .next t) : Keeps b t.m := by
  unfold execSigPointRead at e; refine runOn_keeps ?_ e; try dsimp only
  repeat' first | intro _ | with_reducible assumption | with_reducible apply runRead_keeps | with_reducible apply Keeps.ite | with_reducible apply id_keeps | split | exact h.of rfl rfl rfl rfl rfl rfl | rfl | exact Nat.le_refl _ | (simp; done)

theorem execSigPubStatus_keeps {b s t} {a0 a1} (h : Keeps b s.m) (e : execSigPubStatus a0 a1 s = .next t) : Keeps b t.m := by
  unfold execSigPubStatus at e; refine runOn_keeps ?_ e; try dsimp only
  repeat' first | intro _ | with_reducible assumption | with_reducible apply onSig_keeps | with_reducible apply runRead_keeps | with_reducible apply when_keeps | with_reducible apply Keeps.ite | with_reducible apply id_keeps | split | exact h.of rfl rfl rfl rfl rfl rfl | rfl | exact Nat.le_refl _ | (simp; done)

theorem execSigSubStatus_keeps {b s t} {a0 a1} (h : Keeps b s.m) (e : execSigSubStatus a0 a1 s = .next t) : Keeps b t.m := by
  unfold execSigSubStatus at e; refine runOn_keeps ?_ e; try dsimp only
  repeat' first | intro _ | with_reducible assumption | with_reducible apply onSig_keeps | with_reducible apply runRead_keeps | with_reducible apply when_keeps | with_reducible apply Keeps.ite | with_reducible apply id_keeps | split | exact h.of rfl rfl rfl rfl rfl rfl | rfl | exact Nat.le_refl _ | (simp; done)

theorem onSpa_keeps {b m} {a0 a1 a2} (h : Keeps b m) : Keeps b (onSpa a0 a1 a2 m) := by
  unfold onSpa; try dsimp only
  repeat' first | intro _ | with_reducible assumption | with_reducible apply onSig_keeps | with_reducible apply Keeps.ite | split | exact h.of rfl rfl rfl rfl rfl rfl | rfl | exact Nat.le_refl _ | (simp; done)

theorem spaCmd_keeps {b m} {a0 a1} (h : Keeps b m) : Keeps b (spaCmd a0 a1 m) := by
  unfold spaCmd; try dsimp only
  repeat' first | intro _ | with_reducible assumption | with_reducible apply onSpa_keeps | with_reducible apply slcCount_keeps | with_reducible apply sliceWrite_keeps | with_reducible apply Keeps.ite | split | exact h.of rfl rfl rfl rfl rfl rfl | rfl | exact Nat.le_refl _ | (simp; done)

theorem noteLines_keeps {b m} {a0 a1 a2 a3 a4} (h : Keeps b m) : Keeps b (noteLines a0 a1 a2 a3 a4 m) := by
  unfold noteLines; try dsimp only
  repeat' first | intro _ | with_reducible assumption | with_reducible apply markPages_keeps | with_reducible apply onTwn_keeps | with_reducible apply Keeps.ite | split | exact h.of rfl rfl rfl rfl rfl rfl | rfl | exact Nat.le_refl _ | (simp; done)

theorem burstEntry_keeps {b m} {a0 a1 a2 a3 a4 a5} (h : Keeps b m) : Keeps b (burstEntry a0 a1 a2 a3 a4 a5 m).2 := by
  unfold burstEntry; try dsimp only
  repeat' first | intro _ | with_reducible assumption | with_reducible apply noteLines_keeps | with_reducible apply slcCount_keeps | with_reducible apply slcPut_keeps | with_reducible apply sliceWrite_keeps | with_reducible apply Keeps.ite | split | exact h.of rfl rfl rfl rfl rfl rfl | rfl | exact Nat.le_refl _ | (simp; done)

theorem burstGo_keeps {b m} {a0 a1 a2 a3 a4 a5 a6} (h : Keeps b m) : Keeps b (burstGo a0 a1 a2 a3 a4 a5 a6 m).2.2 := by
  induction a5 generalizing m a6 with
  | zero => exact h
  | succ n ih =>
    unfold burstGo; dsimp only
    split
    · exact ih (burstEntry_keeps h)
    · exact burstEntry_keeps h

theorem spaBurst_keeps {b m} {a0 a1 a2} (h : Keeps b m) : Keeps b (spaBurst a0 a1 a2 m) := by
  unfold spaBurst; try dsimp only
  repeat' first | intro _ | with_reducible assumption | with_reducible apply burstGo_keeps | with_reducible apply onSpa_keeps | with_reducible apply Keeps.ite | split | exact h.of rfl rfl rfl rfl rfl rfl | rfl | exact Nat.le_refl _ | (simp; done)

theorem execSpaRead_keeps {b s t} {a0} (h : Keeps b s.m) (e : execSpaRead a0 s = .next t) : Keeps b t.m := by
  unfold execSpaRead at e; refine runOn_keeps ?_ e; try dsimp only
  repeat' first | intro _ | with_reducible assumption | with_reducible apply spaCmd_keeps | with_reducible apply Keeps.ite | with_reducible apply id_keeps | split | exact h.of rfl rfl rfl rfl rfl rfl | rfl | exact Nat.le_refl _ | (simp; done)

theorem execSpaWriteAuto_keeps {b s t} {a0} (h : Keeps b s.m) (e : execSpaWriteAuto a0 s = .next t) : Keeps b t.m := by
  unfold execSpaWriteAuto at e; refine runOn_keeps ?_ e; try dsimp only
  repeat' first | intro _ | with_reducible assumption | with_reducible apply spaCmd_keeps | with_reducible apply Keeps.ite | with_reducible apply id_keeps | split | exact h.of rfl rfl rfl rfl rfl rfl | rfl | exact Nat.le_refl _ | (simp; done)

theorem execSpaWriteExplicit_keeps {b s t} {a0} (h : Keeps b s.m) (e : execSpaWriteExplicit a0 s = .next t) : Keeps b t.m := by
  unfold execSpaWriteExplicit at e; refine runOn_keeps ?_ e; try dsimp only
  repeat' first | intro _ | with_reducible assumption | with_reducible apply spaCmd_keeps | with_reducible apply Keeps.ite | with_reducible apply id_keeps | split | exact h.of rfl rfl rfl rfl rfl rfl | rfl | exact Nat.le_refl _ | (simp; done)

theorem execSpaBurstRead_keeps {b s t} {a0 a1} (h : Keeps b s.m) (e : execSpaBurstRead a0 a1 s = .next t) : Keeps b t.m := by
  unfold execSpaBurstRead at e; refine runOn_keeps ?_ e; try dsimp only
  repeat' first | intro _ | with_reducible assumption | with_reducible apply spaBurst_keeps | with_reducible apply Keeps.ite | with_reducible apply id_keeps | split | exact h.of rfl rfl rfl rfl rfl rfl | rfl | exact Nat.le_refl _ | (simp; done)

theorem execSpaBurstWriteAuto_keeps {b s t} {a0 a1} (h : Keeps b s.m) (e : execSpaBurstWriteAuto a0 a1 s = .next t) : Keeps b t.m := by
  unfold execSpaBurstWriteAuto at e; refine runOn_keeps ?_ e; try dsimp only
  repeat' first | intro _ | with_reducible assumption | with_reducible apply spaBurst_keeps | with_reducible apply Keeps.ite | with_reducible apply id_keeps | split | exact h.of rfl rfl rfl rfl rfl rfl | rfl | exact Nat.le_refl _ | (simp; done)

theorem execSpaBurstWriteExplicit_keeps {b s t} {a0 a1} (h : Keeps b s.m) (e : execSpaBurstWriteExplicit a0 a1 s = .next t) : Keeps b t.m := by
  unfold execSpaBurstWriteExplicit at e; refine runOn_keeps ?_ e; try dsimp only
  repeat' first | intro _ | with_reducible assumption | with_reducible apply spaBurst_keeps | with_reducible apply Keeps.ite | with_reducible apply id_keeps | split | exact h.of rfl rfl rfl rfl rfl rfl | rfl | exact Nat.le_refl _ | (simp; done)

theorem execWindowCommit_keeps {b s t} {a0} (h : Keeps b s.m) (e : execWindowCommit a0 s = .next t) : Keeps b t.m := by
  unfold execWindowCommit at e; refine runOn_keeps ?_ e; try dsimp only
  repeat' first | intro _ | with_reducible assumption | with_reducible apply advanceTo_keeps | with_reducible apply commitWindow_keeps | with_reducible apply Keeps.ite | with_reducible apply id_keeps | split | exact h.of rfl rfl rfl rfl rfl rfl | rfl | exact Nat.le_refl _ | (simp; done)

theorem enqueuePub_keeps {b m} {a0 a1 a2 a3 a4} (h : Keeps b m) : Keeps b (enqueuePub a0 a1 a2 a3 a4 m) := by
  unfold enqueuePub; try dsimp only
  repeat' first | intro _ | with_reducible assumption | with_reducible apply pubCount_keeps | with_reducible apply sendInner_keeps | with_reducible apply Keeps.ite | split | exact h.of rfl rfl rfl rfl rfl rfl | rfl | exact Nat.le_refl _ | (simp; done)

theorem setPub_keeps {b m} {a0 a1} (h : Keeps b m) : Keeps b (setPub a0 a1 m) := by
  unfold setPub; try dsimp only
  repeat' first | intro _ | with_reducible assumption | with_reducible apply onSig_keeps | with_reducible apply Keeps.ite | split | exact h.of rfl rfl rfl rfl rfl rfl | rfl | exact Nat.le_refl _ | (simp; done)

theorem pubSend_keeps {b m} {a0 a1 a2 a3 a4 a5} (h : Keeps b m) : Keeps b (pubSend a0 a1 a2 a3 a4 a5 m) := by
  unfold pubSend; try dsimp only
  repeat' first | intro _ | with_reducible assumption | with_reducible apply enqueuePub_keeps | with_reducible apply pubCount_keeps | with_reducible apply Keeps.ite | split | exact h.of rfl rfl rfl rfl rfl rfl | rfl | exact Nat.le_refl _ | (simp; done)

theorem pubChange_keeps {b m} {a0 a1 a2 a3} (h : Keeps b m) : Keeps b (pubChange a0 a1 a2 a3 m) := by
  unfold pubChange; try dsimp only
  repeat' first | intro _ | with_reducible assumption | with_reducible apply onSig_keeps | with_reducible apply pubCount_keeps | with_reducible apply pubSend_keeps | with_reducible apply setPub_keeps | with_reducible apply Keeps.ite | split | exact h.of rfl rfl rfl rfl rfl rfl | rfl | exact Nat.le_refl _ | (simp; done)

theorem pubRepeat_keeps {b m} {a0 a1 a2 a3} (h : Keeps b m) : Keeps b (pubRepeat a0 a1 a2 a3 m) := by
  unfold pubRepeat; try dsimp only
  repeat' first | intro _ | with_reducible assumption | with_reducible apply onSig_keeps | with_reducible apply pubCount_keeps | with_reducible apply pubSend_keeps | with_reducible apply setPub_keeps | with_reducible apply Keeps.ite | split | exact h.of rfl rfl rfl rfl rfl rfl | rfl | exact Nat.le_refl _ | (simp; done)

theorem sendOwed_keeps {b m} {a0 a1} (h : Keeps b m) : Keeps b (sendOwed a0 a1 m) := by
  unfold sendOwed; try dsimp only
  repeat' first | intro _ | with_reducible assumption | with_reducible apply pubChange_keeps | with_reducible apply pubRepeat_keeps | with_reducible apply Keeps.ite | split | exact h.of rfl rfl rfl rfl rfl rfl | rfl | exact Nat.le_refl _ | (simp; done)

theorem gooseSnapshot_keeps {b m} {a0} (h : Keeps b m) : Keeps b (gooseSnapshot a0 m) := by
  unfold gooseSnapshot; try dsimp only
  repeat' first | intro _ | with_reducible assumption | with_reducible apply forEach_keeps | with_reducible apply sendOwed_keeps | with_reducible apply Keeps.ite | split | exact h.of rfl rfl rfl rfl rfl rfl | rfl | exact Nat.le_refl _ | (simp; done)

theorem gsubCount_keeps {b m} {a0 a1} (h : Keeps b m) : Keeps b (gsubCount a0 a1 m) := by
  unfold gsubCount; try dsimp only
  repeat' first | intro _ | with_reducible assumption | with_reducible apply onSig_keeps | with_reducible apply Keeps.ite | split | exact h.of rfl rfl rfl rfl rfl rfl | rfl | exact Nat.le_refl _ | (simp; done)

theorem setGsub_keeps {b m} {a0 a1} (h : Keeps b m) : Keeps b (setGsub a0 a1 m) := by
  unfold setGsub; try dsimp only
  repeat' first | intro _ | with_reducible assumption | with_reducible apply onSig_keeps | with_reducible apply Keeps.ite | split | exact h.of rfl rfl rfl rfl rfl rfl | rfl | exact Nat.le_refl _ | (simp; done)

theorem commitGoose_keeps {b m} {a0 a1} (h : Keeps b m) : Keeps b (commitGoose a0 a1 m) := by
  unfold commitGoose; try dsimp only
  repeat' first | intro _ | with_reducible assumption | with_reducible apply forEach_keeps | with_reducible apply putPoint_keeps | with_reducible apply Keeps.ite | split | exact h.of rfl rfl rfl rfl rfl rfl | rfl | exact Nat.le_refl _ | (simp; done)

theorem acceptGoose_keeps {b m} {a0 a1 a2 a3} (h : Keeps b m) : Keeps b (acceptGoose a0 a1 a2 a3 m) := by
  unfold acceptGoose; try dsimp only
  repeat' first | intro _ | with_reducible assumption | with_reducible apply commitGoose_keeps | with_reducible apply gsubCount_keeps | with_reducible apply raise_keeps | with_reducible apply setGsub_keeps | with_reducible apply Keeps.ite | split | exact h.of rfl rfl rfl rfl rfl rfl | rfl | exact Nat.le_refl _ | (simp; done)

theorem takeGoose_keeps {b m} {a0} (h : Keeps b m) : Keeps b (takeGoose a0 m) := by
  unfold takeGoose; try dsimp only
  repeat' first | intro _ | with_reducible assumption | with_reducible apply acceptGoose_keeps | with_reducible apply gsubCount_keeps | with_reducible apply onSig_keeps | with_reducible apply raise_keeps | with_reducible apply setGsub_keeps | with_reducible apply Keeps.ite | split | exact h.of rfl rfl rfl rfl rfl rfl | rfl | exact Nat.le_refl _ | (simp; done)

theorem execGooseReceive_keeps {b s t} (h : Keeps b s.m) (e : execGooseReceive s = .next t) : Keeps b t.m := by
  unfold execGooseReceive at e; refine runOn_keeps ?_ e; try dsimp only
  repeat' first | intro _ | with_reducible assumption | with_reducible apply onSig_keeps | with_reducible apply takeGoose_keeps | with_reducible apply Keeps.ite | with_reducible apply id_keeps | split | exact h.of rfl rfl rfl rfl rfl rfl | rfl | exact Nat.le_refl _ | (simp; done)

theorem expirePoint_keeps {b m} {a0} (h : Keeps b m) : Keeps b (expirePoint a0 m) := by
  unfold expirePoint; try dsimp only
  repeat' first | intro _ | with_reducible assumption | with_reducible apply putPoint_keeps | with_reducible apply Keeps.ite | split | exact h.of rfl rfl rfl rfl rfl rfl | rfl | exact Nat.le_refl _ | (simp; done)

theorem execGooseSupervisionExpire_keeps {b s t} {a0} (h : Keeps b s.m) (e : execGooseSupervisionExpire a0 s = .next t) : Keeps b t.m := by
  unfold execGooseSupervisionExpire at e; refine runOn_keeps ?_ e; try dsimp only
  repeat' first | intro _ | with_reducible assumption | with_reducible apply advanceTo_keeps | with_reducible apply expirePoint_keeps | with_reducible apply forEach_keeps | with_reducible apply gsubCount_keeps | with_reducible apply raise_keeps | with_reducible apply setGsub_keeps | with_reducible apply Keeps.ite | with_reducible apply id_keeps | split | exact h.of rfl rfl rfl rfl rfl rfl | rfl | exact Nat.le_refl _ | (simp; done)

end Sys2Proof.Machine
end

