-- ==== Sys2Proof/Laws/KeepsDsp.lean ====
section
/-! SUPPORT. What every operation and every command of Machine/Dsp keeps (Keeps, Laws/Keeps). -/
namespace Sys2Proof.Machine
set_option linter.all false
open Sys2Proof

theorem guaranteeEvent_keeps {b m} {a0 a1 a2} (h : Keeps b m) : Keeps b (guaranteeEvent a0 a1 a2 m) := by
  unfold guaranteeEvent; try dsimp only
  repeat' first | intro _ | with_reducible assumption | with_reducible apply raise_keeps | with_reducible apply Keeps.ite | split | exact h.of rfl rfl rfl rfl rfl rfl | rfl | exact Nat.le_refl _ | (simp; done)

theorem guarantee_keeps {b m} (h : Keeps b m) : Keeps b (guarantee m) := by
  unfold guarantee; try dsimp only
  repeat' first | intro _ | with_reducible assumption | with_reducible apply forEach_keeps | with_reducible apply guaranteeEvent_keeps | with_reducible apply onCpu_keeps | with_reducible apply Keeps.ite | split | exact h.of rfl rfl rfl rfl rfl rfl | rfl | exact Nat.le_refl _ | (simp; done)

theorem setReady_keeps {b m} {a0 a1 a2} (h : Keeps b m) : Keeps b (setReady a0 a1 a2 m) := by
  unfold setReady; try dsimp only
  repeat' first | intro _ | with_reducible assumption | with_reducible apply onCpu_keeps | with_reducible apply Keeps.ite | split | exact h.of rfl rfl rfl rfl rfl rfl | rfl | exact Nat.le_refl _ | (simp; done)

theorem onPair_keeps {b m} {a0 a1 a2} (h : Keeps b m) : Keeps b (onPair a0 a1 a2 m) := by
  unfold onPair; try dsimp only
  repeat' first | intro _ | with_reducible assumption | with_reducible apply onCpu_keeps | with_reducible apply Keeps.ite | split | exact h.of rfl rfl rfl rfl rfl rfl | rfl | exact Nat.le_refl _ | (simp; done)

theorem followItem_keeps {b m} {a0 a1 a2} (h : Keeps b m) : Keeps b (followItem a0 a1 a2 m) := by
  unfold followItem; try dsimp only
  repeat' first | intro _ | with_reducible assumption | with_reducible apply onPair_keeps | with_reducible apply Keeps.ite | split | exact h.of rfl rfl rfl rfl rfl rfl | rfl | exact Nat.le_refl _ | (simp; done)

theorem makeReady_keeps {b m} {a0 a1} (h : Keeps b m) : Keeps b (makeReady a0 a1 m) := by
  unfold makeReady; try dsimp only
  repeat' first | intro _ | with_reducible assumption | with_reducible apply setReady_keeps | with_reducible apply Keeps.ite | split | exact h.of rfl rfl rfl rfl rfl rfl | rfl | exact Nat.le_refl _ | (simp; done)

theorem enterItem_keeps {b m} {a0 a1} (h : Keeps b m) : Keeps b (enterItem a0 a1 m).2 := by
  unfold enterItem; try dsimp only
  repeat' first | intro _ | with_reducible assumption | with_reducible apply makeReady_keeps | with_reducible apply onSlice_keeps | with_reducible apply setDelay_keeps | with_reducible apply Keeps.ite | split | exact h.of rfl rfl rfl rfl rfl rfl | rfl | exact Nat.le_refl _ | (simp; done)

theorem rearm_keeps {b m} {a0} (h : Keeps b m) : Keeps b (rearm a0 m) := by
  unfold rearm; try dsimp only
  repeat' first | intro _ | with_reducible assumption | with_reducible apply onRing_keeps | with_reducible apply Keeps.ite | split | exact h.of rfl rfl rfl rfl rfl rfl | rfl | exact Nat.le_refl _ | (simp; done)

theorem dropItem_keeps {b m} {a0 a1} (h : Keeps b m) : Keeps b (dropItem a0 a1 m) := by
  unfold dropItem; try dsimp only
  repeat' first | intro _ | with_reducible assumption | with_reducible apply rearm_keeps | with_reducible apply setDelay_keeps | with_reducible apply setReady_keeps | with_reducible apply Keeps.ite | split | exact h.of rfl rfl rfl rfl rfl rfl | rfl | exact Nat.le_refl _ | (simp; done)

theorem withdrawItems_keeps {b m} {a0} (h : Keeps b m) : Keeps b (withdrawItems a0 m).2 := by
  unfold withdrawItems; try dsimp only
  repeat' first | intro _ | with_reducible assumption | with_reducible apply dropItem_keeps | with_reducible apply followItem_keeps | with_reducible apply forEach_keeps | with_reducible apply onSlice_keeps | with_reducible apply Keeps.ite | split | exact h.of rfl rfl rfl rfl rfl rfl | rfl | exact Nat.le_refl _ | (simp; done)

theorem postItem_keeps {b m} {a0 a1 a2 a3 a4 a5} (h : Keeps b m) : Keeps b (postItem a0 a1 a2 a3 a4 a5 m) := by
  unfold postItem; try dsimp only
  repeat' first | intro _ | with_reducible assumption | with_reducible apply dspCount_keeps | with_reducible apply enterItem_keeps | with_reducible apply onCpu_keeps | with_reducible apply raise_keeps | with_reducible apply Keeps.ite | split | exact h.of rfl rfl rfl rfl rfl rfl | rfl | exact Nat.le_refl _ | (simp; done)

theorem refuseHeld_keeps {b m} {a0 a1} (h : Keeps b m) : Keeps b (refuseHeld a0 a1 m) := by
  unfold refuseHeld; try dsimp only
  repeat' first | intro _ | with_reducible assumption | with_reducible apply dspCount_keeps | with_reducible apply onRing_keeps | with_reducible apply Keeps.ite | split | exact h.of rfl rfl rfl rfl rfl rfl | rfl | exact Nat.le_refl _ | (simp; done)

theorem tryHeld_keeps {b m} {a0} (h : Keeps b m) : Keeps b (tryHeld a0 m) := by
  unfold tryHeld; try dsimp only
  repeat' first | intro _ | with_reducible assumption | with_reducible apply enterItem_keeps | with_reducible apply onCpu_keeps | with_reducible apply refuseHeld_keeps | with_reducible apply Keeps.ite | split | exact h.of rfl rfl rfl rfl rfl rfl | rfl | exact Nat.le_refl _ | (simp; done)

theorem releaseHeld_keeps {b m} {a0 a1} (h : Keeps b m) : Keeps b (releaseHeld a0 a1 m) := by
  unfold releaseHeld; try dsimp only
  repeat' first | intro _ | with_reducible assumption | with_reducible apply tryHeld_keeps | with_reducible apply Keeps.ite | split | exact h.of rfl rfl rfl rfl rfl rfl | rfl | exact Nat.le_refl _ | (simp; done)

theorem retryHeld_keeps {b m} (h : Keeps b m) : Keeps b (retryHeld m) := by
  unfold retryHeld; try dsimp only
  repeat' first | intro _ | with_reducible assumption | with_reducible apply forEach_keeps | with_reducible apply tryHeld_keeps | with_reducible apply Keeps.ite | split | exact h.of rfl rfl rfl rfl rfl rfl | rfl | exact Nat.le_refl _ | (simp; done)

theorem execEngineItemStallRelease_keeps {b s t} {a0} (h : Keeps b s.m) (e : execEngineItemStallRelease a0 s = .next t) : Keeps b t.m := by
  unfold execEngineItemStallRelease at e; refine runOn_keeps ?_ e; try dsimp only
  repeat' first | intro _ | with_reducible assumption | with_reducible apply releaseHeld_keeps | with_reducible apply Keeps.ite | with_reducible apply id_keeps | split | exact h.of rfl rfl rfl rfl rfl rfl | rfl | exact Nat.le_refl _ | (simp; done)

theorem releaseDue_keeps {b m} {a0 a1} (h : Keeps b m) : Keeps b (releaseDue a0 a1 m) := by
  unfold releaseDue; try dsimp only
  repeat' first | intro _ | with_reducible assumption | with_reducible apply followItem_keeps | with_reducible apply forEach_keeps | with_reducible apply makeReady_keeps | with_reducible apply setDelay_keeps | with_reducible apply Keeps.ite | split | exact h.of rfl rfl rfl rfl rfl rfl | rfl | exact Nat.le_refl _ | (simp; done)

theorem releaseAll_keeps {b m} {a0} (h : Keeps b m) : Keeps b (releaseAll a0 m) := by
  unfold releaseAll; try dsimp only
  repeat' first | intro _ | with_reducible assumption | with_reducible apply forEach_keeps | with_reducible apply releaseDue_keeps | with_reducible apply Keeps.ite | split | exact h.of rfl rfl rfl rfl rfl rfl | rfl | exact Nat.le_refl _ | (simp; done)

theorem inCycle_keeps {b m} {a0} (h : Keeps b m) (ha0 : ∀ x0, Keeps b x0 → Keeps b (a0 x0)) : Keeps b (inCycle a0 m) := by
  unfold inCycle; try dsimp only
  repeat' first | intro _ | with_reducible assumption | apply ha0 | with_reducible apply releaseAll_keeps | with_reducible apply Keeps.ite | split | exact h.of rfl rfl rfl rfl rfl rfl | rfl | exact Nat.le_refl _ | (simp; done)

theorem submitItem_keeps {b m} {a0 a1 a2} (h : Keeps b m) : Keeps b (submitItem a0 a1 a2 m) := by
  unfold submitItem; try dsimp only
  repeat' first | intro _ | with_reducible assumption | with_reducible apply dspCount_keeps | with_reducible apply enterItem_keeps | with_reducible apply onPair_keeps | with_reducible apply raiseQuiet_keeps | with_reducible apply Keeps.ite | split | exact h.of rfl rfl rfl rfl rfl rfl | rfl | exact Nat.le_refl _ | (simp; done)

theorem execDspSubmit_keeps {b s t} {a0 a1} (h : Keeps b s.m) (e : execDspSubmit a0 a1 s = .next t) : Keeps b t.m := by
  unfold execDspSubmit at e; refine runOn_keeps ?_ e; try dsimp only
  repeat' first | intro _ | with_reducible assumption | with_reducible apply inCycle_keeps | with_reducible apply submitItem_keeps | with_reducible apply Keeps.ite | with_reducible apply id_keeps | split | exact h.of rfl rfl rfl rfl rfl rfl | rfl | exact Nat.le_refl _ | (simp; done)

theorem noteFreed_keeps {b m} {a0 a1 a2} (h : Keeps b m) : Keeps b (noteFreed a0 a1 a2 m) := by
  unfold noteFreed; try dsimp only
  repeat' first | intro _ | with_reducible assumption | with_reducible apply onSlice_keeps | with_reducible apply Keeps.ite | split | exact h.of rfl rfl rfl rfl rfl rfl | rfl | exact Nat.le_refl _ | (simp; done)

theorem cancelItem_keeps {b m} {a0 a1 a2} (h : Keeps b m) : Keeps b (cancelItem a0 a1 a2 m) := by
  unfold cancelItem; try dsimp only
  repeat' first | intro _ | with_reducible assumption | with_reducible apply dropItem_keeps | with_reducible apply dspCount_keeps | with_reducible apply followItem_keeps | with_reducible apply noteFreed_keeps | with_reducible apply onPair_keeps | with_reducible apply Keeps.ite | split | exact h.of rfl rfl rfl rfl rfl rfl | rfl | exact Nat.le_refl _ | (simp; done)

theorem execDspCancel_keeps {b s t} {a0 a1} (h : Keeps b s.m) (e : execDspCancel a0 a1 s = .next t) : Keeps b t.m := by
  unfold execDspCancel at e; refine runOn_keeps ?_ e; try dsimp only
  repeat' first | intro _ | with_reducible assumption | with_reducible apply cancelItem_keeps | with_reducible apply inCycle_keeps | with_reducible apply Keeps.ite | with_reducible apply id_keeps | split | exact h.of rfl rfl rfl rfl rfl rfl | rfl | exact Nat.le_refl _ | (simp; done)

theorem completeItem_keeps {b m} {a0 a1} (h : Keeps b m) : Keeps b (completeItem a0 a1 m) := by
  unfold completeItem
  split
  · rename_i hr
    refine h.trans ⟨id, id, fun k => (lmod_length _ _ _).trans k, fun k x hx => ?_, id, id, rfl, rfl, .refl _, Nat.le_refl _, Nat.le_refl _⟩
    exact fitSet m a0 (fun c => { c with fetching := true }) k (fun hc => hr) x hx
  · exact onCore_keeps (followItem_keeps (dspCount_keeps h)) fun _ _ _ => rfl

theorem execDspFetch_keeps {b s t} {a0} (h : Keeps b s.m) (e : execDspFetch a0 s = .next t) : Keeps b t.m := by
  unfold execDspFetch at e; refine runOn_keeps ?_ e; try dsimp only
  repeat' first | intro _ | with_reducible assumption | with_reducible apply completeItem_keeps | with_reducible apply Keeps.ite | with_reducible apply id_keeps | split | exact h.of rfl rfl rfl rfl rfl rfl | rfl | exact Nat.le_refl _ | (simp; done)

theorem countFault_keeps {b m} {a0} (h : Keeps b m) : Keeps b (countFault a0 m) := by
  unfold countFault; try dsimp only
  repeat' first | intro _ | with_reducible assumption | with_reducible apply onSlice_keeps | with_reducible apply Keeps.ite | split | exact h.of rfl rfl rfl rfl rfl rfl | rfl | exact Nat.le_refl _ | (simp; done)

theorem faultItem_keeps {b m} {a0 a1} (h : Keeps b m) : Keeps b (faultItem a0 a1 m) := by
  unfold faultItem; try dsimp only
  repeat' first | intro _ | with_reducible assumption | with_reducible apply completeItem_keeps | with_reducible apply countFault_keeps | with_reducible apply raise_keeps | with_reducible apply slcCount_keeps | with_reducible apply Keeps.ite | split | exact h.of rfl rfl rfl rfl rfl rfl | rfl | exact Nat.le_refl _ | (simp; done)

theorem execHandlerFault_keeps {b s t} {a0 a1} (h : Keeps b s.m) (e : execHandlerFault a0 a1 s = .next t) : Keeps b t.m := by
  unfold execHandlerFault at e; refine runOn_keeps ?_ e; try dsimp only
  repeat' first | intro _ | with_reducible assumption | with_reducible apply faultItem_keeps | with_reducible apply Keeps.ite | with_reducible apply id_keeps | split | exact h.of rfl rfl rfl rfl rfl rfl | rfl | exact Nat.le_refl _ | (simp; done)

theorem abortItem_keeps {b m} {a0} (h : Keeps b m) : Keeps b (abortItem a0 m) := by
  unfold abortItem; try dsimp only
  repeat' first | intro _ | with_reducible assumption | with_reducible apply completeItem_keeps | with_reducible apply countFault_keeps | with_reducible apply dspCount_keeps | with_reducible apply raise_keeps | with_reducible apply slcCount_keeps | with_reducible apply Keeps.ite | split | exact h.of rfl rfl rfl rfl rfl rfl | rfl | exact Nat.le_refl _ | (simp; done)

theorem grantItem_keeps {b m} {a0 a1 a2 a3 a4 a5} (h : Keeps b m) : Keeps b (grantItem a0 a1 a2 a3 a4 a5 m) := by
  unfold grantItem; dsimp only
  refine onCore_keeps (followItem_keeps (dspCount_keeps (dropItem_keeps ?_))) (fun _ _ hk => by cases hk)
  split
  · exact h
  · exact onTime_keeps h rfl rfl

theorem grantCore_keeps {b m} {a0 a1 a2} (h : Keeps b m) : Keeps b (grantCore a0 a1 a2 m) := by
  unfold grantCore; try dsimp only
  repeat' first | intro _ | with_reducible assumption | with_reducible apply grantItem_keeps | with_reducible apply Keeps.ite | split | exact h.of rfl rfl rfl rfl rfl rfl | rfl | exact Nat.le_refl _ | (simp; done)

theorem countLent_keeps {b m} {a0 a1} (h : Keeps b m) : Keeps b (countLent a0 a1 m) := by
  unfold countLent; try dsimp only
  repeat' first | intro _ | with_reducible assumption | with_reducible apply dspCount_keeps | with_reducible apply forEach_keeps | with_reducible apply Keeps.ite | split | exact h.of rfl rfl rfl rfl rfl rfl | rfl | exact Nat.le_refl _ | (simp; done)

theorem commitDue_keeps {b m} (h : Keeps b m) : Keeps b (commitDue m) := by
  unfold commitDue; try dsimp only
  repeat' first | intro _ | with_reducible assumption | with_reducible apply commitWindow_keeps | with_reducible apply forEach_keeps | with_reducible apply Keeps.ite | split | exact h.of rfl rfl rfl rfl rfl rfl | rfl | exact Nat.le_refl _ | (simp; done)

theorem captureLines_keeps {b m} (h : Keeps b m) : Keeps b (captureLines m) := by
  unfold captureLines; try dsimp only
  repeat' first | intro _ | with_reducible assumption | with_reducible apply onTwn_keeps | with_reducible apply Keeps.ite | split | exact h.of rfl rfl rfl rfl rfl rfl | rfl | exact Nat.le_refl _ | (simp; done)

theorem dispatchSlot_keeps {b m} (h : Keeps b m) : Keeps b (dispatchSlot m) := by
  unfold dispatchSlot
  split
  · exact h
  · refine countLent_keeps (forEach_keeps (captureLines_keeps (commitDue_keeps (forEach_keeps ?_ fun a x hx => ?_)))
      fun a x hx => grantCore_keeps hx)
    · split
      · exact retryHeld_keeps (releaseAll_keeps h)
      · exact releaseAll_keeps h
    · split
      · exact abortItem_keeps hx
      · exact hx

theorem applyOffset_keeps {b m} (h : Keeps b m) : Keeps b (applyOffset m) := by
  unfold applyOffset
  split
  · exact h
  · exact passLaunches_keeps
      (h.trans ⟨id, fun _ => clockOf_ns _, id, fun k c hc => k c hc, id, id, rfl, rfl, .refl _, Nat.le_refl _, Nat.le_refl _⟩)

theorem slotBoundary_keeps {b m} (h : Keeps b m) : Keeps b (slotBoundary m) := by
  unfold slotBoundary; try dsimp only
  repeat' first | intro _ | with_reducible assumption | with_reducible apply advanceTo_keeps | with_reducible apply applyOffset_keeps | with_reducible apply dispatchSlot_keeps | with_reducible apply onTime_keeps | with_reducible apply Keeps.ite | split | exact h.of rfl rfl rfl rfl rfl rfl | rfl | exact Nat.le_refl _ | (simp; done)

theorem execSlotBoundary_keeps {b s t} (h : Keeps b s.m) (e : execSlotBoundary s = .next t) : Keeps b t.m := by
  unfold execSlotBoundary at e; refine runOn_keeps ?_ e; try dsimp only
  repeat' first | intro _ | with_reducible assumption | with_reducible apply slotBoundary_keeps | with_reducible apply Keeps.ite | with_reducible apply id_keeps | split | exact h.of rfl rfl rfl rfl rfl rfl | rfl | exact Nat.le_refl _ | (simp; done)

theorem slotsTo_keeps {b m} {a0 a1} (h : Keeps b m) : Keeps b (slotsTo a0 a1 m) := by
  induction a1 generalizing m with
  | zero => exact h
  | succ n ih =>
    unfold slotsTo
    split
    · exact ih (slotBoundary_keeps h)
    · exact h

theorem openCycle_keeps {b m} {a0} (h : Keeps b m) : Keeps b (openCycle a0 m) := by
  unfold openCycle; try dsimp only
  repeat' first | intro _ | with_reducible assumption | with_reducible apply advanceTo_keeps | with_reducible apply releaseAll_keeps | with_reducible apply Keeps.ite | split | exact h.of rfl rfl rfl rfl rfl rfl | rfl | exact Nat.le_refl _ | (simp; done)

theorem execDelayRelease_keeps {b s t} {a0} (h : Keeps b s.m) (e : execDelayRelease a0 s = .next t) : Keeps b t.m := by
  unfold execDelayRelease at e; refine runOn_keeps ?_ e; try dsimp only
  repeat' first | intro _ | with_reducible assumption | with_reducible apply openCycle_keeps | with_reducible apply slotsTo_keeps | with_reducible apply Keeps.ite | with_reducible apply id_keeps | split | exact h.of rfl rfl rfl rfl rfl rfl | rfl | exact Nat.le_refl _ | (simp; done)

theorem execWindowOverrunAbort_keeps {b s t} {a0} (h : Keeps b s.m) (e : execWindowOverrunAbort a0 s = .next t) : Keeps b t.m := by
  unfold execWindowOverrunAbort at e; refine runOn_keeps ?_ e; try dsimp only
  repeat' first | intro _ | with_reducible assumption | with_reducible apply slotsTo_keeps | with_reducible apply Keeps.ite | with_reducible apply id_keeps | split | exact h.of rfl rfl rfl rfl rfl rfl | rfl | exact Nat.le_refl _ | (simp; done)

theorem journalAdd_keeps {b m} {a0 a1 a3} (h : Keeps b m) : Keeps b (journalAdd a0 a1 m a3) := by
  unfold journalAdd; try dsimp only
  repeat' first | intro _ | with_reducible assumption | with_reducible apply onSec_keeps | with_reducible apply Keeps.ite | split | exact h.of rfl rfl rfl rfl rfl rfl | rfl | exact Nat.le_refl _ | (simp; done)

theorem loadLattice_keeps {b m} {a0} (h : Keeps b m) : Keeps b (loadLattice a0 m) := by
  unfold loadLattice; try dsimp only
  repeat' first | intro _ | with_reducible assumption | with_reducible apply onCpu_keeps | with_reducible apply Keeps.ite | split | exact h.of rfl rfl rfl rfl rfl rfl | rfl | exact Nat.le_refl _ | (simp; done)

theorem execDspLatLoad_keeps {b s t} {a0 a1} (h : Keeps b s.m) (e : execDspLatLoad a0 a1 s = .next t) : Keeps b t.m := by
  unfold execDspLatLoad at e; refine runOn_keeps ?_ e; try dsimp only
  repeat' first | intro _ | with_reducible assumption | with_reducible apply journalAdd_keeps | with_reducible apply loadLattice_keeps | with_reducible apply runNow_keeps | with_reducible apply Keeps.ite | with_reducible apply id_keeps | split | exact h.of rfl rfl rfl rfl rfl rfl | rfl | exact Nat.le_refl _ | (simp; done)

theorem lockLattice_keeps {b m} (h : Keeps b m) : Keeps b (lockLattice m) := by
  unfold lockLattice; try dsimp only
  repeat' first | intro _ | with_reducible assumption | with_reducible apply onCpu_keeps | with_reducible apply Keeps.ite | split | exact h.of rfl rfl rfl rfl rfl rfl | rfl | exact Nat.le_refl _ | (simp; done)

theorem applyLattice_keeps {b m} {a0} (h : Keeps b m) : Keeps b (applyLattice a0 m) := by
  unfold applyLattice; try dsimp only
  repeat' first | intro _ | with_reducible assumption | with_reducible apply guarantee_keeps | with_reducible apply onCpu_keeps | with_reducible apply raise_keeps | with_reducible apply Keeps.ite | split | exact h.of rfl rfl rfl rfl rfl rfl | rfl | exact Nat.le_refl _ | (simp; done)

theorem execDspLatRead_keeps {b s t} {a0 a1} (h : Keeps b s.m) (e : execDspLatRead a0 a1 s = .next t) : Keeps b t.m := by
  unfold execDspLatRead at e; refine runOn_keeps ?_ e; try dsimp only
  repeat' first | intro _ | with_reducible assumption | with_reducible apply runRead_keeps | with_reducible apply Keeps.ite | with_reducible apply id_keeps | split | exact h.of rfl rfl rfl rfl rfl rfl | rfl | exact Nat.le_refl _ | (simp; done)

theorem applyHandlerSet_keeps {b m} {a0} (h : Keeps b m) : Keeps b (applyHandlerSet a0 m) := by
  unfold applyHandlerSet; try dsimp only
  repeat' first | intro _ | with_reducible assumption | with_reducible apply onSlice_keeps | with_reducible apply Keeps.ite | split | exact h.of rfl rfl rfl rfl rfl rfl | rfl | exact Nat.le_refl _ | (simp; done)

theorem execDspStatus_keeps {b s t} {a0 a1} (h : Keeps b s.m) (e : execDspStatus a0 a1 s = .next t) : Keeps b t.m := by
  unfold execDspStatus at e; refine runOn_keeps ?_ e; try dsimp only
  repeat' first | intro _ | with_reducible assumption | with_reducible apply onSlice_keeps | with_reducible apply runRead_keeps | with_reducible apply when_keeps | with_reducible apply Keeps.ite | with_reducible apply id_keeps | split | exact h.of rfl rfl rfl rfl rfl rfl | rfl | exact Nat.le_refl _ | (simp; done)

end Sys2Proof.Machine
end

