-- ==== Sys2Proof/Laws/KeepsSwc.lean ====
section
/-! SUPPORT. What every operation and every command of Machine/Swc keeps (Keeps, Laws/Keeps). -/
namespace Sys2Proof.Machine
set_option linter.all false
open Sys2Proof

theorem releaseCopy_keeps {b m} {a0 a1} (h : Keeps b m) : Keeps b (releaseCopy a0 a1 m) := by
  unfold releaseCopy; try dsimp only
  repeat' first | intro _ | with_reducible assumption | with_reducible apply onNet_keeps | with_reducible apply Keeps.ite | split | exact h.of rfl rfl rfl rfl rfl rfl | rfl | exact Nat.le_refl _ | (simp; done)

theorem unqueue_keeps {b m} {a0 a1} (h : Keeps b m) : Keeps b (unqueue a0 a1 m) := by
  unfold unqueue; try dsimp only
  repeat' first | intro _ | with_reducible assumption | with_reducible apply onQueue_keeps | with_reducible apply Keeps.ite | split | exact h.of rfl rfl rfl rfl rfl rfl | rfl | exact Nat.le_refl _ | (simp; done)

theorem settleHead_keeps {b m} {a0 a1 a2 a3} (h : Keeps b m) : Keeps b (settleHead a0 a1 a2 a3 m) := by
  induction a3 generalizing m with
  | zero => exact h
  | succ n ih =>
    unfold settleHead; dsimp only
    repeat' first | with_reducible assumption | with_reducible apply ih | with_reducible apply onStored_keeps | with_reducible apply releaseCopy_keeps | with_reducible apply unqueue_keeps | with_reducible apply macCount_keeps | split

theorem changeHead_keeps {b m} {a0 a1} (h : Keeps b m) (ha1 : ∀ x0, Keeps b x0 → Keeps b (a1 x0)) : Keeps b (changeHead a0 a1 m) := by
  unfold changeHead; try dsimp only
  repeat' first | intro _ | with_reducible assumption | apply ha1 | with_reducible apply settleHead_keeps | with_reducible apply Keeps.ite | split | exact h.of rfl rfl rfl rfl rfl rfl | rfl | exact Nat.le_refl _ | (simp; done)

theorem countRemoved_keeps {b m} {a0 a1 a2} (h : Keeps b m) : Keeps b (countRemoved a0 a1 a2 m) := by
  unfold countRemoved; try dsimp only
  repeat' first | intro _ | with_reducible assumption | with_reducible apply forEach_keeps | with_reducible apply ringCount_keeps | with_reducible apply slcCount_keeps | with_reducible apply Keeps.ite | split | exact h.of rfl rfl rfl rfl rfl rfl | rfl | exact Nat.le_refl _ | (simp; done)

theorem dropCopy_keeps {b m} {a0 a1} (h : Keeps b m) : Keeps b (dropCopy a0 a1 m) := by
  unfold dropCopy; try dsimp only
  repeat' first | intro _ | with_reducible assumption | with_reducible apply countRemoved_keeps | with_reducible apply releaseCopy_keeps | with_reducible apply Keeps.ite | split | exact h.of rfl rfl rfl rfl rfl rfl | rfl | exact Nat.le_refl _ | (simp; done)

theorem removeQueued_keeps {b m} {a0 a1 a2 a3} (h : Keeps b m) : Keeps b (removeQueued a0 a1 a2 a3 m) := by
  unfold removeQueued; try dsimp only
  repeat' first | intro _ | with_reducible assumption | with_reducible apply changeHead_keeps | with_reducible apply dropCopy_keeps | with_reducible apply queueCount_keeps | with_reducible apply unqueue_keeps | with_reducible apply Keeps.ite | split | exact h.of rfl rfl rfl rfl rfl rfl | rfl | exact Nat.le_refl _ | (simp; done)

theorem blockCount_keeps {b m} {a0 a1} (h : Keeps b m) : Keeps b (blockCount a0 a1 m) := by
  unfold blockCount; try dsimp only
  repeat' first | intro _ | with_reducible assumption | with_reducible apply pubCount_keeps | with_reducible apply Keeps.ite | split | exact h.of rfl rfl rfl rfl rfl rfl | rfl | exact Nat.le_refl _ | (simp; done)

theorem emptyQueue_keeps {b m} {a0 a1} (h : Keeps b m) : Keeps b (emptyQueue a0 a1 m) := by
  unfold emptyQueue; try dsimp only
  repeat' first | intro _ | with_reducible assumption | with_reducible apply blockCount_keeps | with_reducible apply dropCopy_keeps | with_reducible apply forEach_keeps | with_reducible apply queueCount_keeps | with_reducible apply unqueue_keeps | with_reducible apply Keeps.ite | split | exact h.of rfl rfl rfl rfl rfl rfl | rfl | exact Nat.le_refl _ | (simp; done)

theorem enqueueCopy_keeps {b m} {a0 a1} (h : Keeps b m) : Keeps b (enqueueCopy a0 a1 m) := by
  unfold enqueueCopy; try dsimp only
  repeat' first | intro _ | with_reducible assumption | with_reducible apply changeHead_keeps | with_reducible apply macCount_keeps | with_reducible apply onNet_keeps | with_reducible apply onQueue_keeps | with_reducible apply onSig_keeps | with_reducible apply onSvi_keeps | with_reducible apply queueCount_keeps | with_reducible apply Keeps.ite | split | exact h.of rfl rfl rfl rfl rfl rfl | rfl | exact Nat.le_refl _ | (simp; done)

theorem admitFrame_keeps {b m} {a0 a1 a2 a3} (h : Keeps b m) : Keeps b (admitFrame a0 a1 a2 a3 m) := by
  unfold admitFrame; try dsimp only
  repeat' first | intro _ | with_reducible assumption | with_reducible apply enqueueCopy_keeps | with_reducible apply forEach_keeps | with_reducible apply noteFree_keeps | with_reducible apply onNet_keeps | with_reducible apply onSlice_keeps | with_reducible apply queueCount_keeps | with_reducible apply raise_keeps | with_reducible apply Keeps.ite | split | exact h.of rfl rfl rfl rfl rfl rfl | rfl | exact Nat.le_refl _ | (simp; done)

theorem markWait_keeps {b m} {a0} (h : Keeps b m) : Keeps b (markWait a0 m).2 := by
  unfold markWait; try dsimp only
  repeat' first | intro _ | with_reducible assumption | with_reducible apply forEach_keeps | with_reducible apply queueCount_keeps | with_reducible apply raiseQuiet_keeps | with_reducible apply slcCount_keeps | with_reducible apply Keeps.ite | split | exact h.of rfl rfl rfl rfl rfl rfl | rfl | exact Nat.le_refl _ | (simp; done)

theorem dropDisabled_keeps {b m} {a0} (h : Keeps b m) : Keeps b (dropDisabled a0 m).2 := by
  unfold dropDisabled; try dsimp only
  repeat' first | intro _ | with_reducible assumption | with_reducible apply countRemoved_keeps | with_reducible apply forEach_keeps | with_reducible apply macCount_keeps | with_reducible apply pubCount_keeps | with_reducible apply queueCount_keeps | with_reducible apply swCount_keeps | with_reducible apply Keeps.ite | split | exact h.of rfl rfl rfl rfl rfl rfl | rfl | exact Nat.le_refl _ | (simp; done)

theorem dropRings_keeps {b m} {a0} (h : Keeps b m) : Keeps b (dropRings a0 m).2 := by
  unfold dropRings; try dsimp only
  repeat' first | intro _ | with_reducible assumption | with_reducible apply forEach_keeps | with_reducible apply queueCount_keeps | with_reducible apply swCount_keeps | with_reducible apply Keeps.ite | split | exact h.of rfl rfl rfl rfl rfl rfl | rfl | exact Nat.le_refl _ | (simp; done)

theorem admitOne_keeps {b m} {a0} (h : Keeps b m) : Keeps b (admitOne a0 m).2 := by
  unfold admitOne; try dsimp only
  repeat' first | intro _ | with_reducible assumption | with_reducible apply admitFrame_keeps | with_reducible apply dropDisabled_keeps | with_reducible apply dropRings_keeps | with_reducible apply markWait_keeps | with_reducible apply Keeps.ite | split | exact h.of rfl rfl rfl rfl rfl rfl | rfl | exact Nat.le_refl _ | (simp; done)

theorem flowWatch_keeps {b m} {a0 a1} (h : Keeps b m) : Keeps b (flowWatch a0 a1 m) := by
  unfold flowWatch; try dsimp only
  repeat' first | intro _ | with_reducible assumption | with_reducible apply onPort_keeps | with_reducible apply Keeps.ite | split | exact h.of rfl rfl rfl rfl rfl rfl | rfl | exact Nat.le_refl _ | (simp; done)

theorem admitAtOnce_keeps {b m} {a0} (h : Keeps b m) : Keeps b (admitAtOnce a0 m) := by
  unfold admitAtOnce; try dsimp only
  repeat' first | intro _ | with_reducible assumption | with_reducible apply admitFrame_keeps | with_reducible apply dropDisabled_keeps | with_reducible apply Keeps.ite | split | exact h.of rfl rfl rfl rfl rfl rfl | rfl | exact Nat.le_refl _ | (simp; done)

theorem admitPort_keeps {b m} {a0 a1} (h : Keeps b m) : Keeps b (admitPort a0 a1 m) := by
  unfold admitPort; try dsimp only
  repeat' first | intro _ | with_reducible assumption | with_reducible apply admitAtOnce_keeps | with_reducible apply admitOne_keeps | with_reducible apply flowWatch_keeps | with_reducible apply onPort_keeps | with_reducible apply Keeps.ite | split | exact h.of rfl rfl rfl rfl rfl rfl | rfl | exact Nat.le_refl _ | (simp; done)

theorem admitInner_keeps {b m} {a0} (h : Keeps b m) : Keeps b (admitInner a0 m) := by
  unfold admitInner; try dsimp only
  repeat' first | intro _ | with_reducible assumption | with_reducible apply admitOne_keeps | with_reducible apply onNet_keeps | with_reducible apply Keeps.ite | split | exact h.of rfl rfl rfl rfl rfl rfl | rfl | exact Nat.le_refl _ | (simp; done)

theorem execAdmission_keeps {b s t} {a0} (h : Keeps b s.m) (e : execAdmission a0 s = .next t) : Keeps b t.m := by
  unfold execAdmission at e; refine runOn_keeps ?_ e; try dsimp only
  repeat' first | intro _ | with_reducible assumption | with_reducible apply admitInner_keeps | with_reducible apply admitPort_keeps | with_reducible apply Keeps.ite | with_reducible apply id_keeps | split | exact h.of rfl rfl rfl rfl rfl rfl | rfl | exact Nat.le_refl _ | (simp; done)

theorem applyBufSet_keeps {b m} {a0} (h : Keeps b m) : Keeps b (applyBufSet a0 m) := by
  unfold applyBufSet; try dsimp only
  repeat' first | intro _ | with_reducible assumption | with_reducible apply onNet_keeps | with_reducible apply partition_keeps | with_reducible apply Keeps.ite | split | exact h.of rfl rfl rfl rfl rfl rfl | rfl | exact Nat.le_refl _ | (simp; done)

theorem applyQueueSet_keeps {b m} {a0} (h : Keeps b m) : Keeps b (applyQueueSet a0 m) := by
  unfold applyQueueSet; try dsimp only
  repeat' first | intro _ | with_reducible assumption | with_reducible apply onQueue_keeps | with_reducible apply partition_keeps | with_reducible apply Keeps.ite | split | exact h.of rfl rfl rfl rfl rfl rfl | rfl | exact Nat.le_refl _ | (simp; done)

theorem applySwPortSet_keeps {b m} {a0} (h : Keeps b m) : Keeps b (applySwPortSet a0 m) := by
  unfold applySwPortSet; try dsimp only
  repeat' first | intro _ | with_reducible assumption | with_reducible apply onPort_keeps | with_reducible apply Keeps.ite | split | exact h.of rfl rfl rfl rfl rfl rfl | rfl | exact Nat.le_refl _ | (simp; done)

theorem execSwcStatus_keeps {b s t} {a0 a1} (h : Keeps b s.m) (e : execSwcStatus a0 a1 s = .next t) : Keeps b t.m := by
  unfold execSwcStatus at e; refine runOn_keeps ?_ e; try dsimp only
  repeat' first | intro _ | with_reducible assumption | with_reducible apply onNet_keeps | with_reducible apply runRead_keeps | with_reducible apply Keeps.ite | with_reducible apply id_keeps | split | exact h.of rfl rfl rfl rfl rfl rfl | rfl | exact Nat.le_refl _ | (simp; done)

theorem execSwcQueueStatus_keeps {b s t} {a0 a1} (h : Keeps b s.m) (e : execSwcQueueStatus a0 a1 s = .next t) : Keeps b t.m := by
  unfold execSwcQueueStatus at e; refine runOn_keeps ?_ e; try dsimp only
  repeat' first | intro _ | with_reducible assumption | with_reducible apply onQueue_keeps | with_reducible apply runRead_keeps | with_reducible apply when_keeps | with_reducible apply Keeps.ite | with_reducible apply id_keeps | split | exact h.of rfl rfl rfl rfl rfl rfl | rfl | exact Nat.le_refl _ | (simp; done)

end Sys2Proof.Machine
end

