-- ==== Sys2Proof/Laws/KeepsMac.lean ====
section
/-! SUPPORT. What every operation and every command of Machine/Mac keeps (Keeps, Laws/Keeps). -/
namespace Sys2Proof.Machine
set_option linter.all false
open Sys2Proof

theorem countReceived_keeps {b m} {a0 a1 a2} (h : Keeps b m) : Keeps b (countReceived a0 a1 a2 m) := by
  unfold countReceived; try dsimp only
  repeat' first | intro _ | with_reducible assumption | with_reducible apply onPort_keeps | with_reducible apply Keeps.ite | split | exact h.of rfl rfl rfl rfl rfl rfl | rfl | exact Nat.le_refl _ | (simp; done)

theorem sendPtp_keeps {b m} {a0 a1 a2} (h : Keeps b m) : Keeps b (sendPtp a0 a1 a2 m) := by
  unfold sendPtp; try dsimp only
  repeat' first | intro _ | with_reducible assumption | with_reducible apply sendInner_keeps | with_reducible apply Keeps.ite | split | exact h.of rfl rfl rfl rfl rfl rfl | rfl | exact Nat.le_refl _ | (simp; done)

theorem followPtp_keeps {b m} {a0 a1} (h : Keeps b m) : Keeps b (followPtp a0 a1 m) := by
  unfold followPtp; try dsimp only
  repeat' first | intro _ | with_reducible assumption | with_reducible apply onTime_keeps | with_reducible apply sendPtp_keeps | with_reducible apply Keeps.ite | split | exact h.of rfl rfl rfl rfl rfl rfl | rfl | exact Nat.le_refl _ | (simp; done)

theorem onPause_keeps {b m} {a0 a1 a2} (h : Keeps b m) : Keeps b (onPause a0 a1 a2 m) := by
  unfold onPause; try dsimp only
  repeat' first | intro _ | with_reducible assumption | with_reducible apply onPort_keeps | with_reducible apply Keeps.ite | split | exact h.of rfl rfl rfl rfl rfl rfl | rfl | exact Nat.le_refl _ | (simp; done)

theorem resumeClass_keeps {b m} {a0 a1} (h : Keeps b m) : Keeps b (resumeClass a0 a1 m) := by
  unfold resumeClass; try dsimp only
  repeat' first | intro _ | with_reducible assumption | with_reducible apply onPause_keeps | with_reducible apply onStored_keeps | with_reducible apply Keeps.ite | split | exact h.of rfl rfl rfl rfl rfl rfl | rfl | exact Nat.le_refl _ | (simp; done)

theorem takeQuanta_keeps {b m} {a0 a1 a2} (h : Keeps b m) : Keeps b (takeQuanta a0 a1 a2 m) := by
  unfold takeQuanta; try dsimp only
  repeat' first | intro _ | with_reducible assumption | with_reducible apply onPause_keeps | with_reducible apply onPort_keeps | with_reducible apply resumeClass_keeps | with_reducible apply Keeps.ite | split | exact h.of rfl rfl rfl rfl rfl rfl | rfl | exact Nat.le_refl _ | (simp; done)

theorem beginPauses_keeps {b m} {a0} (h : Keeps b m) : Keeps b (beginPauses a0 m) := by
  unfold beginPauses; try dsimp only
  repeat' first | intro _ | with_reducible assumption | with_reducible apply forEach_keeps | with_reducible apply onPause_keeps | with_reducible apply Keeps.ite | split | exact h.of rfl rfl rfl rfl rfl rfl | rfl | exact Nat.le_refl _ | (simp; done)

theorem puOther_keeps {b m} (h : Keeps b m) : Keeps b (puOther m) := by
  unfold puOther; try dsimp only
  repeat' first | intro _ | with_reducible assumption | with_reducible apply onUmb_keeps | with_reducible apply Keeps.ite | split | exact h.of rfl rfl rfl rfl rfl rfl | rfl | exact Nat.le_refl _ | (simp; done)

theorem pauseFrame_keeps {b m} {a0 a1} (h : Keeps b m) : Keeps b (pauseFrame a0 a1 m) := by
  unfold pauseFrame; try dsimp only
  repeat' first | intro _ | with_reducible assumption | with_reducible apply forEach_keeps | with_reducible apply macCount_keeps | with_reducible apply onPause_keeps | with_reducible apply puOther_keeps | with_reducible apply takeQuanta_keeps | with_reducible apply Keeps.ite | split | exact h.of rfl rfl rfl rfl rfl rfl | rfl | exact Nat.le_refl _ | (simp; done)

theorem pfcFrame_keeps {b m} {a0 a1 a2} (h : Keeps b m) : Keeps b (pfcFrame a0 a1 a2 m) := by
  unfold pfcFrame; try dsimp only
  repeat' first | intro _ | with_reducible assumption | with_reducible apply forEach_keeps | with_reducible apply macCount_keeps | with_reducible apply onPause_keeps | with_reducible apply puOther_keeps | with_reducible apply takeQuanta_keeps | with_reducible apply Keeps.ite | split | exact h.of rfl rfl rfl rfl rfl rfl | rfl | exact Nat.le_refl _ | (simp; done)

theorem execPauseReceive_keeps {b s t} {a0 a1} (h : Keeps b s.m) (e : execPauseReceive a0 a1 s = .next t) : Keeps b t.m := by
  unfold execPauseReceive at e; refine runOn_keeps ?_ e; try dsimp only
  repeat' first | intro _ | with_reducible assumption | with_reducible apply countReceived_keeps | with_reducible apply pauseFrame_keeps | with_reducible apply Keeps.ite | with_reducible apply id_keeps | split | exact h.of rfl rfl rfl rfl rfl rfl | rfl | exact Nat.le_refl _ | (simp; done)

theorem execPfcReceive_keeps {b s t} {a0 a1 a2} (h : Keeps b s.m) (e : execPfcReceive a0 a1 a2 s = .next t) : Keeps b t.m := by
  unfold execPfcReceive at e; refine runOn_keeps ?_ e; try dsimp only
  repeat' first | intro _ | with_reducible assumption | with_reducible apply countReceived_keeps | with_reducible apply pfcFrame_keeps | with_reducible apply Keeps.ite | with_reducible apply id_keeps | split | exact h.of rfl rfl rfl rfl rfl rfl | rfl | exact Nat.le_refl _ | (simp; done)

theorem execPauseTimerExpire_keeps {b s t} {a0 a1} (h : Keeps b s.m) (e : execPauseTimerExpire a0 a1 s = .next t) : Keeps b t.m := by
  unfold execPauseTimerExpire at e; refine runOn_keeps ?_ e; try dsimp only
  repeat' first | intro _ | with_reducible assumption | with_reducible apply advanceTo_keeps | with_reducible apply resumeClass_keeps | with_reducible apply Keeps.ite | with_reducible apply id_keeps | split | exact h.of rfl rfl rfl rfl rfl rfl | rfl | exact Nat.le_refl _ | (simp; done)

theorem stormEvent_keeps {b m} {a0 a1 a2 a3} (h : Keeps b m) : Keeps b (stormEvent a0 a1 a2 a3 m) := by
  unfold stormEvent; try dsimp only
  repeat' first | intro _ | with_reducible assumption | with_reducible apply raise_keeps | with_reducible apply Keeps.ite | split | exact h.of rfl rfl rfl rfl rfl rfl | rfl | exact Nat.le_refl _ | (simp; done)

theorem execPauseStorm_keeps {b s t} {a0 a1} (h : Keeps b s.m) (e : execPauseStorm a0 a1 s = .next t) : Keeps b t.m := by
  unfold execPauseStorm at e; refine runOn_keeps ?_ e; try dsimp only
  repeat' first | intro _ | with_reducible assumption | with_reducible apply advanceTo_keeps | with_reducible apply forEach_keeps | with_reducible apply macCount_keeps | with_reducible apply onPause_keeps | with_reducible apply resumeClass_keeps | with_reducible apply stormEvent_keeps | with_reducible apply Keeps.ite | with_reducible apply id_keeps | split | exact h.of rfl rfl rfl rfl rfl rfl | rfl | exact Nat.le_refl _ | (simp; done)

theorem execPauseStormPeriodEnd_keeps {b s t} {a0 a1} (h : Keeps b s.m) (e : execPauseStormPeriodEnd a0 a1 s = .next t) : Keeps b t.m := by
  unfold execPauseStormPeriodEnd at e; refine runOn_keeps ?_ e; try dsimp only
  repeat' first | intro _ | with_reducible assumption | with_reducible apply advanceTo_keeps | with_reducible apply forEach_keeps | with_reducible apply macCount_keeps | with_reducible apply onPause_keeps | with_reducible apply stormEvent_keeps | with_reducible apply Keeps.ite | with_reducible apply id_keeps | split | exact h.of rfl rfl rfl rfl rfl rfl | rfl | exact Nat.le_refl _ | (simp; done)

theorem countRefused_keeps {b m} {a0 a1 a2 a3} (h : Keeps b m) : Keeps b (countRefused a0 a1 a2 a3 m) := by
  unfold countRefused; try dsimp only
  repeat' first | intro _ | with_reducible assumption | with_reducible apply forEach_keeps | with_reducible apply queueCount_keeps | with_reducible apply swCount_keeps | with_reducible apply Keeps.ite | split | exact h.of rfl rfl rfl rfl rfl rfl | rfl | exact Nat.le_refl _ | (simp; done)

theorem intoHeadroom_keeps {b m} {a0 a1} (h : Keeps b m) : Keeps b (intoHeadroom a0 a1 m) := by
  unfold intoHeadroom; try dsimp only
  repeat' first | intro _ | with_reducible assumption | with_reducible apply flowWatch_keeps | with_reducible apply onPort_keeps | with_reducible apply raise_keeps | with_reducible apply swCount_keeps | with_reducible apply Keeps.ite | split | exact h.of rfl rfl rfl rfl rfl rfl | rfl | exact Nat.le_refl _ | (simp; done)

theorem steerFrame_keeps {b m} {a0 a1 a2 a3 a4 a5} (h : Keeps b m) : Keeps b (steerFrame a0 a1 a2 a3 a4 a5 m) := by
  unfold steerFrame; try dsimp only
  repeat' first | intro _ | with_reducible assumption | with_reducible apply countRefused_keeps | with_reducible apply intoHeadroom_keeps | with_reducible apply macCount_keeps | with_reducible apply onPort_keeps | with_reducible apply raiseQuiet_keeps | with_reducible apply Keeps.ite | split | exact h.of rfl rfl rfl rfl rfl rfl | rfl | exact Nat.le_refl _ | (simp; done)

theorem umberCopy_keeps {b m} {a0 a1} (h : Keeps b m) : Keeps b (umberCopy a0 a1 m) := by
  unfold umberCopy; try dsimp only
  repeat' first | intro _ | with_reducible assumption | with_reducible apply onUmb_keeps | with_reducible apply puOther_keeps | with_reducible apply Keeps.ite | split | exact h.of rfl rfl rfl rfl rfl rfl | rfl | exact Nat.le_refl _ | (simp; done)

theorem stompPort_keeps {b m} {a0 a1} (h : Keeps b m) : Keeps b (stompPort a0 a1 m) := by
  unfold stompPort; try dsimp only
  repeat' first | intro _ | with_reducible assumption | with_reducible apply beginPauses_keeps | with_reducible apply onPort_keeps | with_reducible apply queueCount_keeps | with_reducible apply raise_keeps | with_reducible apply Keeps.ite | split | exact h.of rfl rfl rfl rfl rfl rfl | rfl | exact Nat.le_refl _ | (simp; done)

theorem stomp_keeps {b m} {a0} (h : Keeps b m) : Keeps b (stomp a0 m) := by
  unfold stomp; try dsimp only
  repeat' first | intro _ | with_reducible assumption | with_reducible apply forEach_keeps | with_reducible apply onNet_keeps | with_reducible apply stompPort_keeps | with_reducible apply Keeps.ite | split | exact h.of rfl rfl rfl rfl rfl rfl | rfl | exact Nat.le_refl _ | (simp; done)

theorem cutOne_keeps {b m} {a0 a1 a2 a3} (h : Keeps b m) : Keeps b (cutOne a0 a1 a2 a3 m) := by
  unfold cutOne; try dsimp only
  repeat' first | intro _ | with_reducible assumption | with_reducible apply onNet_keeps | with_reducible apply onPort_keeps | with_reducible apply partition_keeps | with_reducible apply queueCount_keeps | with_reducible apply Keeps.ite | split | exact h.of rfl rfl rfl rfl rfl rfl | rfl | exact Nat.le_refl _ | (simp; done)

theorem execCutThrough_keeps {b s t} {a0 a1} (h : Keeps b s.m) (e : execCutThrough a0 a1 s = .next t) : Keeps b t.m := by
  unfold execCutThrough at e; refine runOn_keeps ?_ e; try dsimp only
  repeat' first | intro _ | with_reducible assumption | with_reducible apply cutOne_keeps | with_reducible apply forEach_keeps | with_reducible apply onPort_keeps | with_reducible apply swCount_keeps | with_reducible apply Keeps.ite | with_reducible apply id_keeps | split | exact h.of rfl rfl rfl rfl rfl rfl | rfl | exact Nat.le_refl _ | (simp; done)

theorem controlFrame_keeps {b m} {a0 a1} (h : Keeps b m) : Keeps b (controlFrame a0 a1 m) := by
  unfold controlFrame; try dsimp only
  repeat' first | intro _ | with_reducible assumption | with_reducible apply macCount_keeps | with_reducible apply pauseFrame_keeps | with_reducible apply pfcFrame_keeps | with_reducible apply Keeps.ite | split | exact h.of rfl rfl rfl rfl rfl rfl | rfl | exact Nat.le_refl _ | (simp; done)

theorem receiveFrame_keeps {b m} {a0 a1} (h : Keeps b m) : Keeps b (receiveFrame a0 a1 m) := by
  unfold receiveFrame; try dsimp only
  repeat' first | intro _ | with_reducible assumption | with_reducible apply controlFrame_keeps | with_reducible apply countReceived_keeps | with_reducible apply forEach_keeps | with_reducible apply macCount_keeps | with_reducible apply onPort_keeps | with_reducible apply onStored_keeps | with_reducible apply steerFrame_keeps | with_reducible apply stomp_keeps | with_reducible apply umberCopy_keeps | with_reducible apply Keeps.ite | split | exact h.of rfl rfl rfl rfl rfl rfl | rfl | exact Nat.le_refl _ | (simp; done)

theorem execFrameReceive_keeps {b s t} {a0 a1} (h : Keeps b s.m) (e : execFrameReceive a0 a1 s = .next t) : Keeps b t.m := by
  unfold execFrameReceive at e; refine runOn_keeps ?_ e; try dsimp only
  repeat' first | intro _ | with_reducible assumption | with_reducible apply receiveFrame_keeps | with_reducible apply Keeps.ite | with_reducible apply id_keeps | split | exact h.of rfl rfl rfl rfl rfl rfl | rfl | exact Nat.le_refl _ | (simp; done)

theorem finishSending_keeps {b m} {a0} (h : Keeps b m) : Keeps b (finishSending a0 m) := by
  unfold finishSending; try dsimp only
  repeat' first | intro _ | with_reducible assumption | with_reducible apply advanceTo_keeps | with_reducible apply beginPauses_keeps | with_reducible apply followPtp_keeps | with_reducible apply onPort_keeps | with_reducible apply queueCount_keeps | with_reducible apply releaseCopy_keeps | with_reducible apply Keeps.ite | split | exact h.of rfl rfl rfl rfl rfl rfl | rfl | exact Nat.le_refl _ | (simp; done)

theorem preempt_keeps {b m} {a0} (h : Keeps b m) : Keeps b (preempt a0 m) := by
  unfold preempt; try dsimp only
  repeat' first | intro _ | with_reducible assumption | with_reducible apply advanceTo_keeps | with_reducible apply onPort_keeps | with_reducible apply Keeps.ite | split | exact h.of rfl rfl rfl rfl rfl rfl | rfl | exact Nat.le_refl _ | (simp; done)

theorem countLaunch_keeps {b m} {a0 a1 a2} (h : Keeps b m) : Keeps b (countLaunch a0 a1 a2 m) := by
  unfold countLaunch; try dsimp only
  repeat' first | intro _ | with_reducible assumption | with_reducible apply macCount_keeps | with_reducible apply pubCount_keeps | with_reducible apply raise_keeps | with_reducible apply ringCount_keeps | with_reducible apply when_keeps | with_reducible apply Keeps.ite | split | exact h.of rfl rfl rfl rfl rfl rfl | rfl | exact Nat.le_refl _ | (simp; done)

theorem startFrame_keeps {b m} {a0 a1 a2} (h : Keeps b m) : Keeps b (startFrame a0 a1 a2 m) := by
  unfold startFrame; try dsimp only
  repeat' first | intro _ | with_reducible assumption | with_reducible apply countLaunch_keeps | with_reducible apply onPort_keeps | with_reducible apply onStored_keeps | with_reducible apply settleHead_keeps | with_reducible apply unqueue_keeps | with_reducible apply Keeps.ite | split | exact h.of rfl rfl rfl rfl rfl rfl | rfl | exact Nat.le_refl _ | (simp; done)

theorem sendFlow_keeps {b m} {a0} (h : Keeps b m) : Keeps b (sendFlow a0 m) := by
  unfold sendFlow; try dsimp only
  repeat' first | intro _ | with_reducible assumption | with_reducible apply onPort_keeps | with_reducible apply Keeps.ite | split | exact h.of rfl rfl rfl rfl rfl rfl | rfl | exact Nat.le_refl _ | (simp; done)

theorem drainHead_keeps {b m} {a0} (h : Keeps b m) : Keeps b (drainHead a0 m) := by
  unfold drainHead; try dsimp only
  repeat' first | intro _ | with_reducible assumption | with_reducible apply advanceTo_keeps | with_reducible apply dropCopy_keeps | with_reducible apply macCount_keeps | with_reducible apply unqueue_keeps | with_reducible apply Keeps.ite | split | exact h.of rfl rfl rfl rfl rfl rfl | rfl | exact Nat.le_refl _ | (simp; done)

theorem startNext_keeps {b m} {a0} (h : Keeps b m) : Keeps b (startNext a0 m) := by
  unfold startNext; try dsimp only
  repeat' first | intro _ | with_reducible assumption | with_reducible apply sendFlow_keeps | with_reducible apply startFrame_keeps | with_reducible apply Keeps.ite | split | exact h.of rfl rfl rfl rfl rfl rfl | rfl | exact Nat.le_refl _ | (simp; done)

theorem sendRest_keeps {b m} {a0} (h : Keeps b m) : Keeps b (sendRest a0 m) := by
  unfold sendRest; try dsimp only
  repeat' first | intro _ | with_reducible assumption | with_reducible apply startFrame_keeps | with_reducible apply Keeps.ite | split | exact h.of rfl rfl rfl rfl rfl rfl | rfl | exact Nat.le_refl _ | (simp; done)

theorem nextBoundary_keeps {b m} {a0} (h : Keeps b m) : Keeps b (nextBoundary a0 m) := by
  unfold nextBoundary; try dsimp only
  repeat' first | intro _ | with_reducible assumption | with_reducible apply drainHead_keeps | with_reducible apply finishSending_keeps | with_reducible apply sendRest_keeps | with_reducible apply startNext_keeps | with_reducible apply Keeps.ite | split | exact h.of rfl rfl rfl rfl rfl rfl | rfl | exact Nat.le_refl _ | (simp; done)

theorem transmitStart_keeps {b m} {a0} (h : Keeps b m) : Keeps b (transmitStart a0 m) := by
  unfold transmitStart; try dsimp only
  repeat' first | intro _ | with_reducible assumption | with_reducible apply nextBoundary_keeps | with_reducible apply preempt_keeps | with_reducible apply Keeps.ite | split | exact h.of rfl rfl rfl rfl rfl rfl | rfl | exact Nat.le_refl _ | (simp; done)

theorem execMacTransmitStart_keeps {b s t} {a0} (h : Keeps b s.m) (e : execMacTransmitStart a0 s = .next t) : Keeps b t.m := by
  unfold execMacTransmitStart at e; refine runOn_keeps ?_ e; try dsimp only
  repeat' first | intro _ | with_reducible assumption | with_reducible apply transmitStart_keeps | with_reducible apply Keeps.ite | with_reducible apply id_keeps | split | exact h.of rfl rfl rfl rfl rfl rfl | rfl | exact Nat.le_refl _ | (simp; done)

theorem execLaunchHoldGuard_keeps {b s t} {a0} (h : Keeps b s.m) (e : execLaunchHoldGuard a0 s = .next t) : Keeps b t.m := by
  unfold execLaunchHoldGuard at e; refine runOn_keeps ?_ e; try dsimp only
  repeat' first | intro _ | with_reducible assumption | with_reducible apply advanceTo_keeps | with_reducible apply onPort_keeps | with_reducible apply preempt_keeps | with_reducible apply Keeps.ite | with_reducible apply id_keeps | split | exact h.of rfl rfl rfl rfl rfl rfl | rfl | exact Nat.le_refl _ | (simp; done)

theorem execLaunch_keeps {b s t} {a0} (h : Keeps b s.m) (e : execLaunch a0 s = .next t) : Keeps b t.m := by
  unfold execLaunch at e; refine runOn_keeps ?_ e; try dsimp only
  repeat' first | intro _ | with_reducible assumption | with_reducible apply advanceTo_keeps | with_reducible apply finishSending_keeps | with_reducible apply startNext_keeps | with_reducible apply Keeps.ite | with_reducible apply id_keeps | split | exact h.of rfl rfl rfl rfl rfl rfl | rfl | exact Nat.le_refl _ | (simp; done)

theorem execPauseResend_keeps {b s t} {a0} (h : Keeps b s.m) (e : execPauseResend a0 s = .next t) : Keeps b t.m := by
  unfold execPauseResend at e; refine runOn_keeps ?_ e; try dsimp only
  repeat' first | intro _ | with_reducible assumption | with_reducible apply advanceTo_keeps | with_reducible apply onPort_keeps | with_reducible apply Keeps.ite | with_reducible apply id_keeps | split | exact h.of rfl rfl rfl rfl rfl rfl | rfl | exact Nat.le_refl _ | (simp; done)

theorem execPreemptVerify_keeps {b s t} {a0 a1} (h : Keeps b s.m) (e : execPreemptVerify a0 a1 s = .next t) : Keeps b t.m := by
  unfold execPreemptVerify at e; refine runOn_keeps ?_ e; try dsimp only
  repeat' first | intro _ | with_reducible assumption | with_reducible apply onPort_keeps | with_reducible apply raise_keeps | with_reducible apply Keeps.ite | with_reducible apply id_keeps | split | exact h.of rfl rfl rfl rfl rfl rfl | rfl | exact Nat.le_refl _ | (simp; done)

theorem execLinkUp_keeps {b s t} {a0} (h : Keeps b s.m) (e : execLinkUp a0 s = .next t) : Keeps b t.m := by
  unfold execLinkUp at e; refine runOn_keeps ?_ e; try dsimp only
  repeat' first | intro _ | with_reducible assumption | with_reducible apply forEach_keeps | with_reducible apply onPort_keeps | with_reducible apply raise_keeps | with_reducible apply settleHead_keeps | with_reducible apply Keeps.ite | with_reducible apply id_keeps | split | exact h.of rfl rfl rfl rfl rfl rfl | rfl | exact Nat.le_refl _ | (simp; done)

theorem abandonSending_keeps {b m} {a0} (h : Keeps b m) : Keeps b (abandonSending a0 m) := by
  unfold abandonSending; try dsimp only
  repeat' first | intro _ | with_reducible assumption | with_reducible apply dropCopy_keeps | with_reducible apply macCount_keeps | with_reducible apply onPort_keeps | with_reducible apply queueCount_keeps | with_reducible apply raise_keeps | with_reducible apply releaseCopy_keeps | with_reducible apply Keeps.ite | split | exact h.of rfl rfl rfl rfl rfl rfl | rfl | exact Nat.le_refl _ | (simp; done)

theorem linkDown_keeps {b m} {a0} (h : Keeps b m) : Keeps b (linkDown a0 m) := by
  unfold linkDown; try dsimp only
  repeat' first | intro _ | with_reducible assumption | with_reducible apply abandonSending_keeps | with_reducible apply macCount_keeps | with_reducible apply onPort_keeps | with_reducible apply raise_keeps | with_reducible apply stomp_keeps | with_reducible apply when_keeps | with_reducible apply Keeps.ite | split | exact h.of rfl rfl rfl rfl rfl rfl | rfl | exact Nat.le_refl _ | (simp; done)

theorem execLinkDown_keeps {b s t} {a0} (h : Keeps b s.m) (e : execLinkDown a0 s = .next t) : Keeps b t.m := by
  unfold execLinkDown at e; refine runOn_keeps ?_ e; try dsimp only
  repeat' first | intro _ | with_reducible assumption | with_reducible apply linkDown_keeps | with_reducible apply Keeps.ite | with_reducible apply id_keeps | split | exact h.of rfl rfl rfl rfl rfl rfl | rfl | exact Nat.le_refl _ | (simp; done)

theorem applyPortSet_keeps {b m} {a0} (h : Keeps b m) : Keeps b (applyPortSet a0 m) := by
  unfold applyPortSet; try dsimp only
  repeat' first | intro _ | with_reducible assumption | with_reducible apply emptyQueue_keeps | with_reducible apply forEach_keeps | with_reducible apply onPort_keeps | with_reducible apply Keeps.ite | split | exact h.of rfl rfl rfl rfl rfl rfl | rfl | exact Nat.le_refl _ | (simp; done)

theorem applyRuleSet_keeps {b m} {a0} (h : Keeps b m) : Keeps b (applyRuleSet a0 m) := by
  unfold applyRuleSet; try dsimp only
  repeat' first | intro _ | with_reducible assumption | with_reducible apply onPort_keeps | with_reducible apply Keeps.ite | split | exact h.of rfl rfl rfl rfl rfl rfl | rfl | exact Nat.le_refl _ | (simp; done)

theorem execMacPortStatus_keeps {b s t} {a0 a1} (h : Keeps b s.m) (e : execMacPortStatus a0 a1 s = .next t) : Keeps b t.m := by
  unfold execMacPortStatus at e; refine runOn_keeps ?_ e; try dsimp only
  repeat' first | intro _ | with_reducible assumption | with_reducible apply onPort_keeps | with_reducible apply runRead_keeps | with_reducible apply when_keeps | with_reducible apply Keeps.ite | with_reducible apply id_keeps | split | exact h.of rfl rfl rfl rfl rfl rfl | rfl | exact Nat.le_refl _ | (simp; done)

theorem execMacRuleStatus_keeps {b s t} {a0 a1} (h : Keeps b s.m) (e : execMacRuleStatus a0 a1 s = .next t) : Keeps b t.m := by
  unfold execMacRuleStatus at e; refine runOn_keeps ?_ e; try dsimp only
  repeat' first | intro _ | with_reducible assumption | with_reducible apply runRead_keeps | with_reducible apply Keeps.ite | with_reducible apply id_keeps | split | exact h.of rfl rfl rfl rfl rfl rfl | rfl | exact Nat.le_refl _ | (simp; done)

end Sys2Proof.Machine
end

