-- ==== Sys2Proof/Laws/KeepsHdma.lean ====
section
/-! SUPPORT. What every operation and every command of Machine/Hdma keeps (Keeps, Laws/Keeps). -/
namespace Sys2Proof.Machine
set_option linter.all false
open Sys2Proof

theorem writeDesc_keeps {b m} {a0 a1 a2} (h : Keeps b m) : Keeps b (writeDesc a0 a1 a2 m) := by
  unfold writeDesc; try dsimp only
  repeat' first | intro _ | with_reducible assumption | with_reducible apply slcPut_keeps | with_reducible apply Keeps.ite | split | exact h.of rfl rfl rfl rfl rfl rfl | rfl | exact Nat.le_refl _ | (simp; done)

theorem completeDescs_keeps {b m} {a0 a1} (h : Keeps b m) : Keeps b (completeDescs a0 a1 m) := by
  unfold completeDescs; try dsimp only
  repeat' first | intro _ | with_reducible assumption | with_reducible apply onRing_keeps | with_reducible apply Keeps.ite | split | exact h.of rfl rfl rfl rfl rfl rfl | rfl | exact Nat.le_refl _ | (simp; done)

theorem descFault_keeps {b m} {a0 a1} (h : Keeps b m) : Keeps b (descFault a0 a1 m) := by
  unfold descFault; try dsimp only
  repeat' first | intro _ | with_reducible assumption | with_reducible apply raiseQuiet_keeps | with_reducible apply ringCount_keeps | with_reducible apply Keeps.ite | split | exact h.of rfl rfl rfl rfl rfl rfl | rfl | exact Nat.le_refl _ | (simp; done)

theorem writeBack_keeps {b m} {a0 a1 a2 a3 a4} (h : Keeps b m) : Keeps b (writeBack a0 a1 a2 a3 a4 m) := by
  unfold writeBack; try dsimp only
  repeat' first | intro _ | with_reducible assumption | with_reducible apply completeDescs_keeps | with_reducible apply forEach_keeps | with_reducible apply onRing_keeps | with_reducible apply writeDesc_keeps | with_reducible apply Keeps.ite | split | exact h.of rfl rfl rfl rfl rfl rfl | rfl | exact Nat.le_refl _ | (simp; done)

theorem takeCopy_keeps {b m} {a0 a1} (h : Keeps b m) : Keeps b (takeCopy a0 a1 m) := by
  unfold takeCopy; try dsimp only
  repeat' first | intro _ | with_reducible assumption | with_reducible apply releaseCopy_keeps | with_reducible apply unqueue_keeps | with_reducible apply Keeps.ite | split | exact h.of rfl rfl rfl rfl rfl rfl | rfl | exact Nat.le_refl _ | (simp; done)

theorem breakDelivery_keeps {b m} {a0 a1 a2} (h : Keeps b m) : Keeps b (breakDelivery a0 a1 a2 m) := by
  unfold breakDelivery; try dsimp only
  repeat' first | intro _ | with_reducible assumption | with_reducible apply onRing_keeps | with_reducible apply takeCopy_keeps | with_reducible apply writeBack_keeps | with_reducible apply Keeps.ite | split | exact h.of rfl rfl rfl rfl rfl rfl | rfl | exact Nat.le_refl _ | (simp; done)

theorem dropStarved_keeps {b m} {a0 a1} (h : Keeps b m) : Keeps b (dropStarved a0 a1 m) := by
  unfold dropStarved; try dsimp only
  repeat' first | intro _ | with_reducible assumption | with_reducible apply onRing_keeps | with_reducible apply takeCopy_keeps | with_reducible apply Keeps.ite | split | exact h.of rfl rfl rfl rfl rfl rfl | rfl | exact Nat.le_refl _ | (simp; done)

theorem endHold_keeps {b m} {a0} (h : Keeps b m) : Keeps b (endHold a0 m) := by
  unfold endHold; try dsimp only
  repeat' first | intro _ | with_reducible assumption | with_reducible apply breakDelivery_keeps | with_reducible apply dropStarved_keeps | with_reducible apply forEach_keeps | with_reducible apply onRing_keeps | with_reducible apply raise_keeps | with_reducible apply Keeps.ite | split | exact h.of rfl rfl rfl rfl rfl rfl | rfl | exact Nat.le_refl _ | (simp; done)

theorem settleHold_keeps {b m} {a0} (h : Keeps b m) : Keeps b (settleHold a0 m) := by
  unfold settleHold; try dsimp only
  repeat' first | intro _ | with_reducible assumption | with_reducible apply endHold_keeps | with_reducible apply Keeps.ite | split | exact h.of rfl rfl rfl rfl rfl rfl | rfl | exact Nat.le_refl _ | (simp; done)

theorem doorbell_keeps {b m} {a0 a1 a2} (h : Keeps b m) : Keeps b (doorbell a0 a1 a2 m) := by
  unfold doorbell; try dsimp only
  repeat' first | intro _ | with_reducible assumption | with_reducible apply onRing_keeps | with_reducible apply raise_keeps | with_reducible apply raiseQuiet_keeps | with_reducible apply ringCount_keeps | with_reducible apply settleHold_keeps | with_reducible apply Keeps.ite | split | exact h.of rfl rfl rfl rfl rfl rfl | rfl | exact Nat.le_refl _ | (simp; done)

theorem execRdbTail_keeps {b s t} {a0 a1 a2} (h : Keeps b s.m) (e : execRdbTail a0 a1 a2 s = .next t) : Keeps b t.m := by
  unfold execRdbTail at e; refine runOn_keeps ?_ e; try dsimp only
  repeat' first | intro _ | with_reducible assumption | with_reducible apply doorbell_keeps | with_reducible apply Keeps.ite | with_reducible apply id_keeps | split | exact h.of rfl rfl rfl rfl rfl rfl | rfl | exact Nat.le_refl _ | (simp; done)

theorem execRdbHeadRead_keeps {b s t} {a0 a1} (h : Keeps b s.m) (e : execRdbHeadRead a0 a1 s = .next t) : Keeps b t.m := by
  unfold execRdbHeadRead at e; refine runOn_keeps ?_ e; try dsimp only
  repeat' first | intro _ | with_reducible assumption | with_reducible apply coreReads_keeps | with_reducible apply onRing_keeps | with_reducible apply Keeps.ite | with_reducible apply id_keeps | split | exact h.of rfl rfl rfl rfl rfl rfl | rfl | exact Nat.le_refl _ | (simp; done)

theorem fillBuffers_keeps {b m} {a0 a1 a2 a3 a4 a5} (h : Keeps b m) : ∀ r, fillBuffers a0 a1 a2 a3 a4 a5 m = r → match r with
    | .whole _ n => Keeps b n
    | .short _ _ n => Keeps b n := by
  induction a3 generalizing m a4 a5 with
  | zero => intro r e; subst e; exact h
  | succ n ih =>
    intro r e
    unfold fillBuffers at e; dsimp only at e
    split at e
    · subst e; exact h
    · split at e
      · subst e; exact h
      · split at e
        · refine ih ?_ r e
          split
          · exact onRing_keeps (completeDescs_keeps (descFault_keeps (writeDesc_keeps (onRing_keeps h))))
          · exact completeDescs_keeps (descFault_keeps (writeDesc_keeps (onRing_keeps h)))
        · exact ih (slcPut_keeps (onRing_keeps h)) r e

theorem deliverFrame_keeps {b m} {a0 a1 a2 a3} (h : Keeps b m) : Keeps b (deliverFrame a0 a1 a2 a3 m) := by
  unfold deliverFrame; dsimp only
  split
  · rename_i u n e
    have hn : Keeps b n := fillBuffers_keeps h _ e
    exact queueCount_keeps (takeCopy_keeps (onRing_keeps (writeBack_keeps hn)))
  · rename_i u n e
    have hn : Keeps b n := fillBuffers_keeps h _ e
    exact onRing_keeps hn

theorem sinkDelivery_keeps {b m} {a0} (h : Keeps b m) : Keeps b (sinkDelivery a0 m) := by
  unfold sinkDelivery; try dsimp only
  repeat' first | intro _ | with_reducible assumption | with_reducible apply onRing_keeps | with_reducible apply queueCount_keeps | with_reducible apply takeCopy_keeps | with_reducible apply Keeps.ite | split | exact h.of rfl rfl rfl rfl rfl rfl | rfl | exact Nat.le_refl _ | (simp; done)

theorem ringDeliver_keeps {b m} {a0} (h : Keeps b m) : Keeps b (ringDeliver a0 m) := by
  unfold ringDeliver; try dsimp only
  repeat' first | intro _ | with_reducible assumption | with_reducible apply deliverFrame_keeps | with_reducible apply dropStarved_keeps | with_reducible apply onRing_keeps | with_reducible apply settleHold_keeps | with_reducible apply sinkDelivery_keeps | with_reducible apply Keeps.ite | split | exact h.of rfl rfl rfl rfl rfl rfl | rfl | exact Nat.le_refl _ | (simp; done)

theorem execRingReceiveDelivery_keeps {b s t} {a0} (h : Keeps b s.m) (e : execRingReceiveDelivery a0 s = .next t) : Keeps b t.m := by
  unfold execRingReceiveDelivery at e; refine runOn_keeps ?_ e; try dsimp only
  repeat' first | intro _ | with_reducible assumption | with_reducible apply ringDeliver_keeps | with_reducible apply Keeps.ite | with_reducible apply id_keeps | split | exact h.of rfl rfl rfl rfl rfl rfl | rfl | exact Nat.le_refl _ | (simp; done)

theorem execRingHoldExpire_keeps {b s t} {a0} (h : Keeps b s.m) (e : execRingHoldExpire a0 s = .next t) : Keeps b t.m := by
  unfold execRingHoldExpire at e; refine runOn_keeps ?_ e; try dsimp only
  repeat' first | intro _ | with_reducible assumption | with_reducible apply advanceTo_keeps | with_reducible apply endHold_keeps | with_reducible apply Keeps.ite | with_reducible apply id_keeps | split | exact h.of rfl rfl rfl rfl rfl rfl | rfl | exact Nat.le_refl _ | (simp; done)

theorem finishTx_keeps {b m} {a0 a1 a2 a3 a4 a5} (h : Keeps b m) : Keeps b (finishTx a0 a1 a2 a3 a4 a5 m) := by
  unfold finishTx; try dsimp only
  repeat' first | intro _ | with_reducible assumption | with_reducible apply completeDescs_keeps | with_reducible apply forEach_keeps | with_reducible apply onRing_keeps | with_reducible apply writeDesc_keeps | with_reducible apply Keeps.ite | split | exact h.of rfl rfl rfl rfl rfl rfl | rfl | exact Nat.le_refl _ | (simp; done)

theorem execRingTransmitRead_keeps {b s t} {a0} (h : Keeps b s.m) (e : execRingTransmitRead a0 s = .next t) : Keeps b t.m := by
  unfold execRingTransmitRead at e; refine runOn_keeps ?_ e; try dsimp only
  repeat' first | intro _ | with_reducible assumption | with_reducible apply descFault_keeps | with_reducible apply finishTx_keeps | with_reducible apply onNet_keeps | with_reducible apply onRing_keeps | with_reducible apply sendInner_keeps | with_reducible apply Keeps.ite | with_reducible apply id_keeps | split | exact h.of rfl rfl rfl rfl rfl rfl | rfl | exact Nat.le_refl _ | (simp; done)

theorem execRingTransmitComplete_keeps {b s t} {a0} (h : Keeps b s.m) (e : execRingTransmitComplete a0 s = .next t) : Keeps b t.m := by
  unfold execRingTransmitComplete at e; refine runOn_keeps ?_ e; try dsimp only
  repeat' first | intro _ | with_reducible assumption | with_reducible apply finishTx_keeps | with_reducible apply onNet_keeps | with_reducible apply onRing_keeps | with_reducible apply Keeps.ite | with_reducible apply id_keeps | split | exact h.of rfl rfl rfl rfl rfl rfl | rfl | exact Nat.le_refl _ | (simp; done)

theorem reportRing_keeps {b m} {a0} (h : Keeps b m) : Keeps b (reportRing a0 m) := by
  unfold reportRing; try dsimp only
  repeat' first | intro _ | with_reducible assumption | with_reducible apply onRing_keeps | with_reducible apply postItem_keeps | with_reducible apply ringCount_keeps | with_reducible apply Keeps.ite | split | exact h.of rfl rfl rfl rfl rfl rfl | rfl | exact Nat.le_refl _ | (simp; done)

theorem execRingCompletionPost_keeps {b s t} {a0} (h : Keeps b s.m) (e : execRingCompletionPost a0 s = .next t) : Keeps b t.m := by
  unfold execRingCompletionPost at e; refine runOn_keeps ?_ e; try dsimp only
  repeat' first | intro _ | with_reducible assumption | with_reducible apply reportRing_keeps | with_reducible apply Keeps.ite | with_reducible apply id_keeps | split | exact h.of rfl rfl rfl rfl rfl rfl | rfl | exact Nat.le_refl _ | (simp; done)

theorem settleDelivery_keeps {b m} {a0} (h : Keeps b m) : Keeps b (settleDelivery a0 m) := by
  unfold settleDelivery; try dsimp only
  repeat' first | intro _ | with_reducible assumption | with_reducible apply breakDelivery_keeps | with_reducible apply deliverFrame_keeps | with_reducible apply onRing_keeps | with_reducible apply sinkDelivery_keeps | with_reducible apply Keeps.ite | split | exact h.of rfl rfl rfl rfl rfl rfl | rfl | exact Nat.le_refl _ | (simp; done)

theorem disableRing_keeps {b m} {a0} (h : Keeps b m) : Keeps b (disableRing a0 m) := by
  unfold disableRing; try dsimp only
  repeat' first | intro _ | with_reducible assumption | with_reducible apply emptyQueue_keeps | with_reducible apply onRing_keeps | with_reducible apply settleDelivery_keeps | with_reducible apply Keeps.ite | split | exact h.of rfl rfl rfl rfl rfl rfl | rfl | exact Nat.le_refl _ | (simp; done)

theorem releaseRing_keeps {b m} {a0} (h : Keeps b m) : Keeps b (releaseRing a0 m) := by
  unfold releaseRing; try dsimp only
  repeat' first | intro _ | with_reducible assumption | with_reducible apply disableRing_keeps | with_reducible apply onRing_keeps | with_reducible apply Keeps.ite | split | exact h.of rfl rfl rfl rfl rfl rfl | rfl | exact Nat.le_refl _ | (simp; done)

theorem assignRing_keeps {b m} {a0 a1 a2} (h : Keeps b m) : Keeps b (assignRing a0 a1 a2 m) := by
  unfold assignRing; try dsimp only
  repeat' first | intro _ | with_reducible assumption | with_reducible apply onRing_keeps | with_reducible apply Keeps.ite | split | exact h.of rfl rfl rfl rfl rfl rfl | rfl | exact Nat.le_refl _ | (simp; done)

theorem resetRings_keeps {b m} {a0} (h : Keeps b m) : Keeps b (resetRings a0 m) := by
  unfold resetRings; try dsimp only
  repeat' first | intro _ | with_reducible assumption | with_reducible apply forEach_keeps | with_reducible apply onRing_keeps | with_reducible apply sinkDelivery_keeps | with_reducible apply Keeps.ite | split | exact h.of rfl rfl rfl rfl rfl rfl | rfl | exact Nat.le_refl _ | (simp; done)

theorem discardAtReset_keeps {b m} {a0} (h : Keeps b m) : Keeps b (discardAtReset a0 m).2 := by
  unfold discardAtReset; try dsimp only
  repeat' first | intro _ | with_reducible assumption | with_reducible apply blockCount_keeps | with_reducible apply forEach_keeps | with_reducible apply onNet_keeps | with_reducible apply onRing_keeps | with_reducible apply onSlice_keeps | with_reducible apply pubCount_keeps | with_reducible apply removeQueued_keeps | with_reducible apply Keeps.ite | split | exact h.of rfl rfl rfl rfl rfl rfl | rfl | exact Nat.le_refl _ | (simp; done)

theorem applyRingSet_keeps {b m} {a0} (h : Keeps b m) : Keeps b (applyRingSet a0 m) := by
  unfold applyRingSet; try dsimp only
  repeat' first | intro _ | with_reducible assumption | with_reducible apply assignRing_keeps | with_reducible apply disableRing_keeps | with_reducible apply onRing_keeps | with_reducible apply Keeps.ite | split | exact h.of rfl rfl rfl rfl rfl rfl | rfl | exact Nat.le_refl _ | (simp; done)

theorem applyRingsetSet_keeps {b m} {a0} (h : Keeps b m) : Keeps b (applyRingsetSet a0 m) := by
  unfold applyRingsetSet; try dsimp only
  repeat' first | intro _ | with_reducible assumption | with_reducible apply onNet_keeps | with_reducible apply Keeps.ite | split | exact h.of rfl rfl rfl rfl rfl rfl | rfl | exact Nat.le_refl _ | (simp; done)

theorem execHdmaRingStatus_keeps {b s t} {a0 a1} (h : Keeps b s.m) (e : execHdmaRingStatus a0 a1 s = .next t) : Keeps b t.m := by
  unfold execHdmaRingStatus at e; refine runOn_keeps ?_ e; try dsimp only
  repeat' first | intro _ | with_reducible assumption | with_reducible apply onRing_keeps | with_reducible apply runRead_keeps | with_reducible apply when_keeps | with_reducible apply Keeps.ite | with_reducible apply id_keeps | split | exact h.of rfl rfl rfl rfl rfl rfl | rfl | exact Nat.le_refl _ | (simp; done)

end Sys2Proof.Machine
end

