-- ==== Sys2Proof/Laws/KeepsSvi.lean ====
section
/-! SUPPORT. What every operation and every command of Machine/Svi keeps (Keeps, Laws/Keeps). -/
namespace Sys2Proof.Machine
set_option linter.all false
open Sys2Proof

theorem withViews_keeps {b m} {a0 a1} (h : Keeps b m) (ha1 : ∀ x0, Keeps b x0 → Keeps b (a1 x0)) : Keeps b (withViews a0 a1 m) :=
  let x : Mach := { m with svi := { m.svi with
    subs := tmap m.svi.subs fun _ s => viewAt s a0
    chans := ((m.svi.chanWas.filter (a0 < ·.1)).map (·.2.1)).foldl (fun a c => tset a c (chanAt m c a0)) m.svi.chans } }
  have hx : Keeps b x := h.of rfl rfl rfl rfl rfl rfl
  Keeps.of (ha1 x hx) rfl rfl rfl rfl rfl rfl

theorem onSub_keeps {b m} {a0 a1} (h : Keeps b m) : Keeps b (onSub a0 a1 m) := by
  unfold onSub; try dsimp only
  repeat' first | intro _ | with_reducible assumption | with_reducible apply onSvi_keeps | with_reducible apply Keeps.ite | split | exact h.of rfl rfl rfl rfl rfl rfl | rfl | exact Nat.le_refl _ | (simp; done)

theorem subCount_keeps {b m} {a0 a1 a2} (h : Keeps b m) : Keeps b (subCount a0 a1 a2 m) := by
  unfold subCount; try dsimp only
  repeat' first | intro _ | with_reducible assumption | with_reducible apply onSub_keeps | with_reducible apply Keeps.ite | split | exact h.of rfl rfl rfl rfl rfl rfl | rfl | exact Nat.le_refl _ | (simp; done)

theorem inTimeOf_keeps {b m} {a0 a1 a2} (h : Keeps b m) (ha2 : ∀ x0, Keeps b x0 → Keeps b (a2 x0)) : Keeps b (inTimeOf a0 a1 a2 m) := by
  unfold inTimeOf; try dsimp only
  repeat' first | intro _ | with_reducible assumption | apply ha2 | with_reducible apply onSub_keeps | with_reducible apply Keeps.ite | split | exact h.of rfl rfl rfl rfl rfl rfl | rfl | exact Nat.le_refl _ | (simp; done)

theorem portCount_keeps {b m} {a0 a1} (h : Keeps b m) : Keeps b (portCount a0 a1 m) := by
  unfold portCount; try dsimp only
  repeat' first | intro _ | with_reducible assumption | with_reducible apply onSvi_keeps | with_reducible apply Keeps.ite | split | exact h.of rfl rfl rfl rfl rfl rfl | rfl | exact Nat.le_refl _ | (simp; done)

theorem acceptAsdu_keeps {b m} {a0 a1 a2 a3 a4 a5 a6} (h : Keeps b m) : Keeps b (acceptAsdu a0 a1 a2 a3 a4 a5 a6 m) := by
  unfold acceptAsdu; try dsimp only
  repeat' first | intro _ | with_reducible assumption | with_reducible apply onSub_keeps | with_reducible apply raise_keeps | with_reducible apply Keeps.ite | split | exact h.of rfl rfl rfl rfl rfl rfl | rfl | exact Nat.le_refl _ | (simp; done)

theorem takeSample_keeps {b m} {a0 a1 a2 a3 a4 a5} (h : Keeps b m) : Keeps b (takeSample a0 a1 a2 a3 a4 a5 m) := by
  unfold takeSample; try dsimp only
  repeat' first | intro _ | with_reducible assumption | with_reducible apply acceptAsdu_keeps | with_reducible apply onSub_keeps | with_reducible apply subCount_keeps | with_reducible apply Keeps.ite | split | exact h.of rfl rfl rfl rfl rfl rfl | rfl | exact Nat.le_refl _ | (simp; done)

theorem takeAsdu_keeps {b m} {a0 a1 a2 a3 a4 a5} (h : Keeps b m) : Keeps b (takeAsdu a0 a1 a2 a3 a4 a5 m) := by
  unfold takeAsdu; try dsimp only
  repeat' first | intro _ | with_reducible assumption | with_reducible apply inTimeOf_keeps | with_reducible apply takeSample_keeps | with_reducible apply Keeps.ite | split | exact h.of rfl rfl rfl rfl rfl rfl | rfl | exact Nat.le_refl _ | (simp; done)

theorem setAuthFail_keeps {b m} {a0 a1} (h : Keeps b m) : Keeps b (setAuthFail a0 a1 m) := by
  unfold setAuthFail; try dsimp only
  repeat' first | intro _ | with_reducible assumption | with_reducible apply onSub_keeps | with_reducible apply raise_keeps | with_reducible apply Keeps.ite | split | exact h.of rfl rfl rfl rfl rfl rfl | rfl | exact Nat.le_refl _ | (simp; done)

theorem takeFrame_keeps {b m} {a0 a1 a2 a3 a4 a5} (h : Keeps b m) : Keeps b (takeFrame a0 a1 a2 a3 a4 a5 m) := by
  unfold takeFrame; try dsimp only
  repeat' first | intro _ | with_reducible assumption | with_reducible apply forEach_keeps | with_reducible apply onSub_keeps | with_reducible apply raise_keeps | with_reducible apply subCount_keeps | with_reducible apply takeAsdu_keeps | with_reducible apply Keeps.ite | split | exact h.of rfl rfl rfl rfl rfl rfl | rfl | exact Nat.le_refl _ | (simp; done)

theorem checkFrame_keeps {b m} {a0 a1 a2 a3 a4} (h : Keeps b m) : Keeps b (checkFrame a0 a1 a2 a3 a4 m) := by
  unfold checkFrame; try dsimp only
  repeat' first | intro _ | with_reducible assumption | with_reducible apply onSub_keeps | with_reducible apply setAuthFail_keeps | with_reducible apply subCount_keeps | with_reducible apply takeFrame_keeps | with_reducible apply Keeps.ite | split | exact h.of rfl rfl rfl rfl rfl rfl | rfl | exact Nat.le_refl _ | (simp; done)

theorem ingestFrame_keeps {b m} {a0} (h : Keeps b m) : Keeps b (ingestFrame a0 m) := by
  unfold ingestFrame; try dsimp only
  repeat' first | intro _ | with_reducible assumption | with_reducible apply checkFrame_keeps | with_reducible apply inTimeOf_keeps | with_reducible apply portCount_keeps | with_reducible apply subCount_keeps | with_reducible apply Keeps.ite | split | exact h.of rfl rfl rfl rfl rfl rfl | rfl | exact Nat.le_refl _ | (simp; done)

theorem ingest_keeps {b m} {a0} (h : Keeps b m) : Keeps b (ingest a0 m) := by
  unfold ingest; try dsimp only
  repeat' first | intro _ | with_reducible assumption | with_reducible apply ingestFrame_keeps | with_reducible apply onSvi_keeps | with_reducible apply Keeps.ite | split | exact h.of rfl rfl rfl rfl rfl rfl | rfl | exact Nat.le_refl _ | (simp; done)

theorem ingestAll_keeps {b m} (h : Keeps b m) : Keeps b (ingestAll m) := by
  unfold ingestAll; try dsimp only
  repeat' first | intro _ | with_reducible assumption | with_reducible apply forEach_keeps | with_reducible apply ingest_keeps | with_reducible apply onSvi_keeps | with_reducible apply Keeps.ite | split | exact h.of rfl rfl rfl rfl rfl rfl | rfl | exact Nat.le_refl _ | (simp; done)

theorem execSvFrameIngest_keeps {b s t} (h : Keeps b s.m) (e : execSvFrameIngest s = .next t) : Keeps b t.m := by
  unfold execSvFrameIngest at e; refine runOn_keeps ?_ e; try dsimp only
  repeat' first | intro _ | with_reducible assumption | with_reducible apply ingest_keeps | with_reducible apply onSvi_keeps | with_reducible apply Keeps.ite | with_reducible apply id_keeps | split | exact h.of rfl rfl rfl rfl rfl rfl | rfl | exact Nat.le_refl _ | (simp; done)

theorem countSubst_keeps {b m} {a0 a1} (h : Keeps b m) : Keeps b (countSubst a0 a1 m) := by
  unfold countSubst; try dsimp only
  repeat' first | intro _ | with_reducible assumption | with_reducible apply onSub_keeps | with_reducible apply raise_keeps | with_reducible apply subCount_keeps | with_reducible apply Keeps.ite | split | exact h.of rfl rfl rfl rfl rfl rfl | rfl | exact Nat.le_refl _ | (simp; done)

theorem passPositions_keeps {b m} {a0 a1 a2} (h : Keeps b m) : Keeps b (passPositions a0 a1 a2 m) := by
  induction a2 generalizing m with
  | zero => exact h
  | succ n ih =>
    unfold passPositions; dsimp only
    repeat' first | with_reducible assumption | with_reducible apply ih | with_reducible apply onSub_keeps | with_reducible apply countSubst_keeps | split

theorem ingestDeadline_keeps {b m} {a0} (h : Keeps b m) : Keeps b (ingestDeadline a0 m) := by
  unfold ingestDeadline
  refine forEach_keeps (onSvi_keeps h) fun a x hx => ?_
  have pass : ∀ y, Keeps b y → Keeps b (if (subLive a.2 a0.t && (viewAt a.2 a0.t).run.ref.isSome && !(viewAt a.2 a0.t).run.fresh) = true
      then passPositions a0 a.1 8192 y else y) := fun y hy => .ite (passPositions_keeps hy) hy
  dsimp only
  split
  · exact inTimeOf_keeps hx pass
  · exact pass _ hx

theorem ingestStep_keeps {b m} {a0} (h : Keeps b m) : Keeps b (ingestStep a0 m) := by
  unfold ingestStep; try dsimp only
  repeat' first | intro _ | with_reducible assumption | with_reducible apply onSvi_keeps | with_reducible apply Keeps.ite | split | exact h.of rfl rfl rfl rfl rfl rfl | rfl | exact Nat.le_refl _ | (simp; done)

theorem applySubEntry_keeps {b m} {a0} (h : Keeps b m) : Keeps b (applySubEntry a0 m) := by
  unfold applySubEntry; try dsimp only
  repeat' first | intro _ | with_reducible assumption | with_reducible apply onSvi_keeps | with_reducible apply raise_keeps | with_reducible apply Keeps.ite | split | exact h.of rfl rfl rfl rfl rfl rfl | rfl | exact Nat.le_refl _ | (simp; done)

theorem applyChanSet_keeps {b m} {a0} (h : Keeps b m) : Keeps b (applyChanSet a0 m) := by
  unfold applyChanSet; try dsimp only
  repeat' first | intro _ | with_reducible assumption | with_reducible apply onSvi_keeps | with_reducible apply Keeps.ite | split | exact h.of rfl rfl rfl rfl rfl rfl | rfl | exact Nat.le_refl _ | (simp; done)

theorem execSviSubStatus_keeps {b s t} {a0 a1} (h : Keeps b s.m) (e : execSviSubStatus a0 a1 s = .next t) : Keeps b t.m := by
  unfold execSviSubStatus at e; refine runOn_keeps ?_ e; try dsimp only
  repeat' first | intro _ | with_reducible assumption | with_reducible apply onSub_keeps | with_reducible apply onSvi_keeps | with_reducible apply runRead_keeps | with_reducible apply when_keeps | with_reducible apply Keeps.ite | with_reducible apply id_keeps | split | exact h.of rfl rfl rfl rfl rfl rfl | rfl | exact Nat.le_refl _ | (simp; done)

end Sys2Proof.Machine
end

