-- ==== Sys2Proof/Laws/KeepsRsc.lean ====
section
/-! SUPPORT. What every operation and every command of Machine/Rsc keeps (Keeps, Laws/Keeps). -/
namespace Sys2Proof.Machine
set_option linter.all false
open Sys2Proof

theorem onGroup_keeps {b m} {a0 a1} (h : Keeps b m) : Keeps b (onGroup a0 a1 m) := by
  unfold onGroup; try dsimp only
  repeat' first | intro _ | with_reducible assumption | with_reducible apply onFlt_keeps | with_reducible apply Keeps.ite | split | exact h.of rfl rfl rfl rfl rfl rfl | rfl | exact Nat.le_refl _ | (simp; done)

theorem rscCount_keeps {b m} {a0 a1 a2} (h : Keeps b m) : Keeps b (rscCount a0 a1 a2 m) := by
  unfold rscCount; try dsimp only
  repeat' first | intro _ | with_reducible assumption | with_reducible apply onGroup_keeps | with_reducible apply Keeps.ite | split | exact h.of rfl rfl rfl rfl rfl rfl | rfl | exact Nat.le_refl _ | (simp; done)

theorem applyGroupSet_keeps {b m} {a0 a1} (h : Keeps b m) : Keeps b (applyGroupSet a0 a1 m) := by
  unfold applyGroupSet; try dsimp only
  repeat' first | intro _ | with_reducible assumption | with_reducible apply onGroup_keeps | with_reducible apply Keeps.ite | split | exact h.of rfl rfl rfl rfl rfl rfl | rfl | exact Nat.le_refl _ | (simp; done)

theorem applyBankLoad_keeps {b m} {a0} (h : Keeps b m) : Keeps b (applyBankLoad a0 m) := by
  unfold applyBankLoad; try dsimp only
  repeat' first | intro _ | with_reducible assumption | with_reducible apply onGroup_keeps | with_reducible apply Keeps.ite | split | exact h.of rfl rfl rfl rfl rfl rfl | rfl | exact Nat.le_refl _ | (simp; done)

theorem applySwap_keeps {b m} {a0 a1} (h : Keeps b m) : Keeps b (applySwap a0 a1 m) := by
  unfold applySwap; try dsimp only
  repeat' first | intro _ | with_reducible assumption | with_reducible apply onGroup_keeps | with_reducible apply Keeps.ite | split | exact h.of rfl rfl rfl rfl rfl rfl | rfl | exact Nat.le_refl _ | (simp; done)

theorem beginSwap_keeps {b m} {a0 a1} (h : Keeps b m) : Keeps b (beginSwap a0 a1 m) := by
  unfold beginSwap; try dsimp only
  repeat' first | intro _ | with_reducible assumption | with_reducible apply onGroup_keeps | with_reducible apply raise_keeps | with_reducible apply Keeps.ite | split | exact h.of rfl rfl rfl rfl rfl rfl | rfl | exact Nat.le_refl _ | (simp; done)

theorem holdSwap_keeps {b m} {a0 a1} (h : Keeps b m) : Keeps b (holdSwap a0 a1 m) := by
  unfold holdSwap; try dsimp only
  repeat' first | intro _ | with_reducible assumption | with_reducible apply onGroup_keeps | with_reducible apply raise_keeps | with_reducible apply rscCount_keeps | with_reducible apply Keeps.ite | split | exact h.of rfl rfl rfl rfl rfl rfl | rfl | exact Nat.le_refl _ | (simp; done)

theorem resolveSwaps_keeps {b m} {a0 a1} (h : Keeps b m) : Keeps b (resolveSwaps a0 a1 m) := by
  unfold resolveSwaps; try dsimp only
  repeat' first | intro _ | with_reducible assumption | with_reducible apply beginSwap_keeps | with_reducible apply forEach_keeps | with_reducible apply holdSwap_keeps | with_reducible apply onGroup_keeps | with_reducible apply raise_keeps | with_reducible apply rscCount_keeps | with_reducible apply Keeps.ite | split | exact h.of rfl rfl rfl rfl rfl rfl | rfl | exact Nat.le_refl _ | (simp; done)

theorem selectAtRate_keeps {b m} {a0 a1 a2 a3} (h : Keeps b m) : Keeps b (selectAtRate a0 a1 a2 a3 m) := by
  unfold selectAtRate; try dsimp only
  repeat' first | intro _ | with_reducible assumption | with_reducible apply onGroup_keeps | with_reducible apply raise_keeps | with_reducible apply Keeps.ite | split | exact h.of rfl rfl rfl rfl rfl rfl | rfl | exact Nat.le_refl _ | (simp; done)

theorem showBank_keeps {b m} {a0} (h : Keeps b m) : Keeps b (showBank a0 m) := by
  unfold showBank; try dsimp only
  repeat' first | intro _ | with_reducible assumption | with_reducible apply onGroup_keeps | with_reducible apply Keeps.ite | split | exact h.of rfl rfl rfl rfl rfl rfl | rfl | exact Nat.le_refl _ | (simp; done)

theorem advanceSwap_keeps {b m} {a0} (h : Keeps b m) : Keeps b (advanceSwap a0 m) := by
  unfold advanceSwap; try dsimp only
  repeat' first | intro _ | with_reducible assumption | with_reducible apply onGroup_keeps | with_reducible apply raise_keeps | with_reducible apply rscCount_keeps | with_reducible apply Keeps.ite | split | exact h.of rfl rfl rfl rfl rfl rfl | rfl | exact Nat.le_refl _ | (simp; done)

theorem limitingOver_keeps {b m} {a0 a1} (h : Keeps b m) : Keeps b (limitingOver a0 a1 m) := by
  unfold limitingOver; try dsimp only
  repeat' first | intro _ | with_reducible assumption | with_reducible apply onGroup_keeps | with_reducible apply raise_keeps | with_reducible apply Keeps.ite | split | exact h.of rfl rfl rfl rfl rfl rfl | rfl | exact Nat.le_refl _ | (simp; done)

theorem countOuts_keeps {b m} {a0 a1 a2} (h : Keeps b m) : Keeps b (countOuts a0 a1 a2 m) := by
  unfold countOuts; try dsimp only
  repeat' first | intro _ | with_reducible assumption | with_reducible apply forEach_keeps | with_reducible apply limitingOver_keeps | with_reducible apply onGroup_keeps | with_reducible apply raise_keeps | with_reducible apply rscCount_keeps | with_reducible apply Keeps.ite | split | exact h.of rfl rfl rfl rfl rfl rfl | rfl | exact Nat.le_refl _ | (simp; done)

theorem execRscGroupStatus_keeps {b s t} {a0 a1} (h : Keeps b s.m) (e : execRscGroupStatus a0 a1 s = .next t) : Keeps b t.m := by
  unfold execRscGroupStatus at e; refine runOn_keeps ?_ e; try dsimp only
  repeat' first | intro _ | with_reducible assumption | with_reducible apply onGroup_keeps | with_reducible apply runRead_keeps | with_reducible apply when_keeps | with_reducible apply Keeps.ite | with_reducible apply id_keeps | split | exact h.of rfl rfl rfl rfl rfl rfl | rfl | exact Nat.le_refl _ | (simp; done)

end Sys2Proof.Machine
end

