-- ==== Sys2Proof/Laws/KeepsEst.lean ====
section
/-! SUPPORT. What every operation and every command of Machine/Est keeps (Keeps, Laws/Keeps). -/
namespace Sys2Proof.Machine
set_option linter.all false
open Sys2Proof

theorem onChan_keeps {b m} {a0 a1} (h : Keeps b m) : Keeps b (onChan a0 a1 m) := by
  unfold onChan; try dsimp only
  repeat' first | intro _ | with_reducible assumption | with_reducible apply onFlt_keeps | with_reducible apply Keeps.ite | split | exact h.of rfl rfl rfl rfl rfl rfl | rfl | exact Nat.le_refl _ | (simp; done)

theorem estCount_keeps {b m} {a0 a1} (h : Keeps b m) : Keeps b (estCount a0 a1 m) := by
  unfold estCount; try dsimp only
  repeat' first | intro _ | with_reducible assumption | with_reducible apply onGroup_keeps | with_reducible apply Keeps.ite | split | exact h.of rfl rfl rfl rfl rfl rfl | rfl | exact Nat.le_refl _ | (simp; done)

theorem endFreeze_keeps {b m} {a0 a1} (h : Keeps b m) : Keeps b (endFreeze a0 a1 m) := by
  unfold endFreeze; try dsimp only
  repeat' first | intro _ | with_reducible assumption | with_reducible apply onChan_keeps | with_reducible apply raise_keeps | with_reducible apply Keeps.ite | split | exact h.of rfl rfl rfl rfl rfl rfl | rfl | exact Nat.le_refl _ | (simp; done)

theorem freezeStep_keeps {b m} {a0 a1 a2} (h : Keeps b m) : Keeps b (freezeStep a0 a1 a2 m) := by
  unfold freezeStep; try dsimp only
  repeat' first | intro _ | with_reducible assumption | with_reducible apply endFreeze_keeps | with_reducible apply estCount_keeps | with_reducible apply onChan_keeps | with_reducible apply raise_keeps | with_reducible apply Keeps.ite | split | exact h.of rfl rfl rfl rfl rfl rfl | rfl | exact Nat.le_refl _ | (simp; done)

theorem trigger_keeps {b m} {a0 a1 a2} (h : Keeps b m) : Keeps b (trigger a0 a1 a2 m) := by
  unfold trigger; try dsimp only
  repeat' first | intro _ | with_reducible assumption | with_reducible apply forEach_keeps | with_reducible apply onChan_keeps | with_reducible apply Keeps.ite | split | exact h.of rfl rfl rfl rfl rfl rfl | rfl | exact Nat.le_refl _ | (simp; done)

theorem transition_keeps {b m} {a0 a1 a2 a3 a4 a5 a6 a7} (h : Keeps b m) : Keeps b (transition a0 a1 a2 a3 a4 a5 a6 a7 m) := by
  unfold transition; try dsimp only
  repeat' first | intro _ | with_reducible assumption | with_reducible apply estCount_keeps | with_reducible apply onChan_keeps | with_reducible apply putPoint_keeps | with_reducible apply raise_keeps | with_reducible apply Keeps.ite | split | exact h.of rfl rfl rfl rfl rfl rfl | rfl | exact Nat.le_refl _ | (simp; done)

theorem compStep_keeps {b m} {a0 a1 a2 a3 a4 a5 a6 a7 a8 a9 a10} (h : Keeps b m) : Keeps b (compStep a0 a1 a2 a3 a4 a5 a6 a7 a8 a9 a10 m) := by
  unfold compStep; try dsimp only
  repeat' first | intro _ | with_reducible assumption | with_reducible apply onChan_keeps | with_reducible apply transition_keeps | with_reducible apply Keeps.ite | split | exact h.of rfl rfl rfl rfl rfl rfl | rfl | exact Nat.le_refl _ | (simp; done)

theorem chanBlock_keeps {b m} {a0 a1} (h : Keeps b m) : Keeps b (chanBlock a0 a1 m) := by
  unfold chanBlock; try dsimp only
  repeat' first | intro _ | with_reducible assumption | with_reducible apply freezeStep_keeps | with_reducible apply onChan_keeps | with_reducible apply Keeps.ite | split | exact h.of rfl rfl rfl rfl rfl rfl | rfl | exact Nat.le_refl _ | (simp; done)

theorem chanTrigger_keeps {b m} {a0 a1} (h : Keeps b m) : Keeps b (chanTrigger a0 a1 m) := by
  unfold chanTrigger; try dsimp only
  repeat' first | intro _ | with_reducible assumption | with_reducible apply trigger_keeps | with_reducible apply Keeps.ite | split | exact h.of rfl rfl rfl rfl rfl rfl | rfl | exact Nat.le_refl _ | (simp; done)

theorem chanRecord_keeps {b m} {a0 a1 a2} (h : Keeps b m) : Keeps b (chanRecord a0 a1 a2 m) := by
  unfold chanRecord; try dsimp only
  repeat' first | intro _ | with_reducible assumption | with_reducible apply compStep_keeps | with_reducible apply estCount_keeps | with_reducible apply forEach_keeps | with_reducible apply onChan_keeps | with_reducible apply raise_keeps | with_reducible apply Keeps.ite | split | exact h.of rfl rfl rfl rfl rfl rfl | rfl | exact Nat.le_refl _ | (simp; done)

theorem loseTracking_keeps {b m} {a0} (h : Keeps b m) : Keeps b (loseTracking a0 m) := by
  unfold loseTracking; try dsimp only
  repeat' first | intro _ | with_reducible assumption | with_reducible apply estCount_keeps | with_reducible apply onGroup_keeps | with_reducible apply raise_keeps | with_reducible apply Keeps.ite | split | exact h.of rfl rfl rfl rfl rfl rfl | rfl | exact Nat.le_refl _ | (simp; done)

theorem trackFailed_keeps {b m} {a0 a1} (h : Keeps b m) : Keeps b (trackFailed a0 a1 m) := by
  unfold trackFailed; try dsimp only
  repeat' first | intro _ | with_reducible assumption | with_reducible apply loseTracking_keeps | with_reducible apply onGroup_keeps | with_reducible apply Keeps.ite | split | exact h.of rfl rfl rfl rfl rfl rfl | rfl | exact Nat.le_refl _ | (simp; done)

theorem trackStep_keeps {b m} {a0 a1 a2 a3 a4} (h : Keeps b m) : Keeps b (trackStep a0 a1 a2 a3 a4 m) := by
  unfold trackStep; try dsimp only
  repeat' first | intro _ | with_reducible assumption | with_reducible apply onGroup_keeps | with_reducible apply raise_keeps | with_reducible apply trackFailed_keeps | with_reducible apply Keeps.ite | split | exact h.of rfl rfl rfl rfl rfl rfl | rfl | exact Nat.le_refl _ | (simp; done)

theorem boundaryStep_keeps {b m} {a0} (h : Keeps b m) : Keeps b (boundaryStep a0 m) := by
  unfold boundaryStep; try dsimp only
  repeat' first | intro _ | with_reducible assumption | with_reducible apply forEach_keeps | with_reducible apply onChan_keeps | with_reducible apply onGroup_keeps | with_reducible apply trackStep_keeps | with_reducible apply Keeps.ite | split | exact h.of rfl rfl rfl rfl rfl rfl | rfl | exact Nat.le_refl _ | (simp; done)

theorem enterRecovery_keeps {b m} {a0} (h : Keeps b m) : Keeps b (enterRecovery a0 m) := by
  unfold enterRecovery; try dsimp only
  repeat' first | intro _ | with_reducible assumption | with_reducible apply estCount_keeps | with_reducible apply onGroup_keeps | with_reducible apply raise_keeps | with_reducible apply Keeps.ite | split | exact h.of rfl rfl rfl rfl rfl rfl | rfl | exact Nat.le_refl _ | (simp; done)

theorem leaveRecovery_keeps {b m} {a0} (h : Keeps b m) : Keeps b (leaveRecovery a0 m) := by
  unfold leaveRecovery; try dsimp only
  repeat' first | intro _ | with_reducible assumption | with_reducible apply onGroup_keeps | with_reducible apply raise_keeps | with_reducible apply Keeps.ite | split | exact h.of rfl rfl rfl rfl rfl rfl | rfl | exact Nat.le_refl _ | (simp; done)

theorem compsOff_keeps {b m} {a0} (h : Keeps b m) : Keeps b (compsOff a0 m) := by
  unfold compsOff; try dsimp only
  repeat' first | intro _ | with_reducible assumption | with_reducible apply forEach_keeps | with_reducible apply onChan_keeps | with_reducible apply Keeps.ite | split | exact h.of rfl rfl rfl rfl rfl rfl | rfl | exact Nat.le_refl _ | (simp; done)

theorem startGroup_keeps {b m} {a0 a1} (h : Keeps b m) : Keeps b (startGroup a0 a1 m) := by
  unfold startGroup; try dsimp only
  repeat' first | intro _ | with_reducible assumption | with_reducible apply compsOff_keeps | with_reducible apply enterRecovery_keeps | with_reducible apply forEach_keeps | with_reducible apply onChan_keeps | with_reducible apply onGroup_keeps | with_reducible apply Keeps.ite | split | exact h.of rfl rfl rfl rfl rfl rfl | rfl | exact Nat.le_refl _ | (simp; done)

theorem putSettings_keeps {b m} {a0 a1} (h : Keeps b m) : Keeps b (putSettings a0 a1 m) := by
  unfold putSettings; try dsimp only
  repeat' first | intro _ | with_reducible assumption | with_reducible apply forEach_keeps | with_reducible apply onChan_keeps | with_reducible apply onGroup_keeps | with_reducible apply Keeps.ite | split | exact h.of rfl rfl rfl rfl rfl rfl | rfl | exact Nat.le_refl _ | (simp; done)

theorem putFreeze_keeps {b m} {a0 a1 a2 a3 a4} (h : Keeps b m) : Keeps b (putFreeze a0 a1 a2 a3 a4 m) := by
  unfold putFreeze; try dsimp only
  repeat' first | intro _ | with_reducible assumption | with_reducible apply forEach_keeps | with_reducible apply onChan_keeps | with_reducible apply Keeps.ite | split | exact h.of rfl rfl rfl rfl rfl rfl | rfl | exact Nat.le_refl _ | (simp; done)

theorem estDueNow_keeps {b m} {a0 a1 a2} (h : Keeps b m) : Keeps b (estDueNow a0 a1 a2 m) := by
  unfold estDueNow; try dsimp only
  repeat' first | intro _ | with_reducible assumption | with_reducible apply forEach_keeps | with_reducible apply onGroup_keeps | with_reducible apply putFreeze_keeps | with_reducible apply putSettings_keeps | with_reducible apply Keeps.ite | split | exact h.of rfl rfl rfl rfl rfl rfl | rfl | exact Nat.le_refl _ | (simp; done)

theorem estGridRestart_keeps {b m} {a0 a1 a2 a3} (h : Keeps b m) : Keeps b (estGridRestart a0 a1 a2 a3 m) := by
  unfold estGridRestart; try dsimp only
  repeat' first | intro _ | with_reducible assumption | with_reducible apply enterRecovery_keeps | with_reducible apply forEach_keeps | with_reducible apply onChan_keeps | with_reducible apply onGroup_keeps | with_reducible apply Keeps.ite | split | exact h.of rfl rfl rfl rfl rfl rfl | rfl | exact Nat.le_refl _ | (simp; done)

theorem groupReady_keeps {b m} {a0 a1} (h : Keeps b m) : Keeps b (groupReady a0 a1 m) := by
  unfold groupReady; try dsimp only
  repeat' first | intro _ | with_reducible assumption | with_reducible apply estDueNow_keeps | with_reducible apply estGridRestart_keeps | with_reducible apply Keeps.ite | split | exact h.of rfl rfl rfl rfl rfl rfl | rfl | exact Nat.le_refl _ | (simp; done)

theorem groupTick_keeps {b m} {a0 a1 a2} (h : Keeps b m) : Keeps b (groupTick a0 a1 a2 m) := by
  unfold groupTick; try dsimp only
  repeat' first | intro _ | with_reducible assumption | with_reducible apply advanceSwap_keeps | with_reducible apply boundaryStep_keeps | with_reducible apply chanBlock_keeps | with_reducible apply chanRecord_keeps | with_reducible apply chanTrigger_keeps | with_reducible apply countOuts_keeps | with_reducible apply enterRecovery_keeps | with_reducible apply forEach_keeps | with_reducible apply leaveRecovery_keeps | with_reducible apply onGroup_keeps | with_reducible apply resolveSwaps_keeps | with_reducible apply showBank_keeps | with_reducible apply startGroup_keeps | with_reducible apply Keeps.ite | split | exact h.of rfl rfl rfl rfl rfl rfl | rfl | exact Nat.le_refl _ | (simp; done)

theorem groupIdle_keeps {b m} {a0 a1} (h : Keeps b m) : Keeps b (groupIdle a0 a1 m) := by
  unfold groupIdle; try dsimp only
  repeat' first | intro _ | with_reducible assumption | with_reducible apply forEach_keeps | with_reducible apply limitingOver_keeps | with_reducible apply onChan_keeps | with_reducible apply onGroup_keeps | with_reducible apply showBank_keeps | with_reducible apply Keeps.ite | split | exact h.of rfl rfl rfl rfl rfl rfl | rfl | exact Nat.le_refl _ | (simp; done)

theorem groupsTick_keeps {b m} {a0} (h : Keeps b m) : Keeps b (groupsTick a0 m) := by
  unfold groupsTick; try dsimp only
  repeat' first | intro _ | with_reducible assumption | with_reducible apply forEach_keeps | with_reducible apply groupIdle_keeps | with_reducible apply groupReady_keeps | with_reducible apply groupTick_keeps | with_reducible apply onFlt_keeps | with_reducible apply Keeps.ite | split | exact h.of rfl rfl rfl rfl rfl rfl | rfl | exact Nat.le_refl _ | (simp; done)

theorem execRecoveryExit_keeps {b s t} {a0} (h : Keeps b s.m) (e : execRecoveryExit a0 s = .next t) : Keeps b t.m := by
  unfold execRecoveryExit at e; refine runOn_keeps ?_ e; try dsimp only
  repeat' first | intro _ | with_reducible assumption | with_reducible apply leaveRecovery_keeps | with_reducible apply when_keeps | with_reducible apply Keeps.ite | with_reducible apply id_keeps | split | exact h.of rfl rfl rfl rfl rfl rfl | rfl | exact Nat.le_refl _ | (simp; done)

theorem execFreezeEnd_keeps {b s t} {a0} (h : Keeps b s.m) (e : execFreezeEnd a0 s = .next t) : Keeps b t.m := by
  unfold execFreezeEnd at e; refine runOn_keeps ?_ e; try dsimp only
  repeat' first | intro _ | with_reducible assumption | with_reducible apply endFreeze_keeps | with_reducible apply when_keeps | with_reducible apply Keeps.ite | with_reducible apply id_keeps | split | exact h.of rfl rfl rfl rfl rfl rfl | rfl | exact Nat.le_refl _ | (simp; done)

theorem execTrackingLost_keeps {b s t} {a0} (h : Keeps b s.m) (e : execTrackingLost a0 s = .next t) : Keeps b t.m := by
  unfold execTrackingLost at e; refine runOn_keeps ?_ e; try dsimp only
  repeat' first | intro _ | with_reducible assumption | with_reducible apply loseTracking_keeps | with_reducible apply when_keeps | with_reducible apply Keeps.ite | with_reducible apply id_keeps | split | exact h.of rfl rfl rfl rfl rfl rfl | rfl | exact Nat.le_refl _ | (simp; done)

theorem execComparatorTransition_keeps {b s t} {a0 a1} (h : Keeps b s.m) (e : execComparatorTransition a0 a1 s = .next t) : Keeps b t.m := by
  unfold execComparatorTransition at e; refine runOn_keeps ?_ e; try dsimp only
  repeat' first | intro _ | with_reducible assumption | with_reducible apply transition_keeps | with_reducible apply when_keeps | with_reducible apply Keeps.ite | with_reducible apply id_keeps | split | exact h.of rfl rfl rfl rfl rfl rfl | rfl | exact Nat.le_refl _ | (simp; done)

theorem applyEstSet_keeps {b m} {a0} (h : Keeps b m) : Keeps b (applyEstSet a0 m) := by
  unfold applyEstSet; try dsimp only
  repeat' first | intro _ | with_reducible assumption | with_reducible apply onGroup_keeps | with_reducible apply Keeps.ite | split | exact h.of rfl rfl rfl rfl rfl rfl | rfl | exact Nat.le_refl _ | (simp; done)

theorem applyFreeze_keeps {b m} {a0} (h : Keeps b m) : Keeps b (applyFreeze a0 m) := by
  unfold applyFreeze; try dsimp only
  repeat' first | intro _ | with_reducible assumption | with_reducible apply onGroup_keeps | with_reducible apply Keeps.ite | split | exact h.of rfl rfl rfl rfl rfl rfl | rfl | exact Nat.le_refl _ | (simp; done)

theorem execEstGroupStatus_keeps {b s t} {a0 a1} (h : Keeps b s.m) (e : execEstGroupStatus a0 a1 s = .next t) : Keeps b t.m := by
  unfold execEstGroupStatus at e; refine runOn_keeps ?_ e; try dsimp only
  repeat' first | intro _ | with_reducible assumption | with_reducible apply onGroup_keeps | with_reducible apply runRead_keeps | with_reducible apply when_keeps | with_reducible apply Keeps.ite | with_reducible apply id_keeps | split | exact h.of rfl rfl rfl rfl rfl rfl | rfl | exact Nat.le_refl _ | (simp; done)

end Sys2Proof.Machine
end

