-- ==== Sys2Proof/Laws/KeepsLge.lean ====
section
/-! SUPPORT. What every operation and every command of Machine/Lge keeps (Keeps, Laws/Keeps). -/
namespace Sys2Proof.Machine
set_option linter.all false
open Sys2Proof

theorem onProg_keeps {b m} {a0 a1} (h : Keeps b m) : Keeps b (onProg a0 a1 m) := by
  unfold onProg; try dsimp only
  repeat' first | intro _ | with_reducible assumption | with_reducible apply onLge_keeps | with_reducible apply Keeps.ite | split | exact h.of rfl rfl rfl rfl rfl rfl | rfl | exact Nat.le_refl _ | (simp; done)

theorem progCount_keeps {b m} {a0 a1} (h : Keeps b m) : Keeps b (progCount a0 a1 m) := by
  unfold progCount; try dsimp only
  repeat' first | intro _ | with_reducible assumption | with_reducible apply onProg_keeps | with_reducible apply Keeps.ite | split | exact h.of rfl rfl rfl rfl rfl rfl | rfl | exact Nat.le_refl _ | (simp; done)

theorem progEvent_keeps {b m} {a0 a1 a2} (h : Keeps b m) : Keeps b (progEvent a0 a1 a2 m) := by
  unfold progEvent; try dsimp only
  repeat' first | intro _ | with_reducible assumption | with_reducible apply raise_keeps | with_reducible apply Keeps.ite | split | exact h.of rfl rfl rfl rfl rfl rfl | rfl | exact Nat.le_refl _ | (simp; done)

theorem clearForces_keeps {b m} {a0} (h : Keeps b m) : Keeps b (clearForces a0 m) := by
  unfold clearForces; try dsimp only
  repeat' first | intro _ | with_reducible assumption | with_reducible apply forEach_keeps | with_reducible apply onLge_keeps | with_reducible apply progEvent_keeps | with_reducible apply Keeps.ite | split | exact h.of rfl rfl rfl rfl rfl rfl | rfl | exact Nat.le_refl _ | (simp; done)

theorem beginCycle_keeps {b m} {a0 a1} (h : Keeps b m) : Keeps b (beginCycle a0 a1 m) := by
  unfold beginCycle; try dsimp only
  repeat' first | intro _ | with_reducible assumption | with_reducible apply onProg_keeps | with_reducible apply Keeps.ite | split | exact h.of rfl rfl rfl rfl rfl rfl | rfl | exact Nat.le_refl _ | (simp; done)

theorem commitPoint_keeps {b m} {a0 a1 a2 a3} (h : Keeps b m) : Keeps b (commitPoint a0 a1 a2 a3 m) := by
  unfold commitPoint; try dsimp only
  repeat' first | intro _ | with_reducible assumption | with_reducible apply ownerWrite_keeps | with_reducible apply Keeps.ite | split | exact h.of rfl rfl rfl rfl rfl rfl | rfl | exact Nat.le_refl _ | (simp; done)

theorem commitCycle_keeps {b m} {a0 a1 a2} (h : Keeps b m) : Keeps b (commitCycle a0 a1 a2 m) := by
  unfold commitCycle; try dsimp only
  repeat' first | intro _ | with_reducible assumption | with_reducible apply commitPoint_keeps | with_reducible apply forEach_keeps | with_reducible apply onLge_keeps | with_reducible apply onProg_keeps | with_reducible apply Keeps.ite | split | exact h.of rfl rfl rfl rfl rfl rfl | rfl | exact Nat.le_refl _ | (simp; done)

theorem letEnd_keeps {b m} {a0} (h : Keeps b m) : Keeps b (letEnd a0 m) := by
  unfold letEnd; try dsimp only
  repeat' first | intro _ | with_reducible assumption | with_reducible apply onLge_keeps | with_reducible apply Keeps.ite | split | exact h.of rfl rfl rfl rfl rfl rfl | rfl | exact Nat.le_refl _ | (simp; done)

theorem restartProg_keeps {b m} {a0 a1 a2 a3} (h : Keeps b m) : Keeps b (restartProg a0 a1 a2 a3 m) := by
  unfold restartProg; try dsimp only
  repeat' first | intro _ | with_reducible assumption | with_reducible apply clearForces_keeps | with_reducible apply letEnd_keeps | with_reducible apply onProg_keeps | with_reducible apply progEvent_keeps | with_reducible apply Keeps.ite | split | exact h.of rfl rfl rfl rfl rfl rfl | rfl | exact Nat.le_refl _ | (simp; done)

theorem restartPoints_keeps {b m} {a0 a1} (h : Keeps b m) : Keeps b (restartPoints a0 a1 m) := by
  unfold restartPoints; try dsimp only
  repeat' first | intro _ | with_reducible assumption | with_reducible apply forEach_keeps | with_reducible apply onProg_keeps | with_reducible apply putPoint_keeps | with_reducible apply returnPoint_keeps | with_reducible apply Keeps.ite | split | exact h.of rfl rfl rfl rfl rfl rfl | rfl | exact Nat.le_refl _ | (simp; done)

theorem exchangeProg_keeps {b m} {a0 a1} (h : Keeps b m) : Keeps b (exchangeProg a0 a1 m) := by
  unfold exchangeProg; try dsimp only
  repeat' first | intro _ | with_reducible assumption | with_reducible apply forEach_keeps | with_reducible apply onLge_keeps | with_reducible apply onProg_keeps | with_reducible apply progEvent_keeps | with_reducible apply Keeps.ite | split | exact h.of rfl rfl rfl rfl rfl rfl | rfl | exact Nat.le_refl _ | (simp; done)

theorem takeChange_keeps {b m} {a0 a1} (h : Keeps b m) : Keeps b (takeChange a0 a1 m) := by
  unfold takeChange; try dsimp only
  repeat' first | intro _ | with_reducible assumption | with_reducible apply onProg_keeps | with_reducible apply Keeps.ite | split | exact h.of rfl rfl rfl rfl rfl rfl | rfl | exact Nat.le_refl _ | (simp; done)

theorem afterCommit_keeps {b m} {a0 a1 a2} (h : Keeps b m) : Keeps b (afterCommit a0 a1 a2 m) := by
  unfold afterCommit; try dsimp only
  repeat' first | intro _ | with_reducible assumption | with_reducible apply beginCycle_keeps | with_reducible apply exchangeProg_keeps | with_reducible apply forEach_keeps | with_reducible apply onProg_keeps | with_reducible apply restartPoints_keeps | with_reducible apply takeChange_keeps | with_reducible apply Keeps.ite | split | exact h.of rfl rfl rfl rfl rfl rfl | rfl | exact Nat.le_refl _ | (simp; done)

theorem boundaryCommit_keeps {b m} {a0} (h : Keeps b m) : Keeps b (boundaryCommit a0 m) := by
  unfold boundaryCommit; try dsimp only
  repeat' first | intro _ | with_reducible assumption | with_reducible apply commitCycle_keeps | with_reducible apply Keeps.ite | split | exact h.of rfl rfl rfl rfl rfl rfl | rfl | exact Nat.le_refl _ | (simp; done)

theorem boundaryBegin_keeps {b m} {a0 a1 a2} (h : Keeps b m) : Keeps b (boundaryBegin a0 a1 a2 m) := by
  unfold boundaryBegin; try dsimp only
  repeat' first | intro _ | with_reducible assumption | with_reducible apply afterCommit_keeps | with_reducible apply onProg_keeps | with_reducible apply progEvent_keeps | with_reducible apply takeChange_keeps | with_reducible apply Keeps.ite | split | exact h.of rfl rfl rfl rfl rfl rfl | rfl | exact Nat.le_refl _ | (simp; done)

theorem endBoundary_keeps {b m} {a0 a1} (h : Keeps b m) : Keeps b (endBoundary a0 a1 m) := by
  unfold endBoundary; try dsimp only
  repeat' first | intro _ | with_reducible assumption | with_reducible apply commitPoint_keeps | with_reducible apply forEach_keeps | with_reducible apply onLge_keeps | with_reducible apply progCount_keeps | with_reducible apply raise_keeps | with_reducible apply Keeps.ite | split | exact h.of rfl rfl rfl rfl rfl rfl | rfl | exact Nat.le_refl _ | (simp; done)

theorem commitForced_keeps {b m} {a0 a1 a2} (h : Keeps b m) : Keeps b (commitForced a0 a1 a2 m) := by
  unfold commitForced; try dsimp only
  repeat' first | intro _ | with_reducible assumption | with_reducible apply commitPoint_keeps | with_reducible apply Keeps.ite | split | exact h.of rfl rfl rfl rfl rfl rfl | rfl | exact Nat.le_refl _ | (simp; done)

theorem commitForces_keeps {b m} (h : Keeps b m) : Keeps b (commitForces m) := by
  unfold commitForces; try dsimp only
  repeat' first | intro _ | with_reducible assumption | with_reducible apply commitForced_keeps | with_reducible apply forEach_keeps | with_reducible apply onLge_keeps | with_reducible apply ownerWrite_keeps | with_reducible apply Keeps.ite | split | exact h.of rfl rfl rfl rfl rfl rfl | rfl | exact Nat.le_refl _ | (simp; done)

theorem logicBoundaries_keeps {b m} {a0 a1 a2} (h : Keeps b m) (ha2 : ∀ x0, Keeps b x0 → Keeps b (a2 x0)) : Keeps b (logicBoundaries a0 a1 a2 m) := by
  unfold logicBoundaries; try dsimp only
  repeat' first | intro _ | with_reducible assumption | apply ha2 | with_reducible apply boundaryBegin_keeps | with_reducible apply boundaryCommit_keeps | with_reducible apply commitForces_keeps | with_reducible apply endBoundary_keeps | with_reducible apply forEach_keeps | with_reducible apply onLge_keeps | with_reducible apply Keeps.ite | split | exact h.of rfl rfl rfl rfl rfl rfl | rfl | exact Nat.le_refl _ | (simp; done)

theorem logicPeriod_keeps {b m} (h : Keeps b m) : Keeps b (logicPeriod m) := by
  unfold logicPeriod; try dsimp only
  repeat' first | intro _ | with_reducible assumption | with_reducible apply onLge_keeps | with_reducible apply Keeps.ite | split | exact h.of rfl rfl rfl rfl rfl rfl | rfl | exact Nat.le_refl _ | (simp; done)

theorem execLogicExecutionPeriod_keeps {b s t} (h : Keeps b s.m) (e : execLogicExecutionPeriod s = .next t) : Keeps b t.m := by
  unfold execLogicExecutionPeriod at e; refine runOn_keeps ?_ e; try dsimp only
  repeat' first | intro _ | with_reducible assumption | with_reducible apply advanceTo_keeps | with_reducible apply logicPeriod_keeps | with_reducible apply Keeps.ite | with_reducible apply id_keeps | split | exact h.of rfl rfl rfl rfl rfl rfl | rfl | exact Nat.le_refl _ | (simp; done)

theorem logicStepped_keeps {b m} (h : Keeps b m) : Keeps b (logicStepped m) := by
  unfold logicStepped; try dsimp only
  repeat' first | intro _ | with_reducible assumption | with_reducible apply onLge_keeps | with_reducible apply Keeps.ite | split | exact h.of rfl rfl rfl rfl rfl rfl | rfl | exact Nat.le_refl _ | (simp; done)

theorem logicGrid_keeps {b m} {a0} (h : Keeps b m) : Keeps b (logicGrid a0 m) := by
  unfold logicGrid; try dsimp only
  repeat' first | intro _ | with_reducible assumption | with_reducible apply onLge_keeps | with_reducible apply Keeps.ite | split | exact h.of rfl rfl rfl rfl rfl rfl | rfl | exact Nat.le_refl _ | (simp; done)

theorem logicReset_keeps {b m} (h : Keeps b m) : Keeps b (logicReset m) := by
  unfold logicReset; try dsimp only
  repeat' first | intro _ | with_reducible assumption | with_reducible apply onLge_keeps | with_reducible apply Keeps.ite | split | exact h.of rfl rfl rfl rfl rfl rfl | rfl | exact Nat.le_refl _ | (simp; done)

theorem startPrograms_keeps {b m} {a0 a1 a2} (h : Keeps b m) : Keeps b (startPrograms a0 a1 a2 m) := by
  unfold startPrograms; try dsimp only
  repeat' first | intro _ | with_reducible assumption | with_reducible apply forEach_keeps | with_reducible apply restartProg_keeps | with_reducible apply Keeps.ite | split | exact h.of rfl rfl rfl rfl rfl rfl | rfl | exact Nat.le_refl _ | (simp; done)

theorem coldStartProg_keeps {b m} {a0 a1} (h : Keeps b m) : Keeps b (coldStartProg a0 a1 m) := by
  unfold coldStartProg; try dsimp only
  repeat' first | intro _ | with_reducible assumption | with_reducible apply progEvent_keeps | with_reducible apply restartProg_keeps | with_reducible apply Keeps.ite | split | exact h.of rfl rfl rfl rfl rfl rfl | rfl | exact Nat.le_refl _ | (simp; done)

theorem applyProgLoad_keeps {b m} {a0} (h : Keeps b m) : Keeps b (applyProgLoad a0 m) := by
  unfold applyProgLoad; try dsimp only
  repeat' first | intro _ | with_reducible assumption | with_reducible apply clearForces_keeps | with_reducible apply letEnd_keeps | with_reducible apply onLge_keeps | with_reducible apply progEvent_keeps | with_reducible apply restartProg_keeps | with_reducible apply Keeps.ite | split | exact h.of rfl rfl rfl rfl rfl rfl | rfl | exact Nat.le_refl _ | (simp; done)

theorem applyProgExchange_keeps {b m} {a0} (h : Keeps b m) : Keeps b (applyProgExchange a0 m) := by
  unfold applyProgExchange; try dsimp only
  repeat' first | intro _ | with_reducible assumption | with_reducible apply onProg_keeps | with_reducible apply Keeps.ite | split | exact h.of rfl rfl rfl rfl rfl rfl | rfl | exact Nat.le_refl _ | (simp; done)

theorem applyProgSet_keeps {b m} {a0} (h : Keeps b m) : Keeps b (applyProgSet a0 m) := by
  unfold applyProgSet; try dsimp only
  repeat' first | intro _ | with_reducible assumption | with_reducible apply clearForces_keeps | with_reducible apply letEnd_keeps | with_reducible apply onLge_keeps | with_reducible apply onProg_keeps | with_reducible apply progEvent_keeps | with_reducible apply restartProg_keeps | with_reducible apply Keeps.ite | split | exact h.of rfl rfl rfl rfl rfl rfl | rfl | exact Nat.le_refl _ | (simp; done)

theorem applyRestart_keeps {b m} {a0} (h : Keeps b m) : Keeps b (applyRestart a0 m) := by
  unfold applyRestart; try dsimp only
  repeat' first | intro _ | with_reducible assumption | with_reducible apply forEach_keeps | with_reducible apply restartProg_keeps | with_reducible apply Keeps.ite | split | exact h.of rfl rfl rfl rfl rfl rfl | rfl | exact Nat.le_refl _ | (simp; done)

theorem applyForce_keeps {b m} {a0} (h : Keeps b m) : Keeps b (applyForce a0 m) := by
  unfold applyForce; try dsimp only
  repeat' first | intro _ | with_reducible assumption | with_reducible apply onLge_keeps | with_reducible apply progEvent_keeps | with_reducible apply Keeps.ite | split | exact h.of rfl rfl rfl rfl rfl rfl | rfl | exact Nat.le_refl _ | (simp; done)

theorem execLgeForceList_keeps {b s t} {a0 a1} (h : Keeps b s.m) (e : execLgeForceList a0 a1 s = .next t) : Keeps b t.m := by
  unfold execLgeForceList at e; refine runOn_keeps ?_ e; try dsimp only
  repeat' first | intro _ | with_reducible assumption | with_reducible apply runRead_keeps | with_reducible apply Keeps.ite | with_reducible apply id_keeps | split | exact h.of rfl rfl rfl rfl rfl rfl | rfl | exact Nat.le_refl _ | (simp; done)

theorem execLgeStatus_keeps {b s t} {a0 a1} (h : Keeps b s.m) (e : execLgeStatus a0 a1 s = .next t) : Keeps b t.m := by
  unfold execLgeStatus at e; refine runOn_keeps ?_ e; try dsimp only
  repeat' first | intro _ | with_reducible assumption | with_reducible apply onProg_keeps | with_reducible apply runRead_keeps | with_reducible apply when_keeps | with_reducible apply Keeps.ite | with_reducible apply id_keeps | split | exact h.of rfl rfl rfl rfl rfl rfl | rfl | exact Nat.le_refl _ | (simp; done)

end Sys2Proof.Machine
end

