-- ==== Sys2Proof/Laws/KeepsSlc.lean ====
section
/-! SUPPORT. What every operation and every command of Machine/Slc keeps (Keeps, Laws/Keeps). -/
namespace Sys2Proof.Machine
set_option linter.all false
open Sys2Proof

theorem stateEvent_keeps {b m} {a0 a1 a2} (h : Keeps b m) : Keeps b (stateEvent a0 a1 a2 m) := by
  unfold stateEvent; try dsimp only
  repeat' first | intro _ | with_reducible assumption | with_reducible apply raise_keeps | with_reducible apply Keeps.ite | split | exact h.of rfl rfl rfl rfl rfl rfl | rfl | exact Nat.le_refl _ | (simp; done)

theorem setSlice_keeps {b m} {a0 a1} (h : Keeps b m) : Keeps b (setSlice a0 a1 m) := by
  unfold setSlice; try dsimp only
  repeat' first | intro _ | with_reducible assumption | with_reducible apply onSlice_keeps | with_reducible apply stateEvent_keeps | with_reducible apply Keeps.ite | split | exact h.of rfl rfl rfl rfl rfl rfl | rfl | exact Nat.le_refl _ | (simp; done)

theorem openBox_keeps {b m} {a0} (h : Keeps b m) : Keeps b (openBox a0 m) := by
  unfold openBox; try dsimp only
  repeat' first | intro _ | with_reducible assumption | with_reducible apply onMbx_keeps | with_reducible apply Keeps.ite | split | exact h.of rfl rfl rfl rfl rfl rfl | rfl | exact Nat.le_refl _ | (simp; done)

theorem closeBox_keeps {b m} {a0} (h : Keeps b m) : Keeps b (closeBox a0 m) := by
  unfold closeBox; try dsimp only
  repeat' first | intro _ | with_reducible assumption | with_reducible apply onMbx_keeps | with_reducible apply Keeps.ite | split | exact h.of rfl rfl rfl rfl rfl rfl | rfl | exact Nat.le_refl _ | (simp; done)

theorem applyHueSet_keeps {b m} {a0} (h : Keeps b m) : Keeps b (applyHueSet a0 m) := by
  unfold applyHueSet; try dsimp only
  repeat' first | intro _ | with_reducible assumption | with_reducible apply guarantee_keeps | with_reducible apply onCpu_keeps | with_reducible apply Keeps.ite | split | exact h.of rfl rfl rfl rfl rfl rfl | rfl | exact Nat.le_refl _ | (simp; done)

theorem fillRegions_keeps {b m} {a0} (h : Keeps b m) : Keeps b (fillRegions a0 m) := by
  unfold fillRegions; try dsimp only
  repeat' first | intro _ | with_reducible assumption | exact memPut_wf _ _ _ (by assumption) | exact memFilter_wf _ _ (by assumption) | exact memZero_wf _ _ _ (by assumption) | with_reducible apply forEach_keeps | with_reducible apply onMem_keeps | with_reducible apply onSlice_keeps | with_reducible apply slcPut_keeps | with_reducible apply when_keeps | with_reducible apply Keeps.ite | split | exact h.of rfl rfl rfl rfl rfl rfl | rfl | exact Nat.le_refl _ | (simp; done)

theorem startFill_keeps {b m} (h : Keeps b m) : Keeps b (startFill m) := by
  unfold startFill; try dsimp only
  repeat' first | intro _ | with_reducible assumption | with_reducible apply onCpu_keeps | with_reducible apply Keeps.ite | split | exact h.of rfl rfl rfl rfl rfl rfl | rfl | exact Nat.le_refl _ | (simp; done)

theorem queueFill_keeps {b m} {a0 a1} (h : Keeps b m) : Keeps b (queueFill a0 a1 m) := by
  unfold queueFill; try dsimp only
  repeat' first | intro _ | with_reducible assumption | with_reducible apply onCpu_keeps | with_reducible apply startFill_keeps | with_reducible apply Keeps.ite | split | exact h.of rfl rfl rfl rfl rfl rfl | rfl | exact Nat.le_refl _ | (simp; done)

theorem dropFills_keeps {b m} {a0} (h : Keeps b m) : Keeps b (dropFills a0 m) := by
  unfold dropFills; try dsimp only
  repeat' first | intro _ | with_reducible assumption | with_reducible apply onCpu_keeps | with_reducible apply startFill_keeps | with_reducible apply Keeps.ite | split | exact h.of rfl rfl rfl rfl rfl rfl | rfl | exact Nat.le_refl _ | (simp; done)

theorem reserveSlice_keeps {b m} {a0 a1} (h : Keeps b m) : Keeps b (reserveSlice a0 a1 m) := by
  unfold reserveSlice; try dsimp only
  repeat' first | intro _ | with_reducible assumption | with_reducible apply assignRing_keeps | with_reducible apply forEach_keeps | with_reducible apply guarantee_keeps | with_reducible apply onCpu_keeps | with_reducible apply partition_keeps | with_reducible apply queueFill_keeps | with_reducible apply Keeps.ite | split | exact h.of rfl rfl rfl rfl rfl rfl | rfl | exact Nat.le_refl _ | (simp; done)

theorem dropLatches_keeps {b m} {a0} (h : Keeps b m) : Keeps b (dropLatches a0 m) := by
  unfold dropLatches; try dsimp only
  repeat' first | intro _ | with_reducible assumption | with_reducible apply onTime_keeps | with_reducible apply Keeps.ite | split | exact h.of rfl rfl rfl rfl rfl rfl | rfl | exact Nat.le_refl _ | (simp; done)

theorem freeSlice_keeps {b m} {a0} (h : Keeps b m) : Keeps b (freeSlice a0 m) := by
  unfold freeSlice; dsimp only
  refine onMem_keeps (onTwn_keeps (onEvr_keeps (onSig_keeps (onCpu_keeps (dropFills_keeps (closeBox_keeps (forEach_keeps (withdrawItems_keeps (dropLatches_keeps h)) fun a x hx => releaseRing_keeps hx))) rfl rfl)))) ?_
  exact fun hm => memZero_wf _ _ _ (memZero_wf _ _ _ (memZero_wf _ _ _ hm))

theorem baseImage_keeps {b m} {a0} (h : Keeps b m) : Keeps b (baseImage a0 m) := by
  unfold baseImage
  split
  · exact h
  · exact onTwn_keeps (forEach_keeps h fun a x hx => onMem_keeps hx fun hm => foldWrite_wf _ _ _ _ (memZero_wf _ _ _ hm))

theorem copyImage_keeps {b m} {a0} (h : Keeps b m) : Keeps b (copyImage a0 m) := by
  unfold copyImage
  split
  · exact h
  · dsimp only
    refine forEach_keeps (forEach_keeps (forEach_keeps h fun a x hx => ?_) fun a x hx => onLge_keeps hx) fun a x hx => putPoint_keeps hx
    exact onMem_keeps hx fun hm => foldWrite_wf _ _ _ _ (memZero_wf _ _ _ hm)

theorem loadSlice_keeps {b m} {a0} (h : Keeps b m) : Keeps b (loadSlice a0 m) := by
  unfold loadSlice; try dsimp only
  repeat' first | intro _ | with_reducible assumption | with_reducible apply onSlice_keeps | with_reducible apply openBox_keeps | with_reducible apply respond_keeps | with_reducible apply setSlice_keeps | with_reducible apply Keeps.ite | split | exact h.of rfl rfl rfl rfl rfl rfl | rfl | exact Nat.le_refl _ | (simp; done)

theorem applyAdmit_keeps {b m} {a0 a1 a2 a3 a4} (h : Keeps b m) : Keeps b (applyAdmit a0 a1 a2 a3 a4 m) := by
  unfold applyAdmit; try dsimp only
  repeat' first | intro _ | with_reducible assumption | with_reducible apply loadSlice_keeps | with_reducible apply onSlice_keeps | with_reducible apply Keeps.ite | split | exact h.of rfl rfl rfl rfl rfl rfl | rfl | exact Nat.le_refl _ | (simp; done)

theorem dropAdmit_keeps {b m} {a0} (h : Keeps b m) : Keeps b (dropAdmit a0 m) := by
  unfold dropAdmit; try dsimp only
  repeat' first | intro _ | with_reducible assumption | with_reducible apply freeSlice_keeps | with_reducible apply guarantee_keeps | with_reducible apply Keeps.ite | split | exact h.of rfl rfl rfl rfl rfl rfl | rfl | exact Nat.le_refl _ | (simp; done)

theorem forcePubs_keeps {b m} {a0} (h : Keeps b m) : Keeps b (forcePubs a0 m) := by
  unfold forcePubs; try dsimp only
  repeat' first | intro _ | with_reducible assumption | with_reducible apply onSig_keeps | with_reducible apply Keeps.ite | split | exact h.of rfl rfl rfl rfl rfl rfl | rfl | exact Nat.le_refl _ | (simp; done)

theorem resumePrograms_keeps {b m} {a0 a1} (h : Keeps b m) : Keeps b (resumePrograms a0 a1 m) := by
  unfold resumePrograms; try dsimp only
  repeat' first | intro _ | with_reducible assumption | with_reducible apply onLge_keeps | with_reducible apply Keeps.ite | split | exact h.of rfl rfl rfl rfl rfl rfl | rfl | exact Nat.le_refl _ | (simp; done)

theorem beginPrograms_keeps {b m} {a0} (h : Keeps b m) : Keeps b (beginPrograms a0 m) := by
  unfold beginPrograms; try dsimp only
  repeat' first | intro _ | with_reducible assumption | with_reducible apply resumePrograms_keeps | with_reducible apply startPrograms_keeps | with_reducible apply Keeps.ite | split | exact h.of rfl rfl rfl rfl rfl rfl | rfl | exact Nat.le_refl _ | (simp; done)

theorem runSlice_keeps {b m} {a0} (h : Keeps b m) : Keeps b (runSlice a0 m) := by
  unfold runSlice; try dsimp only
  repeat' first | intro _ | with_reducible assumption | with_reducible apply addLate_keeps | with_reducible apply baseImage_keeps | with_reducible apply beginPrograms_keeps | with_reducible apply forcePubs_keeps | with_reducible apply onSlice_keeps | with_reducible apply onTwn_keeps | with_reducible apply setSlice_keeps | with_reducible apply when_keeps | with_reducible apply Keeps.ite | split | exact h.of rfl rfl rfl rfl rfl rfl | rfl | exact Nat.le_refl _ | (simp; done)

theorem applyStart_keeps {b m} {a0} (h : Keeps b m) : Keeps b (applyStart a0 m) := by
  unfold applyStart; try dsimp only
  repeat' first | intro _ | with_reducible assumption | with_reducible apply onSlice_keeps | with_reducible apply runSlice_keeps | with_reducible apply Keeps.ite | split | exact h.of rfl rfl rfl rfl rfl rfl | rfl | exact Nat.le_refl _ | (simp; done)

theorem applyStop_keeps {b m} {a0} (h : Keeps b m) : Keeps b (applyStop a0 m) := by
  unfold applyStop; try dsimp only
  repeat' first | intro _ | with_reducible assumption | with_reducible apply onSlice_keeps | with_reducible apply setSlice_keeps | with_reducible apply Keeps.ite | split | exact h.of rfl rfl rfl rfl rfl rfl | rfl | exact Nat.le_refl _ | (simp; done)

theorem applyRemove_keeps {b m} {a0} (h : Keeps b m) : Keeps b (applyRemove a0 m) := by
  unfold applyRemove; try dsimp only
  repeat' first | intro _ | with_reducible assumption | with_reducible apply freeSlice_keeps | with_reducible apply guarantee_keeps | with_reducible apply stateEvent_keeps | with_reducible apply Keeps.ite | split | exact h.of rfl rfl rfl rfl rfl rfl | rfl | exact Nat.le_refl _ | (simp; done)

theorem migrationEvent_keeps {b m} {a0 a1 a2} (h : Keeps b m) : Keeps b (migrationEvent a0 a1 a2 m) := by
  unfold migrationEvent; try dsimp only
  repeat' first | intro _ | with_reducible assumption | with_reducible apply raise_keeps | with_reducible apply Keeps.ite | split | exact h.of rfl rfl rfl rfl rfl rfl | rfl | exact Nat.le_refl _ | (simp; done)

theorem endMigration_keeps {b m} {a0 a1} (h : Keeps b m) : Keeps b (endMigration a0 a1 m) := by
  unfold endMigration; try dsimp only
  repeat' first | intro _ | with_reducible assumption | with_reducible apply dropFills_keeps | with_reducible apply migrationEvent_keeps | with_reducible apply onSlice_keeps | with_reducible apply Keeps.ite | split | exact h.of rfl rfl rfl rfl rfl rfl | rfl | exact Nat.le_refl _ | (simp; done)

theorem bounceBox_keeps {b m} {a0} (h : Keeps b m) : Keeps b (bounceBox a0 m) := by
  unfold bounceBox; try dsimp only
  repeat' first | intro _ | with_reducible assumption | with_reducible apply onMbx_keeps | with_reducible apply respond_keeps | with_reducible apply Keeps.ite | split | exact h.of rfl rfl rfl rfl rfl rfl | rfl | exact Nat.le_refl _ | (simp; done)

theorem clearPairs_keeps {b m} {a0} (h : Keeps b m) : Keeps b (clearPairs a0 m) := by
  unfold clearPairs; try dsimp only
  repeat' first | intro _ | with_reducible assumption | with_reducible apply onCpu_keeps | with_reducible apply onEvr_keeps | with_reducible apply onSig_keeps | with_reducible apply Keeps.ite | split | exact h.of rfl rfl rfl rfl rfl rfl | rfl | exact Nat.le_refl _ | (simp; done)

theorem beginReset_keeps {b m} {a0 a1 a2} (h : Keeps b m) : Keeps b (beginReset a0 a1 a2 m) := by
  unfold beginReset; try dsimp only
  repeat' first | intro _ | with_reducible assumption | with_reducible apply bounceBox_keeps | with_reducible apply clearPairs_keeps | with_reducible apply discardAtReset_keeps | with_reducible apply endMigration_keeps | with_reducible apply onSlice_keeps | with_reducible apply setSlice_keeps | with_reducible apply withdrawItems_keeps | with_reducible apply Keeps.ite | split | exact h.of rfl rfl rfl rfl rfl rfl | rfl | exact Nat.le_refl _ | (simp; done)

theorem beginReload_keeps {b m} {a0} (h : Keeps b m) : Keeps b (beginReload a0 m) := by
  unfold beginReload; try dsimp only
  repeat' first | intro _ | with_reducible assumption | with_reducible apply clearForces_keeps | with_reducible apply forEach_keeps | with_reducible apply forcePubs_keeps | with_reducible apply queueFill_keeps | with_reducible apply Keeps.ite | split | exact h.of rfl rfl rfl rfl rfl rfl | rfl | exact Nat.le_refl _ | (simp; done)

theorem memoryReset_keeps {b m} {a0} (h : Keeps b m) : Keeps b (memoryReset a0 m) := by
  unfold memoryReset; try dsimp only
  repeat' first | intro _ | with_reducible assumption | with_reducible apply onDom_keeps | with_reducible apply Keeps.ite | split | exact h.of rfl rfl rfl rfl rfl rfl | rfl | exact Nat.le_refl _ | (simp; done)

theorem completeReset_keeps {b m} {a0} (h : Keeps b m) : Keeps b (completeReset a0 m) := by
  unfold completeReset; try dsimp only
  repeat' first | intro _ | with_reducible assumption | with_reducible apply beginReload_keeps | with_reducible apply dropLatches_keeps | with_reducible apply forEach_keeps | with_reducible apply memoryReset_keeps | with_reducible apply onSlice_keeps | with_reducible apply raise_keeps | with_reducible apply resetRings_keeps | with_reducible apply respond_keeps | with_reducible apply returnWhere_keeps | with_reducible apply Keeps.ite | split | exact h.of rfl rfl rfl rfl rfl rfl | rfl | exact Nat.le_refl _ | (simp; done)

theorem execSliceResetComplete_keeps {b s t} {a0} (h : Keeps b s.m) (e : execSliceResetComplete a0 s = .next t) : Keeps b t.m := by
  unfold execSliceResetComplete at e; refine runOn_keeps ?_ e; try dsimp only
  repeat' first | intro _ | with_reducible assumption | with_reducible apply completeReset_keeps | with_reducible apply Keeps.ite | with_reducible apply id_keeps | split | exact h.of rfl rfl rfl rfl rfl rfl | rfl | exact Nat.le_refl _ | (simp; done)

theorem applyReset_keeps {b m} {a0 a1 a2 a3} (h : Keeps b m) : Keeps b (applyReset a0 a1 a2 a3 m) := by
  unfold applyReset; try dsimp only
  repeat' first | intro _ | with_reducible assumption | with_reducible apply beginReset_keeps | with_reducible apply forEach_keeps | with_reducible apply onSlice_keeps | with_reducible apply respond_keeps | with_reducible apply Keeps.ite | split | exact h.of rfl rfl rfl rfl rfl rfl | rfl | exact Nat.le_refl _ | (simp; done)

theorem execSliceFillComplete_keeps {b s t} (h : Keeps b s.m) (e : execSliceFillComplete s = .next t) : Keeps b t.m := by
  unfold execSliceFillComplete at e; refine runOn_keeps ?_ e; try dsimp only
  repeat' first | intro _ | with_reducible assumption | with_reducible apply advanceTo_keeps | with_reducible apply copyImage_keeps | with_reducible apply fillRegions_keeps | with_reducible apply onCpu_keeps | with_reducible apply onSlice_keeps | with_reducible apply raise_keeps | with_reducible apply startFill_keeps | with_reducible apply Keeps.ite | with_reducible apply id_keeps | split | exact h.of rfl rfl rfl rfl rfl rfl | rfl | exact Nat.le_refl _ | (simp; done)

theorem migrationPassed_keeps {b m} {a0} (h : Keeps b m) : Keeps b (migrationPassed a0 m) := by
  unfold migrationPassed; try dsimp only
  repeat' first | intro _ | with_reducible assumption | with_reducible apply endMigration_keeps | with_reducible apply onSlice_keeps | with_reducible apply Keeps.ite | split | exact h.of rfl rfl rfl rfl rfl rfl | rfl | exact Nat.le_refl _ | (simp; done)

theorem sliceBoundary_keeps {b m} {a0} (h : Keeps b m) : Keeps b (sliceBoundary a0 m) := by
  unfold sliceBoundary; try dsimp only
  repeat' first | intro _ | with_reducible assumption | with_reducible apply beginReset_keeps | with_reducible apply completeReset_keeps | with_reducible apply loadSlice_keeps | with_reducible apply migrationPassed_keeps | with_reducible apply onSlice_keeps | with_reducible apply runSlice_keeps | with_reducible apply Keeps.ite | split | exact h.of rfl rfl rfl rfl rfl rfl | rfl | exact Nat.le_refl _ | (simp; done)

theorem beginMigration_keeps {b m} {a0 a1} (h : Keeps b m) : Keeps b (beginMigration a0 a1 m) := by
  unfold beginMigration; try dsimp only
  repeat' first | intro _ | with_reducible assumption | with_reducible apply onSlice_keeps | with_reducible apply queueFill_keeps | with_reducible apply Keeps.ite | split | exact h.of rfl rfl rfl rfl rfl rfl | rfl | exact Nat.le_refl _ | (simp; done)

theorem execHueMigrationSwitch_keeps {b s t} {a0} (h : Keeps b s.m) (e : execHueMigrationSwitch a0 s = .next t) : Keeps b t.m := by
  unfold execHueMigrationSwitch at e; refine runOn_keeps ?_ e; try dsimp only
  repeat' first | intro _ | with_reducible assumption | with_reducible apply guarantee_keeps | with_reducible apply journalAdd_keeps | with_reducible apply migrationEvent_keeps | with_reducible apply onSlice_keeps | with_reducible apply Keeps.ite | with_reducible apply id_keeps | split | exact h.of rfl rfl rfl rfl rfl rfl | rfl | exact Nat.le_refl _ | (simp; done)

theorem applyRegion_keeps {b m} {a0} (h : Keeps b m) : Keeps b (applyRegion a0 m) := by
  unfold applyRegion; dsimp only
  split
  · exact h
  · refine onSlice_keeps (onMem_keeps h fun hm => ?_)
    split
    · exact foldZero_wf _ _ _ _ (memZero_wf _ _ _ hm)
    · exact memZero_wf _ _ _ hm

theorem applyRingAssign_keeps {b m} {a0} (h : Keeps b m) : Keeps b (applyRingAssign a0 m) := by
  unfold applyRingAssign; try dsimp only
  repeat' first | intro _ | with_reducible assumption | with_reducible apply assignRing_keeps | with_reducible apply Keeps.ite | split | exact h.of rfl rfl rfl rfl rfl rfl | rfl | exact Nat.le_refl _ | (simp; done)

theorem applyRingRelease_keeps {b m} {a0} (h : Keeps b m) : Keeps b (applyRingRelease a0 m) := by
  unfold applyRingRelease; try dsimp only
  repeat' first | intro _ | with_reducible assumption | with_reducible apply releaseRing_keeps | with_reducible apply Keeps.ite | split | exact h.of rfl rfl rfl rfl rfl rfl | rfl | exact Nat.le_refl _ | (simp; done)

theorem applyShare_keeps {b m} {a0} (h : Keeps b m) : Keeps b (applyShare a0 m) := by
  unfold applyShare; try dsimp only
  repeat' first | intro _ | with_reducible assumption | with_reducible apply onSlice_keeps | with_reducible apply partition_keeps | with_reducible apply Keeps.ite | split | exact h.of rfl rfl rfl rfl rfl rfl | rfl | exact Nat.le_refl _ | (simp; done)

theorem applyReady_keeps {b m} {a0} (h : Keeps b m) : Keeps b (applyReady a0 m) := by
  unfold applyReady; try dsimp only
  repeat' first | intro _ | with_reducible assumption | with_reducible apply onSlice_keeps | with_reducible apply Keeps.ite | split | exact h.of rfl rfl rfl rfl rfl rfl | rfl | exact Nat.le_refl _ | (simp; done)

theorem applyResource_keeps {b m} {a0} (h : Keeps b m) : Keeps b (applyResource a0 m) := by
  unfold applyResource
  generalize rd 1 a0 1 = k
  rcases k with _ | _ | _ | _ | _ | _ | _ | k
  · exact h
  · exact h
  · exact applyRegion_keeps h
  · exact applyRingAssign_keeps h
  · exact applyRingRelease_keeps h
  · exact applyShare_keeps h
  · exact applyReady_keeps h
  · exact h

theorem applySubList_keeps {b m} {a0} (h : Keeps b m) : Keeps b (applySubList a0 m) := by
  unfold applySubList; try dsimp only
  repeat' first | intro _ | with_reducible assumption | with_reducible apply onSlice_keeps | with_reducible apply Keeps.ite | split | exact h.of rfl rfl rfl rfl rfl rfl | rfl | exact Nat.le_refl _ | (simp; done)

theorem applyRights_keeps {b m} {a0} (h : Keeps b m) : Keeps b (applyRights a0 m) := by
  unfold applyRights; try dsimp only
  repeat' first | intro _ | with_reducible assumption | with_reducible apply onSlice_keeps | with_reducible apply Keeps.ite | split | exact h.of rfl rfl rfl rfl rfl rfl | rfl | exact Nat.le_refl _ | (simp; done)

theorem applyMemRelease_keeps {b m} {a0 a1} (h : Keeps b m) : Keeps b (applyMemRelease a0 a1 m) := by
  unfold applyMemRelease; try dsimp only
  repeat' first | intro _ | with_reducible assumption | with_reducible apply onSlice_keeps | with_reducible apply Keeps.ite | split | exact h.of rfl rfl rfl rfl rfl rfl | rfl | exact Nat.le_refl _ | (simp; done)

theorem execSlcStatus_keeps {b s t} {a0 a1} (h : Keeps b s.m) (e : execSlcStatus a0 a1 s = .next t) : Keeps b t.m := by
  unfold execSlcStatus at e; refine runOn_keeps ?_ e; try dsimp only
  repeat' first | intro _ | with_reducible assumption | with_reducible apply onSlice_keeps | with_reducible apply runRead_keeps | with_reducible apply when_keeps | with_reducible apply Keeps.ite | with_reducible apply id_keeps | split | exact h.of rfl rfl rfl rfl rfl rfl | rfl | exact Nat.le_refl _ | (simp; done)

end Sys2Proof.Machine
end

