-- ==== Sys2Proof/Laws/KeepsEng.lean ====
section
/-! SUPPORT. What every operation and every command of Machine/Eng keeps (Keeps, Laws/Keeps). -/
namespace Sys2Proof.Machine
set_option linter.all false
open Sys2Proof

theorem onMeter_keeps {b m} {a0 a1} (h : Keeps b m) : Keeps b (onMeter a0 a1 m) := by
  unfold onMeter; try dsimp only
  repeat' first | intro _ | with_reducible assumption | with_reducible apply onEng_keeps | with_reducible apply Keeps.ite | split | exact h.of rfl rfl rfl rfl rfl rfl | rfl | exact Nat.le_refl _ | (simp; done)

theorem meterCount_keeps {b m} {a0 a1 a2} (h : Keeps b m) : Keeps b (meterCount a0 a1 a2 m) := by
  unfold meterCount; try dsimp only
  repeat' first | intro _ | with_reducible assumption | with_reducible apply onMeter_keeps | with_reducible apply Keeps.ite | split | exact h.of rfl rfl rfl rfl rfl rfl | rfl | exact Nat.le_refl _ | (simp; done)

theorem seqChange_keeps {b m} {a0 a1} (h : Keeps b m) : Keeps b (seqChange a0 a1 m) := by
  unfold seqChange; try dsimp only
  repeat' first | intro _ | with_reducible assumption | with_reducible apply onMeter_keeps | with_reducible apply raise_keeps | with_reducible apply Keeps.ite | split | exact h.of rfl rfl rfl rfl rfl rfl | rfl | exact Nat.le_refl _ | (simp; done)

theorem neutChange_keeps {b m} {a0 a1} (h : Keeps b m) : Keeps b (neutChange a0 a1 m) := by
  unfold neutChange; try dsimp only
  repeat' first | intro _ | with_reducible assumption | with_reducible apply onMeter_keeps | with_reducible apply raise_keeps | with_reducible apply Keeps.ite | split | exact h.of rfl rfl rfl rfl rfl rfl | rfl | exact Nat.le_refl _ | (simp; done)

theorem supervise_keeps {b m} {a0 a1} (h : Keeps b m) : Keeps b (supervise a0 a1 m) := by
  unfold supervise; try dsimp only
  repeat' first | intro _ | with_reducible assumption | with_reducible apply neutChange_keeps | with_reducible apply onMeter_keeps | with_reducible apply seqChange_keeps | with_reducible apply Keeps.ite | split | exact h.of rfl rfl rfl rfl rfl rfl | rfl | exact Nat.le_refl _ | (simp; done)

theorem execPhaseSequenceChange_keeps {b s t} {a0} (h : Keeps b s.m) (e : execPhaseSequenceChange a0 s = .next t) : Keeps b t.m := by
  unfold execPhaseSequenceChange at e; refine runOn_keeps ?_ e; try dsimp only
  repeat' first | intro _ | with_reducible assumption | with_reducible apply seqChange_keeps | with_reducible apply Keeps.ite | with_reducible apply id_keeps | split | exact h.of rfl rfl rfl rfl rfl rfl | rfl | exact Nat.le_refl _ | (simp; done)

theorem execMissingNeutralChange_keeps {b s t} {a0} (h : Keeps b s.m) (e : execMissingNeutralChange a0 s = .next t) : Keeps b t.m := by
  unfold execMissingNeutralChange at e; refine runOn_keeps ?_ e; try dsimp only
  repeat' first | intro _ | with_reducible assumption | with_reducible apply neutChange_keeps | with_reducible apply Keeps.ite | with_reducible apply id_keeps | split | exact h.of rfl rfl rfl rfl rfl rfl | rfl | exact Nat.le_refl _ | (simp; done)

theorem addReg_keeps {b m} {a0 a1 a2} (h : Keeps b m) : Keeps b (addReg a0 a1 a2 m) := by
  unfold addReg; try dsimp only
  repeat' first | intro _ | with_reducible assumption | with_reducible apply meterCount_keeps | with_reducible apply onMeter_keeps | with_reducible apply raise_keeps | with_reducible apply Keeps.ite | split | exact h.of rfl rfl rfl rfl rfl rfl | rfl | exact Nat.le_refl _ | (simp; done)

theorem onOut_keeps {b m} {a0 a1} (h : Keeps b m) : Keeps b (onOut a0 a1 m) := by
  unfold onOut; try dsimp only
  repeat' first | intro _ | with_reducible assumption | with_reducible apply onEng_keeps | with_reducible apply Keeps.ite | split | exact h.of rfl rfl rfl rfl rfl rfl | rfl | exact Nat.le_refl _ | (simp; done)

theorem pendPulse_keeps {b m} {a0 a1 a2} (h : Keeps b m) : Keeps b (pendPulse a0 a1 a2 m) := by
  unfold pendPulse; try dsimp only
  repeat' first | intro _ | with_reducible assumption | with_reducible apply onOut_keeps | with_reducible apply raise_keeps | with_reducible apply Keeps.ite | split | exact h.of rfl rfl rfl rfl rfl rfl | rfl | exact Nat.le_refl _ | (simp; done)

theorem feedOut_keeps {b m} {a0 a1 a2 a3} (h : Keeps b m) : Keeps b (feedOut a0 a1 a2 a3 m) := by
  unfold feedOut; try dsimp only
  repeat' first | intro _ | with_reducible assumption | with_reducible apply forEach_keeps | with_reducible apply onOut_keeps | with_reducible apply pendPulse_keeps | with_reducible apply Keeps.ite | split | exact h.of rfl rfl rfl rfl rfl rfl | rfl | exact Nat.le_refl _ | (simp; done)

theorem takeInc_keeps {b m} {a0 a1 a2 a3} (h : Keeps b m) : Keeps b (takeInc a0 a1 a2 a3 m) := by
  unfold takeInc; try dsimp only
  repeat' first | intro _ | with_reducible assumption | with_reducible apply addReg_keeps | with_reducible apply feedOut_keeps | with_reducible apply forEach_keeps | with_reducible apply Keeps.ite | split | exact h.of rfl rfl rfl rfl rfl rfl | rfl | exact Nat.le_refl _ | (simp; done)

theorem applyInc_keeps {b m} {a0 a1} (h : Keeps b m) : Keeps b (applyInc a0 a1 m) := by
  unfold applyInc; try dsimp only
  repeat' first | intro _ | with_reducible assumption | with_reducible apply meterCount_keeps | with_reducible apply onMeter_keeps | with_reducible apply raise_keeps | with_reducible apply takeInc_keeps | with_reducible apply Keeps.ite | split | exact h.of rfl rfl rfl rfl rfl rfl | rfl | exact Nat.le_refl _ | (simp; done)

theorem endOutage_keeps {b m} {a0} (h : Keeps b m) : Keeps b (endOutage a0 m) := by
  unfold endOutage; try dsimp only
  repeat' first | intro _ | with_reducible assumption | with_reducible apply forEach_keeps | with_reducible apply meterCount_keeps | with_reducible apply onEng_keeps | with_reducible apply Keeps.ite | split | exact h.of rfl rfl rfl rfl rfl rfl | rfl | exact Nat.le_refl _ | (simp; done)

theorem keepPast_keeps {b m} {a0} (h : Keeps b m) : Keeps b (keepPast a0 m) := by
  unfold keepPast; try dsimp only
  repeat' first | intro _ | with_reducible assumption | with_reducible apply onEng_keeps | with_reducible apply Keeps.ite | split | exact h.of rfl rfl rfl rfl rfl rfl | rfl | exact Nat.le_refl _ | (simp; done)

theorem applyBatch_keeps {b m} {a0} (h : Keeps b m) : Keeps b (applyBatch a0 m) := by
  unfold applyBatch; try dsimp only
  repeat' first | intro _ | with_reducible assumption | with_reducible apply applyInc_keeps | with_reducible apply endOutage_keeps | with_reducible apply forEach_keeps | with_reducible apply keepPast_keeps | with_reducible apply onEng_keeps | with_reducible apply Keeps.ite | split | exact h.of rfl rfl rfl rfl rfl rfl | rfl | exact Nat.le_refl _ | (simp; done)

theorem applyIncs_keeps {b m} (h : Keeps b m) : Keeps b (applyIncs m) := by
  unfold applyIncs; try dsimp only
  repeat' first | intro _ | with_reducible assumption | with_reducible apply applyBatch_keeps | with_reducible apply onEng_keeps | with_reducible apply Keeps.ite | split | exact h.of rfl rfl rfl rfl rfl rfl | rfl | exact Nat.le_refl _ | (simp; done)

theorem execEnergyIncrementApply_keeps {b s t} (h : Keeps b s.m) (e : execEnergyIncrementApply s = .next t) : Keeps b t.m := by
  unfold execEnergyIncrementApply at e; refine runOn_keeps ?_ e; try dsimp only
  repeat' first | intro _ | with_reducible assumption | with_reducible apply applyIncs_keeps | with_reducible apply Keeps.ite | with_reducible apply id_keeps | split | exact h.of rfl rfl rfl rfl rfl rfl | rfl | exact Nat.le_refl _ | (simp; done)

theorem presetReg_keeps {b m} {a0 a1 a2 a3} (h : Keeps b m) : Keeps b (presetReg a0 a1 a2 a3 m) := by
  unfold presetReg; try dsimp only
  repeat' first | intro _ | with_reducible assumption | with_reducible apply onMeter_keeps | with_reducible apply raise_keeps | with_reducible apply Keeps.ite | split | exact h.of rfl rfl rfl rfl rfl rfl | rfl | exact Nat.le_refl _ | (simp; done)

theorem putMeter_keeps {b m} {a0 a1} (h : Keeps b m) : Keeps b (putMeter a0 a1 m) := by
  unfold putMeter; try dsimp only
  repeat' first | intro _ | with_reducible assumption | with_reducible apply onMeter_keeps | with_reducible apply raise_keeps | with_reducible apply Keeps.ite | split | exact h.of rfl rfl rfl rfl rfl rfl | rfl | exact Nat.le_refl _ | (simp; done)

theorem putOut_keeps {b m} {a0 a1} (h : Keeps b m) : Keeps b (putOut a0 a1 m) := by
  unfold putOut; try dsimp only
  repeat' first | intro _ | with_reducible assumption | with_reducible apply onOut_keeps | with_reducible apply Keeps.ite | split | exact h.of rfl rfl rfl rfl rfl rfl | rfl | exact Nat.le_refl _ | (simp; done)

theorem putDue_keeps {b m} {a0} (h : Keeps b m) : Keeps b (putDue a0 m) := by
  unfold putDue; try dsimp only
  repeat' first | intro _ | with_reducible assumption | with_reducible apply presetReg_keeps | with_reducible apply putMeter_keeps | with_reducible apply putOut_keeps | with_reducible apply Keeps.ite | split | exact h.of rfl rfl rfl rfl rfl rfl | rfl | exact Nat.le_refl _ | (simp; done)

theorem engChange_keeps {b m} {a0} (h : Keeps b m) : Keeps b (engChange a0 m) := by
  unfold engChange; try dsimp only
  repeat' first | intro _ | with_reducible assumption | with_reducible apply onEng_keeps | with_reducible apply putDue_keeps | with_reducible apply Keeps.ite | split | exact h.of rfl rfl rfl rfl rfl rfl | rfl | exact Nat.le_refl _ | (simp; done)

theorem energyTick_keeps {b m} {a0 a1} (h : Keeps b m) : Keeps b (energyTick a0 a1 m) := by
  unfold energyTick
  extract_lets m1 due m2 m3 on incs m4 m5 bt
  have k1 : Keeps b m1 := forEach_keeps h fun a x hx => applyIncs_keeps hx
  have k2 : Keeps b m2 := forEach_keeps (onEng_keeps k1) fun a x hx => putDue_keeps hx
  have k3 : Keeps b m3 := Keeps.ite (onEng_keeps k2) k2
  have k4 : Keeps b m4 := Keeps.ite k3 (k3.of rfl rfl rfl rfl rfl rfl)
  have k5 : Keeps b m5 := forEach_keeps k4 fun a x hx => supervise_keeps hx
  exact onEng_keeps k5

theorem startPulse_keeps {b m} {a0} (h : Keeps b m) : Keeps b (startPulse a0 m) := by
  unfold startPulse; try dsimp only
  repeat' first | intro _ | with_reducible assumption | with_reducible apply onOut_keeps | with_reducible apply Keeps.ite | split | exact h.of rfl rfl rfl rfl rfl rfl | rfl | exact Nat.le_refl _ | (simp; done)

theorem outBoundary_keeps {b m} {a0} (h : Keeps b m) : Keeps b (outBoundary a0 m) := by
  unfold outBoundary; try dsimp only
  repeat' first | intro _ | with_reducible assumption | with_reducible apply onOut_keeps | with_reducible apply startPulse_keeps | with_reducible apply Keeps.ite | split | exact h.of rfl rfl rfl rfl rfl rfl | rfl | exact Nat.le_refl _ | (simp; done)

theorem outsBoundary_keeps {b m} (h : Keeps b m) : Keeps b (outsBoundary m) := by
  unfold outsBoundary; try dsimp only
  repeat' first | intro _ | with_reducible assumption | with_reducible apply forEach_keeps | with_reducible apply outBoundary_keeps | with_reducible apply Keeps.ite | split | exact h.of rfl rfl rfl rfl rfl rfl | rfl | exact Nat.le_refl _ | (simp; done)

theorem execPulseOutStart_keeps {b s t} {a0} (h : Keeps b s.m) (e : execPulseOutStart a0 s = .next t) : Keeps b t.m := by
  unfold execPulseOutStart at e; refine runOn_keeps ?_ e; try dsimp only
  repeat' first | intro _ | with_reducible assumption | with_reducible apply startPulse_keeps | with_reducible apply Keeps.ite | with_reducible apply id_keeps | split | exact h.of rfl rfl rfl rfl rfl rfl | rfl | exact Nat.le_refl _ | (simp; done)

theorem execPulseOutEnd_keeps {b s t} {a0} (h : Keeps b s.m) (e : execPulseOutEnd a0 s = .next t) : Keeps b t.m := by
  unfold execPulseOutEnd at e; refine runOn_keeps ?_ e; try dsimp only
  repeat' first | intro _ | with_reducible assumption | with_reducible apply onOut_keeps | with_reducible apply Keeps.ite | with_reducible apply id_keeps | split | exact h.of rfl rfl rfl rfl rfl rfl | rfl | exact Nat.le_refl _ | (simp; done)

theorem onIn_keeps {b m} {a0 a1} (h : Keeps b m) : Keeps b (onIn a0 a1 m) := by
  unfold onIn; try dsimp only
  repeat' first | intro _ | with_reducible assumption | with_reducible apply onEng_keeps | with_reducible apply Keeps.ite | split | exact h.of rfl rfl rfl rfl rfl rfl | rfl | exact Nat.le_refl _ | (simp; done)

theorem execPulseInEdge_keeps {b s t} {a0} (h : Keeps b s.m) (e : execPulseInEdge a0 s = .next t) : Keeps b t.m := by
  unfold execPulseInEdge at e; refine runOn_keeps ?_ e; try dsimp only
  repeat' first | intro _ | with_reducible assumption | with_reducible apply onIn_keeps | with_reducible apply Keeps.ite | with_reducible apply id_keeps | split | exact h.of rfl rfl rfl rfl rfl rfl | rfl | exact Nat.le_refl _ | (simp; done)

theorem writeSave_keeps {b m} {a0} (h : Keeps b m) : Keeps b (writeSave a0 m) := by
  unfold writeSave; try dsimp only
  repeat' first | intro _ | with_reducible assumption | with_reducible apply onEng_keeps | with_reducible apply Keeps.ite | split | exact h.of rfl rfl rfl rfl rfl rfl | rfl | exact Nat.le_refl _ | (simp; done)

theorem reachTime_keeps {b m} {a0} (h : Keeps b m) : Keeps b (reachTime a0 m) := by
  unfold reachTime; dsimp only
  split
  · exact advanceTo_keeps h
  · exact h.trans ⟨id, id, id, fun k c hc => k c hc, id, id, rfl, rfl, .refl _, Nat.le_refl _, Nat.le_add_right _ _⟩

theorem saveRetained_keeps {b m} (h : Keeps b m) : Keeps b (saveRetained m) := by
  unfold saveRetained; try dsimp only
  repeat' first | intro _ | with_reducible assumption | with_reducible apply onLge_keeps | with_reducible apply Keeps.ite | split | exact h.of rfl rfl rfl rfl rfl rfl | rfl | exact Nat.le_refl _ | (simp; done)

theorem saveNums_keeps {b m} (h : Keeps b m) : Keeps b (saveNums m) := by
  unfold saveNums; try dsimp only
  repeat' first | intro _ | with_reducible assumption | with_reducible apply onSig_keeps | with_reducible apply Keeps.ite | split | exact h.of rfl rfl rfl rfl rfl rfl | rfl | exact Nat.le_refl _ | (simp; done)

theorem saveRtc_keeps {b m} (h : Keeps b m) : Keeps b (saveRtc m) := by
  unfold saveRtc; try dsimp only
  repeat' first | intro _ | with_reducible assumption | with_reducible apply onTime_keeps | with_reducible apply Keeps.ite | split | exact h.of rfl rfl rfl rfl rfl rfl | rfl | exact Nat.le_refl _ | (simp; done)

theorem saveEnergy_keeps {b m} {a0} (h : Keeps b m) : Keeps b (saveEnergy a0 m) := by
  unfold saveEnergy; try dsimp only
  repeat' first | intro _ | with_reducible assumption | with_reducible apply onUmb_keeps | with_reducible apply writeSave_keeps | with_reducible apply Keeps.ite | split | exact h.of rfl rfl rfl rfl rfl rfl | rfl | exact Nat.le_refl _ | (simp; done)

theorem periodicSave_keeps {b m} (h : Keeps b m) : Keeps b (periodicSave m) := by
  unfold periodicSave; try dsimp only
  repeat' first | intro _ | with_reducible assumption | with_reducible apply onTwn_keeps | with_reducible apply saveEnergy_keeps | with_reducible apply saveNums_keeps | with_reducible apply saveRetained_keeps | with_reducible apply saveRtc_keeps | with_reducible apply Keeps.ite | split | exact h.of rfl rfl rfl rfl rfl rfl | rfl | exact Nat.le_refl _ | (simp; done)

theorem execPeriodicSave_keeps {b s t} (h : Keeps b s.m) (e : execPeriodicSave s = .next t) : Keeps b t.m := by
  unfold execPeriodicSave at e; refine runOn_keeps ?_ e; try dsimp only
  repeat' first | intro _ | with_reducible assumption | with_reducible apply periodicSave_keeps | with_reducible apply reachTime_keeps | with_reducible apply Keeps.ite | with_reducible apply id_keeps | split | exact h.of rfl rfl rfl rfl rfl rfl | rfl | exact Nat.le_refl _ | (simp; done)

theorem gapEvent_keeps {b m} (h : Keeps b m) : Keeps b (gapEvent m) := by
  unfold gapEvent; try dsimp only
  repeat' first | intro _ | with_reducible assumption | with_reducible apply raise_keeps | with_reducible apply Keeps.ite | split | exact h.of rfl rfl rfl rfl rfl rfl | rfl | exact Nat.le_refl _ | (simp; done)

theorem gapKept_keeps {b m} (h : Keeps b m) : Keeps b (gapKept m) := by
  unfold gapKept; try dsimp only
  repeat' first | intro _ | with_reducible assumption | with_reducible apply gapEvent_keeps | with_reducible apply onEng_keeps | with_reducible apply Keeps.ite | split | exact h.of rfl rfl rfl rfl rfl rfl | rfl | exact Nat.le_refl _ | (simp; done)

theorem restoreEnergy_keeps {b m} (h : Keeps b m) : Keeps b (restoreEnergy m) := by
  unfold restoreEnergy; try dsimp only
  repeat' first | intro _ | with_reducible assumption | with_reducible apply forEach_keeps | with_reducible apply gapEvent_keeps | with_reducible apply onEng_keeps | with_reducible apply raise_keeps | with_reducible apply Keeps.ite | split | exact h.of rfl rfl rfl rfl rfl rfl | rfl | exact Nat.le_refl _ | (simp; done)

theorem applyPointSet_keeps {b m} {a0} (h : Keeps b m) : Keeps b (applyPointSet a0 m) := by
  unfold applyPointSet; try dsimp only
  repeat' first | intro _ | with_reducible assumption | with_reducible apply engChange_keeps | with_reducible apply Keeps.ite | split | exact h.of rfl rfl rfl rfl rfl rfl | rfl | exact Nat.le_refl _ | (simp; done)

theorem applyPulseOut_keeps {b m} {a0} (h : Keeps b m) : Keeps b (applyPulseOut a0 m) := by
  unfold applyPulseOut; try dsimp only
  repeat' first | intro _ | with_reducible assumption | with_reducible apply engChange_keeps | with_reducible apply Keeps.ite | split | exact h.of rfl rfl rfl rfl rfl rfl | rfl | exact Nat.le_refl _ | (simp; done)

theorem applyPulseIn_keeps {b m} {a0} (h : Keeps b m) : Keeps b (applyPulseIn a0 m) := by
  unfold applyPulseIn; try dsimp only
  repeat' first | intro _ | with_reducible assumption | with_reducible apply onIn_keeps | with_reducible apply Keeps.ite | split | exact h.of rfl rfl rfl rfl rfl rfl | rfl | exact Nat.le_refl _ | (simp; done)

theorem applyPreset_keeps {b m} {a0} (h : Keeps b m) : Keeps b (applyPreset a0 m) := by
  unfold applyPreset; try dsimp only
  repeat' first | intro _ | with_reducible assumption | with_reducible apply engChange_keeps | with_reducible apply onIn_keeps | with_reducible apply raise_keeps | with_reducible apply Keeps.ite | split | exact h.of rfl rfl rfl rfl rfl rfl | rfl | exact Nat.le_refl _ | (simp; done)

theorem execEngRead_keeps {b s t} {a0 a1} (h : Keeps b s.m) (e : execEngRead a0 a1 s = .next t) : Keeps b t.m := by
  unfold execEngRead at e; refine runOn_keeps ?_ e; try dsimp only
  repeat' first | intro _ | with_reducible assumption | with_reducible apply onMeter_keeps | with_reducible apply runRead_keeps | with_reducible apply when_keeps | with_reducible apply Keeps.ite | with_reducible apply id_keeps | split | exact h.of rfl rfl rfl rfl rfl rfl | rfl | exact Nat.le_refl _ | (simp; done)

theorem execEngIoRead_keeps {b s t} {a0 a1} (h : Keeps b s.m) (e : execEngIoRead a0 a1 s = .next t) : Keeps b t.m := by
  unfold execEngIoRead at e; refine runOn_keeps ?_ e; try dsimp only
  repeat' first | intro _ | with_reducible assumption | with_reducible apply runRead_keeps | with_reducible apply Keeps.ite | with_reducible apply id_keeps | split | exact h.of rfl rfl rfl rfl rfl rfl | rfl | exact Nat.le_refl _ | (simp; done)

end Sys2Proof.Machine
end

