-- ==== Sys2Proof/Laws/KeepsEvr.lean ====
section
/-! SUPPORT. What every operation and every command of Machine/Evr keeps (Keeps, Laws/Keeps). -/
namespace Sys2Proof.Machine
set_option linter.all false
open Sys2Proof

theorem evrCount_keeps {b m} {a0 a1} (h : Keeps b m) : Keeps b (evrCount a0 a1 m) := by
  unfold evrCount; try dsimp only
  repeat' first | intro _ | with_reducible assumption | with_reducible apply onEvr_keeps | with_reducible apply Keeps.ite | split | exact h.of rfl rfl rfl rfl rfl rfl | rfl | exact Nat.le_refl _ | (simp; done)

theorem enterStaging_keeps {b m} {a0 a1 a2} (h : Keeps b m) : Keeps b (enterStaging a0 a1 a2 m) := by
  unfold enterStaging; try dsimp only
  repeat' first | intro _ | with_reducible assumption | with_reducible apply evrCount_keeps | with_reducible apply onEvr_keeps | with_reducible apply Keeps.ite | split | exact h.of rfl rfl rfl rfl rfl rfl | rfl | exact Nat.le_refl _ | (simp; done)

theorem payLost_keeps {b m} (h : Keeps b m) : Keeps b (payLost m) := by
  unfold payLost; try dsimp only
  repeat' first | intro _ | with_reducible assumption | with_reducible apply enterStaging_keeps | with_reducible apply onEvr_keeps | with_reducible apply Keeps.ite | split | exact h.of rfl rfl rfl rfl rfl rfl | rfl | exact Nat.le_refl _ | (simp; done)

theorem saveRecorder_keeps {b m} (h : Keeps b m) : Keeps b (saveRecorder m) := by
  unfold saveRecorder; try dsimp only
  repeat' first | intro _ | with_reducible assumption | with_reducible apply onEvr_keeps | with_reducible apply Keeps.ite | split | exact h.of rfl rfl rfl rfl rfl rfl | rfl | exact Nat.le_refl _ | (simp; done)

theorem flushStaging_keeps {b m} (h : Keeps b m) : Keeps b (flushStaging m) := by
  unfold flushStaging; try dsimp only
  repeat' first | intro _ | with_reducible assumption | with_reducible apply evrCount_keeps | with_reducible apply onEvr_keeps | with_reducible apply payLost_keeps | with_reducible apply saveRecorder_keeps | with_reducible apply Keeps.ite | split | exact h.of rfl rfl rfl rfl rfl rfl | rfl | exact Nat.le_refl _ | (simp; done)

theorem stageRecord_keeps {b m} {a0 a1 a2} (h : Keeps b m) : Keeps b (stageRecord a0 a1 a2 m) := by
  unfold stageRecord; try dsimp only
  repeat' first | intro _ | with_reducible assumption | with_reducible apply enterStaging_keeps | with_reducible apply evrCount_keeps | with_reducible apply flushStaging_keeps | with_reducible apply onEvr_keeps | with_reducible apply payLost_keeps | with_reducible apply Keeps.ite | split | exact h.of rfl rfl rfl rfl rfl rfl | rfl | exact Nat.le_refl _ | (simp; done)

theorem stageSummary_keeps {b m} {a0} (h : Keeps b m) : Keeps b (stageSummary a0 m) := by
  unfold stageSummary; try dsimp only
  repeat' first | intro _ | with_reducible assumption | with_reducible apply onEvr_keeps | with_reducible apply stageRecord_keeps | with_reducible apply Keeps.ite | split | exact h.of rfl rfl rfl rfl rfl rfl | rfl | exact Nat.le_refl _ | (simp; done)

theorem takeToken_keeps {b m} {a0 a1} (h : Keeps b m) : Keeps b (takeToken a0 a1 m) := by
  unfold takeToken; try dsimp only
  repeat' first | intro _ | with_reducible assumption | with_reducible apply onEvr_keeps | with_reducible apply Keeps.ite | split | exact h.of rfl rfl rfl rfl rfl rfl | rfl | exact Nat.le_refl _ | (simp; done)

theorem arrive_keeps {b m} {a0} (h : Keeps b m) : Keeps b (arrive a0 m) := by
  unfold arrive; try dsimp only
  repeat' first | intro _ | with_reducible assumption | with_reducible apply evrCount_keeps | with_reducible apply onEvr_keeps | with_reducible apply payLost_keeps | with_reducible apply stageRecord_keeps | with_reducible apply stageSummary_keeps | with_reducible apply takeToken_keeps | with_reducible apply when_keeps | with_reducible apply Keeps.ite | split | exact h.of rfl rfl rfl rfl rfl rfl | rfl | exact Nat.le_refl _ | (simp; done)

theorem arriveNext_keeps {b m} (h : Keeps b m) : Keeps b (arriveNext m) := by
  unfold arriveNext; try dsimp only
  repeat' first | intro _ | with_reducible assumption | with_reducible apply arrive_keeps | with_reducible apply onEvr_keeps | with_reducible apply Keeps.ite | split | exact h.of rfl rfl rfl rfl rfl rfl | rfl | exact Nat.le_refl _ | (simp; done)

theorem arriveAll_keeps {b m} (h : Keeps b m) : Keeps b (arriveAll m) := by
  unfold arriveAll
  exact forEach_keeps (f := fun _ => arriveNext) h fun a x hx => arriveNext_keeps hx

theorem execEventRecordStage_keeps {b s t} (h : Keeps b s.m) (e : execEventRecordStage s = .next t) : Keeps b t.m := by
  unfold execEventRecordStage at e; refine runOn_keeps ?_ e; try dsimp only
  repeat' first | intro _ | with_reducible assumption | with_reducible apply arriveNext_keeps | with_reducible apply Keeps.ite | with_reducible apply id_keeps | split | exact h.of rfl rfl rfl rfl rfl rfl | rfl | exact Nat.le_refl _ | (simp; done)

theorem execSuppressionSummary_keeps {b s t} {a0} (h : Keeps b s.m) (e : execSuppressionSummary a0 s = .next t) : Keeps b t.m := by
  unfold execSuppressionSummary at e; refine runOn_keeps ?_ e; try dsimp only
  repeat' first | intro _ | with_reducible assumption | with_reducible apply passCycles_keeps | with_reducible apply stageSummary_keeps | with_reducible apply Keeps.ite | with_reducible apply id_keeps | split | exact h.of rfl rfl rfl rfl rfl rfl | rfl | exact Nat.le_refl _ | (simp; done)

theorem execStagingFlush_keeps {b s t} (h : Keeps b s.m) (e : execStagingFlush s = .next t) : Keeps b t.m := by
  unfold execStagingFlush at e; refine runOn_keeps ?_ e; try dsimp only
  repeat' first | intro _ | with_reducible assumption | with_reducible apply flushStaging_keeps | with_reducible apply Keeps.ite | with_reducible apply id_keeps | split | exact h.of rfl rfl rfl rfl rfl rfl | rfl | exact Nat.le_refl _ | (simp; done)

theorem execEventFlashMove_keeps {b s t} {a0} (h : Keeps b s.m) (e : execEventFlashMove a0 s = .next t) : Keeps b t.m := by
  unfold execEventFlashMove at e; refine runOn_keeps ?_ e; try dsimp only
  repeat' first | intro _ | with_reducible assumption | with_reducible apply flushStaging_keeps | with_reducible apply onEvr_keeps | with_reducible apply Keeps.ite | with_reducible apply id_keeps | split | exact h.of rfl rfl rfl rfl rfl rfl | rfl | exact Nat.le_refl _ | (simp; done)

theorem refreshWins_keeps {b m} {a0} (h : Keeps b m) : Keeps b (refreshWins a0 m) := by
  unfold refreshWins; try dsimp only
  repeat' first | intro _ | with_reducible assumption | with_reducible apply onEvr_keeps | with_reducible apply Keeps.ite | split | exact h.of rfl rfl rfl rfl rfl rfl | rfl | exact Nat.le_refl _ | (simp; done)

theorem execEventImageEnter_keeps {b s t} (h : Keeps b s.m) (e : execEventImageEnter s = .next t) : Keeps b t.m := by
  unfold execEventImageEnter at e; refine runOn_keeps ?_ e; try dsimp only
  repeat' first | intro _ | with_reducible assumption | with_reducible apply onEvr_keeps | with_reducible apply refreshWins_keeps | with_reducible apply Keeps.ite | with_reducible apply id_keeps | split | exact h.of rfl rfl rfl rfl rfl rfl | rfl | exact Nat.le_refl _ | (simp; done)

theorem execEvrCursor_keeps {b s t} {a0 a1} (h : Keeps b s.m) (e : execEvrCursor a0 a1 s = .next t) : Keeps b t.m := by
  unfold execEvrCursor at e; refine runOn_keeps ?_ e; try dsimp only
  repeat' first | intro _ | with_reducible assumption | with_reducible apply onEvr_keeps | with_reducible apply Keeps.ite | with_reducible apply id_keeps | split | exact h.of rfl rfl rfl rfl rfl rfl | rfl | exact Nat.le_refl _ | (simp; done)

theorem fillWin_keeps {b m} {a0 a1} (h : Keeps b m) : Keeps b (fillWin a0 a1 m) := by
  unfold fillWin; try dsimp only
  repeat' first | intro _ | with_reducible assumption | with_reducible apply evrCount_keeps | with_reducible apply onEvr_keeps | with_reducible apply Keeps.ite | split | exact h.of rfl rfl rfl rfl rfl rfl | rfl | exact Nat.le_refl _ | (simp; done)

theorem execEvrWindowFillComplete_keeps {b s t} {a0} (h : Keeps b s.m) (e : execEvrWindowFillComplete a0 s = .next t) : Keeps b t.m := by
  unfold execEvrWindowFillComplete at e; refine runOn_keeps ?_ e; try dsimp only
  repeat' first | intro _ | with_reducible assumption | with_reducible apply fillWin_keeps | with_reducible apply Keeps.ite | with_reducible apply id_keeps | split | exact h.of rfl rfl rfl rfl rfl rfl | rfl | exact Nat.le_refl _ | (simp; done)

theorem verifyRecords_keeps {b m} (h : Keeps b m) : Keeps b (verifyRecords m) := by
  unfold verifyRecords; try dsimp only
  repeat' first | intro _ | with_reducible assumption | with_reducible apply evrCount_keeps | with_reducible apply onEvr_keeps | with_reducible apply raise_keeps | with_reducible apply Keeps.ite | split | exact h.of rfl rfl rfl rfl rfl rfl | rfl | exact Nat.le_refl _ | (simp; done)

theorem rebuildImage_keeps {b m} (h : Keeps b m) : Keeps b (rebuildImage m) := by
  unfold rebuildImage; try dsimp only
  repeat' first | intro _ | with_reducible assumption | with_reducible apply onEvr_keeps | with_reducible apply refreshWins_keeps | with_reducible apply Keeps.ite | split | exact h.of rfl rfl rfl rfl rfl rfl | rfl | exact Nat.le_refl _ | (simp; done)

theorem applyClear_keeps {b m} {a0} (h : Keeps b m) : Keeps b (applyClear a0 m) := by
  unfold applyClear; try dsimp only
  repeat' first | intro _ | with_reducible assumption | with_reducible apply enterStaging_keeps | with_reducible apply onEvr_keeps | with_reducible apply payLost_keeps | with_reducible apply refreshWins_keeps | with_reducible apply Keeps.ite | split | exact h.of rfl rfl rfl rfl rfl rfl | rfl | exact Nat.le_refl _ | (simp; done)

theorem execEvrRead_keeps {b s t} {a0 a1} (h : Keeps b s.m) (e : execEvrRead a0 a1 s = .next t) : Keeps b t.m := by
  unfold execEvrRead at e; refine runOn_keeps ?_ e; try dsimp only
  repeat' first | intro _ | with_reducible assumption | with_reducible apply runRead_keeps | with_reducible apply Keeps.ite | with_reducible apply id_keeps | split | exact h.of rfl rfl rfl rfl rfl rfl | rfl | exact Nat.le_refl _ | (simp; done)

theorem applyCodeSet_keeps {b m} {a0} (h : Keeps b m) : Keeps b (applyCodeSet a0 m) := by
  unfold applyCodeSet; try dsimp only
  repeat' first | intro _ | with_reducible assumption | with_reducible apply forEach_keeps | with_reducible apply onEvr_keeps | with_reducible apply stageSummary_keeps | with_reducible apply Keeps.ite | split | exact h.of rfl rfl rfl rfl rfl rfl | rfl | exact Nat.le_refl _ | (simp; done)

theorem execEvrInfo_keeps {b s t} {a0 a1} (h : Keeps b s.m) (e : execEvrInfo a0 a1 s = .next t) : Keeps b t.m := by
  unfold execEvrInfo at e; refine runOn_keeps ?_ e; try dsimp only
  repeat' first | intro _ | with_reducible assumption | with_reducible apply onEvr_keeps | with_reducible apply runRead_keeps | with_reducible apply Keeps.ite | with_reducible apply id_keeps | split | exact h.of rfl rfl rfl rfl rfl rfl | rfl | exact Nat.le_refl _ | (simp; done)

end Sys2Proof.Machine
end

