-- ==== Sys2Proof/Laws/KeepsUmb.lean ====
section
/-! SUPPORT. What every operation and every command of Machine/Umb keeps (Keeps, Laws/Keeps). -/
namespace Sys2Proof.Machine
set_option linter.all false
open Sys2Proof

theorem onStream_keeps {b m} {a0 a1} (h : Keeps b m) : Keeps b (onStream a0 a1 m) := by
  unfold onStream; try dsimp only
  repeat' first | intro _ | with_reducible assumption | with_reducible apply onUmb_keeps | with_reducible apply Keeps.ite | split | exact h.of rfl rfl rfl rfl rfl rfl | rfl | exact Nat.le_refl _ | (simp; done)

theorem onElem_keeps {b m} {a0 a1} (h : Keeps b m) : Keeps b (onElem a0 a1 m) := by
  unfold onElem; try dsimp only
  repeat' first | intro _ | with_reducible assumption | with_reducible apply onUmb_keeps | with_reducible apply Keeps.ite | split | exact h.of rfl rfl rfl rfl rfl rfl | rfl | exact Nat.le_refl _ | (simp; done)

theorem umbCount_keeps {b m} {a0 a1} (h : Keeps b m) : Keeps b (umbCount a0 a1 m) := by
  unfold umbCount; try dsimp only
  repeat' first | intro _ | with_reducible assumption | with_reducible apply onUmb_keeps | with_reducible apply Keeps.ite | split | exact h.of rfl rfl rfl rfl rfl rfl | rfl | exact Nat.le_refl _ | (simp; done)

theorem noteSources_keeps {b m} (h : Keeps b m) : Keeps b (noteSources m) := by
  unfold noteSources; try dsimp only
  repeat' first | intro _ | with_reducible assumption | with_reducible apply onUmb_keeps | with_reducible apply Keeps.ite | split | exact h.of rfl rfl rfl rfl rfl rfl | rfl | exact Nat.le_refl _ | (simp; done)

theorem chooseGroup_keeps {b m} {a0} (h : Keeps b m) : Keeps b (chooseGroup a0 m) := by
  unfold chooseGroup; try dsimp only
  repeat' first | intro _ | with_reducible assumption | with_reducible apply onElem_keeps | with_reducible apply raise_keeps | with_reducible apply umbCount_keeps | with_reducible apply Keeps.ite | split | exact h.of rfl rfl rfl rfl rfl rfl | rfl | exact Nat.le_refl _ | (simp; done)

theorem elemOutput_keeps {b m} {a0 a1} (h : Keeps b m) : Keeps b (elemOutput a0 a1 m) := by
  unfold elemOutput; try dsimp only
  repeat' first | intro _ | with_reducible assumption | with_reducible apply chooseGroup_keeps | with_reducible apply noteSources_keeps | with_reducible apply onElem_keeps | with_reducible apply Keeps.ite | split | exact h.of rfl rfl rfl rfl rfl rfl | rfl | exact Nat.le_refl _ | (simp; done)

theorem tripOut_keeps {b m} {a0} (h : Keeps b m) : Keeps b (tripOut a0 m) := by
  unfold tripOut; try dsimp only
  repeat' first | intro _ | with_reducible assumption | with_reducible apply onUmb_keeps | with_reducible apply raise_keeps | with_reducible apply umbCount_keeps | with_reducible apply Keeps.ite | split | exact h.of rfl rfl rfl rfl rfl rfl | rfl | exact Nat.le_refl _ | (simp; done)

theorem tripsOut_keeps {b m} (h : Keeps b m) : Keeps b (tripsOut m) := by
  unfold tripsOut; try dsimp only
  repeat' first | intro _ | with_reducible assumption | with_reducible apply forEach_keeps | with_reducible apply tripOut_keeps | with_reducible apply Keeps.ite | split | exact h.of rfl rfl rfl rfl rfl rfl | rfl | exact Nat.le_refl _ | (simp; done)

theorem commitUmberBits_keeps {b m} (h : Keeps b m) : Keeps b (commitUmberBits m) := by
  unfold commitUmberBits; try dsimp only
  repeat' first | intro _ | with_reducible assumption | with_reducible apply forEach_keeps | with_reducible apply ownerWrite_keeps | with_reducible apply Keeps.ite | split | exact h.of rfl rfl rfl rfl rfl rfl | rfl | exact Nat.le_refl _ | (simp; done)

theorem onUpub_keeps {b m} {a0 a1} (h : Keeps b m) : Keeps b (onUpub a0 a1 m) := by
  unfold onUpub; try dsimp only
  repeat' first | intro _ | with_reducible assumption | with_reducible apply onUmb_keeps | with_reducible apply Keeps.ite | split | exact h.of rfl rfl rfl rfl rfl rfl | rfl | exact Nat.le_refl _ | (simp; done)

theorem sendUmber_keeps {b m} {a0 a1 a2} (h : Keeps b m) : Keeps b (sendUmber a0 a1 a2 m) := by
  unfold sendUmber; try dsimp only
  repeat' first | intro _ | with_reducible assumption | with_reducible apply macCount_keeps | with_reducible apply onPort_keeps | with_reducible apply sendInner_keeps | with_reducible apply Keeps.ite | split | exact h.of rfl rfl rfl rfl rfl rfl | rfl | exact Nat.le_refl _ | (simp; done)

theorem upubOutput_keeps {b m} {a0} (h : Keeps b m) : Keeps b (upubOutput a0 m) := by
  unfold upubOutput; try dsimp only
  repeat' first | intro _ | with_reducible assumption | with_reducible apply onSig_keeps | with_reducible apply onUpub_keeps | with_reducible apply sendUmber_keeps | with_reducible apply Keeps.ite | split | exact h.of rfl rfl rfl rfl rfl rfl | rfl | exact Nat.le_refl _ | (simp; done)

theorem upubsOutput_keeps {b m} (h : Keeps b m) : Keeps b (upubsOutput m) := by
  unfold upubsOutput; try dsimp only
  repeat' first | intro _ | with_reducible assumption | with_reducible apply forEach_keeps | with_reducible apply upubOutput_keeps | with_reducible apply Keeps.ite | split | exact h.of rfl rfl rfl rfl rfl rfl | rfl | exact Nat.le_refl _ | (simp; done)

theorem upubsAct_keeps {b m} (h : Keeps b m) : Keeps b (upubsAct m) := by
  unfold upubsAct; try dsimp only
  repeat' first | intro _ | with_reducible assumption | with_reducible apply onUmb_keeps | with_reducible apply upubsOutput_keeps | with_reducible apply Keeps.ite | split | exact h.of rfl rfl rfl rfl rfl rfl | rfl | exact Nat.le_refl _ | (simp; done)

theorem upubsQuiet_keeps {b m} (h : Keeps b m) : Keeps b (upubsQuiet m) := by
  unfold upubsQuiet; try dsimp only
  repeat' first | intro _ | with_reducible assumption | with_reducible apply onUmb_keeps | with_reducible apply Keeps.ite | split | exact h.of rfl rfl rfl rfl rfl rfl | rfl | exact Nat.le_refl _ | (simp; done)

theorem execUmberGooseRetransmit_keeps {b s t} {a0} (h : Keeps b s.m) (e : execUmberGooseRetransmit a0 s = .next t) : Keeps b t.m := by
  unfold execUmberGooseRetransmit at e; refine runOn_keeps ?_ e; try dsimp only
  repeat' first | intro _ | with_reducible assumption | with_reducible apply onSig_keeps | with_reducible apply onUpub_keeps | with_reducible apply passCycles_keeps | with_reducible apply sendUmber_keeps | with_reducible apply upubOutput_keeps | with_reducible apply Keeps.ite | with_reducible apply id_keeps | split | exact h.of rfl rfl rfl rfl rfl rfl | rfl | exact Nat.le_refl _ | (simp; done)

theorem execTripOutMinTimeExpire_keeps {b s t} {a0} (h : Keeps b s.m) (e : execTripOutMinTimeExpire a0 s = .next t) : Keeps b t.m := by
  unfold execTripOutMinTimeExpire at e; refine runOn_keeps ?_ e; try dsimp only
  repeat' first | intro _ | with_reducible assumption | with_reducible apply passCycles_keeps | with_reducible apply tripOut_keeps | with_reducible apply Keeps.ite | with_reducible apply id_keeps | split | exact h.of rfl rfl rfl rfl rfl rfl | rfl | exact Nat.le_refl _ | (simp; done)

theorem decide'_keeps {b m} {a0} (h : Keeps b m) : Keeps b (decide' a0 m) := by
  unfold decide'; try dsimp only
  repeat' first | intro _ | with_reducible assumption | with_reducible apply elemOutput_keeps | with_reducible apply forEach_keeps | with_reducible apply noteSources_keeps | with_reducible apply tripsOut_keeps | with_reducible apply upubsOutput_keeps | with_reducible apply Keeps.ite | split | exact h.of rfl rfl rfl rfl rfl rfl | rfl | exact Nat.le_refl _ | (simp; done)

theorem umberOutput_keeps {b m} {a0 a1} (h : Keeps b m) : Keeps b (umberOutput a0 a1 m) := by
  unfold umberOutput; try dsimp only
  repeat' first | intro _ | with_reducible assumption | with_reducible apply decide'_keeps | with_reducible apply onStream_keeps | with_reducible apply Keeps.ite | split | exact h.of rfl rfl rfl rfl rfl rfl | rfl | exact Nat.le_refl _ | (simp; done)

theorem streamValid_keeps {b m} {a0} (h : Keeps b m) : Keeps b (streamValid a0 m) := by
  unfold streamValid; try dsimp only
  repeat' first | intro _ | with_reducible assumption | with_reducible apply onStream_keeps | with_reducible apply raise_keeps | with_reducible apply Keeps.ite | split | exact h.of rfl rfl rfl rfl rfl rfl | rfl | exact Nat.le_refl _ | (simp; done)

theorem acceptUmber_keeps {b m} {a0 a1} (h : Keeps b m) : Keeps b (acceptUmber a0 a1 m).2 := by
  unfold acceptUmber; try dsimp only
  repeat' first | intro _ | with_reducible assumption | with_reducible apply forEach_keeps | with_reducible apply onStream_keeps | with_reducible apply streamValid_keeps | with_reducible apply umbCount_keeps | with_reducible apply umberOutput_keeps | with_reducible apply Keeps.ite | split | exact h.of rfl rfl rfl rfl rfl rfl | rfl | exact Nat.le_refl _ | (simp; done)

theorem takeUmber_keeps {b m} {a0} (h : Keeps b m) : Keeps b (takeUmber a0 m) := by
  have fold : ∀ (g : Asdu → Mach → Bool × Mach), (∀ a y, Keeps b y → Keeps b (g a y).2) → ∀ (l : List Asdu) (x : Bool × Mach), Keeps b x.2 →
      Keeps b (l.foldl (fun (b : Bool × Mach) a => (b.1 && (g a b.2).1, (g a b.2).2)) x).2 := by
    intro g hg l
    induction l with
    | nil => exact fun x hx => hx
    | cons a r ih => exact fun x hx => ih _ (hg a _ hx)
  unfold takeUmber; dsimp only
  split
  · split
    · exact h
    · rename_i x _
      have one : ∀ (i : Nat) a y, Keeps b y → Keeps b (if umberAsduOk m.umb.f0 x.cfg a = true then acceptUmber i a y else (false, y)).2 := by
        intro i a y hy
        split
        · exact acceptUmber_keeps hy
        · exact hy
      split
      · exact umbCount_keeps h
      · split
        · exact fold _ (one _) _ (true, m) h
        · exact umbCount_keeps (fold _ (one _) _ (true, m) h)
  · exact umbCount_keeps h

theorem execUmberSvReceive_keeps {b s t} (h : Keeps b s.m) (e : execUmberSvReceive s = .next t) : Keeps b t.m := by
  unfold execUmberSvReceive at e; refine runOn_keeps ?_ e; try dsimp only
  repeat' first | intro _ | with_reducible assumption | with_reducible apply onUmb_keeps | with_reducible apply takeUmber_keeps | with_reducible apply Keeps.ite | with_reducible apply id_keeps | split | exact h.of rfl rfl rfl rfl rfl rfl | rfl | exact Nat.le_refl _ | (simp; done)

theorem blockStream_keeps {b m} {a0} (h : Keeps b m) : Keeps b (blockStream a0 m) := by
  unfold blockStream; try dsimp only
  repeat' first | intro _ | with_reducible assumption | with_reducible apply forEach_keeps | with_reducible apply noteSources_keeps | with_reducible apply onElem_keeps | with_reducible apply tripsOut_keeps | with_reducible apply Keeps.ite | split | exact h.of rfl rfl rfl rfl rfl rfl | rfl | exact Nat.le_refl _ | (simp; done)

theorem execUmberStreamTimeout_keeps {b s t} {a0} (h : Keeps b s.m) (e : execUmberStreamTimeout a0 s = .next t) : Keeps b t.m := by
  unfold execUmberStreamTimeout at e; refine runOn_keeps ?_ e; try dsimp only
  repeat' first | intro _ | with_reducible assumption | with_reducible apply blockStream_keeps | with_reducible apply onStream_keeps | with_reducible apply passCycles_keeps | with_reducible apply raise_keeps | with_reducible apply Keeps.ite | with_reducible apply id_keeps | split | exact h.of rfl rfl rfl rfl rfl rfl | rfl | exact Nat.le_refl _ | (simp; done)

theorem sendHealthWord_keeps {b m} {a0} (h : Keeps b m) : Keeps b (sendHealthWord a0 m) := by
  unfold sendHealthWord; try dsimp only
  repeat' first | intro _ | with_reducible assumption | with_reducible apply onUmb_keeps | with_reducible apply Keeps.ite | split | exact h.of rfl rfl rfl rfl rfl rfl | rfl | exact Nat.le_refl _ | (simp; done)

theorem takeWord_keeps {b m} {a0 a1} (h : Keeps b m) : Keeps b (takeWord a0 a1 m) := by
  unfold takeWord; try dsimp only
  repeat' first | intro _ | with_reducible assumption | with_reducible apply noteSources_keeps | with_reducible apply onUmb_keeps | with_reducible apply umbCount_keeps | with_reducible apply Keeps.ite | split | exact h.of rfl rfl rfl rfl rfl rfl | rfl | exact Nat.le_refl _ | (simp; done)

theorem execHealthWordReceive_keeps {b s t} (h : Keeps b s.m) (e : execHealthWordReceive s = .next t) : Keeps b t.m := by
  unfold execHealthWordReceive at e; refine runOn_keeps ?_ e; try dsimp only
  repeat' first | intro _ | with_reducible assumption | with_reducible apply onUmb_keeps | with_reducible apply takeWord_keeps | with_reducible apply Keeps.ite | with_reducible apply id_keeps | split | exact h.of rfl rfl rfl rfl rfl rfl | rfl | exact Nat.le_refl _ | (simp; done)

theorem judgeWord_keeps {b m} {a0} (h : Keeps b m) : Keeps b (judgeWord a0 m) := by
  unfold judgeWord; try dsimp only
  repeat' first | intro _ | with_reducible assumption | with_reducible apply onUmb_keeps | with_reducible apply raise_keeps | with_reducible apply umbCount_keeps | with_reducible apply Keeps.ite | split | exact h.of rfl rfl rfl rfl rfl rfl | rfl | exact Nat.le_refl _ | (simp; done)

theorem execHealthWordAbsent_keeps {b s t} (h : Keeps b s.m) (e : execHealthWordAbsent s = .next t) : Keeps b t.m := by
  unfold execHealthWordAbsent at e; refine runOn_keeps ?_ e; try dsimp only
  repeat' first | intro _ | with_reducible assumption | with_reducible apply advanceTo_keeps | with_reducible apply judgeWord_keeps | with_reducible apply Keeps.ite | with_reducible apply id_keeps | split | exact h.of rfl rfl rfl rfl rfl rfl | rfl | exact Nat.le_refl _ | (simp; done)

theorem applyStreamSet_keeps {b m} {a0} (h : Keeps b m) : Keeps b (applyStreamSet a0 m) := by
  unfold applyStreamSet; try dsimp only
  repeat' first | intro _ | with_reducible assumption | with_reducible apply blockStream_keeps | with_reducible apply onUmb_keeps | with_reducible apply Keeps.ite | split | exact h.of rfl rfl rfl rfl rfl rfl | rfl | exact Nat.le_refl _ | (simp; done)

theorem applyElemSet_keeps {b m} {a0} (h : Keeps b m) : Keeps b (applyElemSet a0 m) := by
  unfold applyElemSet; try dsimp only
  repeat' first | intro _ | with_reducible assumption | with_reducible apply onUmb_keeps | with_reducible apply Keeps.ite | split | exact h.of rfl rfl rfl rfl rfl rfl | rfl | exact Nat.le_refl _ | (simp; done)

theorem applyTripSet_keeps {b m} {a0} (h : Keeps b m) : Keeps b (applyTripSet a0 m) := by
  unfold applyTripSet; try dsimp only
  repeat' first | intro _ | with_reducible assumption | with_reducible apply onUmb_keeps | with_reducible apply tripOut_keeps | with_reducible apply Keeps.ite | split | exact h.of rfl rfl rfl rfl rfl rfl | rfl | exact Nat.le_refl _ | (simp; done)

theorem applyUpubSet_keeps {b m} {a0} (h : Keeps b m) : Keeps b (applyUpubSet a0 m) := by
  unfold applyUpubSet; try dsimp only
  repeat' first | intro _ | with_reducible assumption | with_reducible apply onUmb_keeps | with_reducible apply Keeps.ite | split | exact h.of rfl rfl rfl rfl rfl rfl | rfl | exact Nat.le_refl _ | (simp; done)

theorem applyUmbConfig_keeps {b m} {a0} (h : Keeps b m) : Keeps b (applyUmbConfig a0 m) := by
  unfold applyUmbConfig; try dsimp only
  repeat' first | intro _ | with_reducible assumption | with_reducible apply onUmb_keeps | with_reducible apply Keeps.ite | split | exact h.of rfl rfl rfl rfl rfl rfl | rfl | exact Nat.le_refl _ | (simp; done)

theorem execUmbStatus_keeps {b s t} {a0 a1} (h : Keeps b s.m) (e : execUmbStatus a0 a1 s = .next t) : Keeps b t.m := by
  unfold execUmbStatus at e; refine runOn_keeps ?_ e; try dsimp only
  repeat' first | intro _ | with_reducible assumption | with_reducible apply onUmb_keeps | with_reducible apply runRead_keeps | with_reducible apply Keeps.ite | with_reducible apply id_keeps | split | exact h.of rfl rfl rfl rfl rfl rfl | rfl | exact Nat.le_refl _ | (simp; done)

end Sys2Proof.Machine
end

