-- ==== Sys2Proof/Laws/KeepsFrm.lean ====
section
/-! SUPPORT. What every operation and every command of Machine/Frm keeps (Keeps, Laws/Keeps). -/
namespace Sys2Proof.Machine
set_option linter.all false
open Sys2Proof

theorem frameCount_keeps {b m} {a0 a1} (h : Keeps b m) : Keeps b (frameCount a0 a1 m) := by
  unfold frameCount; try dsimp only
  repeat' first | intro _ | with_reducible assumption | with_reducible apply onSlice_keeps | with_reducible apply Keeps.ite | split | exact h.of rfl rfl rfl rfl rfl rfl | rfl | exact Nat.le_refl _ | (simp; done)

theorem postFrame_keeps {b m} {a0 a1 a2 a3} (h : Keeps b m) : Keeps b (postFrame a0 a1 a2 a3 m) := by
  unfold postFrame; try dsimp only
  repeat' first | intro _ | with_reducible assumption | with_reducible apply dropItem_keeps | with_reducible apply dspCount_keeps | with_reducible apply enterItem_keeps | with_reducible apply forEach_keeps | with_reducible apply frameCount_keeps | with_reducible apply raise_keeps | with_reducible apply Keeps.ite | split | exact h.of rfl rfl rfl rfl rfl rfl | rfl | exact Nat.le_refl _ | (simp; done)

theorem assembleFrame_keeps {b m} {a0 a1} (h : Keeps b m) : Keeps b (assembleFrame a0 a1 m) := by
  unfold assembleFrame; try dsimp only
  repeat' first | intro _ | with_reducible assumption | with_reducible apply forEach_keeps | with_reducible apply onSlice_keeps | with_reducible apply postFrame_keeps | with_reducible apply slcPut_keeps | with_reducible apply Keeps.ite | split | exact h.of rfl rfl rfl rfl rfl rfl | rfl | exact Nat.le_refl _ | (simp; done)

theorem assembleFrames_keeps {b m} {a0} (h : Keeps b m) : Keeps b (assembleFrames a0 m) := by
  unfold assembleFrames; try dsimp only
  repeat' first | intro _ | with_reducible assumption | with_reducible apply assembleFrame_keeps | with_reducible apply forEach_keeps | with_reducible apply onDom_keeps | with_reducible apply Keeps.ite | split | exact h.of rfl rfl rfl rfl rfl rfl | rfl | exact Nat.le_refl _ | (simp; done)

theorem execEstFrameStatus_keeps {b s t} {a0 a1} (h : Keeps b s.m) (e : execEstFrameStatus a0 a1 s = .next t) : Keeps b t.m := by
  unfold execEstFrameStatus at e; refine runOn_keeps ?_ e; try dsimp only
  repeat' first | intro _ | with_reducible assumption | with_reducible apply onSlice_keeps | with_reducible apply runRead_keeps | with_reducible apply Keeps.ite | with_reducible apply id_keeps | split | exact h.of rfl rfl rfl rfl rfl rfl | rfl | exact Nat.le_refl _ | (simp; done)

end Sys2Proof.Machine
end

