-- ==== Sys2Proof/Laws/KeepsTwn.lean ====
section
/-! SUPPORT. What every operation and every command of Machine/Twn keeps (Keeps, Laws/Keeps). -/
namespace Sys2Proof.Machine
set_option linter.all false
open Sys2Proof

theorem twnCount_keeps {b m} {a0 a1} (h : Keeps b m) : Keeps b (twnCount a0 a1 m) := by
  unfold twnCount; try dsimp only
  repeat' first | intro _ | with_reducible assumption | with_reducible apply onTwn_keeps | with_reducible apply Keeps.ite | split | exact h.of rfl rfl rfl rfl rfl rfl | rfl | exact Nat.le_refl _ | (simp; done)

theorem roleEvent_keeps {b m} {a0 a1 a2} (h : Keeps b m) : Keeps b (roleEvent a0 a1 a2 m) := by
  unfold roleEvent; try dsimp only
  repeat' first | intro _ | with_reducible assumption | with_reducible apply raise_keeps | with_reducible apply Keeps.ite | split | exact h.of rfl rfl rfl rfl rfl rfl | rfl | exact Nat.le_refl _ | (simp; done)

theorem startResync_keeps {b m} (h : Keeps b m) : Keeps b (startResync m) := by
  unfold startResync; try dsimp only
  repeat' first | intro _ | with_reducible assumption | with_reducible apply onTwn_keeps | with_reducible apply raise_keeps | with_reducible apply twnCount_keeps | with_reducible apply Keeps.ite | split | exact h.of rfl rfl rfl rfl rfl rfl | rfl | exact Nat.le_refl _ | (simp; done)

theorem goStandby_keeps {b m} {a0} (h : Keeps b m) : Keeps b (goStandby a0 m) := by
  unfold goStandby; try dsimp only
  repeat' first | intro _ | with_reducible assumption | with_reducible apply baseImage_keeps | with_reducible apply forEach_keeps | with_reducible apply onTwn_keeps | with_reducible apply roleEvent_keeps | with_reducible apply startResync_keeps | with_reducible apply tripsOut_keeps | with_reducible apply upubsQuiet_keeps | with_reducible apply Keeps.ite | split | exact h.of rfl rfl rfl rfl rfl rfl | rfl | exact Nat.le_refl _ | (simp; done)

theorem takeSlice_keeps {b m} {a0} (h : Keeps b m) : Keeps b (takeSlice a0 m) := by
  unfold takeSlice; try dsimp only
  repeat' first | intro _ | with_reducible assumption | with_reducible apply forEach_keeps | with_reducible apply raise_keeps | with_reducible apply restartProg_keeps | with_reducible apply returnWhere_keeps | with_reducible apply Keeps.ite | split | exact h.of rfl rfl rfl rfl rfl rfl | rfl | exact Nat.le_refl _ | (simp; done)

theorem goActive_keeps {b m} {a0 a1} (h : Keeps b m) : Keeps b (goActive a0 a1 m) := by
  unfold goActive; try dsimp only
  repeat' first | intro _ | with_reducible assumption | with_reducible apply forEach_keeps | with_reducible apply onSig_keeps | with_reducible apply onSlice_keeps | with_reducible apply onTwn_keeps | with_reducible apply roleEvent_keeps | with_reducible apply startPrograms_keeps | with_reducible apply takeSlice_keeps | with_reducible apply tripsOut_keeps | with_reducible apply twnCount_keeps | with_reducible apply upubsAct_keeps | with_reducible apply when_keeps | with_reducible apply Keeps.ite | split | exact h.of rfl rfl rfl rfl rfl rfl | rfl | exact Nat.le_refl _ | (simp; done)

theorem goStarting_keeps {b m} {a0} (h : Keeps b m) : Keeps b (goStarting a0 m) := by
  unfold goStarting; try dsimp only
  repeat' first | intro _ | with_reducible assumption | with_reducible apply onTwn_keeps | with_reducible apply roleEvent_keeps | with_reducible apply tripsOut_keeps | with_reducible apply upubsQuiet_keeps | with_reducible apply Keeps.ite | split | exact h.of rfl rfl rfl rfl rfl rfl | rfl | exact Nat.le_refl _ | (simp; done)

theorem twinStart_keeps {b m} (h : Keeps b m) : Keeps b (twinStart m) := by
  unfold twinStart; try dsimp only
  repeat' first | intro _ | with_reducible assumption | with_reducible apply goStarting_keeps | with_reducible apply onTwn_keeps | with_reducible apply Keeps.ite | split | exact h.of rfl rfl rfl rfl rfl rfl | rfl | exact Nat.le_refl _ | (simp; done)

theorem listenEnd_keeps {b m} (h : Keeps b m) : Keeps b (listenEnd m) := by
  unfold listenEnd; try dsimp only
  repeat' first | intro _ | with_reducible assumption | with_reducible apply goActive_keeps | with_reducible apply onTwn_keeps | with_reducible apply Keeps.ite | split | exact h.of rfl rfl rfl rfl rfl rfl | rfl | exact Nat.le_refl _ | (simp; done)

theorem ownFailure_keeps {b m} (h : Keeps b m) : Keeps b (ownFailure m) := by
  unfold ownFailure; try dsimp only
  repeat' first | intro _ | with_reducible assumption | with_reducible apply onTwn_keeps | with_reducible apply raise_keeps | with_reducible apply Keeps.ite | split | exact h.of rfl rfl rfl rfl rfl rfl | rfl | exact Nat.le_refl _ | (simp; done)

theorem startYield_keeps {b m} {a0 a1} (h : Keeps b m) : Keeps b (startYield a0 a1 m) := by
  unfold startYield; try dsimp only
  repeat' first | intro _ | with_reducible assumption | with_reducible apply onTwn_keeps | with_reducible apply raise_keeps | with_reducible apply Keeps.ite | split | exact h.of rfl rfl rfl rfl rfl rfl | rfl | exact Nat.le_refl _ | (simp; done)

theorem rollPresence_keeps {b m} (h : Keeps b m) : Keeps b (rollPresence m) := by
  unfold rollPresence; try dsimp only
  repeat' first | intro _ | with_reducible assumption | with_reducible apply onTwn_keeps | with_reducible apply twnCount_keeps | with_reducible apply Keeps.ite | split | exact h.of rfl rfl rfl rfl rfl rfl | rfl | exact Nat.le_refl _ | (simp; done)

theorem pathChange_keeps {b m} {a0} (h : Keeps b m) : Keeps b (pathChange a0 m) := by
  unfold pathChange; try dsimp only
  repeat' first | intro _ | with_reducible assumption | with_reducible apply onTwn_keeps | with_reducible apply raise_keeps | with_reducible apply Keeps.ite | split | exact h.of rfl rfl rfl rfl rfl rfl | rfl | exact Nat.le_refl _ | (simp; done)

theorem bothChange_keeps {b m} (h : Keeps b m) : Keeps b (bothChange m) := by
  unfold bothChange; try dsimp only
  repeat' first | intro _ | with_reducible assumption | with_reducible apply onTwn_keeps | with_reducible apply raise_keeps | with_reducible apply Keeps.ite | split | exact h.of rfl rfl rfl rfl rfl rfl | rfl | exact Nat.le_refl _ | (simp; done)

theorem liveChange_keeps {b m} (h : Keeps b m) : Keeps b (liveChange m) := by
  unfold liveChange; try dsimp only
  repeat' first | intro _ | with_reducible assumption | with_reducible apply onTwn_keeps | with_reducible apply raise_keeps | with_reducible apply Keeps.ite | split | exact h.of rfl rfl rfl rfl rfl rfl | rfl | exact Nat.le_refl _ | (simp; done)

theorem supervision_keeps {b m} (h : Keeps b m) : Keeps b (supervision m) := by
  unfold supervision; try dsimp only
  repeat' first | intro _ | with_reducible assumption | with_reducible apply bothChange_keeps | with_reducible apply liveChange_keeps | with_reducible apply onTwn_keeps | with_reducible apply pathChange_keeps | with_reducible apply Keeps.ite | split | exact h.of rfl rfl rfl rfl rfl rfl | rfl | exact Nat.le_refl _ | (simp; done)

theorem cleanChange_keeps {b m} (h : Keeps b m) : Keeps b (cleanChange m) := by
  unfold cleanChange; try dsimp only
  repeat' first | intro _ | with_reducible assumption | with_reducible apply onTwn_keeps | with_reducible apply raise_keeps | with_reducible apply Keeps.ite | split | exact h.of rfl rfl rfl rfl rfl rfl | rfl | exact Nat.le_refl _ | (simp; done)

theorem standbyDecides_keeps {b m} {a0} (h : Keeps b m) : Keeps b (standbyDecides a0 m) := by
  unfold standbyDecides; try dsimp only
  repeat' first | intro _ | with_reducible assumption | with_reducible apply goActive_keeps | with_reducible apply onTwn_keeps | with_reducible apply raise_keeps | with_reducible apply tripsOut_keeps | with_reducible apply upubsAct_keeps | with_reducible apply upubsQuiet_keeps | with_reducible apply Keeps.ite | split | exact h.of rfl rfl rfl rfl rfl rfl | rfl | exact Nat.le_refl _ | (simp; done)

theorem activeCopy_keeps {b m} {a0} (h : Keeps b m) : Keeps b (activeCopy a0 m) := by
  unfold activeCopy; try dsimp only
  repeat' first | intro _ | with_reducible assumption | with_reducible apply onTwn_keeps | with_reducible apply Keeps.ite | split | exact h.of rfl rfl rfl rfl rfl rfl | rfl | exact Nat.le_refl _ | (simp; done)

theorem activeDecides_keeps {b m} {a0} (h : Keeps b m) : Keeps b (activeDecides a0 m) := by
  unfold activeDecides; try dsimp only
  repeat' first | intro _ | with_reducible assumption | with_reducible apply activeCopy_keeps | with_reducible apply goStandby_keeps | with_reducible apply goStarting_keeps | with_reducible apply onTwn_keeps | with_reducible apply raise_keeps | with_reducible apply twnCount_keeps | with_reducible apply Keeps.ite | split | exact h.of rfl rfl rfl rfl rfl rfl | rfl | exact Nat.le_refl _ | (simp; done)

theorem startingDecides_keeps {b m} (h : Keeps b m) : Keeps b (startingDecides m) := by
  unfold startingDecides; try dsimp only
  repeat' first | intro _ | with_reducible assumption | with_reducible apply goStandby_keeps | with_reducible apply listenEnd_keeps | with_reducible apply onTwn_keeps | with_reducible apply Keeps.ite | split | exact h.of rfl rfl rfl rfl rfl rfl | rfl | exact Nat.le_refl _ | (simp; done)

theorem twinBoundary_keeps {b m} {a0} (h : Keeps b m) : Keeps b (twinBoundary a0 m) := by
  unfold twinBoundary; try dsimp only
  repeat' first | intro _ | with_reducible assumption | with_reducible apply activeDecides_keeps | with_reducible apply cleanChange_keeps | with_reducible apply onTwn_keeps | with_reducible apply rollPresence_keeps | with_reducible apply standbyDecides_keeps | with_reducible apply startingDecides_keeps | with_reducible apply supervision_keeps | with_reducible apply Keeps.ite | split | exact h.of rfl rfl rfl rfl rfl rfl | rfl | exact Nat.le_refl _ | (simp; done)

theorem execChordHeartbeatSend_keeps {b s t} (h : Keeps b s.m) (e : execChordHeartbeatSend s = .next t) : Keeps b t.m := by
  unfold execChordHeartbeatSend at e; refine runOn_keeps ?_ e; try dsimp only
  repeat' first | intro _ | with_reducible assumption | with_reducible apply onTwn_keeps | with_reducible apply sendTwin_keeps | with_reducible apply Keeps.ite | with_reducible apply id_keeps | split | exact h.of rfl rfl rfl rfl rfl rfl | rfl | exact Nat.le_refl _ | (simp; done)

theorem evidence_keeps {b m} {a0} (h : Keeps b m) : Keeps b (evidence a0 m) := by
  unfold evidence; try dsimp only
  repeat' first | intro _ | with_reducible assumption | with_reducible apply onTwn_keeps | with_reducible apply Keeps.ite | split | exact h.of rfl rfl rfl rfl rfl rfl | rfl | exact Nat.le_refl _ | (simp; done)

theorem hear_keeps {b m} {a0 a1 a2 a3 a4} (h : Keeps b m) : Keeps b (hear a0 a1 a2 a3 a4 m) := by
  unfold hear; try dsimp only
  repeat' first | intro _ | with_reducible assumption | with_reducible apply evidence_keeps | with_reducible apply onTwn_keeps | with_reducible apply raise_keeps | with_reducible apply Keeps.ite | split | exact h.of rfl rfl rfl rfl rfl rfl | rfl | exact Nat.le_refl _ | (simp; done)

theorem hearChord_keeps {b m} {a0} (h : Keeps b m) : Keeps b (hearChord a0 m) := by
  unfold hearChord; try dsimp only
  repeat' first | intro _ | with_reducible assumption | with_reducible apply hear_keeps | with_reducible apply onTwn_keeps | with_reducible apply Keeps.ite | split | exact h.of rfl rfl rfl rfl rfl rfl | rfl | exact Nat.le_refl _ | (simp; done)

theorem hearReport_keeps {b m} {a0} (h : Keeps b m) : Keeps b (hearReport a0 m) := by
  unfold hearReport; try dsimp only
  repeat' first | intro _ | with_reducible assumption | with_reducible apply onTwn_keeps | with_reducible apply twnCount_keeps | with_reducible apply Keeps.ite | split | exact h.of rfl rfl rfl rfl rfl rfl | rfl | exact Nat.le_refl _ | (simp; done)

theorem execChordHeartbeatReceive_keeps {b s t} {a0} (h : Keeps b s.m) (e : execChordHeartbeatReceive a0 s = .next t) : Keeps b t.m := by
  unfold execChordHeartbeatReceive at e; refine runOn_keeps ?_ e; try dsimp only
  repeat' first | intro _ | with_reducible assumption | with_reducible apply hearChord_keeps | with_reducible apply hearReport_keeps | with_reducible apply Keeps.ite | with_reducible apply id_keeps | split | exact h.of rfl rfl rfl rfl rfl rfl | rfl | exact Nat.le_refl _ | (simp; done)

theorem execArcWordSend_keeps {b s t} (h : Keeps b s.m) (e : execArcWordSend s = .next t) : Keeps b t.m := by
  unfold execArcWordSend at e; refine runOn_keeps ?_ e; try dsimp only
  repeat' first | intro _ | with_reducible assumption | with_reducible apply advanceTo_keeps | with_reducible apply onTwn_keeps | with_reducible apply Keeps.ite | with_reducible apply id_keeps | split | exact h.of rfl rfl rfl rfl rfl rfl | rfl | exact Nat.le_refl _ | (simp; done)

theorem execArcWordReceive_keeps {b s t} {a0} (h : Keeps b s.m) (e : execArcWordReceive a0 s = .next t) : Keeps b t.m := by
  unfold execArcWordReceive at e; refine runOn_keeps ?_ e; try dsimp only
  repeat' first | intro _ | with_reducible assumption | with_reducible apply hear_keeps | with_reducible apply onTwn_keeps | with_reducible apply Keeps.ite | with_reducible apply id_keeps | split | exact h.of rfl rfl rfl rfl rfl rfl | rfl | exact Nat.le_refl _ | (simp; done)

theorem execLivenessSend_keeps {b s t} (h : Keeps b s.m) (e : execLivenessSend s = .next t) : Keeps b t.m := by
  unfold execLivenessSend at e; refine runOn_keeps ?_ e; try dsimp only
  repeat' first | intro _ | with_reducible assumption | with_reducible apply onTwn_keeps | with_reducible apply sendInner_keeps | with_reducible apply Keeps.ite | with_reducible apply id_keeps | split | exact h.of rfl rfl rfl rfl rfl rfl | rfl | exact Nat.le_refl _ | (simp; done)

theorem hearEpoch_keeps {b m} {a0} (h : Keeps b m) : Keeps b (hearEpoch a0 m) := by
  unfold hearEpoch; try dsimp only
  repeat' first | intro _ | with_reducible assumption | with_reducible apply onTwn_keeps | with_reducible apply Keeps.ite | split | exact h.of rfl rfl rfl rfl rfl rfl | rfl | exact Nat.le_refl _ | (simp; done)

theorem execLivenessReceive_keeps {b s t} {a0 a1} (h : Keeps b s.m) (e : execLivenessReceive a0 a1 s = .next t) : Keeps b t.m := by
  unfold execLivenessReceive at e; refine runOn_keeps ?_ e; try dsimp only
  repeat' first | intro _ | with_reducible assumption | with_reducible apply evidence_keeps | with_reducible apply hearEpoch_keeps | with_reducible apply onTwn_keeps | with_reducible apply Keeps.ite | with_reducible apply id_keeps | split | exact h.of rfl rfl rfl rfl rfl rfl | rfl | exact Nat.le_refl _ | (simp; done)

theorem execPathLost_keeps {b s t} {a0} (h : Keeps b s.m) (e : execPathLost a0 s = .next t) : Keeps b t.m := by
  unfold execPathLost at e; refine runOn_keeps ?_ e; try dsimp only
  repeat' first | intro _ | with_reducible assumption | with_reducible apply pathChange_keeps | with_reducible apply Keeps.ite | with_reducible apply id_keeps | split | exact h.of rfl rfl rfl rfl rfl rfl | rfl | exact Nat.le_refl _ | (simp; done)

theorem execBothPathsLost_keeps {b s t} (h : Keeps b s.m) (e : execBothPathsLost s = .next t) : Keeps b t.m := by
  unfold execBothPathsLost at e; refine runOn_keeps ?_ e; try dsimp only
  repeat' first | intro _ | with_reducible assumption | with_reducible apply bothChange_keeps | with_reducible apply Keeps.ite | with_reducible apply id_keeps | split | exact h.of rfl rfl rfl rfl rfl rfl | rfl | exact Nat.le_refl _ | (simp; done)

theorem execLivenessAbsent_keeps {b s t} (h : Keeps b s.m) (e : execLivenessAbsent s = .next t) : Keeps b t.m := by
  unfold execLivenessAbsent at e; refine runOn_keeps ?_ e; try dsimp only
  repeat' first | intro _ | with_reducible assumption | with_reducible apply liveChange_keeps | with_reducible apply Keeps.ite | with_reducible apply id_keeps | split | exact h.of rfl rfl rfl rfl rfl rfl | rfl | exact Nat.le_refl _ | (simp; done)

theorem execStartingListenEnd_keeps {b s t} (h : Keeps b s.m) (e : execStartingListenEnd s = .next t) : Keeps b t.m := by
  unfold execStartingListenEnd at e; refine runOn_keeps ?_ e; try dsimp only
  repeat' first | intro _ | with_reducible assumption | with_reducible apply listenEnd_keeps | with_reducible apply Keeps.ite | with_reducible apply id_keeps | split | exact h.of rfl rfl rfl rfl rfl rfl | rfl | exact Nat.le_refl _ | (simp; done)

theorem execTwinSelfTest_keeps {b s t} {a0} (h : Keeps b s.m) (e : execTwinSelfTest a0 s = .next t) : Keeps b t.m := by
  unfold execTwinSelfTest at e; refine runOn_keeps ?_ e; try dsimp only
  repeat' first | intro _ | with_reducible assumption | with_reducible apply onTwn_keeps | with_reducible apply Keeps.ite | with_reducible apply id_keeps | split | exact h.of rfl rfl rfl rfl rfl rfl | rfl | exact Nat.le_refl _ | (simp; done)

theorem execTwinHealthReport_keeps {b s t} (h : Keeps b s.m) (e : execTwinHealthReport s = .next t) : Keeps b t.m := by
  unfold execTwinHealthReport at e; refine runOn_keeps ?_ e; try dsimp only
  repeat' first | intro _ | with_reducible assumption | with_reducible apply onTwn_keeps | with_reducible apply sendTwin_keeps | with_reducible apply Keeps.ite | with_reducible apply id_keeps | split | exact h.of rfl rfl rfl rfl rfl rfl | rfl | exact Nat.le_refl _ | (simp; done)

theorem takeSnaps_keeps {b m} (h : Keeps b m) : Keeps b (takeSnaps m) := by
  unfold takeSnaps; try dsimp only
  repeat' first | intro _ | with_reducible assumption | with_reducible apply onTwn_keeps | with_reducible apply Keeps.ite | split | exact h.of rfl rfl rfl rfl rfl rfl | rfl | exact Nat.le_refl _ | (simp; done)

theorem closeCapture_keeps {b m} {a0} (h : Keeps b m) : Keeps b (closeCapture a0 m) := by
  unfold closeCapture; try dsimp only
  repeat' first | intro _ | with_reducible assumption | with_reducible apply forEach_keeps | with_reducible apply onTwn_keeps | with_reducible apply raise_keeps | with_reducible apply takeSnaps_keeps | with_reducible apply Keeps.ite | split | exact h.of rfl rfl rfl rfl rfl rfl | rfl | exact Nat.le_refl _ | (simp; done)

theorem execMirrorSend_keeps {b s t} (h : Keeps b s.m) (e : execMirrorSend s = .next t) : Keeps b t.m := by
  unfold execMirrorSend at e; refine runOn_keeps ?_ e; try dsimp only
  repeat' first | intro _ | with_reducible assumption | with_reducible apply forEach_keeps | with_reducible apply onTwn_keeps | with_reducible apply sendTwin_keeps | with_reducible apply Keeps.ite | with_reducible apply id_keeps | split | exact h.of rfl rfl rfl rfl rfl rfl | rfl | exact Nat.le_refl _ | (simp; done)

theorem raiseNums_keeps {b m} {a0 a1 a2} (h : Keeps b m) : Keeps b (raiseNums a0 a1 a2 m) := by
  unfold raiseNums; try dsimp only
  repeat' first | intro _ | with_reducible assumption | with_reducible apply onSig_keeps | with_reducible apply Keeps.ite | split | exact h.of rfl rfl rfl rfl rfl rfl | rfl | exact Nat.le_refl _ | (simp; done)

theorem mirrorMeter_keeps {b m} {a0} (h : Keeps b m) : Keeps b (mirrorMeter a0 m) := by
  unfold mirrorMeter; try dsimp only
  repeat' first | intro _ | with_reducible assumption | with_reducible apply onMeter_keeps | with_reducible apply Keeps.ite | split | exact h.of rfl rfl rfl rfl rfl rfl | rfl | exact Nat.le_refl _ | (simp; done)

theorem mirrorOut_keeps {b m} {a0} (h : Keeps b m) : Keeps b (mirrorOut a0 m) := by
  unfold mirrorOut; try dsimp only
  repeat' first | intro _ | with_reducible assumption | with_reducible apply onOut_keeps | with_reducible apply Keeps.ite | split | exact h.of rfl rfl rfl rfl rfl rfl | rfl | exact Nat.le_refl _ | (simp; done)

theorem applyUnit_keeps {b m} {a0 a1 a2 a3} (h : Keeps b m) : Keeps b (applyUnit a0 a1 a2 a3 m) := by
  unfold applyUnit; try dsimp only
  repeat' first | intro _ | with_reducible assumption | exact memPut_wf _ _ _ (by assumption) | exact memFilter_wf _ _ (by assumption) | exact memZero_wf _ _ _ (by assumption) | with_reducible apply onLge_keeps | with_reducible apply onMem_keeps | with_reducible apply onTwn_keeps | with_reducible apply putPoint_keeps | with_reducible apply slcPut_keeps | with_reducible apply Keeps.ite | split | exact h.of rfl rfl rfl rfl rfl rfl | rfl | exact Nat.le_refl _ | (simp; done)

theorem applyRec_keeps {b m} {a0 a1 a2} (h : Keeps b m) : Keeps b (applyRec a0 a1 a2 m) := by
  unfold applyRec; try dsimp only
  repeat' first | intro _ | with_reducible assumption | with_reducible apply applyUnit_keeps | with_reducible apply forEach_keeps | with_reducible apply mirrorMeter_keeps | with_reducible apply mirrorOut_keeps | with_reducible apply onTwn_keeps | with_reducible apply raiseNums_keeps | with_reducible apply Keeps.ite | split | exact h.of rfl rfl rfl rfl rfl rfl | rfl | exact Nat.le_refl _ | (simp; done)

theorem mismatch_keeps {b m} {a0 a1} (h : Keeps b m) : Keeps b (mismatch a0 a1 m) := by
  unfold mismatch; try dsimp only
  repeat' first | intro _ | with_reducible assumption | with_reducible apply onTwn_keeps | with_reducible apply raise_keeps | with_reducible apply twnCount_keeps | with_reducible apply Keeps.ite | split | exact h.of rfl rfl rfl rfl rfl rfl | rfl | exact Nat.le_refl _ | (simp; done)

theorem holdSlice_keeps {b m} {a0 a1} (h : Keeps b m) : Keeps b (holdSlice a0 a1 m) := by
  unfold holdSlice; try dsimp only
  repeat' first | intro _ | with_reducible assumption | with_reducible apply mismatch_keeps | with_reducible apply onTwn_keeps | with_reducible apply queueFill_keeps | with_reducible apply Keeps.ite | split | exact h.of rfl rfl rfl rfl rfl rfl | rfl | exact Nat.le_refl _ | (simp; done)

theorem compareTick_keeps {b m} {a0 a1} (h : Keeps b m) : Keeps b (compareTick a0 a1 m) := by
  unfold compareTick; try dsimp only
  repeat' first | intro _ | with_reducible assumption | with_reducible apply forEach_keeps | with_reducible apply holdSlice_keeps | with_reducible apply mismatch_keeps | with_reducible apply when_keeps | with_reducible apply Keeps.ite | split | exact h.of rfl rfl rfl rfl rfl rfl | rfl | exact Nat.le_refl _ | (simp; done)

theorem resyncDone_keeps {b m} (h : Keeps b m) : Keeps b (resyncDone m) := by
  unfold resyncDone; try dsimp only
  repeat' first | intro _ | with_reducible assumption | with_reducible apply onTwn_keeps | with_reducible apply raise_keeps | with_reducible apply Keeps.ite | split | exact h.of rfl rfl rfl rfl rfl rfl | rfl | exact Nat.le_refl _ | (simp; done)

theorem takeMirror_keeps {b m} {a0 a1} (h : Keeps b m) : Keeps b (takeMirror a0 a1 m) := by
  unfold takeMirror; try dsimp only
  repeat' first | intro _ | with_reducible assumption | with_reducible apply applyRec_keeps | with_reducible apply compareTick_keeps | with_reducible apply forEach_keeps | with_reducible apply onTwn_keeps | with_reducible apply resyncDone_keeps | with_reducible apply Keeps.ite | split | exact h.of rfl rfl rfl rfl rfl rfl | rfl | exact Nat.le_refl _ | (simp; done)

theorem mirrorLate_keeps {b m} {a0} (h : Keeps b m) : Keeps b (mirrorLate a0 m) := by
  unfold mirrorLate; try dsimp only
  repeat' first | intro _ | with_reducible assumption | with_reducible apply onTwn_keeps | with_reducible apply raise_keeps | with_reducible apply startResync_keeps | with_reducible apply twnCount_keeps | with_reducible apply Keeps.ite | split | exact h.of rfl rfl rfl rfl rfl rfl | rfl | exact Nat.le_refl _ | (simp; done)

theorem judgeMirror_keeps {b m} {a0} (h : Keeps b m) : Keeps b (judgeMirror a0 m) := by
  unfold judgeMirror; try dsimp only
  repeat' first | intro _ | with_reducible assumption | with_reducible apply mirrorLate_keeps | with_reducible apply Keeps.ite | split | exact h.of rfl rfl rfl rfl rfl rfl | rfl | exact Nat.le_refl _ | (simp; done)

theorem hearMirror_keeps {b m} {a0} (h : Keeps b m) : Keeps b (hearMirror a0 m) := by
  unfold hearMirror; try dsimp only
  repeat' first | intro _ | with_reducible assumption | with_reducible apply onTwn_keeps | with_reducible apply takeMirror_keeps | with_reducible apply Keeps.ite | split | exact h.of rfl rfl rfl rfl rfl rfl | rfl | exact Nat.le_refl _ | (simp; done)

theorem execMirrorFrameReceive_keeps {b s t} {a0} (h : Keeps b s.m) (e : execMirrorFrameReceive a0 s = .next t) : Keeps b t.m := by
  unfold execMirrorFrameReceive at e; refine runOn_keeps ?_ e; try dsimp only
  repeat' first | intro _ | with_reducible assumption | with_reducible apply hearMirror_keeps | with_reducible apply Keeps.ite | with_reducible apply id_keeps | split | exact h.of rfl rfl rfl rfl rfl rfl | rfl | exact Nat.le_refl _ | (simp; done)

theorem execMirrorIncomplete_keeps {b s t} (h : Keeps b s.m) (e : execMirrorIncomplete s = .next t) : Keeps b t.m := by
  unfold execMirrorIncomplete at e; refine runOn_keeps ?_ e; try dsimp only
  repeat' first | intro _ | with_reducible assumption | with_reducible apply advanceTo_keeps | with_reducible apply judgeMirror_keeps | with_reducible apply Keeps.ite | with_reducible apply id_keeps | split | exact h.of rfl rfl rfl rfl rfl rfl | rfl | exact Nat.le_refl _ | (simp; done)

theorem execResyncCopySend_keeps {b s t} (h : Keeps b s.m) (e : execResyncCopySend s = .next t) : Keeps b t.m := by
  unfold execResyncCopySend at e; refine runOn_keeps ?_ e; try dsimp only
  repeat' first | intro _ | with_reducible assumption | with_reducible apply onTwn_keeps | with_reducible apply sendTwin_keeps | with_reducible apply Keeps.ite | with_reducible apply id_keeps | split | exact h.of rfl rfl rfl rfl rfl rfl | rfl | exact Nat.le_refl _ | (simp; done)

theorem hearCopy_keeps {b m} {a0} (h : Keeps b m) : Keeps b (hearCopy a0 m) := by
  unfold hearCopy; try dsimp only
  repeat' first | intro _ | with_reducible assumption | with_reducible apply applyRec_keeps | with_reducible apply forEach_keeps | with_reducible apply onTwn_keeps | with_reducible apply resyncDone_keeps | with_reducible apply Keeps.ite | split | exact h.of rfl rfl rfl rfl rfl rfl | rfl | exact Nat.le_refl _ | (simp; done)

theorem execResyncCopyReceive_keeps {b s t} {a0} (h : Keeps b s.m) (e : execResyncCopyReceive a0 s = .next t) : Keeps b t.m := by
  unfold execResyncCopyReceive at e; refine runOn_keeps ?_ e; try dsimp only
  repeat' first | intro _ | with_reducible assumption | with_reducible apply hearCopy_keeps | with_reducible apply Keeps.ite | with_reducible apply id_keeps | split | exact h.of rfl rfl rfl rfl rfl rfl | rfl | exact Nat.le_refl _ | (simp; done)

theorem applyPairSet_keeps {b m} {a0} (h : Keeps b m) : Keeps b (applyPairSet a0 m) := by
  unfold applyPairSet; try dsimp only
  repeat' first | intro _ | with_reducible assumption | with_reducible apply goStarting_keeps | with_reducible apply onTwn_keeps | with_reducible apply roleEvent_keeps | with_reducible apply takeSnaps_keeps | with_reducible apply tripsOut_keeps | with_reducible apply Keeps.ite | split | exact h.of rfl rfl rfl rfl rfl rfl | rfl | exact Nat.le_refl _ | (simp; done)

theorem applyQuotaSet_keeps {b m} {a0} (h : Keeps b m) : Keeps b (applyQuotaSet a0 m) := by
  unfold applyQuotaSet; try dsimp only
  repeat' first | intro _ | with_reducible assumption | with_reducible apply onTwn_keeps | with_reducible apply Keeps.ite | split | exact h.of rfl rfl rfl rfl rfl rfl | rfl | exact Nat.le_refl _ | (simp; done)

theorem execTwnSwitch_keeps {b s t} {a0 a1} (h : Keeps b s.m) (e : execTwnSwitch a0 a1 s = .next t) : Keeps b t.m := by
  unfold execTwnSwitch at e; refine runOn_keeps ?_ e; try dsimp only
  repeat' first | intro _ | with_reducible assumption | with_reducible apply judged_keeps | with_reducible apply raiseAccepted_keeps | with_reducible apply respond_keeps | with_reducible apply startYield_keeps | with_reducible apply Keeps.ite | with_reducible apply id_keeps | split | exact h.of rfl rfl rfl rfl rfl rfl | rfl | exact Nat.le_refl _ | (simp; done)

theorem execTwnStatus_keeps {b s t} {a0 a1} (h : Keeps b s.m) (e : execTwnStatus a0 a1 s = .next t) : Keeps b t.m := by
  unfold execTwnStatus at e; refine runOn_keeps ?_ e; try dsimp only
  repeat' first | intro _ | with_reducible assumption | with_reducible apply onTwn_keeps | with_reducible apply runRead_keeps | with_reducible apply Keeps.ite | with_reducible apply id_keeps | split | exact h.of rfl rfl rfl rfl rfl rfl | rfl | exact Nat.le_refl _ | (simp; done)

end Sys2Proof.Machine
end

