-- ==== Sys2Proof/Laws/KeepsTime.lean ====
section
/-! SUPPORT. What every operation and every command of Machine/Time keeps (Keeps, Laws/Keeps). -/
namespace Sys2Proof.Machine
set_option linter.all false
open Sys2Proof

theorem execIncrementWrite_keeps {b s t} {a0} (h : Keeps b s.m) (e : execIncrementWrite a0 s = .next t) : Keeps b t.m := by
  unfold execIncrementWrite at e; refine runOn_keeps ?_ e; try dsimp only
  repeat' first | intro _ | with_reducible assumption | with_reducible apply onTime_keeps | with_reducible apply Keeps.ite | with_reducible apply id_keeps | split | exact h.of rfl rfl rfl rfl rfl rfl | rfl | exact Nat.le_refl _ | (simp; done)

theorem writeOffset_keeps {b m} {a0} (h : Keeps b m) : Keeps b (writeOffset a0 m) := by
  unfold writeOffset; try dsimp only
  repeat' first | intro _ | with_reducible assumption | with_reducible apply onTime_keeps | with_reducible apply Keeps.ite | split | exact h.of rfl rfl rfl rfl rfl rfl | rfl | exact Nat.le_refl _ | (simp; done)

theorem execOffsetAddWrite_keeps {b s t} {a0} (h : Keeps b s.m) (e : execOffsetAddWrite a0 s = .next t) : Keeps b t.m := by
  unfold execOffsetAddWrite at e; refine runOn_keeps ?_ e; try dsimp only
  repeat' first | intro _ | with_reducible assumption | with_reducible apply writeOffset_keeps | with_reducible apply Keeps.ite | with_reducible apply id_keeps | split | exact h.of rfl rfl rfl rfl rfl rfl | rfl | exact Nat.le_refl _ | (simp; done)

theorem enterHoldover_keeps {b m} {a0} (h : Keeps b m) : Keeps b (enterHoldover a0 m) := by
  unfold enterHoldover; try dsimp only
  repeat' first | intro _ | with_reducible assumption | with_reducible apply onTime_keeps | with_reducible apply Keeps.ite | split | exact h.of rfl rfl rfl rfl rfl rfl | rfl | exact Nat.le_refl _ | (simp; done)

theorem dropOffset_keeps {b m} (h : Keeps b m) : Keeps b (dropOffset m) := by
  unfold dropOffset; try dsimp only
  repeat' first | intro _ | with_reducible assumption | with_reducible apply onTime_keeps | with_reducible apply Keeps.ite | split | exact h.of rfl rfl rfl rfl rfl rfl | rfl | exact Nat.le_refl _ | (simp; done)

theorem holdMaster_keeps {b m} (h : Keeps b m) : Keeps b (holdMaster m) := by
  unfold holdMaster; try dsimp only
  repeat' first | intro _ | with_reducible assumption | with_reducible apply dropOffset_keeps | with_reducible apply enterHoldover_keeps | with_reducible apply onTime_keeps | with_reducible apply Keeps.ite | split | exact h.of rfl rfl rfl rfl rfl rfl | rfl | exact Nat.le_refl _ | (simp; done)

theorem loseMaster_keeps {b m} (h : Keeps b m) : Keeps b (loseMaster m) := by
  unfold loseMaster; try dsimp only
  repeat' first | intro _ | with_reducible assumption | with_reducible apply holdMaster_keeps | with_reducible apply onTime_keeps | with_reducible apply Keeps.ite | split | exact h.of rfl rfl rfl rfl rfl rfl | rfl | exact Nat.le_refl _ | (simp; done)

theorem timeControlDown_keeps {b m} (h : Keeps b m) : Keeps b (timeControlDown m) := by
  unfold timeControlDown; try dsimp only
  repeat' first | intro _ | with_reducible assumption | with_reducible apply dropOffset_keeps | with_reducible apply holdMaster_keeps | with_reducible apply onTime_keeps | with_reducible apply Keeps.ite | split | exact h.of rfl rfl rfl rfl rfl rfl | rfl | exact Nat.le_refl _ | (simp; done)

theorem execHoldoverLimitExpire_keeps {b s t} (h : Keeps b s.m) (e : execHoldoverLimitExpire s = .next t) : Keeps b t.m := by
  unfold execHoldoverLimitExpire at e; refine runOn_keeps ?_ e; try dsimp only
  repeat' first | intro _ | with_reducible assumption | with_reducible apply onTime_keeps | with_reducible apply passCycles_keeps | with_reducible apply Keeps.ite | with_reducible apply id_keeps | split | exact h.of rfl rfl rfl rfl rfl rfl | rfl | exact Nat.le_refl _ | (simp; done)

theorem judgeOffset_keeps {b m} {a0} (h : Keeps b m) : Keeps b (judgeOffset a0 m) := by
  unfold judgeOffset; try dsimp only
  repeat' first | intro _ | with_reducible assumption | with_reducible apply enterHoldover_keeps | with_reducible apply onTime_keeps | with_reducible apply Keeps.ite | split | exact h.of rfl rfl rfl rfl rfl rfl | rfl | exact Nat.le_refl _ | (simp; done)

theorem decideStep_keeps {b m} {a0} (h : Keeps b m) : Keeps b (decideStep a0 m) := by
  unfold decideStep; try dsimp only
  repeat' first | intro _ | with_reducible assumption | with_reducible apply onTime_keeps | with_reducible apply Keeps.ite | split | exact h.of rfl rfl rfl rfl rfl rfl | rfl | exact Nat.le_refl _ | (simp; done)

theorem chooseMaster_keeps {b m} (h : Keeps b m) : Keeps b (chooseMaster m) := by
  unfold chooseMaster; try dsimp only
  repeat' first | intro _ | with_reducible assumption | with_reducible apply loseMaster_keeps | with_reducible apply onTime_keeps | with_reducible apply Keeps.ite | split | exact h.of rfl rfl rfl rfl rfl rfl | rfl | exact Nat.le_refl _ | (simp; done)

theorem execMasterLoss_keeps {b s t} (h : Keeps b s.m) (e : execMasterLoss s = .next t) : Keeps b t.m := by
  unfold execMasterLoss at e; refine runOn_keeps ?_ e; try dsimp only
  repeat' first | intro _ | with_reducible assumption | with_reducible apply loseMaster_keeps | with_reducible apply passCycles_keeps | with_reducible apply Keeps.ite | with_reducible apply id_keeps | split | exact h.of rfl rfl rfl rfl rfl rfl | rfl | exact Nat.le_refl _ | (simp; done)

theorem setUtc_keeps {b m} {a0 a1} (h : Keeps b m) : Keeps b (setUtc a0 a1 m) := by
  unfold setUtc; try dsimp only
  repeat' first | intro _ | with_reducible assumption | with_reducible apply onTime_keeps | with_reducible apply Keeps.ite | split | exact h.of rfl rfl rfl rfl rfl rfl | rfl | exact Nat.le_refl _ | (simp; done)

theorem takeUtc_keeps {b m} {a0 a1 a2 a3} (h : Keeps b m) : Keeps b (takeUtc a0 a1 a2 a3 m) := by
  unfold takeUtc; try dsimp only
  repeat' first | intro _ | with_reducible assumption | with_reducible apply onTime_keeps | with_reducible apply setUtc_keeps | with_reducible apply Keeps.ite | split | exact h.of rfl rfl rfl rfl rfl rfl | rfl | exact Nat.le_refl _ | (simp; done)

theorem takeOffset_keeps {b m} {a0 a1 a2 a3} (h : Keeps b m) : Keeps b (takeOffset a0 a1 a2 a3 m) := by
  unfold takeOffset; try dsimp only
  repeat' first | intro _ | with_reducible assumption | with_reducible apply decideStep_keeps | with_reducible apply judgeOffset_keeps | with_reducible apply Keeps.ite | split | exact h.of rfl rfl rfl rfl rfl rfl | rfl | exact Nat.le_refl _ | (simp; done)

theorem takeSync_keeps {b m} {a0 a1 a2 a3 a4 a5} (h : Keeps b m) : Keeps b (takeSync a0 a1 a2 a3 a4 a5 m) := by
  unfold takeSync; try dsimp only
  repeat' first | intro _ | with_reducible assumption | with_reducible apply onTime_keeps | with_reducible apply takeOffset_keeps | with_reducible apply Keeps.ite | split | exact h.of rfl rfl rfl rfl rfl rfl | rfl | exact Nat.le_refl _ | (simp; done)

theorem takeFollowUp_keeps {b m} {a0 a1 a2 a3} (h : Keeps b m) : Keeps b (takeFollowUp a0 a1 a2 a3 m) := by
  unfold takeFollowUp; try dsimp only
  repeat' first | intro _ | with_reducible assumption | with_reducible apply onTime_keeps | with_reducible apply takeOffset_keeps | with_reducible apply Keeps.ite | split | exact h.of rfl rfl rfl rfl rfl rfl | rfl | exact Nat.le_refl _ | (simp; done)

theorem setPath_keeps {b m} {a0 a1} (h : Keeps b m) : Keeps b (setPath a0 a1 m) := by
  unfold setPath; try dsimp only
  repeat' first | intro _ | with_reducible assumption | with_reducible apply onTime_keeps | with_reducible apply Keeps.ite | split | exact h.of rfl rfl rfl rfl rfl rfl | rfl | exact Nat.le_refl _ | (simp; done)

theorem takePdelayResp_keeps {b m} {a0 a1 a2 a3 a4 a5} (h : Keeps b m) : Keeps b (takePdelayResp a0 a1 a2 a3 a4 a5 m) := by
  unfold takePdelayResp; try dsimp only
  repeat' first | intro _ | with_reducible assumption | with_reducible apply onTime_keeps | with_reducible apply setPath_keeps | with_reducible apply Keeps.ite | split | exact h.of rfl rfl rfl rfl rfl rfl | rfl | exact Nat.le_refl _ | (simp; done)

theorem takePdelayFollowUp_keeps {b m} {a0 a1 a2 a3} (h : Keeps b m) : Keeps b (takePdelayFollowUp a0 a1 a2 a3 m) := by
  unfold takePdelayFollowUp; try dsimp only
  repeat' first | intro _ | with_reducible assumption | with_reducible apply setPath_keeps | with_reducible apply Keeps.ite | split | exact h.of rfl rfl rfl rfl rfl rfl | rfl | exact Nat.le_refl _ | (simp; done)

theorem takePtp_keeps {b m} {a0 a1} (h : Keeps b m) : Keeps b (takePtp a0 a1 m) := by
  unfold takePtp; try dsimp only
  repeat' first | intro _ | with_reducible assumption | with_reducible apply chooseMaster_keeps | with_reducible apply onTime_keeps | with_reducible apply sendPtp_keeps | with_reducible apply takeFollowUp_keeps | with_reducible apply takePdelayFollowUp_keeps | with_reducible apply takePdelayResp_keeps | with_reducible apply takeSync_keeps | with_reducible apply takeUtc_keeps | with_reducible apply Keeps.ite | split | exact h.of rfl rfl rfl rfl rfl rfl | rfl | exact Nat.le_refl _ | (simp; done)

theorem execPtpMessageReceive_keeps {b s t} {a0 a1} (h : Keeps b s.m) (e : execPtpMessageReceive a0 a1 s = .next t) : Keeps b t.m := by
  unfold execPtpMessageReceive at e; refine runOn_keeps ?_ e; try dsimp only
  repeat' first | intro _ | with_reducible assumption | with_reducible apply onTime_keeps | with_reducible apply takePtp_keeps | with_reducible apply Keeps.ite | with_reducible apply id_keeps | split | exact h.of rfl rfl rfl rfl rfl rfl | rfl | exact Nat.le_refl _ | (simp; done)

theorem ptpInterval_keeps {b m} {a0} (h : Keeps b m) : Keeps b (ptpInterval a0 m) := by
  unfold ptpInterval; try dsimp only
  repeat' first | intro _ | with_reducible assumption | with_reducible apply sendPtp_keeps | with_reducible apply Keeps.ite | split | exact h.of rfl rfl rfl rfl rfl rfl | rfl | exact Nat.le_refl _ | (simp; done)

theorem nextInterval_keeps {b m} (h : Keeps b m) : Keeps b (nextInterval m) := by
  unfold nextInterval; try dsimp only
  repeat' first | intro _ | with_reducible assumption | with_reducible apply onTime_keeps | with_reducible apply passCycles_keeps | with_reducible apply Keeps.ite | split | exact h.of rfl rfl rfl rfl rfl rfl | rfl | exact Nat.le_refl _ | (simp; done)

theorem execPtpMessageSend_keeps {b s t} (h : Keeps b s.m) (e : execPtpMessageSend s = .next t) : Keeps b t.m := by
  unfold execPtpMessageSend at e; refine runOn_keeps ?_ e; try dsimp only
  repeat' first | intro _ | with_reducible assumption | with_reducible apply forEach_keeps | with_reducible apply nextInterval_keeps | with_reducible apply ptpInterval_keeps | with_reducible apply Keeps.ite | with_reducible apply id_keeps | split | exact h.of rfl rfl rfl rfl rfl rfl | rfl | exact Nat.le_refl _ | (simp; done)

theorem execLeapSecond_keeps {b s t} (h : Keeps b s.m) (e : execLeapSecond s = .next t) : Keeps b t.m := by
  unfold execLeapSecond at e; refine runOn_keeps ?_ e; try dsimp only
  repeat' first | intro _ | with_reducible assumption | with_reducible apply advanceTo_keeps | with_reducible apply onTime_keeps | with_reducible apply setUtc_keeps | with_reducible apply Keeps.ite | with_reducible apply id_keeps | split | exact h.of rfl rfl rfl rfl rfl rfl | rfl | exact Nat.le_refl _ | (simp; done)

theorem execSlwTimeSRead_keeps {b s t} {a0} (h : Keeps b s.m) (e : execSlwTimeSRead a0 s = .next t) : Keeps b t.m := by
  unfold execSlwTimeSRead at e; refine runOn_keeps ?_ e; try dsimp only
  repeat' first | intro _ | with_reducible assumption | with_reducible apply coreReads_keeps | with_reducible apply onTime_keeps | with_reducible apply Keeps.ite | with_reducible apply id_keeps | split | exact h.of rfl rfl rfl rfl rfl rfl | rfl | exact Nat.le_refl _ | (simp; done)

theorem execTimeStatus_keeps {b s t} {a0 a1} (h : Keeps b s.m) (e : execTimeStatus a0 a1 s = .next t) : Keeps b t.m := by
  unfold execTimeStatus at e; refine runOn_keeps ?_ e; try dsimp only
  repeat' first | intro _ | with_reducible assumption | with_reducible apply runRead_keeps | with_reducible apply Keeps.ite | with_reducible apply id_keeps | split | exact h.of rfl rfl rfl rfl rfl rfl | rfl | exact Nat.le_refl _ | (simp; done)

theorem atRate_keeps {b m} {a0} (h : Keeps b m) : Keeps b (atRate a0 m) := by
  unfold atRate; try dsimp only
  repeat' first | intro _ | with_reducible assumption | with_reducible apply onTime_keeps | with_reducible apply Keeps.ite | split | exact h.of rfl rfl rfl rfl rfl rfl | rfl | exact Nat.le_refl _ | (simp; done)

theorem makeRate_keeps {b m} {a0 a1} (h : Keeps b m) : Keeps b (makeRate a0 a1 m) := by
  unfold makeRate; try dsimp only
  repeat' first | intro _ | with_reducible assumption | with_reducible apply onTime_keeps | with_reducible apply raiseAccepted_keeps | with_reducible apply respond_keeps | with_reducible apply Keeps.ite | split | exact h.of rfl rfl rfl rfl rfl rfl | rfl | exact Nat.le_refl _ | (simp; done)

theorem applyPtpSet_keeps {b m} {a0} (h : Keeps b m) : Keeps b (applyPtpSet a0 m) := by
  unfold applyPtpSet; try dsimp only
  repeat' first | intro _ | with_reducible assumption | with_reducible apply holdMaster_keeps | with_reducible apply onTime_keeps | with_reducible apply Keeps.ite | split | exact h.of rfl rfl rfl rfl rfl rfl | rfl | exact Nat.le_refl _ | (simp; done)

end Sys2Proof.Machine
end

