-- ==== Sys2Proof/Laws/KeepsSys.lean ====
section
/-! SUPPORT. What every operation and every command of Machine/Sys keeps (Keeps, Laws/Keeps). -/
namespace Sys2Proof.Machine
set_option linter.all false
open Sys2Proof

theorem execSysIdent_keeps {b s t} {a0 a1} (h : Keeps b s.m) (e : execSysIdent a0 a1 s = .next t) : Keeps b t.m := by
  unfold execSysIdent at e; refine runOn_keeps ?_ e; try dsimp only
  repeat' first | intro _ | with_reducible assumption | with_reducible apply runRead_keeps | with_reducible apply Keeps.ite | with_reducible apply id_keeps | split | exact h.of rfl rfl rfl rfl rfl rfl | rfl | exact Nat.le_refl _ | (simp; done)

theorem execSysStatus_keeps {b s t} {a0 a1} (h : Keeps b s.m) (e : execSysStatus a0 a1 s = .next t) : Keeps b t.m := by
  unfold execSysStatus at e; refine runOn_keeps ?_ e; try dsimp only
  repeat' first | intro _ | with_reducible assumption | with_reducible apply runRead_keeps | with_reducible apply Keeps.ite | with_reducible apply id_keeps | split | exact h.of rfl rfl rfl rfl rfl rfl | rfl | exact Nat.le_refl _ | (simp; done)

theorem applyHoldoff_keeps {b m} {a0} (h : Keeps b m) : Keeps b (applyHoldoff a0 m) := by
  unfold applyHoldoff; try dsimp only
  repeat' first | intro _ | with_reducible assumption | with_reducible apply onTime_keeps | with_reducible apply Keeps.ite | split | exact h.of rfl rfl rfl rfl rfl rfl | rfl | exact Nat.le_refl _ | (simp; done)

theorem grantEvent_keeps {b m} {a0 a1 a2} (h : Keeps b m) : Keeps b (grantEvent a0 a1 a2 m) := by
  unfold grantEvent; try dsimp only
  repeat' first | intro _ | with_reducible assumption | with_reducible apply raise_keeps | with_reducible apply Keeps.ite | split | exact h.of rfl rfl rfl rfl rfl rfl | rfl | exact Nat.le_refl _ | (simp; done)

theorem gainRights_keeps {b m} {a0 a1} (h : Keeps b m) : Keeps b (gainRights a0 a1 m) := by
  unfold gainRights; try dsimp only
  repeat' first | intro _ | with_reducible assumption | with_reducible apply onSess_keeps | with_reducible apply Keeps.ite | split | exact h.of rfl rfl rfl rfl rfl rfl | rfl | exact Nat.le_refl _ | (simp; done)

theorem execSysRoleGrant_keeps {b s t} {a0 a1} (h : Keeps b s.m) (e : execSysRoleGrant a0 a1 s = .next t) : Keeps b t.m := by
  unfold execSysRoleGrant at e; refine runOn_keeps ?_ e; try dsimp only
  repeat' first | intro _ | with_reducible assumption | with_reducible apply gainRights_keeps | with_reducible apply grantEvent_keeps | with_reducible apply judged_keeps | with_reducible apply raiseAccepted_keeps | with_reducible apply respond_keeps | with_reducible apply Keeps.ite | with_reducible apply id_keeps | split | exact h.of rfl rfl rfl rfl rfl rfl | rfl | exact Nat.le_refl _ | (simp; done)

theorem execSysCapRead_keeps {b s t} {a0 a1} (h : Keeps b s.m) (e : execSysCapRead a0 a1 s = .next t) : Keeps b t.m := by
  unfold execSysCapRead at e; refine runOn_keeps ?_ e; try dsimp only
  repeat' first | intro _ | with_reducible assumption | with_reducible apply runRead_keeps | with_reducible apply Keeps.ite | with_reducible apply id_keeps | split | exact h.of rfl rfl rfl rfl rfl rfl | rfl | exact Nat.le_refl _ | (simp; done)

theorem runRestart_keeps {b m} {a0 a1} (h : Keeps b m) : Keeps b (runRestart a0 a1 m) := by
  unfold runRestart; try dsimp only
  repeat' first | intro _ | with_reducible assumption | with_reducible apply judged_keeps | with_reducible apply onDom_keeps | with_reducible apply raiseAccepted_keeps | with_reducible apply respond_keeps | with_reducible apply startYield_keeps | with_reducible apply Keeps.ite | split | exact h.of rfl rfl rfl rfl rfl rfl | rfl | exact Nat.le_refl _ | (simp; done)

theorem execSysRestartCold_keeps {b s t} {a0 a1} (h : Keeps b s.m) (e : execSysRestartCold a0 a1 s = .next t) : Keeps b t.m := by
  unfold execSysRestartCold at e; refine runOn_keeps ?_ e; try dsimp only
  repeat' first | intro _ | with_reducible assumption | with_reducible apply runRestart_keeps | with_reducible apply Keeps.ite | with_reducible apply id_keeps | split | exact h.of rfl rfl rfl rfl rfl rfl | rfl | exact Nat.le_refl _ | (simp; done)

theorem execSysRestartModule_keeps {b s t} {a0 a1} (h : Keeps b s.m) (e : execSysRestartModule a0 a1 s = .next t) : Keeps b t.m := by
  unfold execSysRestartModule at e; refine runOn_keeps ?_ e; try dsimp only
  repeat' first | intro _ | with_reducible assumption | with_reducible apply runRestart_keeps | with_reducible apply Keeps.ite | with_reducible apply id_keeps | split | exact h.of rfl rfl rfl rfl rfl rfl | rfl | exact Nat.le_refl _ | (simp; done)

theorem execSysRestartCompute_keeps {b s t} {a0 a1} (h : Keeps b s.m) (e : execSysRestartCompute a0 a1 s = .next t) : Keeps b t.m := by
  unfold execSysRestartCompute at e; refine runOn_keeps ?_ e; try dsimp only
  repeat' first | intro _ | with_reducible assumption | with_reducible apply runRestart_keeps | with_reducible apply Keeps.ite | with_reducible apply id_keeps | split | exact h.of rfl rfl rfl rfl rfl rfl | rfl | exact Nat.le_refl _ | (simp; done)

theorem execSysRestartSleep_keeps {b s t} {a0 a1} (h : Keeps b s.m) (e : execSysRestartSleep a0 a1 s = .next t) : Keeps b t.m := by
  unfold execSysRestartSleep at e; refine runOn_keeps ?_ e; try dsimp only
  repeat' first | intro _ | with_reducible assumption | with_reducible apply runRestart_keeps | with_reducible apply Keeps.ite | with_reducible apply id_keeps | split | exact h.of rfl rfl rfl rfl rfl rfl | rfl | exact Nat.le_refl _ | (simp; done)

theorem execSysRestartSleepFabric_keeps {b s t} {a0 a1} (h : Keeps b s.m) (e : execSysRestartSleepFabric a0 a1 s = .next t) : Keeps b t.m := by
  unfold execSysRestartSleepFabric at e; refine runOn_keeps ?_ e; try dsimp only
  repeat' first | intro _ | with_reducible assumption | with_reducible apply runRestart_keeps | with_reducible apply Keeps.ite | with_reducible apply id_keeps | split | exact h.of rfl rfl rfl rfl rfl rfl | rfl | exact Nat.le_refl _ | (simp; done)

end Sys2Proof.Machine
end

