-- ==== Sys2Proof/Laws/KeepsSec.lean ====
section
/-! SUPPORT. What every operation and every command of Machine/Sec keeps (Keeps, Laws/Keeps). -/
namespace Sys2Proof.Machine
set_option linter.all false
open Sys2Proof

theorem stageOp_keeps {b m} {a0 a1} (h : Keeps b m) : Keeps b (stageOp a0 a1 m) := by
  unfold stageOp; try dsimp only
  repeat' first | intro _ | with_reducible assumption | with_reducible apply onSec_keeps | with_reducible apply Keeps.ite | split | exact h.of rfl rfl rfl rfl rfl rfl | rfl | exact Nat.le_refl _ | (simp; done)

theorem runStage_keeps {b m} {a0 a1} (h : Keeps b m) : Keeps b (runStage a0 a1 m) := by
  unfold runStage; try dsimp only
  repeat' first | intro _ | with_reducible assumption | with_reducible apply runNow_keeps | with_reducible apply stageOp_keeps | with_reducible apply Keeps.ite | split | exact h.of rfl rfl rfl rfl rfl rfl | rfl | exact Nat.le_refl _ | (simp; done)

theorem execCfgStageOpen_keeps {b s t} {a0 a1} (h : Keeps b s.m) (e : execCfgStageOpen a0 a1 s = .next t) : Keeps b t.m := by
  unfold execCfgStageOpen at e; refine runOn_keeps ?_ e; try dsimp only
  repeat' first | intro _ | with_reducible assumption | with_reducible apply runStage_keeps | with_reducible apply Keeps.ite | with_reducible apply id_keeps | split | exact h.of rfl rfl rfl rfl rfl rfl | rfl | exact Nat.le_refl _ | (simp; done)

theorem execCfgStageWrite_keeps {b s t} {a0 a1} (h : Keeps b s.m) (e : execCfgStageWrite a0 a1 s = .next t) : Keeps b t.m := by
  unfold execCfgStageWrite at e; refine runOn_keeps ?_ e; try dsimp only
  repeat' first | intro _ | with_reducible assumption | with_reducible apply runStage_keeps | with_reducible apply Keeps.ite | with_reducible apply id_keeps | split | exact h.of rfl rfl rfl rfl rfl rfl | rfl | exact Nat.le_refl _ | (simp; done)

theorem execCfgStageDiscard_keeps {b s t} {a0 a1} (h : Keeps b s.m) (e : execCfgStageDiscard a0 a1 s = .next t) : Keeps b t.m := by
  unfold execCfgStageDiscard at e; refine runOn_keeps ?_ e; try dsimp only
  repeat' first | intro _ | with_reducible assumption | with_reducible apply runStage_keeps | with_reducible apply Keeps.ite | with_reducible apply id_keeps | split | exact h.of rfl rfl rfl rfl rfl rfl | rfl | exact Nat.le_refl _ | (simp; done)

theorem storeImage_keeps {b m} {a0} (h : Keeps b m) : Keeps b (storeImage a0 m) := by
  unfold storeImage; try dsimp only
  repeat' first | intro _ | with_reducible assumption | with_reducible apply onSec_keeps | with_reducible apply Keeps.ite | split | exact h.of rfl rfl rfl rfl rfl rfl | rfl | exact Nat.le_refl _ | (simp; done)

theorem execCfgImageStore_keeps {b s t} {a0 a1} (h : Keeps b s.m) (e : execCfgImageStore a0 a1 s = .next t) : Keeps b t.m := by
  unfold execCfgImageStore at e; refine runOn_keeps ?_ e; try dsimp only
  repeat' first | intro _ | with_reducible assumption | with_reducible apply runNow_keeps | with_reducible apply storeImage_keeps | with_reducible apply Keeps.ite | with_reducible apply id_keeps | split | exact h.of rfl rfl rfl rfl rfl rfl | rfl | exact Nat.le_refl _ | (simp; done)

theorem execCfgImageDelete_keeps {b s t} {a0 a1} (h : Keeps b s.m) (e : execCfgImageDelete a0 a1 s = .next t) : Keeps b t.m := by
  unfold execCfgImageDelete at e; refine runOn_keeps ?_ e; try dsimp only
  repeat' first | intro _ | with_reducible assumption | with_reducible apply onSec_keeps | with_reducible apply runNow_keeps | with_reducible apply Keeps.ite | with_reducible apply id_keeps | split | exact h.of rfl rfl rfl rfl rfl rfl | rfl | exact Nat.le_refl _ | (simp; done)

theorem execCfgExport_keeps {b s t} {a0 a1} (h : Keeps b s.m) (e : execCfgExport a0 a1 s = .next t) : Keeps b t.m := by
  unfold execCfgExport at e; refine runOn_keeps ?_ e; try dsimp only
  repeat' first | intro _ | with_reducible assumption | with_reducible apply runRead_keeps | with_reducible apply Keeps.ite | with_reducible apply id_keeps | split | exact h.of rfl rfl rfl rfl rfl rfl | rfl | exact Nat.le_refl _ | (simp; done)

theorem execCfgStatus_keeps {b s t} {a0 a1} (h : Keeps b s.m) (e : execCfgStatus a0 a1 s = .next t) : Keeps b t.m := by
  unfold execCfgStatus at e; refine runOn_keeps ?_ e; try dsimp only
  repeat' first | intro _ | with_reducible assumption | with_reducible apply runRead_keeps | with_reducible apply Keeps.ite | with_reducible apply id_keeps | split | exact h.of rfl rfl rfl rfl rfl rfl | rfl | exact Nat.le_refl _ | (simp; done)

theorem ownerOp_keeps {b m} {h0 a0} (h : Keeps b m) (hc : secOwnerSlot.check m h0 a0 = 0) : Keeps b (ownerOp a0 m) := by
  have key : (rd 1 a0 1 = 0 → ∀ d, tget m.sec.owners (rd 1 a0 0) ≠ some (.revoked d) ∧ tget m.sec.owners (rd 1 a0 0) ≠ some (.active d)) ∧
      (rd 1 a0 1 ≠ 0 → rd 1 a0 0 ≠ 0 ∧ ∃ d, tget m.sec.owners (rd 1 a0 0) = some (.active d)) := by
    have empty : slotEmpty m (rd 1 a0 0) = true → ∀ d, tget m.sec.owners (rd 1 a0 0) ≠ some (.revoked d) ∧ tget m.sec.owners (rd 1 a0 0) ≠ some (.active d) := by
      intro he d
      simp only [slotEmpty, slotActive, slotRevoked, slotDigest, Bool.and_eq_true, Bool.not_eq_true', decide_eq_true_eq] at he
      obtain ⟨⟨⟨h1, h3⟩, h4⟩, h5⟩ := he
      have h0 : rd 1 a0 0 ≠ 0 := by omega
      refine ⟨fun e => ?_, fun e => ?_⟩
      · simp [e] at h5
      · simp [e, h0, h1, h3] at h4
    have act : slotActive m (rd 1 a0 0) = true → rd 1 a0 0 ≠ 0 ∧ ∃ d, tget m.sec.owners (rd 1 a0 0) = some (.active d) := by
      intro ha
      simp only [slotActive, slotDigest, Bool.and_eq_true, decide_eq_true_eq] at ha
      obtain ⟨⟨h1, h3⟩, h4⟩ := ha
      have h0 : rd 1 a0 0 ≠ 0 := by omega
      rw [if_neg h0] at h4
      split at h4
      · rename_i d hd; exact ⟨h0, d, hd⟩
      · cases h4
      · cases h4
      · cases h4
    simp only [secOwnerSlot] at hc
    split at hc
    · split at hc
      · rename_i hp
        simp only [Bool.and_eq_true, beq_iff_eq] at hp
        exact ⟨fun _ => empty hp.2, fun h => absurd hp.1.1.1 h⟩
      · cases hc
    · simp only [firstFail] at hc
      split at hc
      · cases hc
      · split at hc
        · cases hc
        · rename_i hp
          split at hc
          · cases hc
          · rename_i hq
            refine ⟨fun h => empty ?_, fun h => act ?_⟩
            · simpa [h] using hp
            · simp [h] at hq; exact hq.1.1
  unfold ownerOp; dsimp only
  split
  · rename_i hp
    have hp' : rd 1 a0 1 = 0 := by simpa using hp
    refine (raise_keeps h).trans ⟨id, id, id, fun k c hc => k c hc, id, id, rfl, rfl, ⟨fun i d hi => ?_, fun i d hi => .inl ?_⟩, Nat.le_refl _, Nat.le_refl _⟩
    all_goals
      have hi' : tget m.sec.owners i = some _ := hi
      have hne : i ≠ rd 1 a0 0 := by
        rintro rfl
        first
          | exact (key.1 hp' d).1 hi'
          | exact (key.1 hp' d).2 hi'
      exact (tget_tset_other _ _ _ _ hne).trans hi'
  · rename_i hp
    have hp' : rd 1 a0 1 ≠ 0 := by simpa using hp
    obtain ⟨hz, d0, hd0⟩ := key.2 hp'
    refine onMbx_keeps ((raise_keeps h).trans ⟨id, id, id, fun k c hc => k c hc, id, id, rfl, rfl, ⟨fun i d hi => ?_, fun i d hi => ?_⟩, Nat.le_refl _, Nat.le_refl _⟩)
    · have hi' : tget m.sec.owners i = some (.revoked d) := hi
      have hne : i ≠ rd 1 a0 0 := by rintro rfl; rw [hd0] at hi'; cases hi'
      exact (tget_tset_other _ _ _ _ hne).trans hi'
    · have hi' : tget m.sec.owners i = some (.active d) := hi
      by_cases hne : i = rd 1 a0 0
      · subst hne
        right
        rw [hd0] at hi'
        cases hi'
        have e : slotDigest m (rd 1 a0 0) = some d0 := by simp [slotDigest, hz, hd0]
        refine (tget_tset_same _ _ _).trans ?_
        show some (OwnerSlot.revoked ((slotDigest m (rd 1 a0 0)).getD [])) = _
        rw [e]; rfl
      · exact .inl ((tget_tset_other _ _ _ _ hne).trans hi')

theorem judge_check {c : Cmd} {m h p} (hj : judge c m h p = 0) : c.check (c.proj m h) h p = 0 := by
  refine Decidable.byContradiction fun hg => ?_
  unfold judge at hj; dsimp only at hj
  simp only [if_pos hg] at hj
  repeat' first | exact absurd hj hg | exact absurd hj ‹_› | cases hj; done | split at hj

theorem runOwner_keeps {b m} {a0 a1} (h : Keeps b m) : Keeps b (runOwner a0 a1 m) := by
  have go : ∀ h' : Hdr, secOwnerSlot.check m h' a1 = 0 → Keeps b (respond secOwnerSlot.code h' (roleOf m h') h'.apply 0 [] (ownerOp a1
      (raiseAccepted secOwnerSlot.code h' (roleOf m h') h'.apply 0 m))) := fun h' hc =>
    respond_keeps (ownerOp_keeps (h0 := h') (raiseAccepted_keeps h) hc)
  unfold runOwner runNow judged; dsimp only
  split
  · exact h
  · split
    · split
      · split
        · unfold ownUnit; dsimp only
          split
          · exact startRelay_keeps h
          · split
            · exact refuse_keeps h
            · rename_i hj
              have hc := judge_check (Decidable.not_not.mp hj)
              split
              · exact go _ hc
              · exact startRelay_keeps (onSess_keeps (go _ hc))
        · exact relayOut_keeps h
      · exact relayOut_keeps h
    · split
      · exact refuse_keeps h
      · rename_i hj
        exact go _ (judge_check (Decidable.not_not.mp hj))

theorem execSecOwnerSlotProgram_keeps {b s t} {a0 a1} (h : Keeps b s.m) (e : execSecOwnerSlotProgram a0 a1 s = .next t) : Keeps b t.m := by
  unfold execSecOwnerSlotProgram at e; refine runOn_keeps ?_ e; try dsimp only
  repeat' first | intro _ | with_reducible assumption | with_reducible apply runOwner_keeps | with_reducible apply Keeps.ite | with_reducible apply id_keeps | split | exact h.of rfl rfl rfl rfl rfl rfl | rfl | exact Nat.le_refl _ | (simp; done)

theorem execSecOwnerSlotRevoke_keeps {b s t} {a0 a1} (h : Keeps b s.m) (e : execSecOwnerSlotRevoke a0 a1 s = .next t) : Keeps b t.m := by
  unfold execSecOwnerSlotRevoke at e; refine runOn_keeps ?_ e; try dsimp only
  repeat' first | intro _ | with_reducible assumption | with_reducible apply runOwner_keeps | with_reducible apply Keeps.ite | with_reducible apply id_keeps | split | exact h.of rfl rfl rfl rfl rfl rfl | rfl | exact Nat.le_refl _ | (simp; done)

theorem applyKeyLoad_keeps {b m} {a0} (h : Keeps b m) : Keeps b (applyKeyLoad a0 m) := by
  unfold applyKeyLoad; try dsimp only
  repeat' first | intro _ | with_reducible assumption | with_reducible apply onSec_keeps | with_reducible apply raise_keeps | with_reducible apply Keeps.ite | split | exact h.of rfl rfl rfl rfl rfl rfl | rfl | exact Nat.le_refl _ | (simp; done)

theorem tlsOp_keeps {b m} {a0} (h : Keeps b m) : Keeps b (tlsOp a0 m) := by
  unfold tlsOp; try dsimp only
  repeat' first | intro _ | with_reducible assumption | with_reducible apply onSec_keeps | with_reducible apply raise_keeps | with_reducible apply Keeps.ite | split | exact h.of rfl rfl rfl rfl rfl rfl | rfl | exact Nat.le_refl _ | (simp; done)

theorem runTls_keeps {b m} {a0 a1} (h : Keeps b m) : Keeps b (runTls a0 a1 m) := by
  unfold runTls; split
  · exact runRead_keeps h fun _ k => k
  · exact runNow_keeps h fun _ k => tlsOp_keeps k

theorem execSecTlsAnchorSet_keeps {b s t} {a0 a1} (h : Keeps b s.m) (e : execSecTlsAnchorSet a0 a1 s = .next t) : Keeps b t.m := by
  unfold execSecTlsAnchorSet at e; refine runOn_keeps ?_ e; try dsimp only
  repeat' first | intro _ | with_reducible assumption | with_reducible apply runTls_keeps | with_reducible apply Keeps.ite | with_reducible apply id_keeps | split | exact h.of rfl rfl rfl rfl rfl rfl | rfl | exact Nat.le_refl _ | (simp; done)

theorem execSecTlsAnchorClear_keeps {b s t} {a0 a1} (h : Keeps b s.m) (e : execSecTlsAnchorClear a0 a1 s = .next t) : Keeps b t.m := by
  unfold execSecTlsAnchorClear at e; refine runOn_keeps ?_ e; try dsimp only
  repeat' first | intro _ | with_reducible assumption | with_reducible apply runTls_keeps | with_reducible apply Keeps.ite | with_reducible apply id_keeps | split | exact h.of rfl rfl rfl rfl rfl rfl | rfl | exact Nat.le_refl _ | (simp; done)

theorem execSecTlsModuleCert_keeps {b s t} {a0 a1} (h : Keeps b s.m) (e : execSecTlsModuleCert a0 a1 s = .next t) : Keeps b t.m := by
  unfold execSecTlsModuleCert at e; refine runOn_keeps ?_ e; try dsimp only
  repeat' first | intro _ | with_reducible assumption | with_reducible apply runTls_keeps | with_reducible apply Keeps.ite | with_reducible apply id_keeps | split | exact h.of rfl rfl rfl rfl rfl rfl | rfl | exact Nat.le_refl _ | (simp; done)

theorem execSecTlsReadPublicKey_keeps {b s t} {a0 a1} (h : Keeps b s.m) (e : execSecTlsReadPublicKey a0 a1 s = .next t) : Keeps b t.m := by
  unfold execSecTlsReadPublicKey at e; refine runOn_keeps ?_ e; try dsimp only
  repeat' first | intro _ | with_reducible assumption | with_reducible apply runTls_keeps | with_reducible apply Keeps.ite | with_reducible apply id_keeps | split | exact h.of rfl rfl rfl rfl rfl rfl | rfl | exact Nat.le_refl _ | (simp; done)

theorem installFw_keeps {b m} {a0 a1} (h : Keeps b m) : Keeps b (installFw a0 a1 m) := by
  unfold installFw; try dsimp only
  repeat' first | intro _ | with_reducible assumption | with_reducible apply onSec_keeps | with_reducible apply raise_keeps | with_reducible apply Keeps.ite | split | exact h.of rfl rfl rfl rfl rfl rfl | rfl | exact Nat.le_refl _ | (simp; done)

theorem execSecFwInstall_keeps {b s t} {a0 a1} (h : Keeps b s.m) (e : execSecFwInstall a0 a1 s = .next t) : Keeps b t.m := by
  unfold execSecFwInstall at e; refine runOn_keeps ?_ e; try dsimp only
  repeat' first | intro _ | with_reducible assumption | with_reducible apply installFw_keeps | with_reducible apply runNow_keeps | with_reducible apply Keeps.ite | with_reducible apply id_keeps | split | exact h.of rfl rfl rfl rfl rfl rfl | rfl | exact Nat.le_refl _ | (simp; done)

theorem execSecAttest_keeps {b s t} {a0 a1} (h : Keeps b s.m) (e : execSecAttest a0 a1 s = .next t) : Keeps b t.m := by
  unfold execSecAttest at e; refine runOn_keeps ?_ e; try dsimp only
  repeat' first | intro _ | with_reducible assumption | with_reducible apply judged_keeps | with_reducible apply onSec_keeps | with_reducible apply raiseAccepted_keeps | with_reducible apply Keeps.ite | with_reducible apply id_keeps | split | exact h.of rfl rfl rfl rfl rfl rfl | rfl | exact Nat.le_refl _ | (simp; done)

theorem execAttestSignComplete_keeps {b s t} (h : Keeps b s.m) (e : execAttestSignComplete s = .next t) : Keeps b t.m := by
  unfold execAttestSignComplete at e; refine runOn_keeps ?_ e; try dsimp only
  repeat' first | intro _ | with_reducible assumption | with_reducible apply onSec_keeps | with_reducible apply respond_keeps | with_reducible apply Keeps.ite | with_reducible apply id_keeps | split | exact h.of rfl rfl rfl rfl rfl rfl | rfl | exact Nat.le_refl _ | (simp; done)

theorem execSecStatus_keeps {b s t} {a0 a1} (h : Keeps b s.m) (e : execSecStatus a0 a1 s = .next t) : Keeps b t.m := by
  unfold execSecStatus at e; refine runOn_keeps ?_ e; try dsimp only
  repeat' first | intro _ | with_reducible assumption | with_reducible apply runRead_keeps | with_reducible apply Keeps.ite | with_reducible apply id_keeps | split | exact h.of rfl rfl rfl rfl rfl rfl | rfl | exact Nat.le_refl _ | (simp; done)

end Sys2Proof.Machine
end

