-- ==== Sys2Proof/Laws/KeepsApply.lean ====
section
/-! SUPPORT. What every operation and every command of Machine/Apply keeps (Keeps, Laws/Keeps). -/
namespace Sys2Proof.Machine
set_option linter.all false
open Sys2Proof

theorem applyChange_keeps {b m} {a0} (h : Keeps b m) : Keeps b (applyChange a0 m) := by
  unfold applyChange; try dsimp only
  repeat' first | intro _ | with_reducible assumption | with_reducible apply applyAdmit_keeps | with_reducible apply applyBankLoad_keeps | with_reducible apply applyBufSet_keeps | with_reducible apply applyChanSet_keeps | with_reducible apply applyClear_keeps | with_reducible apply applyCodeSet_keeps | with_reducible apply applyCurveSet_keeps | with_reducible apply applyElemSet_keeps | with_reducible apply applyEstSet_keeps | with_reducible apply applyForce_keeps | with_reducible apply applyFreeze_keeps | with_reducible apply applyGroupSet_keeps | with_reducible apply applyHandlerSet_keeps | with_reducible apply applyHoldoff_keeps | with_reducible apply applyHueSet_keeps | with_reducible apply applyKeyLoad_keeps | with_reducible apply applyLattice_keeps | with_reducible apply applyMemRelease_keeps | with_reducible apply applyPairSet_keeps | with_reducible apply applyPointSet_keeps | with_reducible apply applyPortSet_keeps | with_reducible apply applyPreset_keeps | with_reducible apply applyProgExchange_keeps | with_reducible apply applyProgLoad_keeps | with_reducible apply applyProgSet_keeps | with_reducible apply applyPtpSet_keeps | with_reducible apply applyPubSet_keeps | with_reducible apply applyPulseIn_keeps | with_reducible apply applyPulseOut_keeps | with_reducible apply applyQueueSet_keeps | with_reducible apply applyQuotaSet_keeps | with_reducible apply applyRangeSet_keeps | with_reducible apply applyRemove_keeps | with_reducible apply applyReset_keeps | with_reducible apply applyResource_keeps | with_reducible apply applyRestart_keeps | with_reducible apply applyRights_keeps | with_reducible apply applyRingSet_keeps | with_reducible apply applyRingsetSet_keeps | with_reducible apply applyRuleSet_keeps | with_reducible apply applyStart_keeps | with_reducible apply applyStop_keeps | with_reducible apply applyStreamSet_keeps | with_reducible apply applySubEntry_keeps | with_reducible apply applySubList_keeps | with_reducible apply applySubSet_keeps | with_reducible apply applySwPortSet_keeps | with_reducible apply applySwap_keeps | with_reducible apply applyTripSet_keeps | with_reducible apply applyUmbConfig_keeps | with_reducible apply applyUpubSet_keeps | with_reducible apply beginPrograms_keeps | with_reducible apply loadLattice_keeps | with_reducible apply Keeps.ite | split | exact h.of rfl rfl rfl rfl rfl rfl | rfl | exact Nat.le_refl _ | (simp; done)

theorem changeEvent_keeps {b m} {a0 a1 a2 a3 a4} (h : Keeps b m) : Keeps b (changeEvent a0 a1 a2 a3 a4 m) := by
  unfold changeEvent; try dsimp only
  repeat' first | intro _ | with_reducible assumption | with_reducible apply raise_keeps | with_reducible apply Keeps.ite | split | exact h.of rfl rfl rfl rfl rfl rfl | rfl | exact Nat.le_refl _ | (simp; done)

theorem dropChange_keeps {b m} {a0} (h : Keeps b m) : Keeps b (dropChange a0 m) := by
  unfold dropChange; try dsimp only
  repeat' first | intro _ | with_reducible assumption | with_reducible apply onMbx_keeps | with_reducible apply Keeps.ite | split | exact h.of rfl rfl rfl rfl rfl rfl | rfl | exact Nat.le_refl _ | (simp; done)

theorem answerChange_keeps {b m} {a0} (h : Keeps b m) : Keeps b (answerChange a0 m) := by
  unfold answerChange; try dsimp only
  repeat' first | intro _ | with_reducible assumption | with_reducible apply respond_keeps | with_reducible apply Keeps.ite | split | exact h.of rfl rfl rfl rfl rfl rfl | rfl | exact Nat.le_refl _ | (simp; done)

theorem makeLate_keeps {b m} {a0} (h : Keeps b m) : Keeps b (makeLate a0 m) := by
  unfold makeLate; try dsimp only
  repeat' first | intro _ | with_reducible assumption | with_reducible apply applyChange_keeps | with_reducible apply forEach_keeps | with_reducible apply onTime_keeps | with_reducible apply Keeps.ite | split | exact h.of rfl rfl rfl rfl rfl rfl | rfl | exact Nat.le_refl _ | (simp; done)

theorem settleCodes_keeps {b m} {a0} (h : Keeps b m) : Keeps b (settleCodes a0 m) := by
  unfold settleCodes; try dsimp only
  repeat' first | intro _ | with_reducible assumption | with_reducible apply forEach_keeps | with_reducible apply makeLate_keeps | with_reducible apply onTime_keeps | with_reducible apply Keeps.ite | split | exact h.of rfl rfl rfl rfl rfl rfl | rfl | exact Nat.le_refl _ | (simp; done)

theorem settleLate_keeps {b m} (h : Keeps b m) : Keeps b (settleLate m) := by
  unfold settleLate; try dsimp only
  repeat' first | intro _ | with_reducible assumption | with_reducible apply settleCodes_keeps | with_reducible apply Keeps.ite | split | exact h.of rfl rfl rfl rfl rfl rfl | rfl | exact Nat.le_refl _ | (simp; done)

theorem makeChange_keeps {b m} {a0} (h : Keeps b m) : Keeps b (makeChange a0 m) := by
  unfold makeChange; try dsimp only
  repeat' first | intro _ | with_reducible assumption | with_reducible apply applyChange_keeps | with_reducible apply Keeps.ite | split | exact h.of rfl rfl rfl rfl rfl rfl | rfl | exact Nat.le_refl _ | (simp; done)

theorem makeAtTick_keeps {b m} {a0} (h : Keeps b m) : Keeps b (makeAtTick a0 m) := by
  unfold makeAtTick; try dsimp only
  repeat' first | intro _ | with_reducible assumption | with_reducible apply addLate_keeps | with_reducible apply makeChange_keeps | with_reducible apply Keeps.ite | split | exact h.of rfl rfl rfl rfl rfl rfl | rfl | exact Nat.le_refl _ | (simp; done)

theorem effectChange_keeps {b m} {a0} (h : Keeps b m) : Keeps b (effectChange a0 m) := by
  unfold effectChange; try dsimp only
  repeat' first | intro _ | with_reducible assumption | with_reducible apply answerChange_keeps | with_reducible apply changeEvent_keeps | with_reducible apply dropChange_keeps | with_reducible apply journalAdd_keeps | with_reducible apply makeAtTick_keeps | with_reducible apply Keeps.ite | split | exact h.of rfl rfl rfl rfl rfl rfl | rfl | exact Nat.le_refl _ | (simp; done)

theorem execScheduledChangeApply_keeps {b s t} (h : Keeps b s.m) (e : execScheduledChangeApply s = .next t) : Keeps b t.m := by
  unfold execScheduledChangeApply at e; refine runOn_keeps ?_ e; try dsimp only
  repeat' first | intro _ | with_reducible assumption | with_reducible apply effectChange_keeps | with_reducible apply Keeps.ite | with_reducible apply id_keeps | split | exact h.of rfl rfl rfl rfl rfl rfl | rfl | exact Nat.le_refl _ | (simp; done)

theorem undoChange_keeps {b m} {a0} (h : Keeps b m) : Keeps b (undoChange a0 m) := by
  unfold undoChange; try dsimp only
  repeat' first | intro _ | with_reducible assumption | with_reducible apply dropAdmit_keeps | with_reducible apply endMigration_keeps | with_reducible apply onCpu_keeps | with_reducible apply rscCount_keeps | with_reducible apply Keeps.ite | split | exact h.of rfl rfl rfl rfl rfl rfl | rfl | exact Nat.le_refl _ | (simp; done)

theorem discardChange_keeps {b m} {a0} (h : Keeps b m) : Keeps b (discardChange a0 m) := by
  unfold discardChange; try dsimp only
  repeat' first | intro _ | with_reducible assumption | with_reducible apply changeEvent_keeps | with_reducible apply dropChange_keeps | with_reducible apply respond_keeps | with_reducible apply undoChange_keeps | with_reducible apply Keeps.ite | split | exact h.of rfl rfl rfl rfl rfl rfl | rfl | exact Nat.le_refl _ | (simp; done)

theorem discardWhere_keeps {b m} {a0} (h : Keeps b m) : Keeps b (discardWhere a0 m) := by
  unfold discardWhere; try dsimp only
  repeat' first | intro _ | with_reducible assumption | with_reducible apply discardChange_keeps | with_reducible apply forEach_keeps | with_reducible apply Keeps.ite | split | exact h.of rfl rfl rfl rfl rfl rfl | rfl | exact Nat.le_refl _ | (simp; done)

theorem arriveBy_keeps {b m} {a0} (h : Keeps b m) : Keeps b (arriveBy a0 m) := by
  unfold arriveBy; try dsimp only
  repeat' first | intro _ | with_reducible assumption | with_reducible apply onCpu_keeps | with_reducible apply Keeps.ite | split | exact h.of rfl rfl rfl rfl rfl rfl | rfl | exact Nat.le_refl _ | (simp; done)

theorem passTo_keeps {b m} {a0} (h : Keeps b m) : Keeps b (passTo a0 m) := by
  unfold passTo; try dsimp only
  repeat' first | intro _ | with_reducible assumption | with_reducible apply onFlt_keeps | with_reducible apply onTime_keeps | with_reducible apply Keeps.ite | split | exact h.of rfl rfl rfl rfl rfl rfl | rfl | exact Nat.le_refl _ | (simp; done)

theorem projectWith_keeps {b m} {a0 a1} (h : Keeps b m) : Keeps b (projectWith a0 a1 m) := by
  unfold projectWith
  show Keeps b (arriveBy a1 (passTo a1 (forEach a0 (fun c m => arriveBy c.apply (makeChange c (passTo c.apply (dropChange c m)))) m)))
  exact arriveBy_keeps (passTo_keeps (forEach_keeps h fun a x hx => arriveBy_keeps (makeChange_keeps (passTo_keeps (dropChange_keeps hx)))))

theorem project_keeps {b m} {a0} (h : Keeps b m) : Keeps b (project m a0) := by
  unfold project; try dsimp only
  repeat' first | intro _ | with_reducible assumption | with_reducible apply projectWith_keeps | with_reducible apply settleLate_keeps | with_reducible apply Keeps.ite | split | exact h.of rfl rfl rfl rfl rfl rfl | rfl | exact Nat.le_refl _ | (simp; done)

theorem madeNow_keeps {b m} {a0 a1 a2 a3} (h : Keeps b m) : Keeps b (madeNow a0 a1 a2 a3 m) := by
  unfold madeNow; try dsimp only
  repeat' first | intro _ | with_reducible assumption | with_reducible apply applyChange_keeps | with_reducible apply reserveSlice_keeps | with_reducible apply Keeps.ite | split | exact h.of rfl rfl rfl rfl rfl rfl | rfl | exact Nat.le_refl _ | (simp; done)

theorem runChange_keeps {b m} {a0 a1 a2 a3} (h : Keeps b m) : Keeps b (runChange a0 a1 a2 a3 m) := by
  unfold runChange; try dsimp only
  repeat' first | intro _ | with_reducible assumption | with_reducible apply project_keeps | with_reducible apply runSched_keeps | with_reducible apply Keeps.ite | split | exact h.of rfl rfl rfl rfl rfl rfl | rfl | exact Nat.le_refl _ | (simp; done)

theorem runChangeThen_keeps {b m} {a0 a1 a2 a3 a4} (h : Keeps b m) (ha4 : ∀ x0 x1, Keeps b x1 → Keeps b (a4 x0 x1)) : Keeps b (runChangeThen a0 a1 a2 a3 a4 m) := by
  unfold runChangeThen; try dsimp only
  repeat' first | intro _ | with_reducible assumption | apply ha4 | with_reducible apply enterChange_keeps | with_reducible apply judged_keeps | with_reducible apply project_keeps | with_reducible apply Keeps.ite | split | exact h.of rfl rfl rfl rfl rfl rfl | rfl | exact Nat.le_refl _ | (simp; done)

theorem configRate_keeps {b m} {a0 a1} (h : Keeps b m) : Keeps b (configRate a0 a1 m) := by
  unfold configRate; try dsimp only
  repeat' first | intro _ | with_reducible assumption | with_reducible apply onTime_keeps | with_reducible apply Keeps.ite | split | exact h.of rfl rfl rfl rfl rfl rfl | rfl | exact Nat.le_refl _ | (simp; done)

theorem moveHue_keeps {b m} {a0 a1} (h : Keeps b m) : Keeps b (moveHue a0 a1 m) := by
  unfold moveHue; try dsimp only
  repeat' first | intro _ | with_reducible assumption | with_reducible apply endMigration_keeps | with_reducible apply onSlice_keeps | with_reducible apply Keeps.ite | split | exact h.of rfl rfl rfl rfl rfl rfl | rfl | exact Nat.le_refl _ | (simp; done)

theorem configChange_keeps {b m} {a0 a1 a2 a3} (h : Keeps b m) : Keeps b (configChange a0 a1 a2 m (asked := a3)) := by
  unfold configChange; try dsimp only
  repeat' first | intro _ | with_reducible assumption | with_reducible apply applyChange_keeps | with_reducible apply configRate_keeps | with_reducible apply moveHue_keeps | with_reducible apply reserveSlice_keeps | with_reducible apply Keeps.ite | split | exact h.of rfl rfl rfl rfl rfl rfl | rfl | exact Nat.le_refl _ | (simp; done)

theorem configChanges_keeps {b m} {a0 a1} (h : Keeps b m) : Keeps b (configChanges a0 a1 m) := by
  unfold configChanges; try dsimp only
  repeat' first | intro _ | with_reducible assumption | with_reducible apply addLate_keeps | with_reducible apply configChange_keeps | with_reducible apply forEach_keeps | with_reducible apply Keeps.ite | split | exact h.of rfl rfl rfl rfl rfl rfl | rfl | exact Nat.le_refl _ | (simp; done)

end Sys2Proof.Machine
end

