-- ==== Sys2Proof/Laws/KeepsCmds.lean ====
section
/-! SUPPORT. What every operation and every command of Machine/Cmds keeps (Keeps, Laws/Keeps). -/
namespace Sys2Proof.Machine
set_option linter.all false
open Sys2Proof

theorem execSviSubSet_keeps {b s t} {a0 a1} (h : Keeps b s.m) (e : execSviSubSet a0 a1 s = .next t) : Keeps b t.m := by
  unfold execSviSubSet at e; refine runOn_keeps ?_ e; try dsimp only
  repeat' first | intro _ | with_reducible assumption | with_reducible apply runChange_keeps | with_reducible apply Keeps.ite | with_reducible apply id_keeps | split | exact h.of rfl rfl rfl rfl rfl rfl | rfl | exact Nat.le_refl _ | (simp; done)

theorem execSviChanSet_keeps {b s t} {a0 a1} (h : Keeps b s.m) (e : execSviChanSet a0 a1 s = .next t) : Keeps b t.m := by
  unfold execSviChanSet at e; refine runOn_keeps ?_ e; try dsimp only
  repeat' first | intro _ | with_reducible assumption | with_reducible apply runChange_keeps | with_reducible apply Keeps.ite | with_reducible apply id_keeps | split | exact h.of rfl rfl rfl rfl rfl rfl | rfl | exact Nat.le_refl _ | (simp; done)

theorem execRscGroupSet_keeps {b s t} {a0 a1} (h : Keeps b s.m) (e : execRscGroupSet a0 a1 s = .next t) : Keeps b t.m := by
  unfold execRscGroupSet at e; refine runOn_keeps ?_ e; try dsimp only
  repeat' first | intro _ | with_reducible assumption | with_reducible apply runChange_keeps | with_reducible apply Keeps.ite | with_reducible apply id_keeps | split | exact h.of rfl rfl rfl rfl rfl rfl | rfl | exact Nat.le_refl _ | (simp; done)

theorem execRscBankLoad_keeps {b s t} {a0 a1} (h : Keeps b s.m) (e : execRscBankLoad a0 a1 s = .next t) : Keeps b t.m := by
  unfold execRscBankLoad at e; refine runOn_keeps ?_ e; try dsimp only
  repeat' first | intro _ | with_reducible assumption | with_reducible apply runChange_keeps | with_reducible apply Keeps.ite | with_reducible apply id_keeps | split | exact h.of rfl rfl rfl rfl rfl rfl | rfl | exact Nat.le_refl _ | (simp; done)

theorem execRscSwap_keeps {b s t} {a0 a1} (h : Keeps b s.m) (e : execRscSwap a0 a1 s = .next t) : Keeps b t.m := by
  unfold execRscSwap at e; refine runOn_keeps ?_ e; try dsimp only
  repeat' first | intro _ | with_reducible assumption | with_reducible apply runChange_keeps | with_reducible apply Keeps.ite | with_reducible apply id_keeps | split | exact h.of rfl rfl rfl rfl rfl rfl | rfl | exact Nat.le_refl _ | (simp; done)

theorem execEstGroupSet_keeps {b s t} {a0 a1} (h : Keeps b s.m) (e : execEstGroupSet a0 a1 s = .next t) : Keeps b t.m := by
  unfold execEstGroupSet at e; refine runOn_keeps ?_ e; try dsimp only
  repeat' first | intro _ | with_reducible assumption | with_reducible apply runChange_keeps | with_reducible apply Keeps.ite | with_reducible apply id_keeps | split | exact h.of rfl rfl rfl rfl rfl rfl | rfl | exact Nat.le_refl _ | (simp; done)

theorem execEstFreeze_keeps {b s t} {a0 a1} (h : Keeps b s.m) (e : execEstFreeze a0 a1 s = .next t) : Keeps b t.m := by
  unfold execEstFreeze at e; refine runOn_keeps ?_ e; try dsimp only
  repeat' first | intro _ | with_reducible assumption | with_reducible apply runChange_keeps | with_reducible apply Keeps.ite | with_reducible apply id_keeps | split | exact h.of rfl rfl rfl rfl rfl rfl | rfl | exact Nat.le_refl _ | (simp; done)

theorem execEstRelease_keeps {b s t} {a0 a1} (h : Keeps b s.m) (e : execEstRelease a0 a1 s = .next t) : Keeps b t.m := by
  unfold execEstRelease at e; refine runOn_keeps ?_ e; try dsimp only
  repeat' first | intro _ | with_reducible assumption | with_reducible apply runChange_keeps | with_reducible apply Keeps.ite | with_reducible apply id_keeps | split | exact h.of rfl rfl rfl rfl rfl rfl | rfl | exact Nat.le_refl _ | (simp; done)

theorem execSlcHueSet_keeps {b s t} {a0 a1} (h : Keeps b s.m) (e : execSlcHueSet a0 a1 s = .next t) : Keeps b t.m := by
  unfold execSlcHueSet at e; refine runOn_keeps ?_ e; try dsimp only
  repeat' first | intro _ | with_reducible assumption | with_reducible apply runChange_keeps | with_reducible apply Keeps.ite | with_reducible apply id_keeps | split | exact h.of rfl rfl rfl rfl rfl rfl | rfl | exact Nat.le_refl _ | (simp; done)

theorem execSlcStart_keeps {b s t} {a0 a1} (h : Keeps b s.m) (e : execSlcStart a0 a1 s = .next t) : Keeps b t.m := by
  unfold execSlcStart at e; refine runOn_keeps ?_ e; try dsimp only
  repeat' first | intro _ | with_reducible assumption | with_reducible apply runChange_keeps | with_reducible apply Keeps.ite | with_reducible apply id_keeps | split | exact h.of rfl rfl rfl rfl rfl rfl | rfl | exact Nat.le_refl _ | (simp; done)

theorem execSlcStop_keeps {b s t} {a0 a1} (h : Keeps b s.m) (e : execSlcStop a0 a1 s = .next t) : Keeps b t.m := by
  unfold execSlcStop at e; refine runOn_keeps ?_ e; try dsimp only
  repeat' first | intro _ | with_reducible assumption | with_reducible apply runChange_keeps | with_reducible apply Keeps.ite | with_reducible apply id_keeps | split | exact h.of rfl rfl rfl rfl rfl rfl | rfl | exact Nat.le_refl _ | (simp; done)

theorem execSlcReset_keeps {b s t} {a0 a1} (h : Keeps b s.m) (e : execSlcReset a0 a1 s = .next t) : Keeps b t.m := by
  unfold execSlcReset at e; refine runOn_keeps ?_ e; try dsimp only
  repeat' first | intro _ | with_reducible assumption | with_reducible apply runChange_keeps | with_reducible apply Keeps.ite | with_reducible apply id_keeps | split | exact h.of rfl rfl rfl rfl rfl rfl | rfl | exact Nat.le_refl _ | (simp; done)

theorem execSlcRemove_keeps {b s t} {a0 a1} (h : Keeps b s.m) (e : execSlcRemove a0 a1 s = .next t) : Keeps b t.m := by
  unfold execSlcRemove at e; refine runOn_keeps ?_ e; try dsimp only
  repeat' first | intro _ | with_reducible assumption | with_reducible apply runChange_keeps | with_reducible apply Keeps.ite | with_reducible apply id_keeps | split | exact h.of rfl rfl rfl rfl rfl rfl | rfl | exact Nat.le_refl _ | (simp; done)

theorem execSlcResourceSetRegionSize_keeps {b s t} {a0 a1} (h : Keeps b s.m) (e : execSlcResourceSetRegionSize a0 a1 s = .next t) : Keeps b t.m := by
  unfold execSlcResourceSetRegionSize at e; refine runOn_keeps ?_ e; try dsimp only
  repeat' first | intro _ | with_reducible assumption | with_reducible apply runChange_keeps | with_reducible apply Keeps.ite | with_reducible apply id_keeps | split | exact h.of rfl rfl rfl rfl rfl rfl | rfl | exact Nat.le_refl _ | (simp; done)

theorem execSlcResourceSetRingAssign_keeps {b s t} {a0 a1} (h : Keeps b s.m) (e : execSlcResourceSetRingAssign a0 a1 s = .next t) : Keeps b t.m := by
  unfold execSlcResourceSetRingAssign at e; refine runOn_keeps ?_ e; try dsimp only
  repeat' first | intro _ | with_reducible assumption | with_reducible apply runChange_keeps | with_reducible apply Keeps.ite | with_reducible apply id_keeps | split | exact h.of rfl rfl rfl rfl rfl rfl | rfl | exact Nat.le_refl _ | (simp; done)

theorem execSlcResourceSetRingRelease_keeps {b s t} {a0 a1} (h : Keeps b s.m) (e : execSlcResourceSetRingRelease a0 a1 s = .next t) : Keeps b t.m := by
  unfold execSlcResourceSetRingRelease at e; refine runOn_keeps ?_ e; try dsimp only
  repeat' first | intro _ | with_reducible assumption | with_reducible apply runChange_keeps | with_reducible apply Keeps.ite | with_reducible apply id_keeps | split | exact h.of rfl rfl rfl rfl rfl rfl | rfl | exact Nat.le_refl _ | (simp; done)

theorem execSlcResourceSetSwitchShare_keeps {b s t} {a0 a1} (h : Keeps b s.m) (e : execSlcResourceSetSwitchShare a0 a1 s = .next t) : Keeps b t.m := by
  unfold execSlcResourceSetSwitchShare at e; refine runOn_keeps ?_ e; try dsimp only
  repeat' first | intro _ | with_reducible assumption | with_reducible apply runChange_keeps | with_reducible apply Keeps.ite | with_reducible apply id_keeps | split | exact h.of rfl rfl rfl rfl rfl rfl | rfl | exact Nat.le_refl _ | (simp; done)

theorem execSlcResourceSetReady_keeps {b s t} {a0 a1} (h : Keeps b s.m) (e : execSlcResourceSetReady a0 a1 s = .next t) : Keeps b t.m := by
  unfold execSlcResourceSetReady at e; refine runOn_keeps ?_ e; try dsimp only
  repeat' first | intro _ | with_reducible assumption | with_reducible apply runChange_keeps | with_reducible apply Keeps.ite | with_reducible apply id_keeps | split | exact h.of rfl rfl rfl rfl rfl rfl | rfl | exact Nat.le_refl _ | (simp; done)

theorem execSlcSubSet_keeps {b s t} {a0 a1} (h : Keeps b s.m) (e : execSlcSubSet a0 a1 s = .next t) : Keeps b t.m := by
  unfold execSlcSubSet at e; refine runOn_keeps ?_ e; try dsimp only
  repeat' first | intro _ | with_reducible assumption | with_reducible apply runChange_keeps | with_reducible apply Keeps.ite | with_reducible apply id_keeps | split | exact h.of rfl rfl rfl rfl rfl rfl | rfl | exact Nat.le_refl _ | (simp; done)

theorem execSlcRightsGrant_keeps {b s t} {a0 a1} (h : Keeps b s.m) (e : execSlcRightsGrant a0 a1 s = .next t) : Keeps b t.m := by
  unfold execSlcRightsGrant at e; refine runOn_keeps ?_ e; try dsimp only
  repeat' first | intro _ | with_reducible assumption | with_reducible apply runChange_keeps | with_reducible apply Keeps.ite | with_reducible apply id_keeps | split | exact h.of rfl rfl rfl rfl rfl rfl | rfl | exact Nat.le_refl _ | (simp; done)

theorem execSlcRightsRevoke_keeps {b s t} {a0 a1} (h : Keeps b s.m) (e : execSlcRightsRevoke a0 a1 s = .next t) : Keeps b t.m := by
  unfold execSlcRightsRevoke at e; refine runOn_keeps ?_ e; try dsimp only
  repeat' first | intro _ | with_reducible assumption | with_reducible apply runChange_keeps | with_reducible apply Keeps.ite | with_reducible apply id_keeps | split | exact h.of rfl rfl rfl rfl rfl rfl | rfl | exact Nat.le_refl _ | (simp; done)

theorem execSlcMemRelease_keeps {b s t} {a0 a1} (h : Keeps b s.m) (e : execSlcMemRelease a0 a1 s = .next t) : Keeps b t.m := by
  unfold execSlcMemRelease at e; refine runOn_keeps ?_ e; try dsimp only
  repeat' first | intro _ | with_reducible assumption | with_reducible apply runChange_keeps | with_reducible apply Keeps.ite | with_reducible apply id_keeps | split | exact h.of rfl rfl rfl rfl rfl rfl | rfl | exact Nat.le_refl _ | (simp; done)

theorem execDspHandlerEnable_keeps {b s t} {a0 a1} (h : Keeps b s.m) (e : execDspHandlerEnable a0 a1 s = .next t) : Keeps b t.m := by
  unfold execDspHandlerEnable at e; refine runOn_keeps ?_ e; try dsimp only
  repeat' first | intro _ | with_reducible assumption | with_reducible apply runChange_keeps | with_reducible apply Keeps.ite | with_reducible apply id_keeps | split | exact h.of rfl rfl rfl rfl rfl rfl | rfl | exact Nat.le_refl _ | (simp; done)

theorem execDspHandlerDisable_keeps {b s t} {a0 a1} (h : Keeps b s.m) (e : execDspHandlerDisable a0 a1 s = .next t) : Keeps b t.m := by
  unfold execDspHandlerDisable at e; refine runOn_keeps ?_ e; try dsimp only
  repeat' first | intro _ | with_reducible assumption | with_reducible apply runChange_keeps | with_reducible apply Keeps.ite | with_reducible apply id_keeps | split | exact h.of rfl rfl rfl rfl rfl rfl | rfl | exact Nat.le_refl _ | (simp; done)

theorem execSigRangeSet_keeps {b s t} {a0 a1} (h : Keeps b s.m) (e : execSigRangeSet a0 a1 s = .next t) : Keeps b t.m := by
  unfold execSigRangeSet at e; refine runOn_keeps ?_ e; try dsimp only
  repeat' first | intro _ | with_reducible assumption | with_reducible apply runChange_keeps | with_reducible apply Keeps.ite | with_reducible apply id_keeps | split | exact h.of rfl rfl rfl rfl rfl rfl | rfl | exact Nat.le_refl _ | (simp; done)

theorem execSigPubSet_keeps {b s t} {a0 a1} (h : Keeps b s.m) (e : execSigPubSet a0 a1 s = .next t) : Keeps b t.m := by
  unfold execSigPubSet at e; refine runOn_keeps ?_ e; try dsimp only
  repeat' first | intro _ | with_reducible assumption | with_reducible apply runChange_keeps | with_reducible apply Keeps.ite | with_reducible apply id_keeps | split | exact h.of rfl rfl rfl rfl rfl rfl | rfl | exact Nat.le_refl _ | (simp; done)

theorem execSigSubSet_keeps {b s t} {a0 a1} (h : Keeps b s.m) (e : execSigSubSet a0 a1 s = .next t) : Keeps b t.m := by
  unfold execSigSubSet at e; refine runOn_keeps ?_ e; try dsimp only
  repeat' first | intro _ | with_reducible assumption | with_reducible apply runChange_keeps | with_reducible apply Keeps.ite | with_reducible apply id_keeps | split | exact h.of rfl rfl rfl rfl rfl rfl | rfl | exact Nat.le_refl _ | (simp; done)

theorem execSigCurveSet_keeps {b s t} {a0 a1} (h : Keeps b s.m) (e : execSigCurveSet a0 a1 s = .next t) : Keeps b t.m := by
  unfold execSigCurveSet at e; refine runOn_keeps ?_ e; try dsimp only
  repeat' first | intro _ | with_reducible assumption | with_reducible apply runChange_keeps | with_reducible apply Keeps.ite | with_reducible apply id_keeps | split | exact h.of rfl rfl rfl rfl rfl rfl | rfl | exact Nat.le_refl _ | (simp; done)

theorem execSwcBufSet_keeps {b s t} {a0 a1} (h : Keeps b s.m) (e : execSwcBufSet a0 a1 s = .next t) : Keeps b t.m := by
  unfold execSwcBufSet at e; refine runOn_keeps ?_ e; try dsimp only
  repeat' first | intro _ | with_reducible assumption | with_reducible apply runChange_keeps | with_reducible apply Keeps.ite | with_reducible apply id_keeps | split | exact h.of rfl rfl rfl rfl rfl rfl | rfl | exact Nat.le_refl _ | (simp; done)

theorem execSwcQueueSet_keeps {b s t} {a0 a1} (h : Keeps b s.m) (e : execSwcQueueSet a0 a1 s = .next t) : Keeps b t.m := by
  unfold execSwcQueueSet at e; refine runOn_keeps ?_ e; try dsimp only
  repeat' first | intro _ | with_reducible assumption | with_reducible apply runChange_keeps | with_reducible apply Keeps.ite | with_reducible apply id_keeps | split | exact h.of rfl rfl rfl rfl rfl rfl | rfl | exact Nat.le_refl _ | (simp; done)

theorem execSwcPortSet_keeps {b s t} {a0 a1} (h : Keeps b s.m) (e : execSwcPortSet a0 a1 s = .next t) : Keeps b t.m := by
  unfold execSwcPortSet at e; refine runOn_keeps ?_ e; try dsimp only
  repeat' first | intro _ | with_reducible assumption | with_reducible apply runChange_keeps | with_reducible apply Keeps.ite | with_reducible apply id_keeps | split | exact h.of rfl rfl rfl rfl rfl rfl | rfl | exact Nat.le_refl _ | (simp; done)

theorem execMacPortSet_keeps {b s t} {a0 a1} (h : Keeps b s.m) (e : execMacPortSet a0 a1 s = .next t) : Keeps b t.m := by
  unfold execMacPortSet at e; refine runOn_keeps ?_ e; try dsimp only
  repeat' first | intro _ | with_reducible assumption | with_reducible apply runChange_keeps | with_reducible apply Keeps.ite | with_reducible apply id_keeps | split | exact h.of rfl rfl rfl rfl rfl rfl | rfl | exact Nat.le_refl _ | (simp; done)

theorem execMacRuleSet_keeps {b s t} {a0 a1} (h : Keeps b s.m) (e : execMacRuleSet a0 a1 s = .next t) : Keeps b t.m := by
  unfold execMacRuleSet at e; refine runOn_keeps ?_ e; try dsimp only
  repeat' first | intro _ | with_reducible assumption | with_reducible apply runChange_keeps | with_reducible apply Keeps.ite | with_reducible apply id_keeps | split | exact h.of rfl rfl rfl rfl rfl rfl | rfl | exact Nat.le_refl _ | (simp; done)

theorem execHdmaRingSet_keeps {b s t} {a0 a1} (h : Keeps b s.m) (e : execHdmaRingSet a0 a1 s = .next t) : Keeps b t.m := by
  unfold execHdmaRingSet at e; refine runOn_keeps ?_ e; try dsimp only
  repeat' first | intro _ | with_reducible assumption | with_reducible apply runChange_keeps | with_reducible apply Keeps.ite | with_reducible apply id_keeps | split | exact h.of rfl rfl rfl rfl rfl rfl | rfl | exact Nat.le_refl _ | (simp; done)

theorem execHdmaRingsetSet_keeps {b s t} {a0 a1} (h : Keeps b s.m) (e : execHdmaRingsetSet a0 a1 s = .next t) : Keeps b t.m := by
  unfold execHdmaRingsetSet at e; refine runOn_keeps ?_ e; try dsimp only
  repeat' first | intro _ | with_reducible assumption | with_reducible apply runChange_keeps | with_reducible apply Keeps.ite | with_reducible apply id_keeps | split | exact h.of rfl rfl rfl rfl rfl rfl | rfl | exact Nat.le_refl _ | (simp; done)

theorem execLgeProgLoad_keeps {b s t} {a0 a1} (h : Keeps b s.m) (e : execLgeProgLoad a0 a1 s = .next t) : Keeps b t.m := by
  unfold execLgeProgLoad at e; refine runOn_keeps ?_ e; try dsimp only
  repeat' first | intro _ | with_reducible assumption | with_reducible apply runChange_keeps | with_reducible apply Keeps.ite | with_reducible apply id_keeps | split | exact h.of rfl rfl rfl rfl rfl rfl | rfl | exact Nat.le_refl _ | (simp; done)

theorem execLgeProgExchange_keeps {b s t} {a0 a1} (h : Keeps b s.m) (e : execLgeProgExchange a0 a1 s = .next t) : Keeps b t.m := by
  unfold execLgeProgExchange at e; refine runOn_keeps ?_ e; try dsimp only
  repeat' first | intro _ | with_reducible assumption | with_reducible apply runChange_keeps | with_reducible apply Keeps.ite | with_reducible apply id_keeps | split | exact h.of rfl rfl rfl rfl rfl rfl | rfl | exact Nat.le_refl _ | (simp; done)

theorem execLgeProgSet_keeps {b s t} {a0 a1} (h : Keeps b s.m) (e : execLgeProgSet a0 a1 s = .next t) : Keeps b t.m := by
  unfold execLgeProgSet at e; refine runOn_keeps ?_ e; try dsimp only
  repeat' first | intro _ | with_reducible assumption | with_reducible apply runChange_keeps | with_reducible apply Keeps.ite | with_reducible apply id_keeps | split | exact h.of rfl rfl rfl rfl rfl rfl | rfl | exact Nat.le_refl _ | (simp; done)

theorem execLgeRestartWarm_keeps {b s t} {a0 a1} (h : Keeps b s.m) (e : execLgeRestartWarm a0 a1 s = .next t) : Keeps b t.m := by
  unfold execLgeRestartWarm at e; refine runOn_keeps ?_ e; try dsimp only
  repeat' first | intro _ | with_reducible assumption | with_reducible apply runChange_keeps | with_reducible apply Keeps.ite | with_reducible apply id_keeps | split | exact h.of rfl rfl rfl rfl rfl rfl | rfl | exact Nat.le_refl _ | (simp; done)

theorem execLgeRestartCold_keeps {b s t} {a0 a1} (h : Keeps b s.m) (e : execLgeRestartCold a0 a1 s = .next t) : Keeps b t.m := by
  unfold execLgeRestartCold at e; refine runOn_keeps ?_ e; try dsimp only
  repeat' first | intro _ | with_reducible assumption | with_reducible apply runChange_keeps | with_reducible apply Keeps.ite | with_reducible apply id_keeps | split | exact h.of rfl rfl rfl rfl rfl rfl | rfl | exact Nat.le_refl _ | (simp; done)

theorem execEngPointSet_keeps {b s t} {a0 a1} (h : Keeps b s.m) (e : execEngPointSet a0 a1 s = .next t) : Keeps b t.m := by
  unfold execEngPointSet at e; refine runOn_keeps ?_ e; try dsimp only
  repeat' first | intro _ | with_reducible assumption | with_reducible apply runChange_keeps | with_reducible apply Keeps.ite | with_reducible apply id_keeps | split | exact h.of rfl rfl rfl rfl rfl rfl | rfl | exact Nat.le_refl _ | (simp; done)

theorem execEngPulseOutSet_keeps {b s t} {a0 a1} (h : Keeps b s.m) (e : execEngPulseOutSet a0 a1 s = .next t) : Keeps b t.m := by
  unfold execEngPulseOutSet at e; refine runOn_keeps ?_ e; try dsimp only
  repeat' first | intro _ | with_reducible assumption | with_reducible apply runChange_keeps | with_reducible apply Keeps.ite | with_reducible apply id_keeps | split | exact h.of rfl rfl rfl rfl rfl rfl | rfl | exact Nat.le_refl _ | (simp; done)

theorem execEngPulseInSet_keeps {b s t} {a0 a1} (h : Keeps b s.m) (e : execEngPulseInSet a0 a1 s = .next t) : Keeps b t.m := by
  unfold execEngPulseInSet at e; refine runOn_keeps ?_ e; try dsimp only
  repeat' first | intro _ | with_reducible assumption | with_reducible apply runChange_keeps | with_reducible apply Keeps.ite | with_reducible apply id_keeps | split | exact h.of rfl rfl rfl rfl rfl rfl | rfl | exact Nat.le_refl _ | (simp; done)

theorem execUmbStreamSet_keeps {b s t} {a0 a1} (h : Keeps b s.m) (e : execUmbStreamSet a0 a1 s = .next t) : Keeps b t.m := by
  unfold execUmbStreamSet at e; refine runOn_keeps ?_ e; try dsimp only
  repeat' first | intro _ | with_reducible assumption | with_reducible apply runChange_keeps | with_reducible apply Keeps.ite | with_reducible apply id_keeps | split | exact h.of rfl rfl rfl rfl rfl rfl | rfl | exact Nat.le_refl _ | (simp; done)

theorem execUmbElemSet_keeps {b s t} {a0 a1} (h : Keeps b s.m) (e : execUmbElemSet a0 a1 s = .next t) : Keeps b t.m := by
  unfold execUmbElemSet at e; refine runOn_keeps ?_ e; try dsimp only
  repeat' first | intro _ | with_reducible assumption | with_reducible apply runChange_keeps | with_reducible apply Keeps.ite | with_reducible apply id_keeps | split | exact h.of rfl rfl rfl rfl rfl rfl | rfl | exact Nat.le_refl _ | (simp; done)

theorem execUmbTripSet_keeps {b s t} {a0 a1} (h : Keeps b s.m) (e : execUmbTripSet a0 a1 s = .next t) : Keeps b t.m := by
  unfold execUmbTripSet at e; refine runOn_keeps ?_ e; try dsimp only
  repeat' first | intro _ | with_reducible assumption | with_reducible apply runChange_keeps | with_reducible apply Keeps.ite | with_reducible apply id_keeps | split | exact h.of rfl rfl rfl rfl rfl rfl | rfl | exact Nat.le_refl _ | (simp; done)

theorem execUmbPubSet_keeps {b s t} {a0 a1} (h : Keeps b s.m) (e : execUmbPubSet a0 a1 s = .next t) : Keeps b t.m := by
  unfold execUmbPubSet at e; refine runOn_keeps ?_ e; try dsimp only
  repeat' first | intro _ | with_reducible assumption | with_reducible apply runChange_keeps | with_reducible apply Keeps.ite | with_reducible apply id_keeps | split | exact h.of rfl rfl rfl rfl rfl rfl | rfl | exact Nat.le_refl _ | (simp; done)

theorem execUmbConfigSet_keeps {b s t} {a0 a1} (h : Keeps b s.m) (e : execUmbConfigSet a0 a1 s = .next t) : Keeps b t.m := by
  unfold execUmbConfigSet at e; refine runOn_keeps ?_ e; try dsimp only
  repeat' first | intro _ | with_reducible assumption | with_reducible apply runChange_keeps | with_reducible apply Keeps.ite | with_reducible apply id_keeps | split | exact h.of rfl rfl rfl rfl rfl rfl | rfl | exact Nat.le_refl _ | (simp; done)

theorem execEvrCodeSet_keeps {b s t} {a0 a1} (h : Keeps b s.m) (e : execEvrCodeSet a0 a1 s = .next t) : Keeps b t.m := by
  unfold execEvrCodeSet at e; refine runOn_keeps ?_ e; try dsimp only
  repeat' first | intro _ | with_reducible assumption | with_reducible apply runChange_keeps | with_reducible apply Keeps.ite | with_reducible apply id_keeps | split | exact h.of rfl rfl rfl rfl rfl rfl | rfl | exact Nat.le_refl _ | (simp; done)

theorem execEvrClear_keeps {b s t} {a0 a1} (h : Keeps b s.m) (e : execEvrClear a0 a1 s = .next t) : Keeps b t.m := by
  unfold execEvrClear at e; refine runOn_keeps ?_ e; try dsimp only
  repeat' first | intro _ | with_reducible assumption | with_reducible apply runChange_keeps | with_reducible apply Keeps.ite | with_reducible apply id_keeps | split | exact h.of rfl rfl rfl rfl rfl rfl | rfl | exact Nat.le_refl _ | (simp; done)

theorem execSysHoldoffSet_keeps {b s t} {a0 a1} (h : Keeps b s.m) (e : execSysHoldoffSet a0 a1 s = .next t) : Keeps b t.m := by
  unfold execSysHoldoffSet at e; refine runOn_keeps ?_ e; try dsimp only
  repeat' first | intro _ | with_reducible assumption | with_reducible apply runChange_keeps | with_reducible apply Keeps.ite | with_reducible apply id_keeps | split | exact h.of rfl rfl rfl rfl rfl rfl | rfl | exact Nat.le_refl _ | (simp; done)

theorem execTimeStep_keeps {b s t} {a0 a1} (h : Keeps b s.m) (e : execTimeStep a0 a1 s = .next t) : Keeps b t.m := by
  unfold execTimeStep at e; refine runOn_keeps ?_ e; try dsimp only
  repeat' first | intro _ | with_reducible assumption | with_reducible apply runChange_keeps | with_reducible apply Keeps.ite | with_reducible apply id_keeps | split | exact h.of rfl rfl rfl rfl rfl rfl | rfl | exact Nat.le_refl _ | (simp; done)

theorem execTimePtpSet_keeps {b s t} {a0 a1} (h : Keeps b s.m) (e : execTimePtpSet a0 a1 s = .next t) : Keeps b t.m := by
  unfold execTimePtpSet at e; refine runOn_keeps ?_ e; try dsimp only
  repeat' first | intro _ | with_reducible assumption | with_reducible apply runChange_keeps | with_reducible apply Keeps.ite | with_reducible apply id_keeps | split | exact h.of rfl rfl rfl rfl rfl rfl | rfl | exact Nat.le_refl _ | (simp; done)

theorem execSecKeyLoad_keeps {b s t} {a0 a1} (h : Keeps b s.m) (e : execSecKeyLoad a0 a1 s = .next t) : Keeps b t.m := by
  unfold execSecKeyLoad at e; refine runOn_keeps ?_ e; try dsimp only
  repeat' first | intro _ | with_reducible assumption | with_reducible apply runChange_keeps | with_reducible apply Keeps.ite | with_reducible apply id_keeps | split | exact h.of rfl rfl rfl rfl rfl rfl | rfl | exact Nat.le_refl _ | (simp; done)

theorem execSlcAdmit_keeps {b s t} {a0 a1} (h : Keeps b s.m) (e : execSlcAdmit a0 a1 s = .next t) : Keeps b t.m := by
  unfold execSlcAdmit at e; refine runOn_keeps ?_ e; try dsimp only
  repeat' first | intro _ | with_reducible assumption | with_reducible apply reserveSlice_keeps | with_reducible apply runChangeThen_keeps | with_reducible apply Keeps.ite | with_reducible apply id_keeps | split | exact h.of rfl rfl rfl rfl rfl rfl | rfl | exact Nat.le_refl _ | (simp; done)

theorem execSlcResourceSetHue_keeps {b s t} {a0 a1} (h : Keeps b s.m) (e : execSlcResourceSetHue a0 a1 s = .next t) : Keeps b t.m := by
  unfold execSlcResourceSetHue at e; refine runOn_keeps ?_ e; try dsimp only
  repeat' first | intro _ | with_reducible assumption | with_reducible apply beginMigration_keeps | with_reducible apply respond_keeps | with_reducible apply runChangeThen_keeps | with_reducible apply Keeps.ite | with_reducible apply id_keeps | split | exact h.of rfl rfl rfl rfl rfl rfl | rfl | exact Nat.le_refl _ | (simp; done)

theorem execDspLatApply_keeps {b s t} {a0 a1} (h : Keeps b s.m) (e : execDspLatApply a0 a1 s = .next t) : Keeps b t.m := by
  unfold execDspLatApply at e; refine runOn_keeps ?_ e; try dsimp only
  repeat' first | intro _ | with_reducible assumption | with_reducible apply lockLattice_keeps | with_reducible apply runChangeThen_keeps | with_reducible apply Keeps.ite | with_reducible apply id_keeps | split | exact h.of rfl rfl rfl rfl rfl rfl | rfl | exact Nat.le_refl _ | (simp; done)

theorem runPair_keeps {b m} {a0 a1 a2 a3 a4} (h : Keeps b m) : Keeps b (runPair a0 a1 a2 a3 a4 m) := by
  unfold runPair; try dsimp only
  repeat' first | intro _ | with_reducible assumption | with_reducible apply enterChange_keeps | with_reducible apply runForward_keeps | with_reducible apply Keeps.ite | split | exact h.of rfl rfl rfl rfl rfl rfl | rfl | exact Nat.le_refl _ | (simp; done)

theorem execLgeForceSet_keeps {b s t} {a0 a1} (h : Keeps b s.m) (e : execLgeForceSet a0 a1 s = .next t) : Keeps b t.m := by
  unfold execLgeForceSet at e; refine runOn_keeps ?_ e; try dsimp only
  repeat' first | intro _ | with_reducible assumption | with_reducible apply runPair_keeps | with_reducible apply Keeps.ite | with_reducible apply id_keeps | split | exact h.of rfl rfl rfl rfl rfl rfl | rfl | exact Nat.le_refl _ | (simp; done)

theorem execLgeForceRemove_keeps {b s t} {a0 a1} (h : Keeps b s.m) (e : execLgeForceRemove a0 a1 s = .next t) : Keeps b t.m := by
  unfold execLgeForceRemove at e; refine runOn_keeps ?_ e; try dsimp only
  repeat' first | intro _ | with_reducible assumption | with_reducible apply runPair_keeps | with_reducible apply Keeps.ite | with_reducible apply id_keeps | split | exact h.of rfl rfl rfl rfl rfl rfl | rfl | exact Nat.le_refl _ | (simp; done)

theorem execEngPresetRegister_keeps {b s t} {a0 a1} (h : Keeps b s.m) (e : execEngPresetRegister a0 a1 s = .next t) : Keeps b t.m := by
  unfold execEngPresetRegister at e; refine runOn_keeps ?_ e; try dsimp only
  repeat' first | intro _ | with_reducible assumption | with_reducible apply runPair_keeps | with_reducible apply Keeps.ite | with_reducible apply id_keeps | split | exact h.of rfl rfl rfl rfl rfl rfl | rfl | exact Nat.le_refl _ | (simp; done)

theorem execEngPresetPulseInput_keeps {b s t} {a0 a1} (h : Keeps b s.m) (e : execEngPresetPulseInput a0 a1 s = .next t) : Keeps b t.m := by
  unfold execEngPresetPulseInput at e; refine runOn_keeps ?_ e; try dsimp only
  repeat' first | intro _ | with_reducible assumption | with_reducible apply runPair_keeps | with_reducible apply Keeps.ite | with_reducible apply id_keeps | split | exact h.of rfl rfl rfl rfl rfl rfl | rfl | exact Nat.le_refl _ | (simp; done)

theorem execTwnPairSet_keeps {b s t} {a0 a1} (h : Keeps b s.m) (e : execTwnPairSet a0 a1 s = .next t) : Keeps b t.m := by
  unfold execTwnPairSet at e; refine runOn_keeps ?_ e; try dsimp only
  repeat' first | intro _ | with_reducible assumption | with_reducible apply runPair_keeps | with_reducible apply Keeps.ite | with_reducible apply id_keeps | split | exact h.of rfl rfl rfl rfl rfl rfl | rfl | exact Nat.le_refl _ | (simp; done)

theorem execTwnQuotaSet_keeps {b s t} {a0 a1} (h : Keeps b s.m) (e : execTwnQuotaSet a0 a1 s = .next t) : Keeps b t.m := by
  unfold execTwnQuotaSet at e; refine runOn_keeps ?_ e; try dsimp only
  repeat' first | intro _ | with_reducible assumption | with_reducible apply runPair_keeps | with_reducible apply Keeps.ite | with_reducible apply id_keeps | split | exact h.of rfl rfl rfl rfl rfl rfl | rfl | exact Nat.le_refl _ | (simp; done)

theorem execTimeRate_keeps {b s t} {a0 a1} (h : Keeps b s.m) (e : execTimeRate a0 a1 s = .next t) : Keeps b t.m := by
  unfold execTimeRate at e; refine runOn_keeps ?_ e; try dsimp only
  repeat' first | intro _ | with_reducible assumption | with_reducible apply makeRate_keeps | with_reducible apply onTime_keeps | with_reducible apply project_keeps | with_reducible apply runForward_keeps | with_reducible apply Keeps.ite | with_reducible apply id_keeps | split | exact h.of rfl rfl rfl rfl rfl rfl | rfl | exact Nat.le_refl _ | (simp; done)

end Sys2Proof.Machine
end

