-- ==== Sys2Proof/Laws/KeepsCfg.lean ====
section
/-! SUPPORT. What every operation and every command of Machine/Cfg keeps (Keeps, Laws/Keeps). -/
namespace Sys2Proof.Machine
set_option linter.all false
open Sys2Proof

theorem changesStatus_keeps {b m} {a0 a1 a2} (h : Keeps b m) : Keeps b (changesStatus a0 a1 a2 m).2 := by
  unfold changesStatus
  suffices hs : ∀ (x : Nat × Mach), Keeps b x.2 → Keeps b (a2.foldl (fun (a : Nat × Mach) c => if a.1 ≠ 0 then a
      else (changeStatus a0 a.2 a1 c.1 c.2, configChange 0 c.1 c.2 a.2)) x).2 from hs (0, m) h
  induction a2 with
  | nil => exact fun x hx => hx
  | cons c r ih =>
    intro x hx
    refine ih _ ?_
    show Keeps b (if x.1 ≠ 0 then x else _).2
    split
    · exact hx
    · exact configChange_keeps hx

theorem execCfgCommit_keeps {b s t} {a0 a1} (h : Keeps b s.m) (e : execCfgCommit a0 a1 s = .next t) : Keeps b t.m := by
  unfold execCfgCommit at e; refine runOn_keeps ?_ e; try dsimp only
  repeat' first | intro _ | with_reducible assumption | with_reducible apply judged_keeps | with_reducible apply onSec_keeps | with_reducible apply raiseAccepted_keeps | with_reducible apply respond_keeps | with_reducible apply Keeps.ite | with_reducible apply id_keeps | split | exact h.of rfl rfl rfl rfl rfl rfl | rfl | exact Nat.le_refl _ | (simp; done)

theorem abandonCommit_keeps {b m} (h : Keeps b m) : Keeps b (abandonCommit m) := by
  unfold abandonCommit; try dsimp only
  repeat' first | intro _ | with_reducible assumption | with_reducible apply onSec_keeps | with_reducible apply raise_keeps | with_reducible apply Keeps.ite | split | exact h.of rfl rfl rfl rfl rfl rfl | rfl | exact Nat.le_refl _ | (simp; done)

theorem execCfgCopyWritten_keeps {b s t} {a0} (h : Keeps b s.m) (e : execCfgCopyWritten a0 s = .next t) : Keeps b t.m := by
  unfold execCfgCopyWritten at e; refine runOn_keeps ?_ e; try dsimp only
  repeat' first | intro _ | with_reducible assumption | with_reducible apply abandonCommit_keeps | with_reducible apply onSec_keeps | with_reducible apply Keeps.ite | with_reducible apply id_keeps | split | exact h.of rfl rfl rfl rfl rfl rfl | rfl | exact Nat.le_refl _ | (simp; done)

theorem execCfgCommitDeadline_keeps {b s t} (h : Keeps b s.m) (e : execCfgCommitDeadline s = .next t) : Keeps b t.m := by
  unfold execCfgCommitDeadline at e; refine runOn_keeps ?_ e; try dsimp only
  repeat' first | intro _ | with_reducible assumption | with_reducible apply abandonCommit_keeps | with_reducible apply advanceTo_keeps | with_reducible apply Keeps.ite | with_reducible apply id_keeps | split | exact h.of rfl rfl rfl rfl rfl rfl | rfl | exact Nat.le_refl _ | (simp; done)

theorem forceCopy_keeps {b m} {a0 a1 a2} (h : Keeps b m) : Keeps b (forceCopy a0 a1 a2 m) := by
  unfold forceCopy; try dsimp only
  repeat' first | intro _ | with_reducible assumption | with_reducible apply onSec_keeps | with_reducible apply onUmb_keeps | with_reducible apply Keeps.ite | split | exact h.of rfl rfl rfl rfl rfl rfl | rfl | exact Nat.le_refl _ | (simp; done)

theorem execCfgCommitApply_keeps {b s t} (h : Keeps b s.m) (e : execCfgCommitApply s = .next t) : Keeps b t.m := by
  unfold execCfgCommitApply at e; refine runOn_keeps ?_ e; try dsimp only
  repeat' first | intro _ | with_reducible assumption | with_reducible apply changeEvent_keeps | with_reducible apply configChanges_keeps | with_reducible apply forceCopy_keeps | with_reducible apply onSec_keeps | with_reducible apply raise_keeps | with_reducible apply Keeps.ite | with_reducible apply id_keeps | split | exact h.of rfl rfl rfl rfl rfl rfl | rfl | exact Nat.le_refl _ | (simp; done)

theorem dropUnset_keeps {b m} {a0} (h : Keeps b m) : Keeps b (dropUnset a0 m) := by
  unfold dropUnset; try dsimp only
  repeat' first | intro _ | with_reducible assumption | with_reducible apply applyPairSet_keeps | with_reducible apply onEng_keeps | with_reducible apply onUmb_keeps | with_reducible apply Keeps.ite | split | exact h.of rfl rfl rfl rfl rfl rfl | rfl | exact Nat.le_refl _ | (simp; done)

theorem bootWhole_keeps {b m} {a0} (h : Keeps b m) : Keeps b (bootWhole a0 m) := by
  unfold bootWhole; try dsimp only
  repeat' first | intro _ | with_reducible assumption | with_reducible apply configChange_keeps | with_reducible apply dropUnset_keeps | with_reducible apply forEach_keeps | with_reducible apply Keeps.ite | split | exact h.of rfl rfl rfl rfl rfl rfl | rfl | exact Nat.le_refl _ | (simp; done)

theorem judgeCopies_keeps {b m} (h : Keeps b m) : Keeps b (judgeCopies m) := by
  unfold judgeCopies; try dsimp only
  repeat' first | intro _ | with_reducible assumption | with_reducible apply forEach_keeps | with_reducible apply raise_keeps | with_reducible apply Keeps.ite | split | exact h.of rfl rfl rfl rfl rfl rfl | rfl | exact Nat.le_refl _ | (simp; done)

theorem clearConfig_keeps {b m} (h : Keeps b m) : Keeps b (clearConfig m) := by
  refine h.trans ⟨id, id, fun _ => ?_, fun _ c hc => ?_, fun _ => rfl, fun k => ?_, rfl, rfl, .refl _, Nat.le_refl _, Nat.le_refl _⟩
  · show cpuReset.cores.length = 32; decide
  · have hc' : c ∈ List.replicate 32 coreReset := hc
    rw [List.eq_of_mem_replicate hc']; exact fun _ => rfl
  · unfold clearConfig; dsimp only; exact (tmap_keys m.net.ports _).trans k

theorem enterSafe_keeps {b m} (h : Keeps b m) : Keeps b (enterSafe m) := by
  unfold enterSafe; try dsimp only
  repeat' first | intro _ | with_reducible assumption | with_reducible apply clearConfig_keeps | with_reducible apply dropUnset_keeps | with_reducible apply onPort_keeps | with_reducible apply onSec_keeps | with_reducible apply onUmb_keeps | with_reducible apply Keeps.ite | split | exact h.of rfl rfl rfl rfl rfl rfl | rfl | exact Nat.le_refl _ | (simp; done)

theorem dropJournal_keeps {b m} (h : Keeps b m) : Keeps b (dropJournal m) := by
  unfold dropJournal; try dsimp only
  repeat' first | intro _ | with_reducible assumption | with_reducible apply onSec_keeps | with_reducible apply raise_keeps | with_reducible apply Keeps.ite | split | exact h.of rfl rfl rfl rfl rfl rfl | rfl | exact Nat.le_refl _ | (simp; done)

theorem bootTake_keeps {b m} {a0} (h : Keeps b m) : Keeps b (bootTake a0 m) := by
  unfold bootTake; try dsimp only
  repeat' first | intro _ | with_reducible assumption | with_reducible apply bootWhole_keeps | with_reducible apply dropJournal_keeps | with_reducible apply forceCopy_keeps | with_reducible apply onSec_keeps | with_reducible apply Keeps.ite | split | exact h.of rfl rfl rfl rfl rfl rfl | rfl | exact Nat.le_refl _ | (simp; done)

theorem bootSelect_keeps {b m} (h : Keeps b m) : Keeps b (bootSelect m) := by
  unfold bootSelect; try dsimp only
  repeat' first | intro _ | with_reducible assumption | with_reducible apply bootTake_keeps | with_reducible apply dropJournal_keeps | with_reducible apply enterSafe_keeps | with_reducible apply judgeCopies_keeps | with_reducible apply Keeps.ite | split | exact h.of rfl rfl rfl rfl rfl rfl | rfl | exact Nat.le_refl _ | (simp; done)

theorem takeBootDue_keeps {b m} (h : Keeps b m) : Keeps b (takeBootDue m) := by
  unfold takeBootDue; try dsimp only
  repeat' first | intro _ | with_reducible assumption | with_reducible apply configChanges_keeps | with_reducible apply onSec_keeps | with_reducible apply Keeps.ite | split | exact h.of rfl rfl rfl rfl rfl rfl | rfl | exact Nat.le_refl _ | (simp; done)

end Sys2Proof.Machine
end

