-- ==== Sys2Proof/Laws/KeepsDom.lean ====
section
/-! SUPPORT. What every operation and every command of Machine/Dom keeps (Keeps, Laws/Keeps). -/
namespace Sys2Proof.Machine
set_option linter.all false
open Sys2Proof

theorem putDom_keeps {b m} {a0 a1} (h : Keeps b m) : Keeps b (putDom a0 a1 m) := by
  unfold putDom; try dsimp only
  repeat' first | intro _ | with_reducible assumption | with_reducible apply onDom_keeps | with_reducible apply Keeps.ite | split | exact h.of rfl rfl rfl rfl rfl rfl | rfl | exact Nat.le_refl _ | (simp; done)

theorem setDom_keeps {b m} {a0 a1} (h : Keeps b m) : Keeps b (setDom a0 a1 m) := by
  unfold setDom; try dsimp only
  repeat' first | intro _ | with_reducible assumption | with_reducible apply putDom_keeps | with_reducible apply raise_keeps | with_reducible apply Keeps.ite | split | exact h.of rfl rfl rfl rfl rfl rfl | rfl | exact Nat.le_refl _ | (simp; done)

theorem noKind_keeps {b m} (h : Keeps b m) : Keeps b (noKind m) := by
  unfold noKind; try dsimp only
  repeat' first | intro _ | with_reducible assumption | with_reducible apply onDom_keeps | with_reducible apply Keeps.ite | split | exact h.of rfl rfl rfl rfl rfl rfl | rfl | exact Nat.le_refl _ | (simp; done)

theorem abandonEvent_keeps {b m} {a0 a1} (h : Keeps b m) : Keeps b (abandonEvent a0 a1 m) := by
  unfold abandonEvent; try dsimp only
  repeat' first | intro _ | with_reducible assumption | with_reducible apply raise_keeps | with_reducible apply Keeps.ite | split | exact h.of rfl rfl rfl rfl rfl rfl | rfl | exact Nat.le_refl _ | (simp; done)

theorem dropAsm_keeps {b m} {a0} (h : Keeps b m) : Keeps b (dropAsm a0 m) := by
  unfold dropAsm; try dsimp only
  repeat' first | intro _ | with_reducible assumption | with_reducible apply abandonEvent_keeps | with_reducible apply onMbx_keeps | with_reducible apply Keeps.ite | split | exact h.of rfl rfl rfl rfl rfl rfl | rfl | exact Nat.le_refl _ | (simp; done)

theorem dropMore_keeps {b m} {a0} (h : Keeps b m) : Keeps b (dropMore a0 m) := by
  unfold dropMore; try dsimp only
  repeat' first | intro _ | with_reducible assumption | with_reducible apply abandonEvent_keeps | with_reducible apply onMbx_keeps | with_reducible apply Keeps.ite | split | exact h.of rfl rfl rfl rfl rfl rfl | rfl | exact Nat.le_refl _ | (simp; done)

theorem closeSession_keeps {b m} {a0 a1} (h : Keeps b m) : Keeps b (closeSession a0 a1 m) := by
  unfold closeSession; try dsimp only
  repeat' first | intro _ | with_reducible assumption | with_reducible apply dropAsm_keeps | with_reducible apply dropMore_keeps | with_reducible apply onMbx_keeps | with_reducible apply onSec_keeps | with_reducible apply raise_keeps | with_reducible apply Keeps.ite | split | exact h.of rfl rfl rfl rfl rfl rfl | rfl | exact Nat.le_refl _ | (simp; done)

theorem shutBox_keeps {b m} {a0} (h : Keeps b m) : Keeps b (shutBox a0 m) := by
  unfold shutBox; try dsimp only
  repeat' first | intro _ | with_reducible assumption | with_reducible apply closeBox_keeps | with_reducible apply dropAsm_keeps | with_reducible apply dropMore_keeps | with_reducible apply Keeps.ite | split | exact h.of rfl rfl rfl rfl rfl rfl | rfl | exact Nat.le_refl _ | (simp; done)

theorem computeDown_keeps {b m} (h : Keeps b m) : Keeps b (computeDown m) := by
  unfold computeDown
  extract_lets m1 m2 m3 m4 m5 m6 m6s m7 m8 m9 m11 m12 m13
  have k1 : Keeps b m1 := forEach_keeps (settleCodes_keeps h) fun a x hx => completeReset_keeps hx
  clear_value m1
  have k2 : Keeps b m2 := discardWhere_keeps k1
  clear_value m2
  have k3 : Keeps b m3 := forEach_keeps k2 fun a x hx => shutBox_keeps (endMigration_keeps hx)
  clear_value m3
  have k4 : Keeps b m4 := forEach_keeps k3 fun a x hx => emptyQueue_keeps (onRing_keeps hx)
  clear_value m4
  have k5 : Keeps b m5 := onNet_keeps k4 rfl
  clear_value m5
  have k6 : Keeps b m6 := returnWhere_keeps k5
  clear_value m6
  have k6s : Keeps b m6s := forEach_keeps k6 fun a x hx => .ite (stateEvent_keeps hx) hx
  clear_value m6s
  have k7 : Keeps b m7 := by
    refine k6s.trans ⟨id, id, fun _ => ?_, fun _ c hc => ?_, fun _ => rfl, id, rfl, rfl, .refl _, Nat.le_refl _, Nat.le_refl _⟩
    · show cpuReset.cores.length = 32; decide
    · have hc' : c ∈ List.replicate 32 coreReset := hc
      rw [List.eq_of_mem_replicate hc']; exact fun _ => rfl
  clear_value m7
  have k8 : Keeps b m8 := onSig_keeps k7
  clear_value m8
  have k9 : Keeps b m9 := onEvr_keeps (logicReset_keeps k8)
  clear_value m9
  have k11 : Keeps b m11 := onUmb_keeps (onTime_keeps k9 rfl rfl)
  clear_value m11
  have k12 : Keeps b m12 := onTwn_keeps k11
  clear_value m12
  have k13 : Keeps b m13 := onDom_keeps k12
  clear_value m13
  exact onMem_keeps k13 fun hm => memFilter_wf _ _ hm

theorem dropRestart_keeps {b m} (h : Keeps b m) : Keeps b (dropRestart m) := by
  unfold dropRestart; try dsimp only
  repeat' first | intro _ | with_reducible assumption | with_reducible apply changeEvent_keeps | with_reducible apply onDom_keeps | with_reducible apply Keeps.ite | split | exact h.of rfl rfl rfl rfl rfl rfl | rfl | exact Nat.le_refl _ | (simp; done)

theorem dropRate_keeps {b m} (h : Keeps b m) : Keeps b (dropRate m) := by
  unfold dropRate; try dsimp only
  repeat' first | intro _ | with_reducible assumption | with_reducible apply changeEvent_keeps | with_reducible apply onTime_keeps | with_reducible apply Keeps.ite | split | exact h.of rfl rfl rfl rfl rfl rfl | rfl | exact Nat.le_refl _ | (simp; done)

theorem dropSwitch_keeps {b m} (h : Keeps b m) : Keeps b (dropSwitch m) := by
  unfold dropSwitch; try dsimp only
  repeat' first | intro _ | with_reducible assumption | with_reducible apply changeEvent_keeps | with_reducible apply onTwn_keeps | with_reducible apply Keeps.ite | split | exact h.of rfl rfl rfl rfl rfl rfl | rfl | exact Nat.le_refl _ | (simp; done)

theorem dropCommit_keeps {b m} (h : Keeps b m) : Keeps b (dropCommit m) := by
  unfold dropCommit; try dsimp only
  repeat' first | intro _ | with_reducible assumption | with_reducible apply abandonCommit_keeps | with_reducible apply changeEvent_keeps | with_reducible apply onSec_keeps | with_reducible apply Keeps.ite | split | exact h.of rfl rfl rfl rfl rfl rfl | rfl | exact Nat.le_refl _ | (simp; done)

theorem controlDown_keeps {b m} (h : Keeps b m) : Keeps b (controlDown m) := by
  unfold controlDown; try dsimp only
  repeat' first | intro _ | with_reducible assumption | with_reducible apply closeSession_keeps | with_reducible apply discardWhere_keeps | with_reducible apply dropCommit_keeps | with_reducible apply dropRate_keeps | with_reducible apply dropRestart_keeps | with_reducible apply dropSwitch_keeps | with_reducible apply forEach_keeps | with_reducible apply onChn_keeps | with_reducible apply onCpu_keeps | with_reducible apply onMbx_keeps | with_reducible apply onSec_keeps | with_reducible apply onUmb_keeps | with_reducible apply shutBox_keeps | with_reducible apply timeControlDown_keeps | with_reducible apply Keeps.ite | split | exact h.of rfl rfl rfl rfl rfl rfl | rfl | exact Nat.le_refl _ | (simp; done)

theorem fabricDown_keeps {b m} (h : Keeps b m) : Keeps b (fabricDown m) := by
  unfold fabricDown
  extract_lets t c1 m1 m2 c2 m3 c3 m4
  have k1 : Keeps b m1 := clock_keeps (f := fun u => { timeReset with ref := u.ref, rtc := u.rtc, rtcSaved := u.rtcSaved }) h (by show timeReset.clock.ns.toNat < nsPerSec; decide) rfl
  have k2 : Keeps b m2 := onEng_keeps k1
  have k3 : Keeps b m3 := onTwn_keeps k2
  have k4 : Keeps b m4 := onChn_keeps k3
  exact k4.trans ⟨id, id, id, fun k c hc => k c hc, id, fun k => netDown_ports _, rfl, rfl, .refl _, Nat.le_refl _, Nat.le_refl _⟩

theorem lowerReset_keeps {b m} (h : Keeps b m) : Keeps b (lowerReset m) := by
  unfold lowerReset
  extract_lets m1 c sg m2
  have k1 : Keeps b m1 := fabricDown_keeps (controlDown_keeps (computeDown_keeps h))
  clear_value m1
  have k2 : Keeps b m2 := by
    have k := clearConfig_keeps k1
    refine k.trans ⟨fun _ => rfl, id, id, fun k c hc => k c hc, id, fun _ => netDown_ports _, rfl, rfl, .refl _, Nat.le_refl _, Nat.le_refl _⟩
  exact onEvr_keeps (onSec_keeps k2 rfl rfl (Nat.le_refl _))

theorem sampleStraps_keeps {b m} (h : Keeps b m) : Keeps b (sampleStraps m) := by
  unfold sampleStraps; try dsimp only
  repeat' first | intro _ | with_reducible assumption | with_reducible apply onDom_keeps | with_reducible apply Keeps.ite | split | exact h.of rfl rfl rfl rfl rfl rfl | rfl | exact Nat.le_refl _ | (simp; done)

theorem umberReset_keeps {b m} (h : Keeps b m) : Keeps b (umberReset m) := by
  unfold umberReset; try dsimp only
  repeat' first | intro _ | with_reducible assumption | with_reducible apply onEng_keeps | with_reducible apply onEvr_keeps | with_reducible apply onLge_keeps | with_reducible apply onPort_keeps | with_reducible apply onSig_keeps | with_reducible apply onTwn_keeps | with_reducible apply onUmb_keeps | with_reducible apply sampleStraps_keeps | with_reducible apply Keeps.ite | split | exact h.of rfl rfl rfl rfl rfl rfl | rfl | exact Nat.le_refl _ | (simp; done)

theorem setDoms_keeps {b m} {a0 a1} (h : Keeps b m) : Keeps b (setDoms a0 a1 m) := by
  unfold setDoms; try dsimp only
  repeat' first | intro _ | with_reducible assumption | with_reducible apply forEach_keeps | with_reducible apply setDom_keeps | with_reducible apply Keeps.ite | split | exact h.of rfl rfl rfl rfl rfl rfl | rfl | exact Nat.le_refl _ | (simp; done)

theorem freshStart_keeps {b m} {a0 a1} (h : Keeps b m) : Keeps b (freshStart a0 a1 m) := by
  unfold freshStart; try dsimp only
  repeat' first | intro _ | with_reducible assumption | with_reducible apply onDom_keeps | with_reducible apply Keeps.ite | split | exact h.of rfl rfl rfl rfl rfl rfl | rfl | exact Nat.le_refl _ | (simp; done)

theorem startDom_keeps {b m} {a0} (h : Keeps b m) : Keeps b (startDom a0 m) := by
  unfold startDom; try dsimp only
  repeat' first | intro _ | with_reducible assumption | with_reducible apply onSec_keeps | with_reducible apply setDom_keeps | with_reducible apply Keeps.ite | split | exact h.of rfl rfl rfl rfl rfl rfl | rfl | exact Nat.le_refl _ | (simp; done)

theorem nextStart_keeps {b m} (h : Keeps b m) : Keeps b (nextStart m) := by
  unfold nextStart; try dsimp only
  repeat' first | intro _ | with_reducible assumption | with_reducible apply startDom_keeps | with_reducible apply Keeps.ite | split | exact h.of rfl rfl rfl rfl rfl rfl | rfl | exact Nat.le_refl _ | (simp; done)

theorem umberUp_keeps {b m} (h : Keeps b m) : Keeps b (umberUp m) := by
  unfold umberUp; try dsimp only
  repeat' first | intro _ | with_reducible assumption | with_reducible apply onDom_keeps | with_reducible apply onTime_keeps | with_reducible apply onUmb_keeps | with_reducible apply raise_keeps | with_reducible apply restoreEnergy_keeps | with_reducible apply setDom_keeps | with_reducible apply Keeps.ite | split | exact h.of rfl rfl rfl rfl rfl rfl | rfl | exact Nat.le_refl _ | (simp; done)

theorem fabricUp_keeps {b m} (h : Keeps b m) : Keeps b (fabricUp m) := by
  unfold fabricUp
  exact clock_keeps (setDom_keeps h) (clockOf_ns _) rfl

theorem takeFirmware_keeps {b m} (h : Keeps b m) : Keeps b (takeFirmware m) := by
  unfold takeFirmware
  split
  · exact h
  · split
    · exact h
    · refine raise_keeps (onSec_keeps h rfl rfl ?_)
      dsimp only
      split
      · exact Nat.le_max_left _ _
      · exact Nat.le_refl _

theorem beginEnumeration_keeps {b m} {a0 a1} (h : Keeps b m) : Keeps b (beginEnumeration a0 a1 m) := by
  unfold beginEnumeration; try dsimp only
  repeat' first | intro _ | with_reducible assumption | with_reducible apply onChn_keeps | with_reducible apply Keeps.ite | split | exact h.of rfl rfl rfl rfl rfl rfl | rfl | exact Nat.le_refl _ | (simp; done)

theorem controlUp_keeps {b m} (h : Keeps b m) : Keeps b (controlUp m) := by
  unfold controlUp; try dsimp only
  repeat' first | intro _ | with_reducible assumption | with_reducible apply beginEnumeration_keeps | with_reducible apply bootSelect_keeps | with_reducible apply setDom_keeps | with_reducible apply takeFirmware_keeps | with_reducible apply twinStart_keeps | with_reducible apply verifyRecords_keeps | with_reducible apply Keeps.ite | split | exact h.of rfl rfl rfl rfl rfl rfl | rfl | exact Nat.le_refl _ | (simp; done)

theorem startLogic_keeps {b m} (h : Keeps b m) : Keeps b (startLogic m) := by
  unfold startLogic; try dsimp only
  repeat' first | intro _ | with_reducible assumption | with_reducible apply coldStartProg_keeps | with_reducible apply forEach_keeps | with_reducible apply restartProg_keeps | with_reducible apply Keeps.ite | split | exact h.of rfl rfl rfl rfl rfl rfl | rfl | exact Nat.le_refl _ | (simp; done)

theorem computeUp_keeps {b m} (h : Keeps b m) : Keeps b (computeUp m) := by
  unfold computeUp; try dsimp only
  repeat' first | intro _ | with_reducible assumption | with_reducible apply forEach_keeps | with_reducible apply guarantee_keeps | with_reducible apply onCpu_keeps | with_reducible apply onDom_keeps | with_reducible apply onSec_keeps | with_reducible apply onTwn_keeps | with_reducible apply queueFill_keeps | with_reducible apply rebuildImage_keeps | with_reducible apply setDom_keeps | with_reducible apply startLogic_keeps | with_reducible apply startResync_keeps | with_reducible apply Keeps.ite | split | exact h.of rfl rfl rfl rfl rfl rfl | rfl | exact Nat.le_refl _ | (simp; done)

theorem execDomainStartComplete_keeps {b s t} {a0} (h : Keeps b s.m) (e : execDomainStartComplete a0 s = .next t) : Keeps b t.m := by
  unfold execDomainStartComplete at e; refine runOn_keeps ?_ e; try dsimp only
  repeat' first | intro _ | with_reducible assumption | with_reducible apply computeUp_keeps | with_reducible apply controlUp_keeps | with_reducible apply fabricUp_keeps | with_reducible apply nextStart_keeps | with_reducible apply umberUp_keeps | with_reducible apply Keeps.ite | with_reducible apply id_keeps | split | exact h.of rfl rfl rfl rfl rfl rfl | rfl | exact Nat.le_refl _ | (simp; done)

theorem execDispatcherReady_keeps {b s t} (h : Keeps b s.m) (e : execDispatcherReady s = .next t) : Keeps b t.m := by
  unfold execDispatcherReady at e; refine runOn_keeps ?_ e; try dsimp only
  repeat' first | intro _ | with_reducible assumption | with_reducible apply computeUp_keeps | with_reducible apply Keeps.ite | with_reducible apply id_keeps | split | exact h.of rfl rfl rfl rfl rfl rfl | rfl | exact Nat.le_refl _ | (simp; done)

theorem execStartPhaseTimeout_keeps {b s t} {a0} (h : Keeps b s.m) (e : execStartPhaseTimeout a0 s = .next t) : Keeps b t.m := by
  unfold execStartPhaseTimeout at e; refine runOn_keeps ?_ e; try dsimp only
  repeat' first | intro _ | with_reducible assumption | with_reducible apply flushStaging_keeps | with_reducible apply noKind_keeps | with_reducible apply onDom_keeps | with_reducible apply raise_keeps | with_reducible apply setDom_keeps | with_reducible apply when_keeps | with_reducible apply Keeps.ite | with_reducible apply id_keeps | split | exact h.of rfl rfl rfl rfl rfl rfl | rfl | exact Nat.le_refl _ | (simp; done)

theorem execStartRetry_keeps {b s t} {a0} (h : Keeps b s.m) (e : execStartRetry a0 s = .next t) : Keeps b t.m := by
  unfold execStartRetry at e; refine runOn_keeps ?_ e; try dsimp only
  repeat' first | intro _ | with_reducible assumption | with_reducible apply nextStart_keeps | with_reducible apply onDom_keeps | with_reducible apply passCycles_keeps | with_reducible apply Keeps.ite | with_reducible apply id_keeps | split | exact h.of rfl rfl rfl rfl rfl rfl | rfl | exact Nat.le_refl _ | (simp; done)

theorem execFwStartTimeout_keeps {b s t} (h : Keeps b s.m) (e : execFwStartTimeout s = .next t) : Keeps b t.m := by
  unfold execFwStartTimeout at e; refine runOn_keeps ?_ e; try dsimp only
  repeat' first | intro _ | with_reducible assumption | with_reducible apply onSec_keeps | with_reducible apply raise_keeps | with_reducible apply setDom_keeps | with_reducible apply Keeps.ite | with_reducible apply id_keeps | split | exact h.of rfl rfl rfl rfl rfl rfl | rfl | exact Nat.le_refl _ | (simp; done)

theorem moduleRestart_keeps {b m} {a0 a1} (h : Keeps b m) : Keeps b (moduleRestart a0 m (why := a1)) := by
  unfold moduleRestart; try dsimp only
  repeat' first | intro _ | with_reducible assumption | with_reducible apply computeDown_keeps | with_reducible apply controlDown_keeps | with_reducible apply freshStart_keeps | with_reducible apply nextStart_keeps | with_reducible apply setDoms_keeps | with_reducible apply Keeps.ite | split | exact h.of rfl rfl rfl rfl rfl rfl | rfl | exact Nat.le_refl _ | (simp; done)

theorem computeRestart_keeps {b m} {a0 a1} (h : Keeps b m) : Keeps b (computeRestart a0 m (why := a1)) := by
  unfold computeRestart; try dsimp only
  repeat' first | intro _ | with_reducible assumption | with_reducible apply computeDown_keeps | with_reducible apply freshStart_keeps | with_reducible apply nextStart_keeps | with_reducible apply setDom_keeps | with_reducible apply Keeps.ite | split | exact h.of rfl rfl rfl rfl rfl rfl | rfl | exact Nat.le_refl _ | (simp; done)

theorem wake_keeps {b m} (h : Keeps b m) : Keeps b (wake m) := by
  unfold wake; try dsimp only
  repeat' first | intro _ | with_reducible assumption | with_reducible apply freshStart_keeps | with_reducible apply nextStart_keeps | with_reducible apply onDom_keeps | with_reducible apply setDoms_keeps | with_reducible apply Keeps.ite | split | exact h.of rfl rfl rfl rfl rfl rfl | rfl | exact Nat.le_refl _ | (simp; done)

theorem execWake_keeps {b s t} (h : Keeps b s.m) (e : execWake s = .next t) : Keeps b t.m := by
  unfold execWake at e; refine runOn_keeps ?_ e; try dsimp only
  repeat' first | intro _ | with_reducible assumption | with_reducible apply passCycles_keeps | with_reducible apply wake_keeps | with_reducible apply Keeps.ite | with_reducible apply id_keeps | split | exact h.of rfl rfl rfl rfl rfl rfl | rfl | exact Nat.le_refl _ | (simp; done)

theorem goSleep_keeps {b m} {a0 a1} (h : Keeps b m) : Keeps b (goSleep a0 a1 m) := by
  unfold goSleep; try dsimp only
  repeat' first | intro _ | with_reducible assumption | with_reducible apply computeDown_keeps | with_reducible apply controlDown_keeps | with_reducible apply lowerReset_keeps | with_reducible apply onDom_keeps | with_reducible apply setDoms_keeps | with_reducible apply Keeps.ite | split | exact h.of rfl rfl rfl rfl rfl rfl | rfl | exact Nat.le_refl _ | (simp; done)

theorem execDomainFault_keeps {b s t} {a0 a1} (h : Keeps b s.m) (e : execDomainFault a0 a1 s = .next t) : Keeps b t.m := by
  unfold execDomainFault at e; refine runOn_keeps ?_ e; try dsimp only
  repeat' first | intro _ | with_reducible assumption | with_reducible apply computeRestart_keeps | with_reducible apply flushStaging_keeps | with_reducible apply freshStart_keeps | with_reducible apply lowerReset_keeps | with_reducible apply moduleRestart_keeps | with_reducible apply nextStart_keeps | with_reducible apply onDom_keeps | with_reducible apply ownFailure_keeps | with_reducible apply setDoms_keeps | with_reducible apply umberReset_keeps | with_reducible apply Keeps.ite | with_reducible apply id_keeps | split | exact h.of rfl rfl rfl rfl rfl rfl | rfl | exact Nat.le_refl _ | (simp; done)

end Sys2Proof.Machine
end

