-- ==== Sys2Proof/Laws/KeepsPow.lean ====
section
/-! SUPPORT. What every operation and every command of Machine/Pow keeps (Keeps, Laws/Keeps). -/
namespace Sys2Proof.Machine
set_option linter.all false
open Sys2Proof

theorem settle_keeps {b m} (h : Keeps b m) : Keeps b (settle m) := by
  unfold settle; try dsimp only
  repeat' first | intro _ | with_reducible assumption | with_reducible apply applyIncs_keeps | with_reducible apply arriveAll_keeps | with_reducible apply forEach_keeps | with_reducible apply Keeps.ite | split | exact h.of rfl rfl rfl rfl rfl rfl | rfl | exact Nat.le_refl _ | (simp; done)

theorem saveRows_keeps {b m} {a0 a1} (h : Keeps b m) : Keeps b (saveRows a0 a1 m) := by
  unfold saveRows; try dsimp only
  repeat' first | intro _ | with_reducible assumption | with_reducible apply flushStaging_keeps | with_reducible apply onEng_keeps | with_reducible apply saveEnergy_keeps | with_reducible apply saveNums_keeps | with_reducible apply saveRetained_keeps | with_reducible apply saveRtc_keeps | with_reducible apply Keeps.ite | split | exact h.of rfl rfl rfl rfl rfl rfl | rfl | exact Nat.le_refl _ | (simp; done)

theorem sealRecord_keeps {b m} {a0 a1 a2} (h : Keeps b m) : Keeps b (sealRecord a0 a1 a2 m) := by
  unfold sealRecord; try dsimp only
  repeat' first | intro _ | with_reducible assumption | with_reducible apply onUmb_keeps | with_reducible apply Keeps.ite | split | exact h.of rfl rfl rfl rfl rfl rfl | rfl | exact Nat.le_refl _ | (simp; done)

theorem lowerStopped_keeps {b m} (h : Keeps b m) : Keeps b (lowerStopped m) := by
  unfold lowerStopped; try dsimp only
  repeat' first | intro _ | with_reducible assumption | with_reducible apply lowerReset_keeps | with_reducible apply onEvr_keeps | with_reducible apply Keeps.ite | split | exact h.of rfl rfl rfl rfl rfl rfl | rfl | exact Nat.le_refl _ | (simp; done)

theorem outputsOff_keeps {b m} (h : Keeps b m) : Keeps b (outputsOff m) := by
  unfold outputsOff; try dsimp only
  repeat' first | intro _ | with_reducible assumption | with_reducible apply onEng_keeps | with_reducible apply onUmb_keeps | with_reducible apply Keeps.ite | split | exact h.of rfl rfl rfl rfl rfl rfl | rfl | exact Nat.le_refl _ | (simp; done)

theorem powerFail_keeps {b m} {a0 a1 a2} (h : Keeps b m) : Keeps b (powerFail a0 a1 a2 m) := by
  unfold powerFail; try dsimp only
  repeat' first | intro _ | with_reducible assumption | with_reducible apply arriveAll_keeps | with_reducible apply lowerStopped_keeps | with_reducible apply onDom_keeps | with_reducible apply onUmb_keeps | with_reducible apply raise_keeps | with_reducible apply saveRows_keeps | with_reducible apply sealRecord_keeps | with_reducible apply setDoms_keeps | with_reducible apply settle_keeps | with_reducible apply umbCount_keeps | with_reducible apply when_keeps | with_reducible apply Keeps.ite | split | exact h.of rfl rfl rfl rfl rfl rfl | rfl | exact Nat.le_refl _ | (simp; done)

theorem umberLost_keeps {b m} (h : Keeps b m) : Keeps b (umberLost m) := by
  unfold umberLost; try dsimp only
  repeat' first | intro _ | with_reducible assumption | with_reducible apply noKind_keeps | with_reducible apply onEvr_keeps | with_reducible apply onTime_keeps | with_reducible apply setDom_keeps | with_reducible apply umberReset_keeps | with_reducible apply Keeps.ite | split | exact h.of rfl rfl rfl rfl rfl rfl | rfl | exact Nat.le_refl _ | (simp; done)

theorem supplyGone_keeps {b m} (h : Keeps b m) : Keeps b (supplyGone m) := by
  unfold supplyGone; try dsimp only
  repeat' first | intro _ | with_reducible assumption | with_reducible apply noKind_keeps | with_reducible apply setDoms_keeps | with_reducible apply umberLost_keeps | with_reducible apply Keeps.ite | split | exact h.of rfl rfl rfl rfl rfl rfl | rfl | exact Nat.le_refl _ | (simp; done)

theorem mainLost_keeps {b m} (h : Keeps b m) : Keeps b (mainLost m) := by
  unfold mainLost; try dsimp only
  repeat' first | intro _ | with_reducible assumption | with_reducible apply onDom_keeps | with_reducible apply powerFail_keeps | with_reducible apply supplyGone_keeps | with_reducible apply Keeps.ite | split | exact h.of rfl rfl rfl rfl rfl rfl | rfl | exact Nat.le_refl _ | (simp; done)

theorem execPowerFail_keeps {b s t} (h : Keeps b s.m) (e : execPowerFail s = .next t) : Keeps b t.m := by
  unfold execPowerFail at e; refine runOn_keeps ?_ e; try dsimp only
  repeat' first | intro _ | with_reducible assumption | with_reducible apply mainLost_keeps | with_reducible apply Keeps.ite | with_reducible apply id_keeps | split | exact h.of rfl rfl rfl rfl rfl rfl | rfl | exact Nat.le_refl _ | (simp; done)

theorem execMainOvervoltage_keeps {b s t} (h : Keeps b s.m) (e : execMainOvervoltage s = .next t) : Keeps b t.m := by
  unfold execMainOvervoltage at e; refine runOn_keeps ?_ e; try dsimp only
  repeat' first | intro _ | with_reducible assumption | with_reducible apply mainLost_keeps | with_reducible apply onDom_keeps | with_reducible apply Keeps.ite | with_reducible apply id_keeps | split | exact h.of rfl rfl rfl rfl rfl rfl | rfl | exact Nat.le_refl _ | (simp; done)

theorem supplied_keeps {b m} {a0} (h : Keeps b m) : Keeps b (supplied a0 m) := by
  unfold supplied
  refine forEach_keeps h fun a x hx => ?_
  split
  · exact setDom_keeps hx
  · exact hx

theorem coldStart_keeps {b m} {a0} (h : Keeps b m) : Keeps b (coldStart a0 m) := by
  unfold coldStart; try dsimp only
  repeat' first | intro _ | with_reducible assumption | with_reducible apply flushStaging_keeps | with_reducible apply freshStart_keeps | with_reducible apply nextStart_keeps | with_reducible apply onDom_keeps | with_reducible apply setDoms_keeps | with_reducible apply settle_keeps | with_reducible apply umberReset_keeps | with_reducible apply when_keeps | with_reducible apply Keeps.ite | split | exact h.of rfl rfl rfl rfl rfl rfl | rfl | exact Nat.le_refl _ | (simp; done)

theorem lowerStart_keeps {b m} {a0} (h : Keeps b m) : Keeps b (lowerStart a0 m) := by
  unfold lowerStart; try dsimp only
  repeat' first | intro _ | with_reducible assumption | with_reducible apply freshStart_keeps | with_reducible apply gapKept_keeps | with_reducible apply nextStart_keeps | with_reducible apply onDom_keeps | with_reducible apply setDoms_keeps | with_reducible apply Keeps.ite | split | exact h.of rfl rfl rfl rfl rfl rfl | rfl | exact Nat.le_refl _ | (simp; done)

theorem mainStart_keeps {b m} (h : Keeps b m) : Keeps b (mainStart m) := by
  unfold mainStart; try dsimp only
  repeat' first | intro _ | with_reducible assumption | with_reducible apply coldStart_keeps | with_reducible apply freshStart_keeps | with_reducible apply lowerStart_keeps | with_reducible apply nextStart_keeps | with_reducible apply onDom_keeps | with_reducible apply onUmb_keeps | with_reducible apply sampleStraps_keeps | with_reducible apply supplied_keeps | with_reducible apply Keeps.ite | split | exact h.of rfl rfl rfl rfl rfl rfl | rfl | exact Nat.le_refl _ | (simp; done)

theorem execMainPowerReturn_keeps {b s t} (h : Keeps b s.m) (e : execMainPowerReturn s = .next t) : Keeps b t.m := by
  unfold execMainPowerReturn at e; refine runOn_keeps ?_ e; try dsimp only
  repeat' first | intro _ | with_reducible assumption | with_reducible apply mainStart_keeps | with_reducible apply onDom_keeps | with_reducible apply Keeps.ite | with_reducible apply id_keeps | split | exact h.of rfl rfl rfl rfl rfl rfl | rfl | exact Nat.le_refl _ | (simp; done)

theorem execPowerFailSequenceComplete_keeps {b s t} (h : Keeps b s.m) (e : execPowerFailSequenceComplete s = .next t) : Keeps b t.m := by
  unfold execPowerFailSequenceComplete at e; refine runOn_keeps ?_ e; try dsimp only
  repeat' first | intro _ | with_reducible assumption | with_reducible apply arriveAll_keeps | with_reducible apply flushStaging_keeps | with_reducible apply mainStart_keeps | with_reducible apply noKind_keeps | with_reducible apply onUmb_keeps | with_reducible apply outputsOff_keeps | with_reducible apply raise_keeps | with_reducible apply reachTime_keeps | with_reducible apply setDoms_keeps | with_reducible apply when_keeps | with_reducible apply Keeps.ite | with_reducible apply id_keeps | split | exact h.of rfl rfl rfl rfl rfl rfl | rfl | exact Nat.le_refl _ | (simp; done)

theorem execUmberSupplyLost_keeps {b s t} (h : Keeps b s.m) (e : execUmberSupplyLost s = .next t) : Keeps b t.m := by
  unfold execUmberSupplyLost at e; refine runOn_keeps ?_ e; try dsimp only
  repeat' first | intro _ | with_reducible assumption | with_reducible apply umberLost_keeps | with_reducible apply Keeps.ite | with_reducible apply id_keeps | split | exact h.of rfl rfl rfl rfl rfl rfl | rfl | exact Nat.le_refl _ | (simp; done)

theorem execHoldLoss_keeps {b s t} (h : Keeps b s.m) (e : execHoldLoss s = .next t) : Keeps b t.m := by
  unfold execHoldLoss at e; refine runOn_keeps ?_ e; try dsimp only
  repeat' first | intro _ | with_reducible assumption | with_reducible apply onDom_keeps | with_reducible apply powerFail_keeps | with_reducible apply raise_keeps | with_reducible apply supplyGone_keeps | with_reducible apply Keeps.ite | with_reducible apply id_keeps | split | exact h.of rfl rfl rfl rfl rfl rfl | rfl | exact Nat.le_refl _ | (simp; done)

theorem execHoldRegain_keeps {b s t} (h : Keeps b s.m) (e : execHoldRegain s = .next t) : Keeps b t.m := by
  unfold execHoldRegain at e; refine runOn_keeps ?_ e; try dsimp only
  repeat' first | intro _ | with_reducible assumption | with_reducible apply coldStart_keeps | with_reducible apply freshStart_keeps | with_reducible apply nextStart_keeps | with_reducible apply onDom_keeps | with_reducible apply onUmb_keeps | with_reducible apply raise_keeps | with_reducible apply sampleStraps_keeps | with_reducible apply supplied_keeps | with_reducible apply Keeps.ite | with_reducible apply id_keeps | split | exact h.of rfl rfl rfl rfl rfl rfl | rfl | exact Nat.le_refl _ | (simp; done)

theorem execVioLoss_keeps {b s t} (h : Keeps b s.m) (e : execVioLoss s = .next t) : Keeps b t.m := by
  unfold execVioLoss at e; refine runOn_keeps ?_ e; try dsimp only
  repeat' first | intro _ | with_reducible assumption | with_reducible apply onDom_keeps | with_reducible apply raise_keeps | with_reducible apply Keeps.ite | with_reducible apply id_keeps | split | exact h.of rfl rfl rfl rfl rfl rfl | rfl | exact Nat.le_refl _ | (simp; done)

theorem execVioReturn_keeps {b s t} (h : Keeps b s.m) (e : execVioReturn s = .next t) : Keeps b t.m := by
  unfold execVioReturn at e; refine runOn_keeps ?_ e; try dsimp only
  repeat' first | intro _ | with_reducible assumption | with_reducible apply onDom_keeps | with_reducible apply raise_keeps | with_reducible apply Keeps.ite | with_reducible apply id_keeps | split | exact h.of rfl rfl rfl rfl rfl rfl | rfl | exact Nat.le_refl _ | (simp; done)

theorem execStrapChange_keeps {b s t} {a0 a1} (h : Keeps b s.m) (e : execStrapChange a0 a1 s = .next t) : Keeps b t.m := by
  unfold execStrapChange at e; refine runOn_keeps ?_ e; try dsimp only
  repeat' first | intro _ | with_reducible assumption | with_reducible apply onDom_keeps | with_reducible apply raise_keeps | with_reducible apply Keeps.ite | with_reducible apply id_keeps | split | exact h.of rfl rfl rfl rfl rfl rfl | rfl | exact Nat.le_refl _ | (simp; done)

theorem execResetInLong_keeps {b s t} (h : Keeps b s.m) (e : execResetInLong s = .next t) : Keeps b t.m := by
  unfold execResetInLong at e; refine runOn_keeps ?_ e; try dsimp only
  repeat' first | intro _ | with_reducible assumption | with_reducible apply lowerReset_keeps | with_reducible apply noKind_keeps | with_reducible apply onDom_keeps | with_reducible apply outputsOff_keeps | with_reducible apply saveRows_keeps | with_reducible apply setDoms_keeps | with_reducible apply settle_keeps | with_reducible apply umberReset_keeps | with_reducible apply Keeps.ite | with_reducible apply id_keeps | split | exact h.of rfl rfl rfl rfl rfl rfl | rfl | exact Nat.le_refl _ | (simp; done)

theorem execResetInRelease_keeps {b s t} (h : Keeps b s.m) (e : execResetInRelease s = .next t) : Keeps b t.m := by
  unfold execResetInRelease at e; refine runOn_keeps ?_ e; try dsimp only
  repeat' first | intro _ | with_reducible assumption | with_reducible apply coldStart_keeps | with_reducible apply flushStaging_keeps | with_reducible apply moduleRestart_keeps | with_reducible apply onDom_keeps | with_reducible apply ownFailure_keeps | with_reducible apply settle_keeps | with_reducible apply wake_keeps | with_reducible apply Keeps.ite | with_reducible apply id_keeps | split | exact h.of rfl rfl rfl rfl rfl rfl | rfl | exact Nat.le_refl _ | (simp; done)

theorem execRestartEffective_keeps {b s t} (h : Keeps b s.m) (e : execRestartEffective s = .next t) : Keeps b t.m := by
  unfold execRestartEffective at e; refine runOn_keeps ?_ e; try dsimp only
  repeat' first | intro _ | with_reducible assumption | with_reducible apply changeEvent_keeps | with_reducible apply coldStart_keeps | with_reducible apply computeRestart_keeps | with_reducible apply dropCommit_keeps | with_reducible apply flushStaging_keeps | with_reducible apply goSleep_keeps | with_reducible apply lowerReset_keeps | with_reducible apply moduleRestart_keeps | with_reducible apply onDom_keeps | with_reducible apply outputsOff_keeps | with_reducible apply saveRows_keeps | with_reducible apply settle_keeps | with_reducible apply Keeps.ite | with_reducible apply id_keeps | split | exact h.of rfl rfl rfl rfl rfl rfl | rfl | exact Nat.le_refl _ | (simp; done)

theorem execThermalWarningAssert_keeps {b s t} {a0} (h : Keeps b s.m) (e : execThermalWarningAssert a0 s = .next t) : Keeps b t.m := by
  unfold execThermalWarningAssert at e; refine runOn_keeps ?_ e; try dsimp only
  repeat' first | intro _ | with_reducible assumption | with_reducible apply guarantee_keeps | with_reducible apply onDom_keeps | with_reducible apply ownFailure_keeps | with_reducible apply raise_keeps | with_reducible apply Keeps.ite | with_reducible apply id_keeps | split | exact h.of rfl rfl rfl rfl rfl rfl | rfl | exact Nat.le_refl _ | (simp; done)

theorem execThermalWarningDeassert_keeps {b s t} (h : Keeps b s.m) (e : execThermalWarningDeassert s = .next t) : Keeps b t.m := by
  unfold execThermalWarningDeassert at e; refine runOn_keeps ?_ e; try dsimp only
  repeat' first | intro _ | with_reducible assumption | with_reducible apply guarantee_keeps | with_reducible apply onDom_keeps | with_reducible apply raise_keeps | with_reducible apply Keeps.ite | with_reducible apply id_keeps | split | exact h.of rfl rfl rfl rfl rfl rfl | rfl | exact Nat.le_refl _ | (simp; done)

theorem execThermalShutdown_keeps {b s t} (h : Keeps b s.m) (e : execThermalShutdown s = .next t) : Keeps b t.m := by
  unfold execThermalShutdown at e; refine runOn_keeps ?_ e; try dsimp only
  repeat' first | intro _ | with_reducible assumption | with_reducible apply arriveAll_keeps | with_reducible apply lowerReset_keeps | with_reducible apply onDom_keeps | with_reducible apply raise_keeps | with_reducible apply saveRows_keeps | with_reducible apply setDoms_keeps | with_reducible apply settle_keeps | with_reducible apply Keeps.ite | with_reducible apply id_keeps | split | exact h.of rfl rfl rfl rfl rfl rfl | rfl | exact Nat.le_refl _ | (simp; done)

theorem execThermalRecover_keeps {b s t} (h : Keeps b s.m) (e : execThermalRecover s = .next t) : Keeps b t.m := by
  unfold execThermalRecover at e; refine runOn_keeps ?_ e; try dsimp only
  repeat' first | intro _ | with_reducible assumption | with_reducible apply coldStart_keeps | with_reducible apply lowerStart_keeps | with_reducible apply onDom_keeps | with_reducible apply raise_keeps | with_reducible apply Keeps.ite | with_reducible apply id_keeps | split | exact h.of rfl rfl rfl rfl rfl rfl | rfl | exact Nat.le_refl _ | (simp; done)

theorem execMemoryError_keeps {b s t} {a0 a1} (h : Keeps b s.m) (e : execMemoryError a0 a1 s = .next t) : Keeps b t.m := by
  unfold execMemoryError at e; refine runOn_keeps ?_ e; try dsimp only
  repeat' first | intro _ | with_reducible assumption | with_reducible apply flushStaging_keeps | with_reducible apply guarantee_keeps | with_reducible apply onDom_keeps | with_reducible apply ownFailure_keeps | with_reducible apply Keeps.ite | with_reducible apply id_keeps | split | exact h.of rfl rfl rfl rfl rfl rfl | rfl | exact Nat.le_refl _ | (simp; done)

theorem execMemoryErrorClear_keeps {b s t} (h : Keeps b s.m) (e : execMemoryErrorClear s = .next t) : Keeps b t.m := by
  unfold execMemoryErrorClear at e; refine runOn_keeps ?_ e; try dsimp only
  repeat' first | intro _ | with_reducible assumption | with_reducible apply guarantee_keeps | with_reducible apply onDom_keeps | with_reducible apply Keeps.ite | with_reducible apply id_keeps | split | exact h.of rfl rfl rfl rfl rfl rfl | rfl | exact Nat.le_refl _ | (simp; done)

theorem execTransceiverInsert_keeps {b s t} {a0 a1} (h : Keeps b s.m) (e : execTransceiverInsert a0 a1 s = .next t) : Keeps b t.m := by
  unfold execTransceiverInsert at e; refine runOn_keeps ?_ e; try dsimp only
  repeat' first | intro _ | with_reducible assumption | with_reducible apply onDom_keeps | with_reducible apply raise_keeps | with_reducible apply Keeps.ite | with_reducible apply id_keeps | split | exact h.of rfl rfl rfl rfl rfl rfl | rfl | exact Nat.le_refl _ | (simp; done)

theorem execUmberStatusFrame_keeps {b s t} (h : Keeps b s.m) (e : execUmberStatusFrame s = .next t) : Keeps b t.m := by
  unfold execUmberStatusFrame at e; refine runOn_keeps ?_ e; try dsimp only
  repeat' first | intro _ | with_reducible assumption | with_reducible apply onDom_keeps | with_reducible apply Keeps.ite | with_reducible apply id_keeps | split | exact h.of rfl rfl rfl rfl rfl rfl | rfl | exact Nat.le_refl _ | (simp; done)

theorem execDbgPresentChange_keeps {b s t} {a0} (h : Keeps b s.m) (e : execDbgPresentChange a0 s = .next t) : Keeps b t.m := by
  unfold execDbgPresentChange at e; refine runOn_keeps ?_ e; try dsimp only
  repeat' first | intro _ | with_reducible assumption | with_reducible apply closeSession_keeps | with_reducible apply onDom_keeps | with_reducible apply Keeps.ite | with_reducible apply id_keeps | split | exact h.of rfl rfl rfl rfl rfl rfl | rfl | exact Nat.le_refl _ | (simp; done)

theorem execI2cAccess_keeps {b s t} {a0 a1 a2} (h : Keeps b s.m) (e : execI2cAccess a0 a1 a2 s = .next t) : Keeps b t.m := by
  unfold execI2cAccess at e; refine runOn_keeps ?_ e; try dsimp only
  repeat' first | intro _ | with_reducible assumption | with_reducible apply onDom_keeps | with_reducible apply Keeps.ite | with_reducible apply id_keeps | split | exact h.of rfl rfl rfl rfl rfl rfl | rfl | exact Nat.le_refl _ | (simp; done)

end Sys2Proof.Machine
end

