-- ==== Sys2Proof/Laws/KeepsTick.lean ====
section
/-! SUPPORT. What every operation and every command of Machine/Tick keeps (Keeps, Laws/Keeps). -/
namespace Sys2Proof.Machine
set_option linter.all false
open Sys2Proof

theorem shiftAll_keeps {b m} {a0} (h : Keeps b m) : Keeps b (shiftAll a0 m) := by
  unfold shiftAll
  extract_lets m1 m3 fi sl co m4 m5 m5d m6 ri m7 m8 m9
  have k1 : Keeps b m1 := logicStepped_keeps (ingestStep_keeps h)
  clear_value m1
  have k3 : Keeps b m3 := onFlt_keeps k1
  clear_value m3
  have k4 : Keeps b m4 := k3.trans ⟨id, id, fun k => (List.length_map _).trans k, fun k c hc => by
    obtain ⟨y, hy, rfl⟩ := List.mem_map.mp hc
    intro hf
    show y.run.map _ = none
    rw [k y hy hf]; rfl, id, id, rfl, rfl, .refl _, Nat.le_refl _, Nat.le_refl _⟩
  clear_value m4
  have k5 : Keeps b m5 := onEng_keeps k4
  clear_value m5
  have k5d : Keeps b m5d := onDom_keeps k5
  clear_value m5d
  have k6 : Keeps b m6 := onSig_keeps k5d
  clear_value m6
  have k7 : Keeps b m7 := onNet_keeps k6 (tmap_keys m6.net.ports fun _ p => shiftPort a0 p)
  clear_value m7
  have k8 : Keeps b m8 := onUmb_keeps k7
  clear_value m8
  have k9 : Keeps b m9 := onTime_keeps k8 rfl rfl
  clear_value m9
  exact k9.of rfl rfl rfl rfl rfl rfl

theorem freeDelays_keeps {b m} {a0} (h : Keeps b m) : Keeps b (freeDelays a0 m) := by
  unfold freeDelays
  extract_lets c m1
  have k1 : Keeps b m1 := h.trans ⟨id, id, id, fun k c hc => k c hc, fun k => by
    exact tabWf_tmap m.cpu.delay (fun _ l => l.map fun i => { i with due := a0 * 256 }) k, id, rfl, rfl, .refl _, Nat.le_refl _, Nat.le_refl _⟩
  refine forEach_keeps k1 fun a x hx => ?_
  split
  · exact hx
  · exact raise_keeps hx

theorem carryWindows_keeps {b m} {a0 a1} (h : Keeps b m) : Keeps b (carryWindows a0 a1 m) := by
  unfold carryWindows
  extract_lets ca ru m1 m2
  have k1 : Keeps b m1 := h.trans ⟨id, id, fun k => (List.length_map _).trans k, fun k c hc => by
    obtain ⟨y, hy, rfl⟩ := List.mem_map.mp hc
    intro hf
    show y.run.map _ = none
    rw [k y hy hf]; rfl, id, id, rfl, rfl, .refl _, Nat.le_refl _, Nat.le_refl _⟩
  exact onTwn_keeps (onSig_keeps k1)

theorem gridRestart_keeps {b m} {a0} (h : Keeps b m) : Keeps b (gridRestart a0 m) := by
  unfold gridRestart; dsimp only
  refine onTwn_keeps (onCpu_keeps (carryWindows_keeps (freeDelays_keeps (abandonCommit_keeps (dropSwitch_keeps (dropRestart_keeps
    (discardWhere_keeps (forEach_keeps h fun a x hx => ?_))))))) rfl rfl)
  split
  · exact effectChange_keeps hx
  · exact hx

theorem rateRestart_keeps {b m} {a0} (h : Keeps b m) : Keeps b (rateRestart a0 m) := by
  unfold rateRestart; try dsimp only
  repeat' first | intro _ | with_reducible assumption | with_reducible apply changeEvent_keeps | with_reducible apply forEach_keeps | with_reducible apply gridRestart_keeps | with_reducible apply journalAdd_keeps | with_reducible apply onTime_keeps | with_reducible apply selectAtRate_keeps | with_reducible apply settleLate_keeps | with_reducible apply Keeps.ite | split | exact h.of rfl rfl rfl rfl rfl rfl | rfl | exact Nat.le_refl _ | (simp; done)

theorem stepRestart_keeps {b m} {a0 a1} (h : Keeps b m) : Keeps b (stepRestart a0 a1 m) := by
  unfold stepRestart
  extract_lets m0 asked m1 g reached m2 delta m3 m4 m7 m5 m6
  have k0 : Keeps b m0 := ingestAll_keeps h
  clear_value m0
  have k1 : Keeps b m1 := by
    show Keeps b (match asked with | none => m0 | some c => dropChange c m0)
    clear_value asked
    cases asked
    · exact k0
    · exact dropChange_keeps k0
  clear_value m1
  have k2 : Keeps b m2 := gridRestart_keeps k1
  clear_value m2
  have k3 : Keeps b m3 := clock_keeps k2 (clockOf_ns _) rfl
  clear_value m3
  have k4 : Keeps b m4 := shiftAll_keeps k3
  clear_value m4
  have k7 : Keeps b m7 := Keeps.ite (forEach_keeps k4 fun a x hx => selectAtRate_keeps hx) k4
  clear_value m7
  have k5 : Keeps b m5 := by
    show Keeps b (match reached.bind fun d => d.asked.map fun a => (d, a) with
      | none => m7
      | some (d, a) => changeEvent 0x0102 0x0210 a.1 a.2 0 (journalAdd 0x0210 (fields [(4, d.rate), (4, 0), (8, d.sec)]) m7 (tag := boxTag a.1.box)))
    generalize reached.bind (fun d => d.asked.map fun a => (d, a)) = v
    cases v
    · exact k7
    · exact changeEvent_keeps (journalAdd_keeps k7)
  clear_value m5 asked
  cases asked
  · exact k5
  · have k6 : Keeps b m6 := onTime_keeps k5 rfl rfl
    exact Keeps.ite (answerChange_keeps k6) (changeEvent_keeps k6)

theorem beginTick_keeps {b m} {a0} (h : Keeps b m) : Keeps b (beginTick a0 m) := by
  unfold beginTick; try dsimp only
  repeat' first | intro _ | with_reducible assumption | with_reducible apply advanceTo_keeps | with_reducible apply dispatchSlot_keeps | with_reducible apply forEach_keeps | with_reducible apply onTime_keeps | with_reducible apply outsBoundary_keeps | with_reducible apply sliceBoundary_keeps | with_reducible apply takeBootDue_keeps | with_reducible apply twinBoundary_keeps | with_reducible apply Keeps.ite | split | exact h.of rfl rfl rfl rfl rfl rfl | rfl | exact Nat.le_refl _ | (simp; done)

theorem execTickBoundary_keeps {b s t} (h : Keeps b s.m) (e : execTickBoundary s = .next t) : Keeps b t.m := by
  unfold execTickBoundary at e; refine runOn_keeps ?_ e; try dsimp only
  repeat' first | intro _ | with_reducible assumption | with_reducible apply advanceTo_keeps | with_reducible apply beginTick_keeps | with_reducible apply rateRestart_keeps | with_reducible apply stepRestart_keeps | with_reducible apply Keeps.ite | with_reducible apply id_keeps | split | exact h.of rfl rfl rfl rfl rfl rfl | rfl | exact Nat.le_refl _ | (simp; done)

theorem onGrid_keeps {b m} {a0 a1} (h : Keeps b m) (ha1 : ∀ x0, Keeps b x0 → Keeps b (a1 x0)) : Keeps b (onGrid a0 a1 m) := by
  unfold onGrid; try dsimp only
  repeat' first | intro _ | with_reducible assumption | apply ha1 | with_reducible apply onTime_keeps | with_reducible apply Keeps.ite | split | exact h.of rfl rfl rfl rfl rfl rfl | rfl | exact Nat.le_refl _ | (simp; done)

theorem carryCurves_keeps {b m} {a0 a1} (h : Keeps b m) : Keeps b (carryCurves a0 a1 m) := by
  unfold carryCurves; try dsimp only
  repeat' first | intro _ | with_reducible assumption | with_reducible apply onSig_keeps | with_reducible apply Keeps.ite | split | exact h.of rfl rfl rfl rfl rfl rfl | rfl | exact Nat.le_refl _ | (simp; done)

theorem decideTick_keeps {b m} {a0} (h : Keeps b m) : Keeps b (decideTick a0 m) := by
  unfold decideTick; try dsimp only
  repeat' first | intro _ | with_reducible assumption | with_reducible apply commitUmberBits_keeps | with_reducible apply gooseSnapshot_keeps | with_reducible apply logicBoundaries_keeps | with_reducible apply sendHealthWord_keeps | with_reducible apply Keeps.ite | split | exact h.of rfl rfl rfl rfl rfl rfl | rfl | exact Nat.le_refl _ | (simp; done)

theorem assembleTick_keeps {b m} {a0} (h : Keeps b m) : Keeps b (assembleTick a0 m) := by
  unfold assembleTick
  extract_lets m1 prev restarted m2 m3 m4 m5 inner m6 m7 m8 m9 m10
  have k1 : Keeps b m1 := makeLate_keeps h
  clear_value m1
  have k2 : Keeps b m2 := Keeps.ite k1 (logicPeriod_keeps k1)
  clear_value m2
  have k3 : Keeps b m3 := captureLines_keeps (commitDue_keeps (ingestDeadline_keeps k2))
  clear_value m3
  have k4 : Keeps b m4 := Keeps.ite (logicGrid_keeps k3) k3
  clear_value m4
  have k5 : Keeps b m5 := Keeps.ite (carryCurves_keeps k4) k4
  clear_value m5
  have k6 : Keeps b m6 := onGrid_keeps k5 fun x hx => closeCapture_keeps (decideTick_keeps hx)
  clear_value m6
  have k7 : Keeps b m7 := Keeps.ite k6 (onNet_keeps k6 rfl)
  clear_value m7
  have k8 : Keeps b m8 := onGrid_keeps k7 fun x hx => withViews_keeps hx fun y hy => assembleFrames_keeps (energyTick_keeps (groupsTick_keeps hy))
  clear_value m8
  have k9 : Keeps b m9 := by
    show Keeps b (match prev with | none => m8 | some k => judgeWord k m8)
    clear_value prev
    cases prev
    · exact k8
    · exact judgeWord_keeps k8
  clear_value m9
  have k10 : Keeps b m10 := Keeps.ite (judgeMirror_keeps k9) k9
  exact onLge_keeps k10

theorem assembleNext_keeps {b m} (h : Keeps b m) : Keeps b (assembleNext m) := by
  unfold assembleNext; try dsimp only
  repeat' first | intro _ | with_reducible assumption | with_reducible apply advanceTo_keeps | with_reducible apply assembleTick_keeps | with_reducible apply onTime_keeps | with_reducible apply Keeps.ite | split | exact h.of rfl rfl rfl rfl rfl rfl | rfl | exact Nat.le_refl _ | (simp; done)

theorem execAssembly_keeps {b s t} (h : Keeps b s.m) (e : execAssembly s = .next t) : Keeps b t.m := by
  unfold execAssembly at e; refine runOn_keeps ?_ e; try dsimp only
  repeat' first | intro _ | with_reducible assumption | with_reducible apply assembleNext_keeps | with_reducible apply Keeps.ite | with_reducible apply id_keeps | split | exact h.of rfl rfl rfl rfl rfl rfl | rfl | exact Nat.le_refl _ | (simp; done)

theorem assembleSome_keeps {b m} {a0} (h : Keeps b m) : Keeps b (assembleSome a0 m) := by
  induction a0 generalizing m with
  | zero => exact h
  | succ n ih => exact ih (assembleNext_keeps h)

theorem execLogicCycleBoundary_keeps {b s t} {a0} (h : Keeps b s.m) (e : execLogicCycleBoundary a0 s = .next t) : Keeps b t.m := by
  unfold execLogicCycleBoundary at e; refine runOn_keeps ?_ e; try dsimp only
  repeat' first | intro _ | with_reducible assumption | with_reducible apply assembleSome_keeps | with_reducible apply Keeps.ite | with_reducible apply id_keeps | split | exact h.of rfl rfl rfl rfl rfl rfl | rfl | exact Nat.le_refl _ | (simp; done)

theorem execGooseRetransmit_keeps {b s t} {a0} (h : Keeps b s.m) (e : execGooseRetransmit a0 s = .next t) : Keeps b t.m := by
  unfold execGooseRetransmit at e; refine runOn_keeps ?_ e; try dsimp only
  repeat' first | intro _ | with_reducible assumption | with_reducible apply assembleSome_keeps | with_reducible apply Keeps.ite | with_reducible apply id_keeps | split | exact h.of rfl rfl rfl rfl rfl rfl | rfl | exact Nat.le_refl _ | (simp; done)

end Sys2Proof.Machine
end

