-- ==== Sys2Proof/Laws/KeepsChn.lean ====
section
/-! SUPPORT. What every operation and every command of Machine/Chn keeps (Keeps, Laws/Keeps). -/
namespace Sys2Proof.Machine
set_option linter.all false
open Sys2Proof

theorem onEntry_keeps {b m} {a0 a1} (h : Keeps b m) : Keeps b (onEntry a0 a1 m) := by
  unfold onEntry; try dsimp only
  repeat' first | intro _ | with_reducible assumption | with_reducible apply onChn_keeps | with_reducible apply Keeps.ite | split | exact h.of rfl rfl rfl rfl rfl rfl | rfl | exact Nat.le_refl _ | (simp; done)

theorem passChain_keeps {b m} {a0 a1 a2} (h : Keeps b m) : Keeps b (passChain a0 a1 a2 m) := by
  unfold passChain; try dsimp only
  repeat' first | intro _ | with_reducible assumption | with_reducible apply sendInner_keeps | with_reducible apply Keeps.ite | split | exact h.of rfl rfl rfl rfl rfl rfl | rfl | exact Nat.le_refl _ | (simp; done)

theorem diverge_keeps {b m} {a0 a1 a2} (h : Keeps b m) : Keeps b (diverge a0 a1 a2 m) := by
  unfold diverge; try dsimp only
  repeat' first | intro _ | with_reducible assumption | with_reducible apply forEach_keeps | with_reducible apply onEntry_keeps | with_reducible apply raise_keeps | with_reducible apply respond_keeps | with_reducible apply Keeps.ite | split | exact h.of rfl rfl rfl rfl rfl rfl | rfl | exact Nat.le_refl _ | (simp; done)

theorem failRelay_keeps {b m} {a0} (h : Keeps b m) : Keeps b (failRelay a0 m) := by
  unfold failRelay; try dsimp only
  repeat' first | intro _ | with_reducible assumption | with_reducible apply onChn_keeps | with_reducible apply respond_keeps | with_reducible apply Keeps.ite | split | exact h.of rfl rfl rfl rfl rfl rfl | rfl | exact Nat.le_refl _ | (simp; done)

theorem loseBelow_keeps {b m} {a0} (h : Keeps b m) : Keeps b (loseBelow a0 m) := by
  unfold loseBelow; try dsimp only
  repeat' first | intro _ | with_reducible assumption | with_reducible apply failRelay_keeps | with_reducible apply forEach_keeps | with_reducible apply onEntry_keeps | with_reducible apply raise_keeps | with_reducible apply Keeps.ite | split | exact h.of rfl rfl rfl rfl rfl rfl | rfl | exact Nat.le_refl _ | (simp; done)

theorem readCaps_keeps {b m} {a0} (h : Keeps b m) : Keeps b (readCaps a0 m) := by
  unfold readCaps; try dsimp only
  repeat' first | intro _ | with_reducible assumption | with_reducible apply sendNext_keeps | with_reducible apply Keeps.ite | split | exact h.of rfl rfl rfl rfl rfl rfl | rfl | exact Nat.le_refl _ | (simp; done)

theorem chainEnd_keeps {b m} {a0 a1} (h : Keeps b m) : Keeps b (chainEnd a0 a1 m) := by
  unfold chainEnd; try dsimp only
  repeat' first | intro _ | with_reducible assumption | with_reducible apply loseBelow_keeps | with_reducible apply onChn_keeps | with_reducible apply raise_keeps | with_reducible apply respond_keeps | with_reducible apply Keeps.ite | split | exact h.of rfl rfl rfl rfl rfl rfl | rfl | exact Nat.le_refl _ | (simp; done)

theorem endLine_keeps {b m} {a0 a1} (h : Keeps b m) : Keeps b (endLine a0 a1 m) := by
  unfold endLine; try dsimp only
  repeat' first | intro _ | with_reducible assumption | with_reducible apply chainEnd_keeps | with_reducible apply onChn_keeps | with_reducible apply sendChain_keeps | with_reducible apply Keeps.ite | split | exact h.of rfl rfl rfl rfl rfl rfl | rfl | exact Nat.le_refl _ | (simp; done)

theorem sendOffer_keeps {b m} {a0} (h : Keeps b m) : Keeps b (sendOffer a0 m) := by
  unfold sendOffer; try dsimp only
  repeat' first | intro _ | with_reducible assumption | with_reducible apply endLine_keeps | with_reducible apply onChn_keeps | with_reducible apply sendChain_keeps | with_reducible apply Keeps.ite | split | exact h.of rfl rfl rfl rfl rfl rfl | rfl | exact Nat.le_refl _ | (simp; done)

theorem execEnumerationStart_keeps {b s t} (h : Keeps b s.m) (e : execEnumerationStart s = .next t) : Keeps b t.m := by
  unfold execEnumerationStart at e; refine runOn_keeps ?_ e; try dsimp only
  repeat' first | intro _ | with_reducible assumption | with_reducible apply onChn_keeps | with_reducible apply passCycles_keeps | with_reducible apply sendOffer_keeps | with_reducible apply Keeps.ite | with_reducible apply id_keeps | split | exact h.of rfl rfl rfl rfl rfl rfl | rfl | exact Nat.le_refl _ | (simp; done)

theorem execEnumInChange_keeps {b s t} {a0} (h : Keeps b s.m) (e : execEnumInChange a0 s = .next t) : Keeps b t.m := by
  unfold execEnumInChange at e; refine runOn_keeps ?_ e; try dsimp only
  repeat' first | intro _ | with_reducible assumption | with_reducible apply onChn_keeps | with_reducible apply Keeps.ite | with_reducible apply id_keeps | split | exact h.of rfl rfl rfl rfl rfl rfl | rfl | exact Nat.le_refl _ | (simp; done)

theorem takeAddress_keeps {b m} {a0 a1} (h : Keeps b m) : Keeps b (takeAddress a0 a1 m) := by
  unfold takeAddress; try dsimp only
  repeat' first | intro _ | with_reducible assumption | with_reducible apply onChn_keeps | with_reducible apply sendChain_keeps | with_reducible apply sendOffer_keeps | with_reducible apply Keeps.ite | split | exact h.of rfl rfl rfl rfl rfl rfl | rfl | exact Nat.le_refl _ | (simp; done)

theorem addressEvent_keeps {b m} {a0 a1} (h : Keeps b m) : Keeps b (addressEvent a0 a1 m) := by
  unfold addressEvent; try dsimp only
  repeat' first | intro _ | with_reducible assumption | with_reducible apply raise_keeps | with_reducible apply Keeps.ite | split | exact h.of rfl rfl rfl rfl rfl rfl | rfl | exact Nat.le_refl _ | (simp; done)

theorem answerOffer_keeps {b m} {a0 a1} (h : Keeps b m) : Keeps b (answerOffer a0 a1 m) := by
  unfold answerOffer; try dsimp only
  repeat' first | intro _ | with_reducible assumption | with_reducible apply addressEvent_keeps | with_reducible apply closeSession_keeps | with_reducible apply endLine_keeps | with_reducible apply onChn_keeps | with_reducible apply raise_keeps | with_reducible apply sendChain_keeps | with_reducible apply takeAddress_keeps | with_reducible apply Keeps.ite | split | exact h.of rfl rfl rfl rfl rfl rfl | rfl | exact Nat.le_refl _ | (simp; done)

theorem answerSecond_keeps {b m} (h : Keeps b m) : Keeps b (answerSecond m) := by
  unfold answerSecond; try dsimp only
  repeat' first | intro _ | with_reducible assumption | with_reducible apply raise_keeps | with_reducible apply sendChain_keeps | with_reducible apply Keeps.ite | split | exact h.of rfl rfl rfl rfl rfl rfl | rfl | exact Nat.le_refl _ | (simp; done)

theorem execChainOfferReceive_keeps {b s t} {a0} (h : Keeps b s.m) (e : execChainOfferReceive a0 s = .next t) : Keeps b t.m := by
  unfold execChainOfferReceive at e; refine runOn_keeps ?_ e; try dsimp only
  repeat' first | intro _ | with_reducible assumption | with_reducible apply answerOffer_keeps | with_reducible apply answerSecond_keeps | with_reducible apply onChn_keeps | with_reducible apply Keeps.ite | with_reducible apply id_keeps | split | exact h.of rfl rfl rfl rfl rfl rfl | rfl | exact Nat.le_refl _ | (simp; done)

theorem execSecondApexOffer_keeps {b s t} {a0} (h : Keeps b s.m) (e : execSecondApexOffer a0 s = .next t) : Keeps b t.m := by
  unfold execSecondApexOffer at e; refine runOn_keeps ?_ e; try dsimp only
  repeat' first | intro _ | with_reducible assumption | with_reducible apply answerSecond_keeps | with_reducible apply Keeps.ite | with_reducible apply id_keeps | split | exact h.of rfl rfl rfl rfl rfl rfl | rfl | exact Nat.le_refl _ | (simp; done)

theorem recordJoin_keeps {b m} {a0} (h : Keeps b m) : Keeps b (recordJoin a0 m) := by
  unfold recordJoin; try dsimp only
  repeat' first | intro _ | with_reducible assumption | with_reducible apply onChn_keeps | with_reducible apply onEntry_keeps | with_reducible apply raise_keeps | with_reducible apply readCaps_keeps | with_reducible apply Keeps.ite | split | exact h.of rfl rfl rfl rfl rfl rfl | rfl | exact Nat.le_refl _ | (simp; done)

theorem execChainJoinReceive_keeps {b s t} {a0} (h : Keeps b s.m) (e : execChainJoinReceive a0 s = .next t) : Keeps b t.m := by
  unfold execChainJoinReceive at e; refine runOn_keeps ?_ e; try dsimp only
  repeat' first | intro _ | with_reducible assumption | with_reducible apply onChn_keeps | with_reducible apply passChain_keeps | with_reducible apply recordJoin_keeps | with_reducible apply Keeps.ite | with_reducible apply id_keeps | split | exact h.of rfl rfl rfl rfl rfl rfl | rfl | exact Nat.le_refl _ | (simp; done)

theorem execChainEndReceive_keeps {b s t} {a0} (h : Keeps b s.m) (e : execChainEndReceive a0 s = .next t) : Keeps b t.m := by
  unfold execChainEndReceive at e; refine runOn_keeps ?_ e; try dsimp only
  repeat' first | intro _ | with_reducible assumption | with_reducible apply chainEnd_keeps | with_reducible apply onChn_keeps | with_reducible apply passChain_keeps | with_reducible apply Keeps.ite | with_reducible apply id_keeps | split | exact h.of rfl rfl rfl rfl rfl rfl | rfl | exact Nat.le_refl _ | (simp; done)

theorem execChainJoinTimeout_keeps {b s t} (h : Keeps b s.m) (e : execChainJoinTimeout s = .next t) : Keeps b t.m := by
  unfold execChainJoinTimeout at e; refine runOn_keeps ?_ e; try dsimp only
  repeat' first | intro _ | with_reducible assumption | with_reducible apply endLine_keeps | with_reducible apply passCycles_keeps | with_reducible apply Keeps.ite | with_reducible apply id_keeps | split | exact h.of rfl rfl rfl rfl rfl rfl | rfl | exact Nat.le_refl _ | (simp; done)

theorem execNeighbourSend_keeps {b s t} (h : Keeps b s.m) (e : execNeighbourSend s = .next t) : Keeps b t.m := by
  unfold execNeighbourSend at e; refine runOn_keeps ?_ e; try dsimp only
  repeat' first | intro _ | with_reducible assumption | with_reducible apply passCycles_keeps | with_reducible apply sendChain_keeps | with_reducible apply Keeps.ite | with_reducible apply id_keeps | split | exact h.of rfl rfl rfl rfl rfl rfl | rfl | exact Nat.le_refl _ | (simp; done)

theorem restoreBelow_keeps {b m} (h : Keeps b m) : Keeps b (restoreBelow m) := by
  unfold restoreBelow; try dsimp only
  repeat' first | intro _ | with_reducible assumption | with_reducible apply onChn_keeps | with_reducible apply sendOffer_keeps | with_reducible apply Keeps.ite | split | exact h.of rfl rfl rfl rfl rfl rfl | rfl | exact Nat.le_refl _ | (simp; done)

theorem hearNeighbour_keeps {b m} {a0} (h : Keeps b m) : Keeps b (hearNeighbour a0 m) := by
  unfold hearNeighbour; try dsimp only
  repeat' first | intro _ | with_reducible assumption | with_reducible apply onChn_keeps | with_reducible apply restoreBelow_keeps | with_reducible apply Keeps.ite | split | exact h.of rfl rfl rfl rfl rfl rfl | rfl | exact Nat.le_refl _ | (simp; done)

theorem execNeighbourFrameReceive_keeps {b s t} {a0 a1} (h : Keeps b s.m) (e : execNeighbourFrameReceive a0 a1 s = .next t) : Keeps b t.m := by
  unfold execNeighbourFrameReceive at e; refine runOn_keeps ?_ e; try dsimp only
  repeat' first | intro _ | with_reducible assumption | with_reducible apply hearNeighbour_keeps | with_reducible apply Keeps.ite | with_reducible apply id_keeps | split | exact h.of rfl rfl rfl rfl rfl rfl | rfl | exact Nat.le_refl _ | (simp; done)

theorem execChainLinkRestored_keeps {b s t} {a0} (h : Keeps b s.m) (e : execChainLinkRestored a0 s = .next t) : Keeps b t.m := by
  unfold execChainLinkRestored at e; refine runOn_keeps ?_ e; try dsimp only
  repeat' first | intro _ | with_reducible assumption | with_reducible apply hearNeighbour_keeps | with_reducible apply Keeps.ite | with_reducible apply id_keeps | split | exact h.of rfl rfl rfl rfl rfl rfl | rfl | exact Nat.le_refl _ | (simp; done)

theorem execChainLinkLost_keeps {b s t} {a0} (h : Keeps b s.m) (e : execChainLinkLost a0 s = .next t) : Keeps b t.m := by
  unfold execChainLinkLost at e; refine runOn_keeps ?_ e; try dsimp only
  repeat' first | intro _ | with_reducible assumption | with_reducible apply endLine_keeps | with_reducible apply onChn_keeps | with_reducible apply passCycles_keeps | with_reducible apply raise_keeps | with_reducible apply Keeps.ite | with_reducible apply id_keeps | split | exact h.of rfl rfl rfl rfl rfl rfl | rfl | exact Nat.le_refl _ | (simp; done)

theorem execHealthFrameSend_keeps {b s t} (h : Keeps b s.m) (e : execHealthFrameSend s = .next t) : Keeps b t.m := by
  unfold execHealthFrameSend at e; refine runOn_keeps ?_ e; try dsimp only
  repeat' first | intro _ | with_reducible assumption | with_reducible apply onChn_keeps | with_reducible apply passCycles_keeps | with_reducible apply sendChain_keeps | with_reducible apply Keeps.ite | with_reducible apply id_keeps | split | exact h.of rfl rfl rfl rfl rfl rfl | rfl | exact Nat.le_refl _ | (simp; done)

theorem execHealthFrameReceive_keeps {b s t} {a0} (h : Keeps b s.m) (e : execHealthFrameReceive a0 s = .next t) : Keeps b t.m := by
  unfold execHealthFrameReceive at e; refine runOn_keeps ?_ e; try dsimp only
  repeat' first | intro _ | with_reducible assumption | with_reducible apply onEntry_keeps | with_reducible apply passChain_keeps | with_reducible apply readCaps_keeps | with_reducible apply Keeps.ite | with_reducible apply id_keeps | split | exact h.of rfl rfl rfl rfl rfl rfl | rfl | exact Nat.le_refl _ | (simp; done)

theorem execChnEnumerate_keeps {b s t} {a0 a1} (h : Keeps b s.m) (e : execChnEnumerate a0 a1 s = .next t) : Keeps b t.m := by
  unfold execChnEnumerate at e; refine runOn_keeps ?_ e; try dsimp only
  repeat' first | intro _ | with_reducible assumption | with_reducible apply beginEnumeration_keeps | with_reducible apply judged_keeps | with_reducible apply raiseAccepted_keeps | with_reducible apply Keeps.ite | with_reducible apply id_keeps | split | exact h.of rfl rfl rfl rfl rfl rfl | rfl | exact Nat.le_refl _ | (simp; done)

theorem execChnStatus_keeps {b s t} {a0 a1} (h : Keeps b s.m) (e : execChnStatus a0 a1 s = .next t) : Keeps b t.m := by
  unfold execChnStatus at e; refine runOn_keeps ?_ e; try dsimp only
  repeat' first | intro _ | with_reducible assumption | with_reducible apply runRead_keeps | with_reducible apply Keeps.ite | with_reducible apply id_keeps | split | exact h.of rfl rfl rfl rfl rfl rfl | rfl | exact Nat.le_refl _ | (simp; done)

theorem execChnCap_keeps {b s t} {a0 a1} (h : Keeps b s.m) (e : execChnCap a0 a1 s = .next t) : Keeps b t.m := by
  unfold execChnCap at e; refine runOn_keeps ?_ e; try dsimp only
  repeat' first | intro _ | with_reducible assumption | with_reducible apply runRead_keeps | with_reducible apply Keeps.ite | with_reducible apply id_keeps | split | exact h.of rfl rfl rfl rfl rfl rfl | rfl | exact Nat.le_refl _ | (simp; done)

theorem execChnPlace_keeps {b s t} {a0 a1} (h : Keeps b s.m) (e : execChnPlace a0 a1 s = .next t) : Keeps b t.m := by
  unfold execChnPlace at e
  refine runOn_keeps (judged_keeps h fun h' x hx => ?_) e
  extract_lets role fails m1 m2 inner
  have k1 : Keeps b m1 := hx.of rfl rfl rfl rfl rfl rfl
  have k2 : Keeps b m2 := onMbx_keeps k1
  split
  · exact respond_keeps k1
  · split
    · rename_i t' e'
      exact execSlcAdmit_keeps k2 e'
    · exact k2
    · exact k2

end Sys2Proof.Machine
end

