-- ==== Sys2Proof/Laws/KeepsMbx.lean ====
section
/-! SUPPORT. What every operation and every command of Machine/Mbx keeps (Keeps, Laws/Keeps). -/
namespace Sys2Proof.Machine
set_option linter.all false
open Sys2Proof

theorem refuseMsg_keeps {b m} {a0 a1 a2} (h : Keeps b m) : Keeps b (refuseMsg a0 a1 a2 m) := by
  unfold refuseMsg; try dsimp only
  repeat' first | intro _ | with_reducible assumption | with_reducible apply respond_keeps | with_reducible apply Keeps.ite | split | exact h.of rfl rfl rfl rfl rfl rfl | rfl | exact Nat.le_refl _ | (simp; done)

theorem runMsg_keeps {b m} {a0 a1 a2} (h : Keeps b m) : Keeps b (runMsg a0 a1 a2 m) := by
  have key : ∀ f, commandOf a0 a1 a2 = some f → ∀ s t, Keeps b s.m → f s = .next t → Keeps b t.m := by
    intro f e s t hk he
    unfold commandOf at e
    split at e
    · cases e; exact execSysIdent_keeps hk he
    · cases e; exact execSysStatus_keeps hk he
    · cases e; exact execSysHoldoffSet_keeps hk he
    · cases e; repeat' split at he
      · exact execSysRestartModule_keeps hk he
      · exact execSysRestartCompute_keeps hk he
      · exact execSysRestartSleep_keeps hk he
      · exact execSysRestartSleepFabric_keeps hk he
      · exact execSysRestartCold_keeps hk he
    · cases e; exact execSysRoleGrant_keeps hk he
    · cases e; exact execSysCapRead_keeps hk he
    · cases e; exact execTimeStatus_keeps hk he
    · cases e; exact execTimeRate_keeps hk he
    · cases e; exact execTimeStep_keeps hk he
    · cases e; exact execTimePtpSet_keeps hk he
    · cases e; exact execSviSubSet_keeps hk he
    · cases e; exact execSviChanSet_keeps hk he
    · cases e; exact execSviSubStatus_keeps hk he
    · cases e; exact execRscGroupSet_keeps hk he
    · cases e; exact execRscBankLoad_keeps hk he
    · cases e; exact execRscSwap_keeps hk he
    · cases e; exact execRscGroupStatus_keeps hk he
    · cases e; exact execEstGroupSet_keeps hk he
    · cases e; repeat' split at he
      · exact execEstRelease_keeps hk he
      · exact execEstFreeze_keeps hk he
    · cases e; exact execEstGroupStatus_keeps hk he
    · cases e; exact execEstFrameStatus_keeps hk he
    · cases e; exact execSlcHueSet_keeps hk he
    · cases e; exact execSlcAdmit_keeps hk he
    · cases e; exact execSlcStart_keeps hk he
    · cases e; exact execSlcStop_keeps hk he
    · cases e; exact execSlcReset_keeps hk he
    · cases e; exact execSlcRemove_keeps hk he
    · cases e; repeat' split at he
      · exact execSlcResourceSetRegionSize_keeps hk he
      · exact execSlcResourceSetRingAssign_keeps hk he
      · exact execSlcResourceSetRingRelease_keeps hk he
      · exact execSlcResourceSetSwitchShare_keeps hk he
      · exact execSlcResourceSetReady_keeps hk he
      · exact execSlcResourceSetHue_keeps hk he
    · cases e; exact execSlcSubSet_keeps hk he
    · cases e; repeat' split at he
      · exact execSlcRightsRevoke_keeps hk he
      · exact execSlcRightsGrant_keeps hk he
    · cases e; exact execSlcMemRelease_keeps hk he
    · cases e; exact execSlcStatus_keeps hk he
    · cases e; exact execDspLatLoad_keeps hk he
    · cases e; exact execDspLatApply_keeps hk he
    · cases e; exact execDspLatRead_keeps hk he
    · cases e; repeat' split at he
      · exact execDspHandlerDisable_keeps hk he
      · exact execDspHandlerEnable_keeps hk he
    · cases e; exact execDspStatus_keeps hk he
    · cases e; exact execSigRangeSet_keeps hk he
    · cases e; exact execSigPubSet_keeps hk he
    · cases e; exact execSigSubSet_keeps hk he
    · cases e; exact execSigCurveSet_keeps hk he
    · cases e; exact execSigPointRead_keeps hk he
    · cases e; exact execSigPubStatus_keeps hk he
    · cases e; exact execSigSubStatus_keeps hk he
    · cases e; exact execSwcBufSet_keeps hk he
    · cases e; exact execSwcQueueSet_keeps hk he
    · cases e; exact execSwcPortSet_keeps hk he
    · cases e; exact execSwcStatus_keeps hk he
    · cases e; exact execSwcQueueStatus_keeps hk he
    · cases e; exact execMacPortSet_keeps hk he
    · cases e; exact execMacRuleSet_keeps hk he
    · cases e; exact execMacPortStatus_keeps hk he
    · cases e; exact execMacRuleStatus_keeps hk he
    · cases e; exact execHdmaRingSet_keeps hk he
    · cases e; exact execHdmaRingsetSet_keeps hk he
    · cases e; exact execHdmaRingStatus_keeps hk he
    · cases e; exact execLgeProgLoad_keeps hk he
    · cases e; exact execLgeProgExchange_keeps hk he
    · cases e; exact execLgeProgSet_keeps hk he
    · cases e; repeat' split at he
      · exact execLgeRestartCold_keeps hk he
      · exact execLgeRestartWarm_keeps hk he
    · cases e; repeat' split at he
      · exact execLgeForceRemove_keeps hk he
      · exact execLgeForceSet_keeps hk he
    · cases e; exact execLgeForceList_keeps hk he
    · cases e; exact execLgeStatus_keeps hk he
    · cases e; exact execEngPointSet_keeps hk he
    · cases e; exact execEngPulseOutSet_keeps hk he
    · cases e; exact execEngPulseInSet_keeps hk he
    · cases e; repeat' split at he
      · exact execEngPresetPulseInput_keeps hk he
      · exact execEngPresetRegister_keeps hk he
    · cases e; exact execEngRead_keeps hk he
    · cases e; exact execEngIoRead_keeps hk he
    · cases e; exact execUmbStreamSet_keeps hk he
    · cases e; exact execUmbElemSet_keeps hk he
    · cases e; exact execUmbTripSet_keeps hk he
    · cases e; exact execUmbPubSet_keeps hk he
    · cases e; exact execUmbConfigSet_keeps hk he
    · cases e; exact execUmbStatus_keeps hk he
    · cases e; exact execEvrRead_keeps hk he
    · cases e; exact execEvrCodeSet_keeps hk he
    · cases e; exact execEvrClear_keeps hk he
    · cases e; exact execEvrInfo_keeps hk he
    · cases e; exact execTwnPairSet_keeps hk he
    · cases e; exact execTwnQuotaSet_keeps hk he
    · cases e; exact execTwnSwitch_keeps hk he
    · cases e; exact execTwnStatus_keeps hk he
    · cases e; exact execChnEnumerate_keeps hk he
    · cases e; exact execChnPlace_keeps hk he
    · cases e; exact execChnStatus_keeps hk he
    · cases e; exact execChnCap_keeps hk he
    · cases e; repeat' split at he
      · exact execCfgStageWrite_keeps hk he
      · exact execCfgStageDiscard_keeps hk he
      · exact execCfgStageOpen_keeps hk he
    · cases e; exact execCfgCommit_keeps hk he
    · cases e; exact execCfgImageStore_keeps hk he
    · cases e; exact execCfgImageDelete_keeps hk he
    · cases e; exact execCfgExport_keeps hk he
    · cases e; exact execCfgStatus_keeps hk he
    · cases e; repeat' split at he
      · exact execSecOwnerSlotRevoke_keeps hk he
      · exact execSecOwnerSlotProgram_keeps hk he
    · cases e; exact execSecKeyLoad_keeps hk he
    · cases e; repeat' split at he
      · exact execSecTlsAnchorClear_keeps hk he
      · exact execSecTlsModuleCert_keeps hk he
      · exact execSecTlsReadPublicKey_keeps hk he
      · exact execSecTlsAnchorSet_keeps hk he
    · cases e; exact execSecFwInstall_keeps hk he
    · cases e; exact execSecAttest_keeps hk he
    · cases e; exact execSecStatus_keeps hk he
    · cases e
  unfold runMsg; dsimp only; split
  · rename_i f e; exact moduleAfter_keeps (onMbx_keeps h) (key f e)
  · exact refuseMsg_keeps (onMbx_keeps h)

theorem awaitSegment_keeps {b m} {a0 a1} (h : Keeps b m) : Keeps b (awaitSegment a0 a1 m) := by
  unfold awaitSegment; try dsimp only
  repeat' first | intro _ | with_reducible assumption | with_reducible apply onSliceBox_keeps | with_reducible apply Keeps.ite | split | exact h.of rfl rfl rfl rfl rfl rfl | rfl | exact Nat.le_refl _ | (simp; done)

theorem keepSegment_keeps {b m} {a0 a1 a2} (h : Keeps b m) : Keeps b (keepSegment a0 a1 a2 m) := by
  unfold keepSegment; try dsimp only
  repeat' first | intro _ | with_reducible assumption | with_reducible apply awaitSegment_keeps | with_reducible apply onSess_keeps | with_reducible apply refuseMsg_keeps | with_reducible apply Keeps.ite | split | exact h.of rfl rfl rfl rfl rfl rfl | rfl | exact Nat.le_refl _ | (simp; done)

theorem firstSegment_keeps {b m} {a0 a1 a2} (h : Keeps b m) : Keeps b (firstSegment a0 a1 a2 m) := by
  unfold firstSegment; try dsimp only
  repeat' first | intro _ | with_reducible assumption | with_reducible apply keepSegment_keeps | with_reducible apply refuseMsg_keeps | with_reducible apply runMsg_keeps | with_reducible apply Keeps.ite | split | exact h.of rfl rfl rfl rfl rfl rfl | rfl | exact Nat.le_refl _ | (simp; done)

theorem nextSegment_keeps {b m} {a0 a1 a2 a3} (h : Keeps b m) : Keeps b (nextSegment a0 a1 a2 a3 m) := by
  unfold nextSegment; try dsimp only
  repeat' first | intro _ | with_reducible assumption | with_reducible apply dropAsm_keeps | with_reducible apply keepSegment_keeps | with_reducible apply onSess_keeps | with_reducible apply refuseMsg_keeps | with_reducible apply runMsg_keeps | with_reducible apply Keeps.ite | split | exact h.of rfl rfl rfl rfl rfl rfl | rfl | exact Nat.le_refl _ | (simp; done)

theorem freshSegment_keeps {b m} {a0 a1 a2 a3} (h : Keeps b m) : Keeps b (freshSegment a0 a1 a2 a3 m) := by
  unfold freshSegment; try dsimp only
  repeat' first | intro _ | with_reducible assumption | with_reducible apply firstSegment_keeps | with_reducible apply onSess_keeps | with_reducible apply refuseMsg_keeps | with_reducible apply Keeps.ite | split | exact h.of rfl rfl rfl rfl rfl rfl | rfl | exact Nat.le_refl _ | (simp; done)

theorem takeSegment_keeps {b m} {a0 a1 a2} (h : Keeps b m) : Keeps b (takeSegment a0 a1 a2 m) := by
  unfold takeSegment; try dsimp only
  repeat' first | intro _ | with_reducible assumption | with_reducible apply deliver_keeps | with_reducible apply dropAsm_keeps | with_reducible apply firstSegment_keeps | with_reducible apply freshSegment_keeps | with_reducible apply nextSegment_keeps | with_reducible apply onSess_keeps | with_reducible apply refuseMsg_keeps | with_reducible apply Keeps.ite | split | exact h.of rfl rfl rfl rfl rfl rfl | rfl | exact Nat.le_refl _ | (simp; done)

theorem openSession_keeps {b m} {a0 a1} (h : Keeps b m) : Keeps b (openSession a0 a1 m) := by
  unfold openSession; try dsimp only
  repeat' first | intro _ | with_reducible assumption | with_reducible apply onMbx_keeps | with_reducible apply raise_keeps | with_reducible apply Keeps.ite | split | exact h.of rfl rfl rfl rfl rfl rfl | rfl | exact Nat.le_refl _ | (simp; done)

theorem execSessionOpen_keeps {b s t} {a0 a1} (h : Keeps b s.m) (e : execSessionOpen a0 a1 s = .next t) : Keeps b t.m := by
  unfold execSessionOpen at e; refine runOn_keeps ?_ e; try dsimp only
  repeat' first | intro _ | with_reducible assumption | with_reducible apply openSession_keeps | with_reducible apply Keeps.ite | with_reducible apply id_keeps | split | exact h.of rfl rfl rfl rfl rfl rfl | rfl | exact Nat.le_refl _ | (simp; done)

theorem execSessionClose_keeps {b s t} {a0 a1} (h : Keeps b s.m) (e : execSessionClose a0 a1 s = .next t) : Keeps b t.m := by
  unfold execSessionClose at e; refine runOn_keeps ?_ e; try dsimp only
  repeat' first | intro _ | with_reducible assumption | with_reducible apply closeSession_keeps | with_reducible apply Keeps.ite | with_reducible apply id_keeps | split | exact h.of rfl rfl rfl rfl rfl rfl | rfl | exact Nat.le_refl _ | (simp; done)

theorem execSessionIdleTimeout_keeps {b s t} {a0} (h : Keeps b s.m) (e : execSessionIdleTimeout a0 s = .next t) : Keeps b t.m := by
  unfold execSessionIdleTimeout at e; refine runOn_keeps ?_ e; try dsimp only
  repeat' first | intro _ | with_reducible assumption | with_reducible apply closeSession_keeps | with_reducible apply passCycles_keeps | with_reducible apply Keeps.ite | with_reducible apply id_keeps | split | exact h.of rfl rfl rfl rfl rfl rfl | rfl | exact Nat.le_refl _ | (simp; done)

theorem makeForward_keeps {b m} {a0} (h : Keeps b m) : Keeps b (makeForward a0 m) := by
  unfold makeForward; try dsimp only
  repeat' first | intro _ | with_reducible assumption | with_reducible apply enterChange_keeps | with_reducible apply makeRate_keeps | with_reducible apply Keeps.ite | split | exact h.of rfl rfl rfl rfl rfl rfl | rfl | exact Nat.le_refl _ | (simp; done)

theorem dropForward_keeps {b m} {a0} (h : Keeps b m) : Keeps b (dropForward a0 m) := by
  unfold dropForward; try dsimp only
  repeat' first | intro _ | with_reducible assumption | with_reducible apply onMbx_keeps | with_reducible apply Keeps.ite | split | exact h.of rfl rfl rfl rfl rfl rfl | rfl | exact Nat.le_refl _ | (simp; done)

theorem partnerAnswer_keeps {b m} {a0 a1} (h : Keeps b m) : Keeps b (partnerAnswer a0 a1 m) := by
  unfold partnerAnswer; try dsimp only
  repeat' first | intro _ | with_reducible assumption | with_reducible apply dropForward_keeps | with_reducible apply makeForward_keeps | with_reducible apply respond_keeps | with_reducible apply Keeps.ite | split | exact h.of rfl rfl rfl rfl rfl rfl | rfl | exact Nat.le_refl _ | (simp; done)

theorem execM2SegmentRetry_keeps {b s t} (h : Keeps b s.m) (e : execM2SegmentRetry s = .next t) : Keeps b t.m := by
  unfold execM2SegmentRetry at e; refine runOn_keeps ?_ e; try dsimp only
  repeat' first | intro _ | with_reducible assumption | with_reducible apply dropForward_keeps | with_reducible apply onMbx_keeps | with_reducible apply passCycles_keeps | with_reducible apply respond_keeps | with_reducible apply sendForward_keeps | with_reducible apply Keeps.ite | with_reducible apply id_keeps | split | exact h.of rfl rfl rfl rfl rfl rfl | rfl | exact Nat.le_refl _ | (simp; done)

theorem serialSegment_keeps {b m} {a0 a1 a2} (h : Keeps b m) : Keeps b (serialSegment a0 a1 a2 m) := by
  unfold serialSegment; try dsimp only
  repeat' first | intro _ | with_reducible assumption | with_reducible apply onMbx_keeps | with_reducible apply takeSegment_keeps | with_reducible apply Keeps.ite | split | exact h.of rfl rfl rfl rfl rfl rfl | rfl | exact Nat.le_refl _ | (simp; done)

theorem execMailboxSegment_keeps {b s t} {a0 a1 a2} (h : Keeps b s.m) (e : execMailboxSegment a0 a1 a2 s = .next t) : Keeps b t.m := by
  unfold execMailboxSegment at e; refine runOn_keeps ?_ e; try dsimp only
  repeat' first | intro _ | with_reducible assumption | with_reducible apply openSession_keeps | with_reducible apply partnerAnswer_keeps | with_reducible apply serialSegment_keeps | with_reducible apply takeSegment_keeps | with_reducible apply Keeps.ite | with_reducible apply id_keeps | split | exact h.of rfl rfl rfl rfl rfl rfl | rfl | exact Nat.le_refl _ | (simp; done)

theorem idleBox_keeps {b m} {a0} (h : Keeps b m) : Keeps b (idleBox a0 m) := by
  unfold idleBox; try dsimp only
  repeat' first | intro _ | with_reducible assumption | with_reducible apply onSliceBox_keeps | with_reducible apply Keeps.ite | split | exact h.of rfl rfl rfl rfl rfl rfl | rfl | exact Nat.le_refl _ | (simp; done)

theorem execSegmentTimeout_keeps {b s t} {a0} (h : Keeps b s.m) (e : execSegmentTimeout a0 s = .next t) : Keeps b t.m := by
  unfold execSegmentTimeout at e; refine runOn_keeps ?_ e; try dsimp only
  repeat' first | intro _ | with_reducible assumption | with_reducible apply dropAsm_keeps | with_reducible apply idleBox_keeps | with_reducible apply onSess_keeps | with_reducible apply passCycles_keeps | with_reducible apply Keeps.ite | with_reducible apply id_keeps | split | exact h.of rfl rfl rfl rfl rfl rfl | rfl | exact Nat.le_refl _ | (simp; done)

theorem execResponseTimeout_keeps {b s t} {a0} (h : Keeps b s.m) (e : execResponseTimeout a0 s = .next t) : Keeps b t.m := by
  unfold execResponseTimeout at e; refine runOn_keeps ?_ e; try dsimp only
  repeat' first | intro _ | with_reducible assumption | with_reducible apply dropMore_keeps | with_reducible apply idleBox_keeps | with_reducible apply passCycles_keeps | with_reducible apply Keeps.ite | with_reducible apply id_keeps | split | exact h.of rfl rfl rfl rfl rfl rfl | rfl | exact Nat.le_refl _ | (simp; done)

theorem overrunBox_keeps {b m} {a0} (h : Keeps b m) : Keeps b (overrunBox a0 m) := by
  unfold overrunBox; try dsimp only
  repeat' first | intro _ | with_reducible assumption | with_reducible apply onSliceBox_keeps | with_reducible apply Keeps.ite | split | exact h.of rfl rfl rfl rfl rfl rfl | rfl | exact Nat.le_refl _ | (simp; done)

theorem takeBuffer_keeps {b m} {a0} (h : Keeps b m) : Keeps b (takeBuffer a0 m) := by
  unfold takeBuffer; try dsimp only
  repeat' first | intro _ | with_reducible assumption | with_reducible apply onSliceBox_keeps | with_reducible apply takeSegment_keeps | with_reducible apply Keeps.ite | split | exact h.of rfl rfl rfl rfl rfl rfl | rfl | exact Nat.le_refl _ | (simp; done)

theorem execMbxTakeRequest_keeps {b s t} {a0} (h : Keeps b s.m) (e : execMbxTakeRequest a0 s = .next t) : Keeps b t.m := by
  unfold execMbxTakeRequest at e; refine runOn_keeps ?_ e; try dsimp only
  repeat' first | intro _ | with_reducible assumption | with_reducible apply overrunBox_keeps | with_reducible apply takeBuffer_keeps | with_reducible apply Keeps.ite | with_reducible apply id_keeps | split | exact h.of rfl rfl rfl rfl rfl rfl | rfl | exact Nat.le_refl _ | (simp; done)

theorem placeNext_keeps {b m} {a0} (h : Keeps b m) : Keeps b (placeNext a0 m) := by
  unfold placeNext; try dsimp only
  repeat' first | intro _ | with_reducible assumption | exact memPut_wf _ _ _ (by assumption) | exact memFilter_wf _ _ (by assumption) | exact memZero_wf _ _ _ (by assumption) | with_reducible apply onMem_keeps | with_reducible apply onSess_keeps | with_reducible apply onSliceBox_keeps | with_reducible apply Keeps.ite | split | exact h.of rfl rfl rfl rfl rfl rfl | rfl | exact Nat.le_refl _ | (simp; done)

theorem execMbxNextResponse_keeps {b s t} {a0} (h : Keeps b s.m) (e : execMbxNextResponse a0 s = .next t) : Keeps b t.m := by
  unfold execMbxNextResponse at e; refine runOn_keeps ?_ e; try dsimp only
  repeat' first | intro _ | with_reducible assumption | with_reducible apply overrunBox_keeps | with_reducible apply placeNext_keeps | with_reducible apply Keeps.ite | with_reducible apply id_keeps | split | exact h.of rfl rfl rfl rfl rfl rfl | rfl | exact Nat.le_refl _ | (simp; done)

theorem abandonBox_keeps {b m} {a0} (h : Keeps b m) : Keeps b (abandonBox a0 m) := by
  unfold abandonBox; try dsimp only
  repeat' first | intro _ | with_reducible assumption | with_reducible apply dropAsm_keeps | with_reducible apply dropMore_keeps | with_reducible apply idleBox_keeps | with_reducible apply refuseMsg_keeps | with_reducible apply Keeps.ite | split | exact h.of rfl rfl rfl rfl rfl rfl | rfl | exact Nat.le_refl _ | (simp; done)

theorem execMbxAbandon_keeps {b s t} {a0} (h : Keeps b s.m) (e : execMbxAbandon a0 s = .next t) : Keeps b t.m := by
  unfold execMbxAbandon at e; refine runOn_keeps ?_ e; try dsimp only
  repeat' first | intro _ | with_reducible assumption | with_reducible apply abandonBox_keeps | with_reducible apply overrunBox_keeps | with_reducible apply Keeps.ite | with_reducible apply id_keeps | split | exact h.of rfl rfl rfl rfl rfl rfl | rfl | exact Nat.le_refl _ | (simp; done)

theorem execMbxStatusRead_keeps {b s t} {a0} (h : Keeps b s.m) (e : execMbxStatusRead a0 s = .next t) : Keeps b t.m := by
  unfold execMbxStatusRead at e; refine runOn_keeps ?_ e; try dsimp only
  repeat' first | intro _ | with_reducible assumption | with_reducible apply coreReads_keeps | with_reducible apply onSliceBox_keeps | with_reducible apply Keeps.ite | with_reducible apply id_keeps | split | exact h.of rfl rfl rfl rfl rfl rfl | rfl | exact Nat.le_refl _ | (simp; done)

theorem execMailboxNotify_keeps {b s t} {a0} (h : Keeps b s.m) (e : execMailboxNotify a0 s = .next t) : Keeps b t.m := by
  unfold execMailboxNotify at e; refine runOn_keeps ?_ e; try dsimp only
  repeat' first | intro _ | with_reducible assumption | with_reducible apply onMbx_keeps | with_reducible apply onSliceBox_keeps | with_reducible apply postItem_keeps | with_reducible apply Keeps.ite | with_reducible apply id_keeps | split | exact h.of rfl rfl rfl rfl rfl rfl | rfl | exact Nat.le_refl _ | (simp; done)

theorem writeSpa_keeps {b m} {a0 a1 a2 a3} (h : Keeps b m) : Keeps b (writeSpa a0 a1 a2 a3 m) := by
  unfold writeSpa; try dsimp only
  repeat' first | intro _ | with_reducible assumption | with_reducible apply onSpa_keeps | with_reducible apply Keeps.ite | split | exact h.of rfl rfl rfl rfl rfl rfl | rfl | exact Nat.le_refl _ | (simp; done)

theorem writeDoorbell_keeps {b m} {a0 a1 a2} (h : Keeps b m) : Keeps b (writeDoorbell a0 a1 a2 m) := by
  unfold writeDoorbell; try dsimp only
  repeat' first | intro _ | with_reducible assumption | refine moduleAfter_keeps ?_ fun _ _ hk he => execMbxTakeRequest_keeps hk he | refine moduleAfter_keeps ?_ fun _ _ hk he => execMbxNextResponse_keeps hk he | refine moduleAfter_keeps ?_ fun _ _ hk he => execMbxAbandon_keeps hk he | with_reducible apply moduleAfter_keeps | with_reducible apply overrunBox_keeps | with_reducible apply Keeps.ite | split | exact h.of rfl rfl rfl rfl rfl rfl | rfl | exact Nat.le_refl _ | (simp; done)

theorem writeWindow_keeps {b m} {a0 a1 a2 a3} (h : Keeps b m) : Keeps b (writeWindow a0 a1 a2 a3 m) := by
  unfold writeWindow; try dsimp only
  repeat' first | intro _ | with_reducible assumption | exact memPut_wf _ _ _ (by assumption) | exact memFilter_wf _ _ (by assumption) | exact memZero_wf _ _ _ (by assumption) | refine moduleAfter_keeps ?_ fun _ _ hk he => execDspSubmit_keeps hk he | refine moduleAfter_keeps ?_ fun _ _ hk he => execDspCancel_keeps hk he | refine moduleAfter_keeps ?_ fun _ _ hk he => execRdbTail_keeps hk he | refine moduleAfter_keeps ?_ fun _ _ hk he => execEvrCursor_keeps hk he | with_reducible apply moduleAfter_keeps | with_reducible apply onMem_keeps | with_reducible apply spaBurst_keeps | with_reducible apply spaCmd_keeps | with_reducible apply writeDoorbell_keeps | with_reducible apply writeSpa_keeps | with_reducible apply Keeps.ite | split | exact h.of rfl rfl rfl rfl rfl rfl | rfl | exact Nat.le_refl _ | (simp; done)

theorem execRegisterWrite_keeps {b s t} {a0 a1 a2} (h : Keeps b s.m) (e : execRegisterWrite a0 a1 a2 s = .next t) : Keeps b t.m := by
  unfold execRegisterWrite at e; refine runOn_keeps ?_ e; try dsimp only
  repeat' first | intro _ | with_reducible assumption | with_reducible apply faultItem_keeps | with_reducible apply noteLines_keeps | with_reducible apply slcPut_keeps | with_reducible apply writeWindow_keeps | with_reducible apply Keeps.ite | with_reducible apply id_keeps | split | exact h.of rfl rfl rfl rfl rfl rfl | rfl | exact Nat.le_refl _ | (simp; done)

end Sys2Proof.Machine
end

