-- ==== Sys2Proof/Laws/KeepsRly.lean ====
section
/-! SUPPORT. What every operation and every command of Machine/Rly keeps (Keeps, Laws/Keeps). -/
namespace Sys2Proof.Machine
set_option linter.all false
open Sys2Proof

theorem takeRelayed_keeps {b m} {a0 a1} (h : Keeps b m) : Keeps b (takeRelayed a0 a1 m) := by
  unfold takeRelayed; try dsimp only
  repeat' first | intro _ | with_reducible assumption | with_reducible apply onChn_keeps | with_reducible apply openSession_keeps | with_reducible apply takeSegment_keeps | with_reducible apply Keeps.ite | split | exact h.of rfl rfl rfl rfl rfl rfl | rfl | exact Nat.le_refl _ | (simp; done)

theorem hearRequest_keeps {b m} {a0} (h : Keeps b m) : Keeps b (hearRequest a0 m) := by
  unfold hearRequest; try dsimp only
  repeat' first | intro _ | with_reducible assumption | with_reducible apply onChn_keeps | with_reducible apply takeRelayed_keeps | with_reducible apply Keeps.ite | split | exact h.of rfl rfl rfl rfl rfl rfl | rfl | exact Nat.le_refl _ | (simp; done)

theorem execRelayRequestReceive_keeps {b s t} {a0} (h : Keeps b s.m) (e : execRelayRequestReceive a0 s = .next t) : Keeps b t.m := by
  unfold execRelayRequestReceive at e; refine runOn_keeps ?_ e; try dsimp only
  repeat' first | intro _ | with_reducible assumption | with_reducible apply hearRequest_keeps | with_reducible apply passChain_keeps | with_reducible apply Keeps.ite | with_reducible apply id_keeps | split | exact h.of rfl rfl rfl rfl rfl rfl | rfl | exact Nat.le_refl _ | (simp; done)

theorem converge_keeps {b m} {a0 a1} (h : Keeps b m) : Keeps b (converge a0 a1 m) := by
  unfold converge
  refine forEach_keeps h fun a x hx => ?_
  split
  · exact onEntry_keeps hx
  · exact hx

theorem relayDone_keeps {b m} {a0 a1} (h : Keeps b m) : Keeps b (relayDone a0 a1 m) := by
  unfold relayDone; try dsimp only
  repeat' first | intro _ | with_reducible assumption | with_reducible apply converge_keeps | with_reducible apply deliver_keeps | with_reducible apply diverge_keeps | with_reducible apply onEntry_keeps | with_reducible apply startRelay_keeps | with_reducible apply Keeps.ite | split | exact h.of rfl rfl rfl rfl rfl rfl | rfl | exact Nat.le_refl _ | (simp; done)

theorem relaySegment_keeps {b m} {a0 a1} (h : Keeps b m) : Keeps b (relaySegment a0 a1 m) := by
  unfold relaySegment; try dsimp only
  repeat' first | intro _ | with_reducible assumption | with_reducible apply onChn_keeps | with_reducible apply relayDone_keeps | with_reducible apply sendNext_keeps | with_reducible apply Keeps.ite | split | exact h.of rfl rfl rfl rfl rfl rfl | rfl | exact Nat.le_refl _ | (simp; done)

theorem hearResponse_keeps {b m} {a0} (h : Keeps b m) : Keeps b (hearResponse a0 m) := by
  unfold hearResponse; try dsimp only
  repeat' first | intro _ | with_reducible assumption | with_reducible apply onChn_keeps | with_reducible apply relaySegment_keeps | with_reducible apply Keeps.ite | split | exact h.of rfl rfl rfl rfl rfl rfl | rfl | exact Nat.le_refl _ | (simp; done)

theorem execRelayResponseReceive_keeps {b s t} {a0} (h : Keeps b s.m) (e : execRelayResponseReceive a0 s = .next t) : Keeps b t.m := by
  unfold execRelayResponseReceive at e; refine runOn_keeps ?_ e; try dsimp only
  repeat' first | intro _ | with_reducible assumption | with_reducible apply hearResponse_keeps | with_reducible apply passChain_keeps | with_reducible apply Keeps.ite | with_reducible apply id_keeps | split | exact h.of rfl rfl rfl rfl rfl rfl | rfl | exact Nat.le_refl _ | (simp; done)

theorem execRelayTimeout_keeps {b s t} (h : Keeps b s.m) (e : execRelayTimeout s = .next t) : Keeps b t.m := by
  unfold execRelayTimeout at e; refine runOn_keeps ?_ e; try dsimp only
  repeat' first | intro _ | with_reducible assumption | with_reducible apply failRelay_keeps | with_reducible apply passCycles_keeps | with_reducible apply Keeps.ite | with_reducible apply id_keeps | split | exact h.of rfl rfl rfl rfl rfl rfl | rfl | exact Nat.le_refl _ | (simp; done)

theorem execInDoubtResolve_keeps {b s t} (h : Keeps b s.m) (e : execInDoubtResolve s = .next t) : Keeps b t.m := by
  unfold execInDoubtResolve at e; refine runOn_keeps ?_ e; try dsimp only
  repeat' first | intro _ | with_reducible assumption | with_reducible apply onChn_keeps | with_reducible apply raise_keeps | with_reducible apply Keeps.ite | with_reducible apply id_keeps | split | exact h.of rfl rfl rfl rfl rfl rfl | rfl | exact Nat.le_refl _ | (simp; done)

end Sys2Proof.Machine
end

