-- ==== Sys2Proof/Laws/State.lean ====
section
/-! SUPPORT. What each named update of a part of the module does to each field: it rewrites its own, and leaves every other alone. -/
namespace Sys2Proof.Machine
open Sys2Proof

-- onTime

@[simp] theorem onTime_dom (g) (m : Mach) : (onTime g m).dom = m.dom := rfl
@[simp] theorem onTime_ident (g) (m : Mach) : (onTime g m).ident = m.ident := rfl
@[simp] theorem onTime_time (g) (m : Mach) : (onTime g m).time = g m.time := rfl
@[simp] theorem onTime_evr (g) (m : Mach) : (onTime g m).evr = m.evr := rfl
@[simp] theorem onTime_mbx (g) (m : Mach) : (onTime g m).mbx = m.mbx := rfl
@[simp] theorem onTime_sec (g) (m : Mach) : (onTime g m).sec = m.sec := rfl
@[simp] theorem onTime_chn (g) (m : Mach) : (onTime g m).chn = m.chn := rfl
@[simp] theorem onTime_twn (g) (m : Mach) : (onTime g m).twn = m.twn := rfl
@[simp] theorem onTime_net (g) (m : Mach) : (onTime g m).net = m.net := rfl
@[simp] theorem onTime_svi (g) (m : Mach) : (onTime g m).svi = m.svi := rfl
@[simp] theorem onTime_flt (g) (m : Mach) : (onTime g m).flt = m.flt := rfl
@[simp] theorem onTime_cpu (g) (m : Mach) : (onTime g m).cpu = m.cpu := rfl
@[simp] theorem onTime_sig (g) (m : Mach) : (onTime g m).sig = m.sig := rfl
@[simp] theorem onTime_lge (g) (m : Mach) : (onTime g m).lge = m.lge := rfl
@[simp] theorem onTime_eng (g) (m : Mach) : (onTime g m).eng = m.eng := rfl
@[simp] theorem onTime_umb (g) (m : Mach) : (onTime g m).umb = m.umb := rfl
@[simp] theorem onTime_mem (g) (m : Mach) : (onTime g m).mem = m.mem := rfl
@[simp] theorem onTime_free (g) (m : Mach) : (onTime g m).free = m.free := rfl
@[simp] theorem onTime_quiet (g) (m : Mach) : (onTime g m).quiet = m.quiet := rfl

-- onDom

@[simp] theorem onDom_dom (g) (m : Mach) : (onDom g m).dom = g m.dom := rfl
@[simp] theorem onDom_ident (g) (m : Mach) : (onDom g m).ident = m.ident := rfl
@[simp] theorem onDom_time (g) (m : Mach) : (onDom g m).time = m.time := rfl
@[simp] theorem onDom_evr (g) (m : Mach) : (onDom g m).evr = m.evr := rfl
@[simp] theorem onDom_mbx (g) (m : Mach) : (onDom g m).mbx = m.mbx := rfl
@[simp] theorem onDom_sec (g) (m : Mach) : (onDom g m).sec = m.sec := rfl
@[simp] theorem onDom_chn (g) (m : Mach) : (onDom g m).chn = m.chn := rfl
@[simp] theorem onDom_twn (g) (m : Mach) : (onDom g m).twn = m.twn := rfl
@[simp] theorem onDom_net (g) (m : Mach) : (onDom g m).net = m.net := rfl
@[simp] theorem onDom_svi (g) (m : Mach) : (onDom g m).svi = m.svi := rfl
@[simp] theorem onDom_flt (g) (m : Mach) : (onDom g m).flt = m.flt := rfl
@[simp] theorem onDom_cpu (g) (m : Mach) : (onDom g m).cpu = m.cpu := rfl
@[simp] theorem onDom_sig (g) (m : Mach) : (onDom g m).sig = m.sig := rfl
@[simp] theorem onDom_lge (g) (m : Mach) : (onDom g m).lge = m.lge := rfl
@[simp] theorem onDom_eng (g) (m : Mach) : (onDom g m).eng = m.eng := rfl
@[simp] theorem onDom_umb (g) (m : Mach) : (onDom g m).umb = m.umb := rfl
@[simp] theorem onDom_mem (g) (m : Mach) : (onDom g m).mem = m.mem := rfl
@[simp] theorem onDom_free (g) (m : Mach) : (onDom g m).free = m.free := rfl
@[simp] theorem onDom_quiet (g) (m : Mach) : (onDom g m).quiet = m.quiet := rfl

-- onEvr

@[simp] theorem onEvr_dom (g) (m : Mach) : (onEvr g m).dom = m.dom := rfl
@[simp] theorem onEvr_ident (g) (m : Mach) : (onEvr g m).ident = m.ident := rfl
@[simp] theorem onEvr_time (g) (m : Mach) : (onEvr g m).time = m.time := rfl
@[simp] theorem onEvr_evr (g) (m : Mach) : (onEvr g m).evr = g m.evr := rfl
@[simp] theorem onEvr_mbx (g) (m : Mach) : (onEvr g m).mbx = m.mbx := rfl
@[simp] theorem onEvr_sec (g) (m : Mach) : (onEvr g m).sec = m.sec := rfl
@[simp] theorem onEvr_chn (g) (m : Mach) : (onEvr g m).chn = m.chn := rfl
@[simp] theorem onEvr_twn (g) (m : Mach) : (onEvr g m).twn = m.twn := rfl
@[simp] theorem onEvr_net (g) (m : Mach) : (onEvr g m).net = m.net := rfl
@[simp] theorem onEvr_svi (g) (m : Mach) : (onEvr g m).svi = m.svi := rfl
@[simp] theorem onEvr_flt (g) (m : Mach) : (onEvr g m).flt = m.flt := rfl
@[simp] theorem onEvr_cpu (g) (m : Mach) : (onEvr g m).cpu = m.cpu := rfl
@[simp] theorem onEvr_sig (g) (m : Mach) : (onEvr g m).sig = m.sig := rfl
@[simp] theorem onEvr_lge (g) (m : Mach) : (onEvr g m).lge = m.lge := rfl
@[simp] theorem onEvr_eng (g) (m : Mach) : (onEvr g m).eng = m.eng := rfl
@[simp] theorem onEvr_umb (g) (m : Mach) : (onEvr g m).umb = m.umb := rfl
@[simp] theorem onEvr_mem (g) (m : Mach) : (onEvr g m).mem = m.mem := rfl
@[simp] theorem onEvr_free (g) (m : Mach) : (onEvr g m).free = m.free := rfl
@[simp] theorem onEvr_quiet (g) (m : Mach) : (onEvr g m).quiet = m.quiet := rfl

-- onMbx

@[simp] theorem onMbx_dom (g) (m : Mach) : (onMbx g m).dom = m.dom := rfl
@[simp] theorem onMbx_ident (g) (m : Mach) : (onMbx g m).ident = m.ident := rfl
@[simp] theorem onMbx_time (g) (m : Mach) : (onMbx g m).time = m.time := rfl
@[simp] theorem onMbx_evr (g) (m : Mach) : (onMbx g m).evr = m.evr := rfl
@[simp] theorem onMbx_mbx (g) (m : Mach) : (onMbx g m).mbx = g m.mbx := rfl
@[simp] theorem onMbx_sec (g) (m : Mach) : (onMbx g m).sec = m.sec := rfl
@[simp] theorem onMbx_chn (g) (m : Mach) : (onMbx g m).chn = m.chn := rfl
@[simp] theorem onMbx_twn (g) (m : Mach) : (onMbx g m).twn = m.twn := rfl
@[simp] theorem onMbx_net (g) (m : Mach) : (onMbx g m).net = m.net := rfl
@[simp] theorem onMbx_svi (g) (m : Mach) : (onMbx g m).svi = m.svi := rfl
@[simp] theorem onMbx_flt (g) (m : Mach) : (onMbx g m).flt = m.flt := rfl
@[simp] theorem onMbx_cpu (g) (m : Mach) : (onMbx g m).cpu = m.cpu := rfl
@[simp] theorem onMbx_sig (g) (m : Mach) : (onMbx g m).sig = m.sig := rfl
@[simp] theorem onMbx_lge (g) (m : Mach) : (onMbx g m).lge = m.lge := rfl
@[simp] theorem onMbx_eng (g) (m : Mach) : (onMbx g m).eng = m.eng := rfl
@[simp] theorem onMbx_umb (g) (m : Mach) : (onMbx g m).umb = m.umb := rfl
@[simp] theorem onMbx_mem (g) (m : Mach) : (onMbx g m).mem = m.mem := rfl
@[simp] theorem onMbx_free (g) (m : Mach) : (onMbx g m).free = m.free := rfl
@[simp] theorem onMbx_quiet (g) (m : Mach) : (onMbx g m).quiet = m.quiet := rfl

-- onSec

@[simp] theorem onSec_dom (g) (m : Mach) : (onSec g m).dom = m.dom := rfl
@[simp] theorem onSec_ident (g) (m : Mach) : (onSec g m).ident = m.ident := rfl
@[simp] theorem onSec_time (g) (m : Mach) : (onSec g m).time = m.time := rfl
@[simp] theorem onSec_evr (g) (m : Mach) : (onSec g m).evr = m.evr := rfl
@[simp] theorem onSec_mbx (g) (m : Mach) : (onSec g m).mbx = m.mbx := rfl
@[simp] theorem onSec_sec (g) (m : Mach) : (onSec g m).sec = g m.sec := rfl
@[simp] theorem onSec_chn (g) (m : Mach) : (onSec g m).chn = m.chn := rfl
@[simp] theorem onSec_twn (g) (m : Mach) : (onSec g m).twn = m.twn := rfl
@[simp] theorem onSec_net (g) (m : Mach) : (onSec g m).net = m.net := rfl
@[simp] theorem onSec_svi (g) (m : Mach) : (onSec g m).svi = m.svi := rfl
@[simp] theorem onSec_flt (g) (m : Mach) : (onSec g m).flt = m.flt := rfl
@[simp] theorem onSec_cpu (g) (m : Mach) : (onSec g m).cpu = m.cpu := rfl
@[simp] theorem onSec_sig (g) (m : Mach) : (onSec g m).sig = m.sig := rfl
@[simp] theorem onSec_lge (g) (m : Mach) : (onSec g m).lge = m.lge := rfl
@[simp] theorem onSec_eng (g) (m : Mach) : (onSec g m).eng = m.eng := rfl
@[simp] theorem onSec_umb (g) (m : Mach) : (onSec g m).umb = m.umb := rfl
@[simp] theorem onSec_mem (g) (m : Mach) : (onSec g m).mem = m.mem := rfl
@[simp] theorem onSec_free (g) (m : Mach) : (onSec g m).free = m.free := rfl
@[simp] theorem onSec_quiet (g) (m : Mach) : (onSec g m).quiet = m.quiet := rfl

-- onChn

@[simp] theorem onChn_dom (g) (m : Mach) : (onChn g m).dom = m.dom := rfl
@[simp] theorem onChn_ident (g) (m : Mach) : (onChn g m).ident = m.ident := rfl
@[simp] theorem onChn_time (g) (m : Mach) : (onChn g m).time = m.time := rfl
@[simp] theorem onChn_evr (g) (m : Mach) : (onChn g m).evr = m.evr := rfl
@[simp] theorem onChn_mbx (g) (m : Mach) : (onChn g m).mbx = m.mbx := rfl
@[simp] theorem onChn_sec (g) (m : Mach) : (onChn g m).sec = m.sec := rfl
@[simp] theorem onChn_chn (g) (m : Mach) : (onChn g m).chn = g m.chn := rfl
@[simp] theorem onChn_twn (g) (m : Mach) : (onChn g m).twn = m.twn := rfl
@[simp] theorem onChn_net (g) (m : Mach) : (onChn g m).net = m.net := rfl
@[simp] theorem onChn_svi (g) (m : Mach) : (onChn g m).svi = m.svi := rfl
@[simp] theorem onChn_flt (g) (m : Mach) : (onChn g m).flt = m.flt := rfl
@[simp] theorem onChn_cpu (g) (m : Mach) : (onChn g m).cpu = m.cpu := rfl
@[simp] theorem onChn_sig (g) (m : Mach) : (onChn g m).sig = m.sig := rfl
@[simp] theorem onChn_lge (g) (m : Mach) : (onChn g m).lge = m.lge := rfl
@[simp] theorem onChn_eng (g) (m : Mach) : (onChn g m).eng = m.eng := rfl
@[simp] theorem onChn_umb (g) (m : Mach) : (onChn g m).umb = m.umb := rfl
@[simp] theorem onChn_mem (g) (m : Mach) : (onChn g m).mem = m.mem := rfl
@[simp] theorem onChn_free (g) (m : Mach) : (onChn g m).free = m.free := rfl
@[simp] theorem onChn_quiet (g) (m : Mach) : (onChn g m).quiet = m.quiet := rfl

-- onTwn

@[simp] theorem onTwn_dom (g) (m : Mach) : (onTwn g m).dom = m.dom := rfl
@[simp] theorem onTwn_ident (g) (m : Mach) : (onTwn g m).ident = m.ident := rfl
@[simp] theorem onTwn_time (g) (m : Mach) : (onTwn g m).time = m.time := rfl
@[simp] theorem onTwn_evr (g) (m : Mach) : (onTwn g m).evr = m.evr := rfl
@[simp] theorem onTwn_mbx (g) (m : Mach) : (onTwn g m).mbx = m.mbx := rfl
@[simp] theorem onTwn_sec (g) (m : Mach) : (onTwn g m).sec = m.sec := rfl
@[simp] theorem onTwn_chn (g) (m : Mach) : (onTwn g m).chn = m.chn := rfl
@[simp] theorem onTwn_twn (g) (m : Mach) : (onTwn g m).twn = g m.twn := rfl
@[simp] theorem onTwn_net (g) (m : Mach) : (onTwn g m).net = m.net := rfl
@[simp] theorem onTwn_svi (g) (m : Mach) : (onTwn g m).svi = m.svi := rfl
@[simp] theorem onTwn_flt (g) (m : Mach) : (onTwn g m).flt = m.flt := rfl
@[simp] theorem onTwn_cpu (g) (m : Mach) : (onTwn g m).cpu = m.cpu := rfl
@[simp] theorem onTwn_sig (g) (m : Mach) : (onTwn g m).sig = m.sig := rfl
@[simp] theorem onTwn_lge (g) (m : Mach) : (onTwn g m).lge = m.lge := rfl
@[simp] theorem onTwn_eng (g) (m : Mach) : (onTwn g m).eng = m.eng := rfl
@[simp] theorem onTwn_umb (g) (m : Mach) : (onTwn g m).umb = m.umb := rfl
@[simp] theorem onTwn_mem (g) (m : Mach) : (onTwn g m).mem = m.mem := rfl
@[simp] theorem onTwn_free (g) (m : Mach) : (onTwn g m).free = m.free := rfl
@[simp] theorem onTwn_quiet (g) (m : Mach) : (onTwn g m).quiet = m.quiet := rfl

-- onNet

@[simp] theorem onNet_dom (g) (m : Mach) : (onNet g m).dom = m.dom := rfl
@[simp] theorem onNet_ident (g) (m : Mach) : (onNet g m).ident = m.ident := rfl
@[simp] theorem onNet_time (g) (m : Mach) : (onNet g m).time = m.time := rfl
@[simp] theorem onNet_evr (g) (m : Mach) : (onNet g m).evr = m.evr := rfl
@[simp] theorem onNet_mbx (g) (m : Mach) : (onNet g m).mbx = m.mbx := rfl
@[simp] theorem onNet_sec (g) (m : Mach) : (onNet g m).sec = m.sec := rfl
@[simp] theorem onNet_chn (g) (m : Mach) : (onNet g m).chn = m.chn := rfl
@[simp] theorem onNet_twn (g) (m : Mach) : (onNet g m).twn = m.twn := rfl
@[simp] theorem onNet_net (g) (m : Mach) : (onNet g m).net = g m.net := rfl
@[simp] theorem onNet_svi (g) (m : Mach) : (onNet g m).svi = m.svi := rfl
@[simp] theorem onNet_flt (g) (m : Mach) : (onNet g m).flt = m.flt := rfl
@[simp] theorem onNet_cpu (g) (m : Mach) : (onNet g m).cpu = m.cpu := rfl
@[simp] theorem onNet_sig (g) (m : Mach) : (onNet g m).sig = m.sig := rfl
@[simp] theorem onNet_lge (g) (m : Mach) : (onNet g m).lge = m.lge := rfl
@[simp] theorem onNet_eng (g) (m : Mach) : (onNet g m).eng = m.eng := rfl
@[simp] theorem onNet_umb (g) (m : Mach) : (onNet g m).umb = m.umb := rfl
@[simp] theorem onNet_mem (g) (m : Mach) : (onNet g m).mem = m.mem := rfl
@[simp] theorem onNet_free (g) (m : Mach) : (onNet g m).free = m.free := rfl
@[simp] theorem onNet_quiet (g) (m : Mach) : (onNet g m).quiet = m.quiet := rfl

-- onSvi

@[simp] theorem onSvi_dom (g) (m : Mach) : (onSvi g m).dom = m.dom := rfl
@[simp] theorem onSvi_ident (g) (m : Mach) : (onSvi g m).ident = m.ident := rfl
@[simp] theorem onSvi_time (g) (m : Mach) : (onSvi g m).time = m.time := rfl
@[simp] theorem onSvi_evr (g) (m : Mach) : (onSvi g m).evr = m.evr := rfl
@[simp] theorem onSvi_mbx (g) (m : Mach) : (onSvi g m).mbx = m.mbx := rfl
@[simp] theorem onSvi_sec (g) (m : Mach) : (onSvi g m).sec = m.sec := rfl
@[simp] theorem onSvi_chn (g) (m : Mach) : (onSvi g m).chn = m.chn := rfl
@[simp] theorem onSvi_twn (g) (m : Mach) : (onSvi g m).twn = m.twn := rfl
@[simp] theorem onSvi_net (g) (m : Mach) : (onSvi g m).net = m.net := rfl
@[simp] theorem onSvi_svi (g) (m : Mach) : (onSvi g m).svi = g m.svi := rfl
@[simp] theorem onSvi_flt (g) (m : Mach) : (onSvi g m).flt = m.flt := rfl
@[simp] theorem onSvi_cpu (g) (m : Mach) : (onSvi g m).cpu = m.cpu := rfl
@[simp] theorem onSvi_sig (g) (m : Mach) : (onSvi g m).sig = m.sig := rfl
@[simp] theorem onSvi_lge (g) (m : Mach) : (onSvi g m).lge = m.lge := rfl
@[simp] theorem onSvi_eng (g) (m : Mach) : (onSvi g m).eng = m.eng := rfl
@[simp] theorem onSvi_umb (g) (m : Mach) : (onSvi g m).umb = m.umb := rfl
@[simp] theorem onSvi_mem (g) (m : Mach) : (onSvi g m).mem = m.mem := rfl
@[simp] theorem onSvi_free (g) (m : Mach) : (onSvi g m).free = m.free := rfl
@[simp] theorem onSvi_quiet (g) (m : Mach) : (onSvi g m).quiet = m.quiet := rfl

-- onFlt

@[simp] theorem onFlt_dom (g) (m : Mach) : (onFlt g m).dom = m.dom := rfl
@[simp] theorem onFlt_ident (g) (m : Mach) : (onFlt g m).ident = m.ident := rfl
@[simp] theorem onFlt_time (g) (m : Mach) : (onFlt g m).time = m.time := rfl
@[simp] theorem onFlt_evr (g) (m : Mach) : (onFlt g m).evr = m.evr := rfl
@[simp] theorem onFlt_mbx (g) (m : Mach) : (onFlt g m).mbx = m.mbx := rfl
@[simp] theorem onFlt_sec (g) (m : Mach) : (onFlt g m).sec = m.sec := rfl
@[simp] theorem onFlt_chn (g) (m : Mach) : (onFlt g m).chn = m.chn := rfl
@[simp] theorem onFlt_twn (g) (m : Mach) : (onFlt g m).twn = m.twn := rfl
@[simp] theorem onFlt_net (g) (m : Mach) : (onFlt g m).net = m.net := rfl
@[simp] theorem onFlt_svi (g) (m : Mach) : (onFlt g m).svi = m.svi := rfl
@[simp] theorem onFlt_flt (g) (m : Mach) : (onFlt g m).flt = g m.flt := rfl
@[simp] theorem onFlt_cpu (g) (m : Mach) : (onFlt g m).cpu = m.cpu := rfl
@[simp] theorem onFlt_sig (g) (m : Mach) : (onFlt g m).sig = m.sig := rfl
@[simp] theorem onFlt_lge (g) (m : Mach) : (onFlt g m).lge = m.lge := rfl
@[simp] theorem onFlt_eng (g) (m : Mach) : (onFlt g m).eng = m.eng := rfl
@[simp] theorem onFlt_umb (g) (m : Mach) : (onFlt g m).umb = m.umb := rfl
@[simp] theorem onFlt_mem (g) (m : Mach) : (onFlt g m).mem = m.mem := rfl
@[simp] theorem onFlt_free (g) (m : Mach) : (onFlt g m).free = m.free := rfl
@[simp] theorem onFlt_quiet (g) (m : Mach) : (onFlt g m).quiet = m.quiet := rfl

-- onCpu

@[simp] theorem onCpu_dom (g) (m : Mach) : (onCpu g m).dom = m.dom := rfl
@[simp] theorem onCpu_ident (g) (m : Mach) : (onCpu g m).ident = m.ident := rfl
@[simp] theorem onCpu_time (g) (m : Mach) : (onCpu g m).time = m.time := rfl
@[simp] theorem onCpu_evr (g) (m : Mach) : (onCpu g m).evr = m.evr := rfl
@[simp] theorem onCpu_mbx (g) (m : Mach) : (onCpu g m).mbx = m.mbx := rfl
@[simp] theorem onCpu_sec (g) (m : Mach) : (onCpu g m).sec = m.sec := rfl
@[simp] theorem onCpu_chn (g) (m : Mach) : (onCpu g m).chn = m.chn := rfl
@[simp] theorem onCpu_twn (g) (m : Mach) : (onCpu g m).twn = m.twn := rfl
@[simp] theorem onCpu_net (g) (m : Mach) : (onCpu g m).net = m.net := rfl
@[simp] theorem onCpu_svi (g) (m : Mach) : (onCpu g m).svi = m.svi := rfl
@[simp] theorem onCpu_flt (g) (m : Mach) : (onCpu g m).flt = m.flt := rfl
@[simp] theorem onCpu_cpu (g) (m : Mach) : (onCpu g m).cpu = g m.cpu := rfl
@[simp] theorem onCpu_sig (g) (m : Mach) : (onCpu g m).sig = m.sig := rfl
@[simp] theorem onCpu_lge (g) (m : Mach) : (onCpu g m).lge = m.lge := rfl
@[simp] theorem onCpu_eng (g) (m : Mach) : (onCpu g m).eng = m.eng := rfl
@[simp] theorem onCpu_umb (g) (m : Mach) : (onCpu g m).umb = m.umb := rfl
@[simp] theorem onCpu_mem (g) (m : Mach) : (onCpu g m).mem = m.mem := rfl
@[simp] theorem onCpu_free (g) (m : Mach) : (onCpu g m).free = m.free := rfl
@[simp] theorem onCpu_quiet (g) (m : Mach) : (onCpu g m).quiet = m.quiet := rfl

-- onSig

@[simp] theorem onSig_dom (g) (m : Mach) : (onSig g m).dom = m.dom := rfl
@[simp] theorem onSig_ident (g) (m : Mach) : (onSig g m).ident = m.ident := rfl
@[simp] theorem onSig_time (g) (m : Mach) : (onSig g m).time = m.time := rfl
@[simp] theorem onSig_evr (g) (m : Mach) : (onSig g m).evr = m.evr := rfl
@[simp] theorem onSig_mbx (g) (m : Mach) : (onSig g m).mbx = m.mbx := rfl
@[simp] theorem onSig_sec (g) (m : Mach) : (onSig g m).sec = m.sec := rfl
@[simp] theorem onSig_chn (g) (m : Mach) : (onSig g m).chn = m.chn := rfl
@[simp] theorem onSig_twn (g) (m : Mach) : (onSig g m).twn = m.twn := rfl
@[simp] theorem onSig_net (g) (m : Mach) : (onSig g m).net = m.net := rfl
@[simp] theorem onSig_svi (g) (m : Mach) : (onSig g m).svi = m.svi := rfl
@[simp] theorem onSig_flt (g) (m : Mach) : (onSig g m).flt = m.flt := rfl
@[simp] theorem onSig_cpu (g) (m : Mach) : (onSig g m).cpu = m.cpu := rfl
@[simp] theorem onSig_sig (g) (m : Mach) : (onSig g m).sig = g m.sig := rfl
@[simp] theorem onSig_lge (g) (m : Mach) : (onSig g m).lge = m.lge := rfl
@[simp] theorem onSig_eng (g) (m : Mach) : (onSig g m).eng = m.eng := rfl
@[simp] theorem onSig_umb (g) (m : Mach) : (onSig g m).umb = m.umb := rfl
@[simp] theorem onSig_mem (g) (m : Mach) : (onSig g m).mem = m.mem := rfl
@[simp] theorem onSig_free (g) (m : Mach) : (onSig g m).free = m.free := rfl
@[simp] theorem onSig_quiet (g) (m : Mach) : (onSig g m).quiet = m.quiet := rfl

-- onLge

@[simp] theorem onLge_dom (g) (m : Mach) : (onLge g m).dom = m.dom := rfl
@[simp] theorem onLge_ident (g) (m : Mach) : (onLge g m).ident = m.ident := rfl
@[simp] theorem onLge_time (g) (m : Mach) : (onLge g m).time = m.time := rfl
@[simp] theorem onLge_evr (g) (m : Mach) : (onLge g m).evr = m.evr := rfl
@[simp] theorem onLge_mbx (g) (m : Mach) : (onLge g m).mbx = m.mbx := rfl
@[simp] theorem onLge_sec (g) (m : Mach) : (onLge g m).sec = m.sec := rfl
@[simp] theorem onLge_chn (g) (m : Mach) : (onLge g m).chn = m.chn := rfl
@[simp] theorem onLge_twn (g) (m : Mach) : (onLge g m).twn = m.twn := rfl
@[simp] theorem onLge_net (g) (m : Mach) : (onLge g m).net = m.net := rfl
@[simp] theorem onLge_svi (g) (m : Mach) : (onLge g m).svi = m.svi := rfl
@[simp] theorem onLge_flt (g) (m : Mach) : (onLge g m).flt = m.flt := rfl
@[simp] theorem onLge_cpu (g) (m : Mach) : (onLge g m).cpu = m.cpu := rfl
@[simp] theorem onLge_sig (g) (m : Mach) : (onLge g m).sig = m.sig := rfl
@[simp] theorem onLge_lge (g) (m : Mach) : (onLge g m).lge = g m.lge := rfl
@[simp] theorem onLge_eng (g) (m : Mach) : (onLge g m).eng = m.eng := rfl
@[simp] theorem onLge_umb (g) (m : Mach) : (onLge g m).umb = m.umb := rfl
@[simp] theorem onLge_mem (g) (m : Mach) : (onLge g m).mem = m.mem := rfl
@[simp] theorem onLge_free (g) (m : Mach) : (onLge g m).free = m.free := rfl
@[simp] theorem onLge_quiet (g) (m : Mach) : (onLge g m).quiet = m.quiet := rfl

-- onEng

@[simp] theorem onEng_dom (g) (m : Mach) : (onEng g m).dom = m.dom := rfl
@[simp] theorem onEng_ident (g) (m : Mach) : (onEng g m).ident = m.ident := rfl
@[simp] theorem onEng_time (g) (m : Mach) : (onEng g m).time = m.time := rfl
@[simp] theorem onEng_evr (g) (m : Mach) : (onEng g m).evr = m.evr := rfl
@[simp] theorem onEng_mbx (g) (m : Mach) : (onEng g m).mbx = m.mbx := rfl
@[simp] theorem onEng_sec (g) (m : Mach) : (onEng g m).sec = m.sec := rfl
@[simp] theorem onEng_chn (g) (m : Mach) : (onEng g m).chn = m.chn := rfl
@[simp] theorem onEng_twn (g) (m : Mach) : (onEng g m).twn = m.twn := rfl
@[simp] theorem onEng_net (g) (m : Mach) : (onEng g m).net = m.net := rfl
@[simp] theorem onEng_svi (g) (m : Mach) : (onEng g m).svi = m.svi := rfl
@[simp] theorem onEng_flt (g) (m : Mach) : (onEng g m).flt = m.flt := rfl
@[simp] theorem onEng_cpu (g) (m : Mach) : (onEng g m).cpu = m.cpu := rfl
@[simp] theorem onEng_sig (g) (m : Mach) : (onEng g m).sig = m.sig := rfl
@[simp] theorem onEng_lge (g) (m : Mach) : (onEng g m).lge = m.lge := rfl
@[simp] theorem onEng_eng (g) (m : Mach) : (onEng g m).eng = g m.eng := rfl
@[simp] theorem onEng_umb (g) (m : Mach) : (onEng g m).umb = m.umb := rfl
@[simp] theorem onEng_mem (g) (m : Mach) : (onEng g m).mem = m.mem := rfl
@[simp] theorem onEng_free (g) (m : Mach) : (onEng g m).free = m.free := rfl
@[simp] theorem onEng_quiet (g) (m : Mach) : (onEng g m).quiet = m.quiet := rfl

-- onUmb

@[simp] theorem onUmb_dom (g) (m : Mach) : (onUmb g m).dom = m.dom := rfl
@[simp] theorem onUmb_ident (g) (m : Mach) : (onUmb g m).ident = m.ident := rfl
@[simp] theorem onUmb_time (g) (m : Mach) : (onUmb g m).time = m.time := rfl
@[simp] theorem onUmb_evr (g) (m : Mach) : (onUmb g m).evr = m.evr := rfl
@[simp] theorem onUmb_mbx (g) (m : Mach) : (onUmb g m).mbx = m.mbx := rfl
@[simp] theorem onUmb_sec (g) (m : Mach) : (onUmb g m).sec = m.sec := rfl
@[simp] theorem onUmb_chn (g) (m : Mach) : (onUmb g m).chn = m.chn := rfl
@[simp] theorem onUmb_twn (g) (m : Mach) : (onUmb g m).twn = m.twn := rfl
@[simp] theorem onUmb_net (g) (m : Mach) : (onUmb g m).net = m.net := rfl
@[simp] theorem onUmb_svi (g) (m : Mach) : (onUmb g m).svi = m.svi := rfl
@[simp] theorem onUmb_flt (g) (m : Mach) : (onUmb g m).flt = m.flt := rfl
@[simp] theorem onUmb_cpu (g) (m : Mach) : (onUmb g m).cpu = m.cpu := rfl
@[simp] theorem onUmb_sig (g) (m : Mach) : (onUmb g m).sig = m.sig := rfl
@[simp] theorem onUmb_lge (g) (m : Mach) : (onUmb g m).lge = m.lge := rfl
@[simp] theorem onUmb_eng (g) (m : Mach) : (onUmb g m).eng = m.eng := rfl
@[simp] theorem onUmb_umb (g) (m : Mach) : (onUmb g m).umb = g m.umb := rfl
@[simp] theorem onUmb_mem (g) (m : Mach) : (onUmb g m).mem = m.mem := rfl
@[simp] theorem onUmb_free (g) (m : Mach) : (onUmb g m).free = m.free := rfl
@[simp] theorem onUmb_quiet (g) (m : Mach) : (onUmb g m).quiet = m.quiet := rfl

-- onMem

@[simp] theorem onMem_dom (g) (m : Mach) : (onMem g m).dom = m.dom := rfl
@[simp] theorem onMem_ident (g) (m : Mach) : (onMem g m).ident = m.ident := rfl
@[simp] theorem onMem_time (g) (m : Mach) : (onMem g m).time = m.time := rfl
@[simp] theorem onMem_evr (g) (m : Mach) : (onMem g m).evr = m.evr := rfl
@[simp] theorem onMem_mbx (g) (m : Mach) : (onMem g m).mbx = m.mbx := rfl
@[simp] theorem onMem_sec (g) (m : Mach) : (onMem g m).sec = m.sec := rfl
@[simp] theorem onMem_chn (g) (m : Mach) : (onMem g m).chn = m.chn := rfl
@[simp] theorem onMem_twn (g) (m : Mach) : (onMem g m).twn = m.twn := rfl
@[simp] theorem onMem_net (g) (m : Mach) : (onMem g m).net = m.net := rfl
@[simp] theorem onMem_svi (g) (m : Mach) : (onMem g m).svi = m.svi := rfl
@[simp] theorem onMem_flt (g) (m : Mach) : (onMem g m).flt = m.flt := rfl
@[simp] theorem onMem_cpu (g) (m : Mach) : (onMem g m).cpu = m.cpu := rfl
@[simp] theorem onMem_sig (g) (m : Mach) : (onMem g m).sig = m.sig := rfl
@[simp] theorem onMem_lge (g) (m : Mach) : (onMem g m).lge = m.lge := rfl
@[simp] theorem onMem_eng (g) (m : Mach) : (onMem g m).eng = m.eng := rfl
@[simp] theorem onMem_umb (g) (m : Mach) : (onMem g m).umb = m.umb := rfl
@[simp] theorem onMem_mem (g) (m : Mach) : (onMem g m).mem = g m.mem := rfl
@[simp] theorem onMem_free (g) (m : Mach) : (onMem g m).free = m.free := rfl
@[simp] theorem onMem_quiet (g) (m : Mach) : (onMem g m).quiet = m.quiet := rfl

-- Events and the queue

@[simp] theorem raise_dom (c t : Nat) (p : Bytes) (m : Mach) : (raise c t p m).dom = m.dom := rfl
@[simp] theorem raise_ident (c t : Nat) (p : Bytes) (m : Mach) : (raise c t p m).ident = m.ident := rfl
@[simp] theorem raise_time (c t : Nat) (p : Bytes) (m : Mach) : (raise c t p m).time = m.time := rfl
@[simp] theorem raise_mbx (c t : Nat) (p : Bytes) (m : Mach) : (raise c t p m).mbx = m.mbx := rfl
@[simp] theorem raise_sec (c t : Nat) (p : Bytes) (m : Mach) : (raise c t p m).sec = m.sec := rfl
@[simp] theorem raise_chn (c t : Nat) (p : Bytes) (m : Mach) : (raise c t p m).chn = m.chn := rfl
@[simp] theorem raise_twn (c t : Nat) (p : Bytes) (m : Mach) : (raise c t p m).twn = m.twn := rfl
@[simp] theorem raise_net (c t : Nat) (p : Bytes) (m : Mach) : (raise c t p m).net = m.net := rfl
@[simp] theorem raise_svi (c t : Nat) (p : Bytes) (m : Mach) : (raise c t p m).svi = m.svi := rfl
@[simp] theorem raise_flt (c t : Nat) (p : Bytes) (m : Mach) : (raise c t p m).flt = m.flt := rfl
@[simp] theorem raise_cpu (c t : Nat) (p : Bytes) (m : Mach) : (raise c t p m).cpu = m.cpu := rfl
@[simp] theorem raise_sig (c t : Nat) (p : Bytes) (m : Mach) : (raise c t p m).sig = m.sig := rfl
@[simp] theorem raise_lge (c t : Nat) (p : Bytes) (m : Mach) : (raise c t p m).lge = m.lge := rfl
@[simp] theorem raise_eng (c t : Nat) (p : Bytes) (m : Mach) : (raise c t p m).eng = m.eng := rfl
@[simp] theorem raise_umb (c t : Nat) (p : Bytes) (m : Mach) : (raise c t p m).umb = m.umb := rfl
@[simp] theorem raise_mem (c t : Nat) (p : Bytes) (m : Mach) : (raise c t p m).mem = m.mem := rfl
@[simp] theorem raise_free (c t : Nat) (p : Bytes) (m : Mach) : (raise c t p m).free = m.free := rfl
@[simp] theorem raise_quiet (c t : Nat) (p : Bytes) (m : Mach) : (raise c t p m).quiet = m.quiet := rfl

/-- An event raised adds its record to those on their way. -/
@[simp] theorem raise_evr (c t : Nat) (p : Bytes) (m : Mach) : (raise c t p m).evr = { m.evr with arrivals := m.evr.arrivals ++
    [{ code := c, tag := t, time := eventTime m, tq := timeQuality m.time, payload := p.take 32 }] } := rfl

/-- A meaning changes the module and not the queue. -/
theorem runOn_next (s : State) (f : Mach → Mach) : runOn s f = .next { s with m := f s.m } := rfl

@[simp] theorem when_true (f : Mach → Mach) (m : Mach) : when true f m = f m := rfl
@[simp] theorem when_false (f : Mach → Mach) (m : Mach) : when false f m = m := rfl

@[simp] theorem forEach_nil {α : Type} (f : α → Mach → Mach) (m : Mach) : forEach [] f m = m := rfl
@[simp] theorem forEach_cons {α : Type} (a : α) (l : List α) (f : α → Mach → Mach) (m : Mach) :
    forEach (a :: l) f m = forEach l f (f a m) := rfl
theorem forEach_append {α : Type} (l k : List α) (f : α → Mach → Mach) (m : Mach) :
    forEach (l ++ k) f m = forEach k f (forEach l f m) := by
  simp [forEach, List.foldl_append]

end Sys2Proof.Machine
end

