-- ==== Sys2Proof/Laws/Ops.lean ====
section
/-! SUPPORT. What the shared operations do, said once: events, frames sent, answers delivered, acceptance and refusal of a message. -/
namespace Sys2Proof.Machine
open Sys2Proof

-- Frames of the state

theorem Only.refl (l : List Part) (a : Mach) : Only l a a := by
  intro p _; cases p <;> first | rfl | exact fun _ => rfl

theorem Only.mono {l k : List Part} {a b : Mach} (h : Only l a b) (hs : ∀ p, p ∈ l → p ∈ k) : Only k a b :=
  fun p hp => h p fun hl => hp (hs p hl)

theorem Part.Kept.trans {a b c : Mach} {p : Part} (h : p.Kept a b) (k : p.Kept b c) : p.Kept a c := by
  cases p <;> first | exact Eq.trans k h | exact fun x => (k x).trans (h x)

theorem Only.trans {l k : List Part} {a b c : Mach} (h : Only l a b) (j : Only k b c) : Only (l ++ k) a c := fun p hp =>
  Part.Kept.trans (h p fun x => hp (List.mem_append_left _ x)) (j p fun x => hp (List.mem_append_right _ x))

/-- What a command makes of the module is what its meaning does to it, in whatever words. -/
theorem Makes.of {c : Instr} {s : State} {a b : Mach} (h : Makes c s a) (h2 : a = b) : Makes c s b := h2 ▸ h

-- Events

/-- An event raised is on its way, and nothing else has changed. -/
theorem raise_raises (c t : Nat) (p : Bytes) (m : Mach) : Raises [(c, t, p)] m (raise c t p m) := rfl

theorem raise_only (c t : Nat) (p : Bytes) (m : Mach) : Only [.evr] m (raise c t p m) := by
  intro q hq; cases q <;> first | exact absurd (List.mem_singleton.2 rfl) hq | rfl | exact fun _ => rfl

-- Frames sent

theorem forEach_sendInner {α : Type} (l : List α) (f : α → Mach → Stored) (m : Mach)
    (hf : ∀ a n, f a { m with net := n } = f a m) :
    forEach l (fun a x => sendInner (f a x) x) m = { m with net := { m.net with inner := m.net.inner ++ l.map fun a => f a m } } := by
  induction l generalizing m with
  | nil => simp
  | cons a r ih =>
    rw [forEach_cons, ih]
    · simp only [sendInner, onNet, List.map_cons]
      congr 2
      simp only [List.append_assoc, List.singleton_append]
      congr 2
      exact List.map_congr_left fun b _ => hf b _
    · exact fun b n => (hf b _).trans (hf b _).symm

theorem sendTwin_eq (cls : Nat) (launch : BitVec 64) (p : Bytes) (m : Mach) :
    sendTwin cls launch p m =
      sendInner (innerFrame (unitFrame twinMac m 8 p) cls 8 [(8, cls)] false none launch (now m)) m := rfl

/-- The relay frames of one segment are given to the switch, one after another (R449). -/
theorem sendRelay_up (rseq : BitVec 32) (msg : Bytes) (m : Mach) :
    sendRelay false rseq 0 true msg m = { m with net := { m.net with inner := m.net.inner ++ relayFrames m rseq msg } } := by
  unfold sendRelay
  exact forEach_sendInner _ _ m fun _ _ => rfl

theorem relayFrames_net (m : Mach) (n : Network) (rseq : BitVec 32) (msg : Bytes) :
    relayFrames { m with net := n } rseq msg = relayFrames m rseq msg := rfl

theorem forEach_sendRelay (l : List Bytes) (rseq : BitVec 32) (m : Mach) :
    forEach l (fun b => sendRelay false rseq 0 true b) m =
      { m with net := { m.net with inner := m.net.inner ++ l.flatMap (relayFrames m rseq) } } := by
  induction l generalizing m with
  | nil => simp
  | cons a r ih =>
    rw [forEach_cons, ih, sendRelay_up]
    simp only [List.flatMap_cons, List.append_assoc]
    congr 3

theorem forEach_map {α β : Type} (l : List α) (g : α → β) (f : β → Mach → Mach) (m : Mach) :
    forEach (l.map g) f m = forEach l (fun a => f (g a)) m := by
  simp [forEach, List.foldl_map]

theorem sendSegments_eq (r : Response) (send : Bytes → Mach → Mach) (m : Mach) :
    sendSegments r send m = forEach (segmentsOf r) send m := by
  simp [sendSegments, segmentsOf, forEach_map]

-- Answers

theorem onSess_rest (b : Box) (f : Session → Session) (m : Mach) :
    onSess b f m = { m with mbx := { m.mbx with sess := (onSess b f m).mbx.sess } } := by
  unfold onSess; split <;> rfl

theorem onSess_same (b : Box) (f : Session → Session) (m : Mach) :
    tget (onSess b f m).mbx.sess (boxIx b) = (tget m.mbx.sess (boxIx b)).map f := by
  unfold onSess; split
  · rename_i h; simp [h]
  · rename_i s h; simp [h]

theorem onSess_other (b : Box) (f : Session → Session) (m : Mach) (i : Nat) (hi : i ≠ boxIx b) :
    tget (onSess b f m).mbx.sess i = tget m.mbx.sess i := by
  unfold onSess; split
  · rfl
  · simp [tget_tset_other _ _ _ _ hi]

theorem answerOf_eq (code : Nat) (h : Hdr) (role : BitVec 32) (apply status : Nat) (p : Bytes) (m : Mach) :
    placed h (mkResp code h role apply status p) m = answerOf code h role apply status p m := by
  unfold placed answerOf mkResp
  by_cases h1 : code = 0x0602
  · by_cases h2 : (boxIx h.box, h.seq) ∈ m.mbx.places <;> simp [h1, h2]
  · simp [h1]

/-- A request answered: the answer is kept, and has gone the way its mailbox takes it; nothing else changes (R461). -/
theorem respond_delivered (code : Nat) (h : Hdr) (role : BitVec 32) (apply status : Nat) (p : Bytes) (m : Mach)
    (hm : memWf m.mem = true) :
    Delivered h (answerOf code h role apply status p m) m (respond code h role apply status p m) := by
  unfold respond deliver
  dsimp only
  rw [answerOf_eq]
  generalize answerOf code h role apply status p m = r
  have hs : (fun s : Session => { s with
      answered := some { code := r.code, seq := r.seq, segment := h.segment.toNat, resp := r }
      more := if (decide (1 < segCount r) && boxTag h.box != 0) = true then some 0 else none
      ref := if (boxTag h.box != 0) = true then m.time.ref else s.ref }) = sessionAfter h r m := by
    funext s; simp [sessionAfter]
  simp only [hs]
  have key : ∀ n : Mach, n = onSess h.box (sessionAfter h r m) m → n = { m with mbx := { m.mbx with sess := n.mbx.sess } } ∧
      tget n.mbx.sess (boxIx h.box) = (tget m.mbx.sess (boxIx h.box)).map (sessionAfter h r m) ∧
      ∀ i, i ≠ boxIx h.box → tget n.mbx.sess i = tget m.mbx.sess i := by
    rintro n rfl
    exact ⟨onSess_rest _ _ _, onSess_same _ _ _, onSess_other _ _ _⟩
  generalize hn : onSess h.box (sessionAfter h r m) m = n
  obtain ⟨h1, h2, h3⟩ := key n hn.symm
  clear hn hs key
  generalize n.mbx.sess = x at *
  subst h1
  cases hb : h.box with
  | m0 i => exact ⟨rfl, by simpa [hb] using h2, by simpa [hb] using h3, by rw [hb]; exact ⟨by intro q hq; cases q <;> first | exact absurd (by decide) hq | rfl | exact fun _ => rfl, rfl⟩⟩
  | m3 => exact ⟨rfl, by simpa [hb] using h2, by simpa [hb] using h3, by rw [hb]; exact ⟨by intro q hq; cases q <;> first | exact absurd (by decide) hq | rfl | exact fun _ => rfl, rfl⟩⟩
  | m2 =>
    have e : sendSegments r (fun b => sendTwin 2 0 (fields [(1, 0x20), (1, 1), (6, 0)] ++ b))
        { m with mbx := { m.mbx with sess := x } } =
        { m with mbx := { m.mbx with sess := x }, net := { m.net with inner := m.net.inner ++ (segmentsOf r).map (twinFrame m) } } := by
      rw [sendSegments_eq]
      exact forEach_sendInner (segmentsOf r)
        (fun b k => innerFrame (unitFrame twinMac k 8 (fields [(1, 0x20), (1, 1), (6, 0)] ++ b)) 2 8 [(8, 2)] false none 0 (now k))
        _ fun _ _ => rfl
    dsimp only
    rw [e]
    refine ⟨rfl, by simpa [hb] using h2, by simpa [hb] using h3, ?_⟩
    rw [hb]
    exact ⟨by intro q hq; cases q <;> first | exact absurd (by decide) hq | rfl | exact fun _ => rfl, rfl, rfl⟩
  | m1 =>
    dsimp only
    rw [sendSegments_eq, forEach_sendRelay]
    refine ⟨rfl, by simpa [hb] using h2, by simpa [hb] using h3, ?_⟩
    rw [hb]
    exact ⟨by intro q hq; cases q <;> first | exact absurd (by decide) hq | rfl | exact fun _ => rfl, rfl, rfl, rfl⟩
  | slice t =>
    dsimp only
    refine ⟨rfl, by simpa [onSliceBox, hb] using h2, by simpa [onSliceBox, hb] using h3, ?_⟩
    rw [hb]
    refine ⟨by intro q hq; cases q <;> first | exact absurd (by decide) hq | rfl, ?_, ?_, ?_, ?_⟩
    · intro i hi
      simp [onSliceBox, tmod, tget_tset_other _ _ _ _ hi]
    · simp [onSliceBox, tmod, boxTag]
    · intro i hi
      simpa [onSliceBox] using memRead_memPut_inside m.mem (boxKey t.val 0x8000) i (segBytes r 0) hi hm
    · intro y hy
      simpa [onSliceBox] using memRead_memPut_outside m.mem (boxKey t.val 0x8000) y (segBytes r 0) hy hm

-- Acceptance and refusal (R471)

/-- An accepted message is carried out. -/
theorem judged_accepted {c : Cmd} {h : Hdr} {p : Bytes} {m : Mach} (ha : Accepts c m h p) (go : Hdr → Mach → Mach) :
    judged c h p go m = go h m := by
  unfold judged
  rw [ha.1, ha.2]
  rfl

/-- A refused message is answered with the status of the first check that it fails. -/
theorem judged_refused {c : Cmd} {h : Hdr} {p : Bytes} {m : Mach} (ho : boxOpen m h.box = true) (h0 : judge c m h p ≠ 0)
    (hr : judge c m h p ≠ relayMark) (go : Hdr → Mach → Mach) :
    judged c h p go m = refuse c h (judge c m h p) m := by
  unfold judged
  simp only [ho, h0, hr, Bool.not_true, Bool.false_eq_true, if_false, if_true, ne_eq, not_false_eq_true]

/-- A refusal that R108 does not want recorded is its answer alone. -/
theorem refuse_silent {c : Cmd} {status : Nat} (h : Hdr) (m : Mach) (hs : settleRefusal c.code status = false) :
    refuse c h status m = respond c.code h (roleOf m h) h.apply status [] m := by
  unfold refuse
  simp [hs]

/-- A message whose mailbox is not open goes nowhere (R459). -/
theorem judged_closed {c : Cmd} {h : Hdr} {p : Bytes} {m : Mach} (ho : boxOpen m h.box = false) (go : Hdr → Mach → Mach) :
    judged c h p go m = m := by
  unfold judged
  rw [ho]
  rfl

theorem raiseAccepted_eq (code : Nat) (h : Hdr) (role : BitVec 32) (apply st : Nat) (m : Mach) :
    raiseAccepted code h role apply st m = raise 0x0101 (boxTag h.box) (cmdFields code h role apply st m) m := by
  unfold raiseAccepted cmdFields
  simp [fields]

/-- The module with a change put last in the schedule and event 0x0101 raised. -/
def withEntry (code : Nat) (h : Hdr) (p resp : Bytes) (n : Tick) (m : Mach) : Mach :=
  onMbx (fun x => { x with scheduled := x.scheduled ++ [entryOf code h p resp n m], accepted := x.accepted + 1 })
    (raise 0x0101 (boxTag h.box) (cmdFields code h (roleOf m h) n (if h.apply = 0 then 0 else 1) m) m)

theorem enterChange_eq (code : Nat) (h : Hdr) (p resp : Bytes) (n : Tick) (m : Mach) :
    enterChange code h (roleOf m h) p resp n m =
      if h.apply = 0 then
        (match h.box with
          | .slice t => onSliceBox t.val (fun b => { b with state := 1, seq := h.seq }) (withEntry code h p resp n m)
          | .m0 _ => withEntry code h p resp n m
          | .m1 => withEntry code h p resp n m
          | .m2 => withEntry code h p resp n m
          | .m3 => withEntry code h p resp n m)
      else respond code h (roleOf m h) n 1 resp (withEntry code h p resp n m) := by
  unfold enterChange withEntry entryOf
  simp only [raiseAccepted_eq]
  by_cases h0 : h.apply = 0
  · simp only [h0, beq_self_eq_true, if_true, raise_mbx]
    all_goals (cases h.box <;> rfl)
  · simp only [h0, if_false, beq_eq_false_iff_ne.2 h0, raise_mbx, Bool.false_eq_true]

/-- A change accepted is the last of the schedule (R25, R26). -/
theorem enterChange_scheduled (code : Nat) (h : Hdr) (p resp : Bytes) (n : Tick) (m : Mach) (hm : memWf m.mem = true) :
    Scheduled code h p resp n m (enterChange code h (roleOf m h) p resp n m) := by
  refine ⟨withEntry code h p resp n m, rfl, rfl, fun h0 => ?_, fun h0 => ?_⟩
  · rw [enterChange_eq, if_neg h0]
    exact respond_delivered _ _ _ _ _ _ _ hm
  · rw [enterChange_eq, if_pos h0]
    cases hb : h.box with
    | slice t =>
      refine ⟨rfl, fun i hi => ?_, ?_⟩
      · simp [onSliceBox, withEntry, tmod, tget_tset_other _ _ _ _ hi]
      · simp [onSliceBox, withEntry, tmod]
    | m0 i => exact ⟨rfl, rfl⟩
    | m1 => exact ⟨rfl, rfl⟩
    | m2 => exact ⟨rfl, rfl⟩
    | m3 => exact ⟨rfl, rfl⟩

end Sys2Proof.Machine
end

