-- ==== Sys2Proof/Machine/Pins.lean ====
section
/-! DEFINITION. The output pins and the indicators: what each shows in a state (chapters 20 and 21). -/
namespace Sys2Proof.Machine
open Sys2Proof

/-- What an output pin shows: a level, or nothing where it is high-impedance. -/
inductive Pin where
  | low | high | open_
  deriving DecidableEq, Repr

/-- A driven level. -/
def levelOf (b : Bool) : Pin := if b then .high else .low

/-- The sideband outputs are driven: VIO is present and the umber domain runs, both for at least 1 ms (R515, R516). -/
def sidebandDriven (m : Mach) : Bool := m.dom.vio && umberRuns m && m.dom.driveRef + msCycles 1 ≤ m.time.ref

/-- A push-pull sideband output, and an open-drain one, which is driven low or released. -/
def pushPull (m : Mach) (v : Bool) : Pin := if sidebandDriven m then levelOf v else .open_
def openDrain (m : Mach) (sink : Bool) : Pin := if sidebandDriven m && sink then .low else .open_

/-- TRIP_OUT: high while active (R519). -/
def tripPin (m : Mach) (o : Fin 4) : Pin := pushPull m ((tget m.umb.trips o.val).any (·.active))

/-- PULSE_OUT: active high, or low as configured (R355, R519). -/
def pulsePin (m : Mach) (o : Fin 16) : Pin := pushPull m ((getOut m o.val).active != (getOut m o.val).cfg.activeLow)

/-- ENUM_OUT: high while active (R519). -/
def enumOutPin (m : Mach) : Pin := pushPull m m.chn.enumOut

/-- FORCE_IND sinks while the force table holds an entry (R336). -/
def forcePin (m : Mach) : Pin := openDrain m (m.lge.forces != [])

/-- PWR_GOOD is driven low while inactive and released while active (R504). -/
def pwrGoodPin (m : Mach) : Pin := openDrain m (!m.dom.pwrGood)

/-- M3_TXD idles high, and high it is while the control domain does not run; UMB_TXD likewise; both are high-impedance while no
debug host is attached (R526). -/
def serialPin (m : Mach) : Pin := if m.dom.dbg then .high else .open_

/-- How an indicator is lit. -/
inductive Lamp where
  | off | steady | flashing | fast
  deriving DecidableEq, Repr

/-- RUN: flashing while a domain is starting, steady when all four run (R510). -/
def runLamp (m : Mach) : Lamp :=
  let d := m.dom
  let all := [d.umber, d.fabric, d.control, d.compute]
  if all.any (fun x => x == .starting || x == .updating) then .flashing else if all.all (· == .running) then .steady else .off

/-- TWIN: green or amber, and how it is lit (R525). -/
def twinLamp (m : Mach) : Lamp × Bool :=
  let w := m.twn
  let amber := roleNow m = 0 || (roleNow m = 1 && !cleanNow m)
  if !w.cfg.on || w.role == .solo then (.off, false)
  else if w.chordLost || w.arcLost || w.bothLost then (.fast, amber)
  else if w.role == .active then (.steady, false)
  else if w.role == .starting then (.flashing, true)
  else if cleanNow m then (.flashing, false) else (.steady, true)

/-- FORCE, UMBER and FAULT (R336, R510, R525). -/
def forceLamp (m : Mach) : Bool := m.lge.forces != []
def umberLamp (m : Mach) : Bool := anyPrimary m
def faultLamp (m : Mach) : Bool :=
  m.dom.missed != [] || m.dom.retried != [] || m.dom.fault || m.dom.warning || (controlRuns m && m.sec.unconfigured)

end Sys2Proof.Machine
end

