-- ==== Sys2Proof/WellFormed.lean ====
section
/-! DEFINITION. Well-formedness of a command: what its operands can be on the wires and registers they come from. -/
namespace Sys2Proof

/-- A way in: a slice tag is 1 to 64 (R147). -/
def Box.wf : Box → Bool
  | .slice t => t.val != 0
  | .m0 _ => true
  | .m1 => true
  | .m2 => true
  | .m3 => true

/-- A header's numbers fit their fields (R460). -/
def Hdr.wf (h : Hdr) : Bool := h.box.wf && decide (h.length < 2 ^ 32) && decide (h.apply < 2 ^ 64)

/-- A whole message: its header, and a payload no longer than LENGTH can say (R460, R462). -/
def msgWf (h : Hdr) (p : Bytes) : Bool := h.wf && decide (p.length < 2 ^ 32)

/-- A frame is at least a header and a check sequence long, and no longer than a length field can say. -/
def Frame.wf (f : Frame) : Bool := decide (18 ≤ f.len) && decide (f.len < 2 ^ 16) && decide (f.etype < 2 ^ 16)

/-- A management way in. -/
def Box.mgmt : Box → Bool
  | .slice _ => false
  | .m0 _ => true
  | .m1 => true
  | .m2 => true
  | .m3 => true

/-- The commands the block can be given. Operands not named here are limited by their types. -/
def WellFormed : Instr → Bool
  | .timeStatus h p | .timeRate h p | .timeStep h p | .timePtpSet h p | .sviSubSet h p | .sviChanSet h p
  | .sviSubStatus h p | .rscGroupSet h p | .rscBankLoad h p | .rscSwap h p | .rscGroupStatus h p | .estGroupSet h p
  | .estFreeze h p | .estRelease h p | .estGroupStatus h p | .estFrameStatus h p | .slcHueSet h p | .slcAdmit h p
  | .slcStart h p | .slcStop h p | .slcReset h p | .slcRemove h p | .slcResourceSetHue h p
  | .slcResourceSetRegionSize h p | .slcResourceSetRingAssign h p | .slcResourceSetRingRelease h p
  | .slcResourceSetSwitchShare h p | .slcResourceSetReady h p | .slcSubSet h p | .slcRightsGrant h p
  | .slcRightsRevoke h p | .slcMemRelease h p | .slcStatus h p | .dspLatLoad h p | .dspLatApply h p
  | .dspLatRead h p | .dspHandlerEnable h p | .dspHandlerDisable h p | .dspStatus h p | .sigRangeSet h p
  | .sigPubSet h p | .sigSubSet h p | .sigCurveSet h p | .sigPointRead h p | .sigPubStatus h p | .sigSubStatus h p
  | .swcBufSet h p | .swcQueueSet h p | .swcPortSet h p | .swcStatus h p | .swcQueueStatus h p | .macPortSet h p
  | .macRuleSet h p | .macPortStatus h p | .macRuleStatus h p | .hdmaRingSet h p | .hdmaRingsetSet h p
  | .hdmaRingStatus h p | .lgeProgLoad h p | .lgeProgExchange h p | .lgeProgSet h p | .lgeRestartWarm h p
  | .lgeRestartCold h p | .lgeForceSet h p | .lgeForceRemove h p | .lgeForceList h p | .lgeStatus h p
  | .engPointSet h p | .engPulseOutSet h p | .engPulseInSet h p | .engPresetRegister h p | .engPresetPulseInput h p
  | .engRead h p | .engIoRead h p | .umbStreamSet h p | .umbElemSet h p | .umbTripSet h p | .umbPubSet h p
  | .umbConfigSet h p | .umbStatus h p | .evrRead h p | .evrCodeSet h p | .evrClear h p | .evrInfo h p
  | .twnPairSet h p | .twnQuotaSet h p | .twnSwitch h p | .twnStatus h p | .chnEnumerate h p | .chnPlace h p
  | .chnStatus h p | .chnCap h p | .sysIdent h p | .sysStatus h p | .sysHoldoffSet h p | .sysRestartCold h p
  | .sysRestartModule h p | .sysRestartCompute h p | .sysRestartSleep h p | .sysRestartSleepFabric h p
  | .sysRoleGrant h p | .sysCapRead h p | .cfgStageOpen h p | .cfgStageWrite h p | .cfgStageDiscard h p
  | .cfgCommit h p | .cfgImageStore h p | .cfgImageDelete h p | .cfgExport h p | .cfgStatus h p
  | .secOwnerSlotProgram h p | .secOwnerSlotRevoke h p | .secKeyLoad h p | .secTlsAnchorSet h p
  | .secTlsAnchorClear h p | .secTlsModuleCert h p | .secTlsReadPublicKey h p | .secFwInstall h p | .secAttest h p
  | .secStatus h p => msgWf h p
  | .spaBurstRead _ c => c.toNat < 512
  | .spaBurstWriteAuto _ c => c.toNat < 512
  | .spaBurstWriteExplicit _ c => c.toNat < 512
  | .i2cAccess _ off n => decide (off.toNat + n ≤ 256)
  | .offsetAddWrite v => decide (-2 ^ 63 ≤ v) && decide (v < 2 ^ 63)
  | .delayRelease t => t.val != 0
  | .frameReceive _ f => f.frame.wf
  | .cutThrough _ f => f.frame.wf
  | .pfcReceive _ _ ts => ts.length == 8
  | .admission (.ring r) => r.val < 256
  | .engineItemStallRelease t => t.val != 0
  | .sliceResetComplete t => t.val != 0
  | .hueMigrationSwitch t => t.val != 0
  | .memoryError bank _ => bank < 32
  | .mailboxNotify t => t.val != 0
  | .transceiverInsert _ level => level < 4
  | .livenessReceive p f => p.val < 8 && f.wf
  | .sessionOpen b _ => b.mgmt
  | .sessionClose b _ => b.mgmt
  | .sessionIdleTimeout b => b.mgmt
  | .mailboxSegment h _ p => h.wf && h.box.mgmt && decide (p.length ≤ 16352)
  | .segmentTimeout b => b.wf
  | .responseTimeout b => b.wf
  | _ => true

end Sys2Proof
end

