-- ==== Sys2Proof/Tests/Slice0.lean ====
section
/-! SUPPORT. The model's own tests: the smoke test of well-formedness, a witness of the hypotheses of each statement, and a few
single steps with results worked out from the spec. -/
namespace Sys2Proof.Tests
set_option Elab.async false
open Sys2Proof Sys2Proof.Machine

-- A small module that runs

/-- A module whose four domains run, configured, on a grid at tick 100, with nothing placed on it. -/
def up : Mach :=
  { machReset with
    dom := { domReset with
      umber := .running
      fabric := .running
      control := .running
      compute := .running
      ready := true
      pwrGood := true }
    time := { timeReset with
      loaded := true
      gridOn := true
      tick := 100
      clock := clockAt (tickStart timeReset.grid 100) }
    sec := { secReset with unconfigured := false }
    evr := { evrReset with codes := [] } }

/-- A state with nothing waiting. -/
def st (m : Mach) : State := ⟨m, []⟩

/-- A request header for this module itself. -/
def hd (b : Box) (apply n : Nat) : Hdr :=
  { box := b, flags := 0, seq := 7, target := 0xFE, segment := 0, length := n, apply := apply, status := 0, role := 0 }

/-- A session with every right, and one without any message in hand. -/
def sess : Session := sessionInit 1 0x3F 0 0

/-- The handler, the region and the slice the tests use. -/
def hdl : Handler := { entry := 0x10000, prio := 1, frameReady := false, cost := 2, enabled := true }
def reg : Region := { vbase := 0x10000, size := 0x10000, kind := 1, access := 3, mirrored := false, coff := 0, clen := 0, released := [],
                       pages := [(0, 1)] }
def slice5 : Slice :=
  { state := .running, tenant := 1, image := 81, imageDigest := [], hue := 0, flim := 3, nmax := 16, readyMin := 4, minSlots := 0,
    handlers := [hdl, hdl], regions := [reg, { reg with vbase := 0x40000, kind := 4 }], rsv := 0, alpha := 0, subs := [3], subsDue := [],
    reads := [], filled := true, toRun := false, resumed := true, arriving := none, asked := none, reset := none, migration := none,
    faults := [], resetAt := none, ctrs := [], suspended := 0, slwTick := 0, framePtr := 0, subver := 0, withheld := none, ran := [], freed := [],
    skipped := false, frameCtrs := [], nextHandle := 1, dspCtrs := [] }

/-- A range of points of one type and owner. -/
def range (first count ty len kind owner : Nat) : Range :=
  { first := first, count := count, ty := ty, len := len, ownerKind := kind, owner := owner, mirror := false, initV := 0, initQ := 0,
    deadband := 0, bands := [], spans := [(first, count, { value := 0, quality := 0, tfrac := 0, secLo := 0 })] }

/-- A publisher block with one member. -/
def pubE : PubEntry :=
  { flags := 1, appid := 1, dmac := 0x010CCD010005, vlan := 0, ports := 1, curve := 0, ownerKind := 0, owner := 0, key := 0, confRev := 1,
    ref := [65], datSet := [65], goId := [], members := [(1000, 0)] }
/-- A subscriber block with one member. -/
def gsubE : GSubEntry :=
  { flags := 1, appid := 2, dmac := 0x010CCD010006, vlan := 0, ports := 1, key := 0, confRev := 1, ref := [66], members := [(1100, 0)] }

/-- A stream subscription, its channel and group. -/
def subE : SubEntry :=
  { flags := 1, nchan := 1, appid := 0x4000, dmac := 0x010CCD040001, vlan := 0, rate := 4800, port := 0, prpPort := 0, nasdu := 1,
    tdelay := 0, polRate := 10000, polBurst := 8, key := 0, chan0 := 0, confRev := 1, svid := [77] }
def sub0 : Sub := { entry := subE, run := runInit, spans := [] }
def chanE : ChanEntry := { scale := 0x3F800000, group := 0, kind := 0 }

/-- A program of one output, and a cycle's worth of it. -/
def progI : Prog :=
  { mode := 0, id := 9, code := [], ins := [], outs := [{ point := 1300, src := 0, kind := 0, bit := 0, ret := false }], nrmark := 0,
    marks := [], timers := [], edges := [], counts := [], insts := [] }
def prog0 : Program :=
  { prog := progI, enabled := true, lp := 0, owner := 5, c := 1, units := 1, change := none, beta := 0, warm := false, st := progInit progI,
    cycle := none, next := none, k2 := false, k3 := false, k4 := false, committed := none, pointsDue := none, exchange := [],
    maxSteps := 0, ctrs := [] }

/-- A lattice that gives core 0's slots 20 to 29 to slice 5. -/
def lat5 : Lattice := (List.range 10).foldl (fun l i => latSet l 0 0 (20 + i) 5) latticeReset

/-- The module as the tests use it: sessions on every way in; slice 5 running, with its mailbox open; a hue, ranges, publisher,
subscriber, stream, group, program and rings. -/
def world : Mach :=
  { up with
    mbx := { up.mbx with
      sess := [(0, sess), (4, sess), (5, sess), (6, sess), (69, sessionInit 0 0 0 0)]
      boxes := [(5, boxInit)]
      nextNum := 2 }
    cpu := { up.cpu with
      hues := [(0, { banks := 3, ways := 7, bw := 32, tenants := 2, waiver := none })]
      slices := [(5, slice5)]
      lattice := lat5
      staged := lat5
      loadedPages := [0] }
    sig := { up.sig with
      ranges := [range 1000 4 0 0 0 0, range 1100 4 0 0 3 0, range 1200 4 1 0 1 5, range 1300 4 0 0 2 0, range 1400 1 0 0 3 1]
      pubs := [(0, pubInit pubE)]
      gsubs := [(0, gsubInit gsubE)] }
    svi := { up.svi with
      subs := [(0, sub0)]
      chans := [(0, chanE)] }
    flt := { up.flt with groups := [(0, { groupInit with enabled := true, inRate := 4800 })] }
    lge := { up.lge with progs := [(0, prog0)] }
    net := { up.net with
      rings := [(0, { ringInit with owner := some 0, enabled := true }), (1, { ringInit with owner := some 5 })] } }

/-- Whether a module meets the invariant. -/
def sound (m : Mach) : Bool :=
  memWf m.mem && decide (m.time.clock.ns.toNat < nsPerSec) && m.cpu.cores.length == 32 &&
    m.cpu.cores.all (fun c => !c.fetching || c.run.isNone) && m.net.ports.map Prod.fst == List.range 13 && tabWf m.cpu.delay

theorem inv_of_sound {m : Mach} (h : sound m = true) : StateInv (st m) := by
  simp only [sound, Bool.and_eq_true, decide_eq_true_eq, beq_iff_eq, List.all_eq_true, Bool.or_eq_true, Bool.not_eq_true',
    Option.isNone_iff_eq_none] at h
  obtain ⟨⟨⟨⟨⟨h1, h2⟩, h3⟩, h4⟩, h5⟩, h6⟩ := h
  exact ⟨h1, h2, h3, fun c hc hf => (h4 c hc).resolve_left (by simp [hf]), h5, h6⟩

/-- Whether a message with this payload, from this way in, is accepted by a module that meets the invariant. -/
def takes (c : Cmd) (m : Mach) (b : Box) (p : Bytes) : Bool := sound m && (boxOpen m b && judge c m (hd b 0 p.length) p == 0)

theorem takes_spec {c : Cmd} {m : Mach} {b : Box} {p : Bytes} (h : takes c m b p = true) :
    StateInv (st m) ∧ Accepts c m (hd b 0 p.length) p := by
  simp only [takes, Bool.and_eq_true, beq_iff_eq] at h
  exact ⟨inv_of_sound h.1, h.2.1, h.2.2⟩

theorem world_sound : StateInv (st world) := inv_of_sound (by decide +kernel)

-- Requests that the module accepts

/-- A slice image of one handler and one code region, and a program image of no instruction but its end. -/
def sliceImg : Bytes :=
  fields [(4, 0x53494C53), (2, 1), (1, 1), (1, 0), (2, 1), (2, 1), (4, 0), (8, 81), (4, 1), (2, 0), (2, 2), (4, 128), (4, 144), (88, 0)] ++
    fields [(8, 0x100000), (1, 2), (1, 0), (2, 2), (4, 0)] ++ fields [(8, 0x100000), (8, 0x10000), (1, 0), (1, 5), (10, 0), (4, 0)]
def progImg : Bytes :=
  fields [(4, 0x49424C49), (2, 1), (1, 0), (1, 1), (8, 9), (4, 1), (32, 0), (4, 0), (8, 0), (4, 128), (60, 0)] ++ le 4 0xFF000000

/-- The module with both images stored and their tenant's key endorsed, both banks of the group loaded, and what some commands need. -/
def stocked : Mach :=
  { world with
    sec := { world.sec with
      images := [{ kind := 1, tenant := 1, id := 81, digest := [], pubkey := [1], content := sliceImg },
        { kind := 2, tenant := 1, id := 9, digest := [], pubkey := [1], content := progImg }]
      endorsed := [(1, be 64 0x94da6280b240ea6a2ab2cfdf0fb301fd77153d5b748baf796190856803d977ba5cc356e16eea587f2c74c5480c41fea01b45f55abc9722853f30d2a34e7fcdef)] }
    dom := { world.dom with apex := true }
    chn := { world.chn with addr := some 0 } }
/-- The module with both banks of group 0 loaded, and one with slice 5 stopped. -/
def bank : Bank := { ntaps := 1, ahead := 0, inRate := 4800, tmask := 15, id := 1, coeffs := List.replicate 64 0 }
def banked : Mach :=
  { world with flt := { world.flt with
    groups := [(0, { groupInit with enabled := true, inRate := 4800, bankA := some bank, bankB := some bank })] } }
/-- The module with its ports enabled. -/
def portsOn : Mach :=
  { world with net := { world.net with ports := tmap world.net.ports fun _ x => { x with cfg := { x.cfg with enabled := true } } } }
/-- The module with a channel of KIND voltage. -/
def metered : Mach := { world with svi := { world.svi with chans := [(0, chanE), (1, { chanE with kind := 1 })] } }
def stoppedSlice (m : Mach) : Mach := { m with cpu := { m.cpu with slices := [(5, { slice5 with state := .stopped })] } }

/-- Payloads of requests. -/
def subReq : Bytes :=
  fields [(2, 1), (6, 0), (1, 0), (1, 1), (2, 0x4001)] ++ be 6 0x010CCD040002 ++ fields [(2, 0), (4, 4800), (1, 0), (1, 0xFF), (1, 1), (1, 1),
    (4, 0), (4, 9600), (2, 8), (2, 0), (2, 100), (2, 0), (4, 1), (24, 0), (1, 77), (63, 0)]
def bankReq : Bytes :=
  fields [(1, 0), (1, 1), (6, 0), (4, 0x4B424352), (2, 1), (1, 1), (1, 0), (4, 4800), (1, 15), (3, 0), (8, 1), (4, 256), (4, 0), (8, 0),
    (24, 0), (256, 0)]
def estReq : Bytes := be 32 0x00143c01e80300000000000007000000ffff00000000803fffffffff00000000 ++ le 64 0
def pubReq (first flags appid owner : Nat) : Bytes :=
  le 8 first ++ fields [(1, flags), (1, 1), (2, appid)] ++ be 6 0x010CCD010007 ++
    fields [(2, 0), (1, 1), (1, 0), (1, 0), (1, 0), (2, owner), (2, 0), (4, 1), (1, 1), (1, 1), (1, 1), (37, 0), (64, 65), (64, 66), (64, 67)]
def gsubReq : Bytes :=
  le 8 1 ++ fields [(1, 0), (1, 1), (2, 9)] ++ be 6 0x010CCD010008 ++ fields [(2, 0), (1, 1), (1, 1), (2, 0), (4, 1), (44, 0), (64, 65), (4, 1400)]
def portReqB : Bytes :=
  fields [(1, 0), (1, 3), (1, 0), (1, 0), (2, 1536), (2, 160), (1, 0), (1, 0), (2, 0xFFFF), (4, 8192), (4, 4096), (2, 10), (10, 0)]
def streamReq : Bytes :=
  le 8 0 ++ fields [(1, 0), (1, 1), (2, 0x4001)] ++ be 6 0x010CCD040002 ++
    fields [(2, 0), (4, 4800), (1, 1), (1, 1), (2, 0), (4, 1), (4, 0), (36, 0), (64, 77)]
def admitB : Bytes := fields [(1, 6), (1, 0), (1, 0), (1, 0), (4, 0), (8, 81), (32, 2 ^ 256 - 1), (2, 0), (2, 0), (4, 0)]
def meterReq : Bytes :=
  fields [(8, 0), (1, 8), (1, 0), (1, 0), (1, 0), (2, 1), (4, 0xFFFFFFFF), (2, 0), (4, 0xFFFFFFFF), (2, 0xFFFF), (22, 0), (4, 0),
    (8, 0x3F8000003F800000), (4, 0x3F800000), (8, 0)]
/-- A request on M0 to the module as it stands. -/
def w (p : Bytes) : Mach × Box × Bytes := (world, .m0 0, p)

/-- A module, a way in and a payload for each read, in the order of `readRows`; then likewise for the other tables. -/
def reads : List (Mach × Box × Bytes) := [
  w [], w (le 8 0), w (fields [(4, 1000), (4, 1)]), w (le 8 0), w (le 8 0), w [],
  w (fields [(2, 0), (2, 1), (12, 0)]), (stocked, .m0 0, le 8 0), (stocked, .m0 0, le 8 0), w [], w [],
  w (fields [(4, 0), (4, 1)]), w (le 16 0), w (le 8 0), w (le 8 0)]
def clears : List (Mach × Box × Bytes) := [
  w (fields [(2, 0), (1, 1), (5, 0)]), w (le 8 256), w (le 8 256), w (le 8 (5 + 256)), w (le 8 (5 + 256)),
  w (le 8 (5 + 256)), w (fields [(2, 0), (1, 1), (5, 0)]), w (fields [(2, 0), (1, 1), (5, 0)]), w (le 8 256),
  w (le 8 256), w (fields [(2, 0), (1, 1), (5, 0)]), w (le 8 256), w (le 8 256), w (le 8 1),
  w (le 8 1), w (le 8 1)]
def changes : List (Mach × Box × Bytes) := [
  (portsOn, .m0 0, subReq), w (fields [(2, 0), (2, 1), (4, 0), (4, 0x3F800000), (12, 0)]), (banked, .m0 0, fields [(1, 0), (1, 1), (2, 0), (4, 4800)]),
  w bankReq, (banked, .m0 0, le 8 256), w estReq, w (fields [(3, 0), (1, 0), (2, 10), (2, 0)]),
  w (fields [(3, 0), (1, 1), (2, 0), (2, 0)]), w (be 16 0x0200300030000000c000080000000000),
  (stoppedSlice world, .m0 0, le 8 5), w (le 8 5), w (le 8 5), (stoppedSlice world, .m0 0, le 8 5),
  w (fields [(1, 5), (1, 2), (2, 0), (4, 1), (8, 0x20000)]), w (fields [(1, 5), (1, 3), (2, 0), (4, 2), (8, 0)]),
  w (fields [(1, 5), (1, 4), (2, 0), (4, 1), (8, 0)]), w (fields [(1, 5), (1, 5), (2, 0), (4, 0), (8, 0)]),
  w (fields [(1, 5), (1, 6), (2, 0), (4, 4), (8, 0)]), w (fields [(1, 5), (1, 0), (2, 1), (4, 0), (2, 3)]),
  w (fields [(1, 5), (1, 0), (2, 1), (4, 0), (4, 1000), (4, 4)]), w (fields [(1, 5), (1, 1), (2, 1), (4, 0), (4, 1000), (4, 4)]),
  (world, .slice 5, fields [(8, 0x10000), (8, 0x10000)]), w (fields [(1, 5), (1, 1), (2, 1), (4, 0)]),
  w (fields [(1, 5), (1, 0), (2, 1), (4, 0)]), w (fields [(4, 2000), (4, 2), (24, 0)]),
  w (pubReq 1 0 3 0 ++ le 4 1000), w gsubReq, w (fields [(1, 1), (1, 1), (6, 0), (2, 10)]),
  w (fields ([(4, 8388608), (4, 0)] ++ (List.range 13).map fun p => (4, headroomOf p))),
  w (fields [(1, 0), (1, 0), (2, 0), (4, 16384), (1, 1), (7, 0)]), w (fields [(1, 0), (1, 1), (6, 0)]), w portReqB,
  w (fields [(1, 0), (1, 2), (6, 0), (32, 0)]), w (fields [(2, 1), (1, 1), (1, 6), (2, 0), (2, 1), (4, 0), (4, 0), (8, 0x40000)]),
  w (fields [(1, 1), (1, 0), (1, 1), (5, 0), (2, 0)]), (stocked, .m0 0, fields [(1, 1), (1, 0), (1, 5), (1, 1), (2, 1), (2, 1), (8, 9)]),
  (stocked, .m0 0, fields [(1, 0), (1, 0), (1, 5), (1, 1), (2, 1), (2, 1), (8, 9)]), w (fields [(1, 0), (1, 1), (2, 0), (2, 1), (2, 0)]),
  w (fields [(1, 0), (7, 0)]), w (fields [(1, 0), (1, 1), (6, 0)]),
  (metered, .m0 0, meterReq),
  w (fields [(1, 0), (1, 0), (1, 0), (1, 0), (4, 1), (1, 10), (7, 0)]), w (fields [(1, 0), (1, 1), (1, 1), (5, 0)]),
  w streamReq,
  w (fields [(8, 0), (2, 0), (3, 0xFFFFFF), (3, 0), (4, 0xFFFFFFFF), (52, 0)]), w (fields [(1, 0), (1, 1), (2, 100), (4, 0)]), w (pubReq 0 0 3 0 ++ le 4 0),
  w (fields [(1, 50), (3, 0), (36, 2 ^ 288 - 1)]), w (fields [(2, 0), (2, 1), (4, 0), (4, 100), (2, 1), (2, 0)]), w (le 8 0),
  w (le 8 100), w (le 16 1700000000), w (fields [(1, 0), (1, 1), (1, 0), (1, 0), (2, 0), (2, 250), (4, 5), (4, 1000), (1, 20), (1, 16), (2, 0)]),
  w (fields [(2, 1), (1, 1), (5, 0), (80, 0)])]

/-- The module without configuration; with a session's staging; with a force; and with the twin paired. -/
def tool : Mach := { world with sec := { world.sec with unconfigured := true } }
def staged (k : Nat) (m : Mach) : Mach := { m with sec := { m.sec with staging := some { owner := 0, kind := k, len := 100, data := [] } } }
def force0 : Force := { prog := 0, output := true, value := true, point := 1300, bit := 0, kind := 0, orphan := false, tick := 0 }
def forced : Mach := { world with lge := { world.lge with forces := [(0, force0)] } }
def twin (f : Twin → Twin) (m : Mach) : Mach := { m with twn := f { m.twn with cfg := { m.twn.cfg with on := true } } }

def nows : List (Mach × Box × Bytes) := [
  w (fields [(8, 0), (8, 100)]), (staged 1 world, .m0 0, fields [(1, 1), (7, 0), (8, 0)] ++ [1, 2]),
  (staged 1 world, .m0 0, fields [(1, 2), (15, 0)]), ({ stocked with cpu := up.cpu }, .m0 0, fields [(1, 1), (7, 0), (8, 81)]),
  (tool, .m3, fields [(1, 1), (1, 0), (6, 0), (64, 9)]), w (fields [(1, 0), (1, 1), (2, 2), (4, 0), (2, 9)]),
  w (fields [(1, 1), (1, 1), (6, 0)]), w (fields [(1, 2), (1, 1), (2, 2), (4, 0), (2, 9)]),
  w (fields [(1, 1), (1, 0), (1, 1), (5, 0), (512, 0)])]
def pairs : List (Mach × Bytes) := [
  (world, fields [(1, 0), (1, 0), (1, 1), (1, 1), (4, 1300)]), (forced, fields [(1, 0), (1, 1), (1, 1), (1, 0), (4, 1300)]), (world, le 16 0),
  (world, fields [(1, 1), (15, 0)]), (world, fields [(1, 0), (1, 1), (2, 3), (12, 0), (1, 1), (15, 0), (64, 65)]), (world, le 8 5)]

-- A witness of the hypotheses of each statement

theorem witness_StepRunsTheFrontCommand :
    (⟨world, [.slotBoundary, .tickBoundary]⟩ : State).pending = .slotBoundary :: [.tickBoundary] ∧ (st world).pending = [] := ⟨rfl, rfl⟩

theorem witness_EveryStepKeepsTheInvariant : ∃ t, StateInv ⟨world, [.slotBoundary]⟩ ∧ step ⟨world, [.slotBoundary]⟩ = .next t :=
  ⟨_, inv_of_sound (m := world) (by decide +kernel), rfl⟩

/-- A module with an active and a revoked owner slot. -/
def owned : Mach := { world with sec := { world.sec with owners := [(0, .active [1]), (1, .active [2]), (2, .revoked [3])] } }

theorem witness_NothingUndoesWhatIsPermanent :
    (∃ t, step ⟨owned, [.slotBoundary]⟩ = .next t) ∧ tget owned.sec.owners 2 = some (.revoked [3]) ∧
      tget owned.sec.owners 0 = some (.active [1]) := ⟨⟨_, rfl⟩, by decide, by decide⟩

/-- The order of a row's table entry and its request: every row of the table has one that is accepted. -/
theorem witness_ReadsAnswerAtOnce :
    (readRows.length = reads.length ∧ (readRows.zip reads).all (fun r => takes r.1.cmd r.2.1 r.2.2.1 r.2.2.2) = true) ∧
    (clearRows.length = clears.length ∧ (clearRows.zip clears).all (fun r => takes r.1.cmd r.2.1 r.2.2.1 r.2.2.2) = true) ∧
    (rd 1 (le 8 3) 0 = 3 ∧ takes secTlsSet world (.m0 0) (le 8 3) = true) ∧ takes swcStatus world (.m0 0) [] = true := by
  decide +kernel

theorem witness_ChangesAreScheduled :
    changeRows.length = changes.length ∧
      (changeRows.zip changes).all (fun r => takes (atEffect (r.1.cmd r.2.1)) r.2.1 r.2.2.1 r.2.2.2) = true := by
  decide +kernel

/-- A response comes in as a request: refused 0x0101 by every row. A settle time that does not fit a rate of 4000: refused with a record. -/
theorem witness_RefusedMessageOnlyAnswers :
    (msgRows.all (fun r => boxOpen world (.m0 0) && judge (r.cmd world) world { hd (.m0 0) 0 1 with flags := 1 } [0] == 0x0101) = true ∧
      0x0101 ≠ relayMark) ∧
    (let m : Mach := { world with time := { world.time with grid := { world.time.grid with rate := 4000 } } }
     let p := estReq.set 1 0x16
     boxOpen m (.m0 0) = true ∧ judge estGroupSet m (hd (.m0 0) 0 96) p = 0x0203 ∧ settleRefusal 0x0501 0x0203 = true ∧ (0x0203 : Nat) ≠ relayMark) ∧
    settleRefusal 0x0501 0x0101 = false ∧ boxOpen world (.m0 1) = false := by
  decide +kernel

/-- Every row but those whose acceptance rests on a signature (CFG_IMAGE_STORE, the revocation of an owner slot, SEC_FW_INSTALL). -/
theorem witness_ImmediateCommandsActAtOnce :
    ((nowRows.zipIdx.filter fun r => !List.contains [3, 6, 10] r.2).zip nows).all
      (fun r => r.1.1.form r.2.2.2 && takes r.1.1.cmd r.2.1 r.2.2.1 r.2.2.2) = true ∧ nows.length + 3 = nowRows.length := by
  decide +kernel

/-- A forwarded force, sent once and then as often as may be. -/
def fwd (tries : Nat) : Forward :=
  { code := 0x0C05, hdr := hd (.m0 0) 0 8, role := 0x3F, payload := le 8 0, resp := [], apply := 102, refuse := 0x020D, tries := tries, ref := 0 }
def waits (tries : Nat) : Mach := twin id { world with mbx := { world.mbx with forward := [fwd tries] } }
def answer (status : BitVec 32) : Hdr := { hd .m2 0 0 with flags := 1, status := status }

theorem witness_PairCommandsForwarded :
    (pairRows.length = pairs.length ∧ (pairRows.zip pairs).all (fun r =>
      takes (atEffect r.1.cmd) r.2.1 (.m0 0) r.2.2 && takes (atEffect r.1.cmd) (twin id r.2.1) (.m0 0) r.2.2) = true) ∧
    world.twn.cfg.on = false ∧
    (boxOpen (waits 1) .m2 = true ∧ bit (answer 0).flags.toNat 0 = true ∧
      (waits 1).mbx.forward.find? (fun f => f.code == (0x0C05 : BitVec 16).toNat && f.hdr.seq == (answer 0).seq) = some (fwd 1) ∧
      (answer 0).status.toNat % 65536 < 2 ∧ 2 ≤ (answer 0x105).status.toNat % 65536 ∧ (fwd 1).code ≠ 0x0210) ∧
    (sound (waits 5) = true ∧ (fwd 5).tries ≤ 5) ∧ (sound (waits 6) = true ∧ 5 < (fwd 6).tries) := by
  decide +kernel

theorem witness_AdmissionReservesAtAcceptance :
    takes (atEffect (slcAdmit stocked)) stocked (.m0 0) admitB = true ∧
    (takes chnPlace stocked (.m0 0) (le 8 0 ++ admitB) = true ∧ copyFails (rd 1 (le 8 0 ++ admitB) 0) (le 8 0 ++ admitB) stocked = false) ∧
    (let m : Mach := { stocked with sec := world.sec }
     takes chnPlace m (.m0 0) (le 8 0 ++ admitB) = true ∧ copyFails (rd 1 (le 8 0 ++ admitB) 0) (le 8 0 ++ admitB) m = true) := by
  decide +kernel

/-- A pair's active member beside a clean standby. -/
def lead : Mach := twin (fun t => { t with role := .active, partner := { t.partner with heard := true, clean := true } }) world

theorem witness_LatticeRestartAndSwitchAreScheduled :
    (let m : Mach := { world with cpu := { up.cpu with loadedPages := [0] } }
     takes (atEffect (dspLatApply m)) m (.m0 0) (fields [(1, 0), (1, 1), (6, 0)]) = true) ∧
    [1, 2, 3].all (fun k => takes sysRestart world (.m0 0) (le 8 k)) = true ∧
    [4, 5].all (fun k => takes sysRestart world (.m0 0) (fields [(4, k), (4, 1)])) = true ∧
    takes twnSwitch lead (.m0 0) (le 8 0) = true := by
  decide +kernel

/-- An attestation report waits for its signature. -/
def attesting : Mach :=
  { world with sec := { world.sec with attest := some { hdr := hd (.m0 0) 0 72, role := 0x3F, alg := 0, cert := true, report := [] } } }

/-- The grant of the witness is refused: it is no grant at all. -/
theorem witness_RoleGrantsAndAttestation :
    (boxOpen world (.m0 0) = true ∧ judge sysRoleGrant world (hd (.m0 0) 0 0) [] = 0x0101 ∧ 0x0101 ≠ relayMark) ∧
    takes secAttest world (.m0 0) (le 72 0) = true ∧
    (sound attesting = true ∧ attesting.sec.attest.isSome = true ∧ controlRuns attesting = true) := by
  decide +kernel

/-- A module with one scheduled change, whose tick has begun or is still to come. -/
def due (code apply : Nat) (p : Bytes) (deferred : Bool) : Change :=
  { order := 0, apply := apply, code := code, hdr := hd (.m0 0) 0 p.length, role := 0x3F, payload := p, resp := [], deferred := deferred }
def waiting (c : Change) (m : Mach) : Mach := { m with mbx := { m.mbx with scheduled := [c], accepted := 1 } }

theorem isNext_waiting {c : Change} {m : Mach} (hr : controlRuns m = true) (ha : c.apply ≤ m.time.tick) : IsNext c (waiting c m) :=
  ⟨hr, List.mem_singleton.2 rfl, ha, fun _ hd hn => absurd (List.mem_singleton.1 hd) hn⟩

theorem witness_EarliestChangeTakesEffect :
    IsNext (due 0x0103 100 (le 8 100) false) (waiting (due 0x0103 100 (le 8 100) false) world) ∧
    controlRuns machReset = false ∧
    (∀ c ∈ (waiting (due 0x0103 101 [] false) world).mbx.scheduled, world.time.tick < c.apply) :=
  ⟨isNext_waiting (by decide +kernel) (by decide +kernel), by decide +kernel, by decide +kernel⟩

theorem witness_ScheduledChangesHaveTheirEffects :
    (∀ r ∈ effectRows, ∀ d, IsNext (due r.code 100 (le 8 5) d) (waiting (due r.code 100 (le 8 5) d) world) ∧
      StateInv (st (waiting (due r.code 100 (le 8 5) d) world))) ∧
    (IsNext (due 0x0603 100 (le 8 5) true) (waiting (due 0x0603 100 (le 8 5) true) (stoppedSlice world)) ∧
      tget (stoppedSlice world).cpu.slices 5 = some { slice5 with state := .stopped }) ∧
    (IsNext (due 0x0604 100 (le 8 5) true) (waiting (due 0x0604 100 (le 8 5) true) world) ∧ tget world.cpu.slices 5 = some slice5) :=
  ⟨fun _ _ _ => ⟨isNext_waiting (by decide +kernel) (show 100 ≤ world.time.tick by decide +kernel),
      ⟨world_sound.1, world_sound.2, world_sound.3, world_sound.4, world_sound.5, world_sound.6⟩⟩,
    ⟨isNext_waiting (by decide +kernel) (by decide +kernel), by decide +kernel⟩,
    ⟨isNext_waiting (by decide +kernel) (by decide +kernel), by decide +kernel⟩⟩

/-- The session of M0 with an answer kept, a message in assembly, or the rest of a response to come. -/
def resp0 : Response := { code := 0x0101, seq := 7, target := 0xFE, slice := 0, apply := 0, status := 0, role := 0, payload := [] }
def longResp : Response := { resp0 with payload := List.replicate 40000 0 }
def sessAs (k : Nat) (f : Session → Session) (m : Mach) : Mach :=
  { m with mbx := { m.mbx with sess := tset m.mbx.sess k (f ((tget m.mbx.sess k).getD sess)) } }
def answered0 (r : Response) : Answered := { code := 0x0101, seq := 7, segment := 0, resp := r }
def asm0 : Assembling := { code := 0x1201, hdr := hd (.m0 0) 0 20000, next := 1, data := [], ref := 0 }

/-- For `SegmentsMakeMessages`: a repeat; the first of several segments; a whole message of a command and of none; a segment out of
place, early or late; a bad CRC on M3; a slice's way in; a mailbox that is not open. -/
theorem witness_SegmentsMakeMessages :
    (boxOpen world (.m0 0) = true ∧ sound world = true) ∧
    ((tget (sessAs 0 (fun x => { x with answered := some (answered0 resp0) }) world).mbx.sess 0).bind (·.answered) = some (answered0 resp0) ∧
      (answered0 resp0).seq = (hd (.m0 0) 0 0).seq ∧ (answered0 resp0).segment = (hd (.m0 0) 0 0).segment.toNat) ∧
    (tget world.mbx.sess 0 = some sess ∧ sess.asm = none ∧ sess.answered = none) ∧
    (let h := { hd (.m0 0) 0 20000 with flags := 2 }
     segmentOk h (List.replicate 16352 0) = true ∧ segLen < h.length ∧ longOk 0x1201 h = true) ∧
    (segmentOk (hd (.m0 0) 0 16352) (List.replicate 16352 0) = true ∧ 16352 ≤ segLen ∧ (commandOf 0x0101 (hd (.m0 0) 0 0) []).isSome = true ∧
      (commandOf 0x00FF (hd (.m0 0) 0 0) []).isNone = true ∧ headerOk (hd (.m0 0) 0 0) [] = true) ∧
    ({ hd (.m0 0) 0 0 with segment := 1 }).segment ≠ 0 ∧
    (boxOpen world .m3 = true ∧ rd 4 [0, 0, 0, 0] 0 ≠ crc32 (hdrBytes 0x0101 (hd .m3 0 0) ++ [])) ∧
    (boxOpen world (.m0 1) = false ∧ mayOpen (.m0 1) world = false) := by
  decide +kernel

/-- For `UnfinishedMessagesAreAbandoned` and `SessionsOpenAndClose`. -/
theorem witness_SegmentsAndSessions :
    (controlRuns world = true ∧ (tget (sessAs 0 (fun x => { x with asm := some asm0 }) world).mbx.sess 0).bind (·.asm) = some asm0) ∧
    (let x := tget (sessAs 69 (fun x => { x with more := some 1, answered := some (answered0 resp0) }) world).mbx.sess 69
     x.bind (·.more) = some 1 ∧ x.bind (·.answered) = some (answered0 resp0)) ∧
    (mayOpen .m1 up = true ∧ mayOpen (.m0 3) { up with sec := { up.sec with anchors := [(0, [1])] } } = true ∧
      mayOpen .m2 (twin id up) = true ∧ mayOpen .m3 { up with dom := { up.dom with dbg := true } } = true) ∧
    mayOpen (.m0 0) up = false ∧
    ([Box.m0 0, .m1, .m2, .m3].all fun b => boxTag b == 0 && (tget world.mbx.sess (boxIx b)).isSome) = true := by
  decide +kernel

/-- An item of slice 5, and the module with core 0 running it. -/
def item0 : Item :=
  { handle := 1, handler := 0, prio := 1, src := .slice, cost := 2, due := 0, arg0 := 0, arg1 := 0, core := 0, cyc := 0, rank := 0, ring := none, frame := none }
def run0 : Running := { tag := 5, item := item0, tick := 100, e := 29, borrowed := false, reads := [], startNs := 0 }
def busy (m : Mach) : Mach :=
  { m with
    time := { m.time with slot := 22 }
    cpu := { m.cpu with cores := m.cpu.cores.set 0 { fetching := false, run := some run0, lastTag := 5, rdata := 0 } } }
def boxAs (f : SliceBox → SliceBox) (m : Mach) : Mach := { m with mbx := { m.mbx with boxes := [(5, f boxInit)] } }

theorem witness_SliceMailboxesAndNotify :
    coreRun (busy world) 0 = some run0 ∧
    ([0, 1, 2, 3, 4, 5].all fun k => boxState (boxAs (fun b => { b with state := k }) (busy world)) 5 == k) = true ∧
    (let m := boxAs (fun b => { b with state := 3 })
        (sessAs 69 (fun x => { x with more := some 0, answered := some (answered0 longResp) }) (busy world))
     coreRun m 0 = some run0 ∧ run0.tag ≤ 64 ∧ boxState m 5 = 3 ∧ (tget m.mbx.sess 69).bind (·.more) = some 0 ∧
       (tget m.mbx.sess 69).all (·.asm.isNone) = true) ∧
    (let m := boxAs (fun b => { b with state := 2, notify := some (0, 7, 0) }) world
     (sliceBox m 5).notify = some (0, 7, 0) ∧ boxState m 5 = 2 ∧ noHandler m 5 0 = false ∧ listsFull m 5 = false ∧ noHandler m 5 2 = true) := by
  decide +kernel

theorem witness_StoresReachMemoryOrWindow :
    coreRun (busy world) 0 = some run0 ∧ tget (busy world).cpu.slices 5 = some slice5 ∧ (busy world).twn.cfg.on = false ∧
    spanOk slice5 0x10000 8 1 = true ∧ spanOk slice5 0x1FFF8 8 1 = true ∧ spanOk slice5 0x20000 8 1 = false ∧ spanOk slice5 0xEFFF8 8 1 = false ∧
    0xF4000 - 0xF0000 = 0x4000 ∧ 0xF4000 % 8 = 0 ∧ 0xF7FF8 - 0xF0000 < 0x8000 := by
  decide +kernel

theorem witness_InstantsOfTheGrid :
    timeReset.grid.rate ∈ [4000, 4800, 9600, 14400] ∧ timeReset.grid.s0 * 1000000000 ≤ 0 ∧
      (∃ j k, j < k ∧ k < 256) ∧ tickStart timeReset.grid 0 ≤ 0 ∧ 0 < tickStart timeReset.grid 1 :=
  ⟨by decide, by decide, ⟨0, 255, by decide⟩, by decide +kernel, by decide +kernel⟩

/-- The last cycle of a second, and any other. -/
theorem witness_ClockAddsIncrementEachCycle :
    clockRuns world = true ∧ world.time.clock.ns.toNat < 1000000000 ∧
    (let m : Mach := { world with time := { world.time with clock := { sec := 0, ns := 999999999, frac := 0 } } }
     clockRuns m = true ∧ m.time.clock.ns.toNat < 1000000000 ∧ 1000000000 ≤ m.time.clock.ns.toNat + (m.time.increment.extractLsb' 40 4).toNat) := by
  decide +kernel

theorem witness_OnlyFirmwareWritesTheIncrement :
    ∃ t, exec (.incrementWrite 2199023255553) (st world) = .next t ∧ t.m.time.increment ≠ world.time.increment ∧
      t.m.time.increment.toNat ≠ 2199023255552 := ⟨_, rfl, by decide +kernel, by decide +kernel⟩

/-- A master followed on P0. -/
def gm0 : Master := { port := 0, gm := 1, key := [], tlvs := { power := none, zones := [] }, ref := 0 }

theorem witness_ServoWritesAndLimits :
    (firmwareActs world = true ∧ coasting world.time = false) ∧
    (world.time.offPending = none ∧ ¬ offsetMax world.time.grid.rate < (9765 : Int).natAbs ∧ offsetMax world.time.grid.rate < (9766 : Int).natAbs ∧
      disciplined world.time = false) ∧
    (let u := { world.time with cfg := { world.time.cfg with profile := 1 }, run := { world.time.run with master := some gm0, lastAdd := some 0 }, ticks := 16 }
     disciplined u = true ∧ u.run.lastAdd = some 0 ∧ 0 + 16 ≤ u.ticks) := by
  decide +kernel

/-- The module with its time unit rewritten. -/
def timed (f : TimeUnit → TimeUnit) : Mach := { world with time := f world.time }

theorem witness_HoldoverEntersAndExpires :
    ([TimeState.synchronised, .holdover, .expired, .freeRunning].all fun x =>
      let m := timed fun u => { u with state := x, run := { u.run with master := some gm0 } }
      controlRuns m && m.time.run.master.isSome && m.time.state == x) = true ∧
    (let m := timed fun u => { u with state := .holdover }
     clockRuns m = true ∧ m.time.state = .holdover) := by
  decide +kernel

/-- Each flag alone, both, and none. -/
theorem witness_LeapSecondActsOnce :
    ([(true, false), (false, true), (true, true), (false, false)].all fun x =>
      let m := timed fun u => { u with run := { u.run with leap61 := x.1, leap59 := x.2 } }
      clockRuns m && m.time.run.leap61 == x.1 && m.time.run.leap59 == x.2 && !m.time.run.acted61 && !m.time.run.acted59) = true ∧
    clockRuns machReset = false := by
  decide +kernel

/-- PTP on P0, which is enabled, with the master followed there. -/
def ptp (s : TimeState) (off : Int) : Mach :=
  { timed fun u => { u with
      state := s
      cfg := { u.cfg with profile := 1, ports := 1 }
      run := { u.run with master := some gm0, paths := [(0, 0)], lastOffset := off } } with
    net := { world.net with ports := tmap world.net.ports fun _ x => { x with cfg := { x.cfg with enabled := true } } } }

def ptpRx0 : PtpRx := { msg := .other 0, len := 64, extra := 0 }

/-- PTP in each state of the clock; a two-step Sync that waits, and an exchange of Pdelay in both its stages; a master that is not
followed; a CP that does not run; a port that is no PTP port. -/
theorem witness_PtpMessages :
    ([TimeState.synchronised, .holdover, .expired, .freeRunning].all fun x =>
      firmwareActs (ptp x 0) && (ptp x 0).time.cfg.profile != 0 && ptpPort (ptp x 0) 0 && (ptp x 0).time.run.master.any (·.port == 0)) = true ∧
    (let m := ptp .synchronised 0
     let off (origin : Nat) : Int := (ptpStamp m 0 ptpRx0 : Int) - origin
     4 * m.time.cfg.lock < (off 0).natAbs ∧ (off (ptpStamp m 0 ptpRx0)).natAbs ≤ 4 * m.time.cfg.lock ∧ m.time.cfg.step * 1000 < (off 0).natAbs ∧
       m.time.run.step = none ∧ stepScheduled m = false ∧ m.time.gridOn = true) ∧
    ([none, some (5 : Int)].all fun h =>
      let m := ptpRunSet (fun r => { r with syncs := [(0, ⟨1, 7, 0⟩)], pdelays := [(0, ⟨1, 3, h⟩)] }) (ptp .synchronised 0)
      firmwareActs m && tget m.time.run.syncs 0 == some ⟨1, 7, 0⟩ && tget m.time.run.pdelays 0 == some ⟨1, 3, h⟩) = true ∧
    (tget (ptp .synchronised 0).time.run.syncs 0 = none ∧ tget (ptp .synchronised 0).time.run.pdelays 0 = none ∧
      ((ptpRunSet (fun r => { r with master := none }) (ptp .synchronised 0)).time.run.master.any (·.port == 0)) = false ∧
      (5 : Nat) ≠ (ptp .synchronised 0).time.cfg.domain) ∧
    (let x : Master := { gm0 with key := [128, 0, 128, 1, 0] }
     (bestMaster (heardOn 0 x (ptp .freeRunning 0))).any (·.port == 0) = true ∧ (bestMaster (heardOn 0 x world)).any (·.port == 0) = true) ∧
    (let m : Mach := { world with dom := { world.dom with control := .starting } }
     clockRuns m = true ∧ controlRuns m = false) ∧
    (firmwareActs world = true ∧ world.time.cfg.profile = 0 ∧ ptpPort (ptp .freeRunning 0) 1 = false) := by
  decide +kernel

/-- A rate change accepted, with a pair and without; one that has reached its second; a TIME_STEP to second 5 due at the next boundary. -/
theorem witness_RateChangesAndSteps :
    (let m : Mach := { world with flt := up.flt }
     let p := fields [(4, 9600), (4, 0), (8, 2)]
     takes (rateCmd m) m (.m0 0) p = true ∧ takes (rateCmd (twin id m)) (twin id m) (.m0 0) p = true ∧
       (twin id m).twn.cfg.on = true ∧ m.twn.cfg.on = false) ∧
    (let m := timed fun u => { u with rateChange := some { sec := 0, rate := 9600, asked := none } }
     clockRuns m = true ∧ m.sec.bootDue = [] ∧ m.time.gridOn = true ∧ stepDue (m.time.tick + 1) m = none ∧
       0 * 1000000000 ≤ tickAt m (m.time.tick + 1)) ∧
    (let m := waiting (due 0x0211 101 (le 16 5) false) world
     clockRuns m = true ∧ m.sec.bootDue = [] ∧ m.time.gridOn = true ∧ stepDue (m.time.tick + 1) m = some 5000000000 ∧
       m.mbx.scheduled.all (fun c => c.code != 0x0220) = true ∧
       (stepChange (m.time.tick + 1) m).isSome = true) := by
  decide +kernel

theorem witness_BoundariesBeginTicksAndSlots :
    (clockRuns world = true ∧ world.sec.bootDue = [] ∧ stepDue 101 world = none ∧ world.time.rateChange = none) ∧
    (let m := timed fun u => { u with gridOn := false }
     clockRuns m = true ∧ m.sec.bootDue = [] ∧ m.time.gridOn = false) ∧
    ([0, 2, 254].all fun k => let m := timed fun u => { u with slot := k, offPending := some (-5) }
      clockRuns m && m.time.gridOn && decide (m.time.slot < 255) && m.time.offPending == some (-5) && m.time.run.lastAdd.isNone) = true ∧
    (let m := timed fun u => { u with slot := 2, ticks := 7, offPending := some 5, run := { u.run with lastAdd := some 7 } }
     clockRuns m = true ∧ m.time.run.lastAdd = some m.time.ticks) ∧
    (clockRuns machReset = false ∧ (timed fun u => { u with slot := 255 }).time.slot = 255) ∧
    (coreRun (busy world) 0 = some run0 ∧ (busy world).cpu.cores.length = 32 ∧ tget (busy world).time.latch 0 = none) := by
  decide +kernel

/-- A sampled-value frame of the stream on P0, and one that waits for ingest. -/
def asdu0 : Asdu :=
  { svid := [77], smpCnt := 100, confRev := 1, smpSynch := 1, smpRate := none, smpMod := none, gm := none, data := [(5, 0)] }
def sv0 : SvPdu := { appid := 0x4000, simulate := false, auth := none, asdus := [asdu0] }
def frame0 : Frame :=
  { dmac := 0x010CCD040001, smac := 1, tags := [], etype := 0x88BA, len := 100, prp := none, body := .sv sv0, payload := [] }
def inbox0 (f : Frame) : Mach :=
  { timed fun u => { u with asm := [⟨100, 20833333, 20933333, 4800, u.grid, 208333, []⟩] } with
    svi := { world.svi with inbox := [⟨0, 20883333, f⟩] } }

theorem witness_SamplesAndFrames :
    (fabricRuns world = true ∧ (inbox0 frame0).svi.inbox = [⟨0, 20883333, frame0⟩]) ∧
    { frame0 with etype := 0x88B8 }.etype ≠ 0x88BA ∧ (∀ p, ({ frame0 with body := .raw } : Frame).body ≠ .sv p) ∧
    (pduOk frame0 { sv0 with asdus := [] } = false ∧ pduOk frame0 sv0 = true ∧
      ∀ e ∈ world.svi.subs, e.2.entry.dmac ≠ ({ frame0 with dmac := 0x010CCD040009 } : Frame).dmac ∧ ∀ z ∈ e.2.spans, z.entry.dmac ≠ ({ frame0 with dmac := 0x010CCD040009 } : Frame).dmac) ∧
    (let m := inbox0 frame0
     matchSub (subTakes { m with svi := { m.svi with inbox := [] } } 20883333 sv0) { m with svi := { m.svi with inbox := [] } } frame0 sv0 =
       some (0, sub0) ∧ tget m.svi.subs 0 = some sub0 ∧ subOn subE = true ∧
     subE.flags.getLsbD 2 = false ∧ subE.flags.getLsbD 3 = false ∧ 1000000000 ≤ policerFill subE runInit 20883333 ∧
     asduOk m subE asdu0 = true ∧ (syncClass m subE asdu0).1 ≠ .global ∧ known runInit (keyOf runInit 4800 100) = false ∧ m.svi.stepAt.all (· ≤ 20883333) = true ∧ spanAt sub0 (asduInstant m subE 20883333 1 0 asdu0) = none ∧
     subE.port = 0 ∧ runInit.inSim = false ∧ offDuring sub0 (asduInstant m subE 20883333 1 0 asdu0) = false ∧
     onTimeAt m 20883333 (asduInstant m subE 20883333 1 0 asdu0) = true) ∧
    (clockRuns world = true ∧ atAssembly 0x0402 = true ∧ frameGoes world 5 ⟨100, 20833333, 20933333, 4800, world.time.grid, 208333, []⟩ = true ∧ slice5.arriving = none ∧ slice5.subs ≠ [] ∧ slice5.subsDue = []) :=
  ⟨by decide +kernel, by decide, fun _ => by simp, by decide +kernel, by decide +kernel, by decide +kernel⟩

/-- Group 0 rewritten, and its channel. -/
def grouped (f : Group → Group) (c : Chan → Chan) : Mach :=
  { world with flt := { world.flt with
    grid := some world.time.grid, groups := [(0, f { groupInit with enabled := true, inRate := 4800 })], chans := [(0, c chanInit)] } }
def comp0 : Comp := { source := 1, dir := 0, level := 0x3F800000, hyst := 0, delay := 2 }
def ph0 : Phasor := { re := 0, im := 0, inc := false, ovf := false }

/-- A recovery that is over, and one that is not; a freeze that ends, and one that goes on; tracking lost after a second, and not
before; a comparator that stays off, one that turns on and one that turns off. -/
theorem witness_EstimatesAndComparators :
    ([0, 1000].all fun k =>
      let m := grouped (fun g => { g with recovery := true, good := k }) id
      fabricRuns m && (getGroup m 0).any fun g => m.flt.grid.any (fun r => recoveryOver g r.rate) == (k == 1000)) = true ∧
    ([0, 1].all fun k =>
      let m := grouped id (fun c => { c with frozen := true, cmdLeft := k })
      (getChan m 0).frozen && freezeAhead (chanEntry m 0).group 0 m == (k == 1)) = true ∧
    ([0, 1].all fun k =>
      let m : Mach := { grouped (fun g => { g with failing := some 0, est := { g.est with track := true } }) id with
        time := { world.time with clock := { sec := k, ns := if k = 0 then 999999999 else 0, frac := 0 } } }
      clockRuns m && (getGroup m 0).any (fun g => g.enabled && g.est.track && !g.lost && g.failing == some 0) &&
        decide (0 + 1000000000 ≤ now m) == (k == 1)) = true ∧
    ([(0x3F000000, false, 0, false), (0x40000000, false, 3, true), (0x40000000, false, 2, false), (0x3F000000, true, 0, false)].all fun x =>
      let m := grouped (fun g => { g with est := { g.est with comps := [comp0, comp0, comp0, comp0] } })
        (fun c => { c with seen := some (x.1, ph0, ph0, false), comps := List.replicate 4 (x.2.1, x.2.2.1) })
      let st := (getChan m 0).comps.getD 0 (false, 0)
      let on := match sourceOf comp0 x.1 (getChan m 0).d ph0 ph0 false with
        | none => st.1
        | some v => if st.1 = true then !offCond comp0 v else decide (comp0.delay < st.2)
      fabricRuns m && (getChan m 0).seen == some (x.1, ph0, ph0, false) && on == x.2.2.2) = true := by
  decide +kernel

/-- The item of core 0 whose window has its last slot at 29, in slot 22. -/
theorem witness_GrantsAndOverruns :
    (clockRuns world = true ∧ world.time.gridOn = true ∧ world.time.slot < 255 ∧ world.cpu.lattice.shared = false) ∧
    (let m := busy world
     sound m = true ∧ coreRun m 0 = some run0 ∧ slotIndex m < run0.tick * 256 + closeSlot run0.e ∧
       (run0.tick * 256 + closeSlot run0.e) / 256 = m.time.tick) := by
  decide +kernel

/-- An item for a slot to come, one held from an engine, and one on the ready list. -/
def delayed : Mach := { busy world with cpu := { (busy world).cpu with delay := [(5, [{ item0 with handle := 2, due := 25700 }])] } }
def heldBy (h : Nat) : Mach := { world with cpu := { world.cpu with held := [⟨5, { item0 with handler := h, src := .engine }⟩] } }
def listed (n : Nat) : Mach :=
  { busy world with cpu := { (busy world).cpu with ready := [(readyKey 5 1, List.replicate n { item0 with handle := 9 })] } }

theorem witness_ItemsEnterTheReadyLists :
    (sound delayed = true ∧ clockRuns delayed = true ∧ computeReady delayed = true ∧ delayed.time.gridOn = true ∧
      (getDelay delayed 5).head?.map (·.due) = some 25700 ∧ slotIndex delayed < 25700 ∧ 25700 / 256 = delayed.time.tick) ∧
    (computeReady (heldBy 0) = true ∧ (heldItem (heldBy 0) 5 .engine).isSome = true ∧ noHandler (heldBy 0) 5 0 = false ∧
      listsFull (heldBy 0) 5 = false ∧ noHandler (heldBy 2) 5 2 = true) ∧
    (let m : Mach := { heldBy 0 with cpu := { (heldBy 0).cpu with ready := (listed 4).cpu.ready } }
     (heldItem m 5 .engine).isSome = true ∧ noHandler m 5 0 = false ∧ listsFull m 5 = true) := by
  decide +kernel

theorem witness_ItemsEndAtTheirCore :
    (sound (busy world) = true ∧ computeReady (busy world) = true ∧ (getCore (busy world) 0).run = some run0) ∧
    (getCore world 0).run = none ∧ coreRun (busy world) 0 = some run0 := by
  decide +kernel

/-- A descriptor of handler 0 with cost 2 in the slice's memory, at an address a multiple of 32. -/
def submitting (running : Bool) : Mach :=
  let m := busy world
  { m with
    mem := memPut m.mem (memKey 5 0x10000) (fields [(2, 0), (1, 2), (1, 0x00), (4, 0), (8, 0), (8, 0), (8, 0)])
    cpu := { m.cpu with slices := [(5, { slice5 with state := if running then .running else .stopped, minSlots := 10 })] } }

theorem witness_SubmissionsAndCancels :
    (boundaryCycle (busy world) = false ∧ inItsCycle (submitting true) = submitting true ∧ inItsCycle (submitting false) = submitting false ∧
      (let m := advanceTo (slotStart world.time.grid 100 23) (submitting true)
       boundaryCycle m = true ∧ coreRun m 0 = some run0 ∧ (tget (inItsCycle m).cpu.slices 5).isSome = true)) ∧
    (coreRun (submitting true) 0 = some run0 ∧ submitRefusal (submitting true) 5 { slice5 with minSlots := 10 } 0x10000 0 = 0 ∧
      submitRefusal (submitting true) 5 { slice5 with minSlots := 10 } 0x10008 0 = 0x87 ∧
      submitRefusal (submitting false) 5 { slice5 with state := .stopped } 0x10000 0 = 0x82) ∧
    (let m : Mach := { busy world with cpu := { (busy world).cpu with slices := [(5, { slice5 with state := .resetting })] } }
     coreRun m 0 = some run0 ∧ inItsCycle m = m ∧ sliceResets m 5 = true) ∧
    (inItsCycle (listed 1) = listed 1 ∧ sliceResets (listed 1) 5 = false ∧ ((listedItems (listed 1) 5).find? fun i => i.handle == 9).isSome = true ∧
      (listedItems (listed 1) 5).find? (fun i => i.handle == 1) = none ∧ runsHandle (listed 1) 5 1 = true ∧ runsHandle (listed 1) 5 77 = false) := by
  decide +kernel

/-- A fill in turn. -/
def filling (k : FillKind) : Mach :=
  { world with cpu := { world.cpu with
    fills := [⟨5, k, 65536, some 20000000⟩]
    slices := [(5, { slice5 with migration := some ⟨0, 101, false, 0, [], []⟩ })] } }
def resets (done : Bool) : Mach :=
  { world with cpu := { world.cpu with slices := [(5, { slice5 with state := .resetting, reset := some ⟨false, [], 0, done, 0, 0⟩ })] } }

theorem witness_FillsAndResets :
    ([FillKind.admission, .refill, .reload, .migrate, .image].all fun k =>
      sound (filling k) && controlRuns (filling k) && (tget (filling k).cpu.slices 5).isSome && (filling k).cpu.fills == [⟨5, k, 65536, some 20000000⟩]) = true ∧
    (computeReady (resets false) = true ∧ inFlight (resets false) 5 = false ∧ ((tget (resets false).cpu.slices 5).bind (·.reset)).any (fun r => !r.complete) = true) ∧
    (let m : Mach := { filling .admission with dom := { world.dom with compute := .starting } }
     controlRuns m = true ∧ computeRuns m = false) ∧
    (((tget (resets true).cpu.slices 5).bind (·.reset)).all (·.complete) = true ∧
      ((tget world.cpu.slices 5).bind (·.reset)).all (·.complete) = true) := by
  decide +kernel

/-- A migration to hue 0 with its apply tick, its tries and the pages marked. -/
def migrating (copied : Bool) (tries tick : Nat) (marked : List Nat) (m : Mach) : Mach :=
  { m with cpu := { m.cpu with slices := [(5, { slice5 with migration := some ⟨0, tick, copied, tries, [[(1, 1)], [(1, 1)]], marked⟩ })] } }

theorem witness_HueChanges :
    (let p := fields [(1, 5), (1, 1), (2, 0), (4, 0), (8, 0)]
     let changeHdr (n : Nat) : Hdr := hd (.m0 0) n 16
     sound world = true ∧ boxOpen world (.m0 0) = true ∧ judge (atEffect (slcHue world)) world (changeHdr 103) p = 0 ∧
       judge (atEffect (slcHue world)) world (changeHdr 102) p = 0x0209 ∧ judge (atEffect (slcHue world)) world (changeHdr 103) [] = 0x0101) ∧
    ([(true, [], true), (false, [], false), (true, List.replicate 100 0, false)].all fun x =>
      let m := migrating x.1 0 100 x.2.1 world
      computeReady m && (tget m.cpu.slices 5).any (fun y => y.migration.any fun g => g.tick == 100 && g.copied == x.1) &&
        m.cpu.cores.all (fun c => c.run.all fun r => r.tag != 5) && (migrationGap m 5).any fun gap => decide (100 ≤ gap.1) &&
        (decide (x.2.1.length * 65536 ≤ gap.2 * 16) && x.1) == x.2.2) = true ∧
    ((migrating true 0 100 [] (busy world)).cpu.cores.any fun c => c.run.any fun r => r.tag == 5) = true ∧
    ([(100, 0), (99, 0), (99, 15), (99, 16)].all fun x => (tget (migrating true x.2 x.1 [] world).cpu.slices 5).any fun y =>
      y.migration.any fun g => g.tick == x.1 && g.tries == x.2) = true := by
  decide +kernel

/-- The access registers of core 0 and slice 5, with an item that may read points 1000 to 1003. -/
def pointing (i : Nat) (v q : Nat) (m : Mach) : Mach :=
  let r := { run0 with reads := [(1000, 4)] }
  { m with
    cpu := { m.cpu with cores := m.cpu.cores.set 0 { fetching := false, run := some r, lastTag := 5, rdata := 0 } }
    sig := { m.sig with spa := [(5, { spaInit with index := .ofNat 64 i, value := .ofNat 64 v, meta_ := .ofNat 64 q })] } }
def staged5 (w : Tab StagedPt) (m : Mach) : Mach := { m with sig := { m.sig with windows := [⟨0, 5, 100, 29, false, w⟩] } }
def stagedPt (ty : Nat) : StagedPt := { v := { value := 3, quality := 0, tfrac := 0, secLo := 0 }, ty := ty, len := 0, order := 0 }

/-- Reads: of a resetting slice, where no range is, without a right, of a staged value, of a committed one. Writes: where no range
is, to another's point, of a bad value, of a good one with room and with the window full but for the point itself. -/
theorem witness_PointAccess :
    sliceResets (pointing 1000 0 0 (resets false)) 5 = true ∧
    rangeOf (pointing 5000 0 0 world).sig 5000 = none ∧
    ((rangeOf world.sig 1100).any fun r => !mayRead r 5 1100 [(1000, 4)]) = true ∧
    (let m := staged5 [(1200, stagedPt 1)] (pointing 1200 0 0 world)
     coreRun m 0 = some { run0 with reads := [(1000, 4)] } ∧ sliceResets m 5 = false ∧
       ((rangeOf m.sig 1200).any fun r => mayRead r 5 1200 [(1000, 4)]) = true ∧ stagedOf m.sig 5 1200 = some (stagedPt 1)) ∧
    (((rangeOf world.sig 1003).any fun r => mayRead r 5 1003 [(1000, 4)]) = true ∧ stagedOf world.sig 5 1003 = none ∧
      (pointAt world.sig 1003).isSome = true) ∧
    (rangeOf world.sig 999 = none ∧ rangeOf world.sig 1004 = none) ∧
    ((rangeOf world.sig 1000).any fun r => !(r.ownerKind == 1 && r.owner == 5)) = true ∧
    ((rangeOf world.sig 1200).any fun r => r.ownerKind == 1 && r.owner == 5 && (valueOk r.ty r.len 3 && qualityOk 0) &&
      !(valueOk r.ty r.len 3 && qualityOk 0xFFFFFFFF)) = true ∧
    (windowOf world.sig 0 5 run0).writes.length < 4096 ∧
    (tget (windowOf (staged5 [(1200, stagedPt 1)] world).sig 0 5 run0).writes 1200).isSome = true := by
  decide +kernel

/-- Bursts of 0, 1, 256 and 257 points; skewed addresses; a window to be committed with a point still owned and one whose type has
changed. -/
theorem witness_BurstsAndCommits :
    (let m := pointing 0 0 0 world
     let x := getSpa m 0 5
     sound m = true ∧ (coreRun m 0).isSome = true ∧ [(0 : BitVec 16), 1, 256, 257].map (·.toNat % 512) = [0, 1, 256, 257] ∧
       x.list.toNat % 8 = 0 ∧ x.buf.toNat % 16 = 0 ∧ (8 : Nat) % 16 ≠ 0) ∧
    (let m : Mach := { pointing 0 0 0 world with mem := memPut [] (memKey 5 0x10000) (le 4 1000) }
     tget m.cpu.slices 5 = some slice5 ∧ spanOk slice5 0x10000 4 0 = true ∧ spanOk slice5 0x10010 24 1 = true ∧
       (sliceRead m 5 (ofLe (slcGet m 5 0x10000 4) % 2 ^ 23) [(1000, 4)]).2.isSome = true) ∧
    (let m := staged5 [(1200, stagedPt 1), (1201, stagedPt 2)] world
     computeRuns m = true ∧ clockRuns m = true ∧ (m.sig.windows.find? fun w => w.core == 0).isSome = true ∧
       (rangeOf m.sig 1200).any (fun r => r.ownerKind == 1 && r.owner == 5 && r.ty == 1 && r.len == 0) = true ∧
       (rangeOf m.sig 1201).all (fun r => r.ty != 2) = true) := by
  decide +kernel

/-- A retransmission of the publisher due at tick 100; a message for the subscriber, heard before and not; a supervision to end. -/
def pubDue (slice : Bool) : Mach :=
  let e := if slice then { pubE with ownerKind := 1, owner := 9 } else pubE
  { timed fun u => { u with asm := [⟨100, 20833333, 20933333, 4800, u.grid, 208333, []⟩], ticks := 100 } with
    sig := { world.sig with pubs := [(0, { pubInit e with last := some [], next := some 99 })] } }
def pdu0 (stNum sqNum : BitVec 32) : GoosePdu :=
  { appid := 2, simulate := false, auth := none, ref := [66], tal := 100, datSet := [], goId := [], tSec := 0, tFrac := 0, tq := 0, stNum := stNum,
    sqNum := sqNum, confRev := 1, ndsCom := false, entries := 1, data := [.bool true] }
def gooseF (p : GoosePdu) : Frame :=
  { frame0 with dmac := 0x010CCD010006, etype := 0x88B8, body := .goose p }
def gooseIn (heard : Bool) (p : GoosePdu) : Mach :=
  { world with sig := { world.sig with
    inbox := [⟨0, 20883333, gooseF p⟩]
    gsubs := [(0, { gsubInit gsubE with heard := heard, st := 4, sq := 5, expiry := if heard then some 30000000 else none })] } }

/-- A block of which a change is owed, and one of which a repetition is, of trip messages or of others. -/
def owedPub (again trip : Bool) : Pub :=
  let e := { pubE with flags := if trip then 3 else 1 }
  if again then { pubInit e with last := some (memberVals world e), next := some 99 } else pubInit e
def twoPubs (a b : Pub) : Mach := { world with sig := { world.sig with pubs := [(0, a), (1, b)] } }
def isChange : PubDue → Bool
  | .change _ => true
  | .again _ => false

theorem witness_GooseIsSentAndSupervised :
    (let m : Mach := { pubDue false with flt := { (pubDue false).flt with grid := some (pubDue false).time.grid } }
     clockRuns m = true ∧ (tget m.sig.pubs 0).any (fun b => pubOn b.entry && b.next == some 99) = true ∧ assembliesTo 99 m = 1 ∧
       assembliesTo 101 m = 0 ∧ m.time.asm.head?.any (fun d => m.flt.grid == some d.grid && decide (99 ≤ d.tick) && d.late == []) = true) ∧
    ((tget world.sig.pubs 0).any fun b => b.next.isNone) = true ∧ tget world.sig.pubs 7 = none ∧
    ([false, true].all fun slice => (tget (pubDue slice).sig.pubs 0).any fun b => pubAllowed (pubDue slice) 20833333 b.entry == !slice && pubNumbered (pubDue slice) 20833333 b.entry == !slice) = true ∧
    (let m := twin (fun t => { t with role := .standby, imageValid := true }) (pubDue false)
     pubNumbered m 20833333 pubE = true ∧ pubAllowed m 20833333 pubE = false) ∧
    (((List.range 8).filter fun p => pubE.ports.getLsbD p && portOnAt portsOn p 20945333) = [0] ∧
      ((List.range 8).filter fun p => pubE.ports.getLsbD p && portOnAt world p 20945333) = []) ∧
    ([(false, false, false, true), (true, true, false, true), (true, false, false, false), (true, true, true, false)].all fun x =>
      [false, true].all fun again =>
        let m := twoPubs (owedPub x.1 x.2.1) (owedPub (if x.2.1 == x.2.2.2 then x.2.2.1 else again) x.2.2.2)
        (m.sig.pubs.map fun e => (owedAt ⟨99, 20625000, 20725000, 4800, m.time.grid, 208333, []⟩ m e.2).map isChange) ==
          [some (!x.1), some (!(if x.2.1 == x.2.2.2 then x.2.2.1 else again))]) = true ∧
    ([(false, (1 : BitVec 32), (1 : BitVec 32)), (true, 5, 0), (true, 4, 6), (true, 4, 5)].all fun x =>
      let p := pdu0 x.2.1 x.2.2
      let m := gooseIn x.1 p
      computeReady m && (matchGoose m (gooseF p) p).any fun b => b.1 == 0 && gsubOn b.2.entry && b.2.entry.ports.getLsbD 0 &&
        !b.2.entry.flags.getLsbD 2 && !b.2.authFail && !b.2.inSim && b.2.heard == x.1 && p.confRev == b.2.entry.confRev &&
        p.ndsCom == false && p.entries == b.2.entry.members.length &&
        p.data.length == b.2.entry.members.length && ((b.2.entry.members.zip p.data).all fun y => gvalFits m y.1 y.2)) = true ∧
    (sqAfter 5 6 = true ∧ sqAfter 5 5 = false ∧ sqAfter 0xFFFFFFFF 1 = true) ∧
    (let m := gooseIn true (pdu0 4 6)
     clockRuns m = true ∧ (tget m.sig.gsubs 0).any (fun b => b.expiry == some 30000000) = true) := by
  decide +kernel

/-- The module with every port enabled, up, and rewritten. -/
def ported (f : Port → Port) : Mach :=
  { world with net := { world.net with ports := tmap world.net.ports fun _ x => f { x with cfg := { x.cfg with enabled := true }, link := true } } }
def rule64 (targets : BitVec 8) (x : Port) : Port := { x with rules := [(64, { ruleOff with targets := targets, portmask := 2 })] }
def rx0 (etype len : Nat) (ok : Bool) : RxFrame :=
  { frame := { frame0 with etype := etype, len := len, body := .raw }, fcsOk := ok, symbolsOk := true, fragments := none, extra := 0,
    preemptable := false }
def stored0 (targets : List (Nat × Nat)) : Stored := innerFrame (rx0 0x0800 100 true).frame 0 0 targets false none 0 0

/-- A frame with an error, an unknown control frame, one that a rule discards and one it forwards, with room for it and without;
frames that wait, one of them with its queue over its threshold; a cut-through from P0 to P1. -/
theorem witness_FramesAreReceivedAndAdmitted :
    (portHears world 0 100 = false ∧ portHears (ported id) 0 100 = true ∧ ((getPort (ported id) 0).any fun x => x.incoming.isNone) = true) ∧
    (rxError (rx0 0x0800 100 false) = some 2 ∧ rxError (rx0 0x0800 63 true) = some 4 ∧ rxError (rx0 0x8808 64 true) = none ∧
      rdBe 2 (rx0 0x8808 64 true).frame.payload 0 ≠ 1 ∧ rdBe 2 (rx0 0x8808 64 true).frame.payload 0 ≠ 0x0101) ∧
    ([(0 : BitVec 8), 1].all fun k => (getPort (ported (rule64 k)) 0).any fun x =>
      let r := ruleOf x (decidingRule x (rx0 0x0800 100 true).frame)
      rxError (rx0 0x0800 100 true) == none && (r.targets.toNat % 64 == 0) == (k == 0) &&
        (targetsOf (ported (rule64 k)) 0 r 0 (rx0 0x0800 100 true).frame == []) == (k == 0) &&
        decide (headroomUse x none + (stored0 []).bytes ≤ x.headroom)) = true ∧
    ((getPort (ported fun x => { x with headroom := 0 }) 0).any fun x => x.headroom < headroomUse x none + (stored0 []).bytes) = true ∧
    (let m := ported (rule64 2)
     (getPort m 0).any (fun x =>
       let f := (rx0 0x0800 100 true).frame
       let r := ruleOf x (decidingRule x f)
       r.targets.toNat % 64 != 0 && decide (targetsOf m 0 r 0 f = [])) = true) ∧
    (fabricRuns (ported id) = true ∧ (0x0800 : Nat) ≠ 0x8808 ∧ (0x0800 : Nat) ≠ 0x88B5) ∧
    ([(1, 0), (16, 1)].all fun z =>
      let m := ported fun x => { x with rules := [(64, { ruleOff with targets := .ofNat 8 z.1, portmask := 2, flags := 64 })] }
      (getPort m 0).any fun x =>
        let f := (rx0 0x0800 2000 true).frame
        let r := ruleOf x (decidingRule x f)
        let to_ := targetsOf m 0 r (classOf r f) f
        rxError (rx0 0x0800 2000 true) == none && decide (x.cfg.maxLen < f.len) && r.targets.toNat % 64 != 0 && to_ != [] &&
          (to_.filter (oversizeTakes r)).length == z.2) = true ∧
    neverWaits (stored0 [(1, 0)]) = false ∧ neverWaits (stored0 [(13, 0)]) = true ∧
    (let m : Mach := { ported id with dom := { world.dom with fabric := .starting } }
     fabricRuns m = false ∧ umberStream m (rx0 0x8808 64 true).frame = none ∧ portHears m 12 64 = true) ∧
    (let m := ported fun x => { x with preRx := true }
     fabricRuns m = true ∧ portHears m 0 64 = true ∧ (getPort m 0).any (·.preRx) = true) ∧
    (let m := ported fun x => { x with waiting := [(0, [stored0 [(1, 0)]])] }
     let f := stored0 [(1, 0)]
     fabricRuns m = true ∧ (admitOne f m).1 = none ∧ overThreshold m f (queueKey 1 0) = false ∧ f.bytes ≤ poolFree m ∧
       tget m.net.store m.net.nextId = none) ∧
    (let m : Mach := { ported id with net := { (ported id).net with queues := [(queueKey 1 0, queueOf 0 (-40))] } }
     (admitOne (stored0 [(1, 0)]) m).1.isSome = true) ∧
    (let f := { stored0 [(1, 0)] with port := 14, acct := some 5 }
     let m : Mach := { ported id with net := { (ported id).net with inner := [f] } }
     m.net.inner.find? (fun x => innerGroup x == (14, 16 + ringAccount m 1)) = some f ∧ (admitOne f m).1 = none) ∧
    (let m : Mach := { ported id with net := { (ported id).net with inner := [stored0 [(1, 0)]] } }
     (stored0 [(1, 0)]).port ≠ 14 ∧ (admitOne (stored0 [(1, 0)]) m).1 = none) ∧
    (let m := ported (rule64 1)
     portHears m 0 64 = true ∧ (getPort m 0).any (fun x => x.cutThrough && x.incoming.isNone && !x.preRx && frame0.etype != 0x8808 &&
       frame0.etype != 0x88B5 && macTargets (ruleOf x (decidingRule x frame0)) == [1] &&
       cutFits m x 1 0 && (admitTry m { stored0 [(1, 0)] with frame := { frame0 with len := x.cfg.maxLen } }).isSome) = true) := by
  decide +kernel

/-- A port in mode PAUSE or PFC; a class stopped since an instant until another; one whose pauses are ignored. -/
def paused (a : Pause) : Mach := ported fun x => { x with pauses := [(0, a)] }

theorem witness_PauseFrames :
    ([0, 1, 2].all fun k => let m := ported fun x => { x with cfg := { x.cfg with fc := k, pfcMask := 0x81 } }
      portUp m 0 && fabricRuns m && (getPort m 0).any fun x => x.cfg.fc == k && x.sending.isNone && x.cutOff.isNone &&
        (List.range 8).all fun c => (getPause x c).ignore.isNone) = true ∧
    (getPort (paused { pauseInit with until_ := some 30000000, since := some 0 }) 0).any (fun x =>
      (getPause x 0).until_ == some 30000000 && (getPause x 0).since == some 0 && decide (0 + x.cfg.stormMs * 1000000 ≤ 30000000)) = true ∧
    (getPort (paused { pauseInit with until_ := some 9999999, since := some 0 }) 0).any (fun x =>
      decide (9999999 < 0 + x.cfg.stormMs * 1000000)) = true ∧
    ([false, true].all fun k => (getPort (paused { pauseInit with ignore := some 30000000, arrived := k }) 0).any fun x =>
      (getPause x 0).ignore == some 30000000 && (getPause x 0).arrived == k) = true ∧
    ((getPort (ported fun x => { x with fcAsked := [(8, 0)], cfg := { x.cfg with xon := 64 }, waiting := [(0, [stored0 []])] }) 0).any fun x =>
      x.fcAsked == [(8, 0)] && decide (x.cfg.xon < headroomUse x none) && decide (0 + quantaNs x x.cfg.pauseTime / 2 ≤ 40000000)) = true ∧
    ((getPort (ported fun x => { x with fcAsked := [(8, 0)] }) 0).any fun x => decide (headroomUse x none ≤ x.cfg.xon)) = true := by
  decide +kernel

/-- A frame in the store, at the head of a queue of P0, to be sent now or at a launch instant. -/
def queued (launch : BitVec 64) : Mach :=
  let f := { stored0 [(0, 0)] with id := 1, refs := 1, launch := launch }
  { ported id with net := { (ported id).net with store := [(1, f)], queues := [(queueKey 0 0, { queueInit 0 with other := [1] })], nextId := 2 } }
def sends : Mach := ported fun x => { x with sending := some { id := 0, cls := 8, start := 20000000, left := 64, sent := 0, cut := false, owed := false } }
/-- What is left of a preempted frame of class 0. -/
def sends0 : Sending := { id := 1, cls := 0, start := 20000000, left := 64, sent := 64, cut := false, owed := false }

theorem witness_PortsTransmitAndLink :
    (portPowered (ported id) 0 = true ∧ (getPort (ported id) 0).any (fun x => x.cfg.enabled && x.link && x.sending.isNone && x.fcOut == [] &&
      nextFrame (ported id) 0 x == none) = true) ∧
    ((getPort (ported fun x => { x with fcOut := [(0, [(8, 5)])] }) 0).any fun x => x.fcOut != []) = true ∧
    (let m := ported fun x => { x with cutOff := some sends0, cfg := { x.cfg with enabled := false } }
     portPowered m 0 = true ∧ (getPort m 0).any (fun x => !x.cfg.enabled && x.sending.isNone && x.cutOff == some sends0) = true) ∧
    (let m : Mach := { ported (fun x => { x with cutOff := some sends0 }) with net := { (ported fun x => { x with cutOff := some sends0 }).net with
       store := [(1, { stored0 [(0, 0)] with id := 1, refs := 1 })] } }
     ((getPort m 0).any fun x => x.fcOut == [] && (nextFrame m 0 x).any fun k => k.resume) = true) ∧
    ((getPort (queued 0) 0).any fun x => (nextFrame (queued 0) 0 x).any fun k => !k.resume) = true ∧
    ((getPort sends 0).any fun x => x.sending.any fun c => !stillComing sends c.id && !wantsExpress sends 0 x) = true ∧
    (let m := queued (launchWord 30000000)
     (getPort m 0).any (fun x => (pendingLaunch m 0 x).any fun k => k.launch == some 30000000 &&
       (nextFrame (advanceTo 30000000 m) 0 x).any fun k => !k.resume) = true) ∧
    ((getPort (ported fun x => { x with link := false }) 0).any fun x => x.cfg.enabled && !x.link) = true ∧
    (ported id).dom.cageLow.contains 0 = false ∧ (getPort world 0).any (fun x => !x.cfg.enabled) = true ∧
    ((getPort (ported id) 0).any fun x => x.cfg.preempt && !x.preTx && decide (x.verifyTries < 3)) = true ∧
    ((List.range 8).all fun c => (queueHead (ported fun x => { x with link := false }) 0 c).isNone) = true := by
  decide +kernel

/-- Ring 1 of slice 5 at position 3, and core 0 running an item of the slice. -/
def ringed (f : Ring → Ring) : Mach :=
  { busy world with net := { world.net with rings := [(0, { ringInit with owner := some 0 }), (1, f { ringInit with owner := some 5, pos := some 3, base := 0x40000 })] } }

theorem witness_RingRegisters :
    coreRun (ringed id) 0 = some run0 ∧ ringAt (ringed id) 5 3 = some 1 ∧ ringAt (ringed id) 5 63 = none := by
  decide +kernel

/-- A receive ring with a posted buffer and a frame in its queue, or starved with none. -/
def rxRing (f : Ring → Ring) : Mach :=
  let m := ringed fun x => f { x with enabled := true }
  { m with
    mem := memPut [] (memKey 5 0x40000) (fields [(8, 0x41000), (1, 1), (23, 0)])
    net := { m.net with
      store := [(1, { stored0 [(14, 1)] with id := 1, refs := 1 })]
      queues := [(queueKey 14 1, { queueInit (queueKey 14 1) with other := [1] })] } }
/-- A transmit ring with one descriptor of a frame of 60 bytes for P0, with a flag byte. -/
def txRing (flags ports va : Nat) : Mach :=
  let m := ringed fun x => { x with enabled := true, tx := true, txPorts := 1, tail := 1 }
  { m with
    mem := memPut [] (memKey 5 0x40000) (fields [(8, va), (2, 60), (1, flags), (1, 0), (2, ports), (18, 0)])
    net := { m.net with ports := (ported id).net.ports } }
def txOf (m : Mach) : Option Nat := (frameDescs m (getRing m 1) 4096 0 []).map (txRefusal m (getRing m 1))
def sentTx (tooFar removed : Bool) : Mach :=
  let m := txRing 1 1 0x41000
  { m with net := { m.net with store := [(1, { stored0 [] with
      id := 1, tooFar := tooFar, removed := removed, tx := some { ring := 1, first := 0, count := 1, descs := [[]], epoch := 0 } })] } }
def reporting (owner : Nat) (handler : Nat) : Mach :=
  ringed fun x => { x with owner := some owner, armed := true, cmpCount := 1, pend := 1, handler := handler }

theorem witness_RingsDeliverAndTransmit :
    ([(0, true), (64, true), (65, false)].all fun x =>
      let m := ringed fun y => { y with enabled := true }
      let bad := 2 ^ (getRing m 1).s < (BitVec.ofNat 32 x.1 - (getRing m 1).head).toNat ∨ 2 ^ 31 ≤ (BitVec.ofNat 32 x.1 - (getRing m 1).tail).toNat
      (coreRun m 0).isSome && ringAt m 5 3 == some 1 && !sliceResets m 5 && decide bad == !x.2) = true ∧
    ((getRing (ringed id) 1).enabled = false ∧ (getRing (ringed fun x => { x with starved := true }) 1).starved = true) ∧
    (let m := rxRing fun x => { x with tail := 1 }
     let x := getRing m 1
     fabricRuns m = true ∧ computeRuns m = true ∧ sliceResets m (ringTag x) = false ∧ x.enabled = true ∧ ringDrains m (ringTag x) = true ∧
       x.delivery = none ∧ descOk m x x.rdIdx 0 = true ∧ descOk m x x.rdIdx 1 = true ∧ completionHeld m (ringTag x) = false ∧
       (getQueue m.net (queueKey 14 1)).other = [1] ∧ x.rdIdx ≠ x.tail ∧ rd 8 (readDesc m x x.rdIdx) 0 % 64 = 0 ∧
       bufferOk m (ringTag x) (rd 8 (readDesc m x x.rdIdx) 0) (2048 * rd 1 (readDesc m x x.rdIdx) 8) 1 = true ∧
       2048 * rd 1 (readDesc m x x.rdIdx) 8 = 2048 ∧ (frameBytes (stored0 []).frame).length = 96) ∧
    (let x := getRing (rxRing fun x => { x with starved := true }) 1
     x.rdIdx = x.tail ∧ x.starved = true) ∧
    (let m : Mach := { rxRing (fun x => { x with tail := 1 }) with cpu := { (heldBy 0).cpu with cores := (busy world).cpu.cores } }
     completionHeld m (ringTag (getRing m 1)) = true) ∧
    ([(0, 30000000, true), (1, 30000000, false), (0, 5, true)].all fun k =>
      let m := rxRing fun x => { x with tail := .ofNat 32 k.1, delivery := some ⟨1, 0, [], k.2.1⟩ }
      let x := getRing m 1
      x.delivery.any fun d => holding m x d == k.2.2 && (tget m.net.store d.id).isSome && decide (d.hold + 2 ≤ now m) == (k.2.1 == 5)) = true ∧
    (let m := rxRing fun x => { x with delivery := some ⟨1, 0, [], 30000000⟩ }
     sliceResets { m with cpu := (resets false).cpu } (ringTag (getRing m 1)) = true ∧ (getRing (txRing 1 1 0x41000) 1).tx = true) ∧
    (let m := txRing 1 1 0x41000
     let x := getRing m 1
     sliceRuns m (ringTag x) = true ∧ m.net.stalled.contains (ringTag x) = false ∧ completionHeld m (ringTag x) = false ∧
       ringTurn m (ringTag x) x = true ∧ x.owner.isSome = true) ∧
    (getRing world 1).epoch ≠ 7 ∧
    (txOf (txRing 1 1 0x41000) = some 0 ∧ txOf (txRing 1 2 0x41000) = some 6 ∧ txOf (txRing 1 1 0x10) = some 5) ∧
    ([(true, false), (false, true), (false, false)].all fun x => (tget (sentTx x.1 x.2).net.store 1).any fun f =>
      f.tx.isSome && f.refs == 0 && f.tooFar == x.1 && f.removed == x.2) = true ∧
    (reportDue (ringed id) (getRing (ringed id) 1) = false ∧
      ([(0, 0), (5, 0), (5, 2)].all fun x => let m := reporting x.1 x.2
        reportDue m (getRing m 1) && computeRuns m) = true ∧
      noHandler (reporting 5 0) 5 0 = false ∧ listsFull (reporting 5 0) 5 = false ∧ noHandler (reporting 5 2) 5 2 = true ∧ slice5.arriving = none) := by
  decide +kernel

/-- A program whose next boundary is at tick 100, with or without a cycle of 10 steps in progress, and of a stopped slice. -/
def cyc (left : Nat) : Cycle := { b := 99, steps := 10, left := left, result := progInit progI, late := false }
def logic (g : Program) : Mach := { world with lge := { world.lge with progs := [(0, g)], used := false } }

theorem witness_LogicPeriods :
    ([(some 101, none), (some 100, some (cyc 5)), (some 100, some (cyc 0)), (some 100, none)].all fun x =>
      let g := { prog0 with next := x.1, cycle := x.2 }
      let m := logic g
      computeReady m && clockRuns m && tget m.lge.progs 0 == some g && progRuns m 20833333 g && g.exchange == [] && g.change == none &&
        g.pointsDue == none && (g.cycle.all fun c => !c.late)) = true ∧
    (let m := logic { prog0 with next := some 100, cycle := some (cyc 5), change := some (2, 3) }
     (cyc 5).left ≠ 0 ∧ (tget m.lge.progs 0).any (fun g => g.change == some (2, 3) && g.cycle == some (cyc 5)) = true) ∧
    (let m : Mach := { logic prog0 with time := { world.time with asm := [⟨100, 20833333, 20933333, 4800, world.time.grid, 208333, []⟩] } }
     assembliesToBoundary 100 m = 1 ∧ m.flt.grid ≠ some world.time.grid ∧ assembliesToBoundary 100 world = 0) ∧
    (let m := stoppedSlice (logic { prog0 with next := some 100 })
     progRuns m 20833333 { prog0 with next := some 100 } = false) ∧
    ((logic prog0).lge.used = false ∧ world.lge.used = true) := by
  decide +kernel

/-- A batch of increments of point 0. -/
def batch (x : List Inc) : Mach :=
  { world with eng := { world.eng with incs := [⟨99, 20625000, 208333, 4800, 100000, world.time.grid, x⟩] } }
def inc0 : Inc := { point := 0, usable := true, questionable := false, p := 0x3F800000, q := 0, s := 0x3F800000, idle := false, ovf := false }
def outAs (f : PulseOut → PulseOut) : Mach := withOut 0 (f outInit) world
def inAs (f : PulseIn → PulseIn) : Mach := withIn 0 (f inInit) world
def meterAs (f : Meter → Meter) : Mach := withMeter 0 (f meterInit) world

theorem witness_EnergyAndPulses :
    world.eng.incs = [] ∧ umberRuns { batch [inc0] with dom := { world.dom with umber := .off } } = false ∧
    ([inc0, { inc0 with usable := false }].all fun x => let m := batch [x]
      umberRuns m && m.eng.outage.isNone && !(lt32 (.ofNat 32 (fabs fmt32 x.p.toNat)) (getMeter m 0).cfg.creep && x.idle) && m.eng.outs == []) = true ∧
    ([true, false].all fun k => let m := outAs fun x => { x with cfg := { x.cfg with enabled := true }, pending := [(0, 30)], active := !k, prevWidth := 0 }
      umberRuns m && (getOut m 0).pending == [(0, 30)] && pulseReady m (getOut m 0) == k) = true ∧
    (let m := outAs fun x => { x with active := true, left := 1 }
     umberRuns m = true ∧ (getOut m 0).left ≤ 1 ∧ (getOut m 0).active = true) ∧
    ([(true, false), (true, true), (false, false)].all fun x => let m := inAs fun y => { y with enabled := x.1, level := x.2 }
      m.dom.vio && (getIn m 0).enabled == x.1 && (getIn m 0).level == x.2) = true ∧
    ([4799, 4800, 9599, 9600].all fun k => let m := meterAs fun y => { y with seqTicks := k, neutTicks := k }
      clockRuns m && (getMeter m 0).seqTicks == k && m.time.grid.rate == 4800) = true ∧
    (umberRuns world = true ∧ world.umb.halted = false ∧ eventTime world < (world.eng.savedSec + 1) * 1000000000) := by
  decide +kernel

/-- The umber domain with one stream heard at position 0, an element on it, and inputs waiting. -/
def ucfg : UStreamCfg := { ustreamOff with enabled := true, appid := 0x4000, dmac := 0x010CCD040001, confRev := 1, svid := [77] }
def umbered (f : Umber → Umber) : Mach :=
  { world with umb := f { world.umb with
    f0 := 50
    streams := [(0, { ustreamOf ucfg with
      samples := [{ pos := 0, vals := [(0, 0)], age := 0 }]
      valid := true
      heard := true })]
    elems := [(0, uelemOf { flags := 1, stream := 0, ch := [0, 0xFF, 0xFF], zonePt := none, bfStart := 0
                            group0 := ⟨true, 0, 0, 0, 0, 0⟩, group1 := ⟨false, 0, 0, 0, 0, 0⟩ })]
    pubs := [(0, { entry := pubE, last := none, t := 0, tq := 0, interval := 1, ref := 0, running := true, force := false })] } }
def svFrame (p : SvPdu) : Frame := { frame0 with body := .sv p }
def asduAt (k : Nat) : Asdu := { asdu0 with smpCnt := k }
def word0 (tick : BitVec 32) (bad : BitVec 16) : Health :=
  let w : Health := { tickLo := tick, cores := 0, zone := 5, bfi := 0, control := true, check := 0 }
  { w with check := .ofNat 16 (crc16 (healthBytes w)) + bad }
def tripped (enabled op : Bool) : Mach :=
  umbered fun u => { u with
    loaded := true
    trips := [(0, { enabled := enabled, minMs := 20, mask := 1, active := true, ref := 0 })]
    elems := tmap u.elems fun _ x => { x with operated := op } }

/-- A halted domain; a frame of no stream; the next sample of one; a health word with a bad check and a good one; the third word
absent; a trip output whose elements operate or do not; a block. -/
theorem witness_UmberMeasuresAndWatches :
    ([(false, asduAt 1), (true, asduAt 1)].all fun x =>
      let m := umbered fun u => { u with halted := !x.1, inbox := [(5, svFrame { sv0 with asdus := [x.2] })] }
      m.umb.inbox == [(5, svFrame { sv0 with asdus := [x.2] })] && umberActs m == x.1) = true ∧
    umberStream (umbered id) { svFrame sv0 with dmac := 1 } = none ∧
    (let p : SvPdu := { sv0 with asdus := [asduAt 1] }
     umberStream (umbered id) (svFrame p) = some 0 ∧ pduOk (svFrame p) p = true ∧ p.simulate = false ∧ ucfg.nasdu = 1 ∧
       umberAsduOk 50 ucfg (asduAt 1) = true ∧ 500 ≤ ucfg.rate ∧ (asduAt 1).smpCnt = (0 + 1) % ucfg.rate ∧ (0 + 1) % uD ucfg ≠ 0 ∧
       (tget (umbered id).umb.streams 0).any (fun y => y.samples.map (·.pos) == [0] && y.valid && y.heard && y.cfg == ucfg) = true) ∧
    (tget (umbered id).umb.elems 0).any (fun y => y.cfg.stream == 0 && usedChans y.cfg == [0]) = true ∧
    ((word0 100 1).check.toNat ≠ crc16 (healthBytes (word0 100 1)) ∧ (word0 100 0).check.toNat = crc16 (healthBytes (word0 100 0)) ∧
      (word0 100 0).tickLo = .ofNat 32 100 ∧ now world ≤ asmAt world (100 + 1) ∧ world.umb.fail = none) ∧
    ((word0 100 0).zone.getLsbD 0 = true ∧ (word0 100 0).zone.getLsbD 1 = false ∧ (word0 100 0).zone.getLsbD 23 = false) ∧
    (clockRuns world = true ∧ world.time.gridOn = true ∧ nextAssembly world ≠ 0 ∧ umberActs (advanceTo (nextAsmAt world) world) = true ∧
      world.umb.counted ≠ some (nextAssembly world - 1) ∧ world.umb.absent + 1 ≠ 3 ∧
      (umbered fun u => { u with absent := 2 }).umb.absent + 1 = 3 ∧
      (umbered fun u => { u with counted := some (nextAssembly world - 1) }).umb.counted = some (nextAssembly world - 1)) ∧
    ([(true, true), (true, false), (false, true)].all fun x => let m := tripped x.1 x.2
      umberActs m && m.umb.loaded && !umberMuted m && ((operating m 1 != 0) == x.2) &&
        (tget m.umb.trips 0).any fun y => y.active && y.enabled == x.1) = true ∧
    ([true, false].all fun b => let m := umbered fun u => { u with loaded := true, pubs := tmap u.pubs fun _ x => { x with force := b } }
      fabricRuns m && pubOn pubE && !upubMuted m && (tget m.umb.pubs 0).any fun x => x.running && x.force == b) = true := by
  decide +kernel

/-- The recorder rewritten; events whose code is limited (0x0302) and not. -/
def recorded (f : Recorder → Recorder) : Mach := { busy world with evr := f world.evr }
def ev0 (code : Nat) : Raised := { code := code, tag := 0, time := 7, tq := 0, payload := le 8 0 }
def rec0 (seq : Nat) : Rec := { seq := seq, ev := ev0 0x0101, severity := 0, pub := true, commit := true, tail := .ofNat 32 seq }
def win0 : EvrWin := { cursor := 1, busy := false, past := false, live := false, filled := 0, slots := [], words := [] }

theorem witness_RecordsAreStagedAndKept :
    ([0x0101, 0x0302].all fun c => let m := recorded fun u => { u with arrivals := [ev0 c] }
      recorderRuns m && m.evr.arrivals == [ev0 c] && neverSuppressed c == (c == 0x0101) && decide (10 ^ 12 ≤ tokensNow m c) &&
        (tget m.evr.suppr c).isNone && m.evr.lost.isNone && decide (m.evr.staging.length + 1 < 8192)) = true ∧
    tokensNow (recorded fun u => { u with buckets := [(0x0302, { tokens := 0, ref := world.time.ref })] }) 0x0302 < 10 ^ 12 ∧
    16384 ≤ (recorded fun u => { u with staging := List.replicate 16384 (rec0 1) }).evr.staging.length ∧ neverSuppressed 0x0302 = false ∧
    (recorded fun u => { u with staging := List.replicate 16384 (rec0 1) }).evr.lost = none ∧
    (tget (recorded fun u => { u with suppr := [(0x0302, ⟨1, 0, 0, 0, 0⟩)] }).evr.suppr 0x0302).isSome = true ∧
    (min (recorded id).evr.staging.length (65536 - (recorded id).evr.mram.length) = 0 ∧
      min (recorded fun u => { u with staging := [rec0 1] }).evr.staging.length (65536 - (recorded id).evr.mram.length) ≠ 0) ∧
    (let m := recorded fun u => { u with staging := [rec0 1], wins := [(0, { win0 with live := true }), (1, win0)] }
     controlRuns m = true ∧ computeRuns m = true ∧
       (m.evr.flash ++ m.evr.mram ++ m.evr.staging).find? (fun r => newestSeq m < r.seq && m.evr.clearSeq ≤ r.seq) = some (rec0 1) ∧
       win0.cursor.toNat % 2 ^ 63 ≤ 1 ∧ recVisible 0 (rec0 1) = true ∧ inArea m.evr.clearSeq 1 (win0.cursor.getLsbD 63) 1 = true) ∧
    (coreRun (recorded id) 0 = some run0 ∧
      (recorded fun u => { u with wins := [(5, { win0 with busy := true })] }).evr.wins.find? (fun w => w.1 / 128 == 0 && w.2.busy) =
        some (5, { win0 with busy := true })) := by
  decide +kernel

/-- The module as member of a pair, with P8 up, as active or otherwise. -/
def twinAs (r : Role) (f : Twin → Twin) : Mach :=
  let m := ported id
  twin (fun t => f { t with
    role := r
    cfg := { t.cfg with partner := 1, k := 3, livePorts := 1, appid := 7, dmac := 0x010CCD010009, gocb := [67] } }) m

theorem witness_TwinWordsAndReports :
    (let m := twinAs .active id
     m.twn.cfg.on = true ∧ clockRuns m = true ∧ m.time.gridOn = true ∧ m.twn.role = .active ∧ controlRuns m = true ∧ m.twn.demoted = false ∧
       m.twn.cfg.livePorts.getLsbD 0 = true ∧ (getPort m 0).any (·.cfg.enabled) = true ∧ member m = 0) ∧
    ((twinAs .standby id).twn.role = .standby ∧ clockRuns (twinAs .standby id) = true ∧ (1 : BitVec 64) ≠ 0 ∧
      member { twinAs .standby id with chn := { world.chn with addr := some 2 } } = 1) := by
  decide +kernel

/-- Words of the partner: a frame on P8 of a kind, in a role, with an announcement and an epoch; an arc word; a liveness message. -/
def chordP (sub role ann epoch : Nat) : Bytes :=
  fields [(1, sub), (1, 1), (1, 1), (1, role), (1, ann), (1, 1), (1, 3), (1, 0), (8, 100), (8, epoch), (40, 0)]
def arcW (role epoch : Nat) : BitVec 64 :=
  let v := (0xD5 * 2 ^ 40 + 2 ^ 39 + role * 2 ^ 37 + epoch) * 2 ^ 16
  .ofNat 64 (v + crc16 (be 6 (v / 2 ^ 16)))
def liveF : Frame := gooseF { pdu0 1 1 with appid := 7, ref := [67], data := [.uint 0, .bool true] }

theorem witness_TwinWordsAreHeard :
    ([Role.starting, .standby, .solo].all fun r => [0, 1, 2].all fun a => let m := twinAs r id
      let p := chordP 1 2 a 5
      m.twn.cfg.on && portUp m 8 && fabricRuns m && decide (64 ≤ p.length) && rd 1 p 1 == 1 && rd 1 p 2 != member m && rd 1 p 0 == 1 &&
        m.twn.role != .active && rd 1 p 4 == a) = true ∧
    rd 1 (chordP 3 1 0 0) 0 = 3 ∧
    (bits (arcW 1 5).toNat 63 56 = 0xD5 ∧ crc16 (be 6 ((arcW 1 5).toNat / 2 ^ 16)) = (arcW 1 5).toNat % 2 ^ 16 ∧
      bits (arcW 1 5).toNat 55 55 ≠ member (twinAs .standby id)) ∧
    (let m := twinAs .standby id
     let f := { liveF with dmac := m.twn.cfg.dmac }
     f.body = .goose { pdu0 1 1 with appid := 7, ref := [67], data := [.uint 0, .bool true] } ∧ portUp m 0 = true ∧
       m.twn.cfg.livePorts.getLsbD 0 = true ∧ 7 = m.twn.cfg.appid ∧ [67] = m.twn.cfg.gocb ∧ b2n true ≠ member m ∧ m.twn.cfg.auth = false ∧
       m.twn.heardSq = none ∧ (sqAfter 9 1 = false ∧ sqAfter 1 9 = true) ∧
       (twinAs .standby fun t => { t with heardSq := some (0, 0) }).twn.heardSq = some (0, 0) ∧ sqAfter 0 1 = true ∧ m.twn.epoch.toNat ≤ nearest 32 m.twn.epoch.toNat (0 : BitVec 32).toNat) ∧
    ([(4, 5, 0), (5, 5, 2)].all fun x =>
      let m : Mach := { twinAs .active (fun t => { t with epoch := .ofNat 64 x.1 }) with chn := { world.chn with addr := some x.2.2 } }
      m.twn.role == .active && nearest 32 m.twn.epoch.toNat (BitVec.ofNat 32 x.2.1).toNat == 5 && (x.1 == 4 || member m == 1)) = true ∧
    (let m := twinAs .active fun t => { t with epoch := 4 }
     rd 1 (chordP 1 2 0 5) 3 = 2 ∧ m.twn.epoch.toNat < rd 8 (chordP 1 2 0 5) 16 ∧ rd 1 (chordP 1 2 0 5) 2 ≠ member m ∧
       bits (arcW 2 5).toNat 54 53 = 2 ∧ arcCheck (arcW 2 5).toNat = (arcW 2 5).toNat % 2 ^ 16 ∧
       m.twn.epoch.toNat < nearest 16 m.twn.epoch.toNat (bits (arcW 2 5).toNat 31 16)) ∧
    (let m : Mach := { twinAs .active (fun t => { t with epoch := 5 }) with chn := { world.chn with addr := some 2 } }
     let p := (chordP 1 2 0 5).set 2 0
     m.twn.epoch.toNat = rd 8 p 16 ∧ member m = 1 ∧ rd 1 p 2 ≠ member m) ∧
    (twinAs .active fun t => { t with demoted := true }).twn.demoted = true ∧
    (twinAs .standby fun t => { t with gridNow := some true }).twn.gridNow = some true := by
  decide +kernel

theorem witness_TwinPathsAndListening :
    ([(false, 3, 0), (true, 0, 0)].all fun x =>
      let m := twinAs .active fun t => { t with chordLost := x.1, chordSilent := x.2.1, arcSilent := x.2.2 }
      m.twn.chordLost == x.1 && decide (x.1 = true ∨ m.twn.cfg.k ≤ m.twn.chordSilent) && m.twn.arcSilent == 0) = true ∧
    ([(false, 3, 0), (true, 0, 0)].all fun x =>
      let m := twinAs .active fun t => { t with arcLost := x.1, arcSilent := x.2.1, chordSilent := x.2.2 }
      m.twn.arcLost == x.1 && decide (x.1 = true ∨ m.twn.cfg.k ≤ m.twn.arcSilent) && m.twn.chordSilent == 0) = true ∧
    (let t := (twinAs .active fun t => { t with chordSilent := 3, arcSilent := 3, partner := { t.partner with heard := true } }).twn
     t.bothLost = false ∧ t.cfg.k ≤ t.chordSilent ∧ t.cfg.k ≤ t.arcSilent ∧ t.partner.heard = true ∧ t.role = .active) ∧
    (let t := (twinAs .active fun t => { t with bothLost := true }).twn
     t.bothLost = true ∧ t.chordSilent = 0) ∧
    (let t := (twinAs .standby fun t => { t with liveAbsent := 3, partner := { t.partner with role := .active } }).twn
     t.liveLost = false ∧ t.partner.role = .active ∧ t.cfg.k ≤ t.liveAbsent ∧ t.chordSilent = 0) ∧
    (let t := (twinAs .standby fun t => { t with liveLost := true }).twn
     t.liveLost = true ∧ t.liveAbsent = 0) ∧
    ([(false, Role.starting), (true, Role.starting), (true, Role.active)].all fun x =>
      let m := twinAs .starting fun t => { t with listen := some 19, heardSq := none, partner := { t.partner with heard := x.1, role := x.2 } }
      m.twn.listen == some 19 && decide (m.twn.cfg.k + 16 ≤ 19) && m.twn.partner.heard == x.1 && member m == 0) = true := by
  decide +kernel

/-- A mirror or copy frame of the partner: kind, tick, the last of its tick with its total, and its records. -/
def mframe (sub tick : Nat) (last : Bool) (rs : List MRec) : Bytes :=
  fields [(1, sub), (1, 1), (1, 1), (1, 0), (2, 0), (2, rs.length), (8, tick), (8, 0), (2, b2n last), (2, 0),
    (4, ((rs.map fun r => (mrecBytes r).length).sum))] ++ rs.flatMap mrecBytes
def mrec0 : MRec := { kind := 5, id := 0, body := le 8 50 }
def sync0 (f : Resync → Resync) : Resync :=
  f { s := 90, c := none, copied := 0, total := 0, todo := [], touched := [], only := none }

/-- A mirror to send, sent already, or of no tick captured; a last frame, one before it, and one that comes late; a mirror that is missing,
and ones that are not. -/
theorem witness_MirrorsAreSentTakenOrMissed :
    (let m := twinAs .active fun t => { t with captures := [(99, [mrec0])] }
     m.twn.cfg.on = true ∧ m.twn.role = .active ∧ m.twn.captures = [(99, [mrec0])] ∧ 99 ≠ m.twn.mirror ∧ ∀ r ∈ [mrec0], r.body.length ≤ 9100) ∧
    (world.twn.cfg.on = false ∧ (twinAs .active id).twn.captures.head? = none ∧
      (twinAs .active fun t => { t with captures := [(99, [])], mirror := 99 }).twn.mirror = 99) ∧
    ([(false, 99), (true, 99), (true, 98)].all fun x => let m := twinAs .standby id
      let p := mframe 2 x.2 x.1 []
      let y : MirrorRx := { tick := x.2, frames := [(rd 2 p 4, bit (rd 2 p 24) 0, rd 4 p 28, parseRecs (rd 2 p 6) (p.drop 32))] }
      toStandby m 2 p && m.twn.rx.isNone && rd 8 p 8 == x.2 && rxComplete y == x.1 &&
        decide (x.2 + 2 < nextAssembly m) == (x.2 == 98)) = true ∧
    toStandby (twinAs .standby id) 2 [] = false ∧
    (let m := twinAs .standby fun t => { t with imageValid := true, mirror := 10 }
     clockRuns m = true ∧ m.time.gridOn = true ∧ 2 ≤ nextAssembly m ∧ m.twn.resync = none ∧ m.twn.imageValid = true ∧
       m.twn.mirror < nextAssembly m - 2) ∧
    ((twinAs .active id).twn.role ≠ .standby ∧ nextAssembly (twinAs .standby fun t => { t with mirror := 99 }) - 2 ≤ 99 ∧
      (twinAs .standby fun t => { t with imageValid := false }).twn.imageValid = false ∧ clockRuns machReset = false) := by
  decide +kernel

/-- A copy whose last frame is sent, one with nothing left and ones with records left, a last one and one of a region that goes on; a
copy frame that ends the resynchronisation and one that does not. -/
theorem witness_CopiesAreSentAndTaken :
    ([some 50, none].all fun c => (twinAs .active fun t => { t with resync := some (sync0 fun r => { r with c := c }) }).twn.resync ==
      some (sync0 fun r => { r with c := c })) = true ∧
    (let m := twinAs .active id
     (copyRec m (1, .ofNat 32 (5 * 256 + 1), 65536 - 64)).1.isSome = true ∧ (copyRec m (1, .ofNat 32 (5 * 256 + 1), 65536 - 64)).2 = none ∧
       (copyRec m (1, .ofNat 32 (5 * 256 + 1), 0)).2.isSome = true ∧ m.twn.resync = none) ∧
    (world.twn.cfg.on = false ∧ (twinAs .standby id).twn.role ≠ .active ∧ toStandby (twinAs .standby id) 4 [] = false) ∧
    ([(50, 60), (50, 40)].all fun x =>
      let m := twinAs .standby fun t => { t with mirror := x.2, resync := some (sync0 id) }
      let p := mframe 4 90 true [mrec0]
      toStandby m 4 p && m.twn.resync == some (sync0 id) && bit (rd 2 p 24) 0 &&
        ((parseRecs (rd 2 p 6) (p.drop 32)).find? fun y => y.kind == 5) == some mrec0) = true := by
  decide +kernel

/-- The module in a chain, as a worker or the apex. -/
def chained (apex : Bool) (f : Chain → Chain) : Mach :=
  let m := ported id
  { m with dom := { m.dom with apex := apex }, chn := f { m.chn with addr := some (if apex then 0 else 2), enumIn := true } }
def chainP (sub : Nat) (rest : Bytes) : Bytes := padTo 80 (fields [(1, sub), (1, 1), (1, 2), (1, 0), (4, 1)] ++ rest)
def offerP (next force : Nat) : Bytes := chainP 0x10 (fields [(1, next), (1, force), (6, 0)])
def onePlace (f : Domains → Domains) (m : Mach) : Mach := { m with dom := f m.dom }

/-- An enumeration to begin; offers without ENUM_IN, past the end, of the module's own address and of another one; one to the apex; a
join and an end at the apex and below it; an offer that waits for its join, of address 32 or less. -/
theorem witness_EnumerationOffersJoinsAndEnds :
    takes chnEnumerate { world with dom := { world.dom with apex := true } } (.m0 0) (le 8 1) = true ∧
    (let m := chained true fun x => { x with run := some { force := false, ref := 0, offered := false, asked := none } }
     fabricRuns m = true ∧ m.chn.run.isSome = true ∧ chainLink m true = true) ∧
    ([(true, 32), (true, 31), (true, 2), (false, 2)].all fun x => let m := chained false fun c => { c with enumIn := x.1 }
      chainFrame m 0x10 (offerP x.2 0) && !isApex m && m.chn.enumIn == x.1 && rd 1 (offerP x.2 0) 8 == x.2) = true ∧
    (chained false fun c => { c with addr := none }).chn.addr = none ∧ (chained false id).chn.addr = some 2 ∧
    (let m : Mach := { chained false id with sec := { world.sec with force := some ⟨0, 1, [], 0⟩ } }
     (3 : Nat) ≠ 2 ∧ bit (rd 1 (offerP 3 0) 9) 0 = false ∧ configured m = true) ∧
    (chainFrame (chained true id) 0x10 (offerP 1 0) = true ∧ isApex (chained true id) = true) ∧
    ([(0x11, false), (0x12, false), (0x11, true), (0x12, true)].all fun x =>
      chainFrame (chained x.2 id) x.1 (chainP x.1 (le 8 31)) && isApex (chained x.2 id) == x.2) = true ∧
    rd 1 (chainP 0x11 (le 8 31)) 8 < 32 ∧ (chained true fun c => { c with joined := true }).chn.joined = true ∧
    rd 1 (chainP 0x11 (le 8 32)) 8 = 32 ∧ chainFrame (chained false id) 0x11 [] = false ∧ (chained true id).chn.offer = none ∧
    ([(31, false), (32, false), (1, true)].all fun k => let m := chained k.2 fun c => { c with offer := some (k.1, false, 0) }
      fabricRuns m && m.chn.offer == some (k.1, false, 0) && isApex m == k.2) = true := by
  decide +kernel

theorem witness_NeighboursAndHealth :
    ([true, false].all fun d => chainLink (chained true id) d && chainFrame (chained true id) 0x13 (chainP 0x13 []) &&
      fabricRuns (chained true id)) = true ∧
    ([true, false].all fun b => let m := chained true fun c => { c with downHeard := b, upHeard := b, enum := 1 }
      belowUp m == b && aboveUp m == b && mayOffer m && m.chn.offer.isNone) = true ∧
    (mayOffer (chained true id) = false ∧ isApex (chained true id) = true ∧
      belowUp (chained false fun c => { c with downHeard := true }) = true ∧ isApex (chained false id) = false) ∧
    (let m := chained false fun c => { c with lastHealth := ownEntry (chained false id) }
     healthKey (ownEntry (chained false id)) ≠ healthKey (chained false id).chn.lastHealth ∧ healthKey (ownEntry m) = healthKey m.chn.lastHealth) ∧
    ([0, 1].all fun k => let m := chained true fun c => { c with entries := [(2, { entryInit with body := List.replicate 64 0 })] }
      let p := (chainP 0x15 []).set 56 k
      chainFrame m 0x15 p && decide (72 ≤ p.length) && isApex m && (tget m.chn.entries (rd 1 p 2)).any fun e =>
        (slice e.body 48 8 == slice (slice p 8 64) 48 8) == (k == 0)) = true := by
  decide +kernel

/-- A relayed request or response, whole: to address 2, of a session command or with nothing. -/
def relayP (dir to_ : Nat) (flags : Nat) : Bytes :=
  fields [(1, 0x14), (1, 1), (1, 0), (1, to_), (4, 1), (4, 5), (1, 0), (1, 1), (1, dir), (1, 0), (2, 0x1301), (2, flags), (60, 0)]
def relay0 (own : Bool) : Relay :=
  { rseq := 5, code := 0x0110, hdr := hd (.m0 0) 0 0, role := 0x3F, payload := [], addr := 2, thenB := none, fromA := none, own := own,
    seg := 0, ref := 0, frags := [], got := [] }
def doubtful (s : AddrState) : Mach :=
  chained true fun c => { c with doubt := [(5, 2)], entries := [(2, { entryInit with state := s })] }

theorem witness_RelaysGoToTheirTarget :
    (let m : Mach := { chained false id with mbx := { world.mbx with sess := tset world.mbx.sess 64 sess } }
     relayFrame m 0 (relayP 0 3 0) = true ∧ isApex m = false ∧ m.chn.addr ≠ some (rd 1 (relayP 0 3 0) 3) ∧ chainLink m true = true ∧
       m.chn.addr = some (rd 1 (relayP 0 2 0) 3) ∧ rd 1 (relayP 0 2 0) 13 = 1 ∧ m.chn.rxSeq ≠ .ofNat 32 (rd 4 (relayP 0 2 0) 8) ∧
       boxOpen { m with mbx := { world.mbx with sess := tset world.mbx.sess (boxIx .m1) sess } } .m1 = true) ∧
    (relayFrame (chained false id) 1 (relayP 1 2 0) = true ∧ chainLink (chained false id) false = true) ∧
    (let m := chained true fun c => { c with relays := [relay0 true] }
     let p := relayP 1 2 0
     relayFrame m 1 p = true ∧ controlRuns m = true ∧ m.chn.relays.find? (fun x => x.rseq == .ofNat 32 (rd 4 p 8)) = some (relay0 true) ∧
       rd 1 p 13 = 1 ∧ bit (rd 2 p 18) 1 = false ∧ rd 4 p 40 % 65536 = 0) ∧
    (sound (chained true fun c => { c with relays := [relay0 false] }) = true ∧ (relay0 false).own = false) ∧
    (let m := doubtful .enumerated
     m.chn.doubt.find? (fun d => (tget m.chn.entries d.2).any (fun e => e.state == .enumerated)) = some (5, 2)) := by
  decide +kernel

/-- A commit that is pending; whether an image is accepted rests on its signature and on what its body holds. -/
def commit0 (sealed : Bool) (tick : Nat) : Mach :=
  { world with sec := { world.sec with
    commit := some { tick := tick, header := List.replicate 8192 0, body := [], sealed := sealed, hdr := hd (.m0 0) 0 8, role := 0x3F } } }

theorem witness_CommitsAreSealedAndTakeEffect :
    (controlRuns (commit0 false 105) = true ∧ (commit0 false 105).sec.commit.any (fun c => !c.sealed) = true ∧
      clockRuns (commit0 false 105) = true) ∧
    (commit0 true 100).sec.commit.any (fun c => c.sealed && decide (c.tick ≤ (commit0 true 100).time.tick)) = true := by
  decide +kernel

/-- The module with its domains in these states. -/
def doms (u f c p : DomState) : Mach :=
  onePlace (fun d => { d with umber := u, fabric := f, control := c, compute := p }) world

theorem witness_DomainsStart :
    ([(doms .starting .reset .reset .reset, (0 : Fin 4)), (doms .running .starting .reset .reset, 1), (doms .running .running .updating .reset, 2),
        (doms .running .running .running .starting, 3)].all fun x =>
      isStarting x.2 x.1 && (List.range x.2).all (fun e => domState e x.1 == .running) &&
        (x.2 == 3 || mayStart (x.2 + 1) (putDom x.2 .running x.1))) = true ∧
    isStarting 3 world = false ∧
    ([[], [2]].all fun l => let m := onePlace (fun d => { d with missed := [(2, 0)], retried := l }) (doms .running .running .reset .reset)
      tget m.dom.missed 2 == some 0 && l.contains 2 == (l == [2]) &&
        mayStart 2 (withDom (fun x => { x with missed := terase x.missed 2 }) m)) = true ∧
    (let m : Mach := { doms .running .running .updating .reset with sec := { world.sec with fwPend := some ⟨2, [], 1⟩, fwTrying := true } }
     m.sec.fwPend = some ⟨2, [], 1⟩ ∧ m.dom.control = .updating ∧ m.sec.fwTrying = true) := by
  decide +kernel

def restarting (k : Nat) : Mach :=
  onePlace (fun d => { d with restart := some { kind := k, tick := 100, wake := 3, hdr := hd (.m0 0) 0 8, role := 0x3F } }) world
def asleep (k : Nat) : Mach :=
  let d := doms .running (if k = 5 then .sleeping else .running) .sleeping .sleeping
  onePlace (fun x => { x with sleep := some { kind := k, due := world.time.ref + 500000000 } }) d

theorem witness_DomainsFallAndSleep :
    ([0, 1, 2, 3].all fun d => (List.range (d + 1)).all (fun e => domState e world == .running) && world.evr.lost.isNone) = true ∧
    Unhindered world ∧
    ([1, 2, 3, 4, 5].all fun k => controlRuns (restarting k) &&
      (restarting k).dom.restart.any fun r => r.kind == k && decide (r.tick ≤ (restarting k).time.tick)) = true ∧
    (∀ k ∈ [4, 5], Unhindered (asleep k) ∧ umberRuns (asleep k) = true ∧ (asleep k).dom.sleep.isSome = true ∧ (asleep k).dom.fabric ≠ .off ∧
      (asleep k).dom.control ≠ .off) ∧
    fabricRuns (asleep 4) = true := by
  refine ⟨by decide +kernel, ?_, by decide +kernel, ?_, by decide +kernel⟩
  · unfold Unhindered; decide +kernel
  · unfold Unhindered; decide +kernel

/-- A power-fail sequence in progress, with or without HOLD and main power. -/
def failing (hold main : Bool) : Mach :=
  { onePlace (fun d => { d with main := main, hold := hold }) world with umb := { world.umb with fail := some (5, hold, []) } }
def halted0 : Mach := { world with umb := { world.umb with halted := true } }

theorem witness_PowerComesAndGoes :
    (world.dom.main = true ∧ world.umb.fail = none ∧ world.umb.halted = false ∧ umberRuns world = true ∧
      umberRuns (doms .reset .reset .reset .reset) = false ∧ world.dom.hold = false) ∧
    ([true, false].all fun h => [true, false].all fun p => let m := failing h p
      m.umb.fail == some (5, h, []) && m.dom.main == p && umberRuns m && !m.dom.resetHeld && !m.dom.disconnected && !m.dom.shutdown) = true ∧
    ([doms .running .reset .reset .reset, doms .reset .reset .reset .reset, doms .off .off .off .off, halted0].all fun x =>
      let m := onePlace (fun d => { d with main := false }) x
      m.umb.fail.isNone && !m.dom.resetHeld && !m.dom.shutdown && !m.dom.main &&
        (m.umb.halted || m.dom.umber == .running || m.dom.umber == .reset || m.dom.umber == .off)) = true ∧
    (doms .reset .reset .reset .reset).dom.main = true ∧
    (world.dom.disconnected = false ∧ umberActs world = true) ∧
    ([true, false].all fun p => let m := onePlace (fun d => { d with main := p, hold := true }) world
      m.dom.hold && umberActs m && m.dom.main == p) = true ∧
    (halted0.umb.halted = true ∧ halted0.dom.umber ≠ .off ∧ halted0.dom.hold = false ∧ (doms .off .off .off .off).dom.umber = .off) := by
  decide +kernel

theorem witness_ResetInputHeatAndErrors :
    (umberActs world = true ∧ world.umb.fail = none ∧ world.dom.resetHeld = false) ∧
    ([true, false].all fun b => let m := onePlace (fun d => { d with resetHeld := true, shutdown := b, coldWaits := b }) world
      m.dom.resetHeld && m.dom.shutdown == b && m.dom.umber != .off && m.dom.main) = true ∧
    (Unhindered world ∧ fabricRuns world = true ∧ world.dom.sleep = none ∧ world.dom.control ≠ .off) ∧
    (world.dom.warning = false ∧ (1050 : Int) ≤ 1050 ∧ world.dom.shutdown = false ∧ controlRuns world = true ∧ inBank world 0 5 = true ∧
      inBank world 1 5 = false) ∧
    ([0, 1].all fun b => let m := onePlace (fun d => { d with memError := true, memBanks := [(b, [5])] }) world
      m.dom.memError && m.dom.memBanks == [(b, [5])] && inBank m b 5 == (b == 0)) = true ∧
    (let m := onePlace (fun d => { d with warning := true, memError := true }) world
     m.dom.warning = true ∧ m.dom.memError = true ∧ umberActs m = true ∧ controlRuns m = true) ∧
    ([true, false].all fun b => let m := onePlace (fun d => { d with shutdown := true, coldWaits := b }) (doms .running .reset .reset .reset)
      m.dom.shutdown && !m.dom.resetHeld && m.dom.main && !m.dom.disconnected && m.umb.fail.isNone && !m.umb.halted && umberRuns m &&
        m.dom.coldWaits == b && m.dom.fabric != .off) = true := by
  refine ⟨by decide +kernel, by decide +kernel, ?_, by decide +kernel, by decide +kernel, by decide +kernel⟩
  unfold Unhindered; decide +kernel

theorem witness_StrapsPanelAndSideband :
    (umberActs world = true ∧ world.dom.slotIdPin ≠ .ofNat 5 31 ∧ world.dom.apexPin ≠ true) ∧
    ([true, false].all fun b => let m := onePlace (fun d => { d with vio := b, dbg := b }) world
      umberActs m && umberRuns m && m.dom.vio == b && m.dom.dbg == b) = true ∧
    ([0, 8, 12].all fun p => !List.contains [9, 10, 11] p) = true ∧ (∃ level limit : Nat, limit < level ∧ level < 4 ∧ limit = 2) ∧
    ((16 : BitVec 8).toNat ≤ 16 ∧ 16 < (16 : BitVec 8).toNat + 1 ∧ ¬ (16 < (0 : BitVec 8).toNat + 16)) :=
  ⟨by decide +kernel, by decide +kernel, by decide +kernel, ⟨3, 2, by decide⟩, by decide +kernel⟩

-- Where acceptance rests on signatures, which no proof can see: what is accepted if they verify

/-- A command with its own checks left out. -/
def lax (c : Cmd) : Cmd := { c with check := fun _ _ _ => 0 }

theorem takes_of_lax {c : Cmd} {m : Mach} {b : Box} {p : Bytes} (h : takes (lax c) m b p = true)
    (hc : c.check (c.proj m (hd b 0 p.length)) (hd b 0 p.length) p = 0) : takes c m b p = true := by
  have hj : judge c m (hd b 0 p.length) p = judge (lax c) m (hd b 0 p.length) p := by
    unfold judge
    simp only [hc]
    rfl
  simpa only [takes, hj] using h

/-- Digests: of no bytes, of 64 zero bytes, and of the content of `image0`. -/
def noneD : Bytes :=
  be 64 0x46b9dd2b0ba88d13233b3feb743eeb243fcd52ea62b81b82b50c27646ed5762fd75dc4ddd8c0f200cb05019d67b592f6fc821c49479ab48640292eacb3b7c4be
def keyD : Bytes :=
  be 64 0x7ea5f2ea9e9487de4753918bbf5308eb91fa641889236c55d708ecb4d9666a3608d79dae85e23e2beb312fedb521e82cf1a233adcd4a9c276c748becd595c409
def image0D : Bytes :=
  be 64 0x0e7674539a071964167b35b7dd43a2863eb3d67f27b0edf1150b0929f56f2b57eeeabf2ae02b083a612b9591767241a3f38139fb47c0705ebf4f5bb5219071db
def image0 : Bytes := fields [(7, 0), (1, 1), (8, 9)]
def env0 (kind tenant secver : Nat) (dig content : Bytes) : Bytes :=
  fields [(4, 0x56454E45), (1, kind), (1, tenant), (2, 1), (8, 9), (8, content.length), (4, secver), (36, 0)] ++ dig ++ le 64 0 ++
    List.replicate 29792 0 ++ content
def copy0 : Bytes :=
  fields [(4, 0x47464E43), (2, 1), (1, 1), (1, 0), (8, 1), (40, 0), (8, 0)] ++ noneD ++ le 64 0 ++ List.replicate 65344 0
/-- The module with an image staged, the zero key endorsed and held as root and owner, but no owner when firmware is installed. -/
def signed (kind : Nat) (e : Bytes) : Mach :=
  { world with sec := { world.sec with
    root := keyD
    owners := if kind = 3 then [] else [(1, .active keyD), (2, .active keyD)]
    endorsed := [(1, keyD)]
    staging := some { owner := 0, kind := kind, len := e.length, data := e } } }

/-- A role grant of every right for an hour of second 0, to the module itself. -/
def grantP : Bytes :=
  fields [(4, 0x544E5247), (2, 1), (2, 0), (4, 62), (4, 0), (8, 0), (8, 0), (8, 3600), (64, 1), (24, 0)] ++ List.replicate 29792 0
def revokeP : Bytes := fields [(1, 1), (1, 1), (1, 2), (5, 0), (64, 0)] ++ List.replicate 29792 0

theorem witness_signed_grant (hv : ∀ a b c d, Config.slhVerify a b c d = true) :
    takes sysRoleGrant (sessAs 0 (fun x => { x with cert := 1 }) (signed 0 copy0)) (.m0 0) grantP = true := by
  refine takes_of_lax (by decide +kernel) ?_
  simp only [sysRoleGrant, ownerSigned, hv]
  decide +kernel

theorem witness_signed_revocation (hv : ∀ a b c d, Config.slhVerify a b c d = true) :
    takes secOwnerSlot (signed 0 copy0) (.m0 0) revokeP = true := by
  refine takes_of_lax (by decide +kernel) ?_
  simp only [secOwnerSlot, hv]
  decide +kernel

theorem witness_signed_image (hv : ∀ a b c d, Config.slhVerify a b c d = true) :
    takes cfgImageStore (signed 2 (env0 2 1 0 image0D image0)) (.m0 0) (le 8 0) = true := by
  refine takes_of_lax (by decide +kernel) ?_
  simp only [cfgImageStore, imageSigned, hv]
  decide +kernel

theorem witness_signed_firmware (hv : ∀ a b c d, Config.slhVerify a b c d = true) :
    takes secFwInstall (signed 3 (env0 3 0 1 noneD [] ++ List.replicate approvalLen 0)) (.m0 0) (le 8 0) = true := by
  refine takes_of_lax (by decide +kernel) ?_
  simp only [secFwInstall, signedBy, hv]
  decide +kernel

/-- And a configuration that asks for no change. -/
theorem witness_signed_commit (hv : ∀ a b c d, Config.slhVerify a b c d = true) (hc : ∀ a b, Config.bodyChanges a b = []) :
    takes cfgCommit (signed 0 copy0) (.m0 0) (le 8 0) = true := by
  refine takes_of_lax (by decide +kernel) ?_
  simp only [cfgCommit, stagedStatus, copyFault, signedBy, endorsementGone, hv, hc]
  decide +kernel

-- Well-formedness: for each check a command it takes and one it refuses

theorem test_wf_box : Box.wf (.slice 64) = true ∧ Box.wf (.slice 0) = false := by decide

/-- A header's way in, LENGTH and APPLY; a message's own length is checked with them. -/
theorem test_wf_message :
    WellFormed (.timeStatus (hd (.m0 3) (2 ^ 64 - 1) (2 ^ 32 - 1)) []) = true ∧ WellFormed (.timeStatus (hd (.slice 0) 0 0) []) = false ∧
    WellFormed (.cfgCommit (hd (.m0 0) 0 (2 ^ 32)) []) = false ∧ WellFormed (.engRead (hd (.m0 0) (2 ^ 64) 0) []) = false := by
  decide +kernel

theorem test_wf_bursts :
    WellFormed (.spaBurstRead 0 511) = true ∧ WellFormed (.spaBurstRead 0 512) = false ∧ WellFormed (.spaBurstWriteAuto 0 512) = false ∧
    WellFormed (.spaBurstWriteExplicit 0 512) = false := by decide +kernel

theorem test_wf_ranges :
    WellFormed (.i2cAccess false 255 1) = true ∧ WellFormed (.i2cAccess false 255 2) = false ∧
    WellFormed (.offsetAddWrite (-2 ^ 63)) = true ∧ WellFormed (.offsetAddWrite (2 ^ 63)) = false ∧
      WellFormed (.offsetAddWrite (-2 ^ 63 - 1)) = false ∧
    WellFormed (.transceiverInsert 0 3) = true ∧ WellFormed (.transceiverInsert 0 4) = false ∧
    WellFormed (.admission (.ring 255)) = true ∧
    WellFormed (.memoryError 31 0) = true ∧ WellFormed (.memoryError 32 0) = false := by decide +kernel

theorem test_wf_tags :
    [Instr.delayRelease, .engineItemStallRelease, .sliceResetComplete, .hueMigrationSwitch, .mailboxNotify].all
      (fun c => WellFormed (c 1) && !WellFormed (c 0)) = true := by decide +kernel

theorem test_wf_frames :
    Frame.wf frame0 = true ∧ Frame.wf { frame0 with len := 17 } = false ∧ Frame.wf { frame0 with len := 2 ^ 16 } = false ∧
    Frame.wf { frame0 with etype := 2 ^ 16 } = false ∧
    WellFormed (.frameReceive 0 { rx0 0 17 true with frame := { frame0 with len := 17 } }) = false ∧
    WellFormed (.cutThrough 0 { rx0 0 17 true with frame := { frame0 with len := 17 } }) = false ∧
    WellFormed (.pfcReceive 0 1 (List.replicate 8 0)) = true ∧ WellFormed (.pfcReceive 0 1 [0]) = false ∧
    WellFormed (.livenessReceive 7 frame0) = true ∧ WellFormed (.livenessReceive 8 frame0) = false ∧
    WellFormed (.livenessReceive 0 { frame0 with len := 17 }) = false := by decide +kernel

theorem test_wf_sessions :
    [Instr.sessionOpen (.slice 5) 0, .sessionClose (.slice 5) 0, .sessionIdleTimeout (.slice 5), .segmentTimeout (.slice 0),
        .responseTimeout (.slice 0), .mailboxSegment (hd (.slice 5) 0 0) 0 [], .mailboxSegment (hd .m1 0 0) 0 (List.replicate 16353 0)].all
      (fun c => !WellFormed c) = true ∧
    [Instr.sessionOpen .m3 0, .sessionClose .m1 0, .sessionIdleTimeout .m2, .segmentTimeout (.slice 5), .responseTimeout (.m0 0),
        .mailboxSegment (hd .m1 0 0) 0 (List.replicate 16352 0)].all WellFormed = true := by
  decide +kernel

-- Results worked out from the spec

/-- The worked example of chapter 00: the instants of tick 9601 at 4800, from the start of its second. -/
theorem test_instants_of_a_tick :
    let g : Grid := { rate := 4800, s0 := 0, first := 0 }
    tickStart g 9601 = 2000208333 ∧ slotStart g 9601 16 = 2000221353 ∧ slotStart g 9601 255 = 2000415852 ∧ tickStart g 9602 = 2000416666 := by
  decide +kernel

/-- The worked example of chapter 02: slot 16 and tick 1 at 9600. -/
theorem test_instants_at_9600 :
    slotStart { rate := 9600, s0 := 0, first := 0 } 0 16 = 6510 ∧ tickStart { rate := 9600, s0 := 0, first := 0 } 1 = 104166 := by decide +kernel

/-- The worked example of chapter 04: the position q of ticks 1, 2 and 5 between samples 250 µs apart. -/
theorem test_phase_between_samples :
    phaseOf 208333 250000 = 54613 ∧ phaseOf 166666 250000 = 43690 ∧ phaseOf 41666 250000 = 10922 := by decide +kernel

/-- The lead of the same example (R92): an in-tick offset of 166 667 ns. -/
theorem test_in_tick_offset : inTickOffset 4000 4800 = 166667 ∧ inTickOffset 14400 4800 = 138889 := by decide +kernel

/-- The check values of CRC-16/CCITT-FALSE (R378, R417) and of the CRC-32 of IEEE 802.3 (R303, R468) over the digits 1 to 9. -/
theorem test_check_values :
    crc16 ((List.range 9).map fun k => BitVec.ofNat 8 (0x31 + k)) = 0x29B1 ∧
    crc32 ((List.range 9).map fun k => BitVec.ofNat 8 (0x31 + k)) = 0xCBF43926 := by decide +kernel

/-- The first bytes of SHAKE256 of nothing (FIPS 202; R482). -/
theorem test_shake256_of_nothing : (shake256 []).take 4 = be 4 0x46B9DD2B := by decide +kernel

-- Single steps

/-- What the module is after a command, if it answers a next state. -/
def after {α : Type} (m : Mach) (c : Instr) (f : Mach → α) : Option α :=
  match step ⟨m, [c]⟩ with
  | .next t => some (f t.m)
  | .fault _ => none
  | .refused _ => none

/-- No command waits: 2 ns pass, one cycle of the reference (R31). -/
theorem test_idle_takes_2_ns : ∃ t, step (st world) = .next t ∧ now t.m = now world + 2 ∧ t.m.time.tick = 100 := ⟨_, rfl, by decide +kernel⟩

/-- No word spells a command: the table gives its rows no bits. -/
theorem test_no_word_spells_a_command : decodeTableWord 32 0 = none ∧ (st world).withFetchWord 32 0 = st world := ⟨rfl, rfl⟩

/-- A tick begins in its slot 0, and the slot after slot 254 is slot 255 (R7, R8). -/
theorem test_boundaries :
    after world .tickBoundary (fun m => (m.time.tick, m.time.slot)) = some (101, 0) ∧
    after (timed fun u => { u with slot := 254 }) .slotBoundary (fun m => (m.time.tick, m.time.slot)) = some (100, 255) := by decide +kernel

/-- A read answers at once, with status 0 (R38). -/
theorem test_read_is_answered :
    after world (.timeStatus (hd (.m0 0) 0 0) []) (fun m => (tget m.mbx.sess 0).bind fun x => x.answered.map fun a => a.resp.status) =
      some (some 0) := by decide +kernel

/-- A payload too long is answered 0x0101 (R471). -/
theorem test_wrong_length_is_refused :
    after world (.timeStatus (hd (.m0 0) 0 1) [0]) (fun m => (tget m.mbx.sess 0).bind fun x => x.answered.map fun a => a.resp.status) =
      some (some 0x0101) := by decide +kernel

/-- An accepted change without an apply tick waits for tick m + 2 and is answered then; one with an apply tick is answered 0x0001 at once
(R25). -/
theorem test_change_waits_for_its_tick :
    let p := meterReq
    let seen (m : Mach) := (m.mbx.scheduled.map (·.apply), (tget m.mbx.sess 0).bind fun x => x.answered.map fun a => a.resp.status)
    after metered (.engPointSet (hd (.m0 0) 0 72) p) seen = some ([102], none) ∧
    after metered (.engPointSet (hd (.m0 0) 105 72) p) seen = some ([105], some 1) := by decide +kernel

/-- A store of a slice's code writes its own memory, low byte first; one outside its regions is a fault of the slice, and the module runs
on. -/
theorem test_memory_store :
    after (busy world) (.registerWrite 0 0x10000 0x0102030405060708) (fun m => (slcGet m 5 0x10000 8, umberRuns m)) =
      some ([8, 7, 6, 5, 4, 3, 2, 1], true) ∧
    after (busy world) (.registerWrite 0 0x20000 1) (fun m => (memRead m.mem (memKey 5 0x20000), computeRuns m)) = some (0, true) := by
  decide +kernel

/-- VIO lost is event 0x1404 (R516); ENUM_IN that goes inactive takes a worker's ENUM_OUT with it. -/
theorem test_pins :
    after world .vioLoss (fun m => (m.dom.vio, m.dom.vioSticky, m.evr.arrivals.map (·.code))) =
      some (false, true, [0x1404]) ∧
    after (chained false fun c => { c with enumOut := true }) (.enumInChange false) (fun m => (m.chn.enumIn, m.chn.enumOut)) =
      some (false, false) := by decide +kernel

/-- A frame with a bad check sequence is counted and goes no further (R267). -/
theorem test_bad_frame_is_discarded :
    after (ported (rule64 1)) (.frameReceive 0 (rx0 0x0800 100 false)) (fun m => m.net.inner.length + m.net.store.length +
      ((getPort m 0).map fun x => x.waiting.length).getD 0) = some 0 := by decide +kernel

/-- A fault of the compute domain takes it alone down, and it starts again (R13, R510). -/
theorem test_compute_fault :
    after world (.domainFault 3 0) (fun m => (umberRuns m, fabricRuns m, controlRuns m, isStarting 3 m)) = some (true, true, true, true) := by
  decide +kernel

/-- A power-fail holds the lower domains in reset while the umber domain runs (R385). -/
theorem test_power_fail :
    after world .powerFail (fun m => (umberRuns m, domState 1 m, domState 3 m, m.dom.pwrGood)) = some (true, .reset, .reset, false) := by
  decide +kernel

/-- A member that is told of a later epoch of an active partner is demoted (R433). -/
theorem test_demotion :
    after (twinAs .active fun t => { t with epoch := 4 }) (.chordHeartbeatReceive (chordP 1 2 0 5)) (fun m => m.twn.demoted) = some true ∧
    after (twinAs .active fun t => { t with epoch := 5 }) (.chordHeartbeatReceive (chordP 1 2 0 5)) (fun m => m.twn.demoted) = some false := by
  decide +kernel

/-- A worker passes a neighbour's join upward as it stands (R442). -/
theorem test_join_goes_upward :
    after (chained false id) (.chainJoinReceive (chainP 0x11 (le 8 31))) (fun m => m.net.inner.map fun f => f.frame.payload.take 80) =
      some [chainP 0x11 (le 8 31)] := by decide +kernel

end Sys2Proof.Tests
end

section
namespace Sys2Proof.Machine
open Sys2Proof

-- What is permanent (R1, R482, R495)

/-- Every command keeps what its meaning keeps (Laws/Keeps). -/
theorem exec_keeps {b : Mach} {s t : State} (h : Keeps b s.m) : ∀ i, exec i s = .next t → Keeps b t.m
  | .timeStatus _ _ => execTimeStatus_keeps h
  | .timeRate _ _ => execTimeRate_keeps h
  | .timeStep _ _ => execTimeStep_keeps h
  | .timePtpSet _ _ => execTimePtpSet_keeps h
  | .sviSubSet _ _ => execSviSubSet_keeps h
  | .sviChanSet _ _ => execSviChanSet_keeps h
  | .sviSubStatus _ _ => execSviSubStatus_keeps h
  | .rscGroupSet _ _ => execRscGroupSet_keeps h
  | .rscBankLoad _ _ => execRscBankLoad_keeps h
  | .rscSwap _ _ => execRscSwap_keeps h
  | .rscGroupStatus _ _ => execRscGroupStatus_keeps h
  | .estGroupSet _ _ => execEstGroupSet_keeps h
  | .estFreeze _ _ => execEstFreeze_keeps h
  | .estRelease _ _ => execEstRelease_keeps h
  | .estGroupStatus _ _ => execEstGroupStatus_keeps h
  | .estFrameStatus _ _ => execEstFrameStatus_keeps h
  | .slcHueSet _ _ => execSlcHueSet_keeps h
  | .slcAdmit _ _ => execSlcAdmit_keeps h
  | .slcStart _ _ => execSlcStart_keeps h
  | .slcStop _ _ => execSlcStop_keeps h
  | .slcReset _ _ => execSlcReset_keeps h
  | .slcRemove _ _ => execSlcRemove_keeps h
  | .slcResourceSetHue _ _ => execSlcResourceSetHue_keeps h
  | .slcResourceSetRegionSize _ _ => execSlcResourceSetRegionSize_keeps h
  | .slcResourceSetRingAssign _ _ => execSlcResourceSetRingAssign_keeps h
  | .slcResourceSetRingRelease _ _ => execSlcResourceSetRingRelease_keeps h
  | .slcResourceSetSwitchShare _ _ => execSlcResourceSetSwitchShare_keeps h
  | .slcResourceSetReady _ _ => execSlcResourceSetReady_keeps h
  | .slcSubSet _ _ => execSlcSubSet_keeps h
  | .slcRightsGrant _ _ => execSlcRightsGrant_keeps h
  | .slcRightsRevoke _ _ => execSlcRightsRevoke_keeps h
  | .slcMemRelease _ _ => execSlcMemRelease_keeps h
  | .slcStatus _ _ => execSlcStatus_keeps h
  | .dspLatLoad _ _ => execDspLatLoad_keeps h
  | .dspLatApply _ _ => execDspLatApply_keeps h
  | .dspLatRead _ _ => execDspLatRead_keeps h
  | .dspHandlerEnable _ _ => execDspHandlerEnable_keeps h
  | .dspHandlerDisable _ _ => execDspHandlerDisable_keeps h
  | .dspStatus _ _ => execDspStatus_keeps h
  | .sigRangeSet _ _ => execSigRangeSet_keeps h
  | .sigPubSet _ _ => execSigPubSet_keeps h
  | .sigSubSet _ _ => execSigSubSet_keeps h
  | .sigCurveSet _ _ => execSigCurveSet_keeps h
  | .sigPointRead _ _ => execSigPointRead_keeps h
  | .sigPubStatus _ _ => execSigPubStatus_keeps h
  | .sigSubStatus _ _ => execSigSubStatus_keeps h
  | .swcBufSet _ _ => execSwcBufSet_keeps h
  | .swcQueueSet _ _ => execSwcQueueSet_keeps h
  | .swcPortSet _ _ => execSwcPortSet_keeps h
  | .swcStatus _ _ => execSwcStatus_keeps h
  | .swcQueueStatus _ _ => execSwcQueueStatus_keeps h
  | .macPortSet _ _ => execMacPortSet_keeps h
  | .macRuleSet _ _ => execMacRuleSet_keeps h
  | .macPortStatus _ _ => execMacPortStatus_keeps h
  | .macRuleStatus _ _ => execMacRuleStatus_keeps h
  | .hdmaRingSet _ _ => execHdmaRingSet_keeps h
  | .hdmaRingsetSet _ _ => execHdmaRingsetSet_keeps h
  | .hdmaRingStatus _ _ => execHdmaRingStatus_keeps h
  | .lgeProgLoad _ _ => execLgeProgLoad_keeps h
  | .lgeProgExchange _ _ => execLgeProgExchange_keeps h
  | .lgeProgSet _ _ => execLgeProgSet_keeps h
  | .lgeRestartWarm _ _ => execLgeRestartWarm_keeps h
  | .lgeRestartCold _ _ => execLgeRestartCold_keeps h
  | .lgeForceSet _ _ => execLgeForceSet_keeps h
  | .lgeForceRemove _ _ => execLgeForceRemove_keeps h
  | .lgeForceList _ _ => execLgeForceList_keeps h
  | .lgeStatus _ _ => execLgeStatus_keeps h
  | .engPointSet _ _ => execEngPointSet_keeps h
  | .engPulseOutSet _ _ => execEngPulseOutSet_keeps h
  | .engPulseInSet _ _ => execEngPulseInSet_keeps h
  | .engPresetRegister _ _ => execEngPresetRegister_keeps h
  | .engPresetPulseInput _ _ => execEngPresetPulseInput_keeps h
  | .engRead _ _ => execEngRead_keeps h
  | .engIoRead _ _ => execEngIoRead_keeps h
  | .umbStreamSet _ _ => execUmbStreamSet_keeps h
  | .umbElemSet _ _ => execUmbElemSet_keeps h
  | .umbTripSet _ _ => execUmbTripSet_keeps h
  | .umbPubSet _ _ => execUmbPubSet_keeps h
  | .umbConfigSet _ _ => execUmbConfigSet_keeps h
  | .umbStatus _ _ => execUmbStatus_keeps h
  | .evrRead _ _ => execEvrRead_keeps h
  | .evrCodeSet _ _ => execEvrCodeSet_keeps h
  | .evrClear _ _ => execEvrClear_keeps h
  | .evrInfo _ _ => execEvrInfo_keeps h
  | .twnPairSet _ _ => execTwnPairSet_keeps h
  | .twnQuotaSet _ _ => execTwnQuotaSet_keeps h
  | .twnSwitch _ _ => execTwnSwitch_keeps h
  | .twnStatus _ _ => execTwnStatus_keeps h
  | .chnEnumerate _ _ => execChnEnumerate_keeps h
  | .chnPlace _ _ => execChnPlace_keeps h
  | .chnStatus _ _ => execChnStatus_keeps h
  | .chnCap _ _ => execChnCap_keeps h
  | .sysIdent _ _ => execSysIdent_keeps h
  | .sysStatus _ _ => execSysStatus_keeps h
  | .sysHoldoffSet _ _ => execSysHoldoffSet_keeps h
  | .sysRestartCold _ _ => execSysRestartCold_keeps h
  | .sysRestartModule _ _ => execSysRestartModule_keeps h
  | .sysRestartCompute _ _ => execSysRestartCompute_keeps h
  | .sysRestartSleep _ _ => execSysRestartSleep_keeps h
  | .sysRestartSleepFabric _ _ => execSysRestartSleepFabric_keeps h
  | .sysRoleGrant _ _ => execSysRoleGrant_keeps h
  | .sysCapRead _ _ => execSysCapRead_keeps h
  | .cfgStageOpen _ _ => execCfgStageOpen_keeps h
  | .cfgStageWrite _ _ => execCfgStageWrite_keeps h
  | .cfgStageDiscard _ _ => execCfgStageDiscard_keeps h
  | .cfgCommit _ _ => execCfgCommit_keeps h
  | .cfgImageStore _ _ => execCfgImageStore_keeps h
  | .cfgImageDelete _ _ => execCfgImageDelete_keeps h
  | .cfgExport _ _ => execCfgExport_keeps h
  | .cfgStatus _ _ => execCfgStatus_keeps h
  | .secOwnerSlotProgram _ _ => execSecOwnerSlotProgram_keeps h
  | .secOwnerSlotRevoke _ _ => execSecOwnerSlotRevoke_keeps h
  | .secKeyLoad _ _ => execSecKeyLoad_keeps h
  | .secTlsAnchorSet _ _ => execSecTlsAnchorSet_keeps h
  | .secTlsAnchorClear _ _ => execSecTlsAnchorClear_keeps h
  | .secTlsModuleCert _ _ => execSecTlsModuleCert_keeps h
  | .secTlsReadPublicKey _ _ => execSecTlsReadPublicKey_keeps h
  | .secFwInstall _ _ => execSecFwInstall_keeps h
  | .secAttest _ _ => execSecAttest_keeps h
  | .secStatus _ _ => execSecStatus_keeps h
  | .slwTimeSRead _ => execSlwTimeSRead_keeps h
  | .dspFetch _ => execDspFetch_keeps h
  | .dspSubmit _ _ => execDspSubmit_keeps h
  | .dspCancel _ _ => execDspCancel_keeps h
  | .spaRead _ => execSpaRead_keeps h
  | .spaWriteAuto _ => execSpaWriteAuto_keeps h
  | .spaWriteExplicit _ => execSpaWriteExplicit_keeps h
  | .spaBurstRead _ _ => execSpaBurstRead_keeps h
  | .spaBurstWriteAuto _ _ => execSpaBurstWriteAuto_keeps h
  | .spaBurstWriteExplicit _ _ => execSpaBurstWriteExplicit_keeps h
  | .rdbTail _ _ _ => execRdbTail_keeps h
  | .rdbHeadRead _ _ => execRdbHeadRead_keeps h
  | .mbxTakeRequest _ => execMbxTakeRequest_keeps h
  | .mbxNextResponse _ => execMbxNextResponse_keeps h
  | .mbxAbandon _ => execMbxAbandon_keeps h
  | .mbxStatusRead _ => execMbxStatusRead_keeps h
  | .evrCursor _ _ => execEvrCursor_keeps h
  | .registerWrite _ _ _ => execRegisterWrite_keeps h
  | .i2cAccess _ _ _ => execI2cAccess_keeps h
  | .incrementWrite _ => execIncrementWrite_keeps h
  | .offsetAddWrite _ => execOffsetAddWrite_keeps h
  | .tickBoundary => execTickBoundary_keeps h
  | .slotBoundary => execSlotBoundary_keeps h
  | .delayRelease _ => execDelayRelease_keeps h
  | .windowOverrunAbort _ => execWindowOverrunAbort_keeps h
  | .windowCommit _ => execWindowCommit_keeps h
  | .handlerFault _ _ => execHandlerFault_keeps h
  | .scheduledChangeApply => execScheduledChangeApply_keeps h
  | .leapSecond => execLeapSecond_keeps h
  | .ptpMessageReceive _ _ => execPtpMessageReceive_keeps h
  | .masterLoss => execMasterLoss_keeps h
  | .holdoverLimitExpire => execHoldoverLimitExpire_keeps h
  | .frameReceive _ _ => execFrameReceive_keeps h
  | .cutThrough _ _ => execCutThrough_keeps h
  | .admission _ => execAdmission_keeps h
  | .pauseResend _ => execPauseResend_keeps h
  | .pauseReceive _ _ => execPauseReceive_keeps h
  | .pfcReceive _ _ _ => execPfcReceive_keeps h
  | .pauseTimerExpire _ _ => execPauseTimerExpire_keeps h
  | .pauseStorm _ _ => execPauseStorm_keeps h
  | .pauseStormPeriodEnd _ _ => execPauseStormPeriodEnd_keeps h
  | .macTransmitStart _ => execMacTransmitStart_keeps h
  | .launchHoldGuard _ => execLaunchHoldGuard_keeps h
  | .launch _ => execLaunch_keeps h
  | .preemptVerify _ _ => execPreemptVerify_keeps h
  | .linkUp _ => execLinkUp_keeps h
  | .linkDown _ => execLinkDown_keeps h
  | .transceiverInsert _ _ => execTransceiverInsert_keeps h
  | .svFrameIngest => execSvFrameIngest_keeps h
  | .assembly => execAssembly_keeps h
  | .recoveryExit _ => execRecoveryExit_keeps h
  | .freezeEnd _ => execFreezeEnd_keeps h
  | .trackingLost _ => execTrackingLost_keeps h
  | .comparatorTransition _ _ => execComparatorTransition_keeps h
  | .gooseRetransmit _ => execGooseRetransmit_keeps h
  | .gooseReceive => execGooseReceive_keeps h
  | .gooseSupervisionExpire _ => execGooseSupervisionExpire_keeps h
  | .logicCycleBoundary _ => execLogicCycleBoundary_keeps h
  | .logicExecutionPeriod => execLogicExecutionPeriod_keeps h
  | .ringReceiveDelivery _ => execRingReceiveDelivery_keeps h
  | .ringHoldExpire _ => execRingHoldExpire_keeps h
  | .ringTransmitRead _ => execRingTransmitRead_keeps h
  | .ringTransmitComplete _ => execRingTransmitComplete_keeps h
  | .ringCompletionPost _ => execRingCompletionPost_keeps h
  | .engineItemStallRelease _ => execEngineItemStallRelease_keeps h
  | .energyIncrementApply => execEnergyIncrementApply_keeps h
  | .pulseOutStart _ => execPulseOutStart_keeps h
  | .pulseOutEnd _ => execPulseOutEnd_keeps h
  | .pulseInEdge _ => execPulseInEdge_keeps h
  | .phaseSequenceChange _ => execPhaseSequenceChange_keeps h
  | .missingNeutralChange _ => execMissingNeutralChange_keeps h
  | .periodicSave => execPeriodicSave_keeps h
  | .umberSvReceive => execUmberSvReceive_keeps h
  | .umberStreamTimeout _ => execUmberStreamTimeout_keeps h
  | .healthWordReceive => execHealthWordReceive_keeps h
  | .healthWordAbsent => execHealthWordAbsent_keeps h
  | .tripOutMinTimeExpire _ => execTripOutMinTimeExpire_keeps h
  | .umberGooseRetransmit _ => execUmberGooseRetransmit_keeps h
  | .powerFail => execPowerFail_keeps h
  | .powerFailSequenceComplete => execPowerFailSequenceComplete_keeps h
  | .mainOvervoltage => execMainOvervoltage_keeps h
  | .mainPowerReturn => execMainPowerReturn_keeps h
  | .holdLoss => execHoldLoss_keeps h
  | .holdRegain => execHoldRegain_keeps h
  | .vioLoss => execVioLoss_keeps h
  | .vioReturn => execVioReturn_keeps h
  | .resetInRelease => execResetInRelease_keeps h
  | .resetInLong => execResetInLong_keeps h
  | .strapChange _ _ => execStrapChange_keeps h
  | .thermalWarningAssert _ => execThermalWarningAssert_keeps h
  | .thermalWarningDeassert => execThermalWarningDeassert_keeps h
  | .thermalShutdown => execThermalShutdown_keeps h
  | .thermalRecover => execThermalRecover_keeps h
  | .memoryError _ word => execMemoryError_keeps (a1 := word) h
  | .domainFault _ _ => execDomainFault_keeps h
  | .restartEffective => execRestartEffective_keeps h
  | .wake => execWake_keeps h
  | .domainStartComplete _ => execDomainStartComplete_keeps h
  | .startPhaseTimeout _ => execStartPhaseTimeout_keeps h
  | .startRetry _ => execStartRetry_keeps h
  | .dispatcherReady => execDispatcherReady_keeps h
  | .fwStartTimeout => execFwStartTimeout_keeps h
  | .sliceFillComplete => execSliceFillComplete_keeps h
  | .sliceResetComplete _ => execSliceResetComplete_keeps h
  | .hueMigrationSwitch _ => execHueMigrationSwitch_keeps h
  | .eventRecordStage => execEventRecordStage_keeps h
  | .suppressionSummary _ => execSuppressionSummary_keeps h
  | .stagingFlush => execStagingFlush_keeps h
  | .eventFlashMove _ => execEventFlashMove_keeps h
  | .eventImageEnter => execEventImageEnter_keeps h
  | .evrWindowFillComplete _ => execEvrWindowFillComplete_keeps h
  | .chordHeartbeatSend => execChordHeartbeatSend_keeps h
  | .chordHeartbeatReceive _ => execChordHeartbeatReceive_keeps h
  | .arcWordSend => execArcWordSend_keeps h
  | .arcWordReceive _ => execArcWordReceive_keeps h
  | .livenessSend => execLivenessSend_keeps h
  | .livenessReceive _ _ => execLivenessReceive_keeps h
  | .pathLost _ => execPathLost_keeps h
  | .bothPathsLost => execBothPathsLost_keeps h
  | .livenessAbsent => execLivenessAbsent_keeps h
  | .startingListenEnd => execStartingListenEnd_keeps h
  | .mirrorSend => execMirrorSend_keeps h
  | .mirrorFrameReceive _ => execMirrorFrameReceive_keeps h
  | .mirrorIncomplete => execMirrorIncomplete_keeps h
  | .resyncCopySend => execResyncCopySend_keeps h
  | .resyncCopyReceive _ => execResyncCopyReceive_keeps h
  | .twinSelfTest _ => execTwinSelfTest_keeps h
  | .twinHealthReport => execTwinHealthReport_keeps h
  | .enumerationStart => execEnumerationStart_keeps h
  | .enumInChange _ => execEnumInChange_keeps h
  | .chainOfferReceive _ => execChainOfferReceive_keeps h
  | .chainJoinReceive _ => execChainJoinReceive_keeps h
  | .chainEndReceive _ => execChainEndReceive_keeps h
  | .chainJoinTimeout => execChainJoinTimeout_keeps h
  | .neighbourSend => execNeighbourSend_keeps h
  | .chainLinkLost _ => execChainLinkLost_keeps h
  | .chainLinkRestored _ => execChainLinkRestored_keeps h
  | .secondApexOffer _ => execSecondApexOffer_keeps h
  | .relayRequestReceive _ => execRelayRequestReceive_keeps h
  | .relayResponseReceive _ => execRelayResponseReceive_keeps h
  | .relayTimeout => execRelayTimeout_keeps h
  | .inDoubtResolve => execInDoubtResolve_keeps h
  | .healthFrameSend => execHealthFrameSend_keeps h
  | .healthFrameReceive _ => execHealthFrameReceive_keeps h
  | .sessionOpen _ _ => execSessionOpen_keeps h
  | .sessionClose _ _ => execSessionClose_keeps h
  | .sessionIdleTimeout _ => execSessionIdleTimeout_keeps h
  | .mailboxSegment _ _ _ => execMailboxSegment_keeps h
  | .segmentTimeout _ => execSegmentTimeout_keeps h
  | .responseTimeout _ => execResponseTimeout_keeps h
  | .m2SegmentRetry => execM2SegmentRetry_keeps h
  | .mailboxNotify _ => execMailboxNotify_keeps h
  | .cfgCopyWritten _ => execCfgCopyWritten_keeps h
  | .cfgCommitDeadline => execCfgCommitDeadline_keeps h
  | .cfgCommitApply => execCfgCommitApply_keeps h
  | .attestSignComplete => execAttestSignComplete_keeps h
  | .umberStatusFrame => execUmberStatusFrame_keeps h
  | .memoryErrorClear => execMemoryErrorClear_keeps h
  | .umberSupplyLost => execUmberSupplyLost_keeps h
  | .dbgPresentChange _ => execDbgPresentChange_keeps h
  | .ptpMessageSend => execPtpMessageSend_keeps h
  | .neighbourFrameReceive _ _ => execNeighbourFrameReceive_keeps h

/-- A step keeps what every operation keeps, whether it idles or carries out a command. -/
theorem step_keeps {s t : State} (e : step s = .next t) : Keeps s.m t.m := by
  unfold step at e
  split at e
  · cases e
    exact passCycles_keeps (.refl _)
  · refine exec_keeps ?_ _ e
    exact .refl s.m

/-- Settles O4: identity, root key, security version, reference count and owner slots are among what every step keeps. -/
theorem nothingUndoesWhatIsPermanent : Obligations.NothingUndoesWhatIsPermanent := by
  intro s t e
  have k := step_keeps e
  exact ⟨k.ident, k.root, k.secver, k.ref, k.owners.1, k.owners.2⟩

end Sys2Proof.Machine
end

section
namespace Sys2Proof.Machine
open Sys2Proof

-- Frames of a store

theorem onCpu_only (f : Compute → Compute) (m : Mach) : Only [.cpu] m (onCpu f m) := by
  intro p hp
  cases p
  case cpu => simp at hp
  case mem => exact fun _ => rfl
  all_goals rfl

theorem onTwn_only (f : Twin → Twin) (m : Mach) : Only [.twn] m (onTwn f m) := by
  intro p hp
  cases p
  case twn => simp at hp
  case mem => exact fun _ => rfl
  all_goals rfl

theorem withBytes_only (a : Nat) (b : Bytes) (m : Mach) : Only [.mem] m (withBytes a b m) := by
  intro p hp
  cases p
  case mem => simp at hp
  all_goals rfl

theorem onSlice_only (t : Nat) (f : Slice → Slice) (m : Mach) : Only [.cpu] m (onSlice t f m) := by
  unfold onSlice
  split
  · exact Only.refl _ _
  · exact onCpu_only _ _

-- Pages of a migrating slice and lines of a mirrored region that a store touches (R171, R426)

theorem markPages_only (tag va n : Nat) (m : Mach) : Only [.cpu] m (markPages tag va n m) := by
  unfold markPages
  split
  · exact Only.refl _ _
  · split
    · exact Only.refl _ _
    · exact onSlice_only _ _ _

@[simp] theorem markPages_mem (tag va n : Nat) (m : Mach) : (markPages tag va n m).mem = m.mem := by
  unfold markPages onSlice
  repeat' split
  all_goals rfl

@[simp] theorem markPages_twn (tag va n : Nat) (m : Mach) : (markPages tag va n m).twn = m.twn :=
  markPages_only tag va n m .twn (by decide)

/-- Which pages are marked rests on the slice and its fills, not on what memory holds. -/
theorem markPages_withBytes_cpu (tag va n a : Nat) (b : Bytes) (m : Mach) :
    (markPages tag va n (withBytes a b m)).cpu = (markPages tag va n m).cpu := by
  unfold markPages onSlice
  simp only [getSlice, withBytes]
  repeat' split
  all_goals rfl

theorem markPages_of_still {tag va n : Nat} {m : Mach} {x : Slice} (hx : tget m.cpu.slices tag = some x) (hm : x.migration = none) :
    markPages tag va n m = m := by
  simp [markPages, getSlice, hx, hm]

theorem noteLines_off {run : Running} {t va n : Nat} {x : Slice} {m : Mach} (h : m.twn.cfg.on = false) :
    noteLines run t x va n m = markPages t va n m := by
  simp [noteLines, h]

/-- What a store notes is the pages it marks, and in the twin unit the lines it makes dirty. -/
theorem noteLines_notes (run : Running) (t va n : Nat) (x : Slice) (m : Mach) :
    Only [.cpu, .twn] m (noteLines run t x va n m) ∧ (noteLines run t x va n m).cpu = (markPages t va n m).cpu ∧
      (noteLines run t x va n m).mem = m.mem := by
  unfold noteLines
  dsimp only
  split
  · exact ⟨Only.trans (markPages_only t va n m) (onTwn_only _ _), rfl, markPages_mem t va n m⟩
  · exact ⟨Only.mono (markPages_only t va n m) (by decide), rfl, markPages_mem t va n m⟩

-- REGISTER_WRITE by where it reaches (R5, R148, R173)

section
variable {s : State} {core : Fin 32} {va v : BitVec 64} {r : Running} (hr : coreRun s.m core = some r)
include hr

section
variable (hin : 0xF0000 ≤ va.toNat ∧ va.toNat < 0x100000)
include hin

theorem exec_registerWrite_window : exec (.registerWrite core va v) s =
    runOn s fun m => if va.toNat % 8 = 0 then writeWindow core r.tag (va.toNat - 0xF0000) v m else faultItem core va.toNat m := by
  show execRegisterWrite core va v s = _
  rw [execRegisterWrite, runOn_next, hr, runOn_next]
  congr 2
  exact if_pos hin

theorem registerWrite_register {off : Nat} (hoff : va.toNat - 0xF0000 = off) (h8 : off % 8 = 0) :
    Makes (.registerWrite core va v) s (writeWindow core r.tag off v s.m) := by
  have ha : va.toNat % 8 = 0 := by omega
  rw [Makes, exec_registerWrite_window hr hin, runOn_next, if_pos ha, hoff]

theorem registerWrite_misaligned (h8 : va.toNat % 8 ≠ 0) : exec (.registerWrite core va v) s = exec (.handlerFault core va) s := by
  rw [exec_registerWrite_window hr hin, runOn_next, if_neg h8]
  rfl

/-- A register that a row of its own writes acts as that row. -/
theorem registerWrite_row {c : Instr} {off : Nat} {f : Mach → Mach} (hoff : va.toNat - 0xF0000 = off) (h8 : off % 8 = 0)
    (hc : exec c s = runOn s f) (hw : writeWindow core r.tag off v s.m = f s.m) : exec (.registerWrite core va v) s = exec c s := by
  rw [hc, runOn_next, ← hw]
  exact registerWrite_register hr hin hoff h8

end

variable {x : Slice} (hx : tget s.m.cpu.slices r.tag = some x) (hout : ¬ (0xF0000 ≤ va.toNat ∧ va.toNat < 0x100000))
include hx hout

theorem exec_registerWrite_outside : exec (.registerWrite core va v) s = runOn s fun m =>
    if spanOk x va.toNat 8 1 then noteLines r r.tag x va.toNat 8 (withBytes (memKey r.tag va.toNat) (le 8 v.toNat) m)
    else faultItem core va.toNat m := by
  show execRegisterWrite core va v s = _
  rw [execRegisterWrite, runOn_next, hr, runOn_next]
  congr 2
  refine (if_neg hout).trans ?_
  rw [getSlice, hx]
  rfl

theorem registerWrite_refused (hok : spanOk x va.toNat 8 1 = false) :
    exec (.registerWrite core va v) s = exec (.handlerFault core va) s := by
  rw [exec_registerWrite_outside hr hx hout, hok]
  rfl

theorem registerWrite_memory (hok : spanOk x va.toNat 8 1 = true) : Makes (.registerWrite core va v) s
    (noteLines r r.tag x va.toNat 8 (withBytes (memKey r.tag va.toNat) (le 8 v.toNat) s.m)) := by
  rw [Makes, exec_registerWrite_outside hr hx hout, hok]
  rfl

end

-- The access registers of the signal table (R222, R223, R225)

@[simp] theorem getSpa_withSpa (core tag : Nat) (y : Spa) (m : Mach) : getSpa (withSpa core tag y m) core tag = y := by
  simp [getSpa, withSpa, tgetD]

/-- What a set of access registers shows in a register of the window that reads one of them. -/
def spaShown (y : Spa) : WinReg → BitVec 64
  | .spaIndex => y.index
  | .spaValue => y.value
  | .spaMeta => y.meta_
  | .spaSec => y.sec
  | .spaStatus => y.status.setWidth 64
  | .spaBurstStatus => .ofNat 64 (y.burstStatus.toNat * 2 ^ 56 + y.burstDone)
  | _ => 0

/-- Of a store to the access registers a read shows what they hold then, where it reads them, and else what it did. -/
theorem readReg_withSpa (core : Fin 32) (r : Running) (y : Spa) (m : Mach) (w : WinReg) :
    readReg (withSpa core r.tag y m) core r w = spaShown y w ∧ readReg m core r w = spaShown (getSpa m core r.tag) w ∨
      readReg (withSpa core r.tag y m) core r w = readReg m core r w := by
  cases w
  case spaIndex | spaValue | spaMeta | spaSec | spaStatus | spaBurstStatus => exact .inl ⟨by simp [readReg, spaShown], rfl⟩
  all_goals exact .inr rfl

/-- A register that shows the same of both sets of access registers reads as it did. -/
theorem readReg_withSpa_same {core : Fin 32} {r : Running} {y : Spa} {m : Mach} {w : WinReg}
    (h : spaShown y w = spaShown (getSpa m core r.tag) w) : readReg (withSpa core r.tag y m) core r w = readReg m core r w := by
  rcases readReg_withSpa core r y m w with ⟨new, old⟩ | same
  · rw [new, old, h]
  · exact same

/-- The access registers that a store writes and nothing more happens, each by its offset (R222). -/
def spaFields : List (Nat × WinReg) :=
  [(0x2000, .spaIndex), (0x2008, .spaValue), (0x2010, .spaMeta), (0x2018, .spaSec), (0x2040, .spaBurstList), (0x2048, .spaBurstBuf)]

/-- The access registers after a store to one of them. -/
def spaStored (v : BitVec 64) (y : Spa) : WinReg → Spa
  | .spaIndex => { y with index := .ofNat 64 (v.toNat % 2 ^ 23) }
  | .spaValue => { y with value := v }
  | .spaMeta => { y with meta_ := v }
  | .spaSec => { y with sec := .ofNat 64 (v.toNat % 2 ^ 32) }
  | .spaBurstList => { y with list := v }
  | .spaBurstBuf => { y with buf := v }
  | _ => y

theorem spaShown_spaStored_other {v : BitVec 64} {y : Spa} {reg w : WinReg} (h : w ≠ reg) :
    spaShown (spaStored v y reg) w = spaShown y w := by
  revert h
  cases reg
  case spaIndex | spaValue | spaMeta | spaSec | spaBurstList | spaBurstBuf => cases w <;> simp [spaStored, spaShown]
  all_goals exact fun _ => rfl

theorem winRegAt_spaFields {off : Nat} {reg : WinReg} (h : (off, reg) ∈ spaFields) : winRegAt off = some reg := by
  simp only [spaFields, List.mem_cons, Prod.mk.injEq, List.not_mem_nil, or_false] at h
  rcases h with ⟨rfl, rfl⟩ | ⟨rfl, rfl⟩ | ⟨rfl, rfl⟩ | ⟨rfl, rfl⟩ | ⟨rfl, rfl⟩ | ⟨rfl, rfl⟩ <;> rfl

theorem writeWindow_spaFields {off : Nat} {reg : WinReg} (h : (off, reg) ∈ spaFields) (core : Fin 32) (t : Nat) (v : BitVec 64) (m : Mach) :
    off % 8 = 0 ∧ writeWindow core t off v m = withSpa core t (spaStored v (getSpa m core t) reg) m := by
  simp only [spaFields, List.mem_cons, Prod.mk.injEq, List.not_mem_nil, or_false] at h
  rcases h with ⟨rfl, rfl⟩ | ⟨rfl, rfl⟩ | ⟨rfl, rfl⟩ | ⟨rfl, rfl⟩ | ⟨rfl, rfl⟩ | ⟨rfl, rfl⟩ <;> exact ⟨rfl, rfl⟩

/-- The request buffer takes its bytes (R464). -/
theorem writeWindow_buffer {off : Nat} (h : 0x4000 ≤ off ∧ off < 0x8000) (core : Fin 32) (t : Nat) (v : BitVec 64) (m : Mach) :
    writeWindow core t off v m = withBytes (boxKey t off) (le 8 v.toNat) m := by
  rw [writeWindow, if_pos h]
  rfl

/-- A register that can only be read takes no value (R6). -/
theorem writeWindow_readOnly {off : Nat}
    (h : off = 0x0110 ∨ off = 0x0120 ∨ off = 0x0128 ∨ off = 0x0808 ∨ off = 0x0C08 ∨ off = 0x2028 ∨ off = 0x2058)
    (core : Fin 32) (t : Nat) (v : BitVec 64) (m : Mach) :
    off % 8 = 0 ∧ writeWindow core t off v m = withSpa core t (getSpa m core t) m := by
  rcases h with rfl | rfl | rfl | rfl | rfl | rfl | rfl <;> exact ⟨rfl, rfl⟩

/-- A register that only takes writes reads zero (R6). -/
theorem readReg_writeOnly {off : Nat} (h : off = 0x0108 ∨ off = 0x0118 ∨ off = 0x0800 ∨ off = 0x2020 ∨ off = 0x2050)
    (m : Mach) (core : Fin 32) (r : Running) : (winRegAt off).map (readReg m core r) = some 0 := by
  rcases h with rfl | rfl | rfl | rfl | rfl <;> rfl

section
variable {s : State} {core : Fin 32} {va v : BitVec 64} {r : Running} {off : Nat} (hr : coreRun s.m core = some r)
  (hin : 0xF0000 ≤ va.toNat ∧ va.toNat < 0x100000) (hoff : va.toNat - 0xF0000 = off)
include hr hin hoff

theorem registerWrite_spaField {reg : WinReg} (h : (off, reg) ∈ spaFields) :
    Makes (.registerWrite core va v) s (withSpa core r.tag (spaStored v (getSpa s.m core r.tag) reg) s.m) := by
  obtain ⟨h8, hw⟩ := writeWindow_spaFields h core r.tag v s.m
  exact Makes.of (registerWrite_register hr hin hoff h8) hw

theorem registerWrite_readOnly
    (h : off = 0x0110 ∨ off = 0x0120 ∨ off = 0x0128 ∨ off = 0x0808 ∨ off = 0x0C08 ∨ off = 0x2028 ∨ off = 0x2058) :
    ∃ t, Makes (.registerWrite core va v) s t ∧ ∀ w, readReg t core r w = readReg s.m core r w := by
  obtain ⟨h8, hw⟩ := writeWindow_readOnly h core r.tag v s.m
  exact ⟨_, Makes.of (registerWrite_register hr hin hoff h8) hw, fun w => readReg_withSpa_same rfl⟩

end

/-- Settles O17: REGISTER_WRITE by where its address lies, and the registers by what a store leaves in them. -/
theorem storesReachMemoryOrWindow : Obligations.StoresReachMemoryOrWindow := by
  intro s core va v r x hr hx a inside off c spa faultOf
  have field (reg : WinReg) (o : Nat) (h : (o, reg) ∈ spaFields) (hin : inside) (ho : off = o) :
      Makes c s (withSpa core r.tag (spaStored v spa reg) s.m) := registerWrite_spaField hr hin ho h
  refine ⟨fun hout hok hoff hmig => ?still, fun hout hok => ?memory, registerWrite_refused hr hx, registerWrite_misaligned hr,
    fun hin h8 hlo hhi => ?buffer,
    field .spaIndex _ (by simp [spaFields]), field .spaValue _ (by simp [spaFields]), field .spaMeta _ (by simp [spaFields]),
    field .spaSec _ (by simp [spaFields]), field .spaBurstList _ (by simp [spaFields]), field .spaBurstBuf _ (by simp [spaFields]),
    fun hin reg last hmem => ?readBack, fun _ ho => readReg_writeOnly ho s.m core r, fun hin ho => registerWrite_readOnly hr hin rfl ho,
    fun hin ho => registerWrite_row hr hin ho rfl rfl rfl, fun hin ho => registerWrite_row hr hin ho rfl rfl rfl,
    fun hin ho hop => ?doorbell, fun hin ho => registerWrite_row hr hin ho rfl rfl rfl⟩
  case still =>
    exact Makes.of (registerWrite_memory hr hx hout hok) ((noteLines_off (m := withBytes _ _ s.m) hoff).trans (markPages_of_still hx hmig))
  case memory =>
    obtain ⟨only, hcpu, hmem⟩ := noteLines_notes r r.tag a 8 x (withBytes (memKey r.tag a) (le 8 v.toNat) s.m)
    exact ⟨_, registerWrite_memory hr hx hout hok, Only.mono (Only.trans (withBytes_only _ _ _) only) (by decide),
      hcpu.trans (markPages_withBytes_cpu ..), hmem⟩
  case buffer =>
    have hoff : off % 8 = 0 := by omega
    exact Makes.of (registerWrite_register hr hin rfl hoff) (writeWindow_buffer ⟨hlo, hhi⟩ ..)
  case readBack =>
    simp only [List.mem_cons, Prod.mk.injEq, List.not_mem_nil, or_false] at hmem
    obtain ⟨hreg, hlast⟩ : (off, reg) ∈ spaFields ∧ readReg (withSpa core r.tag (spaStored v spa reg) s.m) core r reg = last := by
      rcases hmem with ⟨ho, rfl, rfl⟩ | ⟨ho, rfl, rfl⟩ | ⟨ho, rfl, rfl⟩ | ⟨ho, rfl, rfl⟩ | ⟨ho, rfl, rfl⟩ | ⟨ho, rfl, rfl⟩ <;>
        exact ⟨by simp [ho, spaFields], by simp [readReg, spaStored]⟩
    exact ⟨winRegAt_spaFields hreg, _, field reg off hreg hin rfl, hlast, fun w hw => readReg_withSpa_same (spaShown_spaStored_other hw)⟩
  case doorbell =>
    have hw : writeWindow core r.tag 0x0800 v s.m = moduleAfter (execMbxTakeRequest core) s.m := if_pos hop
    exact registerWrite_row (f := moduleAfter (execMbxTakeRequest core)) hr hin ho rfl rfl hw

end Sys2Proof.Machine
end

section
namespace Sys2Proof.Machine
open Sys2Proof

-- The grid (R7 to R9)

/-- Whole multiples of a period of at least one unit, rounded down to units, rise strictly. -/
theorem mul_div_lt_mul_div {c d i j : Nat} (hd : 0 < d) (h : d ≤ c) (hij : i < j) : i * c / d < j * c / d := by
  have room : i * c + d ≤ j * c :=
    calc i * c + d ≤ i * c + c := Nat.add_le_add_left h _
      _ = (i + 1) * c := (Nat.succ_mul i c).symm
      _ ≤ j * c := Nat.mul_le_mul_right c hij
  calc i * c / d < i * c / d + 1 := Nat.lt_succ_self _
    _ = (i * c + d) / d := (Nat.add_div_right _ hd).symm
    _ ≤ j * c / d := Nat.div_le_div_right room

/-- T(n) in one division: n periods after the grid's second of origin. -/
theorem tickStart_eq {g : Grid} (hr : 0 < g.rate) (n : Tick) : tickStart g n = g.s0 * nsPerSec + n * nsPerSec / g.rate := by
  have split : n * nsPerSec = n % g.rate * nsPerSec + g.rate * (n / g.rate * nsPerSec) := by
    rw [← Nat.mul_assoc, ← Nat.add_mul, Nat.mod_add_div]
  rw [split, Nat.add_mul_div_left _ _ hr]
  unfold tickStart
  rw [Nat.add_mul, Nat.add_assoc, Nat.add_comm (n / g.rate * nsPerSec)]

theorem tickStart_lt {g : Grid} (hr : 0 < g.rate) (hn : g.rate ≤ nsPerSec) {a b : Tick} (hab : a < b) : tickStart g a < tickStart g b := by
  rw [tickStart_eq hr, tickStart_eq hr]
  exact Nat.add_lt_add_left (mul_div_lt_mul_div hr hn hab) _

theorem lt_of_tickStart_lt {g : Grid} (hr : 0 < g.rate) (hn : g.rate ≤ nsPerSec) {a b : Tick} (h : tickStart g a < tickStart g b) :
    a < b := by
  refine Nat.lt_of_not_le fun hba => ?_
  rcases Nat.eq_or_lt_of_le hba with rfl | hlt
  · exact Nat.lt_irrefl _ h
  · exact Nat.lt_asymm h (tickStart_lt hr hn hlt)

/-- A tick holds 256 slots: the instant that slot 256 would begin at is the next tick's, or earlier. -/
theorem slotStart_le_next_tick {g : Grid} (hr : 0 < g.rate) (n : Tick) : slotStart g n 256 ≤ tickStart g (n + 1) := by
  unfold slotStart
  rw [Nat.mul_comm g.rate, Nat.mul_div_mul_left _ _ (by decide : 0 < 256), tickStart_eq hr, tickStart_eq hr, Nat.add_assoc, Nat.add_mul,
    Nat.one_mul]
  exact Nat.add_le_add_left Nat.div_add_div_le_add_div _

theorem slotStart_lt {g : Grid} (hr : 0 < g.rate) (hn : g.rate * 256 ≤ nsPerSec) (n : Tick) {j k : Nat} (hjk : j < k) :
    slotStart g n j < slotStart g n k :=
  Nat.add_lt_add_left (mul_div_lt_mul_div (Nat.mul_pos hr (by decide)) hn hjk) _

@[simp] theorem slotStart_zero (g : Grid) (n : Tick) : slotStart g n 0 = tickStart g n := by
  rw [slotStart, Nat.zero_mul, Nat.zero_div, Nat.add_zero]

/-- What R9 counts first, whole seconds and the part of the last one, is the periods since the second of origin. -/
theorem ticksSince_eq {s0 r t : Nat} (ht : s0 * nsPerSec ≤ t) :
    (t / nsPerSec - s0) * r + t % nsPerSec * r / nsPerSec = (t - s0 * nsPerSec) * r / nsPerSec := by
  have hs : s0 ≤ t / nsPerSec := (Nat.le_div_iff_mul_le (by decide)).2 ht
  have split : (t - s0 * nsPerSec) * r = t % nsPerSec * r + nsPerSec * ((t / nsPerSec - s0) * r) := by
    have h := Nat.mod_add_div t nsPerSec
    rw [← Nat.mul_assoc, ← Nat.add_mul, Nat.mul_sub, Nat.mul_comm s0]
    congr 1
    have := Nat.mul_le_mul_left nsPerSec hs
    omega
  rw [split, Nat.add_mul_div_left _ _ (by decide), Nat.add_comm]

/-- An instant from the second of origin on lies between the starts of its tick and of the next (R9). -/
theorem tickOf_bounds {g : Grid} {t : Ns} (hr : 0 < g.rate) (hn : g.rate ≤ nsPerSec) (ht : g.s0 * nsPerSec ≤ t) :
    tickStart g (tickOf g t) ≤ t ∧ t < tickStart g (tickOf g t + 1) := by
  have hs : ¬ t / nsPerSec < g.s0 := Nat.not_lt.2 ((Nat.le_div_iff_mul_le (by decide)).2 ht)
  unfold tickOf
  simp only [hs, if_false, ticksSince_eq ht]
  generalize hu : t - g.s0 * nsPerSec = u
  have hu : t = g.s0 * nsPerSec + u := hu ▸ (Nat.add_sub_of_le ht).symm
  -- the estimate `k` may be one tick early, as T(n) is rounded down, and never later or earlier than that
  generalize hk : u * g.rate / nsPerSec = k
  have low : k * nsPerSec ≤ u * g.rate := hk ▸ Nat.div_mul_le_self _ _
  have high : u * g.rate < (k + 1) * nsPerSec := (Nat.div_lt_iff_lt_mul (by decide)).1 (hk ▸ Nat.lt_succ_self _)
  split
  · rename_i hnext
    refine ⟨hnext, ?_⟩
    have h1 : t ≤ tickStart g (k + 1) := by
      rw [tickStart_eq hr, hu]
      exact Nat.add_le_add_left ((Nat.le_div_iff_mul_le hr).2 (Nat.le_of_lt high)) _
    exact Nat.lt_of_le_of_lt h1 (tickStart_lt hr hn (Nat.lt_succ_self _))
  · rename_i hnext
    refine ⟨?_, Nat.lt_of_not_le hnext⟩
    rw [tickStart_eq hr, hu]
    exact Nat.add_le_add_left (Nat.div_le_of_le_mul (Nat.mul_comm g.rate u ▸ low)) _

/-- The tick an instant lies in is the one whose bounds hold it (R9). -/
theorem tickOf_eq_iff {g : Grid} {t : Ns} (hr : 0 < g.rate) (hn : g.rate ≤ nsPerSec) (ht : g.s0 * nsPerSec ≤ t) (n : Tick) :
    tickOf g t = n ↔ tickStart g n ≤ t ∧ t < tickStart g (n + 1) := by
  obtain ⟨low, high⟩ := tickOf_bounds hr hn ht
  constructor
  · rintro rfl
    exact ⟨low, high⟩
  · rintro ⟨hl, hh⟩
    have h1 := lt_of_tickStart_lt hr hn (Nat.lt_of_le_of_lt low hh)
    have h2 := lt_of_tickStart_lt hr hn (Nat.lt_of_le_of_lt hl high)
    exact Nat.le_antisymm (Nat.lt_succ_iff.1 h1) (Nat.lt_succ_iff.1 h2)

/-- At the four rates a period is at least 256 ns long (R8). -/
theorem rate_bounds {r : Nat} (h : r ∈ [4000, 4800, 9600, 14400]) : 0 < r ∧ r * 256 ≤ nsPerSec := by
  simp only [List.mem_cons, List.not_mem_nil, or_false] at h
  unfold nsPerSec
  omega

/-- Settles O18: T(n) is one rounded division, so ticks and slots rise strictly, and an instant's tick is unique. -/
theorem instantsOfTheGrid : Obligations.InstantsOfTheGrid := by
  intro g hg n
  obtain ⟨hr, hn⟩ := rate_bounds hg
  have hn' : g.rate ≤ nsPerSec := by omega
  refine ⟨rfl, tickStart_lt hr hn' (Nat.lt_succ_self n), slotStart_zero g n, fun _ _ hjk _ => slotStart_lt hr hn n hjk,
    fun j hj => ⟨rfl, ?_⟩, fun t ht => tickOf_eq_iff hr hn' ht n⟩
  exact Nat.lt_of_lt_of_le (slotStart_lt hr hn n hj) (slotStart_le_next_tick hr n)

end Sys2Proof.Machine
end

section
namespace Sys2Proof.Machine
open Sys2Proof

-- A slice that starts while an earlier assembly waits (R12)

/-- A slice whose image is filled and that is to run as it comes in, with no program, region or handler. -/
def enteringSlice : Slice :=
  { state := .loaded, tenant := 1, image := 1, imageDigest := [], hue := 0, flim := 0, nmax := 16, readyMin := 4, minSlots := 0,
    handlers := [], regions := [], rsv := 0, alpha := 0, subs := [], subsDue := [], reads := [], filled := true, toRun := true,
    resumed := false, arriving := some 0, asked := none, reset := none, migration := none, faults := [], resetAt := none, ctrs := [],
    suspended := 0, slwTick := 0, framePtr := 0, subver := 0, withheld := none, ran := [], freed := [], skipped := false,
    frameCtrs := [], nextHandle := 1, dspCtrs := [] }

/-- A grid at 14400, whose ticks of 69 µs are shorter than the hold-off of 100 µs. -/
def fastGrid : Grid := { s0 := 0, rate := 14400, first := 0 }

/-- The module in tick 100 of that grid, its assembly still to come, and slice 1, which the lattice serves, to start at tick 101. -/
def startWaits : Mach :=
  { machReset with
    dom := { domReset with umber := .running, fabric := .running, control := .running, compute := .running, ready := true }
    time := { timeReset with
      loaded := true
      gridOn := true
      grid := fastGrid
      tick := 100
      slot := 255
      clock := clockAt (slotStart fastGrid 100 255)
      asm := [⟨100, tickStart fastGrid 100, tickStart fastGrid 100 + 100000, 14400, fastGrid,
        tickStart fastGrid 101 - tickStart fastGrid 100, []⟩] }
    cpu := { cpuReset with
      slices := [(1, enteringSlice)]
      lattice := latSet latticeReset 0 0 20 1 } }

/-- The start of the slice is left to the assembly of tick 101, which therefore begins with it noted. -/
theorem startWaits_late : (moduleAfter (exec .tickBoundary) startWaits).time.asm.map (·.late) =
    [[], [(0x0C00, fields [(1, 1), (1, 0)])]] := by
  decide +kernel

theorem moduleAfter_of_makes {c : Instr} {m n : Mach} (h : Makes c ⟨m, []⟩ n) : moduleAfter (exec c) m = n := by
  rw [moduleAfter, h]

/-- Refutes O26: where an earlier assembly waits, a slice that starts with a tick has its start noted in the assembly of that tick (R12),
which so does not become due with nothing left to it, as the clause of TICK_BOUNDARY has it. -/
theorem not_boundariesBeginTicksAndSlots : ¬ Obligations.BoundariesBeginTicksAndSlots := by
  rintro ⟨begins, -⟩
  obtain ⟨t, makes, -, -, -, -, -, -, asm, -⟩ := begins ⟨startWaits, []⟩ (by decide) rfl fun _ => ⟨by decide, by rintro d ⟨⟩⟩
  have late := startWaits_late
  rw [moduleAfter_of_makes makes, asm] at late
  exact absurd late (by decide)

end Sys2Proof.Machine
end

section
namespace Sys2Proof.Machine
open Sys2Proof

-- Changes are accepted (R25, R26)

/-- Each command of the table is carried out as a change that takes effect at a tick, and does nothing more. -/
theorem exec_changeRow (h : Hdr) (p : Bytes) (s : State) :
    ∀ r ∈ changeRows, exec (r.make h p) s = runOn s (runChange (r.cmd s.m) h p (r.reply p)) := by
  unfold changeRows
  repeat refine List.forall_mem_cons.2 ⟨rfl, ?_⟩
  exact List.forall_mem_nil _

/-- A change that is accepted is entered in the schedule (R25). -/
theorem runChange_accepted {c : Cmd} {h : Hdr} {p : Bytes} {m : Mach} (ha : Accepts (atEffect c) m h p) (reply : Mach → Bytes) :
    runChange c h p reply m = enterChange c.code h (roleOf m h) p (reply (project m (effTick m h))) (effTick m h) m :=
  judged_accepted ha _

/-- Settles O6: every command of the table runs as a change, and an accepted change is entered in the schedule. -/
theorem changesAreScheduled : Obligations.ChangesAreScheduled := by
  intro r hr s h p hs ha n
  refine ⟨_, exec_changeRow h p s r hr, ?_⟩
  rw [runChange_accepted ha]
  exact enterChange_scheduled _ _ _ _ _ _ hs.mem

end Sys2Proof.Machine
end

section
namespace Sys2Proof.Machine
open Sys2Proof

-- The order of the schedule (R27)

theorem changeLess_iff {a b : Change} : changeLess a b = true ↔ a.apply < b.apply ∨ (a.apply = b.apply ∧ a.order < b.order) := by
  simp [changeLess]

theorem changeLess_asymm {a b : Change} (h : changeLess a b = true) : changeLess b a = false := by
  rw [changeLess_iff] at h
  rw [← Bool.not_eq_true, changeLess_iff, not_or, not_and]
  rcases h with h | ⟨he, h⟩
  · exact ⟨Nat.lt_asymm h, fun he => absurd he (Nat.ne_of_gt h)⟩
  · exact ⟨he ▸ Nat.lt_irrefl _, fun _ => Nat.lt_asymm h⟩

theorem inOrder_eq_foldr (l : List Change) : inOrder l = l.reverse.foldr (linsert changeLess) [] :=
  List.foldr_reverse.symm

theorem mem_linsert {α : Type} {lt : α → α → Bool} {a b : α} {l : List α} : b ∈ linsert lt a l ↔ b = a ∨ b ∈ l := by
  induction l with
  | nil => simp only [linsert, List.mem_cons]
  | cons x r ih =>
    rw [linsert]
    split
    · exact List.mem_cons
    · rw [List.mem_cons, List.mem_cons, ih]
      exact or_left_comm

theorem mem_foldr_linsert {α : Type} {lt : α → α → Bool} {b : α} {l : List α} : b ∈ l.foldr (linsert lt) [] ↔ b ∈ l := by
  induction l with
  | nil => exact Iff.rfl
  | cons a r ih => rw [List.foldr_cons, mem_linsert, ih, List.mem_cons]

theorem mem_inOrder {l : List Change} {d : Change} : d ∈ inOrder l ↔ d ∈ l := by
  rw [inOrder_eq_foldr, mem_foldr_linsert, List.mem_reverse]

/-- Of changes inserted one after another, the one that goes before every other comes to stand first. -/
theorem foldr_linsert_first {c : Change} {l : List Change} (hc : c ∈ l) (h : ∀ d ∈ l, d ≠ c → changeLess c d = true) :
    ∃ r, l.foldr (linsert changeLess) [] = c :: r := by
  induction l with
  | nil => exact absurd hc List.not_mem_nil
  | cons a l ih =>
    rw [List.foldr_cons]
    by_cases ha : a = c
    · subst ha
      rcases hl : l.foldr (linsert changeLess) [] with _ | ⟨b, r⟩
      · exact ⟨[], rfl⟩
      · by_cases hb : b = a
        · rw [hb, linsert]
          split <;> exact ⟨_, rfl⟩
        · have hbl : b ∈ l := mem_foldr_linsert.1 (hl ▸ List.mem_cons_self)
          exact ⟨b :: r, by rw [linsert, if_pos (h b (List.mem_cons_of_mem _ hbl) hb)]⟩
    · have hcl : c ∈ l := (List.mem_cons.1 hc).resolve_left (Ne.symm ha)
      obtain ⟨r, hr⟩ := ih hcl fun d hd => h d (List.mem_cons_of_mem _ hd)
      have hlater : changeLess a c = false := changeLess_asymm (h a List.mem_cons_self ha)
      exact ⟨linsert changeLess a r, by rw [hr, linsert, hlater, if_neg Bool.false_ne_true]⟩

/-- A change that goes before every other is made first. -/
theorem inOrder_first {c : Change} {l : List Change} (hc : c ∈ l) (h : ∀ d ∈ l, d ≠ c → changeLess c d = true) :
    ∃ r, inOrder l = c :: r := by
  rw [inOrder_eq_foldr]
  exact foldr_linsert_first (List.mem_reverse.2 hc) fun d hd => h d (List.mem_reverse.1 hd)

/-- The next change takes effect (R25, R27). -/
theorem scheduledChangeApply_first {s : State} {c : Change} (h : IsNext c s.m) : Makes .scheduledChangeApply s (effectChange c s.m) := by
  obtain ⟨hrun, hmem, happly, hfirst⟩ := h
  obtain ⟨r, hr⟩ := inOrder_first hmem fun d hd hne => changeLess_iff.2 (hfirst d hd hne)
  show execScheduledChangeApply s = _
  simp [execScheduledChangeApply, runOn, hrun, hr, happly]

/-- Settles O13: the change that goes before every other heads the schedule in its order, and so is the first whose tick has begun. -/
theorem earliestChangeTakesEffect : Obligations.EarliestChangeTakesEffect := by
  refine ⟨fun s c => scheduledChangeApply_first, fun s h => ?_⟩
  show execScheduledChangeApply s = _
  rcases h with hdown | hlater
  · simp [execScheduledChangeApply, runOn, hdown]
  · have hnone : (inOrder s.m.mbx.scheduled).find? (fun c => decide (c.apply ≤ s.m.time.tick)) = none := by
      simpa [mem_inOrder] using hlater
    simp [execScheduledChangeApply, runOn, hnone]

end Sys2Proof.Machine
end

section
namespace Sys2Proof.Machine
open Sys2Proof

-- A change at its tick (R25, R26, R486)

theorem changeEvent_eq (event code : Nat) (h : Hdr) (role : BitVec 32) (apply : Tick) (m : Mach) :
    changeEvent event code h role apply m = raise event (boxTag h.box) (cmdFields code h role apply 0 m) m := by
  simp [changeEvent, cmdFields, fields, show le 4 0 = le 2 0 ++ le 2 0 from rfl]

/-- The answer of a change, but for the three that answer otherwise (R161, R174, R407). -/
theorem answerChange_eq {c : Change} (h : c.code ∉ [0x0602, 0x0605, 0x0F03]) (m : Mach) :
    answerChange c m = respond c.code c.hdr c.role c.apply 0 c.resp m := by
  simp only [List.mem_cons, List.not_mem_nil, or_false, not_or] at h
  obtain ⟨hadmit, hreset, hclear⟩ := h
  simp [answerChange, hadmit, hreset, hclear]

/-- The module when a change has left the schedule, is made and stands in the journal, with its outcome still to be told. -/
def madeAndJournalled (c : Change) (m : Mach) : Mach :=
  if journaled c = true then journalled c (makeAtTick c (unscheduled c m)) else makeAtTick c (unscheduled c m)

/-- The outcome of a change whose sender does not wait for it is recorded (R26). -/
theorem effectChange_recorded {c : Change} (h : c.deferred = false) (m : Mach) :
    effectChange c m = raise 0x0102 (boxTag c.hdr.box) (cmdFields c.code c.hdr c.role c.apply 0 (madeAndJournalled c m))
      (madeAndJournalled c m) := by
  rw [← changeEvent_eq, effectChange, h]
  rfl

/-- The outcome of a change whose sender waits for it is answered (R25). -/
theorem effectChange_answered {c : Change} (h : c.deferred = true) (m : Mach) :
    effectChange c m = answerChange c (madeAndJournalled c m) := by
  rw [effectChange, h]
  rfl

theorem madeAndJournalled_keeps (c : Change) (m : Mach) : Keeps m (madeAndJournalled c m) := by
  have h : Keeps m (makeAtTick c (unscheduled c m)) := makeAtTick_keeps (dropChange_keeps (Keeps.refl m))
  exact Keeps.ite (journalAdd_keeps h) h

-- The changes of the table

/-- The change of a row, whatever else is in its entry of the schedule, is the row's. -/
theorem applyChange_effectRow (c : Change) (m : Mach) :
    ∀ r ∈ effectRows, applyChange { c with code := r.code } m = r.act c.payload m := by
  unfold effectRows
  repeat refine List.forall_mem_cons.2 ⟨rfl, ?_⟩
  exact List.forall_mem_nil _

theorem journaled_effectRow (c : Change) : ∀ r ∈ effectRows, journaled { c with code := r.code } = r.journal := by
  unfold effectRows
  repeat refine List.forall_mem_cons.2 ⟨by simp [journaled], ?_⟩
  exact List.forall_mem_nil _

/-- Of these changes only a curve acts at the assembly of its tick, and each has the ordinary answer. -/
theorem effectRows_codes : ∀ r ∈ effectRows, atAssembly r.code = decide (r.code = 0x0804) ∧ r.code ∉ [0x0602, 0x0605, 0x0F03] := by
  decide

theorem withCode_self {c : Change} {n : Nat} (hc : c.code = n) : { c with code := n } = c := hc ▸ rfl

theorem makeAtTick_effectRow {r : EffectRow} (hr : r ∈ effectRows) {c : Change} (hc : c.code = r.code) (m : Mach) :
    makeAtTick c m = madeBy r c m := by
  obtain ⟨hasm, -⟩ := effectRows_codes r hr
  have happly : applyChange c m = r.act c.payload m := by
    rw [← applyChange_effectRow c m r hr, withCode_self hc]
  by_cases hs : superseded c m = true
  · simp only [makeAtTick, makeChange, madeBy, hs, if_true, ite_self]
  · simp only [makeAtTick, makeChange, madeBy, hs, if_false, happly, hc, hasm, Bool.and_eq_true, decide_eq_true_eq, Bool.false_eq_true]

theorem madeAndJournalled_effectRow {r : EffectRow} (hr : r ∈ effectRows) {c : Change} (hc : c.code = r.code) (m : Mach) :
    madeAndJournalled c m = if r.journal = true then journalled c (madeBy r c (unscheduled c m)) else madeBy r c (unscheduled c m) := by
  have hj : journaled c = r.journal := by
    rw [← journaled_effectRow c r hr, withCode_self hc]
  rw [madeAndJournalled, hj, makeAtTick_effectRow hr hc]

-- What leaves slices and time alone

/-- The compute domain's state and the time unit are as they were. -/
def SameCpuTime (a b : Mach) : Prop := b.cpu = a.cpu ∧ b.time = a.time

theorem SameCpuTime.refl (a : Mach) : SameCpuTime a a := ⟨rfl, rfl⟩

theorem SameCpuTime.trans {a b c : Mach} (h : SameCpuTime a b) (k : SameCpuTime b c) : SameCpuTime a c :=
  ⟨k.1.trans h.1, k.2.trans h.2⟩

theorem SameCpuTime.ite {a b c : Mach} {p : Prop} [Decidable p] (hb : SameCpuTime a b) (hc : SameCpuTime a c) :
    SameCpuTime a (if p then b else c) := by
  split <;> assumption

theorem forEach_sameCpuTime {α : Type} (l : List α) {f : α → Mach → Mach} (hf : ∀ a m, SameCpuTime m (f a m)) (m : Mach) :
    SameCpuTime m (forEach l f m) := by
  induction l generalizing m with
  | nil => exact .refl m
  | cons a r ih => exact (hf a m).trans (ih (f a m))

theorem when_sameCpuTime {b : Bool} {f : Mach → Mach} (hf : ∀ m, SameCpuTime m (f m)) (m : Mach) :
    SameCpuTime m (when b f m) :=
  .ite (hf m) (.refl m)

-- Answers, events and the journal

theorem onSess_sameCpuTime (b : Box) (f : Session → Session) (m : Mach) : SameCpuTime m (onSess b f m) := by
  rw [onSess_rest]
  exact ⟨rfl, rfl⟩

theorem sendRelay_sameCpuTime (down : Bool) (rseq : BitVec 32) (dst : Nat) (resp : Bool) (msg : Bytes) (m : Mach) :
    SameCpuTime m (sendRelay down rseq dst resp msg m) := by
  refine forEach_sameCpuTime _ (fun _ _ => ?_) m
  exact ⟨rfl, rfl⟩

theorem sendSegments_sameCpuTime (r : Response) {send : Bytes → Mach → Mach} (hs : ∀ b m, SameCpuTime m (send b m)) (m : Mach) :
    SameCpuTime m (sendSegments r send m) :=
  forEach_sameCpuTime _ (fun _ m => hs _ m) m

theorem respond_sameCpuTime (code : Nat) (h : Hdr) (role : BitVec 32) (apply status : Nat) (p : Bytes) (m : Mach) :
    SameCpuTime m (respond code h role apply status p m) := by
  unfold respond deliver
  dsimp only
  split
  · exact .trans (onSess_sameCpuTime _ _ m) ⟨rfl, rfl⟩
  · refine .trans ?_ (sendSegments_sameCpuTime _ (fun _ => sendRelay_sameCpuTime _ _ _ _ _) _)
    exact .trans (onSess_sameCpuTime _ _ m) ⟨rfl, rfl⟩
  · refine .trans (onSess_sameCpuTime _ _ m) (sendSegments_sameCpuTime _ (fun _ _ => ?_) _)
    exact ⟨rfl, rfl⟩
  · exact onSess_sameCpuTime _ _ m
  · exact onSess_sameCpuTime _ _ m

theorem answerChange_sameCpuTime (c : Change) (m : Mach) : SameCpuTime m (answerChange c m) :=
  .ite (.refl m) (respond_sameCpuTime ..)

/-- Beside what it makes of its object, a change that takes effect touches neither slices nor time. -/
theorem effectChange_sameCpuTime (c : Change) (m : Mach) : SameCpuTime (makeAtTick c (unscheduled c m)) (effectChange c m) := by
  have hmade : SameCpuTime (makeAtTick c (unscheduled c m)) (madeAndJournalled c m) := .ite ⟨rfl, rfl⟩ (.refl _)
  cases hd : c.deferred with
  | true => exact effectChange_answered hd m ▸ hmade.trans (answerChange_sameCpuTime c _)
  | false => exact effectChange_recorded hd m ▸ hmade.trans ⟨rfl, rfl⟩

-- Programs (R331, R332) and images (R426)

theorem letEnd_sameCpuTime (i : Nat) (m : Mach) : SameCpuTime m (letEnd i m) := by
  unfold letEnd
  split
  · exact .refl m
  · exact .ite ⟨rfl, rfl⟩ (.refl m)

theorem clearForces_sameCpuTime (i : Nat) (m : Mach) : SameCpuTime m (clearForces i m) := by
  refine .trans ?_ (forEach_sameCpuTime _ (fun _ _ => ?_) _) <;> exact ⟨rfl, rfl⟩

theorem onProg_sameCpuTime (i : Nat) (f : Program → Program) (m : Mach) : SameCpuTime m (onProg i f m) := by
  unfold onProg
  split <;> exact ⟨rfl, rfl⟩

theorem restartProg_sameCpuTime (runs warm : Bool) (i : Nat) (s : Tick) (m : Mach) : SameCpuTime m (restartProg runs warm i s m) := by
  unfold restartProg
  dsimp only
  have hleft : SameCpuTime m (clearForces i (if runs then m else letEnd i m)) :=
    (SameCpuTime.ite (.refl m) (letEnd_sameCpuTime i m)).trans (clearForces_sameCpuTime i _)
  split
  · exact hleft
  · exact (hleft.trans (onProg_sameCpuTime i _ _)).trans ⟨rfl, rfl⟩

theorem beginPrograms_sameCpuTime (p : Bytes) (m : Mach) : SameCpuTime m (beginPrograms p m) :=
  .ite ⟨rfl, rfl⟩ (forEach_sameCpuTime _ (fun _ _ => restartProg_sameCpuTime ..) m)

theorem onTwn_sameCpuTime (f : Twin → Twin) (m : Mach) : SameCpuTime m (onTwn f m) := ⟨rfl, rfl⟩

theorem baseImage_sameCpuTime (tag : Nat) (m : Mach) : SameCpuTime m (baseImage tag m) := by
  unfold baseImage
  split
  · exact .refl m
  · refine .trans (forEach_sameCpuTime _ (fun _ _ => ?_) m) (onTwn_sameCpuTime _ _)
    exact ⟨rfl, rfl⟩

-- Slices at a start and a stop (R150)

theorem tget_onSlice_same (t : Nat) (f : Slice → Slice) (m : Mach) :
    tget (onSlice t f m).cpu.slices t = (tget m.cpu.slices t).map f := by
  unfold onSlice
  split
  · rename_i h
    rw [h]
    rfl
  · rename_i x h
    rw [h, onCpu_cpu]
    exact tget_tset_same ..

theorem onSlice_time (t : Nat) (f : Slice → Slice) (m : Mach) : (onSlice t f m).time = m.time :=
  onSlice_only t f m .time (by decide)

/-- A slice is in a state, and of time at most the assemblies to come have changed. -/
def InState (t : Nat) (st : SliceState) (a b : Mach) : Prop :=
  (tget b.cpu.slices t).map (·.state) = some st ∧ b.time = { a.time with asm := b.time.asm }

theorem InState.same {t : Nat} {st : SliceState} {a b c : Mach} (h : InState t st a b) (k : SameCpuTime b c) : InState t st a c := by
  obtain ⟨hcpu, htime⟩ := k
  rw [InState, hcpu, htime]
  exact h

theorem InState.addLate {t : Nat} {st : SliceState} {a b : Mach} (h : InState t st a b) (n : Tick) (code : Nat) (p : Bytes) :
    InState t st a (addLate n code p b) := by
  obtain ⟨hstate, htime⟩ := h
  refine ⟨hstate, ?_⟩
  show { b.time with asm := (Machine.addLate n code p b).time.asm } = _
  rw [htime]

theorem InState.onSlice {t : Nat} {st : SliceState} {a b : Mach} (h : InState t st a b) {f : Slice → Slice}
    (hf : ∀ x, (f x).state = x.state) : InState t st a (onSlice t f b) := by
  obtain ⟨hstate, htime⟩ := h
  rw [InState, tget_onSlice_same, onSlice_time, Option.map_map, ← hstate]
  exact ⟨congrArg (Option.map · _) (funext hf), htime⟩

theorem setSlice_state {t : Nat} {m : Mach} {x : Slice} (hx : tget m.cpu.slices t = some x) (st : SliceState) :
    (tget (setSlice t st m).cpu.slices t).map (·.state) = some st ∧ (setSlice t st m).time = m.time := by
  unfold setSlice getSlice
  rw [hx]
  exact ⟨by simp [stateEvent, tget_onSlice_same, hx], onSlice_time ..⟩

theorem setSlice_inState {t : Nat} {m : Mach} {x : Slice} (hx : tget m.cpu.slices t = some x) (st : SliceState) :
    InState t st m (setSlice t st m) := by
  obtain ⟨hstate, htime⟩ := setSlice_state hx st
  exact ⟨hstate, by rw [htime]⟩

/-- The start of a slice's programs, at once or left to the assembly of the tick, leaves its state alone. -/
theorem InState.programs {t : Nat} {st : SliceState} {a b : Mach} (h : InState t st a b) (n : Tick) (p : Bytes) :
    InState t st a (if waitsFor n b then Machine.addLate n 0x0C00 p b else beginPrograms p b) := by
  split
  · exact h.addLate n _ p
  · exact h.same (beginPrograms_sameCpuTime p b)

/-- A slice that starts runs (R150). -/
theorem runSlice_inState {t : Nat} {m : Mach} {x : Slice} (hx : tget m.cpu.slices t = some x) : InState t .running m (runSlice t m) := by
  unfold runSlice getSlice
  rw [hx]
  have hset := (setSlice_inState hx .running).onSlice (f := fun x => { x with resumed := false }) fun _ => rfl
  refine .programs (.same (.same hset (when_sameCpuTime (fun b => ?_) _)) (when_sameCpuTime (fun b => ?_) _)) _ _
  · exact .trans (onTwn_sameCpuTime _ b) (baseImage_sameCpuTime t _)
  · exact ⟨rfl, rfl⟩

theorem applyStart_inState {p : Bytes} {m : Mach} {x : Slice} (hx : tget m.cpu.slices (rd 1 p 0) = some x) (ha : x.arriving = none)
    (hst : x.state = .loaded ∨ x.state = .stopped) : InState (rd 1 p 0) .running m (applyStart p m) := by
  have h : applyStart p m = runSlice (rd 1 p 0) m := by
    rcases hst with hst | hst <;> simp [applyStart, getSlice, hx, ha, hst]
  exact h ▸ runSlice_inState hx

theorem applyStop_state {p : Bytes} {m : Mach} {x : Slice} (hx : tget m.cpu.slices (rd 1 p 0) = some x) (hst : x.state = .running) :
    (tget (applyStop p m).cpu.slices (rd 1 p 0)).map (·.state) = some .stopped ∧ (applyStop p m).time = m.time := by
  have h : applyStop p m = setSlice (rd 1 p 0) .stopped m := by simp [applyStop, sliceRuns, getSlice, hx, hst]
  exact h ▸ setSlice_state hx .stopped

/-- A change that writes no whole entry and acts as its tick begins is made as it stands (R12, R27). -/
theorem makeAtTick_plain {c : Change} (hi : entryIndex c.code = none) (ha : atAssembly c.code = false) (m : Mach) :
    makeAtTick c m = applyChange c m := by
  simp [makeAtTick, makeChange, superseded, hi, ha]

theorem makeAtTick_start {c : Change} (hc : c.code = 0x0603) (m : Mach) : makeAtTick c m = applyStart c.payload m := by
  rw [makeAtTick_plain (hc ▸ rfl) (hc ▸ rfl)]
  simp only [applyChange, hc]

theorem makeAtTick_stop {c : Change} (hc : c.code = 0x0604) (m : Mach) : makeAtTick c m = applyStop c.payload m := by
  rw [makeAtTick_plain (hc ▸ rfl) (hc ▸ rfl)]
  simp only [applyChange, hc]

/-- Settles O14: a change of the table is made, entered in the journal and told as its row says; of a start and a stop of a slice, what
follows the change of state leaves the state alone. -/
theorem scheduledChangesHaveTheirEffects : Obligations.ScheduledChangesHaveTheirEffects := by
  refine ⟨fun r hr s c hnext hc => ?rows, fun s c x hnext hx => ⟨fun hc ha hst => ?start, fun hc hst => ?stop⟩⟩
  case rows =>
    dsimp only
    rw [← madeAndJournalled_effectRow hr hc]
    obtain ⟨-, hcode⟩ := effectRows_codes r hr
    refine ⟨fun hd => ?recorded, fun hd hs => ⟨_, scheduledChangeApply_first hnext, ?answered⟩⟩
    case recorded =>
      exact Makes.of (scheduledChangeApply_first hnext) (effectChange_recorded hd s.m)
    case answered =>
      rw [effectChange_answered hd, answerChange_eq (hc ▸ hcode)]
      exact respond_delivered _ _ _ _ _ _ _ ((madeAndJournalled_keeps c s.m).mem hs.mem)
  case start =>
    refine ⟨_, scheduledChangeApply_first hnext, InState.same ?_ (effectChange_sameCpuTime c s.m)⟩
    rw [makeAtTick_start hc]
    exact applyStart_inState (m := unscheduled c s.m) hx ha hst
  case stop =>
    obtain ⟨hcpu, htime⟩ := effectChange_sameCpuTime c s.m
    refine ⟨_, scheduledChangeApply_first hnext, ?_⟩
    rw [hcpu, htime, makeAtTick_stop hc]
    exact applyStop_state (m := unscheduled c s.m) hx hst

end Sys2Proof.Machine
end

section
namespace Sys2Proof.Machine
open Sys2Proof

-- Frames of the estimate engine

theorem onFlt_only (f : Filters → Filters) (m : Mach) : Only [.flt] m (onFlt f m) := by
  intro p hp
  cases p
  case flt => simp at hp
  case mem => exact fun _ => rfl
  all_goals rfl

theorem onSig_only (f : Signals → Signals) (m : Mach) : Only [.sig] m (onSig f m) := by
  intro p hp
  cases p
  case sig => simp at hp
  case mem => exact fun _ => rfl
  all_goals rfl

/-- Of two values set for one key the later stands. -/
theorem tset_tset_same {α : Type} (t : Tab α) (i : Nat) (a b : α) : tset (tset t i a) i b = tset t i b := by
  induction t with
  | nil => simp [tset]
  | cons e r ih =>
    obtain ⟨k, v⟩ := e
    by_cases hlt : i < k
    · simp [tset, hlt]
    · by_cases heq : i = k
      · simp [tset, heq]
      · simp [tset, hlt, heq, ih]

-- Groups and channels rewritten

theorem onGroup_eq {m : Mach} {gi : Nat} {g : Group} (hg : getGroup m gi = some g) (f : Group → Group) :
    onGroup gi f m = onFlt (fun x => { x with groups := tset x.groups gi (f g) }) m := by
  have hg : tget m.flt.groups gi = some g := hg
  simp [onGroup, onFlt, tmod, tgetD, hg]

theorem onChan_eq (ch : Nat) (f : Chan → Chan) (m : Mach) :
    onChan ch f m = onFlt (fun x => { x with chans := tset x.chans ch (f (getChan m ch)) }) m := rfl

theorem getGroup_onGroup_same {m : Mach} {gi : Nat} {g : Group} (hg : getGroup m gi = some g) (f : Group → Group) :
    getGroup (onGroup gi f m) gi = some (f g) := by
  rw [onGroup_eq hg]
  exact tget_tset_same _ _ _

/-- A group rewritten twice is rewritten once. -/
theorem onGroup_onGroup {m : Mach} {gi : Nat} {g : Group} (hg : getGroup m gi = some g) (f k : Group → Group) :
    onGroup gi k (onGroup gi f m) = onFlt (fun x => { x with groups := tset x.groups gi (k (f g)) }) m := by
  rw [onGroup_eq (getGroup_onGroup_same hg f), onGroup_eq hg]
  simp [onFlt, tset_tset_same]

-- What the operations on groups and channels make of the module

theorem leaveRecovery_eq {m : Mach} {gi : Nat} {g : Group} (hg : getGroup m gi = some g) :
    leaveRecovery gi m = raise 0x0503 0 (le 1 gi ++ le 7 0)
      (onFlt (fun x => { x with groups := tset x.groups gi { g with recovery := false } }) m) := by
  simp [leaveRecovery, fields, onGroup_eq hg]

theorem endFreeze_eq (gi ch : Nat) (m : Mach) :
    endFreeze gi ch m = raise 0x0505 0 (le 1 gi ++ le 1 0 ++ le 2 ch ++ le 4 (getChan m ch).frozenTicks)
      (onFlt (fun x => { x with chans := tset x.chans ch { getChan m ch with frozen := false, frozenTicks := 0 } }) m) := by
  simp [endFreeze, fields, onChan_eq]

theorem loseTracking_eq {m : Mach} {gi : Nat} {g : Group} (hg : getGroup m gi = some g) :
    loseTracking gi m = raise 0x0506 0 (le 1 gi ++ le 7 0)
      (onFlt (fun x => { x with
        groups := tset x.groups gi { g with lost := true, ft := int32 g.est.nomf, estCtrs := bump g.estCtrs 4 } }) m) := by
  simp [loseTracking, fields, estCount, onGroup_onGroup hg]

/-- The state a comparator takes is kept with its channel, and the transition counted on its group (R128). -/
def notedTransition (gi ch k : Nat) (on : Bool) (g : Group) (c : Chan) (m : Mach) : Mach :=
  onFlt (fun x => { x with
    groups := tset x.groups gi { g with estCtrs := bump g.estCtrs 3 }
    chans := tset x.chans ch { c with comps := lmod c.comps k fun s => (on, s.2) } }) m

theorem onChan_estCount {m : Mach} {gi ch k : Nat} {on : Bool} {g : Group} (hg : getGroup m gi = some g) :
    onChan ch (fun c => { c with comps := lmod c.comps k fun s => (on, s.2) }) (estCount gi 3 m) =
      notedTransition gi ch k on g (getChan m ch) m := by
  rw [estCount, onGroup_eq hg]
  rfl

theorem transition_inService {m : Mach} {gi : Nat} {g : Group} (hg : getGroup m gi = some g) (hs : inService g = true)
    (ch pos k : Nat) (on : Bool) (src : Sq) (q : BitVec 32) (t : Ns) :
    transition gi ch pos k on src q t m = notedTransition gi ch k on g (getChan m ch) m := by
  unfold transition
  rw [hg]
  simp only [onChan_estCount hg, hs, if_true]

/-- In commissioning behaviour a transition is reported, and may be written to its point (R128, R129). -/
theorem transition_reported {m : Mach} {gi : Nat} {g : Group} (hg : getGroup m gi = some g) (hs : inService g = false)
    (ch pos k : Nat) (on : Bool) (src : Sq) (q : BitVec 32) (t : Ns) :
    ∃ f : Signals → Signals, (g.est.thrBase = none → f m.sig = m.sig) ∧ transition gi ch pos k on src q t m =
      onSig f (raise 0x0501 0 (le 1 gi ++ le 1 k ++ le 2 ch ++ le 4 (b2n on) ++ le 4 (magOf src).toNat)
        (notedTransition gi ch k on g (getChan m ch) m)) := by
  unfold transition
  rw [hg]
  simp only [onChan_estCount hg, hs, Bool.false_eq_true, if_false, fields, List.append_nil, ← List.append_assoc]
  cases g.est.thrBase with
  | none => exact ⟨id, fun _ => rfl, rfl⟩
  | some b =>
    dsimp only
    split
    · exact ⟨_, nofun, rfl⟩
    · exact ⟨id, nofun, rfl⟩

-- The steps that stand for what a tick brings (R113, R117, R125, R128)

theorem makes_of_when_true {c : Instr} {s : State} {b : Bool} {f : Mach → Mach} {m : Mach} (h : Makes c s (when b f m)) (hb : b = true) :
    Makes c s (f m) := by
  subst hb
  exact h

theorem makes_of_when_false {c : Instr} {s : State} {b : Bool} {f : Mach → Mach} {m : Mach} (h : Makes c s (when b f m))
    (hb : b = false) : Makes c s m := by
  subst hb
  exact h

/-- A step that rewrites the estimates and raises an event changes nothing else. -/
theorem makes_flt_and_event {c : Instr} {s : State} {code tag : Nat} {p : Bytes} {f : Filters → Filters} {m : Mach}
    (h : Makes c s m) (he : m = raise code tag p (onFlt f s.m)) :
    ∃ t, Makes c s t ∧ Only [.flt, .evr] s.m t ∧ t.flt = f s.m.flt ∧ Raises [(code, tag, p)] s.m t :=
  ⟨_, Makes.of h he, Only.trans (onFlt_only f _) (raise_only _ _ _ _), rfl, rfl⟩

theorem recoveryExit_makes {s : State} {group : Fin 256} {g : Group} (hr : fabricRuns s.m = true) (hg : getGroup s.m group = some g) :
    Makes (.recoveryExit group) s (when (s.m.flt.grid.any fun r => recoveryOver g r.rate) (leaveRecovery group) s.m) := by
  change execRecoveryExit group s = _
  simp only [execRecoveryExit, runOn_next, hr, hg, Option.any_some, Bool.true_and]

theorem freezeEnd_makes {s : State} (chan : Fin 12288) (hr : fabricRuns s.m = true) :
    Makes (.freezeEnd chan) s (when ((getChan s.m chan).frozen && !freezeAhead (chanEntry s.m chan).group chan s.m)
      (endFreeze (chanEntry s.m chan).group chan) s.m) := by
  change execFreezeEnd chan s = _
  simp only [execFreezeEnd, runOn_next, hr, Bool.true_and]

/-- Of a group that tracks, the condition of TRACKING_LOST is how long it has failed (R125). Stated over any period and any instant: on the
model's own the kernel would count a second's nanoseconds out one by one. -/
theorem failedLong_eq {g : Group} {u : Ns} (he : g.enabled = true) (ht : g.est.track = true) (hl : g.lost = false)
    (hf : g.failing = some u) (period instant : Nat) :
    (g.enabled && g.est.track && !g.lost && g.failing.any fun t => decide (t + period ≤ instant)) = decide (u + period ≤ instant) := by
  simp only [he, ht, hl, hf, Option.any_some, Bool.true_and, Bool.not_false]

theorem trackingLost_makes {s : State} {group : Fin 256} {g : Group} {u : Ns} (hr : clockRuns s.m = true)
    (hg : getGroup s.m group = some g) (he : g.enabled = true) (ht : g.est.track = true) (hl : g.lost = false) (hf : g.failing = some u) :
    Makes (.trackingLost group) s (when (decide (u + nsPerSec ≤ now s.m)) (loseTracking group) s.m) := by
  change execTrackingLost group s = _
  rw [execTrackingLost, runOn_next, hr, hg, Option.any_some, failedLong_eq he ht hl hf, Bool.true_and]

/-- The row of a comparator makes the transition that its state, its count and its source call for. -/
theorem comparatorTransition_makes {s : State} {chan : Fin 12288} {k : Fin 4} {g : Group} {cfg : Comp} {y : F32} {fast fine : Phasor}
    {invalid : Bool} (hr : fabricRuns s.m = true) (hg : getGroup s.m (chanEntry s.m chan).group = some g)
    (hc : g.est.comps[k.val]? = some cfg) (hseen : (getChan s.m chan).seen = some (y, fast, fine, invalid)) (hsrc : cfg.source ≠ 0) :
    let c := getChan s.m chan
    let st := c.comps.getD k.val (false, 0)
    let src := sourceOf cfg y c.d fast fine invalid
    let on := compNext cfg st.1 st.2 src
    ∃ pos q t, Makes (.comparatorTransition chan k) s
      (when (on != st.1) (transition (chanEntry s.m chan).group chan pos k on (src.getD (0, 0)) q t) s.m) := by
  refine ⟨(chansUp s.m (chanEntry s.m chan).group).idxOf chan.val, .ofNat 32 (rd 4 (getChan s.m chan).record 4),
    (s.m.flt.grid.bind fun r => (getChan s.m chan).recs.head?.map fun x => tickStart r x.1).getD (tickAt s.m s.m.time.tick), ?_⟩
  change execComparatorTransition chan k s = _
  simp only [execComparatorTransition, runOn_next, hr, hg, hc, hseen, Option.bind_some, bne_iff_ne.2 hsrc, Bool.true_and]

/-- A transition of a comparator of a group: kept, counted, and reported in commissioning behaviour; nothing else changes but a point. -/
theorem makes_transition_effects {c : Instr} {s : State} {gi ch pos k : Nat} {on : Bool} {src : Sq} {q : BitVec 32} {n : Ns} {g : Group}
    (hg : getGroup s.m gi = some g) (h : Makes c s (transition gi ch pos k on src q n s.m)) :
    ∃ t, Makes c s t ∧ Only [.flt, .evr, .sig] s.m t ∧ t.flt = (notedTransition gi ch k on g (getChan s.m ch) s.m).flt ∧
      Raises (if inService g then []
        else [(0x0501, 0, le 1 gi ++ le 1 k ++ le 2 ch ++ le 4 (b2n on) ++ le 4 (magOf src).toNat)]) s.m t ∧
      (inService g = true ∨ g.est.thrBase = none → t.sig = s.m.sig) := by
  cases hs : inService g with
  | true =>
    rw [transition_inService hg hs] at h
    refine ⟨_, h, Only.mono (onFlt_only _ _) (by decide), rfl, ?_, fun _ => rfl⟩
    simp [Raises, notedTransition]
  | false =>
    obtain ⟨f, hf, he⟩ := transition_reported hg hs ch pos k on src q n
    refine ⟨_, Makes.of h he, Only.trans (Only.trans (onFlt_only _ _) (raise_only _ _ _ _)) (onSig_only f _), rfl, rfl, ?_⟩
    rintro (hin | hnone)
    · cases hin
    · exact hf hnone

/-- Settles O28: each row does what its operation does, exactly where its condition holds. -/
theorem estimatesAndComparators : Obligations.EstimatesAndComparators := by
  refine ⟨⟨fun s group g hr hg => ?recovery, fun s chan g hr _ => ?freeze, fun s group g u hr hg he ht hl hf => ?tracking⟩,
    fun s chan k g cfg y fast fine invalid hr => ?comparator⟩
  case recovery =>
    have made := recoveryExit_makes hr hg
    exact ⟨fun hover => makes_flt_and_event (makes_of_when_true made hover) (leaveRecovery_eq hg), makes_of_when_false made⟩
  case freeze =>
    have made := freezeEnd_makes chan hr
    refine ⟨fun hfrozen hdue => makes_flt_and_event (makes_of_when_true made ?ends) (endFreeze_eq _ _ _),
      fun hstay => makes_of_when_false made ?stays⟩
    case ends => simp [hfrozen, hdue]
    case stays => rcases hstay with hfree | hdue <;> simp [*]
  case tracking =>
    have made := trackingLost_makes hr hg he ht hl hf
    exact ⟨fun hlong => makes_flt_and_event (makes_of_when_true made (decide_eq_true hlong)) (loseTracking_eq hg),
      fun hshort => makes_of_when_false made (decide_eq_false (Nat.not_le.2 hshort))⟩
  case comparator =>
    intro gi c hg hc hseen hsrc st src on
    obtain ⟨pos, q, n, made⟩ := comparatorTransition_makes hr hg hc hseen hsrc
    exact ⟨fun hsame => makes_of_when_false made (bne_eq_false_iff_eq.2 hsame),
      fun hnew => makes_transition_effects hg (makes_of_when_true made (bne_iff_ne.2 hnew))⟩

end Sys2Proof.Machine
end

section
namespace Sys2Proof.Machine
open Sys2Proof

/-! Ring registers (R293): a read or write of a ring register by a core's item does what the ring at its position calls for. -/

/-- No ring has been set at reset. -/
theorem getRing_reset (g : Nat) : getRing State.reset.m g = ringInit := rfl

/-- The value a core's read returns is kept with the core. -/
theorem coreReads_eq (core : Fin 32) (v : BitVec 64) (m : Mach) : coreReads core v m = withRead core v m := rfl

/-- A ring rewritten after a core's read has returned is the ring as it was before, rewritten: the read leaves the rings alone. -/
theorem onRing_withRead (g : Nat) (f : Ring → Ring) (core : Fin 32) (v : BitVec 64) (m : Mach) :
    onRing g f (withRead core v m) = withRing g (f (getRing m g)) (withRead core v m) := rfl

section
variable {s : State} {core : Fin 32} {pos : Fin 64} {r : Running}

theorem rdbTail_noRing {v : BitVec 64} (hrun : coreRun s.m core = some r) (hring : ringAt s.m r.tag pos.val = none) :
    Makes (.rdbTail core pos v) s s.m := by
  change execRdbTail core pos v s = _
  simp only [execRdbTail, runOn_next, hrun, hring]

theorem rdbHeadRead_noRing (hrun : coreRun s.m core = some r) (hring : ringAt s.m r.tag pos.val = none) :
    Makes (.rdbHeadRead core pos) s (withRead core 0 s.m) := by
  change execRdbHeadRead core pos s = _
  simp only [execRdbHeadRead, runOn_next, hrun, hring, coreReads_eq]

theorem rdbHeadRead_ring {g : Nat} (hrun : coreRun s.m core = some r) (hring : ringAt s.m r.tag pos.val = some g) :
    Makes (.rdbHeadRead core pos) s
      (withRing g { getRing s.m g with starve := false } (withRead core (headWord (getRing s.m g)) s.m)) := by
  change execRdbHeadRead core pos s = _
  simp only [execRdbHeadRead, runOn_next, hrun, hring, coreReads_eq, onRing_withRead]

end

/-- Settles O41: the reset ring, then the rows RDB_TAIL and RDB_HEAD_READ by whether the position has a ring. -/
theorem ringRegisters : Obligations.RingRegisters := by
  refine ⟨fun g => ?reset, fun s core pos v r hrun => ⟨fun hnone => ?unassigned, fun g hring => ?assigned⟩⟩
  case reset => simp [getRing_reset, ringInit]
  case unassigned => exact ⟨rdbTail_noRing hrun hnone, rdbHeadRead_noRing hrun hnone⟩
  case assigned => exact rdbHeadRead_ring hrun hring

end Sys2Proof.Machine
end

section
namespace Sys2Proof.Machine
open Sys2Proof

/-! Logic periods (R312 to R315, R329, R333): the boundary of a program, the execution period, and the assembly in which both come. -/

-- A program rewritten

@[simp] theorem tget_withProg (i : Nat) (g : Program) (m : Mach) : tget (withProg i g m).lge.progs i = some g :=
  tget_tset_same _ _ _

theorem withProg_withProg (i : Nat) (g h : Program) (m : Mach) : withProg i h (withProg i g m) = withProg i h m := by
  simp [withProg, tset_tset_same]

theorem onLge_only (f : Logic → Logic) (m : Mach) : Only [.lge] m (onLge f m) := by
  intro p hp
  cases p
  case lge => simp at hp
  case mem => exact fun _ => rfl
  all_goals rfl

theorem withProg_only (i : Nat) (g : Program) (m : Mach) : Only [.lge] m (withProg i g m) :=
  onLge_only (fun l => { l with progs := tset l.progs i g }) m

theorem onProg_eq {i : Nat} {g : Program} {m : Mach} (hg : tget m.lge.progs i = some g) (f : Program → Program) :
    onProg i f m = withProg i (f g) m := by
  simp only [onProg, hg]
  rfl

/-- Whether a program runs rests on nothing that the logic engine holds. -/
theorem progRuns_withProg (i : Nat) (h g : Program) (t : Ns) (m : Mach) : progRuns (withProg i h m) t g = progRuns m t g := rfl

theorem progEvent_eq {i : Nat} {g : Program} {m : Mach} (hg : tget m.lge.progs i = some g) (code : Nat) (l : List (Nat × Nat)) :
    progEvent code i (fields l) m = raise code g.owner (fields ([(1, i), (1, g.owner), (2, 0)] ++ l)) m := by
  simp [progEvent, hg, fields]

-- A boundary with a cycle in progress (R329)

/-- The program that takes the units and the interval set for it, at tick `n` (LGE_PROG_SET). -/
def changeTaken (n : Tick) (g : Program) : Program := match g.change with
  | none => g
  | some (c, u) => { g with c := c, units := u, change := none, beta := n }

theorem takeChange_eq {i : Nat} {g : Program} {m : Mach} (hg : tget m.lge.progs i = some g) (n : Tick) :
    takeChange i n m = withProg i (changeTaken n g) m := onProg_eq hg _

theorem changeTaken_none {g : Program} (h : g.change = none) (n : Tick) : changeTaken n g = g := by
  simp [changeTaken, h]

theorem boundaryCommit_inProgress {i : Nat} {g : Program} {c : Cycle} {m : Mach} (hg : tget m.lge.progs i = some g)
    (hc : g.cycle = some c) (hl : c.left ≠ 0) : boundaryCommit i m = m := by
  simp [boundaryCommit, hg, hc, hl]

/-- The program whose cycle `c` has not ended at its boundary: the start is skipped and counted (R329). -/
def overrunProg (n : Tick) (c : Cycle) (g : Program) : Program :=
  { g with cycle := some { c with late := true }, next := some (n + g.c), k4 := true, ctrs := bump (if c.late then g.ctrs else bump g.ctrs 1) 2 }

/-- A boundary that finds a cycle in progress skips the start, and reports the overrun the first time (R329). -/
theorem boundary_inProgress {i : Nat} {g : Program} {c : Cycle} {m : Mach} (hg : tget m.lge.progs i = some g) (hc : g.cycle = some c)
    (hl : c.left ≠ 0) (n : Tick) (t : Ns) :
    boundaryBegin i n t (boundaryCommit i m) =
      if c.late then withProg i (overrunProg n c (changeTaken n g)) m
      else raise 0x0C01 (changeTaken n g).owner (fields [(1, i), (1, (changeTaken n g).owner), (2, 0), (8, c.b)])
        (withProg i (overrunProg n c (changeTaken n g)) m) := by
  rw [boundaryCommit_inProgress hg hc hl]
  simp only [boundaryBegin, hg, hc, takeChange_eq hg, onProg_eq (tget_withProg i (changeTaken n g) m), withProg_withProg,
    progEvent_eq (tget_withProg _ _ _)]
  rfl

-- The commit of a completed cycle (R315, R330)

theorem commitPoint_eq (i : Nat) (g : Prog) (st : ProgSt) (pt : Nat) (m : Mach) : ∃ x, commitPoint i g st pt m = { m with sig := x } := by
  simp only [commitPoint, ownerWrite]
  split
  · split
    · exact ⟨_, rfl⟩
    · exact ⟨_, rfl⟩
  · exact ⟨_, rfl⟩

/-- Output points committed are all that changes of the module. -/
theorem forEach_commitPoint_eq (i : Nat) (g : Prog) (st : ProgSt) (l : List Nat) (m : Mach) :
    ∃ x, forEach l (commitPoint i g st) m = { m with sig := x } := by
  induction l generalizing m with
  | nil => exact ⟨m.sig, rfl⟩
  | cons pt l ih =>
    obtain ⟨x, hx⟩ := commitPoint_eq i g st pt m
    rw [forEach_cons, hx]
    exact ih _

/-- The program after the commit of a cycle that has ended in state `st`. -/
def committedProg (st : ProgSt) (g : Program) : Program :=
  { g with st := st, committed := some (g.prog, st), cycle := none, ctrs := bump g.ctrs 0 }

/-- The module after the commit of a program: its points, the program, and what is retained of it. -/
def withCommit (i : Nat) (g : Program) (r : Retained) (x : Signals) (m : Mach) : Mach :=
  { m with sig := x, lge := { m.lge with progs := tset m.lge.progs i g, retained := tset m.lge.retained i r } }

theorem withCommit_only (i : Nat) (g : Program) (r : Retained) (x : Signals) (m : Mach) : Only [.lge, .sig] m (withCommit i g r x m) := by
  intro p hp
  cases p
  case lge => simp at hp
  case sig => simp at hp
  case mem => exact fun _ => rfl
  all_goals rfl

theorem boundaryCommit_complete {i : Nat} {g : Program} {c : Cycle} {m : Mach} (hg : tget m.lge.progs i = some g) (hc : g.cycle = some c)
    (hl : c.left = 0) : ∃ x r, r.prog = g.prog.id ∧ r.st = c.result ∧
      boundaryCommit i m = withCommit i (committedProg c.result g) r x m := by
  obtain ⟨x, hx⟩ := forEach_commitPoint_eq i g.prog c.result (g.prog.outs.map (·.point)).eraseDups m
  refine ⟨x, { prog := g.prog.id, st := c.result, points := retPoints (withProg i (committedProg c.result g) { m with sig := x }) g.prog },
    rfl, rfl, ?_⟩
  simp only [boundaryCommit, hg, hc, hl, if_true, commitCycle, hx, onProg_eq (m := { m with sig := x }) hg]
  rfl

-- The cycle that begins (R313, R316)

/-- The program in a cycle that has begun at a boundary. -/
def begunProg (c : Cycle) (g : Program) : Program :=
  { g with cycle := some c, next := some (c.b + g.c), k2 := false, k3 := false, k4 := false }

/-- The module with other free values. -/
def withFree (k : Nat) (m : Mach) : Mach := { m with free := k }

theorem withFree_only (k : Nat) (m : Mach) : Only [.free] m (withFree k m) := by
  intro p hp
  cases p
  case free => simp at hp
  case mem => exact fun _ => rfl
  all_goals rfl

/-- A cycle begins with all its steps before it. -/
def FreshCycle (b : Tick) (c : Cycle) : Prop := c.b = b ∧ c.left = c.steps ∧ c.late = false

theorem beginCycle_eq {i : Nat} {g : Program} {m : Mach} (hg : tget m.lge.progs i = some g) (n : Tick) :
    ∃ c k, FreshCycle n c ∧ beginCycle i n m = withProg i (begunProg c g) (withFree k m) := by
  let r := runCycle g.prog (g.prog.ins.map (inputBit m i g.owner)) (kBits m i g) (tickAt m n) g.st
  have hfresh : FreshCycle n { b := n, steps := r.2, left := r.2, result := r.1, late := false } := ⟨rfl, rfl, rfl⟩
  refine ⟨_, if g.prog.ins.any (inputRefused m i g.owner) then m.free + 2 ^ 31 else m.free, hfresh, ?_⟩
  simp only [beginCycle, hg]
  split
  · exact onProg_eq (m := { m with free := m.free + 2 ^ 31 }) hg _
  · exact onProg_eq hg _

theorem restartPoints_none {i : Nat} {g : Program} {m : Mach} (hg : tget m.lge.progs i = some g) (hp : g.pointsDue = none) (n : Tick) :
    restartPoints i n m = m := by
  simp [restartPoints, hg, hp]

/-- Nothing waits for the program's boundary: no exchange, no change and no point to be returned. -/
def NothingWaits (g : Program) : Prop := g.exchange = [] ∧ g.change = none ∧ g.pointsDue = none

theorem boundaryBegin_free {i : Nat} {g : Program} {m : Mach} (hg : tget m.lge.progs i = some g) (hc : g.cycle = none) (n : Tick) (t : Ns) :
    boundaryBegin i n t m = afterCommit i n t m := by
  simp only [boundaryBegin, hg, hc]

/-- With no cycle in progress and nothing waiting, the next cycle begins if the program runs. -/
theorem afterCommit_eq {i : Nat} {g : Program} {m : Mach} (hg : tget m.lge.progs i = some g) (hp : NothingWaits g) (n : Tick) (t : Ns) :
    afterCommit i n t m =
      if progRuns m t g then beginCycle i n (withProg i g m) else withProg i { g with next := none } m := by
  obtain ⟨hx, hchange, hpoints⟩ := hp
  have hsame : { g with exchange := [] } = g := by rw [← hx]
  have hclear : onProg i (fun h => { h with exchange := [] }) m = withProg i g m := by rw [onProg_eq hg, hsame]
  have htake := takeChange_eq (tget_withProg i g m) n
  rw [changeTaken_none hchange, withProg_withProg] at htake
  simp only [afterCommit, hg, hclear, hx, forEach_nil, htake, restartPoints_none (tget_withProg i g m) hpoints,
    onProg_eq (tget_withProg i g m), withProg_withProg, progRuns_withProg]

/-- A boundary of a program that does not run begins no cycle (R333). -/
theorem boundary_idle {i : Nat} {g : Program} {m : Mach} {t : Ns} (hg : tget m.lge.progs i = some g) (hc : g.cycle = none) (hp : NothingWaits g)
    (hr : progRuns m t g = false) (n : Tick) :
    boundaryBegin i n t (boundaryCommit i m) = withProg i { g with next := none } m := by
  have hcommit : boundaryCommit i m = m := by simp only [boundaryCommit, hg, hc]
  rw [hcommit, boundaryBegin_free hg hc, afterCommit_eq hg hp, hr]
  exact if_neg Bool.false_ne_true

/-- A boundary of a program that runs, with no cycle before it, begins the next one. -/
theorem boundary_begins {i : Nat} {g : Program} {m : Mach} {t : Ns} (hg : tget m.lge.progs i = some g) (hc : g.cycle = none) (hp : NothingWaits g)
    (hr : progRuns m t g = true) (n : Tick) : ∃ c k, FreshCycle n c ∧
      boundaryBegin i n t (boundaryCommit i m) = withProg i (begunProg c g) (withFree k m) := by
  have hcommit : boundaryCommit i m = m := by simp only [boundaryCommit, hg, hc]
  obtain ⟨c, k, hfresh, hbegun⟩ := beginCycle_eq (tget_withProg i g m) n
  refine ⟨c, k, hfresh, ?_⟩
  rw [hcommit, boundaryBegin_free hg hc, afterCommit_eq hg hp, if_pos hr, hbegun]
  exact withProg_withProg i g _ (withFree k m)

/-- A boundary of a program that runs commits the cycle that is complete, and begins the next one (R315). -/
theorem boundary_commits {i : Nat} {g : Program} {e : Cycle} {m : Mach} {t : Ns} (hg : tget m.lge.progs i = some g) (hc : g.cycle = some e)
    (hl : e.left = 0) (hp : NothingWaits g) (hr : progRuns m t g = true) (n : Tick) :
    ∃ c k x r, FreshCycle n c ∧ r.prog = g.prog.id ∧ r.st = e.result ∧
      boundaryBegin i n t (boundaryCommit i m) = withCommit i (begunProg c (committedProg e.result g)) r x (withFree k m) := by
  obtain ⟨x, r, hprog, hst, hcommit⟩ := boundaryCommit_complete hg hc hl
  have hg' : tget (withCommit i (committedProg e.result g) r x m).lge.progs i = some (committedProg e.result g) := tget_tset_same _ _ _
  have hr2 : progRuns (withCommit i (committedProg e.result g) r x m) t (committedProg e.result g) = true := hr
  obtain ⟨c, k, hfresh, hbegun⟩ := beginCycle_eq (tget_withProg i (committedProg e.result g) (withCommit i (committedProg e.result g) r x m)) n
  refine ⟨c, k, x, r, hfresh, hprog, hst, ?_⟩
  rw [hcommit, boundaryBegin_free hg' rfl, afterCommit_eq hg' hp, if_pos hr2, hbegun]
  simp [withProg, withCommit, withFree, tset_tset_same]

-- What the assembly of a tick leaves alone: no part of it takes time, so it stands where the clock has reached D (R23, R133)

theorem time_ite (p : Prop) [Decidable p] (a b : Mach) : (if p then a else b).time = if p then a.time else b.time := apply_ite ..

/-- A change made for each element of a list leaves alone what each change leaves alone. -/
theorem forEach_same {α β : Type} (get : Mach → β) {f : α → Mach → Mach} (hf : ∀ a m, get (f a m) = get m) (l : List α) (m : Mach) :
    get (forEach l f m) = get m := by
  induction l generalizing m with
  | nil => rfl
  | cons a r ih => exact (ih _).trans (hf a m)

@[simp] theorem forEach_time {α : Type} {f : α → Mach → Mach} (hf : ∀ a m, (f a m).time = m.time) (l : List α) (m : Mach) :
    (forEach l f m).time = m.time := forEach_same _ hf l m

-- The chain and the estimate engine (R87 to R128)

@[simp] theorem onGroup_time (g : Nat) (f : Group → Group) (m : Mach) : (onGroup g f m).time = m.time := by
  simp [onGroup]

@[simp] theorem onChan_time (c : Nat) (f : Chan → Chan) (m : Mach) : (onChan c f m).time = m.time := by
  simp [onChan]

@[simp] theorem estCount_time (g i : Nat) (m : Mach) : (estCount g i m).time = m.time := by
  simp [estCount]

@[simp] theorem rscCount_time (g i k : Nat) (m : Mach) : (rscCount g i k m).time = m.time := by
  simp [rscCount]

@[simp] theorem showBank_time (g : Nat) (m : Mach) : (showBank g m).time = m.time := by
  simp [showBank]

@[simp] theorem beginSwap_time (g n : Nat) (m : Mach) : (beginSwap g n m).time = m.time := by
  simp [beginSwap]

@[simp] theorem enterRecovery_time (g : Nat) (m : Mach) : (enterRecovery g m).time = m.time := by
  simp [enterRecovery, time_ite]

@[simp] theorem leaveRecovery_time (g : Nat) (m : Mach) : (leaveRecovery g m).time = m.time := by
  simp [leaveRecovery]

@[simp] theorem holdSwap_time (g : Nat) (s : Nat × Nat) (m : Mach) : (holdSwap g s m).time = m.time := by
  simp [holdSwap, time_ite]

@[simp] theorem resolveSwaps_time (g : Nat) (t : Ns) (m : Mach) : (resolveSwaps g t m).time = m.time := by
  unfold resolveSwaps
  split
  · rfl
  · dsimp only
    split
    · simp
    · split <;> simp [time_ite]

@[simp] theorem limitingOver_time (g : Nat) (d : AsmDue) (m : Mach) : (limitingOver g d m).time = m.time := by
  simp [limitingOver, time_ite]

@[simp] theorem countOuts_time (g : Nat) (d : AsmDue) (outs) (m : Mach) : (countOuts g d outs m).time = m.time := by
  simp [countOuts, time_ite, forEach_time fun _ _ => raise_time ..]

@[simp] theorem endFreeze_time (g ch : Nat) (m : Mach) : (endFreeze g ch m).time = m.time := by
  simp [endFreeze]

@[simp] theorem freezeStep_time (g ch ht : Nat) (m : Mach) : (freezeStep g ch ht m).time = m.time := by
  simp [freezeStep, time_ite]

@[simp] theorem chanBlock_time (x) (o : Nat × ChainOut) (m : Mach) : (chanBlock x o m).time = m.time := by
  simp [chanBlock]

@[simp] theorem trigger_time (chans) (group) (ch) (m : Mach) : (trigger chans group ch m).time = m.time := by
  simp [trigger]

@[simp] theorem chanTrigger_time (x) (o : Nat × ChainOut) (m : Mach) : (chanTrigger x o m).time = m.time := by
  unfold chanTrigger
  split <;> simp [time_ite]

@[simp] theorem transition_time (g ch pos k on src q t) (m : Mach) : (transition g ch pos k on src q t m).time = m.time := by
  unfold transition
  split
  · rfl
  · dsimp only
    split
    · simp
    · split <;> simp [time_ite, putPoint]

@[simp] theorem compStep_time (g ch pos q t y d fast fine invalid k) (m : Mach) :
    (compStep g ch pos q t y d fast fine invalid k m).time = m.time := by
  unfold compStep
  split <;> simp [time_ite]

@[simp] theorem chanRecord_time (x pos) (o : Nat × ChainOut) (m : Mach) : (chanRecord x pos o m).time = m.time := by
  unfold chanRecord
  split <;> simp [time_ite]

@[simp] theorem loseTracking_time (g) (m : Mach) : (loseTracking g m).time = m.time := by
  simp [loseTracking]

@[simp] theorem trackFailed_time (x g) (m : Mach) : (trackFailed x g m).time = m.time := by
  simp [trackFailed, time_ite]

@[simp] theorem trackStep_time (x g n here before) (m : Mach) : (trackStep x g n here before m).time = m.time := by
  unfold trackStep
  split <;> simp [time_ite]

@[simp] theorem boundaryStep_time (x) (m : Mach) : (boundaryStep x m).time = m.time := by
  unfold boundaryStep
  split <;> simp [time_ite]

@[simp] theorem advanceSwap_time (g) (m : Mach) : (advanceSwap g m).time = m.time := by
  unfold advanceSwap
  split <;> simp [time_ite]

@[simp] theorem compsOff_time (l) (m : Mach) : (compsOff l m).time = m.time := by
  simp [compsOff]

@[simp] theorem startGroup_time (g s) (m : Mach) : (startGroup g s m).time = m.time := by
  simp [startGroup]

@[simp] theorem putSettings_time (g e) (m : Mach) : (putSettings g e m).time = m.time := by
  unfold putSettings
  split <;> simp

@[simp] theorem putFreeze_time (g r c rel ms) (m : Mach) : (putFreeze g r c rel ms m).time = m.time := by
  unfold putFreeze
  split <;> simp

@[simp] theorem estDueNow_time (g r t) (m : Mach) : (estDueNow g r t m).time = m.time := by
  unfold estDueNow
  split <;> simp

@[simp] theorem estGridRestart_time (g o n t) (m : Mach) : (estGridRestart g o n t m).time = m.time := by
  unfold estGridRestart
  split <;> simp [time_ite]

@[simp] theorem groupReady_time (g d) (m : Mach) : (groupReady g d m).time = m.time := by
  unfold groupReady
  dsimp only
  split <;> simp [time_ite]

@[simp] theorem groupTick_time (g s d) (m : Mach) : (groupTick g s d m).time = m.time := by
  unfold groupTick
  dsimp only
  split <;> simp [time_ite]

@[simp] theorem groupIdle_time (g d) (m : Mach) : (groupIdle g d m).time = m.time := by
  unfold groupIdle
  dsimp only
  split <;> simp

@[simp] theorem groupsTick_time (d) (m : Mach) : (groupsTick d m).time = m.time := by
  simp only [groupsTick, onFlt_time]
  refine forEach_time (fun e m => ?_) _ _
  split <;> simp

-- The energy engine (R347 to R359)

/-- What the energy engine leaves alone: the time unit, and the grid with the chain's and the estimates' state. -/
def timeFlt (m : Mach) : TimeUnit × Filters := (m.time, m.flt)

theorem timeFlt_ite (p : Prop) [Decidable p] (a b : Mach) : timeFlt (if p then a else b) = if p then timeFlt a else timeFlt b := apply_ite ..

@[simp] theorem forEach_timeFlt {α : Type} {f : α → Mach → Mach} (hf : ∀ a m, timeFlt (f a m) = timeFlt m) (l : List α) (m : Mach) :
    timeFlt (forEach l f m) = timeFlt m := forEach_same _ hf l m

@[simp] theorem raise_timeFlt (c t : Nat) (p : Bytes) (m : Mach) : timeFlt (raise c t p m) = timeFlt m := by
  simp [timeFlt]

@[simp] theorem onEng_timeFlt (f) (m : Mach) : timeFlt (onEng f m) = timeFlt m := by
  simp [timeFlt]

@[simp] theorem free_timeFlt (k : Nat) (m : Mach) : timeFlt { m with free := k } = timeFlt m := by
  simp [timeFlt]

@[simp] theorem onMeter_timeFlt (i : Nat) (f : Meter → Meter) (m : Mach) : timeFlt (onMeter i f m) = timeFlt m := by
  simp [onMeter]

@[simp] theorem meterCount_timeFlt (i j k : Nat) (m : Mach) : timeFlt (meterCount i j k m) = timeFlt m := by
  simp [meterCount]

@[simp] theorem onOut_timeFlt (o : Nat) (f : PulseOut → PulseOut) (m : Mach) : timeFlt (onOut o f m) = timeFlt m := by
  simp [onOut]

@[simp] theorem pendPulse_timeFlt (o w n : Nat) (m : Mach) : timeFlt (pendPulse o w n m) = timeFlt m := by
  simp [pendPulse, timeFlt_ite]

@[simp] theorem feedOut_timeFlt (o c b e) (m : Mach) : timeFlt (feedOut o c b e m) = timeFlt m := by
  simp [feedOut]

@[simp] theorem addReg_timeFlt (i j e) (m : Mach) : timeFlt (addReg i j e m) = timeFlt m := by
  simp [addReg, timeFlt_ite]

@[simp] theorem takeInc_timeFlt (i j b e) (m : Mach) : timeFlt (takeInc i j b e m) = timeFlt m := by
  simp [takeInc]

@[simp] theorem applyInc_timeFlt (b x) (m : Mach) : timeFlt (applyInc b x m) = timeFlt m := by
  simp [applyInc, timeFlt_ite]

@[simp] theorem endOutage_timeFlt (b) (m : Mach) : timeFlt (endOutage b m) = timeFlt m := by
  unfold endOutage
  split <;> simp [timeFlt_ite]

@[simp] theorem applyIncs_timeFlt (m : Mach) : timeFlt (applyIncs m) = timeFlt m := by
  unfold applyIncs
  split <;> simp [timeFlt_ite, applyBatch, keepPast]

@[simp] theorem putDue_timeFlt (x) (m : Mach) : timeFlt (putDue x m) = timeFlt m := by
  cases x <;> simp [putDue, putMeter, putOut, presetReg, timeFlt_ite]

@[simp] theorem seqChange_timeFlt (i r : Nat) (m : Mach) : timeFlt (seqChange i r m) = timeFlt m := by
  simp [seqChange, timeFlt_ite]

@[simp] theorem neutChange_timeFlt (i r : Nat) (m : Mach) : timeFlt (neutChange i r m) = timeFlt m := by
  simp [neutChange, timeFlt_ite]

@[simp] theorem supervise_timeFlt (i r : Nat) (m : Mach) : timeFlt (supervise i r m) = timeFlt m := by
  simp [supervise]

@[simp] theorem energyTick_timeFlt (d r) (m : Mach) : timeFlt (energyTick d r m) = timeFlt m := by
  simp [energyTick, timeFlt_ite]

-- Ingest (R90 to R95)

@[simp] theorem onSub_time (i f) (m : Mach) : (onSub i f m).time = m.time := by
  simp [onSub]

@[simp] theorem countSubst_time (i p) (m : Mach) : (countSubst i p m).time = m.time := by
  unfold countSubst
  split <;> simp [subCount, time_ite]

@[simp] theorem passPositions_time (d i k) (m : Mach) : (passPositions d i k m).time = m.time := by
  induction k generalizing m with
  | zero => rfl
  | succ k ih =>
    unfold passPositions
    split
    · rfl
    · dsimp only
      split <;> simp [ih, time_ite]

theorem inTimeOf_time {f : Mach → Mach} (hf : ∀ m, (f m).time = m.time) (i k) (m : Mach) : (inTimeOf i k f m).time = m.time := by
  unfold inTimeOf
  split <;> simp [hf]

@[simp] theorem ingestDeadline_time (d) (m : Mach) : (ingestDeadline d m).time = m.time := by
  unfold ingestDeadline
  dsimp only
  rw [forEach_time fun e m => ?_]
  · rfl
  · split
    · rw [inTimeOf_time fun m => ?_]
      simp [time_ite]
    · simp [time_ite]

-- Points, windows and publish blocks (R212 to R236)

@[simp] theorem putPoint_time (i v) (m : Mach) : (putPoint i v m).time = m.time := by
  simp [putPoint]

@[simp] theorem ownerWrite_time (i v q) (m : Mach) : (ownerWrite i v q m).time = m.time := by
  simp [ownerWrite, time_ite]

@[simp] theorem returnPoint_time (i t) (m : Mach) : (returnPoint i t m).time = m.time := by
  unfold returnPoint
  split <;> simp

@[simp] theorem commitOne_time (t i s) (m : Mach) : (commitOne t i s m).time = m.time := by
  simp [commitOne, time_ite, slcCount, onSlice_time]

@[simp] theorem commitDue_time (m : Mach) : (commitDue m).time = m.time := by
  simp [commitDue, commitWindow]

@[simp] theorem captureLines_time (m : Mach) : (captureLines m).time = m.time := by
  simp [captureLines, time_ite]

@[simp] theorem carryCurves_time (a b) (m : Mach) : (carryCurves a b m).time = m.time := by
  simp [carryCurves]

@[simp] theorem pubCount_time (a b c) (m : Mach) : (pubCount a b c m).time = m.time := by
  simp [pubCount]

@[simp] theorem setPub_time (a b) (m : Mach) : (setPub a b m).time = m.time := by
  simp [setPub]

@[simp] theorem enqueuePub_time (a b c d e) (m : Mach) : (enqueuePub a b c d e m).time = m.time := by
  simp [enqueuePub, time_ite, sendInner]

@[simp] theorem pubSend_time (a b c d e f) (m : Mach) : (pubSend a b c d e f m).time = m.time := by
  simp [pubSend, time_ite]

@[simp] theorem sendOwed_time (d x) (m : Mach) : (sendOwed d x m).time = m.time := by
  unfold sendOwed
  split <;> simp [pubChange, pubRepeat, time_ite]

@[simp] theorem gooseSnapshot_time (d) (m : Mach) : (gooseSnapshot d m).time = m.time := by
  simp [gooseSnapshot]

-- The logic engine

@[simp] theorem onProg_time (i f) (m : Mach) : (onProg i f m).time = m.time := by
  unfold onProg
  split <;> simp

@[simp] theorem progEvent_time (c i p) (m : Mach) : (progEvent c i p m).time = m.time := by
  simp [progEvent]

@[simp] theorem commitPoint_time (i g st pt) (m : Mach) : (commitPoint i g st pt m).time = m.time := by
  simp [commitPoint, time_ite]

@[simp] theorem logicPeriod_time (m : Mach) : (logicPeriod m).time = m.time := by
  simp [logicPeriod, time_ite]

@[simp] theorem logicGrid_time (n) (m : Mach) : (logicGrid n m).time = m.time := by
  simp [logicGrid]

@[simp] theorem exchangeProg_time (i x) (m : Mach) : (exchangeProg i x m).time = m.time := by
  unfold exchangeProg
  split <;> simp

@[simp] theorem takeChange_time (i n) (m : Mach) : (takeChange i n m).time = m.time := by
  simp [takeChange]

@[simp] theorem restartPoints_time (i n) (m : Mach) : (restartPoints i n m).time = m.time := by
  unfold restartPoints
  split
  · rfl
  · split <;> simp

@[simp] theorem beginCycle_time (i n) (m : Mach) : (beginCycle i n m).time = m.time := by
  unfold beginCycle
  split <;> simp [time_ite]

@[simp] theorem afterCommit_time (i n t) (m : Mach) : (afterCommit i n t m).time = m.time := by
  unfold afterCommit
  split <;> simp [time_ite]

@[simp] theorem boundaryBegin_time (i n t) (m : Mach) : (boundaryBegin i n t m).time = m.time := by
  unfold boundaryBegin
  split
  · rfl
  · split <;> simp [time_ite]

@[simp] theorem boundaryCommit_time (i) (m : Mach) : (boundaryCommit i m).time = m.time := by
  unfold boundaryCommit
  split
  · rfl
  · split <;> simp [time_ite, commitCycle]

@[simp] theorem endBoundary_time (n x) (m : Mach) : (endBoundary n x m).time = m.time := by
  unfold endBoundary
  split
  · rfl
  · dsimp only
    split
    · simp
    · split
      · split <;> simp [progCount]
      · simp [progCount, time_ite]

@[simp] theorem commitForces_time (m : Mach) : (commitForces m).time = m.time := by
  simp only [commitForces]
  rw [forEach_time fun d m => ?_]
  · rfl
  · split
    · rfl
    · split
      · split <;> simp
      · simp [commitForced, time_ite]

theorem logicBoundaries_time {f : Mach → Mach} (hf : ∀ m, (f m).time = m.time) (n t) (m : Mach) : (logicBoundaries n t f m).time = m.time := by
  simp [logicBoundaries, hf, time_ite]

@[simp] theorem decideTick_time (d) (m : Mach) : (decideTick d m).time = m.time := by
  simp only [decideTick, gooseSnapshot_time, time_ite]
  rw [logicBoundaries_time fun m => ?_, ite_self]
  simp only [time_ite, sendHealthWord, onUmb_time, ite_self]
  unfold commitUmberBits
  split <;> simp [time_ite]

-- The twin unit's capture (R422)

@[simp] theorem closeCapture_time (d) (m : Mach) : (closeCapture d m).time = m.time := by
  unfold closeCapture
  split
  · rfl
  · split
    · simp [takeSnaps]
    · dsimp only
      split
      · rw [forEach_time fun _ _ => ?_]
        · simp [takeSnaps]
        · simp
      · simp [takeSnaps]

-- Frames, and what is judged of words and mirrors (R133, R379, R425)

/-- What frames and the judgements of words and mirrors leave alone: the time unit, the chain's state, and the energy engine. -/
def timeFltEng (m : Mach) : TimeUnit × Filters × Energy := (m.time, m.flt, m.eng)

theorem timeFltEng_ite (p : Prop) [Decidable p] (a b : Mach) :
    timeFltEng (if p then a else b) = if p then timeFltEng a else timeFltEng b := apply_ite ..

@[simp] theorem forEach_timeFltEng {α : Type} {f : α → Mach → Mach} (hf : ∀ a m, timeFltEng (f a m) = timeFltEng m) (l : List α) (m : Mach) :
    timeFltEng (forEach l f m) = timeFltEng m := forEach_same _ hf l m

@[simp] theorem raise_timeFltEng (c t : Nat) (p : Bytes) (m : Mach) : timeFltEng (raise c t p m) = timeFltEng m := by
  simp [timeFltEng]

@[simp] theorem onCpu_timeFltEng (f) (m : Mach) : timeFltEng (onCpu f m) = timeFltEng m := by
  simp [timeFltEng]

@[simp] theorem onUmb_timeFltEng (f) (m : Mach) : timeFltEng (onUmb f m) = timeFltEng m := by
  simp [timeFltEng]

@[simp] theorem onTwn_timeFltEng (f) (m : Mach) : timeFltEng (onTwn f m) = timeFltEng m := by
  simp [timeFltEng]

@[simp] theorem onSlice_timeFltEng (t f) (m : Mach) : timeFltEng (onSlice t f m) = timeFltEng m := by
  unfold onSlice
  split <;> simp

@[simp] theorem onLge_timeFltEng (f) (m : Mach) : timeFltEng (onLge f m) = timeFltEng m := by
  simp [timeFltEng]

@[simp] theorem slcPut_timeFltEng (t a b) (m : Mach) : timeFltEng (slcPut t a b m) = timeFltEng m := by
  simp [timeFltEng, slcPut]

@[simp] theorem rearm_timeFltEng (i) (m : Mach) : timeFltEng (rearm i m) = timeFltEng m := by
  unfold rearm
  split <;> simp [timeFltEng, onRing]

@[simp] theorem dropItem_timeFltEng (t i) (m : Mach) : timeFltEng (dropItem t i m) = timeFltEng m := by
  simp [dropItem, setDelay, setReady]

@[simp] theorem enterItem_timeFltEng (t i) (m : Mach) : timeFltEng (enterItem t i m).2 = timeFltEng m := by
  unfold enterItem
  split <;> simp [timeFltEng_ite, makeReady, setDelay, setReady]

@[simp] theorem postFrame_timeFltEng (t h d a) (m : Mach) : timeFltEng (postFrame t h d a m) = timeFltEng m := by
  simp [postFrame, timeFltEng_ite, dspCount, frameCount]

@[simp] theorem assembleFrame_timeFltEng (d t) (m : Mach) : timeFltEng (assembleFrame d t m) = timeFltEng m := by
  unfold assembleFrame
  split <;> simp [timeFltEng_ite]

@[simp] theorem assembleFrames_timeFltEng (d) (m : Mach) : timeFltEng (assembleFrames d m) = timeFltEng m := by
  have hframes := forEach_timeFltEng (assembleFrame_timeFltEng d) (m.cpu.slices.map (·.1)) m
  simpa [assembleFrames, timeFltEng] using hframes

@[simp] theorem judgeWord_timeFltEng (n) (m : Mach) : timeFltEng (judgeWord n m) = timeFltEng m := by
  simp [judgeWord, timeFltEng_ite, umbCount]

@[simp] theorem judgeMirror_timeFltEng (n) (m : Mach) : timeFltEng (judgeMirror n m) = timeFltEng m := by
  simp [judgeMirror, mirrorLate, startResync, twnCount, timeFltEng_ite]

-- The assembly of a tick (R133, R315)

theorem makeLate_nil {d : AsmDue} (h : d.late = []) (m : Mach) : makeLate d m = m := by
  simp only [makeLate, h, forEach_nil]
  rfl

theorem onGrid_time {f : Mach → Mach} (hf : ∀ m, (f m).time = m.time) (g : Grid) (m : Mach) : (onGrid g f m).time = m.time := by
  simp [onGrid, hf]

@[simp] theorem onGrid_assembledBefore (g : Grid) (f : Mach → Mach) (m : Mach) :
    assembledBefore (onGrid g f m) = assembledBefore (f (onTime (fun t => { t with grid := g }) m)) := rfl

theorem withViews_assembledBefore (t : Ns) (f : Mach → Mach) (m : Mach) :
    ∃ v, assembledBefore (withViews t f m) = assembledBefore (f { m with svi := v }) := ⟨_, rfl⟩

theorem assembledBefore_of_timeFltEng {a b : Mach} (h : timeFltEng a = timeFltEng b) : assembledBefore a = assembledBefore b := by
  simp only [timeFltEng, Prod.mk.injEq] at h
  obtain ⟨-, hflt, heng⟩ := h
  simp only [assembledBefore, hflt, heng]

theorem time_of_timeFlt {a b : Mach} (h : timeFlt a = timeFlt b) : a.time = b.time := congrArg Prod.fst h

theorem time_of_timeFltEng {a b : Mach} (h : timeFltEng a = timeFltEng b) : a.time = b.time := congrArg Prod.fst h

/-- The increments of a tick are the last that set out, and its grid the one that the chain runs on. -/
theorem energyTick_assembledBefore (d : AsmDue) (r : Bool) (m : Mach) : assembledBefore (energyTick d r (groupsTick d m)) = some d.tick := by
  have hflt : (energyTick d r (groupsTick d m)).flt.grid = some d.grid := congrArg (·.2.grid) (energyTick_timeFlt d r (groupsTick d m))
  have hlast : ((energyTick d r (groupsTick d m)).eng.incs.getLast?.map (·.tick)) = some d.tick := by simp [energyTick]
  simp [assembledBefore, hflt, hlast]

/-- The chain, the estimates, energy and the frames of a tick (R133). -/
def chainTick (d : AsmDue) (r : Bool) : Mach → Mach :=
  withViews d.t fun m => assembleFrames d (energyTick d r (groupsTick d m))

theorem chainTick_time (d : AsmDue) (r : Bool) (m : Mach) : (chainTick d r m).time = m.time := by
  simp only [chainTick, withViews]
  rw [time_of_timeFltEng (assembleFrames_timeFltEng ..), time_of_timeFlt (energyTick_timeFlt ..), groupsTick_time]

theorem chainTick_assembledBefore (d : AsmDue) (r : Bool) (m : Mach) : assembledBefore (chainTick d r m) = some d.tick := by
  rw [chainTick]
  obtain ⟨v, hv⟩ := withViews_assembledBefore d.t (fun m => assembleFrames d (energyTick d r (groupsTick d m))) m
  rw [hv, assembledBefore_of_timeFltEng (assembleFrames_timeFltEng ..), energyTick_assembledBefore]

/-- A tick assembled is the tick assembled before; the assembly takes no time where no change was left to it. -/
theorem assembleTick_spec {d : AsmDue} (h : d.late = []) (m : Mach) :
    (assembleTick d m).time = m.time ∧ assembledBefore (assembleTick d m) = some d.tick := by
  unfold assembleTick
  extract_lets m1 prev restarted m2 m3 m4 m5 inner m6 m7 m8 m9 m10
  have h1 : m1 = m := makeLate_nil h m
  have h5 : m5.time = m1.time := by simp [m5, m4, m3, m2, time_ite]
  have h6 : m6.time = m5.time := onGrid_time (fun n => by simp) d.grid m5
  have h7 : m7.time = m6.time := by simp [m7, time_ite]
  have h8 : m8.time = m7.time := onGrid_time (chainTick_time d restarted) d.grid m7
  have hprev : timeFltEng m9 = timeFltEng m8 := by
    show timeFltEng (match prev with | none => m8 | some k => judgeWord k m8) = timeFltEng m8
    clear_value m8 m7 m6 m5 m4 restarted prev
    cases prev with
    | none => rfl
    | some k => exact judgeWord_timeFltEng k m8
  have h10 : timeFltEng m10 = timeFltEng m9 := by simp [m10, timeFltEng_ite]
  have hlast : timeFltEng (onLge (fun l => { l with used := false }) m10) = timeFltEng m8 := by
    rw [onLge_timeFltEng, h10, hprev]
  have hbefore : assembledBefore m8 = some d.tick := by
    rw [show m8 = onGrid d.grid (chainTick d restarted) m7 from rfl, onGrid_assembledBefore, chainTick_assembledBefore]
  rw [time_of_timeFltEng hlast, assembledBefore_of_timeFltEng hlast, h8, h7, h6, h5, h1]
  exact ⟨rfl, hbefore⟩

theorem execAssembly_makes (s : State) : Makes .assembly s (assembleNext s.m) := rfl

/-- The oldest tick that is due is assembled when the clock has reached its D. -/
theorem assembleNext_spec {m : Mach} {d : AsmDue} {rest : List AsmDue} (hr : clockRuns m = true) (ha : m.time.asm = d :: rest)
    (hl : d.late = []) :
    (assembleNext m).time = { (advanceTo d.d m).time with asm := rest } ∧ assembledBefore (assembleNext m) = some d.tick := by
  have hnext : assembleNext m = assembleTick d (onTime (fun t => { t with asm := rest }) (advanceTo d.d m)) := by
    simp [assembleNext, hr, ha]
  rw [hnext]
  exact assembleTick_spec hl _

-- The row of a boundary (R312, R315)

theorem logicCycleBoundary_makes {s : State} {prog : Fin 64} {g : Program} {n : Tick} (hg : tget s.m.lge.progs prog.val = some g)
    (hn : g.next = some n) (hr : computeReady s.m = true) :
    Makes (.logicCycleBoundary prog) s (assembleSome (assembliesToBoundary n s.m) s.m) := by
  change execLogicCycleBoundary prog s = _
  simp only [execLogicCycleBoundary, runOn_next, hg, Option.bind_some, hn, hr, if_true]

theorem logicCycleBoundary_none {s : State} {prog : Fin 64}
    (h : (∀ g, tget s.m.lge.progs prog.val = some g → g.next = none) ∨ computeReady s.m = false) :
    Makes (.logicCycleBoundary prog) s s.m := by
  change execLogicCycleBoundary prog s = _
  simp only [execLogicCycleBoundary, runOn_next]
  cases hnext : (tget s.m.lge.progs prog.val).bind (·.next) with
  | none => rfl
  | some n =>
    obtain ⟨g, hg, hn⟩ := Option.bind_eq_some_iff.1 hnext
    rcases h with h | h
    · simp [h g hg] at hn
    · simp [h]

/-- The first assembly that is due brings the boundary about, if its tick has come or is the first of another grid. -/
theorem assembliesToBoundary_first {m : Mach} {n : Tick} {d : AsmDue} {rest : List AsmDue} (ha : m.time.asm = d :: rest)
    (h : m.flt.grid ≠ some d.grid ∨ n ≤ d.tick) : assembliesToBoundary n m = 1 := by
  have hcomes : (some d.grid != m.flt.grid || decide (n ≤ d.tick)) = true := by
    rcases h with h | h
    · simp [bne_iff_ne.2 (Ne.symm h)]
    · simp [h]
  simp [assembliesToBoundary, ha, List.findIdx?_cons, hcomes]

-- The execution period (R313)

/-- The clock passes cycles while it runs: nothing but the time unit changes. -/
theorem passCycles_eq {m : Mach} (h : clockRuns m = true) (k : Nat) : ∃ u, passCycles k m = { m with time := u } ∧ u.grid = m.time.grid := by
  simp only [passCycles, h, if_true]
  exact ⟨_, rfl, rfl⟩

theorem withTime_only (u : TimeUnit) (m : Mach) : Only [.time] m { m with time := u } := by
  intro p hp
  cases p
  case time => simp at hp
  case mem => exact fun _ => rfl
  all_goals rfl

theorem logicPeriod_eq {m : Mach} (hu : m.lge.used = false) (hr : computeReady m = true) :
    logicPeriod m = onLge (fun l => { l with
      used := true
      progs := tmap l.progs (fun _ g => periodOf (periodQuota m g.units) g)
      ending := l.ending.map fun x => (x.1, periodOf (periodQuota m x.2.units) x.2) }) m := by
  simp [logicPeriod, hu, hr]

theorem periodQuota_time {m : Mach} {u : TimeUnit} (h : u.grid = m.time.grid) (units : Nat) :
    periodQuota { m with time := u } units = periodQuota m units := by
  simp only [periodQuota, h]

/-- The row runs the period once the clock has reached the instant at which it begins. -/
theorem logicExecutionPeriod_makes {s : State} (hr : computeReady s.m = true) (hc : clockRuns s.m = true) (hu : s.m.lge.used = false) :
    ∃ u, u.grid = s.m.time.grid ∧ Makes .logicExecutionPeriod s (logicPeriod { s.m with time := u }) := by
  have hrow : Makes .logicExecutionPeriod s
      (logicPeriod (if gridAssembled s.m then advanceTo (asmAt s.m (nextAssembly s.m - 1) + 4000) s.m else s.m)) := by
    change execLogicExecutionPeriod s = _
    simp [execLogicExecutionPeriod, runOn_next, hr, hc, hu]
  split at hrow
  · obtain ⟨u, hu, hgrid⟩ := passCycles_eq hc (cyclesTo (asmAt s.m (nextAssembly s.m - 1) + 4000) s.m.time)
    rw [advanceTo, hu] at hrow
    exact ⟨u, hgrid, hrow⟩
  · exact ⟨s.m.time, rfl, hrow⟩

theorem logicExecutionPeriod_none {s : State} (h : s.m.lge.used = true ∨ computeReady s.m = false) : Makes .logicExecutionPeriod s s.m := by
  change execLogicExecutionPeriod s = _
  rcases h with h | h <;> simp [execLogicExecutionPeriod, runOn_next, h]

theorem periodOf_none {g : Program} (h : g.cycle = none) (q : Nat) : periodOf q g = g := by
  simp only [periodOf, h]

/-- A cycle goes on by its quota, and one that completes may have taken the most steps (R313). -/
theorem periodOf_some {g : Program} {c : Cycle} (h : g.cycle = some c) (q : Nat) : periodOf q g = { g with
    cycle := some { c with left := c.left - q }
    maxSteps := if c.left - q = 0 ∧ c.left ≠ 0 then max g.maxSteps c.steps else g.maxSteps } := by
  simp [periodOf, h]

/-- Settles O43: the row of a boundary by the assembly that brings it about; the boundary by the cycle that it finds; the row of the
execution period by the share that each program takes of it. -/
theorem logicPeriods : Obligations.LogicPeriods := by
  refine ⟨⟨fun s prog g n hg hn hr => ?row, fun s prog h => logicCycleBoundary_none h, fun m prog g n at_ hg => ?boundary⟩,
    fun s hr hc hu => ?period, fun s h => logicExecutionPeriod_none h⟩
  case row =>
    have made := logicCycleBoundary_makes hg hn hr
    refine ⟨made, fun h0 => by rwa [h0] at made, fun d rest ha hd hl hc => ?_⟩
    rw [assembliesToBoundary_first ha hd] at made
    obtain ⟨htime, htick⟩ := assembleNext_spec hc ha hl
    exact ⟨_, made, execAssembly_makes s, htime, htick⟩
  case boundary =>
    intro t
    refine ⟨fun c hc hl hch => ?overruns, fun c k u hc hl hch => ?changes, fun hc hx hch hp hr => boundary_idle hg hc ⟨hx, hch, hp⟩ hr n,
      fun hl hx hch hp hr => ?begins⟩
    case overruns =>
      have ht := boundary_inProgress hg hc hl n at_
      rw [changeTaken_none hch] at ht
      rw [show t = _ from ht]
      cases hlate : c.late with
      | true =>
        exact ⟨Only.mono (withProg_only _ _ _) (by decide), (tget_withProg _ _ _).trans (by simp [overrunProg, hlate]),
          by simp [Raises, withProg]⟩
      | false =>
        exact ⟨Only.trans (withProg_only _ _ _) (raise_only _ _ _ _), (tget_withProg _ _ _).trans (by simp [overrunProg, hlate]),
          raise_raises _ _ _ (withProg _ _ m)⟩
    case changes =>
      have hprog : tget t.lge.progs prog.val = some (overrunProg n c (changeTaken n g)) := by
        rw [show t = _ from boundary_inProgress hg hc hl n at_]
        split
        · exact tget_withProg _ _ _
        · exact tget_withProg _ _ _
      exact ⟨_, hprog, by simp [overrunProg, changeTaken, hch]⟩
    case begins =>
      cases hc : g.cycle with
      | none =>
        obtain ⟨c, k, ⟨hb, hleft, hlate⟩, ht⟩ := boundary_begins hg hc ⟨hx, hch, hp⟩ hr n
        rw [show t = _ from ht]
        refine ⟨begunProg c g, c, Only.mono (Only.trans (withFree_only k m) (withProg_only _ _ _)) (by decide), tget_withProg _ _ _, ?_⟩
        simp [begunProg, hb, hleft, hlate, withProg, withFree]
      | some e =>
        obtain ⟨c, k, x, r, ⟨hb, hleft, hlate⟩, hrprog, hrst, ht⟩ := boundary_commits hg hc (hl e hc) ⟨hx, hch, hp⟩ hr n
        rw [show t = _ from ht]
        refine ⟨begunProg c (committedProg e.result g), c,
          Only.mono (Only.trans (withFree_only k m) (withCommit_only _ _ _ _ _)) (by decide), tget_tset_same _ _ _, ?_⟩
        simp [begunProg, committedProg, hb, hleft, hlate, hrprog, hrst, withCommit, withFree]
  case period =>
    obtain ⟨u, hgrid, made⟩ := logicExecutionPeriod_makes hr hc hu
    rw [logicPeriod_eq (m := { s.m with time := u }) hu hr] at made
    refine ⟨_, made, ?_, rfl, rfl, rfl, fun i g hg => ?_⟩
    · exact Only.trans (withTime_only u s.m) (onLge_only _ _)
    · refine ⟨periodOf (periodQuota s.m g.units) g, ?_, fun hc => periodOf_none hc _, fun c hc => periodOf_some hc _⟩
      rw [onLge_lge, tget_tmap, show tget s.m.lge.progs i = some g from hg, Option.map_some, periodQuota_time hgrid]

end Sys2Proof.Machine
end
